-- ==== Sys2Proof/Word.lean ====
section
/-! DEFINITION. The word of the ALT3648 (R6). -/

namespace Sys2Proof

/-- A word is 36 bits (R6), numbered from 35 down to 0 (R7). -/
abbrev Word := BitVec 36

end Sys2Proof
end

