-- ==== Sys2Proof/Syntax.lean ====
section
/-! DEFINITION. The commands of the ALT3648: one constructor per row of spec/opcode_table.json, and the
shapes of what they carry (access records of R143, frames of the ring, the raster lanes, the bridges and the cameras). -/

set_option Elab.async false

namespace Sys2Proof

/-- Head, head lane and head power channel number (R15). -/
abbrev Head := Fin 32
/-- Index of a serial lane in the arrays of group 04 (R171). -/
abbrev LaneIx := Fin 48
/-- Raster lane RAS0 to RAS4 (R171). -/
abbrev Ras := Fin 5
/-- Rail index (R49). -/
abbrev Rail := Fin 9
/-- Bit of 01.002 READY that names a function (R60). -/
abbrev ReadyBit := Fin 26
/-- Slot on the ring (R108). -/
abbrev Slot := Fin 64
/-- Tile (R16). -/
abbrev Tile := Fin 27
/-- Encoder channel (R378). -/
abbrev Enc := Fin 2
/-- Auxiliary axis (R395). -/
abbrev Axis := Fin 2
/-- Camera input (R404). -/
abbrev Cam := Fin 4
/-- Memory index (R449). -/
abbrev Mem := Fin 8
/-- An octet of Ethernet, AUX or camera traffic. -/
abbrev Byte := BitVec 8

/-- A ring port (R120). -/
inductive RingPort where
  | rngA
  | rngB
deriving DecidableEq, Repr

/-- What an access names (R81): slot, object ID (group times 4,096 plus item, R11), first index or first word
offset, count or length, shadow flag (R90). -/
structure Access where
  slot : Nat
  obj : Nat
  index : Nat
  count : Nat
  shadow : Bool
deriving DecidableEq, Repr

/-- A cycle-frame copy at a device (R124 to R128): the 842 words received, whether it ended with EOF, and the
timestamps of its SOF at the receive pin and at the transmit pin, in 1/64 tick of the tick count (R153). -/
structure CopyIn where
  copyB : Bool
  words : List Word
  eofOk : Bool
  rx : Nat
  tx : Nat
deriving DecidableEq, Repr

/-- A transient fault in the encoder of the Block Compressor (R242): plane, block row, block, the attempt it strikes (0 the
first, 1 the second), and the bits it inverts in a word of the result. -/
structure CoderFault where
  plane : Nat
  brow : Nat
  block : Nat
  attempt : Nat
  word : Nat
  bits : Word
deriving DecidableEq, Repr

/-- The source of a captured edge (R169): its number, and for source 6 the trigger unit. -/
structure EdgeSource where
  source : Fin 8
  trig : Fin 16
deriving DecidableEq, Repr

/-- A lane's loss of symbol lock (R175, R176): the lane, and the code-group errors that it has seen in service since its
last loss. -/
structure LaneLoss where
  lane : LaneIx
  errors : Nat
deriving DecidableEq, Repr

/-- What a PRBS checker has at the end of a window (R191, R192): its errors in the window, and whether it still has lock. -/
structure PrbsErrors where
  count : Nat
  locked : Bool
deriving DecidableEq, Repr

/-- A frame from a head bridge (R347): its words, and whether it ended with EOF. -/
structure HeadReport where
  words : List Word
  eofOk : Bool
deriving DecidableEq, Repr

/-- The three data characters that carry m of a TMARK (R347). -/
structure MarkChars where
  d0 : Nat
  d1 : Nat
  d2 : Nat
deriving DecidableEq, Repr

/-- What an Ethernet frame at the host port is, as far as R140 and R141 judge it. -/
structure HostFrame where
  tagged : Bool
  etherType : Nat
  length : Nat
  pause : Bool
  headerBytes : Nat
  fragment : Bool
  target : BitVec 32
  udp : Bool
  icmpEcho : Bool
  udpPort : Nat
  checksumOk : Bool
deriving DecidableEq, Repr

/-- The header fields of an IEEE 1588-2019 message that R162 uses: domain, sequence number, two-step flag, clock
identity of the sender, correctionField in 2^-16 ns, announced log interval. -/
structure PtpHdr where
  domain : Nat
  seq : Nat
  twoStep : Bool
  sender : BitVec 64
  correction : Int
  logInterval : Int
deriving DecidableEq, Repr

/-- The datasets an Announce carries (R162, R163). -/
structure Announce where
  priority1 : Nat
  clockClass : Nat
  accuracy : Nat
  variance : Nat
  priority2 : Nat
  identity : BitVec 64
  stepsRemoved : Nat
deriving DecidableEq, Repr

/-- One lane's copy of a line-group header (R200): 4 words. -/
structure HdrCopy where
  ras : Ras
  w0 : Word
  w1 : Word
  w2 : Word
  w3 : Word
deriving DecidableEq, Repr

/-- One constructor for each row of spec/opcode_table.json. The first operand `t` of each is the tick
(1.6 ns, R148) at which the command happens. -/
inductive Instr where
  /-- RAIL_OUT_OF_RANGE (R51). A rail has been out of its operating range by more than 2% for over 10 µs; its flag is set, EV 01.004 is raised and the functions it supplies report not ready. -/
  | railOutOfRange (t : Nat) (rail : Rail) (mv : Nat)
  /-- POWER_ON_RESET (R71). VDD_AON falls below 0.70 V and the whole device is reset. -/
  | powerOnReset (t : Nat)
  /-- POWER_ON_RELEASE (R71). Every rail has been in range for 1 ms, the power-on reset releases and the device enters Thaw, reloading objects. -/
  | powerOnRelease (t : Nat) (strap : Fin 4)
  /-- RESET_N_LOW (R71). RESET_N held low for at least 1 µs resets the whole device except the rail monitors; head channels go off and the ring bypass closes within 10 µs. -/
  | resetNLow (t : Nat)
  /-- RESET_N_HIGH (R71). RESET_N returns high and the device enters Thaw with objects reloaded. -/
  | resetNHigh (t : Nat) (strap : Fin 4)
  /-- WATCHDOG_TIMEOUT (R71). No firmware heartbeat reaches the AON domain for 100 ms, and the firmware restarts as under R70. -/
  | watchdogTimeout (t : Nat)
  /-- WAKE_PIN (R59). The fourth consecutive high sample of WAKE is seen; in Winter the device enters Thaw, and in Autumn the wake is latched. -/
  | wakePin (t : Nat)
  /-- WAKE_PATTERN (R59). In Winter, 1,024 consecutive K28.7 arrive on RNGA or RNGB and the device leaves Winter for Thaw. -/
  | wakePattern (t : Nat) (port : RingPort)
  /-- WAKE_RELAY (R58). An awake device receives a run of at least 1,024 K28.7 on one ring port and sends a wake run out of its other port, unless it sent one within 1 ms. -/
  | wakeRelay (t : Nat) (port : RingPort)
  /-- DOMAINS_POWERED (R61). The internal domains are powered, the ring bypass opens and the reference PLL starts. -/
  | domainsPowered (t : Nat)
  /-- PLL_LOCK (R61). The reference PLL locks and READY bits 4 and 5 are set. -/
  | pllLock (t : Nat)
  /-- FUNCTION_READY (R60). A function finishes bringing itself up, sets its READY bit and raises EV 01.001. -/
  | functionReady (t : Nat) (bit : ReadyBit)
  /-- FLASH_DISCOVERED (R533). JESD216 discovery of the flash completes, bit 24 is set and persistent objects are restored and checked. -/
  | flashDiscovered (t : Nat) (answers : Bool)
  /-- NT_LOAD_DONE (R77). The Nozzle Table load from flash ends, writing both copies, and READY bit 10 is set. -/
  | ntLoadDone (t : Nat)
  /-- ENTER_SUMMER (R63). The set of R46 has become ready with SEASON_REQ at 2, and the device enters Summer. -/
  | enterSummer (t : Nat)
  /-- SEASON_REQ_WINTER (R65). A write of 0 to 01.001 SEASON_REQ starts Autumn, heading for Winter. -/
  | seasonReqWinter (t : Nat)
  /-- SEASON_REQ_HOLD (R65). A write of 1 to 01.001 SEASON_REQ keeps the device in Thaw. -/
  | seasonReqHold (t : Nat)
  /-- SEASON_REQ_SUMMER (R65). A write of 2 to 01.001 SEASON_REQ requests Summer. -/
  | seasonReqSummer (t : Nat)
  /-- SEASON_REQ_RESTART (R65). A write of 3 to 01.001 SEASON_REQ starts Autumn, heading for Thaw. -/
  | seasonReqRestart (t : Nat)
  /-- AUTUMN_IDLE_TIMEOUT (R67). 100 µs pass in Autumn step 1 without every confirmation of idle, and step 2 begins. -/
  | autumnIdleTimeout (t : Nat)
  /-- AUTUMN_CAP_TIMEOUT (R67). 01.008 AUTUMN_CAP_TIMEOUT expires in step 2; CAP_RESULT 2 is recorded and the save step begins. -/
  | autumnCapTimeout (t : Nat)
  /-- AUTUMN_STAGGER_OFF (R67). In Autumn step 4, every 100 µs the next head channel goes off in reverse stagger order. -/
  | autumnStaggerOff (t : Nat)
  /-- FUNC_RESET_HOLD (R73). Writing 1 to a bit of 01.003 FUNC_RESET holds that function in reset and clears its READY bit. -/
  | funcResetHold (t : Nat) (bit : Fin 36)
  /-- FUNC_RESET_RELEASE (R73). Writing 0 to a held bit of 01.003 FUNC_RESET releases the function, keeping its written object values and resetting its counters. -/
  | funcResetRelease (t : Nat) (bit : Fin 36)
  /-- FUNC_RESET_RESTART (R75). Writing 1 to bit 25 of 01.003 FUNC_RESET requests a restart, as a write of 3 to SEASON_REQ does. -/
  | funcResetRestart (t : Nat)
  /-- SAVE (R88). A write of 1 to 00.010 SAVE starts copying every P-flagged object into the unused flash copies. -/
  | saveReq (t : Nat)
  /-- SAVE_COMPLETE (R77). A flash save finishes, writing the CRC last; SAVE reads 2 on success or 3 on failure. -/
  | saveComplete (t : Nat) (ok : Bool)
  /-- SAVE_TIMEOUT (R88). A save has not completed 120 s after it started, so it fails and LAST_SAVE_FAILED is set. -/
  | saveTimeout (t : Nat)
  /-- D2D_COMMAND_FRAME (R480). The power die receives the 1 µs command frame carrying the requested-on mask and ignores it if its CRC fails. -/
  | d2dCommandFrame (t : Nat) (crcOk : Bool)
  /-- D2D_LINK_LOST (R480). 8 µs pass without a good command frame; the power die switches every channel off, and the logic die raises EV 01.005 and exits by force. -/
  | d2dLinkLost (t : Nat)
  /-- VDRV_LOW (R480). VDRV falls below 10.0 V, and the power die switches every channel off together. -/
  | vdrvLow (t : Nat)
  /-- READ (R83). A read access returns the active value (or the shadow value with the flag set) of the elements named, after the abort checks. -/
  | readObj (t : Nat) (a : Access)
  /-- WRITE_OBJECT (R83). A plain write to an object that has no row of its own is checked element by element and then applied in index order. -/
  | writeObject (t : Nat) (a : Access) (vals : List Word)
  /-- OPEN_READ (R101). An open request starts a block read of a TABLE or DOMAIN object and returns a handle. -/
  | openRead (t : Nat) (a : Access)
  /-- OPEN_WRITE (R101). An open request starts a block write, making the shadow or the object invalid. -/
  | openWrite (t : Nat) (a : Access)
  /-- SEGMENT (R103). A block-transfer segment carries up to 256 words in sequence, or is refused if it is out of sequence or past the length. -/
  | segment (t : Nat) (handle : Fin 4) (seq count : Nat) (words : List Word)
  /-- CLOSE (R101). A close request ends a block transfer; for a write it validates the data against its CRC-32. -/
  | closeTransfer (t : Nat) (handle : Fin 4) (crc : BitVec 32)
  /-- TRANSFER_TIMEOUT (R103). An open transfer receives no segment or close for 500 ms and is abandoned. -/
  | transferTimeout (t : Nat) (handle : Fin 4)
  /-- BROADCAST_WRITE (R110). A plain scalar write to slot 64 is applied on the Master and on every device present, and returns the accept mask and the lowest abort. -/
  | broadcastWrite (t : Nat) (a : Access) (vals : List Word)
  /-- COMMIT_PAGE (R93). A write of page P to 00.011 binds every dirty RWB object into a pending commit for page P. -/
  | commitPage (t : Nat) (page : Word)
  /-- COMMIT_CANCEL (R98). A write of page P to 00.012 removes the pending commit for a page not yet begun. -/
  | commitCancel (t : Nat) (page : Word)
  /-- COMMIT_NOW (R99). A write of 1 to 00.013 makes every dirty RWB object active at once. -/
  | commitNow (t : Nat)
  /-- CONTROL_CYCLE (R501). Every 10 µs control cycle applies acknowledgements and then queues the events raised in that cycle. -/
  | controlCycle (t : Nat)
  /-- EVENT_ACK (R115). A write of a sequence number to 14.002 EVENT_ACK removes every queue entry up to it. -/
  | eventAck (t : Nat) (seq : Word)
  /-- CYCLE_START (R124). Every 50 µs the Master lays out the mailbox and sends cycle-frame copies A and B. -/
  | cycleStart (t : Nat)
  /-- CYCLE_FRAME_COPY (R126). A device forwards a cycle-frame copy cut-through, writes its own fields and acts on its named copy if that copy ends intact. -/
  | cycleFrameCopy (t : Nat) (c : CopyIn)
  /-- COPY_RETURN (R135). A copy returns to the Master; an intact copy updates the path map, joined slots and UNSLOTTED. -/
  | copyReturn (t : Nat) (c : CopyIn)
  /-- COPY_RETURN_TIMEOUT (R135). A copy has not returned intact 100 µs after its cycle start, and the Master raises EV 02.001. -/
  | copyReturnTimeout (t : Nat) (copyB : Bool)
  /-- MAILBOX_REQUEST (R131). A Member carries out a REQUEST addressed to it and keeps its reply for the reservation with the same TAG. -/
  | mailboxRequest (t : Nat) (seg : List Word)
  /-- MAILBOX_REPLY (R132). The Master receives a REPLY segment and returns it to the host, or reserves again if its CRC fails. -/
  | mailboxReply (t : Nat) (seg : List Word)
  /-- MAILBOX_NAK (R132). The Master receives a NAK and resends the request, returning abort 0x0D after the third NAK. -/
  | mailboxNak (t : Nat) (seg : List Word)
  /-- RING_ACCESS_TIMEOUT (R109). No reply arrives within 20 ring cycles, and the access fails with abort 0x0A. -/
  | ringAccessTimeout (t : Nat) (tag : Nat)
  /-- RING_RESTORE (R138). After both wrapping devices report both locks for 16 cycles, the Master sets UNWRAP and restores the ring. -/
  | ringRestore (t : Nat)
  /-- SLOT_MISSING (R139). A slot has been missing from an intact named copy for 3 cycles, so the Master treats it as bypassed and raises EV 02.005. -/
  | slotMissing (t : Nat) (slot : Slot)
  /-- RING_LOST (R139). A Member receives no intact copy for 20 cycles, sets RING to 0 and raises EV 02.001. -/
  | ringLost (t : Nat)
  /-- SLOT_RECLAIM (R488). Its claimed slot has been absent in both copies for 3 cycles, and a slotless device takes it again. -/
  | slotReclaim (t : Nat)
  /-- HOST_FRAME (R140). An Ethernet frame arrives on the host port and is accepted or discarded and counted. -/
  | hostFrame (t : Nat) (f : HostFrame)
  /-- ARP_REQUEST (R141). An ARP request for HOST_IP is answered. -/
  | arpRequest (t : Nat) (target sender : BitVec 32) (mac : BitVec 48)
  /-- ICMP_ECHO (R141). An ICMP echo request is answered. -/
  | icmpEcho (t : Nat) (target sender : BitVec 32) (payload : List Byte)
  /-- HOST_DATAGRAM (R145). An object-access datagram is parsed and its records are carried out in order, or it is answered with CRC_FAIL, BUSY or a replay. -/
  | hostDatagram (t : Nat) (src : BitVec 32) (port : Nat) (words : List Word)
  /-- REPLY_CACHE_EXPIRE (R146). A kept datagram reply reaches its age of 1 s and is discarded. -/
  | replyCacheExpire (t : Nat) (src : BitVec 32) (port seq : Nat)
  /-- HOST_LINK_DOWN (R140). The host link goes down, and the Master raises EV 02.007. -/
  | hostLinkDown (t : Nat)
  /-- SYNC_TIMEOUT (R160). No Sync with timestamps arrives within four Sync intervals, and the 1588 follower enters holdover. -/
  | syncTimeout (t : Nat)
  /-- ANNOUNCE_TIMEOUT (R160). The Announce receipt timeout expires, and the follower enters holdover. -/
  | announceTimeout (t : Nat)
  /-- HOLDOVER_READY_EXPIRE (R152). Holdover has lasted 03.007 HOLDOVER_READY, so READY bit 6 is cleared with EV 01.002. -/
  | holdoverReadyExpire (t : Nat)
  /-- PTP_SYNC (R162). An IEEE 1588 Sync message is received and timestamped. -/
  | ptpSync (t : Nat) (h : PtpHdr) (origin : Int) (rx : Nat)
  /-- PTP_FOLLOW_UP (R162). A Follow_Up message supplies the precise origin timestamp of a two-step Sync. -/
  | ptpFollowUp (t : Nat) (h : PtpHdr) (origin : Int)
  /-- PTP_DELAY_REQ_TIMER (R162). At the interval the master announces, the device sends a Delay_Req. -/
  | ptpDelayReqTimer (t : Nat) (tx : Nat)
  /-- PTP_DELAY_RESP (R162). A Delay_Resp completes an E2E path delay measurement. -/
  | ptpDelayResp (t : Nat) (h : PtpHdr) (rx : Int)
  /-- PTP_ANNOUNCE (R163). An Announce message enters best-master selection, and a grandmaster change raises EV 03.003. -/
  | ptpAnnounce (t : Nat) (h : PtpHdr) (ann : Announce)
  /-- PTP_PDELAY_REQ (R162). Under P2P, the device answers a received Pdelay_Req. -/
  | ptpPdelayReq (t : Nat) (h : PtpHdr) (rx tx : Nat)
  /-- PTP_PDELAY_RESP (R162). A Pdelay_Resp feeds the peer link delay measurement. -/
  | ptpPdelayResp (t : Nat) (h : PtpHdr) (t2 : Int) (rx : Nat)
  /-- PTP_PDELAY_RESP_FOLLOW_UP (R162). A Pdelay_Resp_Follow_Up completes a two-step peer delay measurement. -/
  | ptpPdelayRespFollowUp (t : Nat) (h : PtpHdr) (t3 : Int)
  /-- TIME_RESYNC (R159). A write of 1 to 03.006 steps TIME72 to the source at the next sample and clears PENDING. -/
  | timeResync (t : Nat)
  /-- TIME_NOW_WRITE (R159). A write to 03.000 TIME_NOW sets TIME72 while the device runs free. -/
  | timeNowWrite (t : Nat) (w0 w1 : Word)
  /-- TRIG_ENABLE (R167). Writing ENABLE 1 arms a trigger unit, or sets LATE if TRIG_START has already passed. -/
  | trigEnable (t : Nat) (unit : Fin 16)
  /-- TRIGGER_FIRE (R166). A trigger unit fires at TRIG_START, then every TRIG_PERIOD, driving its pin or internal target. -/
  | triggerFire (t : Nat) (unit : Fin 16)
  /-- CAPTURE_EDGE (R169). A qualifying edge on a capture source records TIME72 and the web position and is counted. `stamp` is the instant of the edge at the pin, in 1/64 tick. -/
  | captureEdge (t : Nat) (unit : Fin 8) (source : EdgeSource) (rising : Bool) (stamp : Nat)
  /-- LANE_LOCK (R177). A lane receives 4 aligned K28.5 without error and gains symbol lock. -/
  | laneLock (t : Nat) (lane : LaneIx)
  /-- LANE_LOCK_LOST (R176). 4 code-group errors within 64 characters make a lane lose symbol lock and raise EV 04.001. -/
  | laneLockLost (t : Nat) (lane : LaneLoss)
  /-- LANE_NO_SIGNAL (R176). A lane sees no signal for 100 ns and loses symbol lock. -/
  | laneNoSignal (t : Nat) (lane : LaneIx)
  /-- BUFFER_SLIP (R178). A phase or elastic buffer overflows or underflows, counts a slip, raises EV 04.005 and restarts half full. -/
  | bufferSlip (t : Nat) (lane : LaneIx) (underflow : Bool)
  /-- SKIP_RECEIVED (R179). A SKIP on a raster lane lets the receiver delete or repeat one K28.0 to keep its elastic buffer between 12 and 20 characters. -/
  | skipReceived (t : Nat) (ras : Ras) (fill : Nat)
  /-- BLOCK_LOCK (R183). A candidate offset reaches 64 consecutive valid block headers, and the raster lane enters LOCKED. -/
  | blockLock (t : Nat) (ras : Ras)
  /-- BLOCK_LOCK_LOST (R183). 12 of 64 consecutive headers are invalid, so the lane returns to HUNT and raises EV 04.003. -/
  | blockLockLost (t : Nat) (ras : Ras)
  /-- DSK_RECEIVED (R186). A DSK marks a lane's line-group start, and all lanes are released together once every active lane's DSK has arrived. -/
  | dskReceived (t : Nat) (ras : Ras) (n p g : Nat)
  /-- DSK_TIMEOUT (R187). A lane's DSK has not arrived within 1,024 characters of the first DSK, and the lane is lost from the bond. -/
  | dskTimeout (t : Nat) (ras : Ras)
  /-- PRBS_LOCK (R191). After 1,024 error-free bits the PRBS checker sets PRBS_LOCK and starts counting. -/
  | prbsLock (t : Nat) (lane : LaneIx)
  /-- PRBS_WINDOW_END (R192). At the end of a PRBS window the errors are compared with the threshold, raising EV 04.004 if exceeded. `bits` counts units of 1,024 bits. -/
  | prbsWindowEnd (t : Nat) (lane : LaneIx) (bits : Nat) (errors : PrbsErrors)
  /-- INJECT_SINGLE (R193). Writing INJECT_SINGLE inverts one bit of the next transmitted character. -/
  | injectSingle (t : Nat) (lane : LaneIx)
  /-- INJECT_BURST (R193). Writing INJECT_BURST inverts BURST_LEN consecutive bits. -/
  | injectBurst (t : Nat) (lane : LaneIx)
  /-- LANE_PRBS_MODE (R190). Setting the PRBS field takes a lane out of service into a generate or check mode, or returns it. -/
  | lanePrbsMode (t : Nat) (lane : LaneIx) (prbs pattern : Fin 4) (invert : Bool)
  /-- LANE_LOOPBACK (R194). Setting LOOP selects near-end or far-end loopback on a lane. -/
  | laneLoopback (t : Nat) (lane : LaneIx) (loop : Fin 4)
  /-- LANE_ENABLE (R177). Writing ENABLE 1 in 04.100 LANE_CFG starts a lane training. -/
  | laneEnable (t : Nat) (lane : LaneIx)
  /-- LANE_DISABLE (R195). Writing ENABLE 0 in 04.100 LANE_CFG takes a lane out of service. -/
  | laneDisable (t : Nat) (lane : LaneIx)
  /-- LG_HEADER (R203). A line-group header is judged across lanes and accepted, refused or discarded, opening or extending the input page. -/
  | lgHeader (t : Nat) (copies : List HdrCopy)
  /-- LINE_GROUP_COMPLETE (R218). The last block and table frame of a line group arrive, and the line group becomes complete. -/
  | lineGroupComplete (t : Nat) (page lg : Nat) (blocks : List (List Word))
  /-- TABLE_FRAME (R207). An in-band table frame writes words of a TABLE or DOMAIN object as a block write, committing on END with COMMIT. -/
  | tableFrame (t : Nat) (words : List Word) (eofOk : Bool)
  /-- CREDIT_FRAME_TIMER (R213). A credit frame carrying LIMIT is sent at least every 10 µs. -/
  | creditFrameTimer (t : Nat)
  /-- LANE_OFFER (R220). A lost lane has held symbol lock without error for 1 ms and is offered again in a BOND message. -/
  | laneOffer (t : Nat) (ras : Ras)
  /-- BOND_CFG_WRITE (R532). A write to 04.000 BOND_CFG sends a BOND message naming the new lanes from the next page start. -/
  | bondCfgWrite (t : Nat) (v : Word)
  /-- CHECK_INSTANT (R27). At the predicted fire time less DATA_LEAD, a line group is judged on time or late. -/
  | checkInstant (t : Nat) (page lg : Nat)
  /-- DECODE_LINE_GROUP (R237). The Block Decoder takes the next line group in LG order and decodes every block. -/
  | decodeLineGroup (t : Nat)
  /-- SCREEN_START (R311). The fabric begins screening a line group once it is complete, past its check instant and the Cell queues have room. -/
  | screenStart (t : Nat)
  /-- EDGE_FRAME_RECEIVED (R268). An EDGE_ED or EDGE_COMP frame brings error or compensation terms across a device seam. -/
  | edgeFrameReceived (t : Nat) (lane : LaneIx) (comp : Bool) (words : List Word) (eofOk : Bool)
  /-- EDGE_FRAME_TIMEOUT (R269). An awaited edge frame has not come within 2 µs, and the receiver sends EDGE_RETRY. -/
  | edgeFrameTimeout (t : Nat) (chain : Fin 4) (endEdge comp : Bool)
  /-- EDGE_RETRY (R269). A received EDGE_RETRY makes the sender resend the kept frame within 1 µs. -/
  | edgeRetry (t : Nat) (lane : LaneIx) (words : List Word)
  /-- CONFIG_LOAD (R245). A Configuration Network load of tables into a Tile completes or fails its check. -/
  | configLoad (t : Nat) (tile : Tile) (ok : Bool)
  /-- HANDOVER_INSTANT (R312). Codes leave the Cell queues for head lane queues or the LDS, and LDS head-lines are read into their queues. -/
  | handoverInstant (t : Nat) (head : Option Head)
  /-- HANDOVER_DEADLINE (R28). A head-line whose codes are not in the transmit queue by its deadline is late under LATE_POLICY. -/
  | handoverDeadline (t : Nat) (head : Head)
  /-- NT_COMMIT_PAGE (R283). A write of PAGE to 08.001 NT_COMMIT checks the shadow and binds it to page P. -/
  | ntCommitPage (t : Nat) (page : Nat)
  /-- NT_COMMIT_NOW (R283). A write of NOW to 08.001 NT_COMMIT checks the shadow and switches it at once. -/
  | ntCommitNow (t : Nat)
  /-- NT_COMMIT_CANCEL (R283). A write of CANCEL to 08.001 NT_COMMIT removes the pending NT commit for page P. -/
  | ntCommitCancel (t : Nat) (page : Nat)
  /-- SEEDING_DONE (R282). The copy of the active table into the shadow ends and SEEDING clears. -/
  | seedingDone (t : Nat)
  /-- NT_APPROVE (R286). A write to 08.006 with REJECT 0 approves the staged generation. -/
  | ntApprove (t : Nat) (gen : Nat)
  /-- NT_REJECT (R286). A write to 08.006 with REJECT 1 discards the staged generation. -/
  | ntReject (t : Nat) (gen : Nat)
  /-- FIRE_ENABLE_ARM (R304). Writing 1 to 0A.003 FIRE_ENABLE arms printing and fixes the LDS allocation. -/
  | fireEnableArm (t : Nat)
  /-- FIRE_ENABLE_DISARM (R304). Writing 0 to 0A.003 FIRE_ENABLE disarms printing outside a page. -/
  | fireEnableDisarm (t : Nat)
  /-- POSITION_LATCH (R305). Every 256 ticks the Web Position Unit latches a position and tick pair for the Line Scheduler. -/
  | positionLatch (t : Nat)
  /-- LINE_COMMIT (R309). The Line Scheduler commits a head-line, fixing F and K, and starts its LINE frame. -/
  | lineCommit (t : Nat) (head : Head)
  /-- BOUNDARY_REACHED (R308). The position reaches B_h(y) of an uncommitted head-line, giving its line start and outcome. -/
  | boundaryReached (t : Nat) (head : Head)
  /-- BOOK_CLEAR (R321). A write of 1 to 0A.005 clears every head's book counters. -/
  | bookClear (t : Nat)
  /-- HALT_STOPPED (R329). No prediction exists and every committed line has fired, so the resume boundaries and REWIND_POS are published and PHASE becomes 2. -/
  | haltStopped (t : Nat)
  /-- PAGE_ABORT (R342). A write of 1 to 0A.027 abandons every page in progress, discarding its data and ending any halt. -/
  | pageAbort (t : Nat)
  /-- HEAD_STATUS (R363). A STATUS frame from a head bridge updates temperature, bank, idle, not-fired and link-state information. -/
  | headStatus (t : Nat) (head : Head) (words : HeadReport)
  /-- STATUS_TIMEOUT (R370). No valid STATUS arrives for 20 µs, and a READY link goes DOWN with cause 2. -/
  | statusTimeout (t : Nat) (head : Head)
  /-- TMARK_SEND (R366). Every MARK_PERIOD the device sends and timestamps a TMARK on each head lane in TIMING or READY. -/
  | tmarkSend (t : Nat) (head : Head) (tx : Nat)
  /-- TMARK_ECHO (R367). An echoed TMARK with its TURN updates the downstream delay estimate, possibly entering READY or going DOWN. -/
  | tmarkEcho (t : Nat) (head : Head) (m : MarkChars) (rx turn : Nat)
  /-- ECHO_MISSING (R370). 4 consecutive markers go without an echo, and the link goes DOWN with cause 3. -/
  | echoMissing (t : Nat) (head : Head)
  /-- BANK_LOAD (R362). A head's bank becomes free and is loaded with a pending commit's pulse profiles in a BANK frame. -/
  | bankLoad (t : Nat) (head : Head)
  /-- HEAD_IDLE_COMMAND (R357). An IDLE command is sent once the last sent line's fire time has passed in Autumn, or at once on a forced exit. -/
  | headIdleCommand (t : Nat) (head : Head)
  /-- REG_READ (R375). GO with WRITE 0 in 0B.2C0 sends REG_READ to the bridge. -/
  | regRead (t : Nat) (head : Head) (addr : Nat)
  /-- REG_WRITE (R375). GO with WRITE 1 in 0B.2C0 sends REG_WRITE with REG_DATA to the bridge. -/
  | regWrite (t : Nat) (head : Head) (addr : Nat)
  /-- REG_REPLY (R358). A REG_REPLY clears GO and stores the value and ERR. -/
  | regReply (t : Nat) (head : Head) (words : HeadReport)
  /-- REG_REPLY_TIMEOUT (R375). No reply arrives within 100 µs, so GO clears and ERR is set. -/
  | regReplyTimeout (t : Nat) (head : Head)
  /-- ENCODER_EDGE (R378). A counted encoder edge changes the coarse count and the interpolated position. -/
  | encoderEdge (t : Nat) (enc : Enc) (a b : Bool) (sample : Nat)
  /-- INDEX_PULSE (R384). A forward index is judged against the window, updating c_ref or raising EV 0C.002. -/
  | indexPulse (t : Nat) (enc : Enc)
  /-- ENCODER_WIRE_FAULT (R379). A pair's wires disagree for 100 ns; the encoder goes FAILED (or Z suspends index judging) with EV 0C.001. -/
  | encoderWireFault (t : Nat) (enc : Enc) (pair : Fin 3)
  /-- ENCODER_OVERSPEED (R379). Edges come too fast, and the encoder goes FAILED with EV 0C.004. -/
  | encoderOverspeed (t : Nat) (enc : Enc) (together : Bool)
  /-- ENCODER_RECOVER (R380). The failing condition has been absent for 1 ms, and the encoder becomes UNREFERENCED. -/
  | encoderRecover (t : Nat) (enc : Enc)
  /-- POS_SOURCE_WRITE (R376). A write to 0C.000 selects a new active source, which adopts the position at the next latch. -/
  | posSourceWrite (t : Nat) (v : Word)
  /-- POS_PRESET (R388). A write to 0C.003 sets the active position from the next latch and restores an unreferenced encoder. -/
  | posPreset (t : Nat) (w0 w1 : Word)
  /-- CMP_ARM (R389). Writing ENABLE or CMP_POS arms a compare unit in the direction of motion, or behind with EV 0C.006. -/
  | cmpArm (t : Nat) (unit : Fin 8) (v : Word)
  /-- CMP_FIRE (R389). The position reaches V in the armed direction, and the compare unit fires to its target. -/
  | cmpFire (t : Nat) (unit : Fin 8)
  /-- SERVO_CYCLE (R394). Every 16 µs Hare updates the virtual web, and each axis plans its move and sends its set-point. -/
  | servoCycle (t : Nat)
  /-- HARE_RUN (R394). A write of RUN in 0D.000 starts or stops Hare, at once or at a TARGET 3 trigger. -/
  | hareRun (t : Nat) (run startTrig : Bool)
  /-- AUX_REPLY (R401). A drive reply frame updates actual positions, and bad replies or a fault bit lead to port fault. -/
  | auxReply (t : Nat) (bytes : List Byte)
  /-- AUX_REPLY_TIMEOUT (R401). A reply has not ended within 32 µs of its frame start and counts as bad. -/
  | auxReplyTimeout (t : Nat)
  /-- AX_TARGET_WRITE (R396). A write to AX_TARGET at rest starts a move, and is refused in motion with EV 0D.001. -/
  | axTargetWrite (t : Nat) (axis : Axis) (v : Word)
  /-- AX_DECEL_WRITE (R397). A write to AX_DECEL during motion is taken only if the axis can still stop, and is otherwise deferred. -/
  | axDecelWrite (t : Nat) (axis : Axis) (v : Word)
  /-- AX_STOP (R397). Writing STOP sets the target to the rest point at DECEL_NOW. -/
  | axStop (t : Nat) (axis : Axis)
  /-- AUX_FAULT_CLEAR (R401). Writing 1 to FAULT of 0D.006 clears the AUX port fault if the last 16 replies were good. -/
  | auxFaultClear (t : Nat)
  /-- CAMERA_LINE (R411). A camera LINE frame is placed by position into a frame and stripe buffer, or discarded. -/
  | cameraLine (t : Nat) (input : Cam) (words : List Word) (eofOk : Bool)
  /-- CAMERA_STATUS (R408). A camera STATUS frame updates LATENCY and fault, and on a new SYNC fixes k_sync and sets SYNCED. -/
  | cameraStatus (t : Nat) (input : Cam) (words : List Word) (eofOk : Bool)
  /-- SYNC_REQ (R408). A write to 0E.005 sends SYNC frames on the inputs named. -/
  | syncReq (t : Nat) (mask : Word)
  /-- EXP_COMMIT (R421). A write to 0E.006 commits pending exposure values for a SETTINGS frame at a later frame start. -/
  | expCommit (t : Nat) (mask : Word)
  /-- STRIPE_PROCESS (R416). The Image Pipeline processes the earliest ready stripe into display, coding and vision outputs. -/
  | stripeProcess (t : Nat)
  /-- DISP_ACK (R419). A write to 0E.009 removes display records up to SEQ. -/
  | dispAck (t : Nat) (seq : Word)
  /-- CAL_REQ (R438). A write to 10.000 CAL_REQ queues or merges a calibration or self-test request. -/
  | calReq (t : Nat) (v : Word)
  /-- CAL_AUTO_TRIGGER (R433). DIE_TEMP moves past a trigger threshold from the last accepted run, and a request is queued. -/
  | calAutoTrigger (t : Nat) (dieTemp : Int)
  /-- CAL_START (R439). A queued request finds its interval and its run starts. -/
  | calStart (t : Nat) (item target : Nat)
  /-- CAL_RUN_DONE (R435). A calibration twin run or self-test ends and its result is accepted, rejected or recorded. -/
  | calRunDone (t : Nat) (item target : Nat) (first second : List Int)
  /-- CAL_REQUEST_EXPIRE (R440). A request still queued after MAX_WAIT is dropped with EV 10.005. -/
  | calRequestExpire (t : Nat) (item target : Nat)
  /-- CAL_RETRY (R437). RETRY_DELAY after a rejection, the automatic trigger requests the item again. -/
  | calRetry (t : Nat) (item target : Nat)
  /-- WRITE_BACK (R454). A queued corrected word is written back once the integrity budget allows. -/
  | writeBack (t : Nat) (m : Mem)
  /-- MERGE_EVICT (R455). A merge-buffer entry is evicted 64 cycles after its first write, by a full or read-modify-write. -/
  | mergeEvict (t : Nat) (m : Mem)
  /-- SCRUB_READ (R459). Badger reads the next word of a memory at its scrub rate, correcting or poisoning it. -/
  | scrubRead (t : Nat) (m : Mem) (upset : BitVec 43)
  /-- REPAIR_DONE (R462). A row copy to a spare row ends, the row is remapped and EV 11.004 is raised. -/
  | repairDone (t : Nat) (m : Mem)
  /-- MEMORY_CLEAR (R458). A write to 11.003 CLEAR invalidates every word of a memory and reloads it where needed. -/
  | memoryClear (t : Nat) (mask : Word)
  /-- SUMMARY_PERIOD_END (R467). At the end of a SUMMARY_PERIOD with corrections, EV 11.001 reports them. -/
  | summaryPeriodEnd (t : Nat)
  /-- HPC_REQUEST_ON (R472). Setting a bit of 12.000 HPC_ENABLE requests a head channel on. -/
  | hpcRequestOn (t : Nat) (ch : Head)
  /-- HPC_REQUEST_OFF (R472). Clearing a bit of 12.000 HPC_ENABLE takes its channel to OFF at once. -/
  | hpcRequestOff (t : Nat) (ch : Head)
  /-- STAGGER_SLOT (R473). A requested channel enters CHECK in its stagger slot, at least 100 µs after the previous one. -/
  | staggerSlot (t : Nat) (ch : Head)
  /-- CHANNEL_CHECK_DONE (R474). After 20 µs of CHECK, the reversed, open and window checks send the channel to RAMP, OFF or LATCHED. -/
  | channelCheckDone (t : Nat) (ch : Head) (vSense vSupply : Int)
  /-- RAMP_SETTLED (R475). The output reaches V(CSN) − 0.5 V, and the channel enters ON. -/
  | rampSettled (t : Nat) (ch : Head)
  /-- RAMP_TIMEOUT (R475). The output has not settled within twice RAMP_TIME, and the channel trips with cause 2. -/
  | rampTimeout (t : Nat) (ch : Head)
  /-- OVERCURRENT_TRIP (R476). The overcurrent comparator trips the channel within 2 µs, latching it if retries are exceeded. -/
  | overcurrentTrip (t : Nat) (ch : Head)
  /-- TRIP_HOLDOFF_END (R471). TRIP_HOLDOFF elapses, and a tripped channel retries through CHECK. -/
  | tripHoldoffEnd (t : Nat) (ch : Head)
  /-- TRIP_COUNT_CLEAR (R476). A channel has been ON for 10 s, so TRIP_COUNT clears. -/
  | tripCountClear (t : Nat) (ch : Head)
  /-- SENSE_OPEN (R477). An open sense wire has persisted 10 µs while ON, so the channel is latched off with cause 3. -/
  | senseOpen (t : Nat) (ch : Head) (wireN : Bool) (mv : Int)
  /-- ADC_SEQUENCE (R479). An ADC sequence starts every ADC_PERIOD or on a TARGET 2 trigger, or the start is counted as missed. -/
  | adcSequence (t : Nat) (byTrigger : Bool)
  /-- ADC_SAMPLE (R479). A V or current conversion completes and is published with its tick. -/
  | adcSample (t : Nat) (ch : Head) (current : Bool) (value : Int)
  /-- HPC_UNLATCH (R483). A write to 12.001 takes a LATCHED channel to OFF. -/
  | hpcUnlatch (t : Nat) (mask : Word)
  /-- FIRE_TIME_REACHED (R91). A head reaches the fire time of a head-line of its own (fired, skipped, inhibited or blanked), so FIRE-boundary commits switch for that head, commits complete and a page may end. -/
  | fireTimeReached (t : Nat) (head : Head)
  /-- RAIL_BACK_IN_RANGE (R51). A rail that left its operating range returns to it, so the functions that R528 assigns to it may report ready again. -/
  | railBackInRange (t : Nat) (rail : Rail)
  /-- PDELAY_REQ_TIMER (R162). Under the P2P delay mechanism the device sends a Pdelay_Req on the host port to measure the link delay that it publishes in 03.00C PTP_MEAN_DELAY. -/
  | pdelayReqTimer (t : Nat) (tx : Nat)
deriving DecidableEq, Repr

/-- The tick at which a command happens. -/
def Instr.tick : Instr → Nat
  | .railOutOfRange t _ _ => t
  | .powerOnReset t => t
  | .powerOnRelease t _ => t
  | .resetNLow t => t
  | .resetNHigh t _ => t
  | .watchdogTimeout t => t
  | .wakePin t => t
  | .wakePattern t _ => t
  | .wakeRelay t _ => t
  | .domainsPowered t => t
  | .pllLock t => t
  | .functionReady t _ => t
  | .flashDiscovered t _ => t
  | .ntLoadDone t => t
  | .enterSummer t => t
  | .seasonReqWinter t => t
  | .seasonReqHold t => t
  | .seasonReqSummer t => t
  | .seasonReqRestart t => t
  | .autumnIdleTimeout t => t
  | .autumnCapTimeout t => t
  | .autumnStaggerOff t => t
  | .funcResetHold t _ => t
  | .funcResetRelease t _ => t
  | .funcResetRestart t => t
  | .saveReq t => t
  | .saveComplete t _ => t
  | .saveTimeout t => t
  | .d2dCommandFrame t _ => t
  | .d2dLinkLost t => t
  | .vdrvLow t => t
  | .readObj t _ => t
  | .writeObject t _ _ => t
  | .openRead t _ => t
  | .openWrite t _ => t
  | .segment t _ _ _ _ => t
  | .closeTransfer t _ _ => t
  | .transferTimeout t _ => t
  | .broadcastWrite t _ _ => t
  | .commitPage t _ => t
  | .commitCancel t _ => t
  | .commitNow t => t
  | .controlCycle t => t
  | .eventAck t _ => t
  | .cycleStart t => t
  | .cycleFrameCopy t _ => t
  | .copyReturn t _ => t
  | .copyReturnTimeout t _ => t
  | .mailboxRequest t _ => t
  | .mailboxReply t _ => t
  | .mailboxNak t _ => t
  | .ringAccessTimeout t _ => t
  | .ringRestore t => t
  | .slotMissing t _ => t
  | .ringLost t => t
  | .slotReclaim t => t
  | .hostFrame t _ => t
  | .arpRequest t _ _ _ => t
  | .icmpEcho t _ _ _ => t
  | .hostDatagram t _ _ _ => t
  | .replyCacheExpire t _ _ _ => t
  | .hostLinkDown t => t
  | .syncTimeout t => t
  | .announceTimeout t => t
  | .holdoverReadyExpire t => t
  | .ptpSync t _ _ _ => t
  | .ptpFollowUp t _ _ => t
  | .ptpDelayReqTimer t _ => t
  | .ptpDelayResp t _ _ => t
  | .ptpAnnounce t _ _ => t
  | .ptpPdelayReq t _ _ _ => t
  | .ptpPdelayResp t _ _ _ => t
  | .ptpPdelayRespFollowUp t _ _ => t
  | .timeResync t => t
  | .timeNowWrite t _ _ => t
  | .trigEnable t _ => t
  | .triggerFire t _ => t
  | .captureEdge t _ _ _ _ => t
  | .laneLock t _ => t
  | .laneLockLost t _ => t
  | .laneNoSignal t _ => t
  | .bufferSlip t _ _ => t
  | .skipReceived t _ _ => t
  | .blockLock t _ => t
  | .blockLockLost t _ => t
  | .dskReceived t _ _ _ _ => t
  | .dskTimeout t _ => t
  | .prbsLock t _ => t
  | .prbsWindowEnd t _ _ _ => t
  | .injectSingle t _ => t
  | .injectBurst t _ => t
  | .lanePrbsMode t _ _ _ _ => t
  | .laneLoopback t _ _ => t
  | .laneEnable t _ => t
  | .laneDisable t _ => t
  | .lgHeader t _ => t
  | .lineGroupComplete t _ _ _ => t
  | .tableFrame t _ _ => t
  | .creditFrameTimer t => t
  | .laneOffer t _ => t
  | .bondCfgWrite t _ => t
  | .checkInstant t _ _ => t
  | .decodeLineGroup t => t
  | .screenStart t => t
  | .edgeFrameReceived t _ _ _ _ => t
  | .edgeFrameTimeout t _ _ _ => t
  | .edgeRetry t _ _ => t
  | .configLoad t _ _ => t
  | .handoverInstant t _ => t
  | .handoverDeadline t _ => t
  | .ntCommitPage t _ => t
  | .ntCommitNow t => t
  | .ntCommitCancel t _ => t
  | .seedingDone t => t
  | .ntApprove t _ => t
  | .ntReject t _ => t
  | .fireEnableArm t => t
  | .fireEnableDisarm t => t
  | .positionLatch t => t
  | .lineCommit t _ => t
  | .boundaryReached t _ => t
  | .bookClear t => t
  | .haltStopped t => t
  | .pageAbort t => t
  | .headStatus t _ _ => t
  | .statusTimeout t _ => t
  | .tmarkSend t _ _ => t
  | .tmarkEcho t _ _ _ _ => t
  | .echoMissing t _ => t
  | .bankLoad t _ => t
  | .headIdleCommand t _ => t
  | .regRead t _ _ => t
  | .regWrite t _ _ => t
  | .regReply t _ _ => t
  | .regReplyTimeout t _ => t
  | .encoderEdge t _ _ _ _ => t
  | .indexPulse t _ => t
  | .encoderWireFault t _ _ => t
  | .encoderOverspeed t _ _ => t
  | .encoderRecover t _ => t
  | .posSourceWrite t _ => t
  | .posPreset t _ _ => t
  | .cmpArm t _ _ => t
  | .cmpFire t _ => t
  | .servoCycle t => t
  | .hareRun t _ _ => t
  | .auxReply t _ => t
  | .auxReplyTimeout t => t
  | .axTargetWrite t _ _ => t
  | .axDecelWrite t _ _ => t
  | .axStop t _ => t
  | .auxFaultClear t => t
  | .cameraLine t _ _ _ => t
  | .cameraStatus t _ _ _ => t
  | .syncReq t _ => t
  | .expCommit t _ => t
  | .stripeProcess t => t
  | .dispAck t _ => t
  | .calReq t _ => t
  | .calAutoTrigger t _ => t
  | .calStart t _ _ => t
  | .calRunDone t _ _ _ _ => t
  | .calRequestExpire t _ _ => t
  | .calRetry t _ _ => t
  | .writeBack t _ => t
  | .mergeEvict t _ => t
  | .scrubRead t _ _ => t
  | .repairDone t _ => t
  | .memoryClear t _ => t
  | .summaryPeriodEnd t => t
  | .hpcRequestOn t _ => t
  | .hpcRequestOff t _ => t
  | .staggerSlot t _ => t
  | .channelCheckDone t _ _ _ => t
  | .rampSettled t _ => t
  | .rampTimeout t _ => t
  | .overcurrentTrip t _ => t
  | .tripHoldoffEnd t _ => t
  | .tripCountClear t _ => t
  | .senseOpen t _ _ _ => t
  | .adcSequence t _ => t
  | .adcSample t _ _ _ => t
  | .hpcUnlatch t _ => t
  | .fireTimeReached t _ => t
  | .railBackInRange t _ => t
  | .pdelayReqTimer t _ => t

end Sys2Proof
end

