-- ==== Sys2Proof/Decode.lean ====
section
/-! DEFINITION. The command that a word spells by the bits of spec/opcode_table.json. No row of the table gives a
command any bits: the device has no instruction word, and its commands come from its pins and its objects. -/

namespace Sys2Proof

/-- No word spells a command: the table gives no row bits. -/
def decodeTableWord (_nbits _w : Nat) : Option Instr := none

end Sys2Proof
end

