-- ==== Sys2Proof/Machine/Bits.lean ====
section
/-! DEFINITION. Fields of words, signed readings, rounding, saturation and the checks (CRC) of the spec. -/

namespace Sys2Proof.Machine

open Sys2Proof

/-- Field [hi:lo] of a word (R7), as a number. -/
def fld (w : Word) (hi lo : Nat) : Nat := (w.toNat / 2 ^ lo) % 2 ^ (hi + 1 - lo)

/-- Bit i of a word. -/
def bitOf (w : Word) (i : Nat) : Bool := w.toNat.testBit i

/-- Bit i of a number. -/
def nbit (n i : Nat) : Bool := n.testBit i

/-- A word of 36 bits from a number. -/
def wd (n : Nat) : Word := BitVec.ofNat 36 n

/-- A signed value as a word, two's complement (R10). -/
def ws (i : Int) : Word := BitVec.ofInt 36 i

/-- The signed value of an n-bit pattern. -/
def sgn (n v : Nat) : Int := if v % 2 ^ n < 2 ^ (n - 1) then ((v % 2 ^ n : Nat) : Int) else ((v % 2 ^ n : Nat) : Int) - 2 ^ n

/-- The n-bit pattern of a signed value. -/
def pat (n : Nat) (i : Int) : Nat := (i % (2 ^ n : Int)).toNat

/-- `b2n b` is 1 for true. -/
def b2n (b : Bool) : Nat := if b then 1 else 0

/-- A word with bit i set to b. -/
def setBit (w : Word) (i : Nat) (b : Bool) : Word :=
  if b then w ||| wd (2 ^ i) else w &&& ~~~ wd (2 ^ i)

/-- A word with field [hi:lo] set to v. -/
def setFld (w : Word) (hi lo v : Nat) : Word :=
  (w &&& ~~~ wd ((2 ^ (hi + 1 - lo) - 1) * 2 ^ lo)) ||| wd ((v % 2 ^ (hi + 1 - lo)) * 2 ^ lo)

/-- Number of ones among the low n bits. -/
def ones (n v : Nat) : Nat := ((List.range n).filter (fun i => v.testBit i)).length

/-- Set bits among the low n bits, lowest first. -/
def bitsOf (n v : Nat) : List Nat := (List.range n).filter (fun i => v.testBit i)

/-- Upper bound 2^n - 1 kept (R498: a value wider than its field saturates). -/
def satN (n v : Nat) : Nat := if v < 2 ^ n then v else 2 ^ n - 1

/-- Saturation to a signed n-bit range. -/
def satS (n : Nat) (i : Int) : Int :=
  if i < -(2 ^ (n - 1) : Int) then -(2 ^ (n - 1) : Int) else if i > 2 ^ (n - 1) - 1 then 2 ^ (n - 1) - 1 else i

/-- i held between lo and hi. -/
def clampI (lo hi i : Int) : Int := if i < lo then lo else if i > hi then hi else i

/-- Ceiling of a / b for numbers. -/
def ceilDiv (a b : Nat) : Nat := (a + b - 1) / b

/-- a / b rounded half up (floor of a/b + 1/2), for b > 0. -/
def roundHalfUp (a b : Int) : Int := Int.fdiv (2 * a + b) (2 * b)

/-- Floor of the square root by the bitwise method: n steps. -/
def isqrtStep (v : Nat) : Nat → Nat → Nat
  | 0, r => r
  | k + 1, r => if (r + 2 ^ k) * (r + 2 ^ k) ≤ v then isqrtStep v k (r + 2 ^ k) else isqrtStep v k r

/-- Floor of the square root of a number below 2^128. -/
def isqrt (v : Nat) : Nat := isqrtStep v 64 0

/-- One bit into a CRC register of width n with the polynomial p, most significant bit first (R102). -/
def crcBit (n p reg : Nat) (b : Bool) : Nat :=
  let top := reg.testBit (n - 1)
  let sh := (reg * 2) % 2 ^ n
  if top != b then sh ^^^ p else sh

/-- The low m bits of v, bit m - 1 first. -/
def crcBits (n p v : Nat) : Nat → Nat → Nat
  | 0, reg => reg
  | m + 1, reg => crcBits n p v m (crcBit n p reg (v.testBit m))

/-- CRC-32 of R102 over words, as [31:0] of a word. -/
def crc32 (ws : List Word) : Nat :=
  (ws.foldl (fun r w => crcBits 32 0x04C11DB7 w.toNat 36 r) 0xFFFFFFFF) ^^^ 0xFFFFFFFF

/-- CRC-16 of R201 over words 0 to 2 and [35:16] of word 3. -/
def crc16Hdr (w0 w1 w2 w3 : Word) : Nat :=
  crcBits 16 0x1021 (w3.toNat / 2 ^ 16) 20
    (([w0, w1, w2].foldl (fun r w => crcBits 16 0x1021 w.toNat 36 r) 0xFFFF))

/-- CRC-16 of R201 over words and then the upper 20 bits of the last one. -/
def crc16Upper (ws : List Word) (last : Word) : Nat :=
  crcBits 16 0x1021 (last.toNat / 2 ^ 16) 20 (ws.foldl (fun r w => crcBits 16 0x1021 w.toNat 36 r) 0xFFFF)

/-- CRC-16 of R201 over bytes (R400). -/
def crc16Bytes (bs : List (BitVec 8)) : Nat := bs.foldl (fun r b => crcBits 16 0x1021 b.toNat 8 r) 0xFFFF

/-- CRC-8 of a mailbox header over [35:8] (R129). -/
def crc8Hdr (w : Word) : Nat := crcBits 8 0x31 (w.toNat / 2 ^ 8) 28 0xFF

/-- CRC-6 of a block header over [17:6] (R227). -/
def crc6 (h : Nat) : Nat := crcBits 6 0x03 (h / 2 ^ 6) 12 0x3F

/-- Element i of a list, or d. -/
def at? {α : Type} (l : List α) (i : Nat) (d : α) : α := (l[i]?).getD d

/-- The list with element i replaced, unchanged past its end. -/
def setAt {α : Type} (l : List α) (i : Nat) (v : α) : List α := l.set i v

/-- A vector with element i replaced where i is in range. -/
def vset {α : Type} {n : Nat} (v : Vector α n) (i : Nat) (a : α) : Vector α n :=
  if h : i < n then v.set i a h else v

/-- Element i of a vector, or d past its end. -/
def vget {α : Type} {n : Nat} (v : Vector α n) (i : Nat) (d : α) : α := (v[i]?).getD d

/-- A vector with element i changed by f. -/
def vmod {α : Type} {n : Nat} (v : Vector α n) (i : Nat) (f : α → α) : Vector α n :=
  if h : i < n then v.set i (f (v[i]'h)) h else v

end Sys2Proof.Machine
end

