-- ==== Sys2Proof/Machine/Objects.lean ====
section
/-! DEFINITION. The objects of the dictionary, one row per object as the tables of the spec give it: identifier
(group times 4,096 plus item, R11), type (R10), class (R12), P flag (R13), elements or words, defined bits (R9),
range (R84), and whether writing 0 clears it (R527). Words of a TABLE whose number the spec does not write out:
PRESUMED from its layout, notes/assumptions/13.md. -/

set_option Elab.async false

namespace Sys2Proof.Machine

open Sys2Proof

/-- Data types (R10). -/
inductive Ty where
  | bool
  | u9
  | u18
  | u36
  | s18
  | s36
  | pos48
  | time72
  | table
  | domain
deriving DecidableEq, Repr

/-- Access classes (R12). -/
inductive Class where
  | const
  | ro
  | wo
  | rw
  | rwi
  | rwb
deriving DecidableEq, Repr

/-- One object. -/
structure ObjDef where
  id : Nat
  ty : Ty
  cls : Class
  persist : Bool
  count : Nat
  mask : Word
  range : Option (Int × Int)
  zeroClears : Bool
  dflt : Nat
deriving DecidableEq, Repr

/-- A range of values. -/
abbrev rg (lo hi : Int) : Option (Int × Int) := some (lo, hi)

/-- 00.000 DEVICE_ID (R4). -/
abbrev Obj.deviceId : Nat := 0x00000
/-- 00.002 FW_VERSION (R117). -/
abbrev Obj.fwVersion : Nat := 0x00002
/-- 00.003 SLOT (R117). -/
abbrev Obj.slot : Nat := 0x00003
/-- 00.004 ROLE (R117). -/
abbrev Obj.role : Nat := 0x00004
/-- 00.010 SAVE (R117). -/
abbrev Obj.save : Nat := 0x00010
/-- 00.011 COMMIT_PAGE (R117). -/
abbrev Obj.commitPage : Nat := 0x00011
/-- 00.012 COMMIT_CANCEL (R117). -/
abbrev Obj.commitCancel : Nat := 0x00012
/-- 00.013 COMMIT_NOW (R117). -/
abbrev Obj.commitNow : Nat := 0x00013
/-- 00.100 COMMIT_SLOT (R117). -/
abbrev Obj.commitSlot : Nat := 0x00100
/-- 15.000 XING_PEER_MAP (R37). -/
abbrev Obj.xingPeerMap : Nat := 0x15000
/-- 15.001 XING_DISCONT_MAP (R37). -/
abbrev Obj.xingDiscontMap : Nat := 0x15001
/-- 15.100 XING_STATUS (R37). -/
abbrev Obj.xingStatus : Nat := 0x15100
/-- 01.000 SEASON (R79). -/
abbrev Obj.season : Nat := 0x01000
/-- 01.001 SEASON_REQ (R79). -/
abbrev Obj.seasonReq : Nat := 0x01001
/-- 01.002 READY (R79). -/
abbrev Obj.ready : Nat := 0x01002
/-- 01.003 FUNC_RESET (R79). -/
abbrev Obj.funcReset : Nat := 0x01003
/-- 01.004 RAIL_FLAGS (R79). -/
abbrev Obj.railFlags : Nat := 0x01004
/-- 01.005 CORE_VTARGET (R79). -/
abbrev Obj.coreVtarget : Nat := 0x01005
/-- 01.006 BOOT_STATUS (R79). -/
abbrev Obj.bootStatus : Nat := 0x01006
/-- 01.007 AUTUMN_CAP (R79). -/
abbrev Obj.autumnCap : Nat := 0x01007
/-- 01.008 AUTUMN_CAP_TIMEOUT (R79). -/
abbrev Obj.autumnCapTimeout : Nat := 0x01008
/-- 01.009 WAKE_SRC_EN (R79). -/
abbrev Obj.wakeSrcEn : Nat := 0x01009
/-- 01.100 RAIL_MEAS (R79). -/
abbrev Obj.railMeas : Nat := 0x01100
/-- 14.000 EVENT_QUEUE (R117). -/
abbrev Obj.eventQueue : Nat := 0x14000
/-- 14.001 EVENT_MASK (R117). -/
abbrev Obj.eventMask : Nat := 0x14001
/-- 14.002 EVENT_ACK (R117). -/
abbrev Obj.eventAck : Nat := 0x14002
/-- 14.003 EVENT_FILL (R117). -/
abbrev Obj.eventFill : Nat := 0x14003
/-- 14.004 EVENT_NEXT_SEQ (R117). -/
abbrev Obj.eventNextSeq : Nat := 0x14004
/-- 14.005 EVENT_LOST (R117). -/
abbrev Obj.eventLost : Nat := 0x14005
/-- 14.006 EVENT_MASKED (R117). -/
abbrev Obj.eventMasked : Nat := 0x14006
/-- 02.000 RING_STATE (R147). -/
abbrev Obj.ringState : Nat := 0x02000
/-- 02.001 PATH_MAP (R147). -/
abbrev Obj.pathMap : Nat := 0x02001
/-- 02.002 GAP_CYCLES (R147). -/
abbrev Obj.gapCycles : Nat := 0x02002
/-- 02.003 MBX_CRC_ERRORS (R147). -/
abbrev Obj.mbxCrcErrors : Nat := 0x02003
/-- 02.004 SLOT_CFG (R147). -/
abbrev Obj.slotCfg : Nat := 0x02004
/-- 02.010 HOST_IP (R147). -/
abbrev Obj.hostIp : Nat := 0x02010
/-- 02.011 HOST_UDP_PORT (R147). -/
abbrev Obj.hostUdpPort : Nat := 0x02011
/-- 02.012 HOST_AN (R147). -/
abbrev Obj.hostAn : Nat := 0x02012
/-- 02.013 HOST_STATE (R147). -/
abbrev Obj.hostState : Nat := 0x02013
/-- 02.014 HOST_DISCARDS (R147). -/
abbrev Obj.hostDiscards : Nat := 0x02014
/-- 02.100 HOST_MAC (R147). -/
abbrev Obj.hostMac : Nat := 0x02100
/-- 03.000 TIME_NOW (R170). -/
abbrev Obj.timeNow : Nat := 0x03000
/-- 03.001 SYNC_STATE (R170). -/
abbrev Obj.syncState : Nat := 0x03001
/-- 03.002 TIME_SOURCE (R170). -/
abbrev Obj.timeSource : Nat := 0x03002
/-- 03.003 RATE_ADDEND (R170). -/
abbrev Obj.rateAddend : Nat := 0x03003
/-- 03.004 OFFSET (R170). -/
abbrev Obj.offset : Nat := 0x03004
/-- 03.005 TIME_FLAGS (R170). -/
abbrev Obj.timeFlags : Nat := 0x03005
/-- 03.006 TIME_RESYNC (R170). -/
abbrev Obj.timeResync : Nat := 0x03006
/-- 03.007 HOLDOVER_READY (R170). -/
abbrev Obj.holdoverReady : Nat := 0x03007
/-- 03.008 RNGA_ASYM (R170). -/
abbrev Obj.rngaAsym : Nat := 0x03008
/-- 03.009 HOST_ASYM (R170). -/
abbrev Obj.hostAsym : Nat := 0x03009
/-- 03.00A PTP_CFG (R170). -/
abbrev Obj.ptpCfg : Nat := 0x0300A
/-- 03.00B PTP_STATE (R170). -/
abbrev Obj.ptpState : Nat := 0x0300B
/-- 03.00C PTP_MEAN_DELAY (R170). -/
abbrev Obj.ptpMeanDelay : Nat := 0x0300C
/-- 03.100 TRIG (R170). -/
abbrev Obj.trig : Nat := 0x03100
/-- 03.110 TRIG_START (R170). -/
abbrev Obj.trigStart : Nat := 0x03110
/-- 03.120 TRIG_PERIOD (R170). -/
abbrev Obj.trigPeriod : Nat := 0x03120
/-- 03.130 TRIG_FIRED (R170). -/
abbrev Obj.trigFired : Nat := 0x03130
/-- 03.140 CAPT (R170). -/
abbrev Obj.capt : Nat := 0x03140
/-- 03.150 CAPT_TIME (R170). -/
abbrev Obj.captTime : Nat := 0x03150
/-- 03.160 CAPT_COUNT (R170). -/
abbrev Obj.captCount : Nat := 0x03160
/-- 03.180 RING_DELAY (R170). -/
abbrev Obj.ringDelay : Nat := 0x03180
/-- 03.190 PTP_GM_ID (R170). -/
abbrev Obj.ptpGmId : Nat := 0x03190
/-- 04.000 BOND_CFG (R196). -/
abbrev Obj.bondCfg : Nat := 0x04000
/-- 04.001 BOND_STATE (R196). -/
abbrev Obj.bondState : Nat := 0x04001
/-- 04.002 PRBS_WINDOW (R196). -/
abbrev Obj.prbsWindow : Nat := 0x04002
/-- 04.003 PRBS_THRESHOLD (R196). -/
abbrev Obj.prbsThreshold : Nat := 0x04003
/-- 04.004 REF_SPREAD (R196). -/
abbrev Obj.refSpread : Nat := 0x04004
/-- 04.100 LANE_CFG (R196). -/
abbrev Obj.laneCfg : Nat := 0x04100
/-- 04.140 LANE_EQ (R196). -/
abbrev Obj.laneEq : Nat := 0x04140
/-- 04.180 LANE_STATUS (R196). -/
abbrev Obj.laneStatus : Nat := 0x04180
/-- 04.1C0 LANE_TEST (R196). -/
abbrev Obj.laneTest : Nat := 0x041C0
/-- 04.200 PRBS_BITS (R196). -/
abbrev Obj.prbsBits : Nat := 0x04200
/-- 04.240 PRBS_ERRORS (R196). -/
abbrev Obj.prbsErrors : Nat := 0x04240
/-- 04.280 CODE_ERRORS (R196). -/
abbrev Obj.codeErrors : Nat := 0x04280
/-- 04.2C0 SLIPS (R196). -/
abbrev Obj.laneSlips : Nat := 0x042C0
/-- 05.000 RFE_STATE (R223). -/
abbrev Obj.rfeState : Nat := 0x05000
/-- 05.001 PAGE_NOW (R223). -/
abbrev Obj.pageNow : Nat := 0x05001
/-- 05.002 MAX_LINE_RATE (R223). -/
abbrev Obj.maxLineRate : Nat := 0x05002
/-- 05.003 DATA_LEAD (R223). -/
abbrev Obj.dataLead : Nat := 0x05003
/-- 05.004 LATE_POLICY (R223). -/
abbrev Obj.latePolicy : Nat := 0x05004
/-- 05.006 LG_ACCEPTED (R223). -/
abbrev Obj.lgAccepted : Nat := 0x05006
/-- 05.007 LG_LATE (R223). -/
abbrev Obj.lgLate : Nat := 0x05007
/-- 05.008 HDR_ERRORS (R223). -/
abbrev Obj.hdrErrors : Nat := 0x05008
/-- 05.009 TBL_ACCEPTED (R223). -/
abbrev Obj.tblAccepted : Nat := 0x05009
/-- 05.00A TBL_REJECTED (R223). -/
abbrev Obj.tblRejected : Nat := 0x0500A
/-- 05.00B CREDIT_ERRORS (R223). -/
abbrev Obj.creditErrors : Nat := 0x0500B
/-- 05.100 CREDIT_BOOK (R223). -/
abbrev Obj.creditBook : Nat := 0x05100
/-- 06.000 CODEC_STATE (R243). -/
abbrev Obj.codecState : Nat := 0x06000
/-- 06.001 BLOCKS_DECODED (R243). -/
abbrev Obj.blocksDecoded : Nat := 0x06001
/-- 06.002 BLOCKS_DAMAGED (R243). -/
abbrev Obj.blocksDamaged : Nat := 0x06002
/-- 06.003 CMP_RATIO (R243). -/
abbrev Obj.cmpRatio : Nat := 0x06003
/-- 06.004 CMP_RETRIES (R243). -/
abbrev Obj.cmpRetries : Nat := 0x06004
/-- 06.005 CMP_FALLBACKS (R243). -/
abbrev Obj.cmpFallbacks : Nat := 0x06005
/-- 06.006 OOS_EPOCHS (R243). -/
abbrev Obj.oosEpochs : Nat := 0x06006
/-- 06.100 DAMAGE_CAUSE (R243). -/
abbrev Obj.damageCause : Nat := 0x06100
/-- 07.000 SCREEN_STORE (R276). -/
abbrev Obj.screenStore : Nat := 0x07000
/-- 07.001 TONE_CURVES (R276). -/
abbrev Obj.toneCurves : Nat := 0x07001
/-- 07.002 LEVELS (R276). -/
abbrev Obj.levels : Nat := 0x07002
/-- 07.003 STATE_MASK (R276). -/
abbrev Obj.stateMask : Nat := 0x07003
/-- 07.004 COLUMN_ORIGIN (R276). -/
abbrev Obj.columnOrigin : Nat := 0x07004
/-- 07.006 RAMP (R276). -/
abbrev Obj.ramp : Nat := 0x07006
/-- 07.010 TILE_READY (R276). -/
abbrev Obj.tileReady : Nat := 0x07010
/-- 07.011 TILE_FAULT (R276). -/
abbrev Obj.tileFault : Nat := 0x07011
/-- 07.012 EDGE_STATE (R276). -/
abbrev Obj.edgeState : Nat := 0x07012
/-- 07.013 EDGE_WAITS (R276). -/
abbrev Obj.edgeWaits : Nat := 0x07013
/-- 07.014 EDGE_CRC_ERRORS (R276). -/
abbrev Obj.edgeCrcErrors : Nat := 0x07014
/-- 07.015 LINES_SCREENED (R276). -/
abbrev Obj.linesScreened : Nat := 0x07015
/-- 07.100 CHAIN (R276). -/
abbrev Obj.chain : Nat := 0x07100
/-- 07.140 SCREEN_SEL (R276). -/
abbrev Obj.screenSel : Nat := 0x07140
/-- 07.180 SCREEN_DESC (R276). -/
abbrev Obj.screenDesc : Nat := 0x07180
/-- 07.1C0 SCREEN_SIZE (R276). -/
abbrev Obj.screenSize : Nat := 0x071C0
/-- 07.200 ED_KERNEL (R276). -/
abbrev Obj.edKernel : Nat := 0x07200
/-- 08.000 NOZZLE_TABLE (R296). -/
abbrev Obj.nozzleTable : Nat := 0x08000
/-- 08.001 NT_COMMIT (R296). -/
abbrev Obj.ntCommit : Nat := 0x08001
/-- 08.002 COMP_KERNELS (R296). -/
abbrev Obj.compKernels : Nat := 0x08002
/-- 08.003 NT_STATUS (R296). -/
abbrev Obj.ntStatus : Nat := 0x08003
/-- 08.004 NT_UPDATE_MODE (R296). -/
abbrev Obj.ntUpdateMode : Nat := 0x08004
/-- 08.005 NT_PROPOSALS (R296). -/
abbrev Obj.ntProposals : Nat := 0x08005
/-- 08.006 NT_APPROVE (R296). -/
abbrev Obj.ntApprove : Nat := 0x08006
/-- 08.010 GAIN_MIN (R296). -/
abbrev Obj.gainMin : Nat := 0x08010
/-- 08.011 GAIN_MAX (R296). -/
abbrev Obj.gainMax : Nat := 0x08011
/-- 08.012 OFFSET_LIMIT (R296). -/
abbrev Obj.offsetLimit : Nat := 0x08012
/-- 08.013 MASK_LIMIT (R296). -/
abbrev Obj.maskLimit : Nat := 0x08013
/-- 08.014 RUN_LIMIT (R296). -/
abbrev Obj.runLimit : Nat := 0x08014
/-- 08.015 PATCH_LIMIT (R296). -/
abbrev Obj.patchLimit : Nat := 0x08015
/-- 08.016 NT_CHECK_EN (R296). -/
abbrev Obj.ntCheckEn : Nat := 0x08016
/-- 08.020 COMP_SATURATED (R296). -/
abbrev Obj.compSaturated : Nat := 0x08020
/-- 08.021 COMP_LOST (R296). -/
abbrev Obj.compLost : Nat := 0x08021
/-- 08.100 COMP_SEL (R296). -/
abbrev Obj.compSel : Nat := 0x08100
/-- 08.140 HEAD_MASKED (R296). -/
abbrev Obj.headMasked : Nat := 0x08140
/-- 09.000 HEAD_GEOM (R322). -/
abbrev Obj.headGeom : Nat := 0x09000
/-- 09.001 PRINT_ORIGIN (R322). -/
abbrev Obj.printOrigin : Nat := 0x09001
/-- 09.002 PAGE_GAP (R322). -/
abbrev Obj.pageGap : Nat := 0x09002
/-- 09.003 PAGE_ORIGIN (R322). -/
abbrev Obj.pageOrigin : Nat := 0x09003
/-- 09.004 LDS_DEMAND (R322). -/
abbrev Obj.ldsDemand : Nat := 0x09004
/-- 09.005 LDS_CAPACITY (R322). -/
abbrev Obj.ldsCapacity : Nat := 0x09005
/-- 09.100 LDS_USE (R322). -/
abbrev Obj.ldsUse : Nat := 0x09100
/-- 09.140 LDS_BASE (R322). -/
abbrev Obj.ldsBase : Nat := 0x09140
/-- 0A.000 FIRE_LEAD (R323). -/
abbrev Obj.fireLead : Nat := 0x0A000
/-- 0A.001 FIRE_FMAX (R323). -/
abbrev Obj.fireFmax : Nat := 0x0A001
/-- 0A.002 SLIP_BUDGET (R323). -/
abbrev Obj.slipBudget : Nat := 0x0A002
/-- 0A.003 FIRE_ENABLE (R323). -/
abbrev Obj.fireEnable : Nat := 0x0A003
/-- 0A.004 VEL_WINDOW (R323). -/
abbrev Obj.velWindow : Nat := 0x0A004
/-- 0A.005 BOOK_CLEAR (R323). -/
abbrev Obj.bookClear : Nat := 0x0A005
/-- 0A.006 STALE_V (R323). -/
abbrev Obj.staleV : Nat := 0x0A006
/-- 0A.007 STALE_T (R323). -/
abbrev Obj.staleT : Nat := 0x0A007
/-- 0A.008 FLIGHT (R323). -/
abbrev Obj.flight : Nat := 0x0A008
/-- 0A.010 PULSE_PROFILES (R323). -/
abbrev Obj.pulseProfiles : Nat := 0x0A010
/-- 0A.011 HEAD_BOOK (R323). -/
abbrev Obj.headBook : Nat := 0x0A011
/-- 0A.120 RECOVERY (R323). -/
abbrev Obj.recovery : Nat := 0x0A120
/-- 0A.140 V_NOM (R323). -/
abbrev Obj.vNom : Nat := 0x0A140
/-- 0A.160 T_REF (R323). -/
abbrev Obj.tRef : Nat := 0x0A160
/-- 0A.180 ALPHA (R323). -/
abbrev Obj.alpha : Nat := 0x0A180
/-- 0A.1A0 HEAD_TRIM (R323). -/
abbrev Obj.headTrim : Nat := 0x0A1A0
/-- 0A.1C0 ENERGY_NOW (R323). -/
abbrev Obj.energyNow : Nat := 0x0A1C0
/-- 0A.1E0 K_LINE (R323). -/
abbrev Obj.kLine : Nat := 0x0A1E0
/-- 0A.020 HALT_STATE (R343). -/
abbrev Obj.haltState : Nat := 0x0A020
/-- 0A.021 HALT_PAGE (R343). -/
abbrev Obj.haltPage : Nat := 0x0A021
/-- 0A.022 HALT_LINE (R343). -/
abbrev Obj.haltLine : Nat := 0x0A022
/-- 0A.023 RESUME_POS (R343). -/
abbrev Obj.resumePos : Nat := 0x0A023
/-- 0A.024 REWIND_POS (R343). -/
abbrev Obj.rewindPos : Nat := 0x0A024
/-- 0A.025 RESUME_RUNUP (R343). -/
abbrev Obj.resumeRunup : Nat := 0x0A025
/-- 0A.026 SLIPS (R343). -/
abbrev Obj.fireSlips : Nat := 0x0A026
/-- 0A.027 PAGE_ABORT (R343). -/
abbrev Obj.pageAbort : Nat := 0x0A027
/-- 0A.200 RESUME_BOUNDARY (R343). -/
abbrev Obj.resumeBoundary : Nat := 0x0A200
/-- 0B.000 MARK_PERIOD (R374). -/
abbrev Obj.markPeriod : Nat := 0x0B000
/-- 0B.002 T_LIMIT (R374). -/
abbrev Obj.tLimit : Nat := 0x0B002
/-- 0B.003 T_HYST (R374). -/
abbrev Obj.tHyst : Nat := 0x0B003
/-- 0B.004 T_WARN (R374). -/
abbrev Obj.tWarn : Nat := 0x0B004
/-- 0B.005 STEP_LIMIT (R374). -/
abbrev Obj.stepLimit : Nat := 0x0B005
/-- 0B.100 HEAD_LINK (R374). -/
abbrev Obj.headLink : Nat := 0x0B100
/-- 0B.140 HEAD_TEMP (R374). -/
abbrev Obj.headTemp : Nat := 0x0B140
/-- 0B.180 HEAD_ASYM (R374). -/
abbrev Obj.headAsym : Nat := 0x0B180
/-- 0B.1C0 LINK_DELAY (R374). -/
abbrev Obj.linkDelay : Nat := 0x0B1C0
/-- 0B.200 NOT_FIRED (R374). -/
abbrev Obj.notFired : Nat := 0x0B200
/-- 0B.240 LINK_CRC_ERRORS (R374). -/
abbrev Obj.linkCrcErrors : Nat := 0x0B240
/-- 0B.280 BRIDGE_ID (R374). -/
abbrev Obj.bridgeId : Nat := 0x0B280
/-- 0B.2C0 REG_SEL (R374). -/
abbrev Obj.regSel : Nat := 0x0B2C0
/-- 0B.300 REG_DATA (R374). -/
abbrev Obj.regData : Nat := 0x0B300
/-- 0C.000 POS_SOURCE (R402). -/
abbrev Obj.posSource : Nat := 0x0C000
/-- 0C.001 POS_NOW (R402). -/
abbrev Obj.posNow : Nat := 0x0C001
/-- 0C.002 POS_STATE (R402). -/
abbrev Obj.posState : Nat := 0x0C002
/-- 0C.003 POS_PRESET (R402). -/
abbrev Obj.posPreset : Nat := 0x0C003
/-- 0C.004 FALLBACK (R402). -/
abbrev Obj.fallback : Nat := 0x0C004
/-- 0C.005 SPEED (R402). -/
abbrev Obj.speed : Nat := 0x0C005
/-- 0C.008 ENCOUT_CFG (R402). -/
abbrev Obj.encoutCfg : Nat := 0x0C008
/-- 0C.009 ENCOUT_DIV (R402). -/
abbrev Obj.encoutDiv : Nat := 0x0C009
/-- 0C.00A ENCOUT_PHASE (R402). -/
abbrev Obj.encoutPhase : Nat := 0x0C00A
/-- 0C.00B ENCOUT_OVERRUNS (R402). -/
abbrev Obj.encoutOverruns : Nat := 0x0C00B
/-- 0C.100 ENC_CFG (R402). -/
abbrev Obj.encCfg : Nat := 0x0C100
/-- 0C.110 ENC_SCALE (R402). -/
abbrev Obj.encScale : Nat := 0x0C110
/-- 0C.120 ENC_COUNT (R402). -/
abbrev Obj.encCount : Nat := 0x0C120
/-- 0C.130 ENC_STATUS (R402). -/
abbrev Obj.encStatus : Nat := 0x0C130
/-- 0C.140 INDEX_CFG (R402). -/
abbrev Obj.indexCfg : Nat := 0x0C140
/-- 0C.150 INDEX_ERR (R402). -/
abbrev Obj.indexErr : Nat := 0x0C150
/-- 0C.160 INDEX_CORR (R402). -/
abbrev Obj.indexCorr : Nat := 0x0C160
/-- 0C.180 CMP (R402). -/
abbrev Obj.cmp : Nat := 0x0C180
/-- 0C.190 CMP_POS (R402). -/
abbrev Obj.cmpPos : Nat := 0x0C190
/-- 0C.1A0 CMP_PERIOD (R402). -/
abbrev Obj.cmpPeriod : Nat := 0x0C1A0
/-- 0C.1B0 CMP_FIRED (R402). -/
abbrev Obj.cmpFired : Nat := 0x0C1B0
/-- 0C.1C0 CMP_MISSED (R402). -/
abbrev Obj.cmpMissed : Nat := 0x0C1C0
/-- 0C.1D0 CAPT_POS (R402). -/
abbrev Obj.captPos : Nat := 0x0C1D0
/-- 0D.000 HARE_CTRL (R403). -/
abbrev Obj.hareCtrl : Nat := 0x0D000
/-- 0D.001 HARE_VMAX (R403). -/
abbrev Obj.hareVmax : Nat := 0x0D001
/-- 0D.002 HARE_ACCEL (R403). -/
abbrev Obj.hareAccel : Nat := 0x0D002
/-- 0D.003 HARE_DECEL (R403). -/
abbrev Obj.hareDecel : Nat := 0x0D003
/-- 0D.004 HARE_SPEED (R403). -/
abbrev Obj.hareSpeed : Nat := 0x0D004
/-- 0D.005 AUX_CFG (R403). -/
abbrev Obj.auxCfg : Nat := 0x0D005
/-- 0D.006 AUX_STATE (R403). -/
abbrev Obj.auxState : Nat := 0x0D006
/-- 0D.007 AUX_BAD_REPLIES (R403). -/
abbrev Obj.auxBadReplies : Nat := 0x0D007
/-- 0D.100 AX_CTRL (R403). -/
abbrev Obj.axCtrl : Nat := 0x0D100
/-- 0D.110 AX_TARGET (R403). -/
abbrev Obj.axTarget : Nat := 0x0D110
/-- 0D.120 AX_VMAX (R403). -/
abbrev Obj.axVmax : Nat := 0x0D120
/-- 0D.130 AX_ACCEL (R403). -/
abbrev Obj.axAccel : Nat := 0x0D130
/-- 0D.140 AX_DECEL (R403). -/
abbrev Obj.axDecel : Nat := 0x0D140
/-- 0D.150 AX_DECEL_NOW (R403). -/
abbrev Obj.axDecelNow : Nat := 0x0D150
/-- 0D.160 AX_SETPOINT (R403). -/
abbrev Obj.axSetpoint : Nat := 0x0D160
/-- 0D.170 AX_ACTUAL (R403). -/
abbrev Obj.axActual : Nat := 0x0D170
/-- 0D.180 AX_CAP_POS (R403). -/
abbrev Obj.axCapPos : Nat := 0x0D180
/-- 0D.190 AX_RING_SP (R403). -/
abbrev Obj.axRingSp : Nat := 0x0D190
/-- 0D.1A0 AX_STATE (R403). -/
abbrev Obj.axState : Nat := 0x0D1A0
/-- 0E.000 CAM_ROLE (R431). -/
abbrev Obj.camRole : Nat := 0x0E000
/-- 0E.002 CAM_PHASE (R431). -/
abbrev Obj.camPhase : Nat := 0x0E002
/-- 0E.003 CAM_LINE_PITCH (R431). -/
abbrev Obj.camLinePitch : Nat := 0x0E003
/-- 0E.004 CAM_OFFSET (R431). -/
abbrev Obj.camOffset : Nat := 0x0E004
/-- 0E.005 SYNC_REQ (R431). -/
abbrev Obj.syncReq : Nat := 0x0E005
/-- 0E.006 EXP_COMMIT (R431). -/
abbrev Obj.expCommit : Nat := 0x0E006
/-- 0E.007 CODE_PLANES (R431). -/
abbrev Obj.codePlanes : Nat := 0x0E007
/-- 0E.008 DISP_SCALE (R431). -/
abbrev Obj.dispScale : Nat := 0x0E008
/-- 0E.009 DISP_ACK (R431). -/
abbrev Obj.dispAck : Nat := 0x0E009
/-- 0E.00A DISP_FILL (R431). -/
abbrev Obj.dispFill : Nat := 0x0E00A
/-- 0E.00B DISP_DROPPED (R431). -/
abbrev Obj.dispDropped : Nat := 0x0E00B
/-- 0E.020 COLOUR_MATRIX (R431). -/
abbrev Obj.colourMatrix : Nat := 0x0E020
/-- 0E.021 FLAT_FIELD (R431). -/
abbrev Obj.flatField : Nat := 0x0E021
/-- 0E.022 FRAME_STATS (R431). -/
abbrev Obj.frameStats : Nat := 0x0E022
/-- 0E.023 DISP_QUEUE (R431). -/
abbrev Obj.dispQueue : Nat := 0x0E023
/-- 0E.100 CAM_STATUS (R431). -/
abbrev Obj.camStatus : Nat := 0x0E100
/-- 0E.110 CAM_GEOM (R431). -/
abbrev Obj.camGeom : Nat := 0x0E110
/-- 0E.120 CAM_X0 (R431). -/
abbrev Obj.camX0 : Nat := 0x0E120
/-- 0E.130 CAM_PITCH (R431). -/
abbrev Obj.camPitch : Nat := 0x0E130
/-- 0E.140 FF_BASE (R431). -/
abbrev Obj.ffBase : Nat := 0x0E140
/-- 0E.150 FRAME_LINES (R431). -/
abbrev Obj.frameLines : Nat := 0x0E150
/-- 0E.160 EXP_SET (R431). -/
abbrev Obj.expSet : Nat := 0x0E160
/-- 0E.170 GAIN_RGB (R431). -/
abbrev Obj.gainRgb : Nat := 0x0E170
/-- 0E.180 GAIN_CIR (R431). -/
abbrev Obj.gainCir : Nat := 0x0E180
/-- 0E.190 EXP_ACTIVE (R431). -/
abbrev Obj.expActive : Nat := 0x0E190
/-- 0E.1A0 MOSAIC (R431). -/
abbrev Obj.mosaic : Nat := 0x0E1A0
/-- 0E.1C0 STRIPE_OVERRUNS (R431). -/
abbrev Obj.stripeOverruns : Nat := 0x0E1C0
/-- 0E.1D0 LINES_DISCARDED (R431). -/
abbrev Obj.linesDiscarded : Nat := 0x0E1D0
/-- 0F.000 FOX_ENABLE (R432). -/
abbrev Obj.foxEnable : Nat := 0x0F000
/-- 0F.001 FOX_STATE (R432). -/
abbrev Obj.foxState : Nat := 0x0F001
/-- 0F.002 FOX_SAMPLE (R432). -/
abbrev Obj.foxSample : Nat := 0x0F002
/-- 0F.003 Q_SCALE (R432). -/
abbrev Obj.qScale : Nat := 0x0F003
/-- 0F.004 EVID_MIN (R432). -/
abbrev Obj.evidMin : Nat := 0x0F004
/-- 0F.005 MAX_FRAMES (R432). -/
abbrev Obj.maxFrames : Nat := 0x0F005
/-- 0F.006 PHI_MISS (R432). -/
abbrev Obj.phiMiss : Nat := 0x0F006
/-- 0F.007 PHI_WEAK (R432). -/
abbrev Obj.phiWeak : Nat := 0x0F007
/-- 0F.008 PHI_GOOD (R432). -/
abbrev Obj.phiGood : Nat := 0x0F008
/-- 0F.009 Z_MIN (R432). -/
abbrev Obj.zMin : Nat := 0x0F009
/-- 0F.00A REG_MIN (R432). -/
abbrev Obj.regMin : Nat := 0x0F00A
/-- 0F.00B REG_LOST (R432). -/
abbrev Obj.regLost : Nat := 0x0F00B
/-- 0F.00C EVID_LINES (R432). -/
abbrev Obj.evidLines : Nat := 0x0F00C
/-- 0F.00D EVID_SKIPPED (R432). -/
abbrev Obj.evidSkipped : Nat := 0x0F00D
/-- 0F.00E REG_DISCARDS (R432). -/
abbrev Obj.regDiscards : Nat := 0x0F00E
/-- 0F.020 FOX_INV (R432). -/
abbrev Obj.foxInv : Nat := 0x0F020
/-- 0F.021 VERDICTS (R432). -/
abbrev Obj.verdicts : Nat := 0x0F021
/-- 0F.100 UNMIX (R432). -/
abbrev Obj.unmix : Nat := 0x0F100
/-- 0F.140 REG_SHIFT (R432). -/
abbrev Obj.regShift : Nat := 0x0F140
/-- 0F.180 NOISE (R432). -/
abbrev Obj.noise : Nat := 0x0F180
/-- 10.000 CAL_REQ (R448). -/
abbrev Obj.calReq : Nat := 0x10000
/-- 10.001 CAL_STATE (R448). -/
abbrev Obj.calState : Nat := 0x10001
/-- 10.002 CAL_QUEUE (R448). -/
abbrev Obj.calQueue : Nat := 0x10002
/-- 10.003 AUTO_CAL (R448). -/
abbrev Obj.autoCal : Nat := 0x10003
/-- 10.004 DIE_TEMP (R448). -/
abbrev Obj.dieTemp : Nat := 0x10004
/-- 10.005 DELAY_TRIG (R448). -/
abbrev Obj.delayTrig : Nat := 0x10005
/-- 10.006 ADC_TRIG (R448). -/
abbrev Obj.adcTrig : Nat := 0x10006
/-- 10.007 AUTO_WAIT (R448). -/
abbrev Obj.autoWait : Nat := 0x10007
/-- 10.008 RETRY_DELAY (R448). -/
abbrev Obj.retryDelay : Nat := 0x10008
/-- 10.009 PATTERN_PAGES (R448). -/
abbrev Obj.patternPages : Nat := 0x10009
/-- 10.00A PATTERN_TOL (R448). -/
abbrev Obj.patternTol : Nat := 0x1000A
/-- 10.100 DELAY_CAL (R448). -/
abbrev Obj.delayCal : Nat := 0x10100
/-- 10.110 ADC_CAL (R448). -/
abbrev Obj.adcCal : Nat := 0x10110
/-- 10.120 SELFTEST_RESULT (R448). -/
abbrev Obj.selftestResult : Nat := 0x10120
/-- 10.140 PATTERN_RESULT (R448). -/
abbrev Obj.patternResult : Nat := 0x10140
/-- 10.180 PATTERN_FLAGS (R448). -/
abbrev Obj.patternFlags : Nat := 0x10180
/-- 11.000 SCRUB_RATE (R468). -/
abbrev Obj.scrubRate : Nat := 0x11000
/-- 11.001 COMPAT (R468). -/
abbrev Obj.compat : Nat := 0x11001
/-- 11.002 INIT_DONE (R468). -/
abbrev Obj.initDone : Nat := 0x11002
/-- 11.003 CLEAR (R468). -/
abbrev Obj.clear : Nat := 0x11003
/-- 11.005 SUMMARY_PERIOD (R468). -/
abbrev Obj.summaryPeriod : Nat := 0x11005
/-- 11.020 REPAIR_MAP (R468). -/
abbrev Obj.repairMap : Nat := 0x11020
/-- 11.100 MEM_STATUS (R468). -/
abbrev Obj.memStatus : Nat := 0x11100
/-- 11.110 CORRECTED (R468). -/
abbrev Obj.corrected : Nat := 0x11110
/-- 11.120 UNCORRECTABLE (R468). -/
abbrev Obj.uncorrectable : Nat := 0x11120
/-- 11.130 POISONED (R468). -/
abbrev Obj.poisoned : Nat := 0x11130
/-- 11.140 POISON_READS (R468). -/
abbrev Obj.poisonReads : Nat := 0x11140
/-- 11.150 SPARES_USED (R468). -/
abbrev Obj.sparesUsed : Nat := 0x11150
/-- 11.160 WB_DROPPED (R468). -/
abbrev Obj.wbDropped : Nat := 0x11160
/-- 11.170 SCRUB_ADDR (R468). -/
abbrev Obj.scrubAddr : Nat := 0x11170
/-- 11.180 FLIP_CTRL (R468). -/
abbrev Obj.flipCtrl : Nat := 0x11180
/-- 11.1A0 FLIP_CHECK (R468). -/
abbrev Obj.flipCheck : Nat := 0x111A0
/-- 11.1C0 FLIP_DATA (R468). -/
abbrev Obj.flipData : Nat := 0x111C0
/-- 12.000 HPC_ENABLE (R485). -/
abbrev Obj.hpcEnable : Nat := 0x12000
/-- 12.001 HPC_UNLATCH (R485). -/
abbrev Obj.hpcUnlatch : Nat := 0x12001
/-- 12.002 OC_RETRIES (R485). -/
abbrev Obj.ocRetries : Nat := 0x12002
/-- 12.003 TRIP_HOLDOFF (R485). -/
abbrev Obj.tripHoldoff : Nat := 0x12003
/-- 12.004 ADC_PERIOD (R485). -/
abbrev Obj.adcPeriod : Nat := 0x12004
/-- 12.005 ADC_TRIG_ONLY (R485). -/
abbrev Obj.adcTrigOnly : Nat := 0x12005
/-- 12.006 OPEN_V (R485). -/
abbrev Obj.openV : Nat := 0x12006
/-- 12.007 REV_V (R485). -/
abbrev Obj.revV : Nat := 0x12007
/-- 12.008 WIN_FILTER (R485). -/
abbrev Obj.winFilter : Nat := 0x12008
/-- 12.009 ADC_MISSED (R485). -/
abbrev Obj.adcMissed : Nat := 0x12009
/-- 12.100 HPC_STATE (R485). -/
abbrev Obj.hpcState : Nat := 0x12100
/-- 12.140 HPC_VWIN (R485). -/
abbrev Obj.hpcVwin : Nat := 0x12140
/-- 12.180 OC_LIMIT (R485). -/
abbrev Obj.ocLimit : Nat := 0x12180
/-- 12.1C0 SHUNT (R485). -/
abbrev Obj.shunt : Nat := 0x121C0
/-- 12.200 RAMP_TIME (R485). -/
abbrev Obj.rampTime : Nat := 0x12200
/-- 12.240 HPC_V (R485). -/
abbrev Obj.hpcV : Nat := 0x12240
/-- 12.280 HPC_I (R485). -/
abbrev Obj.hpcI : Nat := 0x12280
/-- 12.2C0 TRIPS (R485). -/
abbrev Obj.trips : Nat := 0x122C0
/-- 13.000 CAS_STATE (R497). -/
abbrev Obj.casState : Nat := 0x13000
/-- 13.001 UNSLOTTED (R497). -/
abbrev Obj.unslotted : Nat := 0x13001
/-- 13.002 SECOND_INK (R497). -/
abbrev Obj.secondInk : Nat := 0x13002
/-- 13.003 EDGE_MISMATCHES (R497). -/
abbrev Obj.edgeMismatches : Nat := 0x13003
/-- 13.100 CAS_CFG (R497). -/
abbrev Obj.casCfg : Nat := 0x13100

/-- Objects of group 00. -/
def objRows00a : List ObjDef :=
  [⟨Obj.deviceId, .u36, .const, false, 1, 0xFFFFFFFFF, none, false, 0⟩,
   ⟨Obj.fwVersion, .u36, .ro, false, 1, 0xFFFFFFFFF, none, false, 0x8000000⟩,
   ⟨Obj.slot, .u9, .ro, false, 1, 0xFFFFFFFFF, none, false, 0⟩,
   ⟨Obj.role, .u9, .ro, false, 1, 0xFFFFFFFFF, none, false, 0⟩,
   ⟨Obj.save, .u9, .rw, false, 1, 0xFFFFFFFFF, rg (1) 1, false, 0⟩,
   ⟨Obj.commitPage, .u36, .wo, false, 1, 0x000FFFFFF, none, false, 0⟩,
   ⟨Obj.commitCancel, .u36, .wo, false, 1, 0x000FFFFFF, none, false, 0⟩,
   ⟨Obj.commitNow, .bool, .wo, false, 1, 0xFFFFFFFFF, none, false, 0⟩,
   ⟨Obj.commitSlot, .u36, .ro, false, 4, 0xFFFFFFFFF, none, false, 0⟩]

/-- Objects of group 01. -/
def objRows01a : List ObjDef :=
  [⟨Obj.season, .u9, .ro, false, 1, 0xFFFFFFFFF, none, false, 1⟩,
   ⟨Obj.seasonReq, .u9, .rw, true, 1, 0xFFFFFFFFF, rg (0) 3, false, 2⟩,
   ⟨Obj.ready, .u36, .ro, false, 1, 0xFFFFFFFFF, none, false, 1⟩,
   ⟨Obj.funcReset, .u36, .rw, false, 1, 0xFFFFFFFFF, none, false, 0⟩,
   ⟨Obj.railFlags, .u36, .rw, false, 1, 0x0000001FF, none, false, 0⟩,
   ⟨Obj.coreVtarget, .u18, .ro, false, 1, 0xFFFFFFFFF, none, false, 720⟩,
   ⟨Obj.bootStatus, .u36, .ro, false, 1, 0xFFFFFFFFF, none, false, 0⟩,
   ⟨Obj.autumnCap, .bool, .rw, true, 1, 0xFFFFFFFFF, none, false, 0⟩,
   ⟨Obj.autumnCapTimeout, .u18, .rw, true, 1, 0xFFFFFFFFF, rg (100) 60000, false, 0x2710⟩,
   ⟨Obj.wakeSrcEn, .u36, .rw, true, 1, 0x000000007, none, false, 7⟩,
   ⟨Obj.railMeas, .u18, .ro, false, 9, 0xFFFFFFFFF, none, false, 0⟩]

/-- Objects of group 02. -/
def objRows02a : List ObjDef :=
  [⟨Obj.ringState, .u36, .ro, false, 1, 0xFFFFFFFFF, none, false, 0⟩,
   ⟨Obj.pathMap, .table, .ro, false, 3, 0xFFFFFFFFF, none, false, 0⟩,
   ⟨Obj.gapCycles, .u36, .rw, false, 1, 0xFFFFFFFFF, none, true, 0⟩,
   ⟨Obj.mbxCrcErrors, .u36, .rw, false, 1, 0xFFFFFFFFF, none, true, 0⟩,
   ⟨Obj.slotCfg, .u36, .rw, true, 1, 0x80000003F, none, false, 0⟩,
   ⟨Obj.hostIp, .u36, .rw, true, 1, 0x0FFFFFFFF, none, false, 0xa000064⟩,
   ⟨Obj.hostUdpPort, .u18, .rw, true, 1, 0xFFFFFFFFF, rg (1024) 65535, false, 0x77b8⟩,
   ⟨Obj.hostAn, .bool, .rw, true, 1, 0xFFFFFFFFF, none, false, 1⟩,
   ⟨Obj.hostState, .u36, .ro, false, 1, 0xFFFFFFFFF, none, false, 0⟩,
   ⟨Obj.hostDiscards, .u36, .rw, false, 1, 0xFFFFFFFFF, none, true, 0⟩,
   ⟨Obj.hostMac, .u36, .rw, true, 2, 0x000FFFFFF, none, false, 0⟩]

/-- Objects of group 03. -/
def objRows03a : List ObjDef :=
  [⟨Obj.timeNow, .time72, .rw, false, 1, 0xFFFFFFFFF, none, false, 0⟩,
   ⟨Obj.syncState, .u9, .ro, false, 1, 0xFFFFFFFFF, none, false, 0⟩,
   ⟨Obj.timeSource, .u9, .rwi, true, 1, 0xFFFFFFFFF, rg (0) 2, false, 0⟩,
   ⟨Obj.rateAddend, .u36, .ro, false, 1, 0xFFFFFFFFF, none, false, 0x6df37f676⟩,
   ⟨Obj.offset, .s36, .ro, false, 1, 0xFFFFFFFFF, none, false, 0⟩,
   ⟨Obj.timeFlags, .u36, .ro, false, 1, 0xFFFFFFFFF, none, false, 0⟩,
   ⟨Obj.timeResync, .bool, .wo, false, 1, 0xFFFFFFFFF, none, false, 0⟩,
   ⟨Obj.holdoverReady, .u18, .rw, true, 1, 0xFFFFFFFFF, rg (0) 60000, false, 1000⟩,
   ⟨Obj.rngaAsym, .s36, .rw, true, 1, 0xFFFFFFFFF, rg (-100000) 100000, false, 0⟩,
   ⟨Obj.hostAsym, .s36, .rw, true, 1, 0xFFFFFFFFF, rg (-100000) 100000, false, 0⟩,
   ⟨Obj.ptpCfg, .u36, .rwi, true, 1, 0x8000000FF, none, false, 0⟩,
   ⟨Obj.ptpState, .u36, .ro, false, 1, 0xFFFFFFFFF, none, false, 0⟩,
   ⟨Obj.ptpMeanDelay, .s36, .ro, false, 1, 0xFFFFFFFFF, none, false, 0⟩,
   ⟨Obj.trig, .u36, .rw, false, 16, 0xFFFFFFFFF, none, false, 0x20001⟩,
   ⟨Obj.trigStart, .time72, .rw, false, 16, 0xFFFFFFFFF, none, false, 0⟩,
   ⟨Obj.trigPeriod, .u36, .rw, false, 16, 0xFFFFFFFFF, none, false, 0⟩,
   ⟨Obj.trigFired, .u36, .rw, false, 16, 0xFFFFFFFFF, none, true, 0⟩,
   ⟨Obj.capt, .u36, .rw, false, 8, 0xFFFC00000, none, false, 0⟩,
   ⟨Obj.captTime, .time72, .ro, false, 8, 0xFFFFFFFFF, none, false, 0⟩,
   ⟨Obj.captCount, .u36, .rw, false, 8, 0xFFFFFFFFF, none, true, 0⟩]

/-- Objects of group 03. -/
def objRows03b : List ObjDef :=
  [⟨Obj.ringDelay, .s36, .ro, false, 4, 0xFFFFFFFFF, none, false, 0⟩,
   ⟨Obj.ptpGmId, .u36, .ro, false, 2, 0xFFFFFFFFF, none, false, 0⟩]

/-- Objects of group 04. -/
def objRows04a : List ObjDef :=
  [⟨Obj.bondCfg, .u36, .rwi, true, 1, 0x00000001F, none, false, 31⟩,
   ⟨Obj.bondState, .u36, .ro, false, 1, 0xFFFFFFFFF, none, false, 0⟩,
   ⟨Obj.prbsWindow, .u18, .rw, true, 1, 0xFFFFFFFFF, rg (10) 60000, false, 1000⟩,
   ⟨Obj.prbsThreshold, .u36, .rw, true, 1, 0xFFFFFFFFF, none, false, 0⟩,
   ⟨Obj.refSpread, .u9, .rwi, true, 1, 0xFFFFFFFFF, rg (0) 50, false, 0⟩,
   ⟨Obj.laneCfg, .u36, .rwi, true, 48, 0xFC0000000, none, false, 0⟩,
   ⟨Obj.laneEq, .u36, .rwi, true, 48, 0xFFFFE0000, none, false, 0x2308c0000⟩,
   ⟨Obj.laneStatus, .u36, .ro, false, 48, 0xFFFFFFFFF, none, false, 0⟩,
   ⟨Obj.laneTest, .u36, .rw, false, 48, 0xFFFF80000, none, false, 0x80000⟩,
   ⟨Obj.prbsBits, .u36, .rw, false, 48, 0xFFFFFFFFF, none, true, 0⟩,
   ⟨Obj.prbsErrors, .u36, .rw, false, 48, 0xFFFFFFFFF, none, true, 0⟩,
   ⟨Obj.codeErrors, .u36, .rw, false, 48, 0xFFFFFFFFF, none, true, 0⟩,
   ⟨Obj.laneSlips, .u36, .rw, false, 48, 0xFFFFFFFFF, none, true, 0⟩]

/-- Objects of group 05. -/
def objRows05a : List ObjDef :=
  [⟨Obj.rfeState, .u36, .ro, false, 1, 0xFFFFFFFFF, none, false, 0⟩,
   ⟨Obj.pageNow, .u36, .ro, false, 1, 0xFFFFFFFFF, none, false, 0⟩,
   ⟨Obj.maxLineRate, .u18, .ro, false, 1, 0xFFFFFFFFF, none, false, 0⟩,
   ⟨Obj.dataLead, .u18, .rwi, true, 1, 0xFFFFFFFFF, rg (48) 800, false, 64⟩,
   ⟨Obj.latePolicy, .u9, .rwi, true, 1, 0xFFFFFFFFF, rg (0) 1, false, 0⟩,
   ⟨Obj.lgAccepted, .u36, .rw, false, 1, 0xFFFFFFFFF, none, true, 0⟩,
   ⟨Obj.lgLate, .u36, .rw, false, 1, 0xFFFFFFFFF, none, true, 0⟩,
   ⟨Obj.hdrErrors, .u36, .rw, false, 1, 0xFFFFFFFFF, none, true, 0⟩,
   ⟨Obj.tblAccepted, .u36, .rw, false, 1, 0xFFFFFFFFF, none, true, 0⟩,
   ⟨Obj.tblRejected, .u36, .rw, false, 1, 0xFFFFFFFFF, none, true, 0⟩,
   ⟨Obj.creditErrors, .u36, .rw, false, 1, 0xFFFFFFFFF, none, true, 0⟩,
   ⟨Obj.creditBook, .u36, .ro, false, 4, 0xFFFFFFFFF, none, false, 0⟩]

/-- Objects of group 06. -/
def objRows06a : List ObjDef :=
  [⟨Obj.codecState, .u36, .ro, false, 1, 0xFFFFFFFFF, none, false, 0⟩,
   ⟨Obj.blocksDecoded, .u36, .rw, false, 1, 0xFFFFFFFFF, none, true, 0⟩,
   ⟨Obj.blocksDamaged, .u36, .rw, false, 1, 0xFFFFFFFFF, none, true, 0⟩,
   ⟨Obj.cmpRatio, .u9, .rwi, true, 1, 0xFFFFFFFFF, rg (1) 4, false, 2⟩,
   ⟨Obj.cmpRetries, .u36, .rw, false, 1, 0xFFFFFFFFF, none, true, 0⟩,
   ⟨Obj.cmpFallbacks, .u36, .rw, false, 1, 0xFFFFFFFFF, none, true, 0⟩,
   ⟨Obj.oosEpochs, .u36, .rw, false, 1, 0xFFFFFFFFF, none, true, 0⟩,
   ⟨Obj.damageCause, .u36, .rw, false, 8, 0xFFFFFFFFF, none, true, 0⟩]

/-- Objects of group 07. -/
def objRows07a : List ObjDef :=
  [⟨Obj.screenStore, .domain, .rwb, true, 1048576, 0xFFFFFFFFF, none, false, 0⟩,
   ⟨Obj.toneCurves, .table, .rwb, true, 352, 0xFFFFFFFFF, none, false, 0⟩,
   ⟨Obj.levels, .table, .rwb, true, 96, 0xFFFFFFFFF, none, false, 0⟩,
   ⟨Obj.stateMask, .u9, .rwb, true, 1, 0xFFFFFFFFF, none, false, 52⟩,
   ⟨Obj.columnOrigin, .u36, .rwi, true, 1, 0xFFFFFFFFF, rg (0) 442367, false, 0⟩,
   ⟨Obj.ramp, .u9, .rwb, true, 1, 0xFFFFFFFFF, rg (0) 1, false, 0⟩,
   ⟨Obj.tileReady, .u36, .ro, false, 1, 0xFFFFFFFFF, none, false, 0⟩,
   ⟨Obj.tileFault, .u36, .rw, false, 1, 0x007FFFFFF, none, false, 0⟩,
   ⟨Obj.edgeState, .u36, .ro, false, 1, 0xFFFFFFFFF, none, false, 0⟩,
   ⟨Obj.edgeWaits, .u36, .rw, false, 1, 0xFFFFFFFFF, none, true, 0⟩,
   ⟨Obj.edgeCrcErrors, .u36, .rw, false, 1, 0xFFFFFFFFF, none, true, 0⟩,
   ⟨Obj.linesScreened, .u36, .rw, false, 1, 0xFFFFFFFFF, none, true, 0⟩,
   ⟨Obj.chain, .u36, .rwb, true, 4, 0xE000003FF, none, false, 0⟩,
   ⟨Obj.screenSel, .u36, .rwb, true, 32, 0xF00000000, none, false, 0⟩,
   ⟨Obj.screenDesc, .u36, .rwb, true, 16, 0xFFFFFC000, none, false, 0x400000000⟩,
   ⟨Obj.screenSize, .u36, .rwb, true, 16, 0xFFFFFF800, none, false, 0x400800⟩,
   ⟨Obj.edKernel, .u36, .rwb, true, 16, 0x7FFFFFFFF, none, false, 0x380032840⟩]

/-- Objects of group 08. -/
def objRows08a : List ObjDef :=
  [⟨Obj.nozzleTable, .domain, .rwb, true, 110592, 0xFFFFFFFFF, none, false, 0x100007000⟩,
   ⟨Obj.ntCommit, .u36, .rw, false, 1, 0xC00FFFFFF, none, false, 0⟩,
   ⟨Obj.compKernels, .table, .rwb, true, 96, 0xFFFFFFFFF, none, false, 0⟩,
   ⟨Obj.ntStatus, .u36, .ro, false, 1, 0xFFFFFFFFF, none, false, 0⟩,
   ⟨Obj.ntUpdateMode, .u9, .rw, true, 1, 0xFFFFFFFFF, rg (0) 2, false, 1⟩,
   ⟨Obj.ntProposals, .table, .ro, false, 1025, 0xFFFFFFFFF, none, false, 0⟩,
   ⟨Obj.ntApprove, .u36, .wo, false, 1, 0x800000FFF, none, false, 0⟩,
   ⟨Obj.gainMin, .u18, .rw, true, 1, 0xFFFFFFFFF, rg (0) 1023, false, 256⟩,
   ⟨Obj.gainMax, .u18, .rw, true, 1, 0xFFFFFFFFF, rg (0) 1023, false, 767⟩,
   ⟨Obj.offsetLimit, .u9, .rw, true, 1, 0xFFFFFFFFF, rg (0) 128, false, 64⟩,
   ⟨Obj.maskLimit, .u18, .rw, true, 1, 0xFFFFFFFFF, rg (0) 3456, false, 64⟩,
   ⟨Obj.runLimit, .u9, .rw, true, 1, 0xFFFFFFFFF, rg (1) 64, false, 3⟩,
   ⟨Obj.patchLimit, .u18, .rw, true, 1, 0xFFFFFFFFF, rg (1) 1024, false, 64⟩,
   ⟨Obj.ntCheckEn, .u9, .rw, true, 1, 0x0000001FC, none, false, 508⟩,
   ⟨Obj.compSaturated, .u36, .rw, false, 1, 0xFFFFFFFFF, none, true, 0⟩,
   ⟨Obj.compLost, .u36, .rw, false, 1, 0xFFFFFFFFF, none, true, 0⟩,
   ⟨Obj.compSel, .u36, .rwb, true, 32, 0xF00000000, none, false, 0⟩,
   ⟨Obj.headMasked, .u18, .ro, false, 32, 0xFFFFFFFFF, none, false, 0⟩]

/-- Objects of group 09. -/
def objRows09a : List ObjDef :=
  [⟨Obj.headGeom, .table, .rwi, true, 128, 0xFFFFFFFFF, none, false, 0⟩,
   ⟨Obj.printOrigin, .pos48, .rwi, false, 1, 0xFFFFFFFFF, none, false, 0⟩,
   ⟨Obj.pageGap, .u18, .rwi, true, 1, 0xFFFFFFFFF, rg (0) 262143, false, 0⟩,
   ⟨Obj.pageOrigin, .pos48, .ro, false, 1, 0xFFFFFFFFF, none, false, 0⟩,
   ⟨Obj.ldsDemand, .u36, .ro, false, 1, 0xFFFFFFFFF, none, false, 0⟩,
   ⟨Obj.ldsCapacity, .u18, .const, false, 1, 0xFFFFFFFFF, none, false, 0x71c7⟩,
   ⟨Obj.ldsUse, .u18, .ro, false, 32, 0xFFFFFFFFF, none, false, 0⟩,
   ⟨Obj.ldsBase, .u36, .ro, false, 32, 0xFFFFFFFFF, none, false, 0⟩]

/-- Objects of group 0A. -/
def objRows0Aa : List ObjDef :=
  [⟨Obj.fireLead, .u18, .rwi, true, 1, 0xFFFFFFFFF, rg (2400) 8000, false, 3200⟩,
   ⟨Obj.fireFmax, .u18, .rwi, true, 1, 0xFFFFFFFFF, rg (1000) 160000, false, 0⟩,
   ⟨Obj.slipBudget, .u9, .rwi, true, 1, 0xFFFFFFFFF, rg (0) 32, false, 8⟩,
   ⟨Obj.fireEnable, .bool, .rw, false, 1, 0xFFFFFFFFF, none, false, 0⟩,
   ⟨Obj.velWindow, .u9, .rwi, true, 1, 0xFFFFFFFFF, rg (4) 256, false, 64⟩,
   ⟨Obj.bookClear, .bool, .wo, false, 1, 0xFFFFFFFFF, rg (0) 1, false, 0⟩,
   ⟨Obj.staleV, .u36, .rw, false, 1, 0xFFFFFFFFF, none, true, 0⟩,
   ⟨Obj.staleT, .u36, .rw, false, 1, 0xFFFFFFFFF, none, true, 0⟩,
   ⟨Obj.flight, .u18, .rwi, true, 1, 0xFFFFFFFFF, none, false, 0⟩,
   ⟨Obj.pulseProfiles, .table, .rwb, true, 448, 0xFFFFFFFFF, none, false, 0⟩,
   ⟨Obj.headBook, .table, .ro, false, 256, 0xFFFFFFFFF, none, false, 0⟩,
   ⟨Obj.recovery, .u18, .rwb, true, 32, 0xFFFFFFFFF, rg (0) 262143, false, 625⟩,
   ⟨Obj.vNom, .u18, .rwb, true, 32, 0xFFFFFFFFF, rg (8000) 48000, false, 0x5dc0⟩,
   ⟨Obj.tRef, .s18, .rwb, true, 32, 0xFFFFFFFFF, rg (0) 2400, false, 640⟩,
   ⟨Obj.alpha, .s18, .rwb, true, 32, 0xFFFFFFFFF, none, false, 0⟩,
   ⟨Obj.headTrim, .u18, .rwb, true, 32, 0xFFFFFFFFF, rg (32768) 98304, false, 0x10000⟩,
   ⟨Obj.energyNow, .u36, .ro, false, 32, 0xFFFFFFFFF, none, false, 0⟩,
   ⟨Obj.kLine, .u18, .ro, false, 32, 0xFFFFFFFFF, none, false, 0⟩,
   ⟨Obj.haltState, .u36, .ro, false, 1, 0xFFFFFFFFF, none, false, 0⟩,
   ⟨Obj.haltPage, .u36, .ro, false, 1, 0xFFFFFFFFF, none, false, 0⟩]

/-- Objects of group 0A. -/
def objRows0Ab : List ObjDef :=
  [⟨Obj.haltLine, .u18, .ro, false, 1, 0xFFFFFFFFF, none, false, 0⟩,
   ⟨Obj.resumePos, .pos48, .ro, false, 1, 0xFFFFFFFFF, none, false, 0⟩,
   ⟨Obj.rewindPos, .pos48, .ro, false, 1, 0xFFFFFFFFF, none, false, 0⟩,
   ⟨Obj.resumeRunup, .u18, .rwi, true, 1, 0xFFFFFFFFF, rg (16) 65535, false, 96⟩,
   ⟨Obj.fireSlips, .u36, .rw, false, 1, 0xFFFFFFFFF, none, true, 0⟩,
   ⟨Obj.pageAbort, .u9, .wo, false, 1, 0xFFFFFFFFF, rg (1) 1, false, 0⟩,
   ⟨Obj.resumeBoundary, .pos48, .ro, false, 32, 0xFFFFFFFFF, none, false, 0⟩]

/-- Objects of group 0B. -/
def objRows0Ba : List ObjDef :=
  [⟨Obj.markPeriod, .u18, .rwi, true, 1, 0xFFFFFFFFF, rg (10) 100, false, 20⟩,
   ⟨Obj.tLimit, .s18, .rw, true, 1, 0xFFFFFFFFF, rg (0) 2400, false, 960⟩,
   ⟨Obj.tHyst, .u18, .rw, true, 1, 0xFFFFFFFFF, rg (16) 480, false, 80⟩,
   ⟨Obj.tWarn, .s18, .rw, true, 1, 0xFFFFFFFFF, rg (0) 2400, false, 880⟩,
   ⟨Obj.stepLimit, .u18, .rw, true, 1, 0xFFFFFFFFF, rg (100) 10000, false, 500⟩,
   ⟨Obj.headLink, .u36, .ro, false, 32, 0xFFFFFFFFF, none, false, 0⟩,
   ⟨Obj.headTemp, .s18, .ro, false, 32, 0xFFFFFFFFF, none, false, 0⟩,
   ⟨Obj.headAsym, .s18, .rw, true, 32, 0xFFFFFFFFF, rg (-20000) 20000, false, 0⟩,
   ⟨Obj.linkDelay, .u18, .ro, false, 32, 0xFFFFFFFFF, none, false, 0⟩,
   ⟨Obj.notFired, .u36, .rw, false, 32, 0xFFFFFFFFF, none, true, 0⟩,
   ⟨Obj.linkCrcErrors, .u36, .rw, false, 32, 0xFFFFFFFFF, none, true, 0⟩,
   ⟨Obj.bridgeId, .u36, .ro, false, 32, 0xFFFFFFFFF, none, false, 0⟩,
   ⟨Obj.regSel, .u36, .rw, false, 32, 0xC0000FFFF, none, false, 0⟩,
   ⟨Obj.regData, .u36, .rw, false, 32, 0xFFFFFFFFF, none, false, 0⟩]

/-- Objects of group 0C. -/
def objRows0Ca : List ObjDef :=
  [⟨Obj.posSource, .u9, .rwi, true, 1, 0xFFFFFFFFF, rg (0) 2, false, 0⟩,
   ⟨Obj.posNow, .pos48, .ro, false, 1, 0xFFFFFFFFF, none, false, 0⟩,
   ⟨Obj.posState, .u36, .ro, false, 1, 0xFFFFFFFFF, none, false, 0⟩,
   ⟨Obj.posPreset, .pos48, .wo, false, 1, 0xFFFFFFFFF, none, false, 0⟩,
   ⟨Obj.fallback, .u9, .rwi, true, 1, 0xFFFFFFFFF, rg (0) 1, false, 0⟩,
   ⟨Obj.speed, .s36, .ro, false, 1, 0xFFFFFFFFF, none, false, 0⟩,
   ⟨Obj.encoutCfg, .u36, .rwi, true, 1, 0xE00000000, none, false, 0⟩,
   ⟨Obj.encoutDiv, .u36, .rwi, true, 1, 0xFFFFFFFFF, rg (64) 1073741824, false, 0x8000⟩,
   ⟨Obj.encoutPhase, .pos48, .rwi, true, 1, 0xFFFFFFFFF, none, false, 0⟩,
   ⟨Obj.encoutOverruns, .u36, .rw, false, 1, 0xFFFFFFFFF, none, true, 0⟩,
   ⟨Obj.encCfg, .u36, .rwi, true, 2, 0xFF0000000, none, false, 0x840000000⟩,
   ⟨Obj.encScale, .u36, .rwi, true, 2, 0xFFFFFFFFF, rg (1048576) 17179869184, false, 0x100000000⟩,
   ⟨Obj.encCount, .s36, .ro, false, 2, 0xFFFFFFFFF, none, false, 0⟩,
   ⟨Obj.encStatus, .u36, .ro, false, 2, 0xFFFFFFFFF, none, false, 0⟩,
   ⟨Obj.indexCfg, .u36, .rwi, true, 2, 0xFFFFFFFFF, none, false, 0x20001000⟩,
   ⟨Obj.indexErr, .s36, .ro, false, 2, 0xFFFFFFFFF, none, false, 0⟩,
   ⟨Obj.indexCorr, .s36, .ro, false, 2, 0xFFFFFFFFF, none, false, 0⟩,
   ⟨Obj.cmp, .u36, .rw, false, 8, 0xBFFFC0000, none, false, 0x40000⟩,
   ⟨Obj.cmpPos, .pos48, .rw, false, 8, 0xFFFFFFFFF, none, false, 0⟩,
   ⟨Obj.cmpPeriod, .u36, .rw, false, 8, 0xFFFFFFFFF, none, false, 0⟩]

/-- Objects of group 0C. -/
def objRows0Cb : List ObjDef :=
  [⟨Obj.cmpFired, .u36, .rw, false, 8, 0xFFFFFFFFF, none, true, 0⟩,
   ⟨Obj.cmpMissed, .u36, .rw, false, 8, 0xFFFFFFFFF, none, true, 0⟩,
   ⟨Obj.captPos, .pos48, .ro, false, 8, 0xFFFFFFFFF, none, false, 0⟩]

/-- Objects of group 0D. -/
def objRows0Da : List ObjDef :=
  [⟨Obj.hareCtrl, .u36, .rw, false, 1, 0xC00000000, none, false, 0⟩,
   ⟨Obj.hareVmax, .s36, .rw, true, 1, 0xFFFFFFFFF, none, false, 0⟩,
   ⟨Obj.hareAccel, .u36, .rw, true, 1, 0xFFFFFFFFF, none, false, 0⟩,
   ⟨Obj.hareDecel, .u36, .rw, true, 1, 0xFFFFFFFFF, none, false, 0⟩,
   ⟨Obj.hareSpeed, .s36, .ro, false, 1, 0xFFFFFFFFF, none, false, 0⟩,
   ⟨Obj.auxCfg, .u36, .rwi, true, 1, 0x800000000, none, false, 0⟩,
   ⟨Obj.auxState, .u36, .rw, false, 1, 0x800000000, none, false, 0⟩,
   ⟨Obj.auxBadReplies, .u36, .rw, false, 1, 0xFFFFFFFFF, none, true, 0⟩,
   ⟨Obj.axCtrl, .u36, .rw, true, 2, 0xF00000000, none, false, 0⟩,
   ⟨Obj.axTarget, .s36, .rw, false, 2, 0xFFFFFFFFF, rg (-2147483648) 2147483647, false, 0⟩,
   ⟨Obj.axVmax, .u36, .rw, true, 2, 0xFFFFFFFFF, rg (1) 2147483648, false, 0x10000⟩,
   ⟨Obj.axAccel, .u36, .rw, true, 2, 0xFFFFFFFFF, rg (1) 2147483648, false, 0x10000⟩,
   ⟨Obj.axDecel, .u36, .rw, true, 2, 0xFFFFFFFFF, rg (1) 2147483648, false, 0x10000⟩,
   ⟨Obj.axDecelNow, .u36, .ro, false, 2, 0xFFFFFFFFF, none, false, 0x10000⟩,
   ⟨Obj.axSetpoint, .s36, .ro, false, 2, 0xFFFFFFFFF, none, false, 0⟩,
   ⟨Obj.axActual, .s36, .ro, false, 2, 0xFFFFFFFFF, none, false, 0⟩,
   ⟨Obj.axCapPos, .s36, .rw, true, 2, 0xFFFFFFFFF, none, false, 0⟩,
   ⟨Obj.axRingSp, .s36, .rw, false, 2, 0xFFFFFFFFF, none, false, 0⟩,
   ⟨Obj.axState, .u36, .ro, false, 2, 0xFFFFFFFFF, none, false, 0⟩]

/-- Objects of group 0E. -/
def objRows0Ea : List ObjDef :=
  [⟨Obj.camRole, .u36, .rwi, true, 1, 0xFFFFF0000, none, false, 0⟩,
   ⟨Obj.camPhase, .pos48, .rwi, true, 1, 0xFFFFFFFFF, none, false, 0⟩,
   ⟨Obj.camLinePitch, .u36, .rwi, true, 1, 0xFFFFFFFFF, rg (4096) 1073741824, false, 0x8000⟩,
   ⟨Obj.camOffset, .pos48, .rwi, true, 1, 0xFFFFFFFFF, none, false, 0⟩,
   ⟨Obj.syncReq, .u9, .wo, false, 1, 0x00000000F, none, false, 0⟩,
   ⟨Obj.expCommit, .u9, .wo, false, 1, 0x00000000F, none, false, 0⟩,
   ⟨Obj.codePlanes, .u9, .rwi, true, 1, 0xFFFFFFFFF, rg (1) 4, false, 3⟩,
   ⟨Obj.dispScale, .u9, .rw, true, 1, 0xFFFFFFFFF, rg (0) 4, false, 2⟩,
   ⟨Obj.dispAck, .u36, .wo, false, 1, 0xFFFFFFFFF, none, false, 0⟩,
   ⟨Obj.dispFill, .u36, .ro, false, 1, 0xFFFFFFFFF, none, false, 0⟩,
   ⟨Obj.dispDropped, .u36, .rw, false, 1, 0xFFFFFFFFF, none, true, 0⟩,
   ⟨Obj.colourMatrix, .table, .rwi, true, 48, 0xFFFFFFFFF, none, false, 0⟩,
   ⟨Obj.flatField, .domain, .rwi, true, 131072, 0xFFFFFFF00, none, false, 0x100000⟩,
   ⟨Obj.frameStats, .table, .ro, false, 128, 0xFFFFFFFFF, none, false, 0⟩,
   ⟨Obj.dispQueue, .table, .ro, false, 131072, 0xFFFFFFFFF, none, false, 0⟩,
   ⟨Obj.camStatus, .u36, .ro, false, 4, 0xFFFFFFFFF, none, false, 0⟩,
   ⟨Obj.camGeom, .u36, .rwi, true, 4, 0xFFFFFC000, none, false, 0x100004000⟩,
   ⟨Obj.camX0, .u36, .rwi, true, 4, 0xFFFFFFFFF, none, false, 0⟩,
   ⟨Obj.camPitch, .u18, .rwi, true, 4, 0xFFFFFFFFF, rg (256) 16384, false, 2048⟩,
   ⟨Obj.ffBase, .u18, .rwi, true, 4, 0xFFFFFFFFF, none, false, 0⟩]

/-- Objects of group 0E. -/
def objRows0Eb : List ObjDef :=
  [⟨Obj.frameLines, .u18, .rwi, true, 4, 0xFFFFFFFFF, rg (32) 32768, false, 4096⟩,
   ⟨Obj.expSet, .u36, .rw, false, 4, 0xFFFFFF000, none, false, 0x3e800000⟩,
   ⟨Obj.gainRgb, .u36, .rw, false, 4, 0xFFFFFFFFF, none, false, 0x100100100⟩,
   ⟨Obj.gainCir, .u36, .rw, false, 4, 0xFFFFFF000, none, false, 0x100100000⟩,
   ⟨Obj.expActive, .u36, .ro, false, 4, 0xFFFFFFFFF, none, false, 0⟩,
   ⟨Obj.mosaic, .u36, .rwi, true, 16, 0xFFFFFF00F, none, false, 0⟩,
   ⟨Obj.stripeOverruns, .u36, .rw, false, 4, 0xFFFFFFFFF, none, true, 0⟩,
   ⟨Obj.linesDiscarded, .u36, .rw, false, 4, 0xFFFFFFFFF, none, true, 0⟩]

/-- Objects of group 0F. -/
def objRows0Fa : List ObjDef :=
  [⟨Obj.foxEnable, .bool, .rw, true, 1, 0xFFFFFFFFF, none, false, 1⟩,
   ⟨Obj.foxState, .u36, .ro, false, 1, 0xFFFFFFFFF, none, false, 0⟩,
   ⟨Obj.foxSample, .u18, .rw, true, 1, 0xFFFFFFFFF, rg (64) 65535, false, 1024⟩,
   ⟨Obj.qScale, .u18, .rw, true, 1, 0xFFFFFFFFF, rg (1) 65535, false, 128⟩,
   ⟨Obj.evidMin, .u36, .rw, true, 1, 0xFFFFFFFFF, rg (256) 1048575, false, 0x4000⟩,
   ⟨Obj.maxFrames, .u9, .rw, true, 1, 0xFFFFFFFFF, rg (1) 15, false, 8⟩,
   ⟨Obj.phiMiss, .u9, .rw, true, 1, 0xFFFFFFFFF, rg (1) 255, false, 192⟩,
   ⟨Obj.phiWeak, .u9, .rw, true, 1, 0xFFFFFFFFF, rg (1) 255, false, 51⟩,
   ⟨Obj.phiGood, .u9, .rw, true, 1, 0xFFFFFFFFF, rg (1) 255, false, 26⟩,
   ⟨Obj.zMin, .u9, .rw, true, 1, 0xFFFFFFFFF, rg (16) 255, false, 64⟩,
   ⟨Obj.regMin, .u18, .rw, true, 1, 0xFFFFFFFFF, rg (0) 32767, false, 0x4000⟩,
   ⟨Obj.regLost, .u9, .rw, true, 1, 0xFFFFFFFFF, rg (1) 255, false, 8⟩,
   ⟨Obj.evidLines, .u36, .rw, false, 1, 0xFFFFFFFFF, none, true, 0⟩,
   ⟨Obj.evidSkipped, .u36, .rw, false, 1, 0xFFFFFFFFF, none, true, 0⟩,
   ⟨Obj.regDiscards, .u36, .rw, false, 1, 0xFFFFFFFFF, none, true, 0⟩,
   ⟨Obj.foxInv, .table, .rw, true, 11, 0xFFFFFFFFF, none, false, 0⟩,
   ⟨Obj.verdicts, .table, .ro, false, 1025, 0xFFFFFFFFF, none, false, 0⟩,
   ⟨Obj.unmix, .s18, .rw, true, 5, 0xFFFFFFFFF, none, false, 0⟩,
   ⟨Obj.regShift, .u36, .ro, false, 4, 0xFFFFFFFFF, none, false, 0⟩,
   ⟨Obj.noise, .u36, .ro, false, 4, 0xFFFFFFFFF, none, false, 0⟩]

/-- Objects of group 10. -/
def objRows10a : List ObjDef :=
  [⟨Obj.calReq, .u36, .wo, false, 1, 0xFFFFFFFFF, none, false, 0⟩,
   ⟨Obj.calState, .u36, .ro, false, 1, 0xFFFFFFFFF, none, false, 0⟩,
   ⟨Obj.calQueue, .table, .ro, false, 16, 0xFFFFFFFFF, none, false, 0⟩,
   ⟨Obj.autoCal, .u9, .rw, true, 1, 0x000000007, none, false, 3⟩,
   ⟨Obj.dieTemp, .s18, .ro, false, 1, 0xFFFFFFFFF, none, false, 0⟩,
   ⟨Obj.delayTrig, .u18, .rw, true, 1, 0xFFFFFFFFF, rg (16) 480, false, 64⟩,
   ⟨Obj.adcTrig, .u18, .rw, true, 1, 0xFFFFFFFFF, rg (16) 480, false, 128⟩,
   ⟨Obj.autoWait, .u18, .rw, true, 1, 0xFFFFFFFFF, rg (10) 262143, false, 0x2710⟩,
   ⟨Obj.retryDelay, .u18, .rw, true, 1, 0xFFFFFFFFF, rg (1) 3600, false, 10⟩,
   ⟨Obj.patternPages, .u36, .rwi, false, 1, 0xFFFFFFFFF, none, false, 0⟩,
   ⟨Obj.patternTol, .u9, .rw, true, 1, 0xFFFFFFFFF, rg (1) 64, false, 4⟩,
   ⟨Obj.delayCal, .u36, .ro, false, 4, 0xFFFFFFFFF, none, false, 0⟩,
   ⟨Obj.adcCal, .u36, .ro, false, 32, 0xFFFFFFFFF, none, false, 0⟩,
   ⟨Obj.selftestResult, .u36, .ro, false, 4, 0xFFFFFFFFF, none, false, 0⟩,
   ⟨Obj.patternResult, .u36, .ro, false, 32, 0xFFFFFFFFF, none, false, 0⟩,
   ⟨Obj.patternFlags, .u9, .ro, false, 32, 0xFFFFFFFFF, none, false, 0⟩]

/-- Objects of group 11. -/
def objRows11a : List ObjDef :=
  [⟨Obj.scrubRate, .u36, .rw, true, 1, 0x0FFFFFFFF, none, false, 0x79bba8a0⟩,
   ⟨Obj.compat, .u9, .rwi, true, 1, 0x0000000FF, none, false, 0⟩,
   ⟨Obj.initDone, .u9, .rw, false, 1, 0x0000000FF, none, false, 0⟩,
   ⟨Obj.clear, .u9, .wo, false, 1, 0x0000000FF, none, false, 0⟩,
   ⟨Obj.summaryPeriod, .u18, .rw, true, 1, 0xFFFFFFFFF, rg (100) 60000, false, 1000⟩,
   ⟨Obj.repairMap, .table, .ro, true, 1025, 0xFFFFFFFFF, none, false, 0⟩,
   ⟨Obj.memStatus, .u36, .ro, false, 8, 0xFFFFFFFFF, none, false, 0⟩,
   ⟨Obj.corrected, .u36, .rw, false, 8, 0xFFFFFFFFF, none, true, 0⟩,
   ⟨Obj.uncorrectable, .u36, .rw, false, 8, 0xFFFFFFFFF, none, true, 0⟩,
   ⟨Obj.poisoned, .u36, .rw, false, 8, 0xFFFFFFFFF, none, true, 0⟩,
   ⟨Obj.poisonReads, .u36, .rw, false, 8, 0xFFFFFFFFF, none, true, 0⟩,
   ⟨Obj.sparesUsed, .u18, .ro, false, 8, 0xFFFFFFFFF, none, false, 0⟩,
   ⟨Obj.wbDropped, .u36, .rw, false, 8, 0xFFFFFFFFF, none, true, 0⟩,
   ⟨Obj.scrubAddr, .u36, .ro, false, 8, 0xFFFFFFFFF, none, false, 0⟩,
   ⟨Obj.flipCtrl, .u36, .rw, false, 8, 0xC007FFFFF, none, false, 0⟩,
   ⟨Obj.flipCheck, .u9, .rw, false, 8, 0x00000007F, none, false, 0⟩,
   ⟨Obj.flipData, .u36, .rw, false, 8, 0xFFFFFFFFF, none, false, 0⟩]

/-- Objects of group 12. -/
def objRows12a : List ObjDef :=
  [⟨Obj.hpcEnable, .u36, .rw, false, 1, 0x0FFFFFFFF, none, false, 0⟩,
   ⟨Obj.hpcUnlatch, .u36, .wo, false, 1, 0x0FFFFFFFF, none, false, 0⟩,
   ⟨Obj.ocRetries, .u9, .rw, true, 1, 0xFFFFFFFFF, rg (0) 15, false, 3⟩,
   ⟨Obj.tripHoldoff, .u18, .rw, true, 1, 0xFFFFFFFFF, rg (10) 10000, false, 100⟩,
   ⟨Obj.adcPeriod, .u18, .rw, true, 1, 0xFFFFFFFFF, rg (4000) 100000, false, 4000⟩,
   ⟨Obj.adcTrigOnly, .bool, .rw, true, 1, 0xFFFFFFFFF, none, false, 0⟩,
   ⟨Obj.openV, .u18, .rw, true, 1, 0xFFFFFFFFF, rg (500) 10000, false, 2000⟩,
   ⟨Obj.revV, .u18, .rw, true, 1, 0xFFFFFFFFF, rg (100) 10000, false, 1000⟩,
   ⟨Obj.winFilter, .u9, .rw, true, 1, 0xFFFFFFFFF, rg (1) 255, false, 16⟩,
   ⟨Obj.adcMissed, .u36, .rw, false, 1, 0xFFFFFFFFF, none, true, 0⟩,
   ⟨Obj.hpcState, .u36, .ro, false, 32, 0xFFFFFFFFF, none, false, 0⟩,
   ⟨Obj.hpcVwin, .u36, .rw, true, 32, 0xFFFFFFFFF, none, false, 0x7d00bb80⟩,
   ⟨Obj.ocLimit, .u18, .rw, true, 32, 0xFFFFFFFFF, rg (500) 7500, false, 6600⟩,
   ⟨Obj.shunt, .u18, .rw, true, 32, 0xFFFFFFFFF, rg (1000) 100000, false, 0x2710⟩,
   ⟨Obj.rampTime, .u18, .rw, true, 32, 0xFFFFFFFFF, rg (100) 20000, false, 1000⟩,
   ⟨Obj.hpcV, .u18, .ro, false, 32, 0xFFFFFFFFF, none, false, 0⟩,
   ⟨Obj.hpcI, .s18, .ro, false, 32, 0xFFFFFFFFF, none, false, 0⟩,
   ⟨Obj.trips, .u36, .rw, false, 32, 0xFFFFFFFFF, none, true, 0⟩]

/-- Objects of group 13. -/
def objRows13a : List ObjDef :=
  [⟨Obj.casState, .u36, .ro, false, 1, 0xFFFFFFFFF, none, false, 0⟩,
   ⟨Obj.unslotted, .u9, .ro, false, 1, 0xFFFFFFFFF, none, false, 0⟩,
   ⟨Obj.secondInk, .u36, .rwi, true, 1, 0x0FFFFFFFF, none, false, 0⟩,
   ⟨Obj.edgeMismatches, .u36, .rw, false, 1, 0xFFFFFFFFF, none, true, 0⟩,
   ⟨Obj.casCfg, .u36, .rwi, true, 4, 0xFC0000000, none, false, 0⟩]

/-- Objects of group 14. -/
def objRows14a : List ObjDef :=
  [⟨Obj.eventQueue, .table, .ro, false, 2048, 0xFFFFFFFFF, none, false, 0⟩,
   ⟨Obj.eventMask, .u36, .rw, true, 1, 0xF003FFFFF, none, false, 0xf003fffff⟩,
   ⟨Obj.eventAck, .u36, .wo, false, 1, 0xFFFFFFFFF, none, false, 0⟩,
   ⟨Obj.eventFill, .u9, .ro, false, 1, 0xFFFFFFFFF, none, false, 0⟩,
   ⟨Obj.eventNextSeq, .u36, .ro, false, 1, 0xFFFFFFFFF, none, false, 0⟩,
   ⟨Obj.eventLost, .u36, .rw, false, 1, 0xFFFFFFFFF, none, true, 0⟩,
   ⟨Obj.eventMasked, .u36, .rw, false, 1, 0xFFFFFFFFF, none, true, 0⟩]

/-- Objects of group 15. -/
def objRows15a : List ObjDef :=
  [⟨Obj.xingPeerMap, .u36, .ro, false, 1, 0xFFFFFFFFF, none, false, 0⟩,
   ⟨Obj.xingDiscontMap, .u36, .ro, false, 1, 0xFFFFFFFFF, none, false, 0⟩,
   ⟨Obj.xingStatus, .u36, .rw, false, 16, 0x400000000, none, false, 0⟩]

/-- The rows of one group (R118). -/
def groupRows (g : Nat) : List ObjDef :=
  match g with
  | 0x00 => objRows00a
  | 0x01 => objRows01a
  | 0x02 => objRows02a
  | 0x03 => objRows03a ++ objRows03b
  | 0x04 => objRows04a
  | 0x05 => objRows05a
  | 0x06 => objRows06a
  | 0x07 => objRows07a
  | 0x08 => objRows08a
  | 0x09 => objRows09a
  | 0x0A => objRows0Aa ++ objRows0Ab
  | 0x0B => objRows0Ba
  | 0x0C => objRows0Ca ++ objRows0Cb
  | 0x0D => objRows0Da
  | 0x0E => objRows0Ea ++ objRows0Eb
  | 0x0F => objRows0Fa
  | 0x10 => objRows10a
  | 0x11 => objRows11a
  | 0x12 => objRows12a
  | 0x13 => objRows13a
  | 0x14 => objRows14a
  | 0x15 => objRows15a
  | _ => []

/-- The object with an identifier, none where no item is defined (R119). -/
def findObj (id : Nat) : Option ObjDef := (groupRows (id / 4096)).find? (fun d => d.id == id)

/-- Every object. -/
def allObjs : List ObjDef := (List.range 22).flatMap groupRows

/-- Items 100 upward are arrays (R11). -/
def ObjDef.isArray (d : ObjDef) : Bool := decide (d.id % 4096 ≥ 0x100)

/-- TABLE and DOMAIN objects are moved only by block operations (R82). -/
def ObjDef.isBulk (d : ObjDef) : Bool := d.ty == .table || d.ty == .domain

/-- Words of one element (R10). -/
def ObjDef.wordsPer (d : ObjDef) : Nat := if d.ty == .pos48 || d.ty == .time72 then 2 else 1

/-- The RWB objects of group 0A switch at FIRE (R323); every other RWB object at SCREEN (R91). No object of the
spec names INPUT. -/
def ObjDef.isFire (d : ObjDef) : Bool := decide (d.id / 4096 = 0x0A)

end Sys2Proof.Machine
end

