-- ==== Sys2Proof/Machine/State.lean ====
section
/-! DEFINITION. The state of the ALT3648 as plain data: everything the spec gives the machine, the queue of waiting
commands, and State.reset, the device right after power-on release (R71, R529). -/

set_option Elab.async false

namespace Sys2Proof.Machine

open Sys2Proof

/-- The device has no fault that stops it: a failing part raises an event (R499) and a refused access returns an
abort (R111), both next states. No constructor is needed, and none is raised. -/
inductive Fault where
deriving DecidableEq, Repr

/-- `notModelled`: the command has no meaning yet, raised by exec's arm for it alone. Safe: the machine stops where
the device goes on. -/
inductive Refusal where
  | notModelled (mnemonic : String)
deriving DecidableEq, Repr

/-- An element of an object: one word, or the word pair of POS48 and TIME72 as word 0 above word 1 (R8, R10). -/
abbrev Elem := BitVec 72

/-- Values by key, keys strictly rising. -/
abbrev Store := List (Nat × Elem)

/-- A stored word (R450): 36 data bits as written, the code bits flipped since (35:0 data, 42:36 check), and the
two valid bits (R451). -/
structure Stored where
  data : Word
  upset : BitVec 43
  valid : BitVec 2
deriving DecidableEq, Repr

/-- A memory's cells by address, addresses strictly rising, none equal to what an unlisted address holds. -/
abbrev Memory := List (Nat × Stored)

/-- The seasons (R53). -/
inductive Season where
  | winter
  | thaw
  | summer
  | autumn
deriving DecidableEq, Repr

/-- The two grades (R2). -/
inductive Grade where
  | g16
  | g12
deriving DecidableEq, Repr

/-- The Timebase, TIME72 and its servo (R148 to R161). -/
structure Clock where
  /-- Tick count (R148). -/
  tick : Nat
  /-- TIME72 accumulator in 2^-64 s (R149). -/
  acc : Nat
  /-- Servo integrator, ps (R157). -/
  iAcc : Int
  /-- Sum and count of the offset samples of the mean under way (R151). -/
  meanSum : Int
  meanCount : Nat
  /-- Consecutive means within the lock window (R151). -/
  goodMeans : Nat
  /-- TIME_RESYNC waits for the next sample (R159). -/
  resync : Bool
  /-- Offset held until the page ends (R158). -/
  held : Option Int
  /-- A backward slew is under way, its event raised (R158). -/
  slewing : Bool
  /-- Offset predicted at the end of holdover (R161). -/
  predicted : Int
  /-- The named copy changed and the first intact copy has not come yet (R161). -/
  rerouted : Bool
  /-- Cycle and value of the newest theta_a (R155). -/
  thetaA : Option (Nat × Int)
  /-- A valid sample has come since the device left SYNC_STATE 0 (R151). -/
  sampled : Bool
deriving DecidableEq, Repr

/-- The IEEE 1588 exchange under way (R162, R163). -/
structure Ptp where
  /-- The grandmaster chosen, and the clock that announced it. -/
  master : Option Announce
  parent : BitVec 64
  /-- A two-step Sync waits for its Follow_Up: sequence number, receive time, correction. -/
  sync : Option (Nat × Int × Int)
  /-- Receive time less origin of the newest Sync, ps. -/
  syncDiff : Int
  haveSync : Bool
  /-- Sequence number of the last request sent, and its send time. -/
  reqSeq : Nat
  delayTx : Option (Nat × Int)
  pdelayTx : Option (Nat × Int)
  /-- Pdelay_Resp of a two-step peer: sequence number, request receipt, response receipt. -/
  pdelayResp : Option (Nat × Int × Int)
deriving DecidableEq, Repr

/-- A trigger unit at work (R166): the next firing in 1/64 tick once it has fired, and the firings done. -/
structure TrigUnit where
  nextFire : Option Nat
  fired : Nat
  /-- A step has passed the TRIG_START of the armed unit (R167). -/
  passed : Bool
  /-- Tick of its last firing (R168). -/
  lastTick : Option Nat
deriving DecidableEq, Repr

/-- Where an Autumn is heading and how (R65, R67, R70). -/
structure AutumnRun where
  step : Nat
  toWinter : Bool
  /-- R70: no capping and no saving, values kept. -/
  firmware : Bool
  /-- Axes that have yet to finish the capping move (R399): the axis, and whether an earlier move comes first. -/
  capping : List (Nat × Bool)
  /-- A save was running when step 3 began: step 3's own follows it (R67, R88). -/
  again : Bool
deriving DecidableEq, Repr

/-- Seasons, readiness, rails and resets (chapter 02). -/
structure Pwr where
  season : Season
  /-- A whole-device reset holds the device (R71). -/
  inReset : Bool
  /-- The power-on reset is held: VDD_AON has been below 0.70 V (R71). -/
  powerOn : Bool
  /-- The RESET_N pin is low (R71). -/
  resetLow : Bool
  /-- The internal domains are powered (R61). -/
  domains : Bool
  /-- The ring bypass is open (R58, R121). -/
  bypassOpen : Bool
  /-- Bits of READY whose function has brought itself up (R60). -/
  up : Word
  /-- 01.002 READY as it reads (R22, R51, R60). -/
  ready : Word
  /-- Rails out of range now (R51). -/
  railsOut : BitVec 9
  /-- VDRV is below 10.0 V (R480). -/
  vdrvLow : Bool
  /-- An uncorrectable word was found in control processor RAM, and the restart of R70 has not begun (R465). -/
  codeError : Bool
  autumn : AutumnRun
  /-- A wake cause seen in Autumn (R68): its WAKE_CAUSE code. -/
  wakeLatched : Option Nat
  /-- Tick of the last wake run sent (R58). -/
  wakeRunAt : Option Nat
  /-- Persistent objects have been restored since entry to Thaw (R533). -/
  restored : Bool
  /-- SEASON_REQ was written before the restore (R533). -/
  reqWritten : Bool
  /-- The value of SEASON_REQ that a save takes (R65, R69). -/
  reqSaved : Nat
  /-- Firmware runs from ROM alone because of a patch failure (R442). -/
  romOnly : Bool
  /-- Object values were kept at the last entry to Thaw (R529, R530). -/
  kept : Bool
  strap : Fin 4
  grade : Grade
deriving DecidableEq, Repr

/-- A copy in a flash region (R76, R77): validity, 16-bit sequence number, content by key. -/
structure FlashCopy where
  valid : Bool
  seq : Nat
  image : Store
deriving DecidableEq, Repr

/-- A flash region: two copies, and which of them is in use (R77). -/
structure FlashRegion where
  copy0 : FlashCopy
  copy1 : FlashCopy
  inUse : Option Bool
deriving DecidableEq, Repr

/-- The flash (R76) and the save under way (R88): the images taken when the save began. -/
structure Flash where
  patch : FlashRegion
  persist : FlashRegion
  tables : FlashRegion
  saving : Option (Store × Store)
deriving DecidableEq, Repr

/-- A pending commit (R93, R95): page, captured values by key, done marks. -/
structure Commit where
  page : Nat
  /-- The objects bound, and their captured values. -/
  objs : List Nat
  image : Store
  inputDone : Bool
  screenDone : Bool
  /-- Heads at which the FIRE objects have switched (R92). -/
  heads : BitVec 32
deriving DecidableEq, Repr

/-- An open block transfer (R101, R103). -/
structure Transfer where
  obj : Nat
  write : Bool
  shadow : Bool
  offset : Nat
  length : Nat
  nextSeq : Nat
  /-- Words taken so far, oldest first. -/
  words : List Word
  /-- Words sent so far by a read. -/
  sent : Nat
  /-- The active copy has switched while the read was open (R107). -/
  switched : Bool
  /-- Words captured when a read of 0A.011 HEAD_BOOK was opened (R45, R321). -/
  captured : List Word
deriving DecidableEq, Repr

/-- The object dictionary (chapter 03). -/
structure Dict where
  active : Store
  shadow : Store
  /-- Dirty RWB objects (R90). -/
  dirty : List Nat
  /-- RWB TABLE and DOMAIN objects whose shadow is invalid (R104). -/
  badShadow : List Nat
  /-- RW and RWI TABLE and DOMAIN objects that are invalid (R105, R299). -/
  badObj : List Nat
  commits : Vector (Option Commit) 4
  transfers : Vector (Option Transfer) 4
  inband : Option Transfer
  /-- Page last begun at INPUT, SCREEN and FIRE, and the page most recently begun (R93). -/
  begunInput : Option Nat
  begunScreen : Option Nat
  begunFire : Option Nat
  begunLast : Option Nat
deriving DecidableEq, Repr

/-- An event as raised (R499): TIME72, group, number, severity 0 to 3, parameters. -/
structure Event where
  time : Nat
  group : Nat
  number : Nat
  sev : Nat
  params : List Word
deriving DecidableEq, Repr

/-- A queue entry (R112). -/
structure Entry where
  event : Event
  seq : Nat
  rep : Nat
deriving DecidableEq, Repr

/-- The event queue (R112 to R116, R501 to R504). -/
structure Events where
  queue : List Entry
  nextSeq : Nat
  /-- Events of the present control cycle, oldest first. -/
  raised : List Event
  /-- The AON buffer of R503. -/
  aon : List Event
  /-- EV 14.001 has been raised since the fill last rose to 240 (R502). -/
  overflowed : Bool
deriving DecidableEq, Repr

/-- A merge-buffer entry (R455): address, data, and which nonets are present. -/
structure MergeEntry where
  addr : Nat
  data : Word
  nonets : BitVec 4
  since : Nat
deriving DecidableEq, Repr

/-- An entry of the repair map (R462, R468). -/
structure Repair where
  mem : Nat
  macroIx : Nat
  spare : Nat
  row : Nat
deriving DecidableEq, Repr

/-- One memory and its integrity state (chapter 17). -/
structure MemUnit where
  cells : Memory
  merge : List MergeEntry
  /-- Write-back queue of corrected words, oldest first (R454). -/
  writeBacks : List (Nat × Word)
  /-- Last 16 write-backs with their ticks, newest first (R461). -/
  history : List (Nat × Nat)
  /-- Rows being copied to a spare row, the first of them under way: macro, row, spare (R462). -/
  repairing : List (Nat × Nat × Nat)
  /-- Rows whose hard error has been reported unrepaired (R463): macro and row. -/
  unrepaired : List (Nat × Nat)
  clearing : Bool
  passes : Nat
  scrubAddr : Nat
  /-- Item 17 has left zero with matching check bits in every word that is not listed (R457). -/
  zeroed : Bool
  /-- Corrections in the summary period under way (R467). -/
  corrected : Nat
deriving DecidableEq, Repr

/-- An access the Master has put on the ring or waits to put there (R130). -/
structure RingAccess where
  /-- Number of the access; its TAG is the low 8 bits. -/
  tag : Nat
  slot : Nat
  record : List Word
  /-- Times sent because of a NAK (R132). -/
  sends : Nat
  /-- The request goes out, again or for the first time, in the next cycle. -/
  toSend : Bool
  /-- Cycle in which the request went out; none before it, and after a NAK. -/
  sentAt : Option Nat
  /-- The datagram and record it belongs to: source, port, SEQ, record number; none for an access of the command
  queue itself and for a part of a write to slot 64. -/
  owner : Option (BitVec 32 × Nat × Nat × Nat)
  /-- The write to slot 64 it is part of. -/
  bcast : Option Nat
deriving DecidableEq, Repr

/-- A write to slot 64 under way (R110): its number, the datagram and record it belongs to, the slots that accepted,
the refusals by slot, and the slots still to answer. -/
structure Bcast where
  id : Nat
  owner : Option (BitVec 32 × Nat × Nat × Nat)
  mask : BitVec 64
  refused : List (Nat × Nat)
  left : List Nat
deriving DecidableEq, Repr

/-- The Budar ring (chapter 04) and the slot claim (R488, R489). -/
structure Ring where
  cycle : Nat
  startTick : Nat
  map : BitVec 64
  mapSeq : Nat
  mapCycle : Nat
  /-- A map that waits for a cycle start, and the tick from which it may be carried (R135). -/
  newMap : Option (BitVec 64)
  newMapFrom : Nat
  /-- The map that waits is that of a lost port of the Master (R135). -/
  newMapPort : Bool
  /-- Copies that the Master has judged, newest first: B or A, and the cycle (R135). -/
  back : List (Bool × Nat)
  /-- Ticks at which the last wake run and the last copy began to leave at RNGA and RNGB (R58). -/
  runA : Option Nat
  runB : Option Nat
  outA : Option Nat
  outB : Option Nat
  ringState : Nat
  namedB : Bool
  wrapA : Bool
  wrapB : Bool
  seenCycle : Bool
  hop : Nat
  /-- The named copy of the cycle under way has been judged: intact, or a gap (R128). -/
  judged : Bool
  /-- Cycle of the last copy that passed with WRAPPED set. -/
  wrapSeen : Option Nat
  /-- Cycle in which a copy of another Master came last (R487). -/
  foreign : Option Nat
  /-- Slots PRESENT in the last copy A and copy B that returned intact (R135). -/
  presentA : BitVec 64
  presentB : BitVec 64
  /-- Cycle in which copy A and copy B last returned intact with WRAPPED clear (R138). -/
  cleanA : Option Nat
  cleanB : Option Nat
  status : Vector Word 64
  joined : BitVec 64
  bypassed : BitVec 64
  slotless : Bool
  unslotted : Nat
  unwrapAt : Option Nat
  /-- Kept reply (R131): TAG and segment. -/
  kept : Option (Nat × List Word)
  accesses : List RingAccess
  nextTag : Nat
  bcasts : List Bcast
  nextBcast : Nat
deriving DecidableEq, Repr

/-- A reply datagram kept for repetition (R146), or a datagram in progress (R145). -/
structure Datagram where
  src : BitVec 32
  port : Nat
  seq : Nat
  /-- Replies in record order; none while the record is under way. -/
  replies : List (Option (List Word))
  done : Bool
deriving DecidableEq, Repr

/-- The host port (R140 to R146). -/
structure HostPort where
  linkUp : Bool
  anComplete : Bool
  partnerFd : Bool
  partnerHd : Bool
  remoteFault : Bool
  datagrams : List Datagram
  /-- Block writes that a reply has opened at another slot, by slot and handle (R143: their segments carry words). -/
  opens : List (Nat × Nat)
  /-- HOST_IP and HOST_UDP_PORT in force until the reply to a write of them has left (R141): source, port and SEQ of the
  datagram that carried it, address, UDP port. -/
  oldAddr : Option (BitVec 32 × Nat × Nat × BitVec 32 × Nat)
deriving DecidableEq, Repr

/-- A serial lane (chapter 06). -/
structure Lane where
  lock : Bool
  block : Bool
  signal : Bool
  prbsLock : Bool
  losses : Nat
  bufFill : Nat
  ctle : Nat
  /-- The lane has had lock since it was enabled or released (R177). -/
  trained : Bool
  /-- An injection waits for the next character (R193). -/
  injecting : Bool
  /-- Bond position of the last DSK (R185). -/
  pos : Nat
  /-- Stride of the last header this lane brought intact (R181). -/
  stride : Nat
deriving DecidableEq, Repr

/-- DSKs being gathered (R186): their N and g, the lanes whose DSK has come, is awaited or has failed, and whether the
bond re-forms with it (R219). -/
structure Gather where
  n : Nat
  g : Nat
  come : BitVec 5
  want : BitVec 5
  failed : BitVec 5
  reform : Bool
deriving DecidableEq, Repr

/-- The bond of the raster lanes (R185 to R187, R219, R220, R532). -/
structure Bond where
  formed : Bool
  /-- Dissolved under R532: it forms when any selected lane gains lock. -/
  loose : Bool
  /-- Lanes over which the page is striped. -/
  n : Nat
  active : BitVec 5
  lost : BitVec 5
  /-- Lanes named by the last BOND message, from the next page start. -/
  announced : Option (BitVec 5)
  /-- The page open, or the last one, when the next bond was announced (R219). -/
  lossPage : Option Nat
  /-- Lanes offered again that the feeder may decline (R220). -/
  offer : Bool
  /-- DSK gathering under way (R186), and header copies that wait for its end. -/
  dsk : Option Gather
  held : List (List HdrCopy)
  /-- The DSKs of a page start have come: the lanes over which the bond re-forms if the header carries PAGE_START for a
  later page, and those of them whose DSK failed (R219). -/
  ready : Option (BitVec 5 × BitVec 5)
deriving DecidableEq, Repr

/-- A line group in the Raster Input Buffer (R200, R218). -/
structure LineGroup where
  page : Nat
  lg : Nat
  columns : Nat
  ratio : Nat
  tmode : Bool
  isEnd : Bool
  charge : Nat
  /-- Lanes it is striped over, and the bond positions whose blocks are taken (R202). -/
  n : Nat
  okPos : BitVec 5
  /-- As many table frames came as TBL_CNT announces (R206). -/
  tablesOk : Bool
  /-- Blocks received, none where a block was not received (R184). -/
  blocks : List (Option (List Word))
  complete : Bool
  checked : Bool
  late : Bool
  /-- Decoded rows of samples, 4 of them (R237). -/
  rows : Option (List (List Nat))
deriving DecidableEq, Repr

/-- The Raster Front End (chapter 07). -/
structure Rfe where
  /-- Open input page: page, COLUMNS, last accepted LG. -/
  inPage : Option (Nat × Nat × Nat)
  lastPage : Option Nat
  /-- The next page is the first since the bond formed (R203). -/
  first : Bool
  /-- A header has been accepted since the bond formed (R217). -/
  gotHeader : Bool
  ratio : Nat
  tmode : Bool
  lg : Nat
  page : Nat
  c : Nat
  r : Nat
  limit : Nat
  /-- Blocks of a line group of the latest accepted header (R200). -/
  nblocks : Nat
  /-- Table frames received since the last header, and their words (R206). -/
  tables : Nat
  tableWords : Nat
  /-- Frames among them that were taken: object, OFFSET, and the page their COMMIT bound. -/
  tableObjs : List (Nat × Nat × Option Nat)
  /-- Words released that C does not hold yet (R211, R342). -/
  ahead : Nat
  groups : List LineGroup
  /-- Pages abandoned under R342 whose headers may still come. -/
  abandoned : List Nat
deriving DecidableEq, Repr

/-- A page in progress (R89, R303). -/
structure Page where
  num : Nat
  origin : Int
  columns : Nat
  /-- LG of the last line group, once the input page has closed. -/
  lastLg : Option Nat
  /-- LG after the latest accepted one, and the LGs below it that are not complete (R331). -/
  nextLg : Nat
  missing : List Nat
  /-- The fabric has begun to screen the page. -/
  screened : Bool
  heads : BitVec 32
deriving DecidableEq, Repr

/-- The Block Decoder's dynamic tables (R233 to R235). -/
structure Codec where
  level : Nat
  n0 : Nat
  n1 : Nat
  n2 : Nat
  n3 : Nat
  /-- OUT_OF_STEP. -/
  oos : Bool
  /-- OUT_OF_STEP applies: an epoch boundary has passed since it was set (R235). -/
  oosApplies : Bool
  /-- The present epoch has been counted in OOS_EPOCHS. -/
  counted : Bool
  epoch : Nat
  /-- Page and LG of the last line group taken. -/
  lastLg : Option (Nat × Nat)
deriving DecidableEq, Repr

/-- The codes of one page line: for each head its 288 packed words (R253, R350). -/
structure Screened where
  page : Nat
  line : Nat
  codes : List (List Word)
deriving DecidableEq, Repr

/-- An edge frame as parsed (R268): chain, its end edge or start edge, kind, page, line, VOID, terms. -/
structure EdgeFrame where
  chain : Nat
  backward : Bool
  comp : Bool
  page : Nat
  line : Nat
  isVoid : Bool
  xstart : Int
  terms : List Int
deriving DecidableEq, Repr

/-- An edge frame sent, kept for EDGE_RETRY (R269): its cascade lane and words. -/
structure EdgeOut where
  chain : Nat
  backward : Bool
  comp : Bool
  page : Nat
  line : Nat
  words : List Word
deriving DecidableEq, Repr

/-- The Screening Fabric (chapter 09). Edges are numbered as in 07.012 EDGE_STATE: 2i the start edge of chain i,
2i + 1 its end edge. -/
structure Fabric where
  /-- Down terms carried into the next line, by chain position, and the page and line they are for (R265). -/
  down : Vector (List Int) 4
  downFor : Option (Nat × Nat)
  /-- The line before belongs to a pre-screened line group (R265). -/
  preset : Bool
  /-- The line group under way: its page and its next page line (R311). -/
  work : Option (Nat × Nat)
  /-- Tiles in service for the line group under way (R275). -/
  tiles : BitVec 27
  /-- EDGE_COMP frames of the next line have been sent (R269). -/
  compSent : Bool
  /-- Codes in the Cell queues (R311). -/
  cells : List Screened
  /-- Edge frames received and not used yet, and edge frames sent (R269). -/
  edgeIn : List EdgeFrame
  edgeOut : List EdgeOut
  /-- Edges forced open (R272). -/
  forced : BitVec 8
  /-- Edges that no cascade lane served at the last page start (R491 cause 4). -/
  unserved : BitVec 8
  /-- Cascade lanes with an open edge (R491). -/
  openLanes : BitVec 4
  tilesDown : BitVec 27
  loadFails : BitVec 27
  /-- Edge waits reported: page, LG, edge (R271), and the page line whose wait has been counted. -/
  waited : List (Nat × Nat × Nat)
  waitLine : Option (Nat × Nat)
  /-- Head and page of saturation events raised (R292). -/
  saturated : List (Nat × Nat)
deriving DecidableEq, Repr

/-- A Fox proposal (R286). -/
structure Proposal where
  nozzle : Nat
  state : Nat
  spread : Nat
deriving DecidableEq, Repr

/-- Nozzle Table commits and proposals (chapter 10). -/
structure Nt where
  pending : Option Nat
  lastPage : Nat
  seeding : Bool
  /-- Ranges of shadow words that are host-dirty: first word, and the word after the last (R281). -/
  hostDirty : List (Nat × Nat)
  generation : Nat
  proposals : List Proposal
  /-- 0 none, 1 waiting, 2 approved, 3 applied or discarded. -/
  stage : Nat
  approvedAt : Nat
  /-- The load from flash is under way (R61, R64). -/
  loading : Bool
deriving DecidableEq, Repr

/-- A head-line in a transmit queue or the LDS: page, page line, packed codes. -/
structure HeadLine where
  page : Nat
  line : Nat
  codes : List Word
deriving DecidableEq, Repr

/-- A committed head-line (R309): fire time and occupancy end in 1/64 tick, LSEQ, frame end. -/
structure Committed where
  page : Nat
  line : Nat
  lseq : Nat
  fire : Nat
  occEnd : Nat
  frameEnd : Nat
  bank : Bool
  /-- Place among the line starts of the head. -/
  start : Nat
deriving DecidableEq, Repr

/-- The book of a head (R321). -/
structure Book where
  lineStarts : Nat
  fired : Nat
  skipped : Nat
  inhibited : Nat
  blanked : Nat
  ldsWritten : Nat
  ldsDiscarded : Nat
  ldsResident : Nat
deriving DecidableEq, Repr

/-- One head in the Line Scheduler (chapters 11 and 12). -/
structure HeadUnit where
  /-- Page and line of the next head-line without a line start. -/
  next : Option (Nat × Nat)
  queue : List HeadLine
  /-- Head-lines in the LDS: page, line, number q since arming (R313). -/
  lds : List (Nat × Nat × Nat)
  ldsCount : Nat
  committed : List Committed
  /-- Fire time and occupancy end of the last line fired (R335). -/
  lastFire : Option (Nat × Nat)
  /-- Fire times of lines n - 1 and n - 2 of the next line n, none where the line was not committed (R26). -/
  fireOne : Option Nat
  fireTwo : Option Nat
  /-- Line starts so far, and outcomes waiting for their fire time: page, line, place among the line starts (R91). -/
  starts : Nat
  passed : List (Nat × Nat × Nat)
  /-- Head-lines of this head alone that are late under R28. -/
  lateLines : List (Nat × Nat)
  inhibited : Bool
  cooled : Bool
  /-- Page and number of events raised once per page. -/
  onceDiscard : Option Nat
  onceSlip : Option Nat
  onceSkip : Option Nat
  /-- EV 0B.004 has been raised for the inhibition in force (R338). -/
  inhibitTold : Bool
  noSkip : Nat
  book : Book
  /-- First unprinted page line u_h while a halt is stopped or resuming (R329), and its page. -/
  resume : Option (Nat × Nat)
deriving DecidableEq, Repr

/-- The halt (R327 to R334). -/
structure Halt where
  phase : Nat
  page : Nat
  line : Nat
  dataReady : Bool
  behind : Bool
  haltReq : Bool
deriving DecidableEq, Repr

/-- The Line Scheduler (chapters 11 and 12). -/
structure Fire where
  /-- Latched positions and ticks, newest first (R305). -/
  latches : List (Int × Nat)
  armedNow : Bool
  firstPage : Bool
  halt : Halt
  /-- The next page line to leave the Cell queues (R312). -/
  handNext : Option (Nat × Nat)
  overspeed : Bool
  heads : Vector HeadUnit 32
  /-- Page lines late under R325, and line groups whose EV 05.002 has been raised (R326). -/
  late : List (Nat × Nat)
  lateEvents : List (Nat × Nat)
  /-- Page lines that are not screened (R266). -/
  unscreened : List (Nat × Nat)
  /-- A line group some of whose lines were late at hand-over: page, first such line, and how many so far (R326). -/
  lateNow : Option (Nat × Nat × Nat)
deriving DecidableEq, Repr

/-- Head link states (R369). -/
inductive LinkState where
  | off
  | training
  | timing
  | ready
  | down
deriving DecidableEq, Repr

/-- What a bank of a head holds (R361, R362). -/
inductive BankHolds where
  | nothing
  | current
  | commit (page : Nat)
deriving DecidableEq, Repr

/-- A frame that waits for its place on a head lane (R349): kind, words, and for a BANK frame the bank and what it will
hold. -/
structure HeadFrame where
  kind : Nat
  words : List Word
  bank : Option (Bool × BankHolds)
deriving DecidableEq, Repr

/-- A head link (chapter 13). -/
structure Link where
  state : LinkState
  cause : Nat
  bankCur : Bool
  bank0Valid : Bool
  bank1Valid : Bool
  idle : Bool
  refLock : Bool
  synced : Bool
  firedSeq : Nat
  downs : Nat
  /-- Delay estimate d in 1/64 tick (R367). -/
  delay : Int
  nextMark : Nat
  /-- Markers sent without an echo yet: m and tx. -/
  marks : List (Nat × Nat)
  /-- Last markers in TIMING: m, rtt, dn, newest first. -/
  rtts : List (Nat × Int × Int)
  bank0 : BankHolds
  bank1 : BankHolds
  lseq : Nat
  /-- End of the last frame on the lane in 1/64 tick, and frames of lower priority that wait (R349). -/
  wireEnd : Nat
  waiting : List HeadFrame
  /-- An echo has come since the link went down (R370 cause 3). -/
  echoed : Bool
  /-- Tick of the last temperature report (R318). -/
  tempTick : Nat
  warnArmed : Bool
  errPage : Option Nat
  crcTick : Option Nat
  /-- The access that GO started: a write or a read, and its address (R375). -/
  regWrite : Bool
  regAddr : Nat
  /-- The read of BRIDGE_ID that an entry to READY sent has no reply yet (R374). -/
  idRead : Bool
deriving DecidableEq, Repr

/-- An encoder channel (R378 to R385). -/
structure EncUnit where
  a : Bool
  b : Bool
  count : Int
  newest : Int
  dir : Int
  period : Nat
  /-- An edge has been counted since the encoder was enabled. -/
  edges : Bool
  /-- 0 OFF, 1 OK, 2 FAILED, 3 UNREFERENCED (R380). -/
  state : Nat
  wires : BitVec 3
  overspeed : Bool
  indexRef : Option Int
  pRef : Int
  fRef : Int
  scale : Nat
  cfg : Word
  /-- Corrections completed, and the one under way: δ and the uncorrected position at its index (R385). -/
  corrDone : Int
  corrNow : Option (Int × Int)
deriving DecidableEq, Repr

/-- The Web Position Unit (R376 to R388). -/
structure Pos where
  /-- 0 OK, 1 riding through, 2 unreferenced. -/
  srcState : Nat
  source : Nat
  held : Int
  last : Int
  backward : Bool
  preset : Option Int
  /-- Page ends left before a ride-through reaches its limit (R387). -/
  rideLimit : Nat
  /-- Tick at which the last divided ENCOUT step leaves (R393). -/
  encout : Nat
deriving DecidableEq, Repr

/-- Hare (R394): x and v in 2^-32 line, tick of the cycle's start. -/
structure Hare where
  x : Int
  xPrev : Int
  v : Int
  run : Bool
  waitTrig : Bool
  startTick : Nat
deriving DecidableEq, Repr

/-- An auxiliary axis (R395 to R399): p, v and the target in 2^-16 count. -/
structure AxisUnit where
  p : Int
  v : Nat
  target : Int
  /-- A DECEL that the next cycle takes, and one that the next move takes (R397). -/
  taken : Option Nat
  deferred : Option Nat
  inPos : Bool
  driveFault : Bool
deriving DecidableEq, Repr

/-- The AUX port (R400, R401). -/
structure Aux where
  /-- Cycle number. -/
  seq : Nat
  /-- Set-point frames without a reply, oldest first: SEQ and start tick. -/
  waiting : List (Nat × Nat)
  badRun : Nat
  goodRun : Nat
  everGood : Bool
deriving DecidableEq, Repr

/-- A compare unit (R389 to R392). -/
structure CmpUnit where
  armedBack : Bool
  behind : Bool
  queue : List (Int × Nat)
deriving DecidableEq, Repr

/-- A camera line (R407): its number in the frame, GEN, whether it is a transition line (R422), and its samples as
12-bit values (R417 step 1). -/
structure CamLine where
  j : Nat
  gen : Nat
  trans : Bool
  samples : List Nat
deriving DecidableEq, Repr

/-- A camera frame under way (R411, R412). -/
structure CamFrame where
  num : Nat
  nopage : Bool
  /-- V, and the position of frame line 0 (R411). -/
  start : Int
  pos0 : Int
  /-- Number and position of the last line taken. -/
  lastJ : Option Nat
  highest : Option Int
  firstGen : Nat
  /-- Output lines counted and transition lines excluded (R422). -/
  counted : Nat
  trans : Nat
  t0 : Nat
  /-- Stripes dropped: for want of a buffer, or (true) for a line lost with the lane (R415, R423). -/
  dropped : List (Nat × Bool)
  overrun : Bool
  /-- The lane lost lock since the last line (R423). -/
  gap : Bool
  /-- The last camera lines, from which output lines are formed. -/
  recent : List CamLine
  /-- Sum of out_p, pixels and samples at 4,095 for planes 0 to 3 (R422). -/
  sums : List (Nat × Nat × Nat)
deriving DecidableEq, Repr

/-- A stripe buffer (R414 to R416). -/
structure Stripe where
  input : Nat
  frame : Nat
  nopage : Bool
  index : Nat
  lines : List CamLine
  /-- Tick at which it became ready. -/
  ready : Option Nat
  /-- Output lines, and whether it is its frame's last stripe. -/
  count : Nat
  last : Bool
  isShort : Bool
  isLong : Bool
deriving DecidableEq, Repr

/-- A camera input (chapter 15). -/
structure CamInput where
  /-- SYNC_SEQ of the last SYNC sent here, and of the last one that a STATUS reported (R408). -/
  syncSent : Nat
  syncSeen : Nat
  synced : Bool
  kSync : Int
  sensorFault : Bool
  gen : Nat
  sentGen : Nat
  latency : Nat
  transLeft : Nat
  frame : Option CamFrame
  /-- A commit of exposure values: output lines since, EXP_SET, GAIN_RGB, GAIN_CIR (R421). -/
  commit : Option (Nat × Word × Word × Word)
deriving DecidableEq, Repr

/-- An evidence slot (R424, R425): input, page, frame line, first page line and page lines of its footprint, the sum of
L[code] of each nozzle so far, and the heads excluded. -/
structure EvidenceSlot where
  input : Nat
  page : Nat
  j : Nat
  line : Nat
  lines : Nat
  sums : List Nat
  excluded : BitVec 32
deriving DecidableEq, Repr

/-- Ink values A of a camera frame's output line that registration may use (R426). -/
structure VisionLine where
  input : Nat
  frame : Nat
  j : Nat
  trans : Bool
  ink : List Nat
deriving DecidableEq, Repr

/-- What Fox holds for a nozzle: S_re, S_ee, frames since cleared, pending verdict 0 none, 1 good, 2 weak, 3 missing,
and the input of its evidence (R427 to R429). -/
structure FoxSum where
  re : Int
  ee : Nat
  frames : Nat
  pending : Nat
  input : Nat
deriving DecidableEq, Repr

/-- Sums of a pattern page for a head on an input (R445): Σ m_A, Σ m, and the registration of its last evidence line. -/
structure PatternSum where
  input : Nat
  head : Nat
  mA : Int
  m : Int
  dy : Int
  rhoLess : Int
  rho : Int
  rhoMore : Int
deriving DecidableEq, Repr

/-- Fox (R424 to R430). -/
structure Fox where
  slots : List EvidenceSlot
  vision : List VisionLine
  sums : List (Nat × FoxSum)
  regOk : BitVec 4
  /-- Inputs that lost registration (R427). -/
  regLost : BitVec 4
  discards : List Nat
  passes : List Nat
  dx : List Int
  /-- 0F.021 VERDICTS: frame, then verdict, nozzle and φ. -/
  verdictFrame : Nat
  verdicts : List (Nat × Nat × Int)
  /-- Proposals confirmed that no generation holds yet, with φ (R430). -/
  waiting : List (Proposal × Int)
  pattern : List PatternSum
deriving DecidableEq, Repr

/-- Inspection (chapter 15): inputs, stripe buffers, display queue, next raster lane for a coding frame. -/
structure Inspect where
  inputs : Vector CamInput 4
  stripes : List Stripe
  /-- Display records: SEQ and words. -/
  display : List (Nat × List Word)
  dispSeq : Nat
  codeLane : Nat
  fox : Fox
deriving DecidableEq, Repr

/-- A calibration or self-test request (R438). -/
structure CalReq where
  item : Nat
  target : Nat
  /-- MAX_WAIT in ms, and the ticks at which it was queued and at which it is dropped. -/
  maxWait : Nat
  since : Nat
  deadline : Nat
  /-- EV 10.004 has been raised. -/
  deferred : Bool
  /-- The function that uses the memory was up when a memory march started (R441). -/
  wasUp : Bool
deriving DecidableEq, Repr

/-- Calibration and self-test (chapter 16). -/
structure Cal where
  queue : List CalReq
  running : List CalReq
  /-- Values accepted in this Thaw or loaded from flash: groups and channels (R443). -/
  groups : BitVec 4
  channels : BitVec 32
  /-- Bring-up runs rejected once already, and those that are over: item and target (R443, R482). -/
  retried : List (Nat × Nat)
  broughtUp : List (Nat × Nat)
  /-- Items rejected, whose automatic trigger waits for RETRY_DELAY (R437). -/
  backoff : List (Nat × Nat)
  /-- Previous pattern result by head: head, page, K'; and the new trims that wait (R446, R447): head, trim, tick of the second frame's close, and
  the page at which it takes effect. -/
  patterns : List (Nat × Nat × Nat)
  trims : List (Nat × Nat × Nat × Option Nat)
  /-- Fire-delay taps in force at each head port, and those accepted that its next committed line takes (R436). -/
  delayNow : Vector Nat 32
  delayNew : Vector (Option Nat) 32
  /-- ADC values in force for each channel, in the layout of 10.100, and those accepted that the next page takes (R436). -/
  adcNow : Vector Word 32
  adcNew : Vector (Option Word) 32
deriving DecidableEq, Repr

/-- Head power channel states (R471). -/
inductive ChState where
  | off
  | check
  | ramp
  | on
  | tripped
  | latched
  | held
deriving DecidableEq, Repr

/-- A head power channel (chapter 18). -/
structure Chan where
  state : ChState
  cause : Nat
  window : Bool
  openP : Bool
  openN : Bool
  tripCount : Nat
  /-- Ticks of the trips, newest first (R476). -/
  trips : List Nat
  outOfWindow : Nat
  /-- Tick of the newest V sample (R318). -/
  vTick : Option Nat
deriving DecidableEq, Repr

/-- Head power (chapter 18). -/
structure Hpc where
  chans : Vector Chan 32
  /-- Channels in the order in which they reached ON (R473). -/
  order : List Nat
  /-- Channels requested on, and retries, that wait for their stagger slot (R473). -/
  waiting : List Nat
  lastCheck : Option Nat
  adcStart : Option Nat
  /-- Item 19 has run since the entry to Thaw (R482). -/
  proved : Bool
  /-- The link was lost, and good command frames since then (R480). -/
  lost : Bool
  goodFrames : Nat
deriving DecidableEq, Repr

/-- A crossing unit (R32 to R40): its status, and the counter that crosses at it. -/
structure Xing where
  peer : Bool
  discont : Bool
  lastSide : Nat
  episodes : Nat
  /-- Side held in reset now: 0 none, 1 sending, 2 receiving, 3 both. -/
  side : Nat
  /-- Largest difference or highest fill since DISCONT was last cleared. -/
  peak : Nat
  /-- The sending side's own total, its running count, and the count it has published in Gray code. -/
  total : Int
  count : BitVec 12
  published : BitVec 12
  /-- Tick of an update that awaits its acknowledge (R33). -/
  sentAt : Option Nat
  /-- The last count the receiving side took, and its own total. -/
  taken : BitVec 12
  value : Int
  /-- The next update carries a discontinuity flag; the last one taken carried it (R39). -/
  flagNext : Bool
  flagged : Bool
deriving DecidableEq, Repr

/-- What leaves the device at its pins. -/
inductive Sent where
  /-- Reply to an access: abort code (0 none) and data words (R111, R144). -/
  | reply (abort : Nat) (data : List Word)
  /-- Words of a host datagram (R142), and its UDP checksum (R141). -/
  | datagram (dst : BitVec 32) (port : Nat) (words : List Word) (check : Nat)
  | arp (dst : BitVec 32) (mac : BitVec 48)
  | echo (dst : BitVec 32) (payload : List Byte)
  /-- A cycle-frame copy out of a ring port, ended with EOF or EOF_BAD (R122). -/
  | ringCopy (port : RingPort) (words : List Word) (eofOk : Bool)
  /-- The copy that is leaving a ring port is cut short, and ended with EOF_BAD (R58). -/
  | copyCut (port : RingPort)
  | wakeRun (port : RingPort)
  /-- A time message (R162): messageType, sequence number, domain, UDP port, group address, correctionField in 2^-16 ns, and
  the local times it carries or leaves at, in ps. -/
  | ptp (kind : Nat) (seq : Nat) (domain : Nat) (port : Nat) (group : BitVec 32) (correction : Int) (stamps : List Int)
  /-- Credit frame and back-channel message (R213, R221). -/
  | credit (words : List Word)
  | backChannel (words : List Word)
  | edge (lane : Nat) (kind : Nat) (words : List Word)
  /-- Head lane frames (R348): kind D1 to D4. -/
  | headFrame (head : Nat) (kind : Nat) (words : List Word)
  | tmark (head : Nat) (m : Nat)
  /-- A pulse on TRIG0 to TRIG3: pin, active low, width in ticks, instant in 1/64 tick (R166, R390). -/
  | pulse (pin : Nat) (low : Bool) (width : Nat) (at64 : Nat)
  | haltReq (level : Bool)
  | overspeed (level : Bool)
  /-- Net ENCOUT steps of the divider (R393). -/
  | encout (steps : Int)
  /-- Levels repeated on ENCOUT (R393). -/
  | encoutLevels (a b z : Bool)
  | auxFrame (bytes : List Byte)
  /-- Camera control frame (R407). -/
  | camera (input : Nat) (words : List Word)
  /-- A camera frame repeated out of CAMn as it came in (R405): kind D1 LINE or D3 STATUS, and how it ended. -/
  | cameraRepeat (input : Nat) (kind : Nat) (words : List Word) (eofOk : Bool)
  /-- A coding stripe frame on a raster lane's transmit direction (R420). -/
  | coding (lane : Nat) (words : List Word)
  /-- Command frame to the power die: requested-on mask (R480). -/
  | d2d (mask : Word)
  /-- Characters inverted by an injection (R193): lane, bits. -/
  | injected (lane : Nat) (bits : Nat)
deriving DecidableEq, Repr

/-- The state of the device. -/
structure State where
  clock : Clock
  ptp : Ptp
  trigs : Vector TrigUnit 16
  pwr : Pwr
  flash : Flash
  dict : Dict
  ev : Events
  mem : Vector MemUnit 8
  repairs : List Repair
  ring : Ring
  host : HostPort
  lanes : Vector Lane 48
  bond : Bond
  rfe : Rfe
  pages : List Page
  codec : Codec
  fabric : Fabric
  nt : Nt
  fire : Fire
  links : Vector Link 32
  encs : Vector EncUnit 2
  pos : Pos
  hare : Hare
  axes : Vector AxisUnit 2
  aux : Aux
  cmps : Vector CmpUnit 8
  insp : Inspect
  cal : Cal
  hpc : Hpc
  xing : Vector Xing 16
  sent : List Sent
  /-- The model's own counter of free values. -/
  free : Nat
  /-- The commands that wait, first in first out. -/
  pending : List Instr
deriving DecidableEq, Repr

namespace State

/-- The flash region with no valid copy. -/
def blankRegion : FlashRegion :=
  { copy0 := { valid := false, seq := 0, image := [] }, copy1 := { valid := false, seq := 0, image := [] },
    inUse := none }

/-- A memory with nothing listed. -/
def blankMem : MemUnit :=
  { cells := [], merge := [], writeBacks := [], history := [], repairing := [], unrepaired := [],
    clearing := false, passes := 0, scrubAddr := 0, zeroed := false, corrected := 0 }

/-- An encoder as enabled at reset: OK, count and position 0 (R380). -/
def resetEnc : EncUnit :=
  { a := false, b := false, count := 0, newest := 0, dir := 1, period := 0, edges := false, state := 1, wires := 0,
    overspeed := false, indexRef := none, pRef := 0, fRef := 0, scale := 2 ^ 32, cfg := 0x840000000,
    corrDone := 0, corrNow := none }

/-- A head of the Line Scheduler at reset. -/
def resetHead : HeadUnit :=
  { next := none, queue := [], lds := [], ldsCount := 0, committed := [], lastFire := none, fireOne := none, fireTwo := none,
    starts := 0, passed := [], lateLines := [], inhibited := false, cooled := false, onceDiscard := none, onceSlip := none,
    onceSkip := none, inhibitTold := false, noSkip := 0,
    book := { lineStarts := 0, fired := 0, skipped := 0, inhibited := 0, blanked := 0, ldsWritten := 0,
              ldsDiscarded := 0, ldsResident := 0 },
    resume := none }

/-- A head link at reset: OFF (R369). -/
def resetLink : Link :=
  { state := .off, cause := 0, bankCur := false, bank0Valid := false, bank1Valid := false, idle := false,
    refLock := false, synced := false, firedSeq := 0, downs := 0, delay := 0, nextMark := 0, marks := [],
    rtts := [], bank0 := .nothing, bank1 := .nothing, lseq := 0, wireEnd := 0, waiting := [], echoed := false, tempTick := 0, warnArmed := true,
    errPage := none, crcTick := none, regWrite := false, regAddr := 0, idRead := false }

/-- A lane at reset (R196). -/
def resetLane : Lane :=
  { lock := false, block := false, signal := false, prbsLock := false, losses := 0, bufFill := 0, ctle := 0,
    trained := false, injecting := false, pos := 0, stride := 0 }

/-- A camera input at reset. -/
def resetCam : CamInput :=
  { syncSent := 0, syncSeen := 0, synced := false, kSync := 0, sensorFault := false, gen := 0, sentGen := 0,
    latency := 0, transLeft := 0, frame := none, commit := none }

/-- A channel at reset: OFF (R471). -/
def resetChan : Chan :=
  { state := .off, cause := 0, window := false, openP := false, openN := false, tripCount := 0, trips := [],
    outOfWindow := 0, vTick := none }

/-- A trigger unit at reset (R170). -/
def resetTrig : TrigUnit := { nextFire := none, fired := 0, passed := false, lastTick := none }

/-- A crossing unit at reset (R37; notes/assumptions/134.md). -/
def resetXing : Xing :=
  { peer := false, discont := false, lastSide := 0, episodes := 0, side := 0, peak := 0, total := 0, count := 0
    published := 0, sentAt := none, taken := 0, value := 0, flagNext := false, flagged := false }

/-- The device right after power-on release: in Thaw, every object at its default, nothing ready but the AON
domain, memories cleared (R53, R71, R79, R529). -/
def reset : State :=
  { clock := { tick := 0, acc := 0, iAcc := 0, meanSum := 0, meanCount := 0, goodMeans := 0, resync := false,
               held := none, slewing := false, predicted := 0, rerouted := false, thetaA := none,
               sampled := false }
    ptp := { master := none, parent := 0, sync := none, syncDiff := 0, haveSync := false, reqSeq := 0, delayTx := none,
             pdelayTx := none, pdelayResp := none }
    trigs := Vector.replicate 16 resetTrig
    pwr := { season := .thaw, inReset := false, powerOn := false, resetLow := false, domains := false, bypassOpen := false, up := 1,
             ready := 1, railsOut := 0, vdrvLow := false, codeError := false,
             autumn := { step := 0, toWinter := false, firmware := false, capping := [], again := false },
             wakeLatched := none, wakeRunAt := none, restored := false, reqWritten := false, reqSaved := 2, romOnly := false,
             kept := false, strap := 0, grade := .g16 }
    flash := { patch := blankRegion, persist := blankRegion, tables := blankRegion, saving := none }
    dict := { active := [], shadow := [], dirty := [], badShadow := [], badObj := [],
              commits := Vector.replicate 4 none, transfers := Vector.replicate 4 none, inband := none,
              begunInput := none, begunScreen := none, begunFire := none, begunLast := none }
    ev := { queue := [], nextSeq := 0, raised := [], aon := [], overflowed := false }
    mem := Vector.replicate 8 blankMem
    repairs := []
    ring := { cycle := 0, startTick := 0, map := 0, mapSeq := 0, mapCycle := 0, newMap := none, newMapFrom := 0, newMapPort := false, back := [], runA := none, runB := none, outA := none, outB := none
              ringState := 0,
              namedB := false, wrapA := false, wrapB := false, seenCycle := false, hop := 0, judged := false,
              wrapSeen := none, foreign := none, presentA := 0, presentB := 0, cleanA := none, cleanB := none,
              status := Vector.replicate 64 0, joined := 0, bypassed := 0, slotless := false, unslotted := 0,
              unwrapAt := none, kept := none, accesses := [], nextTag := 0, bcasts := [], nextBcast := 0 }
    host := { linkUp := false, anComplete := false, partnerFd := false, partnerHd := false, remoteFault := false,
              datagrams := [], opens := [], oldAddr := none }
    lanes := Vector.replicate 48 resetLane
    bond := { formed := false, loose := false, n := 0, active := 0, lost := 0, announced := none, lossPage := none, offer := false,
              dsk := none, held := [], ready := none }
    rfe := { inPage := none, lastPage := none, first := true, gotHeader := false, ratio := 0, tmode := false,
             lg := 0, page := 0, c := 0, r := 0, limit := 0, nblocks := 0, tables := 0, tableWords := 0, tableObjs := [], ahead := 0,
             groups := [], abandoned := [] }
    pages := []
    codec := { level := 4, n0 := 0, n1 := 0, n2 := 0, n3 := 0, oos := false, oosApplies := false, counted := false, epoch := 0,
               lastLg := none }
    fabric := { down := Vector.replicate 4 [], downFor := none, preset := false, work := none, tiles := 0, compSent := false, cells := [],
                edgeIn := [], edgeOut := [], forced := 0, unserved := 0, openLanes := 0, tilesDown := 0,
                loadFails := 0, waited := [], waitLine := none, saturated := [] }
    nt := { pending := none, lastPage := 0, seeding := false, hostDirty := [], generation := 0, proposals := [],
            stage := 0, approvedAt := 0, loading := true }
    fire := { latches := [], armedNow := false, firstPage := true,
              halt := { phase := 0, page := 0, line := 0, dataReady := false, behind := false, haltReq := false },
              handNext := none, overspeed := false, heads := Vector.replicate 32 resetHead, late := [], lateEvents := [], unscreened := [], lateNow := none }
    links := Vector.replicate 32 resetLink
    encs := Vector.replicate 2 resetEnc
    pos := { srcState := 0, source := 0, held := 0, last := 0, backward := false, preset := none, rideLimit := 0,
             encout := 0 }
    hare := { x := 0, xPrev := 0, v := 0, run := false, waitTrig := false, startTick := 0 }
    axes := Vector.replicate 2 { p := 0, v := 0, target := 0, taken := none, deferred := none, inPos := false, driveFault := false }
    aux := { seq := 0, waiting := [], badRun := 0, goodRun := 0, everGood := false }
    cmps := Vector.replicate 8 { armedBack := false, behind := false, queue := [] }
    insp := { inputs := Vector.replicate 4 resetCam, stripes := [], display := [], dispSeq := 0, codeLane := 0
              fox := { slots := [], vision := [], sums := [], regOk := 0, regLost := 0, discards := [0, 0, 0, 0],
                       passes := [0, 0, 0, 0], dx := [0, 0, 0, 0], verdictFrame := 0, verdicts := [], waiting := [],
                       pattern := [] } }
    cal := { queue := [], running := [], groups := 0, channels := 0, retried := [], broughtUp := [], backoff := [], patterns := [],
             trims := [], delayNow := Vector.replicate 32 0, delayNew := Vector.replicate 32 none
             adcNow := Vector.replicate 32 0, adcNew := Vector.replicate 32 none }
    hpc := { chans := Vector.replicate 32 resetChan, order := [], waiting := [], lastCheck := none,
             adcStart := none, proved := false, lost := false, goodFrames := 0 }
    xing := Vector.replicate 16 resetXing
    sent := []
    free := 0
    pending := [] }

end State

end Sys2Proof.Machine
end

