-- ==== Sys2Proof/Machine/Store.lean ====
section
/-! DEFINITION. Sorted lists of keys: the values of objects (`Store`) and the cells of a memory (`Memory`), each in
one canonical form: keys strictly rising, and no entry equal to what an unlisted key reads as. -/

namespace Sys2Proof.Machine

open Sys2Proof

/-- The value listed under a key. -/
def lookupKey {α : Type} : List (Nat × α) → Nat → Option α
  | [], _ => none
  | (k, v) :: rest, a => if k = a then some v else lookupKey rest a

/-- The list without a key. -/
def eraseKey {α : Type} : List (Nat × α) → Nat → List (Nat × α)
  | [], _ => []
  | (k, v) :: rest, a => if k = a then eraseKey rest a else (k, v) :: eraseKey rest a

/-- The list with a key set, in order of keys. -/
def insertKey {α : Type} : List (Nat × α) → Nat → α → List (Nat × α)
  | [], a, b => [(a, b)]
  | (k, v) :: rest, a, b =>
    if a < k then (a, b) :: (k, v) :: rest
    else if a = k then (a, b) :: rest
    else (k, v) :: insertKey rest a b

/-- The keys rise strictly, each above `low` where `low` is given. -/
def keysRise {α : Type} : Option Nat → List (Nat × α) → Bool
  | _, [] => true
  | none, (k, _) :: rest => keysRise (some k) rest
  | some low, (k, _) :: rest => decide (low < k) && keysRise (some k) rest

/-- What a word of memory m that nothing has written holds: unwritten (R451), except in memories 2, 3 and 7, which
are set to their defaults after each clear (R441, R458). -/
def blankWord (m : Nat) : Stored :=
  if m = 2 then { data := 0x100007000, upset := 0, valid := 3 }
  else if m = 3 then { data := 0, upset := 0, valid := 3 }
  else if m = 7 then { data := 0x000100000, upset := 0, valid := 3 }
  else { data := 0, upset := 0, valid := 0 }

/-- The stored word at an address of memory m. -/
def memRead (m : Nat) (mem : Memory) (a : Nat) : Stored := (lookupKey mem a).getD (blankWord m)

/-- Memory m with a stored word set, kept canonical. -/
def memWrite (m : Nat) (mem : Memory) (a : Nat) (v : Stored) : Memory :=
  if v = blankWord m then eraseKey mem a else insertKey mem a v

/-- The canonical form of memory m: addresses strictly rising, no entry equal to what an unlisted address holds. -/
def Memory.wf (m : Nat) (mem : Memory) : Bool :=
  keysRise none mem && mem.all (fun p => decide (p.2 ≠ blankWord m))

/-- Words of each memory (R449). -/
def memWords (m : Nat) : Nat :=
  match m with
  | 0 => 8388608
  | 1 => 1048576
  | 2 => 221184
  | 3 => 1048576
  | 4 => 1769472
  | 5 => 2097152
  | 6 => 524288
  | 7 => 131072
  | _ => 0

end Sys2Proof.Machine
end

