-- ==== Sys2Proof/Machine/Operands.lean ====
section
/-! DEFINITION. The operands of an access (R10, R82 to R84, R101, R111): elements out of words, the checks that
depend on the object and the value alone, and the order of the abort codes. -/

namespace Sys2Proof.Machine

open Sys2Proof

/-- Abort codes in the order of checking (R111). -/
def abortOrder : List Nat := [0x09, 0x0A, 0x0D, 0x01, 0x02, 0x03, 0x04, 0x05, 0x0B, 0x08, 0x07, 0x0E, 0x06, 0x0C]

/-- Of the codes that apply, 0 standing for none, the first in the order of checking (R111). -/
def firstAbort (codes : List Nat) : Nat := (abortOrder.find? (fun c => codes.contains c)).getD 0

/-- A code where a condition holds. -/
def whenCode (c : Bool) (code : Nat) : Nat := if c then code else 0

/-- The elements that words spell: word 0 above word 1 in a pair (R8, R143). -/
def elemsOf (per : Nat) : List Word → List Elem
  | w0 :: w1 :: rest =>
    if per = 2 then BitVec.ofNat 72 (w0.toNat * 2 ^ 36 + w1.toNat) :: elemsOf per rest
    else BitVec.ofNat 72 w0.toNat :: elemsOf per (w1 :: rest)
  | [w0] => if per = 2 then [] else [BitVec.ofNat 72 w0.toNat]
  | [] => []

/-- The value keeps the encoding of its type (R10; R84 step 1). -/
def typeOk (ty : Ty) (e : Elem) : Bool :=
  match ty with
  | .bool => decide (e.toNat < 2)
  | .u9 => decide (e.toNat < 2 ^ 9)
  | .u18 => decide (e.toNat < 2 ^ 18)
  | .s18 => decide (e.toNat < 2 ^ 17) || decide (2 ^ 36 - 2 ^ 17 ≤ e.toNat)
  | .pos48 => decide (e.toNat % 2 ^ 36 < 2 ^ 12)
  | _ => true

/-- The number a one-word element stands for (R10). -/
def elemNum (ty : Ty) (e : Elem) : Int :=
  match ty with
  | .s18 => sgn 36 e.toNat
  | .s36 => sgn 36 e.toNat
  | _ => (e.toNat : Int)

/-- Reserved bits are ignored (R9): a one-word element through its object's mask. -/
def maskElem (d : ObjDef) (e : Elem) : Elem :=
  if d.wordsPer = 2 then e else BitVec.ofNat 72 (e.toNat % 2 ^ 36 &&& d.mask.toNat)

/-- The value lies in the range stated for the object (R84 step 2), and is 0 where only 0 may be written (R527). -/
def rangeOk (d : ObjDef) (e : Elem) : Bool :=
  (match d.range with
    | some (lo, hi) => decide (lo ≤ elemNum d.ty e) && decide (elemNum d.ty e ≤ hi)
    | none => true) && (!d.zeroClears || e == 0)

/-- The class forbids a write, or a read (R12). -/
def classAbort (d : ObjDef) (write : Bool) : Nat :=
  if write then whenCode (d.cls == .const || d.cls == .ro) 0x03 else whenCode (d.cls == .wo) 0x04

/-- What a plain access names does not fit the object (R82): every code that applies. -/
def plainAborts (d : ObjDef) (write : Bool) (index count : Nat) : List Nat :=
  classAbort d write ::
    (if d.isBulk then [0x05]
     else if d.isArray then [whenCode (decide (index + max count 1 > d.count)) 0x02, whenCode (decide (count = 0)) 0x05]
     else [whenCode (decide (index ≠ 0)) 0x02, whenCode (decide (count ≠ 1)) 0x05])

/-- What an open request names does not fit the object (R82, R101, R103). -/
def openAborts (d : ObjDef) (write : Bool) (offset length : Nat) : List Nat :=
  [classAbort d write, whenCode (!d.isBulk || decide (length = 0)) 0x05,
   whenCode (d.isBulk && decide (offset + max length 1 > d.count)) 0x02]

/-- The flag word of an ED_KERNEL element: its weights add to 32 (R262). -/
def kernelSum (w : Word) : Nat := (List.range 7).foldl (fun n i => n + fld w (5 * i + 4) (5 * i)) 0

end Sys2Proof.Machine
end

