-- ==== Sys2Proof/Config.lean ====
section
/-! DEFINITION. What one device fixes and the spec leaves open, and the free values: constants with no body, so
that nothing can be proved of their values. -/

namespace Sys2Proof.Config

open Sys2Proof

/-- The n-th free value: State.free counts them (notes/assumptions/6.md). -/
opaque freeWord : Nat → Word

/-- Factory value of 02.100 HOST_MAC, by element (R147; notes/assumptions/8.md). -/
opaque factoryMac : Nat → BitVec 24

/-- Word of control processor RAM that holds element i of object o: the spec names no address
(notes/assumptions/9.md). -/
opaque ramWord : Nat → Nat → Nat

/-- Word of a Screening Cell's 4,096 words that holds the error terms of one of its 256 nozzles: the spec names no address
(notes/assumptions/9.md). -/
opaque termWord : Nat → Nat

/-- What a word with three or more flipped bits decodes to: from the data written and the flips, the data read, or
none where the code finds it uncorrectable (R450; notes/assumptions/10.md). -/
opaque manyFlips : Word → BitVec 43 → Option Word

/-- The normalised correlation of two sequences, in 2^-15: the spec names it and states no formula (R426;
notes/assumptions/35.md). -/
opaque correlation : List (Nat × Nat) → Int

/-- The transient faults that strike the encoder of the Block Compressor while it codes a stripe (R242): nothing tells when
one does (notes/assumptions/74.md). -/
opaque coderFaults : Nat → List CoderFault

end Sys2Proof.Config
end

