-- ==== Sys2Proof/Machine/Ops.lean ====
section
/-! DEFINITION. The named operations every command is written over: time, object values, counters, events, free
values, what leaves the device, and readiness. -/

namespace Sys2Proof.Machine

open Sys2Proof

/-- An element from a number. -/
def el (n : Nat) : Elem := BitVec.ofNat 72 n

/-- An element of two words, word 0 above word 1 (R8). -/
def pairElem (w0 w1 : Word) : Elem := el (w0.toNat * 2 ^ 36 + w1.toNat)

/-- Word 0 and word 1 of a two-word element. -/
def elemHi (e : Elem) : Word := wd (e.toNat / 2 ^ 36)
def elemLo (e : Elem) : Word := wd e.toNat

/-- POS48 (R10): a position in 1/4,096 line as an element, and back. -/
def posElem (p : Int) : Elem :=
  pairElem (ws (Int.fdiv p 4096)) (wd (pat 12 p))
def elemPos (e : Elem) : Int := sgn 36 (elemHi e).toNat * 4096 + ((elemLo e).toNat % 4096 : Nat)

/-- POS48 kept within 48 bits. -/
def wrapPos (p : Int) : Int := sgn 48 (pat 48 p)

/-- TIME72 as an element (R10). -/
def timeElem (v : Nat) : Elem := el (v % 2 ^ 72)

/-- The key of an object's element in a `Store`: no object has as many as 2^21 elements or words (R11). -/
def objKey (id idx : Nat) : Nat := id * 2097152 + idx % 2097152

/-- Curve points packed three to a word, points 3j to 3j + 2 (07.001, R258). -/
def pack3 (p : Nat → Nat) (j : Nat) : Nat := p (3 * j) * 2 ^ 24 + p (3 * j + 1) * 2 ^ 12 + p (3 * j + 2)

/-- Default word of 08.002 COMP_KERNELS slot s of kernel 0 (R296). -/
def kernelSlot (s : Nat) : Nat :=
  if s = 5 ∨ s = 10 then 128 else if s = 6 ∨ s = 9 then 384 else if s = 7 ∨ s = 8 then 512 else 0

/-- Default of word w of 09.000 HEAD_GEOM, the typical layout (R322). -/
def geomDefault (w : Nat) : Nat :=
  let h := w / 4
  let s := h % 16
  if w % 4 = 0 then
    2 ^ 35 + 1 * 2 ^ 33 + ((if h < 16 then 0 else 2) + s % 2) * 2 ^ 31 + 6720 * s + (if h < 16 then 0 else 1)
  else if w % 4 = 1 then
    (if s = 0 then 0 else 96) * 2 ^ 28 + (if s = 15 then 0 else 96) * 2 ^ 20
  else 0

/-- Default rate code of a lane (R171): RAS, CAS and CAM 12.5, HD 3.125, HOST and the ring 1.25 Gbaud. -/
def laneRate (i : Nat) : Nat :=
  if i < 5 then 5 else if i = 5 then 0 else if i < 38 then 1 else if i < 46 then 5 else 0

/-- Role from the strap MASTER[1:0] (R486): 0 stand-alone (straps 00 and 11), 1 Master, 2 Member. -/
def roleOf (strap : Nat) : Nat := if strap = 1 then 1 else if strap = 2 then 2 else 0

/-- The default of an object's element or word (R87 and the object tables). -/
def dfltOf (grade : Grade) (strap : Nat) (id idx : Nat) : Nat :=
  if id = Obj.deviceId then
    0x3648 * 2 ^ 20 + 1 * 2 ^ 17 + (match grade with | .g16 => 16 | .g12 => 12) * 256 + 1 * 16
  else if id = Obj.role then roleOf strap
  else if id = Obj.hostMac then (Config.factoryMac idx).toNat
  else if id = Obj.timeSource then (if roleOf strap = 2 then 2 else 0)
  else if id = Obj.laneCfg then 2 ^ 35 + laneRate idx * 2 ^ 32
  else if id = Obj.toneCurves then pack3 (fun i => min (128 * i) 4095) (idx % 11)
  else if id = Obj.levels then (if idx % 3 = 2 then 585 * 7 * 2 ^ 24 else pack3 (fun i => 585 * (i + 1)) (idx % 3))
  else if id = Obj.chain then (if idx = 0 then 0x80000000F else if idx = 1 then 0x80000021F else 0)
  else if id = Obj.compKernels then (if idx < 6 then pack3 kernelSlot idx else 0)
  else if id = Obj.headGeom then geomDefault idx
  else if id = Obj.fireFmax then (match grade with | .g16 => 160000 | .g12 => 120000)
  else if id = Obj.colourMatrix then
    (let w := idx % 12
     if w = 0 then 4096 * 2 ^ 18 else if w = 3 then 4096 * 2 ^ 18 else if w = 6 then 4096 * 2 ^ 18
     else if w = 9 then 4096 else 0)
  else if id = Obj.foxInv then pack3 (fun i => 32 * i) idx
  else if id = Obj.unmix then (if idx < 2 then 1365 else if idx = 2 then 1366 else 0)
  else if id = Obj.casCfg then (if idx = 0 then 0xBC0000000 else if idx = 1 then 0xFC0000000 else 0)
  else match findObj id with
    | some d => d.dflt
    | none => 0

/-- The element in force of an object (R90). -/
def getE (s : State) (id idx : Nat) : Elem :=
  (lookupKey s.dict.active (objKey id idx)).getD (el (dfltOf s.pwr.grade s.pwr.strap.val id idx))

/-- A one-word value in force, as a word, a number and a signed number of n bits. -/
def getW (s : State) (id idx : Nat) : Word := elemLo (getE s id idx)
def getN (s : State) (id idx : Nat) : Nat := (getW s id idx).toNat
def getS (s : State) (n id idx : Nat) : Int := sgn n (getN s id idx)

/-- A POS48 value in force, in 1/4,096 line. -/
def getPos (s : State) (id idx : Nat) : Int := elemPos (getE s id idx)

/-- The shadow element of an RWB object (R90): what was written to it, else the value in force. -/
def getShadow (s : State) (id idx : Nat) : Elem :=
  (lookupKey s.dict.shadow (objKey id idx)).getD (el (dfltOf s.pwr.grade s.pwr.strap.val id idx))

/-- A store with one element set; an element equal to its default is not listed. -/
def storeSet (grade : Grade) (strap : Nat) (st : Store) (id idx : Nat) (e : Elem) : Store :=
  if e = el (dfltOf grade strap id idx) then eraseKey st (objKey id idx) else insertKey st (objKey id idx) e

/-- The element in force set. -/
def setE (id idx : Nat) (e : Elem) (s : State) : State :=
  { s with dict := { s.dict with active := storeSet s.pwr.grade s.pwr.strap.val s.dict.active id idx e } }

/-- A one-word value in force set. -/
def setN (id idx n : Nat) (s : State) : State := setE id idx (el (n % 2 ^ 36)) s
def setI (id idx : Nat) (i : Int) (s : State) : State := setE id idx (el (ws i).toNat) s

/-- The shadow element set. -/
def setShadow (id idx : Nat) (e : Elem) (s : State) : State :=
  { s with dict := { s.dict with shadow := storeSet s.pwr.grade s.pwr.strap.val s.dict.shadow id idx e } }

/-- A saturating counter raised by n. -/
def bump (id idx n : Nat) (s : State) : State := setN id idx (satN 36 (getN s id idx + n)) s

/-- Entries keyed by one object removed: the object takes its default. -/
def dropObj (st : Store) (id : Nat) : Store := st.filter (fun p => p.1 / 2097152 != id)

/-- An enabled trigger unit other than `trig`, or an enabled compare unit other than `cmp`, drives the pin with the
other polarity (R167, R390). -/
def pinConflict (s : State) (trig cmp : Option Nat) (pin pol : Nat) : Bool :=
  (List.range 16).any (fun j => trig != some j &&
    (let w := getW s Obj.trig j
     bitOf w 35 && bitOf w 30 && decide (fld w 29 28 = pin) && decide (fld w 27 27 ≠ pol)))
  || (List.range 8).any (fun j => cmp != some j &&
    (let w := getW s Obj.cmp j
     bitOf w 35 && decide (fld w 32 31 = 2) && decide (fld w 30 29 = pin) && decide (fld w 28 28 ≠ pol)))

/-- What leaves the device, appended (notes/assumptions/4.md). -/
def emit (x : Sent) (s : State) : State := { s with sent := s.sent ++ [x] }

/-- A free value (notes/assumptions/6.md): the next one, and the state after it is taken. -/
def freeVal (s : State) : Word := Config.freeWord s.free
def takeFree (s : State) : State := { s with free := s.free + 1 }

/-- TIME72: the accumulator truncated to units of 2^-36 s (R149). -/
def time72 (s : State) : Nat := (s.clock.acc / 2 ^ 28) % 2 ^ 72

/-- A bit of 01.002 READY as it reads. -/
def rdy (s : State) (b : Nat) : Bool := bitOf s.pwr.ready b

/-- The clock at tick t: the tick count never goes back (R148), and TIME72 gains RATE_ADDEND per tick while the
Timebase is ready (R149). -/
def advance (t : Nat) (s : State) : State :=
  let dt := t - s.clock.tick
  { s with clock := { s.clock with
      tick := s.clock.tick + dt
      acc := if rdy s 5 then (s.clock.acc + dt * getN s Obj.rateAddend 0) % 2 ^ 100 else s.clock.acc } }

/-- Events of severity W (R499), as group times 4,096 plus number. -/
def warningEvents : List Nat :=
  [0x01002, 0x02001, 0x02005, 0x02006, 0x02007, 0x03002, 0x03005, 0x04001, 0x04003, 0x04004, 0x04005, 0x05001, 0x05004, 0x05005, 0x06001, 0x07002, 0x08002, 0x08003, 0x09002, 0x0A001, 0x0B003, 0x0B006, 0x0B007, 0x0C002, 0x0C005, 0x0C006, 0x0D001, 0x0E002, 0x0E003, 0x0E004, 0x0F003, 0x10002, 0x10003, 0x10005, 0x11003, 0x11004, 0x12005, 0x14001, 0x15001]

/-- Events of severity F (R499), as group times 4,096 plus number. -/
def failureEvents : List Nat :=
  [0x05002, 0x05003, 0x06002, 0x07001, 0x09001, 0x0A002, 0x0A003, 0x0B001, 0x0B004, 0x0C001, 0x0C004, 0x0C007, 0x0D004, 0x0E001, 0x10006, 0x11002, 0x11005, 0x12001, 0x12002, 0x12003, 0x12004, 0x13001, 0x13002]

/-- Events of severity C (R499), as group times 4,096 plus number. -/
def criticalEvents : List Nat :=
  [0x01004, 0x01005]
/-- Severity of an event (R499): 0 I, 1 W, 2 F, 3 C. -/
def sevOf (code : Nat) : Nat :=
  if criticalEvents.contains code then 3
  else if failureEvents.contains code then 2
  else if warningEvents.contains code then 1
  else 0

/-- An event raised with the present TIME72 (R112, R499). It waits for the control cycle that queues it (R501);
until the firmware runs it waits in the AON buffer of 32 entries, and one more is lost (R503). -/
def raise (code : Nat) (params : List Word) (s : State) : State :=
  let e : Event := { time := time72 s, group := code / 4096, number := code % 4096, sev := sevOf code, params := params }
  if rdy s 25 then { s with ev := { s.ev with raised := s.ev.raised ++ [e] } }
  else if s.ev.aon.length < 32 then { s with ev := { s.ev with aon := s.ev.aon ++ [e] } }
  else bump Obj.eventLost 0 1 s

/-- 14.001 EVENT_MASK as it reads: bit 35 reads 1 (R117). -/
def eventMask (s : State) : Word := setBit (getW s Obj.eventMask 0) 35 true

/-- An event passes the mask (R113): severity C always does. -/
def passesMask (s : State) (e : Event) : Bool :=
  e.sev == 3 || (decide (e.group ≤ 0x15) && bitOf (eventMask s) e.group && bitOf (eventMask s) (32 + e.sev))

/-- A new entry at the end of the queue (R112). -/
def newEntry (e : Event) (s : State) : State :=
  { s with ev := { s.ev with queue := s.ev.queue ++ [{ event := e, seq := s.ev.nextSeq, rep := 0 }]
                             nextSeq := (s.ev.nextSeq + 1) % 2 ^ 36 } }

/-- An event repeats the newest entry: the same event with the same parameters within 1 ms of its TIME (R114). -/
def repeatsEntry (e : Event) (q : Entry) : Bool :=
  q.event.group == e.group && q.event.number == e.number && q.event.params == e.params
    && decide ((e.time - q.event.time + (q.event.time - e.time)) * 1000 ≤ 2 ^ 36)

/-- The newest entry counts one occurrence more; past 8,191 the occurrence is lost (R112, R502). -/
def mergeNewest (s : State) : State :=
  match s.ev.queue.getLast? with
  | some q =>
    if q.rep ≥ 8191 then bump Obj.eventLost 0 1 s
    else { s with ev := { s.ev with queue := s.ev.queue.dropLast ++ [{ q with rep := q.rep + 1 }] } }
  | none => s

/-- An event that finds the queue at 240 entries or more (R116, R502): severity C takes a free entry; another is lost,
and the first one lost queues EV 14.001. -/
def enqueueFull (e : Event) (s : State) : State :=
  if e.sev = 3 then
    (if s.ev.queue.length < 256 then newEntry e s else bump Obj.eventLost 0 1 s)
  else
    let s := bump Obj.eventLost 0 1 s
    if s.ev.overflowed then s else
    let s := { s with ev := { s.ev with overflowed := true } }
    if s.ev.queue.length < 256 then
      newEntry { time := e.time, group := 0x14, number := 1, sev := 1
                 params := [wd (e.group * 2 ^ 28 + e.number * 2 ^ 16)] } s
    else bump Obj.eventLost 0 1 s

/-- An event enters the queue, merges into the newest entry, or is counted as masked or lost (R113, R114, R116). -/
def enqueue (s : State) (e : Event) : State :=
  if !(passesMask s e) then bump Obj.eventMasked 0 1 s
  else if (match s.ev.queue.getLast? with
      | some q => repeatsEntry e q
      | none => false) then mergeNewest s
  else if s.ev.queue.length < 240 then newEntry e { s with ev := { s.ev with overflowed := false } }
  else enqueueFull e s

/-- An event put before the first one that it precedes. -/
def insertEvent (before : Event → Event → Bool) : List Event → Event → List Event
  | [], e => [e]
  | x :: rest, e => if before e x then e :: x :: rest else x :: insertEvent before rest e

/-- Order of group, then number, of events of one TIME (R501). -/
def lowerCode (e x : Event) : Bool := decide (e.group * 4096 + e.number < x.group * 4096 + x.number)

/-- The events raised in this control cycle enter the queue in order of TIME, group and number (R501). -/
def queueRaised (s : State) : State :=
  let es := s.ev.raised.foldl (insertEvent (fun e x => decide (e.time < x.time) || (e.time == x.time && lowerCode e x))) []
  es.foldl enqueue { s with ev := { s.ev with raised := [] } }

/-- The firmware runs: the events of the AON buffer are queued in order of TIME (R503), those of an earlier timescale
first (R504). -/
def queueAon (s : State) : State :=
  let es := s.ev.aon.foldl (insertEvent (fun e x => e.time == x.time && lowerCode e x)) []
  es.foldl enqueue { s with ev := { s.ev with aon := [] } }

/-- A parameter that is a number in [8:0] (R498). -/
def p9 (n : Nat) : Word := wd (satN 9 n)

/-- A parameter that is a page number (R498). -/
def pPage (n : Nat) : Word := wd (n % 2 ^ 24)

/-- A parameter that is a page line in [17:0] (R498). -/
def pLine (n : Nat) : Word := wd (satN 18 n)

/-- A number that saturates at a word, and a signed one. -/
def pNum (n : Nat) : Word := wd (satN 36 n)
def pInt (i : Int) : Word := ws (satS 36 i)

/-- The two words of a position (R498). -/
def pPos (p : Int) : List Word := [elemHi (posElem p), elemLo (posElem p)]

/-- Functions that a rail supplies (R528), as bits of READY. -/
def railFuncs (r : Nat) : Nat :=
  match r with
  | 0 => 0x3FFFFFE
  | 1 => 0x3FFFFFE
  | 2 => 0x3FFFFFF
  | 3 => 0x042108E
  | 4 => 0x042108E
  | 5 => 0x1000000
  | 6 => 0x0016000
  | 7 => 0x0300000
  | 8 => 0x0200000
  | _ => 0

/-- A function is held by an invalid TABLE or DOMAIN object it uses (R105, R299), or the LDS by a demand above its
capacity (R314). -/
def heldByObject (s : State) (b : Nat) : Bool :=
  s.dict.badObj.any (fun o =>
    (o == Obj.headGeom && (b == 11 || b == 12)) || (o == Obj.flatField && b == 18)
    || (o == Obj.colourMatrix && b == 18) || (o == Obj.foxInv && b == 19))
  || (b == 11 && decide (getN s Obj.ldsDemand 0 > 29127))

/-- A function on its own, its dependencies aside: it has brought itself up, it is not held in 01.003 FUNC_RESET
(R73), no rail that supplies it is out of range (R51), and no object it uses is invalid (R105). -/
def ownUp (s : State) (b : Nat) : Bool :=
  bitOf s.pwr.up b && !(bitOf (getW s Obj.funcReset 0) b)
    && !((List.range 9).any (fun r => nbit s.pwr.railsOut.toNat r && nbit (railFuncs r) b)) && !(heldByObject s b)

/-- Readiness with the dependencies of R22 (notes/assumptions/11.md). -/
def depReady (own : Nat → Bool) : Nat → Bool
  | 5 => own 5 && own 4
  | 6 => own 6 && own 5 && own 4
  | 8 => own 8 && own 7 && own 4
  | 9 => own 9 && own 8 && own 7 && own 4 && own 25
  | 12 => own 12 && own 4 && own 5 && (own 13 || own 14 || (own 15 && own 5 && own 4))
  | 15 => own 15 && own 5 && own 4
  | 16 => own 16 && own 5 && own 4
  | 18 => own 18 && own 17
  | 19 => own 19 && own 18 && own 17 && own 9 && own 8 && own 7 && own 4 && own 25
  | 21 => own 21 && own 20
  | b => own b

/-- The word of bits 0 to n - 1 of f. -/
def packBits (f : Nat → Bool) : Nat → Nat
  | 0 => 0
  | n + 1 => packBits f n + (if f n then 2 ^ n else 0)

/-- 01.002 READY as it should read. -/
def readyOf (s : State) : Word := wd (packBits (depReady (ownUp s)) 26)

/-- EV 01.001 or EV 01.002 for each bit of READY that changes, lowest first (R22, R60). -/
def readyEvents (old new : Word) (bits : List Nat) (s : State) : State :=
  bits.foldl (fun s b =>
    if bitOf old b == bitOf new b then s
    else if bitOf new b then raise 0x01001 [p9 b] s
    else raise 0x01002 [p9 b] s) s

/-- READY brought up to date, with its events. Every command ends with it. -/
def settle (s : State) : State :=
  let new := readyOf s
  if new = s.pwr.ready then s
  else
    let t := { s with pwr := { s.pwr with ready := new } }
    readyEvents s.pwr.ready new (List.range 26) (if !(rdy s 25) && rdy t 25 then queueAon t else t)

/-- The device is out of reset and not in Winter (R55, R80). -/
def awake (s : State) : Bool := !s.pwr.inReset && !(s.pwr.season == .winter)

/-- A happening at tick t with effect f, in every season: the clock reaches t, the effect happens, READY follows. -/
def happenAlways (t : Nat) (f : State → State) (s : State) : Host.Outcome State Fault Refusal :=
  .next (settle (f (advance t s)))

/-- A command at tick t with effect f: without effect on a device in reset or in Winter, whose internal domains are
off (R55, R80). -/
def happen (t : Nat) (f : State → State) (s : State) : Host.Outcome State Fault Refusal :=
  happenAlways t (fun s => if awake s then f s else s) s

/-- f where c holds. -/
def whenB (c : Bool) (f : State → State) (s : State) : State := if c then f s else s

/-- f for each element of a list, in order. -/
def forEach {α : Type} (l : List α) (f : α → State → State) (s : State) : State := l.foldl (fun s a => f a s) s

/-- A function sets its own bit, or clears it. -/
def setUp (b : Nat) (on : Bool) (s : State) : State := { s with pwr := { s.pwr with up := setBit s.pwr.up b on } }

/-- Role of the device (R486). -/
def role (s : State) : Nat := roleOf s.pwr.strap.val

/-- A page is in progress (R89). -/
def pageInProgress (s : State) : Bool := !s.pages.isEmpty

/-- Page p is ahead of page q (R94). -/
def ahead (p q : Nat) : Bool :=
  let d := (p + 2 ^ 24 - q % 2 ^ 24) % 2 ^ 24
  decide (1 ≤ d) && decide (d ≤ 2 ^ 23 - 1)

/-- The season. -/
def inSeason (x : Season) (s : State) : Bool := s.pwr.season == x

end Sys2Proof.Machine
end

