-- ==== Sys2Proof/Machine/Crossing.lean ====
section
/-! DEFINITION. The crossing units (R32 to R40): counters that cross in Gray code and are acknowledged, dual-clock queues,
and their status in group 15. -/

namespace Sys2Proof.Machine

open Sys2Proof

/-- Kind of crossing unit i (R36): a counter, or a queue. Unit 12, which is both, counts fault counts and reports the
fill of its queue (notes/assumptions/63.md). -/
def xingIsCounter (i : Nat) : Bool := [0, 1, 7, 15].contains i

/-- The Gray code of a 12-bit count, and the count of a Gray code (R32). -/
def gray (c : BitVec 12) : BitVec 12 := c ^^^ (c >>> 1)
def ungray (g : BitVec 12) : BitVec 12 := (List.range 12).foldl (fun c k => c ^^^ (g >>> k)) 0

/-- Events on the sending side that no update has carried to the receiving side yet (R33): a signed difference modulo
4,096. -/
def xingWaiting (x : Xing) : Int := sgn 12 (x.count - x.taken).toNat

/-- The sending side publishes its running count, in Gray code (R32). -/
def xingPublish (tick : Nat) (x : Xing) : Xing := { x with published := gray x.count, sentAt := some tick }

/-- The receiving side takes the published count and acknowledges it (R32, R33): the difference from the last count taken
is the number of new events, and the first update after a release carries the discontinuity flag (R39). -/
def xingTake (x : Xing) : Xing :=
  let c := ungray x.published
  let d := sgn 12 (c - x.taken).toNat
  { x with value := x.value + d, taken := c, sentAt := none, peak := max x.peak (satN 12 d.natAbs)
           flagged := x.flagNext, flagNext := false }

/-- A counter as it stands at a tick (R33, R34): an update published before that tick has been taken, and what came
during its acknowledge phase is the next update, published at once. -/
def xingAt (tick : Nat) (x : Xing) : Xing :=
  match x.sentAt with
  | none => x
  | some a =>
    if tick ≤ a then x else
    let y := xingTake x
    if y.count = y.taken then y else xingTake (xingPublish a y)

/-- n new events on the sending side of a counter (R32, R33, R38): held back while an update awaits its acknowledge, or
while the receiving side is in reset; nothing counts while the sending side is. -/
def xingEvents (tick : Nat) (n : Int) (x : Xing) : Xing :=
  let x := xingAt tick x
  if x.side = 1 ∨ x.side = 3 then x else
  let y := { x with total := x.total + n, count := x.count + BitVec.ofInt 12 n }
  if y.side = 0 ∧ y.sentAt = none then xingPublish tick y else y

/-- The fill of a queue rises to n entries (R35, R37); the first entry after a release carries the discontinuity flag
(R39). A side in reset empties both ends and stalls the producer (R38). -/
def xingEntries (n : Nat) (x : Xing) : Xing :=
  if x.side = 0 then { x with peak := max x.peak (satN 12 n), flagged := x.flagNext, flagNext := false } else x

/-- Events across counter i, and a fill of n entries in queue i. -/
def xingCount (i : Nat) (n : Int) (s : State) : State := { s with xing := vmod s.xing i (xingEvents s.clock.tick n) }
def xingQueue (i n : Nat) (s : State) : State := { s with xing := vmod s.xing i (xingEntries n) }

/-- An item passes queue i, which held no other, and has its effect (notes/assumptions/63.md). -/
def crossing (i : Nat) (f : State → State) (s : State) : State := f (xingQueue i 1 s)

/-- Crossing unit i. -/
def xingU (s : State) (i : Nat) : Xing := vget s.xing i State.resetXing

/-- Nothing crosses at unit i: one side, or both, is in reset (R38). -/
def xingStalled (s : State) (i : Nat) : Bool := (xingU s i).side != 0

/-- Functions on the sending and on the receiving side of a crossing unit (R36; notes/assumptions/62.md). -/
def xingSend (i : Nat) : List Nat :=
  match i with
  | 0 => [13]
  | 1 => [14]
  | 2 => [7]
  | 3 => [7]
  | 4 => [7]
  | 5 => [7]
  | 6 => [7]
  | 7 => [9]
  | 8 => [9, 5]
  | 9 => [17]
  | 10 => [1, 2]
  | 11 => [3]
  | 12 => [20]
  | 14 => [5]
  | _ => []
def xingRecv (i : Nat) : List Nat :=
  match i with
  | 0 => [5]
  | 1 => [5]
  | 7 => [5]
  | 8 => [12]
  | 9 => [18]
  | _ => []

/-- The side of crossing unit i that a value of FUNC_RESET holds: 0 none, 1 sending, 2 receiving, 3 both. -/
def xingSide (v : Word) (i : Nat) : Nat :=
  b2n ((xingSend i).any (fun b => bitOf v b)) + 2 * b2n ((xingRecv i).any (fun b => bitOf v b))

/-- What a unit whose side in reset becomes b holds: the side in reset loses its own count, the other keeps its total or
its last value (R38). -/
def xingSides (b : Nat) (x : Xing) : Xing :=
  { x with side := b
           total := if b = 1 ∨ b = 3 then 0 else x.total
           value := if b = 2 ∨ b = 3 then 0 else x.value
           sentAt := none }

/-- The count or queue restarts at zero, and its first update carries the discontinuity flag (R39). -/
def xingRestart (x : Xing) : Xing :=
  { x with peer := false, discont := true, side := 0, count := 0, published := 0, taken := 0, sentAt := none
           flagNext := true, flagged := false }

/-- A crossing unit's status when its side in reset changes from a to b (R38 to R40). LAST_SIDE names
the side that entered reset last. What DISCONT and EPISODES read when the side changes without a release of the whole unit is
the model's choice (notes/assumptions/118.md). -/
def xingMove (a b : Nat) (x : Xing) : Xing :=
  if a = b then x
  else if b = 0 then xingRestart x
  else
    let x := xingSides b x
    if a = 0 then { x with peer := b != 3, lastSide := b, episodes := satN 12 (x.episodes + 1) }
    else if b = 3 then { x with peer := false, lastSide := 3 - a }
    else { x with peer := true, discont := true, lastSide := if a = 3 then x.lastSide else b }

/-- Crossing unit i follows FUNC_RESET (R38 to R40): EV 15.001 when one side alone comes to be in reset. -/
def xingFollow (i : Nat) (s : State) : State :=
  let x := xingU s i
  let side := xingSide (getW s Obj.funcReset 0) i
  let y := xingMove x.side side (xingAt s.clock.tick x)
  let s := { s with xing := vset s.xing i y }
  if side != x.side && (side == 1 || side == 2) then raise 0x15001 [p9 i, wd y.lastSide] s else s

/-- Both sides of every crossing unit have been reset and are released together (R40). -/
def xingReleased : Vector Xing 16 := Vector.replicate 16 { State.resetXing with discont := true, lastSide := 3, flagNext := true }

/-- 15.100 XING_STATUS (R37). -/
def xingWord (s : State) (i : Nat) : Word :=
  let x := xingAt s.clock.tick (xingU s i)
  wd ((if x.peer then 2 ^ 35 else 0) + (if x.discont then 2 ^ 34 else 0) + x.lastSide * 2 ^ 32
    + x.episodes * 2 ^ 20 + x.peak * 2 ^ 8)

/-- 15.000 XING_PEER_MAP and 15.001 XING_DISCONT_MAP (R37). -/
def xingMap (s : State) (f : Xing → Bool) : Word :=
  wd (packBits (fun i => match s.xing[i]? with
    | some x => f x
    | none => false) 16)

/-- A write of 1 to DISCONT clears it, and PEAK starts anew (R37). -/
def xingClear (i : Nat) (s : State) : State :=
  { s with xing := vmod s.xing i (fun x => { xingAt s.clock.tick x with discont := false, peak := 0 }) }

end Sys2Proof.Machine
end

