-- ==== Sys2Proof/Machine/Memory.lean ====
section
/-! DEFINITION. The eight memories (chapter 17): reads and writes through SEC-DED and valid bits, the merge buffers,
write-backs, Badger, repair, poison and flip-masks. -/

set_option Elab.async false

namespace Sys2Proof.Machine

open Sys2Proof

/-- Memory m's unit. -/
def memU (s : State) (m : Nat) : MemUnit := vget s.mem m State.blankMem

/-- Memory m's unit changed. -/
def modMem (m : Nat) (f : MemUnit → MemUnit) (s : State) : State := { s with mem := vmod s.mem m f }

/-- Memory m runs in compatibility mode (R457). -/
def compat (s : State) (m : Nat) : Bool := bitOf (getW s Obj.compat 0) m

/-- The stored word at an address. -/
def cellAt (s : State) (m a : Nat) : Stored := memRead m (memU s m).cells a

/-- A stored word set, the memory kept canonical. An address past the memory's last word is none of its words. -/
def putCell (m a : Nat) (v : Stored) (s : State) : State :=
  modMem m (fun u => { u with cells := if a < memWords m then memWrite m u.cells a v else u.cells }) s

/-- What decoding a written code word gives (R450, R452). -/
inductive Decoded where
  | good (data : Word)
  | fixed (data : Word)
  | bad
deriving DecidableEq, Repr

/-- Decoding: no flipped bit, one, two, or more; for three and more the spec gives no result
(notes/assumptions/10.md). -/
def decodeWord (v : Stored) : Decoded :=
  match ones 43 v.upset.toNat with
  | 0 => .good v.data
  | 1 => .fixed v.data
  | 2 => .bad
  | _ => match Config.manyFlips v.data v.upset with
    | some d => .fixed d
    | none => .bad

/-- The value an uncorrectable or poisoned word reads as (R465). Control processor RAM: the table gives none, the
firmware restarts; the word reads as a free value. -/
def policyValue (s : State) (m : Nat) : Word :=
  match m with
  | 2 => 0xF00007000
  | 3 => 0x7FF7FF7FF
  | 6 => freeVal s
  | 7 => 0x000100000
  | _ => 0

/-- A Tile fails (R275): cause 1 Cell RAM, 2 load check, 3 self-test. -/
def tileFail (t cause : Nat) (s : State) : State :=
  let s := raise 0x07001 [p9 t, wd cause] s
  let s := setN Obj.tileReady 0 (setBit (getW s Obj.tileReady 0) t false).toNat s
  let s := setN Obj.tileFault 0 (setBit (getW s Obj.tileFault 0) t true).toNat s
  let s := { s with fabric := { s.fabric with tilesDown := s.fabric.tilesDown ||| BitVec.ofNat 27 (2 ^ t) } }
  setUp 9 false s

/-- The further action when a word is found uncorrectable (R465): the Tile of a Cell-local RAM fails; an error in
control processor RAM restarts the firmware. Macro k of memory 4 serves Cell k (notes/assumptions/9.md). -/
def furtherAction (m a : Nat) (s : State) : State :=
  if m = 4 then tileFail (a / 4096 / 16) 1 s
  else if m = 6 then { s with pwr := { s.pwr with codeError := true } }
  else s

/-- Macro and row of an address (R449). -/
def macroOf (a : Nat) : Nat := a / 4096
def rowOf (a : Nat) : Nat := a % 4096 / 32

/-- Rate code of memory m (R459). -/
def scrubCode (s : State) (m : Nat) : Nat := fld (getW s Obj.scrubRate 0) (4 * m + 3) (4 * m)

/-- Scrub window in ticks (R460): words over rate, 1 s at code 0. -/
def scrubWindow (s : State) (m : Nat) : Nat :=
  let r := scrubCode s m
  if r = 0 then 625000000 else memWords m * 625000000 / 2 ^ (r + 9)

/-- Spare rows in use in a macro. -/
def sparesOf (s : State) (m mac : Nat) : Nat :=
  (s.repairs.filter (fun r => r.mem == m && r.macroIx == mac)).length

/-- A hard error of a row (R462, R463): repair of the row begins, or it is reported unrepaired once. -/
def hardError (m a : Nat) (s : State) : State :=
  let mac := macroOf a
  let row := rowOf a
  let queued := ((memU s m).repairing.filter (fun r => r.1 == mac)).length
  let total := s.mem.toList.foldl (fun n u => n + u.repairing.length) s.repairs.length
  if (memU s m).repairing.any (fun r => r.1 == mac && r.2.1 == row) then s
  else if decide (sparesOf s m mac + queued < 4) && decide (total < 1024) then
    modMem m (fun u => { u with repairing := u.repairing ++ [(mac, row, sparesOf s m mac + queued)] }) s
  else if (memU s m).unrepaired.contains (mac, row) then s
  else
    raise 0x11005 [p9 m, wd mac, wd row, wd (if sparesOf s m mac + queued < 4 then 2 else 1)]
      (modMem m (fun u => { u with unrepaired := u.unrepaired ++ [(mac, row)] }) s)

/-- A correction is counted (R452), and a repeat within one scrub window of a write-back is a hard error (R461). -/
def countCorrected (m a : Nat) (s : State) : State :=
  let s := bump Obj.corrected m 1 s
  let again := (memU s m).history.any (fun h => h.1 == a && decide (s.clock.tick - h.2 ≤ scrubWindow s m))
  let s := modMem m (fun u => { u with corrected := u.corrected + 1 }) s
  if again then hardError m a s else s

/-- A write-back of a word enters the history of the last 16 (R461). -/
def noteWriteBack (m a : Nat) (s : State) : State :=
  modMem m (fun u => { u with history := ((a, s.clock.tick) :: u.history).take 16 }) s

/-- A correction on a read (R454): the corrected word waits to be written back, or is dropped where the queue of 8 is full. -/
def corrected (m a : Nat) (d : Word) (s : State) : State :=
  let s := countCorrected m a s
  if (memU s m).writeBacks.any (fun w => w.1 == a) then s
  else if (memU s m).writeBacks.length < 8 then
    modMem m (fun u => { u with writeBacks := u.writeBacks ++ [(a, d)] }) s
  else bump Obj.wbDropped m 1 s

/-- The word is poisoned: valid bits 10, data and check bits kept (R452). -/
def poison (m a : Nat) (s : State) : State := putCell m a { cellAt s m a with valid := 2 } s

/-- A write of a whole word takes an armed flip-mask (R466). -/
def flipMask (m a : Nat) (s : State) : BitVec 43 × State :=
  let c := getW s Obj.flipCtrl m
  if bitOf c 35 && (!(bitOf c 34) || fld c 22 0 == a) then
    (BitVec.ofNat 43 (fld (getW s Obj.flipCheck m) 6 0 * 2 ^ 36 + getN s Obj.flipData m),
     raise 0x11006 [p9 m, pNum a] (setN Obj.flipCtrl m (setBit c 35 false).toNat s))
  else (0, s)

/-- A merge entry and a pending write-back of a word go (R454, R455). -/
def dropWaiting (m a : Nat) (s : State) : State :=
  modMem m (fun u => { u with
    merge := u.merge.filter (fun e => e.addr != a)
    writeBacks := u.writeBacks.filter (fun w => w.1 != a) }) s

/-- A full user write (R450, R454, R455): check bits and valid bits follow the data, a merge entry and a pending
write-back of the word go. -/
def userWrite (m a : Nat) (d : Word) (s : State) : State :=
  let (x, s) := flipMask m a (dropWaiting m a s)
  putCell m a { data := d, upset := x, valid := 3 } s

/-- A memory whose unlisted words may hold what typed fields of State keep: Raster Input Buffer, Cell-local RAM,
inspection buffers, control processor RAM (notes/assumptions/9.md). -/
def typedMem (m : Nat) : Bool := m == 1 || m == 4 || m == 5 || m == 6

/-- A user write of a word whose data a typed field keeps: the word is listed only where the flip-mask leaves it wrong, or
in compatibility mode. -/
def bufferWrite (m a : Nat) (d : Word) (s : State) : State :=
  let (x, s) := flipMask m a (dropWaiting m a s)
  putCell m a (if x = 0 && !(compat s m) then blankWord m else { data := d, upset := x, valid := 3 }) s

/-- The bits of the nonets present. -/
def nonetMask (n : BitVec 4) : Word :=
  wd ((bitsOf 4 n.toNat).foldl (fun acc i => acc + 0x1FF * 2 ^ (9 * i)) 0)

/-- An incomplete merge entry is evicted by a read-modify-write (R456), which serves as the write-back of an old word it
corrects. -/
def evictEntry (m : Nat) (e : MergeEntry) (s : State) : State :=
  let s := modMem m (fun u => { u with merge := u.merge.filter (fun x => x.addr != e.addr)
                                       writeBacks := u.writeBacks.filter (fun w => w.1 != e.addr) }) s
  let old := cellAt s m e.addr
  let keep := nonetMask e.nonets
  let put (base : Word) (valid : BitVec 2) (s : State) : State :=
    let (x, s) := flipMask m e.addr s
    putCell m e.addr { data := (e.data &&& keep) ||| (base &&& ~~~ keep), upset := x, valid := valid } s
  if e.nonets = 15 then put 0 3 s
  else if old.valid = 0 && !(compat s m) then put 0 3 s
  else if old.valid = 1 || old.valid = 2 then put 0 2 s
  else match decodeWord old with
    | .good d => put d 3 s
    | .fixed d => put d 3 (noteWriteBack m e.addr (countCorrected m e.addr s))
    | .bad => furtherAction m e.addr
        (raise 0x11002 [p9 m, pNum e.addr] (bump Obj.uncorrectable m 1 (put 0 2 s)))

/-- The merge entry of a word, where there is one, is evicted. -/
def evictAt (m a : Nat) (s : State) : State :=
  match (memU s m).merge.find? (fun e => e.addr == a) with
  | some e => evictEntry m e s
  | none => s

/-- A write of the nonets named (R455). 64 port cycles at 800 MHz are 50 ticks. -/
def narrowWrite (m a : Nat) (d : Word) (n : BitVec 4) (s : State) : State :=
  let s := match (memU s m).merge.find? (fun e => e.addr == a) with
    | some e => if s.clock.tick - e.since ≤ 50 then s else evictEntry m e s
    | none => s
  let keep := nonetMask n
  match (memU s m).merge.find? (fun e => e.addr == a) with
  | some e =>
    let e' : MergeEntry := { e with data := (d &&& keep) ||| (e.data &&& ~~~ keep), nonets := e.nonets ||| n }
    if e'.nonets = 15 then userWrite m a e'.data s
    else modMem m (fun u => { u with merge := u.merge.map (fun x => if x.addr == a then e' else x) }) s
  | none =>
    let s := match (memU s m).merge with
      | old :: _ => if (memU s m).merge.length < 16 then s else evictEntry m old s
      | [] => s
    let e' : MergeEntry := { addr := a, data := d &&& keep, nonets := n, since := s.clock.tick }
    if n = 15 then userWrite m a d s else modMem m (fun u => { u with merge := u.merge ++ [e'] }) s

/-- A user read (R451, R452, R455): the word, and the state after its counts, events and further action. -/
def userRead (m a : Nat) (s : State) : Word × State :=
  let s := evictAt m a s
  let v := cellAt s m a
  if v.valid = 0 then (if compat s m && !(memU s m).zeroed then (freeVal s, takeFree s) else (0, s))
  else if v.valid = 3 then
    match decodeWord v with
    | .good d => (d, s)
    | .fixed d => (d, corrected m a d s)
    | .bad => (policyValue s m, furtherAction m a
        (raise 0x11002 [p9 m, pNum a] (bump Obj.uncorrectable m 1 (poison m a s))))
  else (policyValue s m, bump Obj.poisonReads m 1 s)

/-- The value a user read gives, its effects aside. -/
def peek (s : State) (m a : Nat) : Word := (userRead m a s).1

/-- The listed cells of memory m in an address range that a read does not find free of error. -/
def badCells (s : State) (m lo hi : Nat) : List Nat :=
  ((memU s m).cells.filter (fun p => decide (lo ≤ p.1) && decide (p.1 < hi) && !(p.2.upset == 0 && p.2.valid == 3))).map (·.1)

/-- The effects of user reads of a whole address range, in order of address. -/
def readRange (m lo hi : Nat) (s : State) : State := forEach (badCells s m lo hi) (fun a s => (userRead m a s).2) s

/-- Words written in order from an address. -/
def writeRun (m : Nat) : Nat → List Word → State → State
  | _, [], s => s
  | a, w :: ws, s => writeRun m (a + 1) ws (userWrite m a w s)

/-- Words of a flash image put into memory m, object o at word `base` on: a load, no user write (R77). -/
def loadImage (m o base : Nat) (img : Store) (s : State) : State :=
  forEach (img.filter (fun p => p.1 / 2097152 == o)) (fun p s =>
    putCell m (base + p.1 % 2097152) { data := elemLo p.2, upset := 0, valid := 3 } s) s

/-- The copy of a flash region in use (R77). -/
def regionImage (r : FlashRegion) : Store :=
  match r.inUse with
  | some false => r.copy0.image
  | some true => r.copy1.image
  | none => []

/-- A memory is cleared by its valid bits (R458). Memories 2, 3 and 7 then take their defaults, and memories 3 and 7
what flash holds; the Nozzle Table is loaded as at bring-up (R61, R441). What the typed buffers hold of memories 0, 1,
4 and 5 goes with it. -/
def clearMem (m : Nat) (s : State) : State :=
  let s := modMem m (fun u => { u with cells := [], merge := [], writeBacks := [], zeroed := false }) s
  match m with
  | 0 => { s with fire := { s.fire with heads := s.fire.heads.map (fun h => { h with lds := [] }) } }
  | 1 => { s with rfe := { s.rfe with groups := [] } }
  | 2 => setUp 10 false { s with nt := { s.nt with loading := true, seeding := false } }
  | 3 => loadImage 3 Obj.screenStore 0 (regionImage s.flash.persist) s
  | 4 => { s with fabric := { s.fabric with down := Vector.replicate 4 [], downFor := none, cells := [] } }
  | 5 => { s with insp := { s.insp with stripes := [], display := [], fox := { s.insp.fox with slots := [], vision := [], sums := [] } } }
  | 7 => loadImage 7 Obj.flatField 0 (regionImage s.flash.tables) s
  | _ => s

/-- Badger reads memory m (R457, R459). -/
def scrubs (s : State) (m : Nat) : Bool :=
  decide (scrubCode s m ≠ 0) && (!(compat s m) || bitOf (getW s Obj.initDone 0) m) && !(memU s m).clearing

/-- 11.100 MEM_STATUS (R468). -/
def memStatus (s : State) (m : Nat) : Word :=
  let u := memU s m
  let scrubs := scrubs s m && !(inSeason .winter s)
  wd ((if u.clearing then 2 ^ 35 else 0) + (if scrubs then 2 ^ 34 else 0) + (if compat s m then 2 ^ 33 else 0)
    + (if bitOf (getW s Obj.initDone 0) m then 2 ^ 32 else 0) + satN 16 u.passes * 2 ^ 16
    + satN 8 u.unrepaired.length * 2 ^ 8)

/-- Word w of 11.020 REPAIR_MAP (R468). -/
def repairWord (s : State) (w : Nat) : Word :=
  if w = 0 then wd s.repairs.length
  else match s.repairs[w - 1]? with
    | some r => wd (r.mem * 2 ^ 33 + r.macroIx * 2 ^ 21 + r.spare * 2 ^ 19 + r.row * 2 ^ 12)
    | none => 0

/-- Spare rows of memory m in use. -/
def sparesUsed (s : State) (m : Nat) : Nat := (s.repairs.filter (fun r => r.mem == m)).length

end Sys2Proof.Machine
end

