-- ==== Sys2Proof/Machine/Outside.lean ====
section
/-! DEFINITION. What the outside sees of the device without asking it (R80, R519, R521): pins that go to high impedance,
the forwarded reference, the ring bypass, the gates of the head power channels, and the instructions of the boundary-scan TAP. -/

set_option Elab.async false

namespace Sys2Proof.Machine

open Sys2Proof

/-- An interface whose function is bit b of READY is inactive (R80): in reset, in Winter, or in Thaw before that
function is ready. -/
def inactive (b : Nat) (s : State) : Bool := !(awake s) || (inSeason .thaw s && !(rdy s b))

/-- The levels of HALT_REQ and OVERSPEED, none at high impedance (R80, R521). The firing function is taken to be READY
bit 12: notes/assumptions/117.md. -/
def haltReqPin (s : State) : Option Bool := if inactive 12 s then none else some s.fire.halt.haltReq
def overspeedPin (s : State) : Option Bool := if inactive 12 s then none else some s.fire.overspeed

/-- The ENCOUT pins are driven (R80, R393): their function is a position source, READY bits 13 to 15. -/
def encoutDriven (s : State) : Bool := !((List.range 3).all (fun i => inactive (13 + i) s))

/-- The AUX drivers are not at high impedance (R80, R400). Their function is taken to be READY bit 15, motion, since bit 16
needs replies to frames that they send (notes/assumptions/117.md). -/
def auxDriven (s : State) : Bool := !(inactive 15 s)

/-- REFOUTk is on (R344, R80): the reference PLL is ready, and one of the head lanes HD4k to HD4k + 3 is enabled. -/
def refoutOn (s : State) (k : Nat) : Bool :=
  awake s && rdy s 4 && (List.range 4).any (fun i => bitOf (getW s Obj.laneCfg (6 + 4 * k + i)) 35)

/-- The pin TRIGk is at its active level at an instant in 1/64 tick: the pulses of every unit that drives it combine by
logical OR (R168). -/
def trigPinActive (s : State) (k x : Nat) : Bool :=
  s.sent.any (fun e => match e with
    | .pulse pin _ width start => pin == k && decide (start ≤ x) && decide (x < start + 64 * width)
    | _ => false)

/-- The bypass of RNGA and RNGB conducts (R80, R121). -/
def bypassConducts (s : State) : Bool := !s.pwr.bypassOpen

/-- The gate of head power channel n is driven above its source (R80, R470): in RAMP and in ON. -/
def gateDriven (s : State) (n : Nat) : Bool :=
  match s.hpc.chans[n]? with
  | some c => awake s && (c.state == .ramp || c.state == .on)
  | none => false

/-- Instructions of the boundary-scan TAP (R519). -/
inductive TapInstr where
  | idcode | bypass | samplePreload | extest | highz | clamp | extestPulse | extestTrain
deriving DecidableEq, Repr

/-- The word that IDCODE shifts out: version, part, manufacturer, 1 (R519). -/
def tapIdcode : BitVec 32 := BitVec.ofNat 32 (1 * 2 ^ 28 + 0x3648 * 2 ^ 12 + 0x4F3 * 2 + 1)

/-- The TAP supports the instruction: in Winter IDCODE and BYPASS alone, else every one (R80, R519). -/
def tapSupports (s : State) : TapInstr → Bool
  | .idcode | .bypass => true
  | .samplePreload | .extest | .highz | .clamp | .extestPulse | .extestTrain => !(inSeason .winter s) && s.pwr.railsOut == 0

end Sys2Proof.Machine
end

