-- ==== Sys2Proof/Machine/Bond.lean ====
section
/-! DEFINITION. The serial lanes themselves (R171 to R196), the bond of the raster lanes, its messages, and credits
(R185 to R187, R211 to R221). -/

namespace Sys2Proof.Machine

open Sys2Proof

/-- Lane i, and lane i changed. -/
def laneU (s : State) (i : Nat) : Lane := vget s.lanes i State.resetLane
def modLane (i : Nat) (f : Lane → Lane) (s : State) : State := { s with lanes := vmod s.lanes i f }

/-- The bond changed, and the Raster Front End changed. -/
def modBond (f : Bond → Bond) (s : State) : State := { s with bond := f s.bond }
def modRfe (f : Rfe → Rfe) (s : State) : State := { s with rfe := f s.rfe }

/-- Bit of READY whose function a lane serves (R60, R171). -/
def laneFunc (i : Nat) : Nat :=
  if i < 5 then 7 else if i = 5 then 3 else if i < 38 then 12 else if i < 42 then 22 else if i < 46 then 17
  else if i = 46 then 1 else 2

/-- ENABLE of 04.100 LANE_CFG. -/
def laneEnabled (s : State) (i : Nat) : Bool := bitOf (getW s Obj.laneCfg i) 35

/-- PRBS and LOOP of 04.1C0 LANE_TEST. -/
def lanePrbs (s : State) (i : Nat) : Nat := fld (getW s Obj.laneTest i) 35 34
def laneLoop (s : State) (i : Nat) : Nat := fld (getW s Obj.laneTest i) 33 32

/-- The device has a host port that works (R140, R486): a Master or a stand-alone device with strap 00. -/
def hasHost (s : State) : Bool := role s != 2 && s.pwr.strap != 3

/-- The lane works at all: enabled, its function not held, the reference PLL up, and neither a ring port of a stand-alone
device nor the host port of a device that has none (R61, R73, R140, R195, R486). -/
def laneWorks (s : State) (i : Nat) : Bool :=
  laneEnabled s i && !(bitOf (getW s Obj.funcReset 0) (laneFunc i)) && bitOf s.pwr.up 4
    && !(decide (i ≥ 46) && role s == 0) && !(i == 5 && !(hasHost s))

/-- A lane is in service (R195). -/
def laneServes (s : State) (i : Nat) : Bool := laneWorks s i && lanePrbs s i == 0 && laneLoop s i == 0

/-- A lane in service holds symbol lock. -/
def laneUp (s : State) (i : Nat) : Bool := laneServes s i && (laneU s i).lock

/-- Raster lanes selected in 04.000 BOND_CFG. -/
def bondSel (s : State) : Nat := fld (getW s Obj.bondCfg 0) 4 0

/-- The selected raster lanes in service that hold symbol lock. -/
def bondLocked (s : State) : Nat := packBits (fun i => nbit (bondSel s) i && laneUp s i) 5

/-- The READY bit of the function a lane serves follows the locks (R60, R177). Head lanes: R369. -/
def laneReady (i : Nat) (s : State) : State :=
  if i < 5 then setUp 7 (bondLocked s != 0) s
  else if i = 5 then setUp 3 (laneUp s 5) s
  else if i < 38 then s
  else if i < 42 then setUp 22 ((List.range 4).any (fun j => laneUp s (38 + j))) s
  else if i < 46 then setUp 17 ((List.range 4).any (fun j => laneUp s (42 + j))) s
  else setUp (laneFunc i) (laneUp s i) s

/-! Credits and back-channel messages (R211 to R213, R221). -/

/-- LIMIT (R211). -/
def creditLimit (s : State) : Nat := (s.rfe.r / 1024 + 1024) % 2 ^ 26

/-- A credit frame goes out on every active lane (R213). -/
def creditSend (s : State) : State :=
  if !s.bond.formed || s.bond.active == 0 then s else
  let l := creditLimit s
  emit (.credit [wd l, wd (crc32 [wd l])]) (modRfe (fun r => { r with limit := l }) s)

/-- A credit frame follows each change of LIMIT (R213). -/
def creditFollow (s : State) : State := if creditLimit s = s.rfe.limit then s else creditSend s

/-- Words are released (R211). -/
def releaseWords (n : Nat) (s : State) : State :=
  creditFollow (modRfe (fun r => { r with r := (r.r + n) % 2 ^ 36 }) s)

/-- A back-channel message (R221): words 0 and 1, LIMIT, CRC. -/
def backMessage (w0 w1 : Word) (s : State) : State :=
  if s.bond.active == 0 then s else
  let w2 := wd (creditLimit s)
  emit (.backChannel [w0, w1, w2, wd (crc32 [w0, w1, w2])]) s

/-- RESYNC (R214, R215): the value the feeder gives W. -/
def resyncMessage (count : Nat) (s : State) : State := backMessage (wd (2 * 2 ^ 32)) (wd count) s

/-! The highest line rate (R216, R217). -/

/-- The table of R216, in kHz, by RATIO and number of lanes. -/
def rateTable (ratio n : Nat) : Nat :=
  let row : List Nat := match ratio with
    | 0 => [11, 22, 33, 44, 55]
    | 1 => [22, 44, 67, 89, 111]
    | 2 => [33, 66, 99, 132, 160]
    | 3 => [44, 89, 134, 160, 160]
    | 4 => [67, 134, 160, 160, 160]
    | 5 => [29, 59, 89, 119, 149]
    | _ => []
  if n = 0 then 0 else at? row (n - 1) 0

/-- A raster lane's rate in units of 1.25 Gbaud, by its code in LANE_CFG (R171, R196). -/
def rasRate (s : State) (i : Nat) : Nat :=
  match fld (getW s Obj.laneCfg i) 34 32 with
  | 3 => 5
  | 4 => 8
  | _ => 10

/-- MAX_LINE_RATE for a set of lanes, in Hz (R217): 0 while no header has been accepted since the bond formed. -/
def lineRate (s : State) (lanes : Nat) : Nat :=
  if !s.rfe.gotHeader || lanes % 32 = 0 || s.rfe.nblocks = 0 then 0 else
  let r := (bitsOf 5 lanes).foldl (fun m i => min m (rasRate s i)) 10
  min (rateTable s.rfe.ratio (ones 5 lanes) * r * 4096 / (10 * s.rfe.nblocks) * 1000) (getN s Obj.fireFmax 0)

/-- 05.002 MAX_LINE_RATE follows the bond (R217). -/
def rateFollow (s : State) : State :=
  setN Obj.maxLineRate 0 (if s.bond.formed then lineRate s s.bond.active.toNat else 0) s

/-- BOND (R219 to R221): the lanes of the bond from the next page start, raised while page `page` was open. -/
def bondMessage (page lanes : Nat) (s : State) : State :=
  backMessage (wd (1 * 2 ^ 32 + page % 2 ^ 24)) (wd (ones 5 lanes * 2 ^ 33 + lanes % 32 * 2 ^ 28 + lineRate s lanes % 2 ^ 18)) s

/-- The input page open, or the last one. -/
def pageAtLoss (s : State) : Option Nat :=
  match s.rfe.inPage with
  | some x => some x.1
  | none => s.rfe.lastPage

/-- The page a BOND message names: 0 before the first page. -/
def bondPage (s : State) : Nat := (pageAtLoss s).getD 0

/-- The bond forms for the first time (R215) over a set of lanes: counts start at zero, RESYNC, first credit frame. -/
def bondForm (lanes : Nat) (s : State) : State :=
  let s := modBond (fun _ => { formed := true, loose := false, n := ones 5 lanes, active := BitVec.ofNat 5 lanes, lost := 0,
                               announced := none, lossPage := none, offer := false, dsk := none, held := [], ready := none }) s
  let s := modRfe (fun r => { r with first := true, gotHeader := false, c := 0, r := 0, ahead := 0, tables := 0, tableWords := 0,
                                     tableObjs := [] }) s
  creditSend (resyncMessage 0 (rateFollow s))

/-- The lanes over which the bond may form: lanes lost from it stay out until the page ends (R187). -/
def bondReady (s : State) : Nat :=
  if pageInProgress s then bondLocked s &&& (31 - s.bond.lost.toNat) else bondLocked s

/-- The bond forms when every selected lane holds symbol lock, and after R532 when any does (R215, R532;
notes/assumptions/31.md). -/
def bondTry (s : State) : State :=
  if s.bond.formed || bitOf (getW s Obj.funcReset 0) 7 then s
  else if bondReady s != 0 && (s.bond.loose || bondReady s == bondSel s) then bondForm (bondReady s) s
  else s

/-! Symbol lock (R176, R177). -/

/-- The receiver's CTLE code after training, which each gain of lock ends (R177, R188): the code of LANE_EQ where RX_MODE is
fixed, else what adaptation finds, a free value (notes/assumptions/32.md). -/
def trainCtle (i : Nat) (s : State) : State :=
  let eq := getW s Obj.laneEq i
  if fld eq 35 34 = 2 then modLane i (fun l => { l with ctle := fld eq 33 30 }) s
  else takeFree (modLane i (fun l => { l with ctle := (freeVal s).toNat % 16 }) s)

/-- Fill at which a buffer starts (R178, R179): elastic 16, phase half of 16; the HOST lane has neither. -/
def fillStart (i : Nat) : Nat := if i < 5 then 16 else if i = 5 then 0 else 8

/-- A lane gains symbol lock (R176, R177). EV 04.002 is for a lock regained. -/
def lockGain (i : Nat) (s : State) : State :=
  if (laneU s i).lock || !(laneWorks s i) || lanePrbs s i != 0 then s else
  let s := trainCtle i (if (laneU s i).trained then raise 0x04002 [p9 i] s else s)
  let s := modLane i (fun l => { l with lock := true, signal := true, trained := true, bufFill := fillStart i }) s
  laneReady i s

/-- A lane loses symbol lock (R176, R177): cause 1 code-group errors, 2 no signal. Block lock goes with it (R183). -/
def lockDrop (i cause : Nat) (s : State) : State :=
  let s := raise 0x04001 [p9 i, wd cause] s
  let s := modLane i (fun l => { l with lock := false, block := false, losses := satN 8 (l.losses + 1)
                                        signal := l.signal && cause != 2 }) s
  laneReady i s

/-- A lane stops without EV 04.001 (R177, R195, R531): it trains anew when it works again. -/
def laneStop (i : Nat) (s : State) : State :=
  laneReady i (modLane i (fun l => { l with lock := false, block := false, trained := false, prbsLock := false, losses := 0 }) s)

/-- 04.180 LANE_STATUS (R196). What moves between two commands is a free value v at each read: the code of a receiver that
adapts continuously (R188), and a phase buffer's fill, 8 characters and up to 6 either way (R178). -/
def laneStatus (s : State) (i : Nat) (v : Word) : Word :=
  let l := laneU s i
  let l := if l.lock && fld (getW s Obj.laneEq i) 35 34 == 0 then { l with ctle := fld v 3 0 } else l
  let l := if l.lock && decide (i ≥ 6) then { l with bufFill := 2 + fld v 19 4 % 13 } else l
  wd ((if l.lock && lanePrbs s i == 0 then 2 ^ 35 else 0) + (if l.block then 2 ^ 34 else 0) + (if l.signal then 2 ^ 33 else 0)
    + (if i < 5 ∧ nbit s.bond.active.toNat i then 2 ^ 32 else 0) + (if i < 5 then l.pos % 16 * 2 ^ 28 else 0)
    + (if l.prbsLock then 2 ^ 27 else 0) + l.ctle % 16 * 2 ^ 23 + l.bufFill % 64 * 2 ^ 17 + satN 8 l.losses * 2 ^ 9)

/-- 04.001 BOND_STATE (R196). -/
def bondState (s : State) : Word :=
  wd ((if s.bond.formed then 2 ^ 35 else 0) + ones 5 s.bond.active.toNat * 2 ^ 32 + s.bond.lost.toNat * 2 ^ 16 + s.bond.active.toNat)

/-! Lane tests (R190 to R195). -/

/-- Bits inverted by a pending injection leave with the next characters sent (R193). -/
def injectNow (i : Nat) (s : State) : State :=
  let w := getW s Obj.laneTest i
  if !((laneU s i).injecting && laneWorks s i) then s else
  let s := if bitOf w 28 then emit (.injected i 1) s else s
  let s := if bitOf w 27 then emit (.injected i (fld w 26 19)) s else s
  setN Obj.laneTest i (setBit (setBit w 28 false) 27 false).toNat (modLane i (fun l => { l with injecting := false }) s)

/-- Why a lane may not leave service (R195), in the order of R111. -/
def serviceAbort (i : Nat) (s : State) : Nat :=
  if i ≠ 5 ∧ i < 46 then (if pageInProgress s then 0x07 else 0)
  else if i = 5 then (if role s = 2 then 0 else 0x0C)
  else if role s = 2 && !(laneU s (93 - i)).lock then 0x0C else 0

/-- Why a write to 04.1C0 LANE_TEST is refused (R193 to R195), in the order of R111. -/
def laneTestAbort (i : Nat) (v : Word) (s : State) : Nat :=
  let prbs := fld v 35 34
  let loop := fld v 33 32
  let leaves := (prbs != 0 || loop != 0) && lanePrbs s i == 0 && laneLoop s i == 0
  if (laneU s i).injecting && (bitOf v 28 || bitOf v 27) then 0x08
  else if leaves && serviceAbort i s = 0x07 then 0x07
  else if fld v 26 19 = 0 || loop == 3 || (loop == 1 && prbs != 1) || (loop == 2 && prbs != 0) then 0x06
  else if leaves then serviceAbort i s
  else 0

/-- Rates that R171 lists for a lane, as codes of LANE_CFG. -/
def laneRates (i : Nat) : List Nat :=
  if i < 5 then [3, 4, 5] else if i = 5 then [0] else if i < 38 then [1, 2] else if i < 46 then [3, 4, 5] else [0]

/-- Why a write to 04.100 LANE_CFG is refused (R171, R195), in the order of R111. -/
def laneCfgAbort (i : Nat) (v : Word) (s : State) : Nat :=
  let leaves := !(bitOf v 35) && laneEnabled s i
  if leaves && serviceAbort i s = 0x07 then 0x07
  else if !((laneRates i).contains (fld v 34 32)) then 0x06
  else if leaves then serviceAbort i s
  else 0

end Sys2Proof.Machine
end

