-- ==== Sys2Proof/Machine/Commits.lean ====
section
/-! DEFINITION. Page-bound commits (R89 to R100): what a pending commit holds, and how it switches at each boundary. -/

namespace Sys2Proof.Machine

open Sys2Proof

/-- The entries of one object in a store. -/
def objEntries (st : Store) (o : Nat) : Store := st.filter (fun p => p.1 / 2097152 == o)

/-- A store with entries set over it. -/
def overlay (st top : Store) : Store := top.foldl (fun acc p => insertKey acc p.1 p.2) st

/-- Head of an element of a FIRE object (R92): 14 words of 0A.010 for each head (R316), else one element. -/
def fireHead (key : Nat) : Nat :=
  if key / 2097152 = Obj.pulseProfiles then key % 2097152 / 14 else key % 2097152

/-- The object is a FIRE object (R323). -/
def isFireObj (o : Nat) : Bool := decide (o / 4096 = 0x0A)

/-- A head is enabled in 09.000 HEAD_GEOM (R297). -/
def headEnabled (s : State) (h : Nat) : Bool := bitOf (getW s Obj.headGeom (4 * h)) 35

/-- The enabled heads. -/
def enabledHeads (s : State) : List Nat := (List.range 32).filter (headEnabled s)

/-- Open block reads of the active copy of an object learn that it has switched (R107). -/
def markSwitched (o : Nat) (s : State) : State :=
  { s with dict := { s.dict with transfers := s.dict.transfers.map (fun t =>
      t.map (fun t => if t.obj == o && !t.write && !t.shadow then { t with switched := true } else t)) } }

/-- The edge of chain i set in 07.100 CHAIN: e = 0 the start edge, 1 the end edge (R248). -/
def edgeSet (s : State) (i e : Nat) : Bool := bitOf (getW s Obj.chain i) 35 && bitOf (getW s Obj.chain i) (34 - e)

/-- A commit of 07.100 CHAIN has taken effect: an edge forced open whose EDGE bit is set closes again (R272). -/
def chainCommitted (s : State) : State :=
  { s with fabric := { s.fabric with
      forced := BitVec.ofNat 8 (packBits (fun n => nbit s.fabric.forced.toNat n && !(edgeSet s (n / 2) (n % 2))) 8) } }

/-- The object's class is RWB (R12). -/
def isRwb (o : Nat) : Bool :=
  match findObj o with
  | some d => d.cls == .rwb
  | none => false

/-- The active copy of an RWB object takes the values given, unlisted elements their default. The Screen Store's
active copy is memory 3. -/
def switchObj (o : Nat) (vals : Store) (s : State) : State :=
  if !(isRwb o) then s else
  let s := if o = Obj.screenStore then
      let gone := (memU s 3).cells.filter (fun p => !(vals.any (fun v => v.1 % 2097152 == p.1)))
      forEach vals (fun v s => userWrite 3 (v.1 % 2097152) (elemLo v.2) s)
        (forEach gone (fun p s => userWrite 3 p.1 0 s) s)
    else { s with dict := { s.dict with active := overlay (dropObj s.dict.active o) vals } }
  let s := if o = Obj.chain then chainCommitted s else s
  markSwitched o s

/-- The elements of one head of a FIRE object take the values given. -/
def switchHead (o h : Nat) (vals : Store) (s : State) : State :=
  let mine := fun (p : Nat × Elem) => p.1 / 2097152 == o && fireHead p.1 == h
  let act := s.dict.active.filter (fun p => !(mine p))
  { s with dict := { s.dict with active := overlay act (vals.filter mine) } }

/-- Pending commits with their slots, in the order of their page numbers (R91). -/
def pendingCommits (s : State) : List (Nat × Commit) :=
  let all := (List.range 4).filterMap (fun i => (vget s.dict.commits i none).map (fun c => (i, c)))
  all.foldl (fun acc x => acc.takeWhile (fun y => ahead x.2.page y.2.page) ++ [x]
    ++ acc.dropWhile (fun y => ahead x.2.page y.2.page)) []

/-- A commit slot set. -/
def setSlot (i : Nat) (c : Option Commit) (s : State) : State :=
  { s with dict := { s.dict with commits := vset s.dict.commits i c } }

/-- A commit bound to page p switches when page q begins (R91). -/
def reached (p q : Nat) : Bool := p % 2 ^ 24 == q % 2 ^ 24 || ahead q p

/-- Every FIRE object of the commit has switched at every enabled head (R95). -/
def fireDone (s : State) (c : Commit) : Bool := (enabledHeads s).all (fun h => nbit c.heads.toNat h)

/-- A commit that is complete frees its slot; heads that are not enabled take its values then (R95). -/
def finishCommit (i : Nat) (s : State) : State :=
  match vget s.dict.commits i none with
  | none => s
  | some c =>
    let fires := c.objs.filter isFireObj
    let screens := c.objs.filter (fun o => !(isFireObj o))
    if (screens.isEmpty || c.screenDone) && (fires.isEmpty || fireDone s c) then
      let rest := (List.range 32).filter (fun h => !(nbit c.heads.toNat h))
      let s := forEach fires (fun o s => forEach rest (fun h s => switchHead o h c.image s) s) s
      setSlot i none (forEach fires markSwitched s)
    else s

/-- Page q begins at INPUT: the accepted header of its first line group (R91). It is the page most recently begun of R93
(notes/assumptions/39.md). -/
def beginInput (q : Nat) (s : State) : State :=
  let s := { s with dict := { s.dict with
    begunInput := some q
    begunLast := some q } }
  forEach (pendingCommits s) (fun ic s =>
    if reached ic.2.page q then finishCommit ic.1 (setSlot ic.1 (some { ic.2 with inputDone := true }) s) else s) s

/-- Page q begins at SCREEN: the fabric begins its first line group (R91). -/
def beginScreen (q : Nat) (s : State) : State :=
  let s := { s with dict := { s.dict with begunScreen := some q } }
  forEach (pendingCommits s) (fun ic s =>
    if reached ic.2.page q && !ic.2.screenDone then
      let s := forEach (ic.2.objs.filter (fun o => !(isFireObj o))) (fun o s => switchObj o (objEntries ic.2.image o) s) s
      finishCommit ic.1 (setSlot ic.1 (some { ic.2 with inputDone := true, screenDone := true }) s)
    else s) s

/-- Head h reaches its first line of page q: FIRE objects switch for that head (R91, R92). -/
def beginFire (h q : Nat) (s : State) : State :=
  let s := { s with dict := { s.dict with begunFire := some q } }
  forEach (pendingCommits s) (fun ic s =>
    if reached ic.2.page q && !(nbit ic.2.heads.toNat h) then
      let s := forEach (ic.2.objs.filter isFireObj) (fun o s => markSwitched o (switchHead o h (objEntries ic.2.image o) s)) s
      finishCommit ic.1 (setSlot ic.1 (some { ic.2 with inputDone := true, heads := ic.2.heads ||| BitVec.ofNat 32 (2 ^ h) }) s)
    else s) s

/-- The captured values of objects: their shadows now. -/
def capture (s : State) (objs : List Nat) : Store := s.dict.shadow.filter (fun p => objs.contains (p.1 / 2097152))

/-- A dirty TABLE or DOMAIN object has a block write open (R93). -/
def dirtyOpen (s : State) : Bool :=
  s.dict.dirty.any (fun o => s.dict.transfers.toList.any (fun t => match t with
      | some t => t.obj == o && t.write
      | none => false)
    || (match s.dict.inband with
      | some t => t.obj == o
      | none => false))

/-- A dirty TABLE or DOMAIN object has an invalid shadow (R93, R104). -/
def dirtyBad (s : State) : Bool := s.dict.dirty.any (fun o => s.dict.badShadow.contains o)

/-- Why a write to 00.011 COMMIT_PAGE is refused (R93), in the order of R111: 0 where it is not. -/
def commitAbort (p : Nat) (s : State) : Nat :=
  let all := pendingCommits s
  let same := all.any (fun ic => ic.2.page == p)
  if dirtyBad s then 0x0D
  else if dirtyOpen s then 0x08
  else if !same && !s.dict.dirty.isEmpty && all.length == 4 then 0x0E
  else if (match s.dict.begunLast with
      | some l => !(ahead p l)
      | none => false) then 0x06
  else if !same && all.any (fun ic => !(ahead p ic.2.page)) then 0x06
  else 0

/-- COMMIT_PAGE takes effect (R93): the dirty objects join the commit for page p or make a new one. -/
def commitDo (p : Nat) (s : State) : State :=
  if s.dict.dirty.isEmpty then s else
  let objs := s.dict.dirty
  let img := capture s objs
  let s := match (pendingCommits s).find? (fun ic => ic.2.page == p) with
    | some ic =>
      let kept := ic.2.image.filter (fun (e : Nat × Elem) => !(objs.contains (e.1 / 2097152)))
      setSlot ic.1 (some { ic.2 with objs := ic.2.objs.filter (fun o => !(objs.contains o)) ++ objs
                                     image := overlay kept img }) s
    | none =>
      match (List.range 4).find? (fun i => (vget s.dict.commits i none).isNone) with
      | some i => setSlot i (some { page := p, objs := objs, image := img, inputDone := false, screenDone := false,
                                    heads := 0 }) s
      | none => s
  { s with dict := { s.dict with dirty := [] } }

/-- Why a write to 00.012 COMMIT_CANCEL is refused (R98). -/
def cancelAbort (p : Nat) (s : State) : Nat :=
  match (pendingCommits s).find? (fun ic => ic.2.page == p) with
  | none => 0x06
  | some ic => if ic.2.inputDone || ic.2.screenDone || ic.2.heads != 0 then 0x07 else 0

/-- COMMIT_CANCEL takes effect (R98). -/
def cancelDo (p : Nat) (s : State) : State :=
  match (pendingCommits s).find? (fun ic => ic.2.page == p) with
  | none => s
  | some ic => setSlot ic.1 none { s with dict := { s.dict with
      dirty := s.dict.dirty ++ ic.2.objs.filter (fun o => !(s.dict.dirty.contains o)) } }

/-- Why a write of 1 to 00.013 COMMIT_NOW is refused (R99), in the order of R111. -/
def commitNowAbort (s : State) : Nat :=
  if dirtyBad s then 0x0D
  else if dirtyOpen s then 0x08
  else if pageInProgress s then 0x07
  else if !(pendingCommits s).isEmpty then 0x0E
  else 0

/-- COMMIT_NOW takes effect (R99). -/
def commitNowDo (s : State) : State :=
  let objs := s.dict.dirty
  let img := capture s objs
  let s := { s with dict := { s.dict with dirty := [] } }
  forEach objs (fun o s => switchObj o (objEntries img o) s) s

/-- Element i of 00.100 COMMIT_SLOT (R117). -/
def commitSlot (s : State) (i : Nat) : Word :=
  match vget s.dict.commits i none with
  | none => 0
  | some c => wd (2 ^ 35 + (if c.inputDone then 2 ^ 34 else 0) + (if c.screenDone then 2 ^ 33 else 0)
      + (if c.heads != 0 && fireDone s c then 2 ^ 32 else 0) + c.page % 2 ^ 24)

end Sys2Proof.Machine
end

