-- ==== Sys2Proof/Machine/Position.lean ====
section
/-! DEFINITION. Web position (R376 to R388): what each source reads at a tick. -/

namespace Sys2Proof.Machine

open Sys2Proof

/-- The number of 2.5 ns samples at a tick of 1.6 ns (R378, R148). -/
def sampleAt (tick : Nat) : Nat := tick * 16 / 25

/-- Encoder e. -/
def encU (s : State) (e : Nat) : EncUnit := vget s.encs e State.resetEnc

/-- Encoder e changed. -/
def modEnc (e : Nat) (f : EncUnit → EncUnit) (s : State) : State := { s with encs := vmod s.encs e f }

/-- The fine count at sample n, in 1/4,096 count (R381). -/
def encFine (u : EncUnit) (n : Nat) : Int :=
  let frac : Int := if u.period = 0 then 0 else
    clampI 0 4095 (((n - u.newest.toNat) * 4096 / u.period : Nat) : Int)
  u.count * 4096 + u.dir * frac

/-- The position without index correction (R382). -/
def encRaw (u : EncUnit) (n : Nat) : Int :=
  u.pRef + Int.fdiv ((encFine u n - u.fRef) * u.scale + 2 ^ 31) (2 ^ 32)

/-- The part of a correction δ applied after forward travel s (R385). -/
def corrPart (δ travel : Int) : Int := Int.fdiv (δ * clampI 0 (2 ^ 22) travel + 2 ^ 21) (2 ^ 22)

/-- The index correction in force (R385). -/
def encCorr (u : EncUnit) (raw : Int) : Int :=
  u.corrDone + (match u.corrNow with
    | some (δ, at0) => corrPart δ (raw - at0)
    | none => 0)

/-- Position of an encoder at a tick (R382). -/
def encPosAt (u : EncUnit) (tick : Nat) : Int :=
  let raw := encRaw u (sampleAt tick)
  raw + encCorr u raw

/-- Hare's web position at a tick of its cycle (R394). -/
def harePosAt (h : Hare) (tick : Nat) : Int :=
  let j : Int := ((min (tick - h.startTick) 9999 : Nat) : Int)
  Int.fdiv (h.xPrev + Int.fdiv ((h.x - h.xPrev) * j) 10000) (2 ^ 20)

/-- The position of a source: 0 ENC0, 1 ENC1, 2 Hare. -/
def sourcePos (s : State) (src : Nat) : Int :=
  if src = 2 then harePosAt s.hare s.clock.tick else encPosAt (encU s src) s.clock.tick

/-- 0C.001 POS_NOW: the active source, Hare in a ride-through, the held value while unreferenced (R376, R386). -/
def posNow (s : State) : Int :=
  wrapPos (if s.pos.srcState = 0 then sourcePos s s.pos.source
    else if s.pos.srcState = 1 then harePosAt s.hare s.clock.tick
    else s.pos.held)

/-- Speed over the velocity window (R305, R306): the S48 distance and the ticks between latch k and latch k - m, none
before the window is full. -/
def velWindow (s : State) : Option (Int × Nat) :=
  match s.fire.latches[0]?, s.fire.latches[getN s Obj.velWindow 0]? with
  | some (pk, tk), some (pm, tm) => some (wrapPos (pk - pm), tk - tm)
  | _, _ => none

/-- The prediction of the fire time of a boundary in 1/64 tick, with dp and dt (R306); none while the web stands or
runs backward. -/
def predict (s : State) (b : Int) : Option (Int × Int × Int) :=
  match s.fire.latches.head?, velWindow s with
  | some k, some (dp, ticks) =>
    if dp ≤ 0 then none else
    let dt : Int := ticks * 64
    let fp := Int.fdiv (wrapPos (b - k.1) * dt + Int.fdiv dp 2) dp
    some ((k.2 : Int) * 64 + fp - (getN s Obj.flight 0 : Int) * 64, dp, dt)
  | _, _ => none

/-- A prediction exists (R307). -/
def predicts (s : State) : Bool :=
  match velWindow s with
  | some (dp, _) => decide (dp > 0)
  | none => false

/-- Line-start detectors are armed, a head's own page aside (R308, R329, R377). -/
def detectorsArmed (s : State) : Bool :=
  decide (getN s Obj.fireEnable 0 = 1) && !s.pos.backward && decide (s.pos.srcState ≤ 1) && decide (s.fire.halt.phase ≠ 2)

/-- The web is moving: POS_NOW changed within the velocity window (R402). -/
def moving (s : State) : Bool :=
  match velWindow s with
  | some (dp, _) => decide (dp ≠ 0)
  | none => decide ((s.fire.latches.map (·.1)).eraseDups.length > 1)

/-- 0C.002 POS_STATE (R402). -/
def posState (s : State) : Word :=
  wd (s.pos.srcState * 2 ^ 34 + (if moving s then 2 ^ 33 else 0) + (if s.pos.backward then 2 ^ 32 else 0)
    + (if detectorsArmed s then 2 ^ 31 else 0))

/-- 0C.130 ENC_STATUS (R402). -/
def encStatus (u : EncUnit) : Word :=
  wd (u.state * 2 ^ 34 + (if nbit u.wires.toNat 0 then 2 ^ 33 else 0) + (if nbit u.wires.toNat 1 then 2 ^ 32 else 0)
    + (if nbit u.wires.toNat 2 then 2 ^ 31 else 0) + (if u.overspeed then 2 ^ 30 else 0)
    + (if u.indexRef.isSome then 2 ^ 29 else 0))

/-- The state of encoder e set; bit 13 or 14 of READY is its being OK (R380). -/
def setEncState (e st : Nat) (s : State) : State :=
  setUp (13 + e) (st == 1) (modEnc e (fun u => { u with state := st, overspeed := if st = 1 then false else u.overspeed }) s)

/-- P_ref and F_ref set so that encoder e reads p now (R382). -/
def refEnc (e : Nat) (p : Int) (s : State) : State :=
  modEnc e (fun u =>
    let n := sampleAt s.clock.tick
    let c := encCorr u (encRaw u n)
    let at0 := p - c
    { u with pRef := at0, fRef := encFine u n
             corrNow := u.corrNow.map (fun d => (d.1, d.2 + (at0 - encRaw u n))) }) s

/-- Hare loaded with a position p held at a tick, at speed v (R376, R387, R394): x and x_prev are set so that the web
position runs through p at that tick of the present cycle. -/
def loadHare (p : Int) (tick : Nat) (v : Int) (s : State) : State :=
  let x := p * 2 ^ 20 - Int.fdiv (v * ((tick : Int) - s.hare.startTick)) 10000
  { s with hare := { s.hare with xPrev := x, x := x + v, v := v } }

/-- Index judging on encoder e's index at its count (R384, R385). -/
def judgeIndex (e : Nat) (s : State) : State :=
  let u := encU s e
  let cfg := getW s Obj.indexCfg e
  let mode := fld cfg 35 34
  if mode = 0 || u.state != 1 || u.dir < 0 || nbit u.wires.toNat 2 then s else
  match u.indexRef with
  | none => modEnc e (fun u => { u with indexRef := some u.count }) s
  | some cref =>
    let n : Int := fld cfg 25 0
    let diff := u.count - cref
    let k := Int.fdiv (diff + Int.fdiv n 2) n
    let err := diff - k * n
    if k ≥ 1 && decide (err.natAbs ≤ fld cfg 33 26) then
      let s := setI Obj.indexErr e err (modEnc e (fun u => { u with indexRef := some u.count }) s)
      if mode = 2 && err != 0 then
        let δ := -(Int.fdiv (err * 4096 * u.scale + 2 ^ 31) (2 ^ 32))
        let raw := encRaw u (sampleAt s.clock.tick)
        let s := raise 0x0C003 [p9 e, pInt err, pInt δ] s
        modEnc e (fun u => { u with corrDone := encCorr u raw, corrNow := some (δ, raw) }) s
      else s
    else raise 0x0C002 [p9 e, pInt err] s

/-- A correction whose travel is complete is added into 0C.160 INDEX_CORR (R385). -/
def finishCorr (e : Nat) (s : State) : State :=
  let u := encU s e
  let raw := encRaw u (sampleAt s.clock.tick)
  match u.corrNow with
  | some (δ, at0) =>
    if raw - at0 ≥ 2 ^ 22 then
      setI Obj.indexCorr e (getS s 36 Obj.indexCorr e + δ)
        (modEnc e (fun u => { u with corrDone := u.corrDone + δ, corrNow := none }) s)
    else s
  | none => s

/-- Count change of one edge in a format (R378): levels before and after. None where no edge is counted. -/
def edgeCount (format : Nat) (a b a' b' : Bool) : Option Int :=
  match format with
  | 0 =>
    if a != a' && b != b' then none
    else if a != a' then some (if a' != b then 1 else -1)
    else if b != b' then some (if b' == a then 1 else -1)
    else none
  | 1 => if !a && a' then some (if b' then 1 else -1) else none
  | 2 => match !a && a', !b && b' with
    | true, false => some 1
    | false, true => some (-1)
    | _, _ => none
  | _ => none

/-- Encoder e's levels at a sample (R378, R381). -/
def encEdge (e : Nat) (a b : Bool) (n : Nat) (s : State) : State :=
  let u := encU s e
  let cfg := u.cfg
  if u.state = 0 then modEnc e (fun u => { u with a := a, b := b }) s else
  match edgeCount (fld cfg 34 33) u.a u.b a b with
  | none => modEnc e (fun u => { u with a := a, b := b }) s
  | some d =>
    let d := if bitOf cfg 32 then -d else d
    modEnc e (fun u => { u with
      a := a, b := b, count := sgn 36 (pat 36 (u.count + d)), newest := n, dir := d, edges := true
      period := if u.edges && u.dir == d then n - u.newest.toNat else 0 }) s

end Sys2Proof.Machine
end

