-- ==== Sys2Proof/Machine/Heads.lean ====
section
/-! DEFINITION. Heads and head links (chapters 11 to 13): geometry, line frames and command frames, the banks, the
books, late lines, cancellation, and a link going down. -/

set_option Elab.async false

namespace Sys2Proof.Machine

open Sys2Proof

/-- Head h in the Line Scheduler, and head link h. -/
def headU (s : State) (h : Nat) : HeadUnit := vget s.fire.heads h State.resetHead
def modHead (h : Nat) (f : HeadUnit → HeadUnit) (s : State) : State :=
  { s with fire := { s.fire with heads := vmod s.fire.heads h f } }
def linkU (s : State) (h : Nat) : Link := vget s.links h State.resetLink
def modLink (h : Nat) (f : Link → Link) (s : State) : State := { s with links := vmod s.links h f }

/-- OFFSET of head h in 1/4,096 line (R297). -/
def headOffset (s : State) (h : Nat) : Int :=
  sgn 36 (getN s Obj.headGeom (4 * h + 2)) * 4096 + (fld (getW s Obj.headGeom (4 * h + 3)) 11 0 : Int)

/-- L_h: head-lines of the LDS that head h needs (R313). -/
def ldsUse (s : State) (h : Nat) : Nat :=
  if headEnabled s h then ((headOffset s h + 4095) / 4096).toNat else 0

/-- Sum of L_h over the heads below n. -/
def ldsSum (s : State) : Nat → Nat
  | 0 => 0
  | n + 1 => ldsSum s n + ldsUse s n

/-- 09.004 LDS_DEMAND (R313). -/
def ldsDemand (s : State) : Nat := ldsSum s 32

/-- 09.140 LDS_BASE: first LDS word of head h's region (R313). -/
def ldsBase (s : State) (h : Nat) : Nat := if ldsUse s h = 0 then 0 else ldsSum s h * 288

/-- A page in progress, by number. -/
def pageOf (s : State) (p : Nat) : Option Page := s.pages.find? (fun x => x.num == p)

/-- The boundary B_h(y) of a page line (R302), an S48 (R306). -/
def boundary (s : State) (h p y : Nat) : Int :=
  wrapPos ((match pageOf s p with
    | some x => x.origin
    | none => 0) + 4096 * (y : Int) + headOffset s h)

/-- Last page line of a page, once its PAGE_END header has been accepted. -/
def lastLine (x : Page) : Option Nat := x.lastLg.map (fun g => 4 * g + 3)

/-- The page line after (p, y) in the order of the pages. -/
def nextLine (s : State) (p y : Nat) : Option (Nat × Nat) :=
  match pageOf s p with
  | none => none
  | some x =>
    if lastLine x = some y then
      match (s.pages.dropWhile (fun q => q.num != p)).drop 1 with
      | q :: _ => some (q.num, 0)
      | [] => none
    else some (p, y + 1)

/-- The head-line whose line start comes next for head h. Page lines before it have had theirs. -/
def nextHeadLine (s : State) (h : Nat) : Option (Nat × Nat) :=
  match (headU s h).next with
  | some (p, y) =>
    (match pageOf s p with
      | some x => if (match lastLine x with
            | some l => decide (y > l)
            | none => false) then nextLine s p (y - 1) else some (p, y)
      | none => none)
  | none => none

/-- Page line (p, y) is at or after (q, z) in the order of the pages in progress. -/
def atOrAfter (s : State) (p y q z : Nat) : Bool :=
  if p = q then decide (z ≤ y)
  else (s.pages.dropWhile (fun x => x.num != q)).any (fun x => x.num == p)

/-- A halt keeps the line start of a head-line back: at L and after while a halt is in force (R328), all of them in
PHASE 2 (R329). -/
def haltHolds (s : State) (p y : Nat) : Bool :=
  match s.fire.halt.phase with
  | 1 => atOrAfter s p y s.fire.halt.page s.fire.halt.line
  | 2 => true
  | _ => false

/-- Time of n characters of ten bits on head lane h in units of 1/64 tick, at 5.0 or 3.125 Gbaud (R346). -/
def charTime (s : State) (h n : Nat) : Nat := n * (if fld (getW s Obj.laneCfg (6 + h)) 34 32 = 2 then 80 else 128)

/-- Characters of a frame of n words: nine to a word pair, SOF and EOF of two each (R173, R348). -/
def frameChars (n : Nat) : Nat := n / 2 * 9 + 4

/-- Time of one LINE frame in units of 1/64 tick: 1,318 characters (R348). -/
def frameTime (s : State) (h : Nat) : Nat := charTime s h (frameChars 292)

/-- A frame of four words closed by its CRC-32 (R355). -/
def cmdFrame (op fromSeq addr : Nat) (data : Word) : List Word :=
  let w0 := wd (op * 2 ^ 32 + fromSeq % 4096 * 2 ^ 20 + addr % 65536)
  [w0, data, 0, wd (crc32 [w0, data, 0])]

/-- A frame leaves on head lane h as soon as the frame before it has ended: kinds of R348, 1 LINE, 2 TIME, 3 BANK,
4 CMD. -/
def sendHead (h kind : Nat) (ws : List Word) (s : State) : State :=
  emit (.headFrame h kind ws) (modLink h (fun l => { l with
    wireEnd := max l.wireEnd (s.clock.tick * 64) + charTime s h (frameChars ws.length) }) s)

/-- The 14 words of 0A.010 PULSE_PROFILES of a head from an image. -/
def profileWords (img : Store) (h : Nat) : List Word :=
  (List.range 14).map (fun i => match lookupKey img (objKey Obj.pulseProfiles (14 * h + i)) with
    | some e => elemLo e
    | none => 0)

/-- A BANK frame (R360). -/
def bankFrame (bank : Bool) (prof : List Word) : List Word :=
  let ws := wd (if bank then 2 ^ 35 else 0) :: prof
  ws ++ [wd (crc32 ws)]

/-- A bank of a link set. -/
def setBank (h : Nat) (bank : Bool) (x : BankHolds) (s : State) : State :=
  modLink h (fun l => if bank then { l with bank1 := x } else { l with bank0 := x }) s


/-- The pending commit whose profiles serve page p of head h: the latest that p has reached (R91, R361). -/
def profileCommit (s : State) (p : Nat) : Option Commit :=
  ((pendingCommits s).filter (fun ic => ic.2.objs.contains Obj.pulseProfiles && reached ic.2.page p)).getLast?.map (·.2)

/-- What the bank that serves page p must hold: the profiles of the commit in force for it, or the current ones; also where
that commit has switched at the head and the link has come back since (R361). -/
def bankWanted (s : State) (h p : Nat) : BankHolds :=
  match profileCommit s p with
  | some c => if nbit c.heads.toNat h && (linkU s h).bank0 != .commit c.page && (linkU s h).bank1 != .commit c.page
      then .current else .commit c.page
  | none => .current

/-- The bank a LINE frame of page p names, none while its profiles are not loaded (R361, R362). -/
def bankFor (s : State) (h p : Nat) : Option Bool :=
  let l := linkU s h
  let w := bankWanted s h p
  if l.bank0 == w then some false else if l.bank1 == w then some true else none

/-- The scheduled start of head h's next LINE frame under R26, none where no head-line can go: its codes are queued, a
bank holds its profiles, and the fire time of line n - 2 is the start. -/
def nextFrameStart (s : State) (h : Nat) : Option Nat :=
  match nextHeadLine s h with
  | none => none
  | some (p, y) =>
    if (headU s h).queue.any (fun q => q.page == p && q.line == y) && (bankFor s h p).isSome then
      some (max (linkU s h).wireEnd (((headU s h).fireTwo).getD 0))
    else none

/-- A fire-delay run is under way on head port h: it sends no LINE, BANK or TIME frame (R434). -/
def calBusy (s : State) (h : Nat) : Bool := s.cal.running.any (fun r => r.item == 1 && r.target == h / 8)

/-- A frame of lower priority may leave now (R349): it ends before the next LINE frame's scheduled start. A BANK or TIME
frame waits while a fire-delay run is under way (R434). -/
def frameFits (s : State) (h : Nat) (f : HeadFrame) : Bool :=
  if calBusy s h && f.kind != 4 then false else
  match nextFrameStart s h with
  | none => true
  | some a => decide (max (linkU s h).wireEnd (s.clock.tick * 64) + charTime s h (frameChars f.words.length) ≤ a)

/-- Order of priority of the frames that wait (R349): BANK, TIME, then CMD with REG_READ or REG_WRITE. -/
def frameRank (f : HeadFrame) : Nat := match f.kind with
  | 3 => 0
  | 2 => 1
  | _ => 2

/-- A waiting frame behind those of its priority and above. -/
def addFrame : List HeadFrame → HeadFrame → List HeadFrame
  | [], f => [f]
  | x :: rest, f => if frameRank f < frameRank x then f :: x :: rest else x :: addFrame rest f

/-- Frames that wait leave in their order while they fit (R349): a bank holds what its frame brings when it has left. -/
def pumpFrames (h : Nat) : Nat → State → State
  | 0, s => s
  | n + 1, s =>
    match (linkU s h).waiting with
    | [] => s
    | f :: rest =>
      if !(frameFits s h f) then s else
      let s := sendHead h f.kind f.words (modLink h (fun l => { l with waiting := rest }) s)
      pumpFrames h n (match f.bank with
        | some (b, x) => setBank h b x s
        | none => s)

/-- What waits on head lane h leaves as far as it can: with a command that concerns the lane (notes/assumptions/128.md). -/
def pumpHead (h : Nat) (s : State) : State := pumpFrames h (linkU s h).waiting.length s

/-- A frame of priority 3 to 5 of R349: it waits for its place. -/
def sendLow (h : Nat) (f : HeadFrame) (s : State) : State :=
  pumpHead h (modLink h (fun l => { l with waiting := addFrame l.waiting f }) s)

/-- The bank frame for the profiles in force goes to a head, and that bank becomes current (R361). -/
def loadCurrent (h : Nat) (bank : Bool) (s : State) : State :=
  sendLow h { kind := 3, words := bankFrame bank (profileWords s.dict.active h), bank := some (bank, .current) }
    (modLink h (fun l => { l with bankCur := bank }) s)

/-- The page of a commit that a bank holds and that is complete. -/
def bankGone (s : State) : BankHolds → Option Nat
  | .commit p => if (pendingCommits s).any (fun ic => ic.2.page == p) then none else some p
  | _ => none

/-- A complete commit's bank becomes current (R361): of two, the one of the later page. -/
def settleBanks (s : State) : State :=
  forEach (List.range 32) (fun h s =>
    let take := fun (b : Bool) => modLink h (fun l =>
      if b then { l with bank1 := .current, bankCur := true
                         bank0 := if l.bank0 == .current || (bankGone s l.bank0).isSome then .nothing else l.bank0 }
      else { l with bank0 := .current, bankCur := false
                    bank1 := if l.bank1 == .current || (bankGone s l.bank1).isSome then .nothing else l.bank1 })
    match bankGone s (linkU s h).bank0, bankGone s (linkU s h).bank1 with
    | some p, some q => take (ahead q p) s
    | some _, none => take false s
    | none, some _ => take true s
    | none, none => s) s

/-- The book of a head changed (R321). -/
def modBook (h : Nat) (f : Book → Book) (s : State) : State := modHead h (fun u => { u with book := f u.book }) s

/-- A counter of a book wraps modulo 2^36 (R321). -/
def wrap36 (n : Nat) : Nat := n % 2 ^ 36

/-- How one head-line ended (R44). -/
inductive LineEnd where
  | fired
  | skipped
  | inhibited
  | blanked
deriving DecidableEq, Repr

/-- A head-line removed from the LDS, or not found there: its slot is freed and booked (R44, R315). `cause` of
EV 09.002: 1 inhibited, 2 lane down, 3 cancelled, 0 for a slot that is not discarded. -/
def freeSlot (h p y : Nat) (fate : LineEnd) (cause : Nat) (s : State) : State :=
  if !((headU s h).lds.any (fun e => e.1 == p && e.2.1 == y)) then s else
  let s := modHead h (fun u => { u with lds := u.lds.filter (fun e => !(e.1 == p && e.2.1 == y)) }) s
  let s := modBook h (fun b => { b with ldsResident := b.ldsResident - 1 }) s
  if fate = .fired || fate = .skipped then s else
  let s := modBook h (fun b => { b with ldsDiscarded := wrap36 (b.ldsDiscarded + 1) }) s
  if (headU s h).onceDiscard = some p then s
  else raise 0x09002 [p9 h, pPage p, pLine y, wd cause] (modHead h (fun u => { u with onceDiscard := some p }) s)

/-- A head-line is discarded from the LDS for a cause that EV 09.002 has no code for: its code is a free value
(notes/assumptions/121.md). -/
def discardSlot (h : Nat) (e : Nat × Nat × Nat) (s : State) : State :=
  freeSlot h e.1 e.2.1 .blanked (freeVal s).toNat (takeFree s)

/-- Head-lines of head h in the LDS that a choice picks are discarded; those of committed lines stay until they have fired
(R342). -/
def discardLds (h : Nat) (which : Nat × Nat × Nat → Bool) (s : State) : State :=
  let u := headU s h
  forEach (u.lds.filter (fun e => which e && !(u.committed.any (fun c => c.page == e.1 && c.line == e.2.1)))) (discardSlot h) s

/-- Head h is excluded from the evidence lines whose footprint holds a page line that it did not fire (R425). -/
def excludeHead (h p y : Nat) (s : State) : State :=
  let hit := fun (e : EvidenceSlot) => e.page == p && decide (e.line ≤ y) && decide (y < e.line + e.lines)
  { s with insp := { s.insp with fox := { s.insp.fox with slots := s.insp.fox.slots.map (fun e =>
      if hit e then { e with excluded := e.excluded ||| BitVec.ofNat 32 (2 ^ h) } else e) } } }

/-- The outcome of a line start in the book of the head: LINE_STARTS and one outcome rise together (R44, R45), and
the queue entry and the LDS slot go. -/
def bookLine (h p y : Nat) (fate : LineEnd) (cause : Nat) (s : State) : State :=
  let s := modBook h (fun b =>
    let b := { b with lineStarts := wrap36 (b.lineStarts + 1) }
    match fate with
    | .fired => { b with fired := wrap36 (b.fired + 1) }
    | .skipped => { b with skipped := wrap36 (b.skipped + 1) }
    | .inhibited => { b with inhibited := wrap36 (b.inhibited + 1) }
    | .blanked => { b with blanked := wrap36 (b.blanked + 1) }) s
  let s := if fate = .fired then s else excludeHead h p y s
  let s := freeSlot h p y fate cause s
  modHead h (fun u => { u with queue := u.queue.filter (fun q => !(q.page == p && q.line == y))
                               lateLines := u.lateLines.filter (fun e => !(e.1 == p && e.2 == y)) }) s

/-- OVERSPEED is released when every enabled head has had 1,024 line starts in a row without a skip (R337). -/
def releaseOverspeed (s : State) : State :=
  if s.fire.overspeed && (enabledHeads s).all (fun h => decide ((headU s h).noSkip ≥ 1024)) then
    emit (.overspeed false) { s with fire := { s.fire with overspeed := false } }
  else s

/-- A head-line has had its line start: the head goes on to the next one, and a head that resumes has resumed
(R308, R334). `fire` is its fire time where it was committed. -/
def lineStarted (h p y : Nat) (skip : Bool) (fire : Option Nat) (s : State) : State :=
  let nx := nextLine s p y
  let s := modHead h (fun u => { u with
    fireTwo := u.fireOne
    fireOne := fire
    starts := u.starts + 1
    next := some (match nx with
      | some q => q
      | none => (p, y + 1))
    noSkip := if skip then 0 else u.noSkip + 1
    resume := if u.resume = some (p, y) then none else u.resume }) s
  let s := releaseOverspeed s
  if s.fire.halt.phase = 3 && (enabledHeads s).all (fun h => (headU s h).resume.isNone) then
    raise 0x0A005 [pPage s.fire.halt.page, pLine s.fire.halt.line]
      { s with fire := { s.fire with halt := { s.fire.halt with phase := 0 } } }
  else s

/-- The line is late for a head: its page line is (R325), or this head-line alone (R28). -/
def isLate (s : State) (h p y : Nat) : Bool :=
  s.fire.late.contains (p, y) || (headU s h).lateLines.contains (p, y)

/-- A halt begins at page line y of page p (R327). -/
def beginHalt (p y : Nat) (s : State) : State :=
  if s.fire.halt.phase = 1 || s.fire.halt.phase = 2 then s else
  let s := setN Obj.haltLine 0 (min y (2 ^ 18 - 1)) (setN Obj.haltPage 0 (p % 2 ^ 24) s)
  let s := { s with fire := { s.fire with halt :=
    { phase := 1, page := p, line := y, dataReady := false, behind := false, haltReq := true } } }
  raise 0x0A003 [pPage p, pLine y] (emit (.haltReq true) s)

/-- EV 05.002, at most once per line group (R326). -/
def lateEvent (p y n : Nat) (s : State) : State :=
  if s.fire.lateEvents.contains (p, y / 4) then s else
  raise 0x05002 [pPage p, wd (y / 4), pLine y, wd n]
    { s with fire := { s.fire with lateEvents := s.fire.lateEvents ++ [(p, y / 4)] } }

/-- The lines of a line group that were late at hand-over are all known: EV 05.002 gives their number (R326). -/
def lateFlush (s : State) : State :=
  match s.fire.lateNow with
  | none => s
  | some (p, y, n) => lateEvent p y n { s with fire := { s.fire with lateNow := none } }

/-- Page lines y to y + n - 1 of a page are late under BLANK (R325). -/
def markLate (p y n : Nat) (s : State) : State :=
  { s with fire := { s.fire with late := s.fire.late ++
      ((List.range n).map (fun i => (p, y + i))).filter (fun e => !(s.fire.late.contains e)) } }

/-- A line group is late at its check instant (R325): BLANK marks its lines, HALT halts at the first (R327). -/
def lateGroup (p y : Nat) (s : State) : State :=
  let s := lateEvent p y 4 s
  if getN s Obj.latePolicy 0 = 0 then markLate p y 4 s else beginHalt p y s

/-- A page line is late at its hand-over instant (R325). Under BLANK the number of late lines of its line group is known
when the last of them has been handed over, and EV 05.002 waits for it (R326; notes/assumptions/119.md). -/
def lateAtHandOver (p y : Nat) (s : State) : State :=
  if getN s Obj.latePolicy 0 ≠ 0 then beginHalt p y (lateEvent p y 1 s) else
  let s := markLate p y 1 s
  match s.fire.lateNow with
  | some (q, z, n) =>
    if q = p ∧ z / 4 = y / 4 then { s with fire := { s.fire with lateNow := some (q, z, n + 1) } }
    else { lateFlush s with fire := { (lateFlush s).fire with lateNow := some (p, y, 1) } }
  | none =>
    if s.fire.lateEvents.contains (p, y / 4) then s
    else { s with fire := { s.fire with lateNow := some (p, y, 1) } }

/-- A head-line alone is late (R28). The EV 05.002 that waits for its line group tells of it. -/
def lateHeadLine (h p y : Nat) (s : State) : State :=
  let s := if s.fire.lateNow.any (fun l => l.1 == p && l.2.1 / 4 == y / 4) then s else lateEvent p y 1 s
  if getN s Obj.latePolicy 0 = 0 then
    modHead h (fun u => { u with lateLines := if u.lateLines.contains (p, y) then u.lateLines else u.lateLines ++ [(p, y)] }) s
  else beginHalt p y s

/-- The first head-line of a page that a cooled head reaches restores it (R339). -/
def restoreAtPage (h p y : Nat) (s : State) : State :=
  if y = 0 && (headU s h).inhibited && (headU s h).cooled then
    raise 0x0B005 [p9 h, pInt (getS s 36 Obj.headTemp h), pPage p]
      (modHead h (fun u => { u with inhibited := false, cooled := false }) s)
  else s

/-- A head-line that has had its line start without a frame waits for its fire time (R91). -/
def passLine (h p y : Nat) (s : State) : State := modHead h (fun u => { u with passed := u.passed ++ [(p, y, u.starts)] }) s

/-- A line of the head's own value of a FIRE object, for its page p (R91, R92): what the latest commit that p has reached
holds, as long as it has not switched at the head, else the value in force. -/
def fireElem (s : State) (h p o i : Nat) : Elem :=
  match ((pendingCommits s).filter (fun ic => ic.2.objs.contains o && reached ic.2.page p && !(nbit ic.2.heads.toNat h))).getLast? with
  | some ic => (lookupKey ic.2.image (objKey o i)).getD (el (dfltOf s.pwr.grade s.pwr.strap.val o i))
  | none => getE s o i

/-- The same as a word, a number, and a signed number of n bits. -/
def fireW (s : State) (h p o i : Nat) : Word := elemLo (fireElem s h p o i)
def fireN (s : State) (h p o i : Nat) : Nat := (fireW s h p o i).toNat
def fireS (s : State) (n h p o i : Nat) : Int := sgn n (fireN s h p o i)

/-- A committed line that will not fire counts as blanked (R310, R340, R357). -/
def blankCommitted (h : Nat) (c : Committed) (cause : Nat) (s : State) : State :=
  let s := modHead h (fun u => { u with committed := u.committed.filter (fun x => !(x.page == c.page && x.line == c.line))
                                        passed := u.passed ++ [(c.page, c.line, c.start)] }) s
  bookLine h c.page c.line .blanked cause s

/-- Every committed line that has not fired is cancelled (R310, R356): of the lines of a head whose link is READY, those
with FIRE more than 100 ns, 4,000 units, after the last character of the CANCEL frame reaches the bridge, behind the frame
on the lane, are blanked; the rest fire. A link that is not READY carries no CANCEL (R369), and what R340 counts stands. -/
def cancelCommitted (s : State) : State :=
  forEach (List.range 32) (fun h s =>
    if (linkU s h).state != .ready then s else
    match (headU s h).committed.filter (fun c => decide (c.fire > s.clock.tick * 64)) with
    | [] => s
    | c :: cs =>
      let s := sendHead h 4 (cmdFrame 1 c.lseq 0 0) s
      let arrive : Int := ((linkU s h).wireEnd : Int) + (linkU s h).delay
      forEach ((c :: cs).filter (fun c => decide ((c.fire : Int) > arrive + 4000))) (fun c s => blankCommitted h c 3 s) s) s

/-- Code of HEAD_LINK STATE (R374). -/
def linkCode : LinkState → Nat
  | .off => 0
  | .training => 1
  | .timing => 2
  | .ready => 3
  | .down => 4

/-- Bit 12 of READY: at least one link is READY (R369). -/
def anyLinkReady (s : State) : Bool := s.links.toList.any (fun l => l.state == .ready)

/-- A link leaves READY (R340, R370): a line whose frame has ended counts as fired, any other committed line as
blanked. -/
def linkDown (h cause : Nat) (s : State) : State :=
  if (linkU s h).state != .ready then s else
  let s := modLink h (fun l => { l with
    state := .down, cause := cause, downs := satN 12 (l.downs + 1), marks := [], rtts := [], waiting := [], echoed := false }) s
  let s := raise 0x0B001 [p9 h, wd cause] s
  let s := forEach ((headU s h).committed.filter (fun c => decide (c.frameEnd > s.clock.tick * 64)))
    (fun c s => blankCommitted h c 2 s) s
  setUp 12 (anyLinkReady s) s

/-- A link goes to OFF or TRAINING because its lane is held, disabled or enabled (R369). -/
def linkTo (h : Nat) (st : LinkState) (s : State) : State :=
  let s := if (linkU s h).state = .ready then linkDown h 7 s else s
  modLink h (fun l => { l with state := st, marks := [], rtts := [], waiting := [] }) s

/-- A link enters READY (R350, R361, R369): LSEQ starts at 0, the active profiles go into bank 0, the earliest pending
commit's into the other, and the bridge identifies itself. The TIME frame of the last marker goes with it (R368). -/
def linkReady (h : Nat) (time : HeadFrame) (s : State) : State :=
  let s := modLink h (fun l => { l with
    state := .ready, lseq := 0, bank0 := .nothing, bank1 := .nothing, idRead := true, waiting := [] }) s
  let s := raise 0x0B002 [p9 h, pNum (getN s Obj.linkDelay h)] s
  let s := loadCurrent h false (sendLow h time s)
  let s := match (pendingCommits s).find? (fun ic => ic.2.objs.contains Obj.pulseProfiles) with
    | some ic => sendLow h { kind := 3, words := bankFrame true (profileWords ic.2.image h)
                             bank := some (true, .commit ic.2.page) } s
    | none => s
  setUp 12 true (sendLow h { kind := 4, words := cmdFrame 3 0 0 0, bank := none } s)

/-- Head lanes command idle at once; lines committed and not yet fired count as blanked (R69, R357). -/
def forceIdle (s : State) : State :=
  forEach (List.range 32) (fun h s =>
    if (linkU s h).state = .ready then
      let s := sendHead h 4 (cmdFrame 2 0 0 0) s
      forEach ((headU s h).committed.filter (fun c => decide (c.fire > s.clock.tick * 64)))
        (fun c s => blankCommitted h c 3 s) s
    else s) s

/-- The active source is lost (R386): POS_NOW holds its last value, the source is unreferenced, EV 0C.007 is raised
with the cause, and the committed lines are cancelled (R310). -/
def holdSource (cause : Nat) (s : State) : State :=
  let p := posNow s
  cancelCommitted (raise 0x0C007 [p9 s.pos.source, wd cause] { s with pos := { s.pos with held := p, srcState := 2 } })

/-- n pages have ended: a ride-through may reach its limit (R387). -/
def rideCount (n : Nat) (s : State) : State :=
  if s.pos.srcState != 1 then s
  else if s.pos.rideLimit ≤ n then holdSource 3 { s with pos := { s.pos with rideLimit := 0 } }
  else { s with pos := { s.pos with rideLimit := s.pos.rideLimit - n } }

/-- A page ends when every enabled head has reached its last line (R89, R95). What waits for the next line of an
ended page waits for the page after it; line groups of an ended page still held are discarded (R211). -/
def endPages (s : State) : State :=
  let done := fun (x : Page) => x.lastLg.isSome && (enabledHeads s).all (fun h => nbit x.heads.toNat h)
  let ended := s.pages.filter done
  if ended.isEmpty then s else
  let gone := fun (p : Nat) => ended.any (fun x => x.num == p)
  let first := (s.pages.filter (fun x => !(done x))).head?.map (fun x => (x.num, 0))
  let onward := fun (l : Option (Nat × Nat)) => if l.any (fun x => gone x.1) then first.orElse (fun _ => l) else l
  let left := s.rfe.groups.filter (fun g => gone g.page)
  let s := releaseWords ((left.filter (fun g => g.rows.isNone)).foldl (fun n g => n + g.charge) 0) s
  bondTry (rideCount ended.length { s with
    rfe := { s.rfe with groups := s.rfe.groups.filter (fun g => !(gone g.page)) }
    pages := s.pages.filter (fun x => !(done x))
    fire := { s.fire with
      handNext := onward s.fire.handNext
      heads := s.fire.heads.map (fun u => { u with next := onward u.next })
      late := s.fire.late.filter (fun e => !(gone e.1))
      unscreened := s.fire.unscreened.filter (fun e => !(gone e.1))
      lateEvents := s.fire.lateEvents.filter (fun e => !(gone e.1)) } })

/-- The input page p ends at line group lg (R203, R531): heads that are already past its last line have reached it. -/
def closeInput (p lg : Nat) (s : State) : State :=
  let last := 4 * lg + 3
  let past := fun (h : Nat) =>
    let u := headU s h
    (match u.next with
      | some (q, y) => if q = p then decide (y > last) else (s.pages.dropWhile (fun x => x.num != p)).any (fun x => x.num == q)
      | none => false)
    && !(u.committed.any (fun c => c.page == p && decide (c.line ≤ last))) && !(u.passed.any (fun c => c.1 == p && decide (c.2.1 ≤ last)))
  let mask := packBits past 32
  endPages { s with
    rfe := { s.rfe with inPage := none, lastPage := some p }
    pages := s.pages.map (fun x => if x.num == p then { x with lastLg := some lg, heads := x.heads ||| BitVec.ofNat 32 mask } else x) }

/-- The codec state changed. -/
def modCodec (f : Codec → Codec) (s : State) : State := { s with codec := f s.codec }

/-- The level moves at an epoch boundary, or resets (R234). -/
def epochStep (g : Nat) (c : Codec) : Codec :=
  if g % 256 = 0 then
    { c with level := 4, n0 := 0, n1 := 0, n2 := 0, n3 := 0, oos := false, oosApplies := false, counted := false, epoch := g / 16 }
  else if g % 16 = 0 then
    let n := (c.n0 + c.n1 + c.n2 + c.n3) / 4
    let a := if c.n3 > c.n0 + n then min (c.level + 1) 12 else if c.n0 > c.n3 + n then c.level - 1 else c.level
    { c with level := a, n0 := 0, n1 := 0, n2 := 0, n3 := 0, oosApplies := c.oos, counted := false, epoch := g / 16 }
  else c

/-- Line groups first to first + n - 1 of page p that the decoder does not take pass their epoch boundaries; they
leave the counts incomplete unless they came with TMODE 0 (R234, R235; notes/assumptions/34.md). -/
def passGroups (s : State) (p : Nat) : Nat → Nat → Codec → Codec
  | 0, _, c => c
  | n + 1, g, c =>
    let c := epochStep g c
    let static := s.rfe.groups.any (fun x => x.page == p && x.lg == g && !x.tmode)
    passGroups s p n (g + 1) (if static then c else { c with oos := true })

/-- The line group that the Block Decoder comes to next: after the last one it took or passed, on its page or the next. -/
def codecNext (s : State) : Option (Nat × Nat) :=
  match s.codec.lastLg with
  | none => none
  | some (q, l) =>
    if s.pages.any (fun x => x.num == q && (x.lastLg.isNone || decide (l + 1 < x.nextLg))) then some (q, l + 1)
    else (s.pages.find? (fun x => ahead x.num q)).map (fun x => (x.num, 0))

/-- The Block Decoder will not take a line group: a later header of its page has been accepted and its own never was, or it
is late under BLANK (R235, R325). -/
def codecLost (s : State) (p lg : Nat) : Bool :=
  match s.rfe.groups.find? (fun g => g.page == p && g.lg == lg) with
  | some g => g.late && g.rows.isNone
  | none => s.pages.any (fun x => x.num == p && decide (lg < x.nextLg))

/-- The decoder passes the line groups that it will not take, up to the next one it may (R234, R235). -/
def codecPass : Nat → State → State
  | 0, s => s
  | n + 1, s => match codecNext s with
    | none => s
    | some (p, lg) =>
      if codecLost s p lg then codecPass n (modCodec (fun c => { passGroups s p 1 lg c with lastLg := some (p, lg) }) s) else s

/-- The same, as far as headers tell. -/
def codecFollow (s : State) : State := codecPass (s.pages.foldl (fun n x => n + x.nextLg) 0) s

/-- The input page p is cut short after line group lg: the header of its last line group is never accepted (R203, R235). -/
def closeCut (p lg : Nat) (s : State) : State :=
  closeInput p lg (codecFollow { s with pages := s.pages.map (fun x => if x.num == p then { x with nextLg := lg + 2 } else x) })

/-- Word w of 0A.011 HEAD_BOOK (R321). -/
def bookWord (s : State) (w : Nat) : Word :=
  let b := (headU s (w / 8)).book
  wd (match w % 8 with
    | 0 => b.lineStarts
    | 1 => b.fired
    | 2 => b.skipped
    | 3 => b.inhibited
    | 4 => b.blanked
    | 5 => b.ldsWritten
    | 6 => b.ldsDiscarded
    | _ => b.ldsResident)

/-- 0A.020 HALT_STATE (R343). -/
def haltState (s : State) : Word :=
  let x := s.fire.halt
  wd (x.phase * 2 ^ 34 + (if x.dataReady then 2 ^ 33 else 0) + (if x.behind then 2 ^ 32 else 0)
    + (if x.haltReq then 2 ^ 31 else 0)
    + ((enabledHeads s).filter (fun h => (headU s h).resume.isSome)).length)

/-- 0B.100 HEAD_LINK (R374). -/
def headLink (l : Link) : Word :=
  wd (linkCode l.state * 2 ^ 33 + l.cause * 2 ^ 29 + (if l.bankCur then 2 ^ 28 else 0)
    + (if l.bank0Valid then 2 ^ 27 else 0) + (if l.bank1Valid then 2 ^ 26 else 0) + (if l.idle then 2 ^ 25 else 0)
    + (if l.refLock then 2 ^ 24 else 0) + l.firedSeq % 4096 * 2 ^ 12 + satN 12 l.downs)

end Sys2Proof.Machine
end

