-- ==== Sys2Proof/Machine/Nozzle.lean ====
section
/-! DEFINITION. The Nozzle Table (chapter 10): entries, the plausibility checks, commits bound to a page or made at
once, the switch with its seeding copy, and the generations of Fox proposals. The active copy is memory 2 from word 0,
the shadow from word 110,592. -/

namespace Sys2Proof.Machine

open Sys2Proof

/-- Nozzles of the device, and of a head (R16). -/
def nozzleCount : Nat := 110592
def headNozzles : Nat := 3456

/-- Words lo to lo + n - 1 of memory m as user reads give them. -/
def memImage (s : State) (m lo n : Nat) : Array Nat :=
  ((memU s m).cells.filter (fun c => decide (lo ≤ c.1) && decide (c.1 < lo + n))).foldl
    (fun a c => a.setIfInBounds (c.1 - lo) (peek s m c.1).toNat) (Array.replicate n (blankWord m).data.toNat)

/-- Merge entries of memory m in an address range are evicted, as a read of each word does (R455). -/
def evictRange (m lo hi : Nat) (s : State) : State :=
  forEach ((memU s m).merge.filter (fun e => decide (lo ≤ e.addr) && decide (e.addr < hi))) (fun e s => evictEntry m e s) s

/-- The active copy and the shadow as they read, and the effects of reading all of each. -/
def ntActive (s : State) : Array Nat := memImage s 2 0 nozzleCount
def ntShadow (s : State) : Array Nat := memImage s 2 nozzleCount nozzleCount
def ntTouch (shadow : Bool) (s : State) : State :=
  let lo := if shadow then nozzleCount else 0
  readRange 2 lo (lo + nozzleCount) (evictRange 2 lo (lo + nozzleCount) s)

/-- Fields of an entry (R277). -/
def ntState (e : Nat) : Nat := e / 2 ^ 33 % 8
def ntGain (e : Nat) : Nat := e / 2 ^ 23 % 1024
def ntOffset (e : Nat) : Int := sgn 8 (e / 2 ^ 15 % 256)
def ntCap (e : Nat) : Nat := e / 2 ^ 12 % 8
def ntSpread (e : Nat) : Nat := e / 2 ^ 6 % 64
def ntClass (e : Nat) : Nat := e / 4 % 16
def ntSource (e : Nat) : Nat := e % 4

/-- The state of an entry is masked by 07.003 STATE_MASK (R251, R278). -/
def ntMasked (mask e : Nat) : Bool := nbit mask (ntState e)

/-- Check c of R284, c from 1 to 6, fails for an entry. -/
def entryFails (s : State) (c e : Nat) : Bool :=
  match c with
  | 1 => ntState e == 6 || ntSource e == 3
  | 2 => !(ntMasked (getN s Obj.stateMask 0) e)
      && (decide (ntGain e < getN s Obj.gainMin 0) || decide (ntGain e > getN s Obj.gainMax 0))
  | 3 => decide ((ntOffset e).natAbs > getN s Obj.offsetLimit 0)
  | 4 => ntState e == 0 && ntSpread e != 0
  | 5 => ntState e != 3 && ntClass e != 0
  | 6 => ntState e == 0 && ntCap e == 0
  | _ => false

/-- The masked nozzles of a head, ascending. -/
def maskedOf (mask : Nat) (tab : Array Nat) (h : Nat) : List Nat :=
  ((List.range headNozzles).map (fun j => h * headNozzles + j)).filter (fun n => ntMasked mask (tab.getD n 0))

/-- The nozzle that makes a run longer than a limit, in an ascending list: the previous nozzle and the run so far. -/
def runFails (limit : Nat) : Option Nat → Nat → List Nat → Option Nat
  | _, _, [] => none
  | prev, run, n :: rest =>
    let run := if prev == some (n - 1) && n != 0 then run + 1 else 1
    if run > limit then some n else runFails limit (some n) run rest

/-- The first failing nozzle of check c (R284). -/
def checkFails (s : State) (tab : Array Nat) (c : Nat) : Option Nat :=
  let mask := getN s Obj.stateMask 0
  if c ≤ 6 then (List.range nozzleCount).find? (fun n => entryFails s c (tab.getD n 0))
  else if c = 7 then (enabledHeads s).findSome? (fun h => (maskedOf mask tab h)[getN s Obj.maskLimit 0]?)
  else (enabledHeads s).findSome? (fun h => runFails (getN s Obj.runLimit 0) none 0 (maskedOf mask tab h))

/-- The first check of R284 that fails and its nozzle: check 1, and those of 08.016 NT_CHECK_EN. -/
def ntCheck (s : State) (tab : Array Nat) : Option (Nat × Nat) :=
  ((List.range 8).map (· + 1)).findSome? (fun c =>
    if c = 1 || bitOf (getW s Obj.ntCheckEn 0) c then (checkFails s tab c).map (fun n => (c, n)) else none)

/-- The Nozzle Table changed. -/
def modNt (f : Nt → Nt) (s : State) : State := { s with nt := f s.nt }

/-- 08.140 HEAD_MASKED follows the active copy (R285). -/
def ntCount (s : State) : State :=
  let tab := ntActive s
  let mask := getN s Obj.stateMask 0
  forEach (List.range 32) (fun h s => setN Obj.headMasked h (maskedOf mask tab h).length s) s

/-- Every listed word of one copy of the table that differs there. -/
def copyAddrs (s : State) : List Nat :=
  let act := ((memU s 2).cells.filter (fun c => decide (c.1 < nozzleCount))).map (·.1)
  let sh := ((memU s 2).cells.filter (fun c => decide (nozzleCount ≤ c.1))).map (fun c => c.1 - nozzleCount)
  sh.foldl (fun acc a => if acc.contains a then acc else acc ++ [a]) act

/-- A switch (R282, R285): the shadow becomes the active copy, and is then seeded from it. -/
def ntSwitch (page : Nat) (s : State) : State :=
  let s := evictRange 2 0 (2 * nozzleCount) s
  let addrs := copyAddrs s
  let s := forEach addrs (fun a s => putCell 2 a (cellAt s 2 (nozzleCount + a)) s) s
  let s := forEach addrs (fun a s =>
    let (w, s) := userRead 2 a s
    userWrite 2 (nozzleCount + a) w s) s
  let s := modNt (fun n => { n with pending := none, seeding := true, hostDirty := [], loading := false }) s
  let s := setUp 10 true (markSwitched Obj.nozzleTable s)
  ntCount (raise 0x08001 [pPage page, 0, 0] s)

/-- A block write is open on 08.000 NOZZLE_TABLE. -/
def ntOpen (s : State) : Bool :=
  s.dict.transfers.toList.any (fun t => match t with
    | some t => t.obj == Obj.nozzleTable && t.write
    | none => false)
  || (match s.dict.inband with
    | some t => t.obj == Obj.nozzleTable
    | none => false)

/-- Why a write of NT_COMMIT is refused before the checks of R284 (R283), in the order of R111; 0 where it is not. -/
def ntCommitAbort (v : Word) (s : State) : Nat :=
  let page := fld v 23 0
  let begun := match s.dict.begunScreen with
    | some q => q == page || ahead q page
    | none => false
  if bitOf v 35 && bitOf v 34 then 0x06
  else if bitOf v 34 then (if begun then 0x07 else if s.nt.pending == some page then 0 else 0x06)
  else if s.dict.badShadow.contains Obj.nozzleTable then 0x0D
  else if ntOpen s || s.nt.seeding then 0x08
  else if bitOf v 35 && pageInProgress s then 0x07
  else if s.nt.pending.isSome then 0x0E
  else if !(bitOf v 35) && begun then 0x06
  else if !(bitOf v 35) && (match s.dict.begunScreen with
      | some q => !(ahead page q)
      | none => false) then 0x06
  else 0

/-- A write of NT_COMMIT (R283 to R285): its abort code, 0 where it is accepted, and the state after it. -/
def ntCommitWrite (v : Word) (s : State) : Nat × State :=
  let page := fld v 23 0
  let abort := ntCommitAbort v s
  if abort ≠ 0 then (abort, s)
  else if bitOf v 34 then (0, modNt (fun n => { n with pending := none }) s)
  else
    let s := ntTouch true s
    match ntCheck s (ntShadow s) with
    | some (c, n) => (if c = 1 then 0x06 else 0x0C, raise 0x08002 [p9 c, pNum n, pPage (if bitOf v 35 then 0 else page), 0] s)
    | none =>
      if bitOf v 35 then (0, ntSwitch 0 (modNt (fun n => { n with lastPage := 0 }) s))
      else (0, modNt (fun n => { n with pending := some page, lastPage := page }) s)

/-- A write of NT_APPROVE is refused (R286). -/
def ntApproveAbort (v : Word) (s : State) : Nat :=
  if (s.nt.stage = 1 || s.nt.stage = 2) && fld v 11 0 = s.nt.generation % 4096 then 0 else 0x06

/-- The staged generation is discarded, or approved now (R286). -/
def ntApproveDo (v : Word) (s : State) : State :=
  if bitOf v 35 then modNt (fun n => { n with stage := 3 }) s
  else if s.nt.stage = 1 then modNt (fun n => { n with stage := 2, approvedAt := s.clock.tick }) s
  else s

/-- A generation is staged (R286): by 08.004 NT_UPDATE_MODE it is discarded, waits, or is approved at once. -/
def ntStage (ps : List Proposal) (s : State) : State :=
  let mode := getN s Obj.ntUpdateMode 0
  markSwitched Obj.ntProposals (modNt (fun n => { n with
    generation := (n.generation + 1) % 4096
    proposals := ps.take 1024
    stage := if mode = 0 then 3 else if mode = 1 then 1 else 2
    approvedAt := s.clock.tick }) s)

/-- An entry with a proposal written into it (R287). -/
def patchEntry (e : Nat) (p : Proposal) : Nat :=
  p.state % 8 * 2 ^ 33 + e % 2 ^ 33 / 2 ^ 12 * 2 ^ 12 + p.spread % 64 * 2 ^ 6 + e % 64 / 4 * 4 + 1

/-- A shadow word is host-dirty (R281). -/
def hostDirty (s : State) (n : Nat) : Bool := s.nt.hostDirty.any (fun r => decide (r.1 ≤ n) && decide (n < r.2))

/-- An approved generation is applied at page q (R287, R288); Fox clears what it holds for the nozzles changed (R430). `wasDirty`: the host-dirty ranges at the moment of a
switch at this boundary. -/
def ntPatch (q : Nat) (wasDirty : List (Nat × Nat)) (s : State) : State :=
  if s.nt.stage != 2 || decide (s.clock.tick < s.nt.approvedAt + 62500) then s else
  let s := ntTouch false s
  let tab := ntActive s
  let todo := s.nt.proposals.filter (fun p =>
    !(wasDirty.any (fun r => decide (r.1 ≤ p.nozzle) && decide (p.nozzle < r.2))) && ntSource (tab.getD p.nozzle 0) != 2)
  let next := todo.foldl (fun (a : Array Nat) p => a.setIfInBounds p.nozzle (patchEntry (a.getD p.nozzle 0) p)) tab
  let gone := modNt (fun n => { n with stage := 3 })
  match ntCheck s next with
  | some (c, n) => gone (raise 0x08002 [p9 c, pNum n, pPage q, 1] s)
  | none =>
    if s.nt.proposals.length > getN s Obj.patchLimit 0 then
      gone (takeFree (raise 0x08002 [9, freeVal s, pPage q, 1] s))
    else
      let s := forEach todo (fun p s => userWrite 2 p.nozzle (wd (next.getD p.nozzle 0)) s) s
      let s := forEach (todo.filter (fun p => !(hostDirty s p.nozzle))) (fun p s =>
        userWrite 2 (nozzleCount + p.nozzle) (wd (patchEntry (peek s 2 (nozzleCount + p.nozzle)).toNat p)) s) s
      let kept := s.insp.fox.sums.filter (fun x => !(todo.any (fun p => p.nozzle == x.1)))
      let s := { s with insp := { s.insp with fox := { s.insp.fox with sums := kept } } }
      ntCount (gone (raise 0x08001 [pPage q, 1, wd s.nt.generation] (markSwitched Obj.nozzleTable s)))

/-- The SCREEN boundary of page q for the Nozzle Table (R285, R287): the pending commit, then an approved patch. -/
def ntBoundary (q : Nat) (s : State) : State :=
  match s.nt.pending with
  | some p => if reached p q then ntPatch q s.nt.hostDirty (ntSwitch p s) else ntPatch q [] s
  | none => ntPatch q [] s

/-- 08.001 NT_COMMIT as it reads (R296). -/
def ntCommitWord (s : State) : Word := wd ((if s.nt.pending.isSome then 2 ^ 35 else 0) + s.nt.lastPage % 2 ^ 24)

/-- 08.003 NT_STATUS (R296). -/
def ntStatusWord (s : State) : Word :=
  wd ((if s.dict.badShadow.contains Obj.nozzleTable then 0 else 2 ^ 35) + (if s.nt.seeding then 2 ^ 34 else 0)
    + (if s.nt.pending.isSome then 2 ^ 33 else 0) + (if s.nt.stage = 1 then 2 ^ 32 else 0)
    + (if s.nt.stage = 2 then 2 ^ 31 else 0) + (if s.nt.hostDirty.isEmpty then 0 else 2 ^ 30) + s.nt.generation % 4096)

/-- Word w of 08.005 NT_PROPOSALS (R296). -/
def proposalWord (s : State) (w : Nat) : Word :=
  if w = 0 then wd (s.nt.generation % 4096 * 2 ^ 24 + s.nt.stage % 4 * 2 ^ 22 + s.nt.proposals.length)
  else match s.nt.proposals[w - 1]? with
    | some p => wd (p.state * 2 ^ 33 + p.spread * 2 ^ 27 + p.nozzle)
    | none => 0

/-- SEEDING_DONE (R282): the copy ends. -/
def execSeedingDone (t : Nat) (s : State) : Host.Outcome State Fault Refusal :=
  happen t (modNt (fun n => { n with seeding := false })) s

end Sys2Proof.Machine
end

