-- ==== Sys2Proof/Machine/Seams.lean ====
section
/-! DEFINITION. Device seams (chapters 09 and 19): which cascade lane serves an edge, which edges are open and why, and
the edge frames themselves. Edge e of chain i: e = 0 the start edge, 1 the end edge; in 07.012 it is bit 2i + e. -/

namespace Sys2Proof.Machine

open Sys2Proof

/-- The fabric changed. -/
def modFab (f : Fabric → Fabric) (s : State) : State := { s with fabric := f s.fabric }

/-- The cascade lane that serves an edge (R490): the enabled element of 13.100 CAS_CFG that names it. -/
def edgeLane (s : State) (i e : Nat) : Option Nat :=
  (List.range 4).find? (fun k =>
    let c := getW s Obj.casCfg k
    bitOf c 35 && fld c 34 34 == e && bitOf c (30 + i))

/-- The set edges that cascade lane k serves, as chain and edge. -/
def laneEdges (s : State) (k : Nat) : List (Nat × Nat) :=
  ((List.range 8).map (fun n => (n / 2, n % 2))).filter (fun x => edgeSet s x.1 x.2 && edgeLane s x.1 x.2 == some k)

/-- An edge is open: no frame crosses it (R270, R272, R491). -/
def edgeOpen (s : State) (i e : Nat) : Bool :=
  !(edgeSet s i e) || nbit s.fabric.forced.toNat (2 * i + e) || nbit s.fabric.unserved.toNat (2 * i + e)
  || decide (getN s Obj.secondInk 0 ≠ 0)
  || (match edgeLane s i e with
    | some k => nbit s.fabric.openLanes.toNat k
    | none => true)

/-- The page and page line that the fabric starts next, while a page is in progress. -/
def fabricLine (s : State) : Option (Nat × Nat) :=
  match s.fabric.work, s.fabric.downFor, s.pages with
  | some w, _, _ => some w
  | none, some d, x :: _ => if s.pages.any (fun y => y.num == d.1) then some d else some (x.num, 0)
  | none, none, x :: _ => some (x.num, 0)
  | none, _, [] => none

/-- EV 13.001 (R491). Outside a page its page and line, and with no lane its lane, are free values. -/
def seamEvent (lane : Option Nat) (cause : Nat) (s : State) : State :=
  let (a, s) := match lane with
    | some k => (p9 (38 + k), s)
    | none => (freeVal s, takeFree s)
  match fabricLine s with
  | some (p, y) => raise 0x13001 [a, wd cause, pPage p, pLine y] s
  | none =>
    let (p, s) := (freeVal s, takeFree s)
    let (y, s) := (freeVal s, takeFree s)
    raise 0x13001 [a, wd cause, p, y] s

/-- Edges are forced open (R272). -/
def forceEdges (es : List (Nat × Nat)) (s : State) : State :=
  modFab (fun f => { f with forced := es.foldl (fun b x => b ||| BitVec.ofNat 8 (2 ^ (2 * x.1 + x.2))) f.forced }) s

/-- Cascade lane k no longer serves its edges, for cause 1 or 2 of R491: they are open, and during a page forced open. A
lane that serves no set edge opens none. -/
def seamDown (k cause : Nat) (s : State) : State :=
  match laneEdges s k with
  | [] => s
  | es =>
    let s := seamEvent (some k) cause s
    let s := if pageInProgress s then forceEdges es s else s
    modFab (fun f => { f with openLanes := f.openLanes ||| BitVec.ofNat 4 (2 ^ k) }) s

/-- A page starts at SCREEN (R491): lanes in lock close the edges that are not forced, a lane without lock or out of
service opens its edges, and an edge that no element serves is open under cause 4. -/
def seamPage (s : State) : State :=
  let s := forEach (List.range 4) (fun k s =>
    let ok := laneServes s (38 + k) && (laneU s (38 + k)).lock
    let down := nbit s.fabric.openLanes.toNat k
    if ok || (laneEdges s k).isEmpty then
      modFab (fun f => { f with openLanes := f.openLanes &&& ~~~ BitVec.ofNat 4 (2 ^ k) }) s
    else if down then s
    else
      modFab (fun f => { f with openLanes := f.openLanes ||| BitVec.ofNat 4 (2 ^ k) })
        (seamEvent (some k) (if laneServes s (38 + k) then 1 else 2) s)) s
  forEach (List.range 8) (fun n s =>
    let now := edgeSet s (n / 2) (n % 2) && ((edgeLane s (n / 2) (n % 2)).isNone || decide (getN s Obj.secondInk 0 ≠ 0))
    let was := nbit s.fabric.unserved.toNat n
    let s := if now && !was then seamEvent (edgeLane s (n / 2) (n % 2)) 4 s else s
    modFab (fun f => { f with unserved :=
      if now then f.unserved ||| BitVec.ofNat 8 (2 ^ n) else f.unserved &&& ~~~ BitVec.ofNat 8 (2 ^ n) }) s) s

/-- Words 0 and 1 of an edge frame (R268). -/
def edgeHead (backward : Bool) (chain : Nat) (flag : Bool) (page line : Nat) : List Word :=
  [wd ((if backward then 2 ^ 35 else 0) + chain % 4 * 2 ^ 33 + (if flag then 2 ^ 32 else 0) + line % 2 ^ 18),
   wd (page % 2 ^ 24 * 2 ^ 12)]

/-- Two S18 values in a word. -/
def pair18 (a b : Int) : Word := wd (pat 18 a * 2 ^ 18 + pat 18 b)

/-- EDGE_ED (R268): a, b in word 2 and c, d in word 3. -/
def edWords (backward : Bool) (chain : Nat) (isVoid : Bool) (page line : Nat) (a b c d : Int) : List Word :=
  let ws := edgeHead backward chain isVoid page line ++ [pair18 a b, pair18 c d]
  ws ++ [wd (crc32 ws), 0]

/-- EDGE_COMP (R268): XSTART and 16 terms. -/
def compWords (backward : Bool) (chain : Nat) (isVoid : Bool) (page line : Nat) (xstart : Int) (ts : List Int) : List Word :=
  let ws := edgeHead backward chain isVoid page line ++ [ws xstart]
    ++ (List.range 8).map (fun j => pair18 (at? ts (2 * j) 0) (at? ts (2 * j + 1) 0))
  ws ++ [wd (crc32 ws)]

/-- EDGE_RETRY (R268). -/
def retryWords (backward : Bool) (chain : Nat) (comp : Bool) (page line : Nat) : List Word :=
  let ws := edgeHead backward chain comp page line
  ws ++ [wd (crc32 ws), 0]

/-- An edge frame goes out on the lane of its edge, and is kept; for each chain, direction and kind the frames of the
last 64 lines are (R269). A backward frame leaves at the start edge. None crosses an open edge. -/
def edgeSend (backward : Bool) (chain : Nat) (comp : Bool) (page line : Nat) (ws : List Word) (s : State) : State :=
  let e := if backward then 0 else 1
  match edgeOpen s chain e, edgeLane s chain e with
  | false, some k =>
    let s := emit (.edge (38 + k) (if comp then 9 else 8) ws) s
    let kin := fun (f : EdgeOut) => f.chain == chain && f.backward == backward && f.comp == comp
    let old := s.fabric.edgeOut.filter kin
    let mine : EdgeOut := { chain := chain, backward := backward, comp := comp, page := page, line := line, words := ws }
    let keep := s.fabric.edgeOut.filter (fun x => !(kin x)) ++ old.drop (old.length - 63) ++ [mine]
    modFab (fun f => { f with edgeOut := keep }) s
  | _, _ => s

/-- VOID frames of a line that is not screened (R266, R270). The fabric sends none while it is held in reset. -/
def voidLine (p y : Nat) (s : State) : State :=
  if bitOf (getW s Obj.funcReset 0) 9 then s else
  forEach (List.range 4) (fun i s =>
    let both (backward : Bool) (s : State) : State :=
      edgeSend backward i false p y (edWords backward i true p y 0 0 0 0)
        (edgeSend backward i true p y (compWords backward i true p y 0 []) s)
    both false (both true s)) s

/-- EDGE_RETRY goes out for a frame awaited at edge e of a chain (R269). -/
def retrySend (chain e : Nat) (comp : Bool) (p y : Nat) (s : State) : State :=
  match edgeOpen s chain e, edgeLane s chain e with
  | false, some k => emit (.edge (38 + k) 12 (retryWords (e == 1) chain comp p y)) s
  | _, _ => s

/-- An edge frame as it reads (R268): its length and CRC hold. A frame that goes forward arrives at a start edge. -/
def edgeParse (comp : Bool) (ws : List Word) : Option EdgeFrame :=
  let n := if comp then 11 else 4
  if ws.length ≠ (if comp then 12 else 6) then none
  else if at? ws n 0 ≠ wd (crc32 (ws.take n)) then none
  else
    let w0 := at? ws 0 0
    let body := (ws.drop (if comp then 3 else 2)).take (if comp then 8 else 2)
    some { chain := fld w0 34 33, backward := bitOf w0 35, comp := comp, page := fld (at? ws 1 0) 35 12, line := fld w0 17 0,
           isVoid := bitOf w0 32, xstart := if comp then sgn 36 (at? ws 2 0).toNat else 0,
           terms := body.flatMap (fun w => [sgn 18 (fld w 35 18), sgn 18 (fld w 17 0)]) }

/-- 07.012 EDGE_STATE (R276). -/
def edgeStateWord (s : State) : Word := wd s.fabric.forced.toNat

/-- 13.000 CAS_STATE (R497). -/
def casOpen (s : State) (k : Nat) : Bool :=
  nbit s.fabric.openLanes.toNat k || (laneEdges s k).any (fun x => edgeOpen s x.1 x.2)

end Sys2Proof.Machine
end

