-- ==== Sys2Proof/Machine/Screen.lean ====
section
/-! DEFINITION. The arithmetic of one page line (R250 to R267, R289 to R294): tone, blend, compensation, quantiser,
threshold arrays and error diffusion, nozzle by nozzle. -/

namespace Sys2Proof.Machine

open Sys2Proof

/-- What screening needs of one head: geometry (R297), tone curve (R254), levels (R258), descriptor (R256), kernel
(R262), and the words of the threshold row of this line (R260). -/
structure HeadScreen where
  first : Int
  step : Int
  wLow : Nat
  wHigh : Nat
  tone : Array Nat
  levels : Array Nat
  kind : Nat
  kernel : Array Nat
  width : Nat
  row : Array Nat

/-- What screening needs of one page line. -/
structure LineCtx where
  heads : Array HeadScreen
  ramp : Nat
  origin : Int
  mask : Nat
  nt : Array Nat
  /-- Contone of the columns of the line, or drop codes of a pre-screened line. -/
  samples : Array Nat
  /-- 13.002 SECOND_INK. -/
  second : Nat
  /-- Tiles in service. -/
  tiles : Nat

/-- The column step of STEP (R297). -/
def stepOf (code : Nat) : Int :=
  match code with
  | 0 => 1
  | 1 => 2
  | 2 => -1
  | _ => -2

/-- Three 12-bit values of a word, the first in [35:24]. -/
def unpack3 (w : Word) : List Nat := [fld w 35 24, fld w 23 12, fld w 11 0]

/-- Words of a threshold row (R260). -/
def rowWords (width : Nat) : Nat := (width + 2) / 3

/-- First word and number of words of a head's threshold row on page line y (R260, R261). -/
def rowPlace (s : State) (h y : Nat) : Nat × Nat :=
  let sel := fld (getW s Obj.screenSel h) 35 32
  let size := getW s Obj.screenSize sel
  let rw := rowWords (fld size 35 22)
  (fld (getW s Obj.screenDesc sel) 29 14 * 16 + y % fld size 21 11 * rw, rw)

/-- The head's descriptor uses the threshold array (R256). -/
def usesArray (s : State) (h : Nat) : Bool := fld (getW s Obj.screenDesc (fld (getW s Obj.screenSel h) 35 32)) 35 34 != 1

/-- What screening needs of head h on page line y. -/
def headScreen (s : State) (h y : Nat) : HeadScreen :=
  let g0 := getW s Obj.headGeom (4 * h)
  let g1 := getW s Obj.headGeom (4 * h + 1)
  let sel := fld (getW s Obj.screenSel h) 35 32
  let desc := getW s Obj.screenDesc sel
  let ker := getW s Obj.edKernel (fld desc 33 30)
  let place := rowPlace s h y
  { first := (fld g0 16 0 : Int), step := stepOf (fld g0 34 33), wLow := fld g1 35 28, wHigh := fld g1 27 20
    tone := ((List.range 11).flatMap (fun j => unpack3 (getW s Obj.toneCurves (11 * h + j)))).toArray
    levels := (0 :: (List.range 3).flatMap (fun j => unpack3 (getW s Obj.levels (3 * h + j)))).toArray
    kind := fld desc 35 34
    kernel := ((List.range 7).map (fun i => fld ker (34 - 5 * i) (30 - 5 * i))).toArray
    width := fld (getW s Obj.screenSize sel) 35 22
    row := if usesArray s h then memImage s 3 place.1 place.2 else #[] }

/-- Where nozzle j of a head stands (R298): 0 in no overlap, 1 in the low-end overlap, 2 in the high-end overlap; its
overlap index and the overlap's width. -/
def overlapOf (g : HeadScreen) (j : Nat) : Nat × Nat × Nat :=
  let i := if g.step > 0 then j else headNozzles - 1 - j
  if i < g.wLow then (1, i, g.wLow)
  else if i + g.wHigh ≥ headNozzles then (2, i + g.wHigh - headNozzles, g.wHigh)
  else (0, 0, 0)

/-- rise(i, W) of R255. -/
def rise (ramp i w : Nat) : Nat :=
  if ramp = 1 then (if 2 * i + 1 ≥ w then 64 else 0) else (64 * (2 * i + 1) + w) / (2 * w)

/-- Stitch blend weight (R255). -/
def blendWeight (ramp : Nat) (o : Nat × Nat × Nat) : Nat :=
  match o.1 with
  | 1 => rise ramp o.2.1 o.2.2
  | 2 => 64 - rise ramp o.2.1 o.2.2
  | _ => 64

/-- The nozzle owns its column (R289). -/
def ownsColumn (ramp : Nat) (o : Nat × Nat × Nat) : Bool :=
  let w := blendWeight ramp o
  decide (w ≥ 33) || (w == 32 && o.1 == 2)

/-- Head, local column and overlap of device nozzle n. -/
def LineCtx.head (c : LineCtx) (n : Nat) : HeadScreen :=
  c.heads.getD (n / headNozzles) { first := 0, step := 1, wLow := 0, wHigh := 0, tone := #[], levels := #[], kind := 0,
                                   kernel := #[], width := 1, row := #[] }
def LineCtx.column (c : LineCtx) (n : Nat) : Int := (c.head n).first + (c.head n).step * (n % headNozzles : Nat)
def LineCtx.owner (c : LineCtx) (n : Nat) : Bool := ownsColumn c.ramp (overlapOf (c.head n) (n % headNozzles))
def LineCtx.masked (c : LineCtx) (n : Nat) : Bool := ntMasked c.mask (c.nt.getD n 0)
/-- The nozzle's Tile is in service (R16, R275): a Tile holds 4,096 nozzles. -/
def LineCtx.live (c : LineCtx) (n : Nat) : Bool := nbit c.tiles (n / 4096)
/-- The nozzle's head prints the second colour (R493). -/
def LineCtx.ink (c : LineCtx) (n : Nat) : Bool := nbit c.second (n / headNozzles)

/-- The sample of a local column, 0 outside the page (R204, R250 step 1). -/
def LineCtx.sample (c : LineCtx) (x : Int) : Nat := if x < 0 then 0 else c.samples.getD x.toNat 0

/-- D1 of R254. -/
def toneCurve (tone : Array Nat) (v : Nat) : Nat :=
  (tone.getD (v / 8) 0 * (8 - v % 8) + tone.getD (v / 8 + 1) 0 * (v % 8) + 4) / 8

/-- D3 of a nozzle (R250 steps 1 to 4). -/
def densityD3 (c : LineCtx) (n : Nat) : Nat :=
  let g := c.head n
  let e := c.nt.getD n 0
  let d1 := toneCurve g.tone (c.sample (c.column n))
  let d2 := (clampI 0 4095 (((d1 * ntGain e + 256) / 512 : Nat) + ntOffset e)).toNat
  (d2 * blendWeight c.ramp (overlapOf g (n % headNozzles)) + 32) / 64

/-! Compensation in column space (R289 to R294). Local columns lie from -6,910 to 137,981. -/

/-- Place of a local column in the column tables, one half for each colour of the device (R493). -/
def columnSlot (ink : Bool) (x : Int) : Nat := (if ink then 163840 else 0) + (x + 8192).toNat
def columnSlots : Nat := 327680

/-- Owners of each column, and how many of them are masked. -/
def ownerTable (c : LineCtx) : Array (Nat × Nat) :=
  (List.range nozzleCount).foldl (fun a n =>
    if c.owner n then
      let i := columnSlot (c.ink n) (c.column n)
      let v := a.getD i (0, 0)
      a.setIfInBounds i (v.1 + 1, v.2 + b2n (c.masked n))
    else a) (Array.replicate columnSlots (0, 0))

/-- The 16 weights of a compensation kernel with their offsets, those of weight 0 left out (R291, R296). -/
def compKernel (s : State) (k : Nat) : List (Int × Int) :=
  let slots := (List.range 6).flatMap (fun j => unpack3 (getW s Obj.compKernels (6 * k + j)))
  ((List.range 16).map (fun (i : Nat) => ((if i < 8 then (i : Int) - 8 else (i : Int) - 7), sgn 12 (at? slots i 0)))).filter (fun x => x.2 != 0)

/-- The deficit of an owner (R290). -/
def deficit (c : LineCtx) (n : Nat) : Nat :=
  let e := c.nt.getD n 0
  let sw := if c.masked n then 64 else if ntState e = 0 || ntState e = 6 then 0 else ntSpread e
  if sw = 0 then 0 else (densityD3 c n * sw + 32) / 64

/-- The terms that the sources of a line give (R290, R291): column, colour, value, none of value 0. -/
def sourceTerms (c : LineCtx) (kernels : Array (List (Int × Int))) (sel : Array Nat) : List (Int × Bool × Int) :=
  (List.range nozzleCount).flatMap (fun n =>
    if !(c.owner n) || !(c.live n) then [] else
    let d := deficit c n
    if d = 0 then [] else
    let e := c.nt.getD n 0
    let k := kernels.getD (if ntState e = 3 then ntClass e else sel.getD (n / headNozzles) 0) []
    (k.map (fun w => (c.column n + w.1, c.ink n, Int.fdiv ((d : Int) * w.2 + 1024) 2048))).filter (fun t => t.2.2 != 0))

/-- The sums of terms by column. -/
def columnSums (ts : List (Int × Bool × Int)) (a : Array Int) : Array Int :=
  ts.foldl (fun a t =>
    let i := columnSlot t.2.1 t.1
    a.setIfInBounds i (a.getD i 0 + t.2.2)) a

/-- Terms lost (R292, R294): one for each masked owner, and one where no owner here takes the term and no frame carries
it. `carried` names the columns that frames carry. -/
def termsLost (owners : Array (Nat × Nat)) (carried : Int → Bool) (ts : List (Int × Bool × Int)) : Nat :=
  ts.foldl (fun n t =>
    let o := owners.getD (columnSlot t.2.1 t.1) (0, 0)
    n + o.2 + (if o.1 = 0 && !(carried t.1) then 1 else 0)) 0

/-- Lowest and highest local column owned by a nozzle among lo to lo + n - 1 (R294). -/
def ownedColumns (c : LineCtx) (lo n : Nat) : Option (Int × Int) :=
  (List.range n).foldl (fun a i =>
    if c.owner (lo + i) then
      let x := c.column (lo + i)
      match a with
      | some (l, h) => some (min l x, max h x)
      | none => some (x, x)
    else a) none

/-! Quantising and error diffusion (R256 to R264). -/

/-- The largest c from 0 to 6 with L[c] ≤ X. -/
def levelBelow (lv : Array Nat) (x : Int) : Nat :=
  ((List.range 7).filter (fun c => decide ((lv.getD c 0 : Int) ≤ x))).foldl max 0

/-- The quantiser (R259). -/
def quantise (lv : Array Nat) (x : Int) (t : Nat) : Nat :=
  if x ≥ (lv.getD 7 0 : Int) then 7
  else if x < 0 then 0
  else
    let c := levelBelow lv x
    let l : Int := lv.getD c 0
    if (x - l) * 4096 > (t : Int) * ((lv.getD (c + 1) 0 : Int) - l) then c + 1 else c

/-- The threshold of a nozzle (R260, R261). -/
def threshold (c : LineCtx) (n : Nat) : Nat :=
  let g := c.head n
  let s := if (overlapOf g (n % headNozzles)).1 = 1 then g.width / 2 else 0
  let col := ((c.origin + c.column n + s) % (g.width : Int)).toNat
  at? (unpack3 (wd (g.row.getD (col / 3) 0))) (col % 3) 0

/-- The terms that a nozzle emits (R263): F1, F2 and the five down terms. -/
structure Terms where
  f1 : Int
  f2 : Int
  dm2 : Int
  dm1 : Int
  d0 : Int
  dp1 : Int
  dp2 : Int

/-- No terms. -/
def noTerms : Terms := { f1 := 0, f2 := 0, dm2 := 0, dm1 := 0, d0 := 0, dp1 := 0, dp2 := 0 }

/-- The terms of an error e under a kernel (R263). -/
def emitTerms (ker : Array Nat) (e : Int) : Terms :=
  let t := fun (i : Nat) => Int.fdiv (e * (ker.getD i 0 : Int)) 32
  { f1 := e - (t 1 + t 2 + t 3 + t 4 + t 5 + t 6), f2 := t 1, dm2 := t 2, dm1 := t 3, d0 := t 4, dp1 := t 5, dp2 := t 6 }

/-- One nozzle (R250 steps 5 to 7, R251, R256): its C, and E, the terms it receives; its drop code and the terms it emits,
none where it is in no chain or its Tile is out of service. -/
def screenNozzle (c : LineCtx) (n : Nat) (comp : Int) (e : Int) (chained : Bool) : Nat × Terms :=
  if !(c.live n) then (0, noTerms) else
  let g := c.head n
  let entry := c.nt.getD n 0
  if c.masked n then
    let x := clampI (-8192) 8191 e
    (0, if chained && g.kind != 0 then emitTerms g.kernel (clampI (-4096) 4095 x) else noTerms)
  else
    let d4 := clampI 0 4095 (densityD3 c n + comp)
    if g.kind = 0 then (min (quantise g.levels d4 (threshold c n)) (ntCap entry), noTerms)
    else
      let x := clampI (-8192) 8191 (d4 + e)
      let emits := g.kind == 1 || comp != 0 || ntState entry != 0
      let cq := quantise g.levels x (if emits then 2047 else threshold c n)
      (min cq (ntCap entry),
       if chained && emits then emitTerms g.kernel (clampI (-4096) 4095 (x - (g.levels.getD cq 0 : Int))) else noTerms)

/-- The screening of consecutive nozzles under way: the forward terms into this position and the next, the down terms of
this line still to be met, and the codes and terms so far, newest first. -/
structure Run where
  f0 : Int
  f1 : Int
  dn : List Int
  codes : List Nat
  terms : List Terms

/-- Nozzles lo to lo + n - 1 in order (R263, R264). -/
def runNozzles (c : LineCtx) (comp : Nat → Int) (chained : Bool) (lo n : Nat) (f0 f1 : Int) (dn : List Int) : Run :=
  (List.range n).foldl (fun r p =>
    let (code, t) := screenNozzle c (lo + p) (comp (lo + p)) (if chained then r.f0 + r.dn.headD 0 else 0) chained
    { f0 := r.f1 + t.f1, f1 := t.f2, dn := r.dn.tail, codes := code :: r.codes, terms := t :: r.terms })
    { f0 := f0, f1 := f1, dn := dn, codes := [], terms := [] }

/-- The down terms into position q of a chain, -2 to N + 1, from the terms emitted (R263). -/
def downInto (ts : Array Terms) (q : Int) : Int :=
  let at_ := fun (i : Int) => if i < 0 then noTerms else ts.getD i.toNat noTerms
  (at_ (q + 2)).dm2 + (at_ (q + 1)).dm1 + (at_ q).d0 + (at_ (q - 1)).dp1 + (at_ (q - 2)).dp2

/-- The code of a nozzle in a pre-screened line (R267). -/
def presetCode (c : LineCtx) (n : Nat) : Nat :=
  if !(c.live n) || !(c.owner n) || c.masked n then 0
  else min (c.sample (c.column n) % 8) (ntCap (c.nt.getD n 0))

/-- Codes packed 12 to a word, 288 words for a head (R350). -/
def packCodes (codes : Array Nat) (h : Nat) : List Word :=
  (List.range 288).map (fun j => wd ((List.range 12).foldl (fun a i => a * 8 + codes.getD (h * headNozzles + 12 * j + i) 0 % 8) 0))

end Sys2Proof.Machine
end

