-- ==== Sys2Proof/Machine/Fox.lean ====
section
/-! DEFINITION. Fox (R424 to R430) and the pattern pages (R445 to R447): evidence slots, ink values, registration,
evidence, verdicts, proposals, pattern results and trims. -/

namespace Sys2Proof.Machine

open Sys2Proof

/-- Camera input k, and input k changed. -/
def camU (s : State) (k : Nat) : CamInput := vget s.insp.inputs k State.resetCam
def modCam (k : Nat) (f : CamInput → CamInput) (s : State) : State :=
  { s with insp := { s.insp with inputs := vmod s.insp.inputs k f } }
def modInsp (f : Inspect → Inspect) (s : State) : State := { s with insp := f s.insp }
def modFox (f : Fox → Fox) (s : State) : State := { s with insp := { s.insp with fox := f s.insp.fox } }
def modCal (f : Cal → Cal) (s : State) : State := { s with cal := f s.cal }

/-- Bits of 0E.000 CAM_ROLE for input k (R404): enabled, camera master, coding, display and vision output. -/
def camOn (s : State) (k : Nat) : Bool := bitOf (getW s Obj.camRole 0) (28 + k)
def camMaster (s : State) (k : Nat) : Bool := bitOf (getW s Obj.camRole 0) (32 + k)
def camCodes (s : State) (k : Nat) : Bool := bitOf (getW s Obj.camRole 0) (24 + k)
def camShows (s : State) (k : Nat) : Bool := bitOf (getW s Obj.camRole 0) (20 + k)
def camSees (s : State) (k : Nat) : Bool := bitOf (getW s Obj.camRole 0) (16 + k)

/-- 0E.003 CAM_LINE_PITCH, in 1/4,096 line. -/
def camPitch (s : State) : Int := getN s Obj.camLinePitch 0

/-- Ceiling of a / b for b > 0. -/
def ceilI (a b : Int) : Int := -(Int.fdiv (-a) b)

/-- Position of the first camera line at or beyond a position (R408, R411). -/
def camFirst (s : State) (v : Int) : Int :=
  let ph := getPos s Obj.camPhase 0
  ph + ceilI (v - ph) (camPitch s) * camPitch s

/-- Output pixels per line of input k (R418). -/
def camPeriod (s : State) (k : Nat) : Nat := fld (getW s Obj.camGeom k) 35 32
def camRows (s : State) (k : Nat) : Nat := fld (getW s Obj.camGeom k) 31 30 + 1
def camPositions (s : State) (k : Nat) : Nat := fld (getW s Obj.camGeom k) 29 14
def camPixels (s : State) (k : Nat) : Nat := camPositions s k / camPeriod s k

/-! Evidence slots (R424, R425). -/

/-- The evidence line whose footprint on page p begins with page line y: its frame line (R410, R424). -/
def evidenceAt (s : State) (p y : Nat) : Option Nat :=
  match pageOf s p with
  | none => none
  | some x =>
    let v := x.origin + getPos s Obj.camOffset 0
    let a := camFirst s v - v
    let j := ceilI (4096 * (y : Int) - a) (camPitch s)
    if decide (0 ≤ j) && decide (a + j * camPitch s < 4096 * ((y : Int) + 1)) && j.toNat % getN s Obj.foxSample 0 == 0
      then some j.toNat else none

/-- Fox takes evidence (R432). -/
def foxRuns (s : State) : Bool := rdy s 19 && getN s Obj.foxEnable 0 == 1

/-- The fabric has screened page line y of page p (R424, R425): slots open, and the codes add to the slots whose
footprint holds the line. -/
def evidenceScreened (p y : Nat) (c : LineCtx) (codes : Array Nat) (s : State) : State :=
  let s := if !(foxRuns s) then s else forEach (List.range 4) (fun k s =>
    if !(camOn s k) || !(camSees s k) then s else
    match evidenceAt s p y with
    | none => s
    | some j =>
      if s.insp.fox.slots.length ≥ 9 then bump Obj.evidSkipped 0 1 s
      else
        let slot : EvidenceSlot := { input := k, page := p, j := j, line := y, lines := (Int.fdiv (camPitch s) 4096).toNat,
                                     sums := List.replicate nozzleCount 0, excluded := 0 }
        modFox (fun f => { f with slots := f.slots ++ [slot] }) s) s
  let level := fun (n : Nat) => (c.head n).levels.getD (codes.getD n 0) 0
  let add := fun (e : EvidenceSlot) =>
    if e.page == p && decide (e.line ≤ y) && decide (y < e.line + e.lines) then
      { e with sums := e.sums.mapIdx (fun n v => if headEnabled s (n / headNozzles) then v + level n else v) }
    else e
  if s.insp.fox.slots.isEmpty then s else modFox (fun f => { f with slots := f.slots.map add }) s

/-- q_n (R425). -/
def evidenceQ (scale sum : Nat) : Nat := min 63 ((sum * scale + 32768) / 65536)

/-! Ink values (R426). -/

/-- The power of densityOf: 2 × 1,024. -/
def densityPower : Nat := 2048

/-- dens_p: the largest n up to 3,699 with n - 1/2 at most 1,024 × log10(4,095 ÷ out), which is
out^2048 × 10^(2n-1) ≤ 4095^2048. -/
def densityOf (out : Nat) : Nat :=
  let o := max out 1
  let e := densityPower
  let ok := fun (n : Nat) => decide (o ^ e * 10 ^ (2 * n - 1) ≤ 4095 ^ e)
  (List.range 12).foldl (fun n i =>
    let m := n + 2 ^ (11 - i)
    if m ≤ 3699 && ok m then m else n) 0

/-- A from the four output planes of a pixel (R426). -/
def inkOf (s : State) (out : List Nat) : Nat :=
  let sum := (List.range 4).foldl (fun (a : Int) p => a + getS s 18 Obj.unmix p * (densityOf (at? out p 0) : Int)) 0
  (clampI 0 4095 (Int.fdiv (sum + 2048) 4096 + getS s 18 Obj.unmix 4)).toNat

/-- m_A of A (R426). -/
def inkCurve (inv : Array Nat) (a : Nat) : Nat :=
  (inv.getD (a / 128) 0 * (128 - a % 128) + inv.getD (a / 128 + 1) 0 * (a % 128) + 64) / 128

/-! Pixels and columns (R426). -/

/-- By local column: Σ q and number of nozzles of the first colour, whether a column of an excluded head, number of
owners, and the head of the last owner. -/
structure FoxColumn where
  q : Nat
  n : Nat
  bad : Bool
  owners : Nat
  head : Nat

/-- A column that no nozzle covers. -/
def noColumn : FoxColumn := { q := 0, n := 0, bad := false, owners := 0, head := 0 }

/-- The column table of an evidence slot. -/
def foxColumns (c : LineCtx) (q : Array Nat) (excluded : Nat) : Array FoxColumn :=
  (List.range nozzleCount).foldl (fun a n =>
    let i := columnSlot false (c.column n)
    let v := a.getD i noColumn
    let owns := c.owner n
    a.setIfInBounds i
      { q := if c.ink n then v.q else v.q + q.getD n 0
        n := if c.ink n then v.n else v.n + 1
        bad := v.bad || nbit excluded (n / headNozzles)
        owners := v.owners + b2n owns
        head := if owns then n / headNozzles else v.head }) (Array.replicate columnSlots noColumn)

/-- The columns of pixel i of input k at a shift of dx columns, as local columns (R426). -/
def pixelColumns (s : State) (k i : Nat) (dx : Int) : List Int :=
  let x0 : Int := getN s Obj.camX0 k
  let p : Int := getN s Obj.camPitch k
  let lo := ceilI ((i : Int) * p + x0) 256 - dx - getN s Obj.columnOrigin 0
  let hi := ceilI (((i : Int) + 1) * p + x0) 256 - dx - getN s Obj.columnOrigin 0
  (List.range (hi - lo).toNat).map (fun (j : Nat) => lo + (j : Int))

/-- A column in the table. -/
def columnOf (cols : Array FoxColumn) (x : Int) : FoxColumn :=
  if x < -8192 || x ≥ 155648 then noColumn else cols.getD (columnSlot false x) noColumn

/-- Pixel i: m, the number of nozzles, and whether it is accepted; `only` restricts it to columns that one head alone
owns (R445). -/
def pixelSum (s : State) (cols : Array FoxColumn) (only : Option Nat) (k i : Nat) (dx : Int) : Nat × Nat × Bool :=
  (pixelColumns s k i dx).foldl (fun a x =>
    let c := columnOf cols x
    (a.1 + c.q, a.2.1 + c.n, a.2.2 && !c.bad && (match only with
      | none => decide (c.owners ≠ 0)
      | some h => c.owners == 1 && c.head == h))) (0, 0, true)

/-- The pixels of a line of input k at dx. -/
def pixelRow (s : State) (cols : Array FoxColumn) (only : Option Nat) (k : Nat) (dx : Int) : List (Nat × Nat × Bool) :=
  (List.range (camPixels s k)).map (fun i => pixelSum s cols only k i dx)

/-- The score of m_A against m over the accepted pixels (R426). -/
def foxScore (mA : List Nat) (px : List (Nat × Nat × Bool)) : Int :=
  Config.correlation ((mA.zip px).filterMap (fun x => if x.2.2.2 then some (x.1, x.2.1) else none))

/-- 0, -1, 1, -2, 2, … up to n on each side: the order in which a tie is settled (R426). -/
def shiftOrder (n : Nat) : List Int := 0 :: (List.range n).flatMap (fun (i : Nat) => [-((i : Int) + 1), (i : Int) + 1])

/-- The first shift of the highest score. -/
def bestShift (l : List (Int × Int)) : Option (Int × Int) :=
  l.foldl (fun a x => match a with
    | some b => if x.2 > b.2 then some x else some b
    | none => some x) none

/-- Camera lines of registration on each side (R426): ±32 page lines. -/
def dyRange (s : State) : Nat := (Int.fdiv 131072 (camPitch s)).toNat

/-- m_A of frame line j of a page frame, where the pipeline has it. -/
def visionAt (s : State) (inv : Array Nat) (k frame : Nat) (j : Int) : Option (List Nat) :=
  (s.insp.fox.vision.find? (fun v => v.input == k && v.frame == frame && decide ((v.j : Int) = j))).map
    (fun v => v.ink.map (inkCurve inv))

/-- Registration of an evidence line (R426): dy, dx and ρ. A dy whose line does not exist is not tried. -/
def foxRegister (s : State) (inv : Array Nat) (cols : Array FoxColumn) (only : Option Nat) (e : EvidenceSlot) : Option (Int × Int × Int) :=
  let dx0 := at? s.insp.fox.dx e.input 0
  let px0 := pixelRow s cols only e.input dx0
  match bestShift ((shiftOrder (dyRange s)).filterMap (fun dy =>
      (visionAt s inv e.input e.page ((e.j : Int) + dy)).map (fun m => (dy, foxScore m px0)))) with
  | none => none
  | some (dy, _) =>
    let m := (visionAt s inv e.input e.page ((e.j : Int) + dy)).getD []
    (bestShift ((shiftOrder (8 * getN s Obj.camPitch e.input / 256)).map (fun dx =>
      (dx, foxScore m (pixelRow s cols only e.input dx))))).map (fun b => (dy, b.1, b.2))

/-- The 33 points of 0F.020 FOX_INV. -/
def foxInvPoints (s : State) : Array Nat := ((List.range 11).flatMap (fun j => unpack3 (getW s Obj.foxInv j))).toArray

/-- The geometry that Fox reads. -/
def foxCtx (s : State) : LineCtx :=
  { heads := ((List.range 32).map (fun h => { headScreen s h 0 with row := #[] })).toArray, ramp := getN s Obj.ramp 0
    origin := getN s Obj.columnOrigin 0, mask := 0, nt := #[], samples := #[], second := getN s Obj.secondInk 0, tiles := 0 }

/-- Evidence added to a nozzle's sums (R427). -/
def addEvidence (k : Nat) (r d : Int) (v : FoxSum) : FoxSum :=
  { v with re := satS 36 (v.re + r * d), ee := satN 20 (v.ee + (d * d).toNat), input := k }

/-- The empty sums of a nozzle. -/
def noSum : FoxSum := { re := 0, ee := 0, frames := 0, pending := 0, input := 0 }

/-- A registered evidence line is used (R427). -/
def foxUse (c : LineCtx) (inv : Array Nat) (cols : Array FoxColumn) (q : Array Nat) (e : EvidenceSlot) (dy dx : Int) (s : State) : State :=
  let k := e.input
  let mA := ((visionAt s inv k e.page ((e.j : Int) + dy)).getD []).toArray
  let px := (pixelRow s cols none k dx).toArray
  let r := fun (i : Nat) => clampI (-1023) 1023 ((mA.getD i 0 : Int) - ((px.getD i (0, 0, false)).1 : Int))
  let x0 : Int := getN s Obj.camX0 k
  let add := fun (acc : List (Nat × FoxSum)) (n : Nat) =>
    let old := lookupKey s.insp.fox.sums n
    let keep := match old with
      | some v => (n, v) :: acc
      | none => acc
    if c.ink n then keep else
    let i := Int.fdiv ((c.column n + getN s Obj.columnOrigin 0 + dx) * 256 - x0) (getN s Obj.camPitch k)
    let p := px.getD i.toNat (0, 0, false)
    if i < 0 || i ≥ px.size || !p.2.2 then keep else
    let d : Int := (q.getD n 0 : Int) - ((p.1 + p.2.1 / 2) / p.2.1 : Nat)
    if d = 0 then keep else (n, addEvidence k (r i.toNat) d (old.getD noSum)) :: acc
  let sums := ((List.range nozzleCount).foldl add []).reverse
  let good := (List.range px.size).filter (fun i => (px.getD i (0, 0, false)).2.2)
  let total := good.foldl (fun (a : Int) i => a + r i * r i) 0
  let noise : Int := getN s Obj.noise k
  let (mean, s) := if good.isEmpty then (((freeVal s).toNat : Int), takeFree s) else (Int.fdiv total good.length, s)
  let s := setN Obj.noise k (noise + Int.fdiv (mean - noise) 16).toNat s
  bump Obj.evidLines 0 1 (modFox (fun f => { f with sums := sums }) s)

/-- Page p is a pattern page (R445). -/
def patternPage (s : State) (p : Nat) : Bool :=
  let w := getW s Obj.patternPages 0
  decide ((p + 2 ^ 24 - fld w 23 0) % 2 ^ 24 < fld w 35 24)

/-- An evidence line of a pattern page (R445): head by head. -/
def patternUse (c : LineCtx) (inv : Array Nat) (cols : Array FoxColumn) (e : EvidenceSlot) (s : State) : State :=
  forEach (enabledHeads s) (fun h s =>
    if nbit e.excluded.toNat h || nbit c.second h then s else
    match foxRegister s inv cols (some h) e with
    | none => s
    | some (dy, dx, rho) =>
      let px := pixelRow s cols (some h) e.input dx
      let line := fun (d : Int) => (visionAt s inv e.input e.page ((e.j : Int) + d)).getD []
      let used := ((line dy).zip px).filter (fun x => x.2.2.2)
      if used.isEmpty then s else
      let a := used.foldl (fun (t : Int) x => t + x.1) 0
      let m := used.foldl (fun (t : Int) x => t + x.2.1) 0
      let old := s.insp.fox.pattern.find? (fun x => x.input == e.input && x.head == h)
      let new : PatternSum := { input := e.input, head := h, mA := a + (old.map (·.mA)).getD 0, m := m + (old.map (·.m)).getD 0,
                                dy := dy, rhoLess := foxScore (line (dy - 1)) px, rho := rho, rhoMore := foxScore (line (dy + 1)) px }
      modFox (fun f => { f with pattern := f.pattern.filter (fun x => !(x.input == e.input && x.head == h)) ++ [new] }) s) s

/-- The registration of an evidence line passes or fails (R427), and its evidence is taken. -/
def foxLine (e : EvidenceSlot) (s : State) : State :=
  let k := e.input
  let c := foxCtx s
  let inv := foxInvPoints s
  let q := (e.sums.map (evidenceQ (getN s Obj.qScale 0))).toArray
  let cols := foxColumns c q e.excluded.toNat
  if patternPage s e.page then patternUse c inv cols e s else
  match foxRegister s inv cols none e with
  | none => s
  | some (dy, dx, rho) =>
    if rho < (getN s Obj.regMin 0 : Int) then
      let n := at? s.insp.fox.discards k 0 + 1
      let s := bump Obj.regDiscards 0 1 (modFox (fun f => { f with discards := setAt f.discards k n, passes := setAt f.passes k 0 }) s)
      if n = getN s Obj.regLost 0 then
        raise 0x0F003 [p9 k, pInt rho, 0, 0] (modFox (fun f => { f with
          regOk := f.regOk &&& ~~~ BitVec.ofNat 4 (2 ^ k), regLost := f.regLost ||| BitVec.ofNat 4 (2 ^ k) }) s)
      else s
    else
      let n := at? s.insp.fox.passes k 0 + 1
      let lost := nbit s.insp.fox.regLost.toNat k
      let s := modFox (fun f => { f with discards := setAt f.discards k 0, passes := setAt f.passes k n, dx := setAt f.dx k dx }) s
      let s := setN Obj.regShift k (pat 9 dy * 2 ^ 27 + pat 13 dx * 2 ^ 14 + pat 14 (Int.fdiv rho 2)) s
      if lost && decide (n < 2) then s
      else foxUse c inv cols q e dy dx (modFox (fun f => { f with
        regOk := f.regOk ||| BitVec.ofNat 4 (2 ^ k), regLost := f.regLost &&& ~~~ BitVec.ofNat 4 (2 ^ k) }) s)

/-- Output lines of a page frame have been processed up to line `upTo` (R424): evidence lines whose registration range
lies in them, or all of them at the frame's last stripe, are judged and their slots close. `takes` says that the lane
has lock (R423). -/
def foxLines (k frame : Nat) (upTo : Nat) (last : Bool) (takes : Bool) (s : State) : State :=
  let mine := fun (e : EvidenceSlot) => e.input == k && e.page == frame
  let due := fun (e : EvidenceSlot) => mine e && (last || decide (e.j + dyRange s ≤ upTo))
  let s := forEach (s.insp.fox.slots.filter due) (fun e s =>
    match s.insp.fox.vision.find? (fun v => v.input == k && v.frame == frame && v.j == e.j) with
    | some v => if v.trans || !takes || !(foxRuns s) then s else foxLine e s
    | none => s) s
  let gone := s.insp.fox.slots.filter (fun e => !(due e))
  let keep := fun (v : VisionLine) => !(v.input == k && v.frame == frame) || (!last && decide (v.j + 2 * dyRange s + 32 ≥ upTo))
  modFox (fun f => { f with slots := gone, vision := f.vision.filter keep }) s

/-! Verdicts and proposals (R428 to R430). -/

/-- The verdict of a nozzle and φ (R428): 0 inconclusive, 1 good, 2 weak, 3 missing. -/
def foxVerdict (s : State) (k : Nat) (v : FoxSum) : Nat × Int :=
  let phi := Int.fdiv (-v.re * 256 + ((v.ee / 2 : Nat) : Int)) v.ee
  let z : Int := getN s Obj.zMin 0
  let noise : Int := getN s Obj.noise k
  let weak : Int := getN s Obj.phiWeak 0
  let sure := decide (v.re < 0) && decide (v.re * v.re * 256 ≥ z * z * noise * v.ee)
  if phi ≥ (getN s Obj.phiMiss 0 : Int) && sure then (3, phi)
  else if phi ≥ weak && sure then (2, phi)
  else if phi < (getN s Obj.phiGood 0 : Int) && (weak - phi) * (weak - phi) * v.ee > 256 * z * z * noise then (1, phi)
  else (0, phi)

/-- The proposal of a confirmed verdict against an active entry (R429). -/
def foxProposal (n verdict : Nat) (phi : Int) (entry : Nat) : Option Proposal :=
  if ntSource entry = 2 then none else
  match verdict with
  | 3 => if ntState entry ≠ 2 then some { nozzle := n, state := 2, spread := 0 } else none
  | 2 =>
    let sp := (clampI 1 63 (Int.fdiv (phi * 64 + 128) 256)).toNat
    if ntState entry ≠ 1 ∨ sp ≥ ntSpread entry + 4 ∨ ntSpread entry ≥ sp + 4 then some { nozzle := n, state := 1, spread := sp } else none
  | 1 => if ntState entry = 1 ∨ ntState entry = 7 then some { nozzle := n, state := 0, spread := 0 } else none
  | _ => none

/-- A frame closes on input k (R428): one nozzle's sums, and the proposal it leads to. -/
def foxJudge (s : State) (tab : Array Nat) (k : Nat) (x : Nat × FoxSum) : Option (Nat × FoxSum) × Option (Proposal × Int) :=
  let (n, v) := x
  if v.input ≠ k then (some x, none)
  else if v.ee ≥ getN s Obj.evidMin 0 then
    let (verdict, phi) := foxVerdict s k v
    if verdict ≠ 0 && verdict = v.pending then (none, (foxProposal n verdict phi (tab.getD n 0)).map (fun p => (p, phi)))
    else if verdict = 0 then (none, none)
    else (some (n, { noSum with pending := verdict, input := k }), none)
  else if v.frames + 1 ≥ getN s Obj.maxFrames 0 then
    (if v.pending = 0 then none else some (n, { noSum with pending := v.pending, input := k }), none)
  else (some (n, { v with frames := v.frames + 1 }), none)

/-- Proposals in order of nozzle, one for each nozzle. -/
def addProposal (l : List (Proposal × Int)) (p : Proposal × Int) : List (Proposal × Int) :=
  let l := l.filter (fun x => x.1.nozzle != p.1.nozzle)
  l.takeWhile (fun x => decide (x.1.nozzle < p.1.nozzle)) ++ [p] ++ l.dropWhile (fun x => decide (x.1.nozzle < p.1.nozzle))

/-- Fox at a frame close on input k (R428 to R430). No verdict is given without lock of the lane (R423). -/
def foxClose (k frame : Nat) (lock : Bool) (s : State) : State :=
  if !(foxRuns s) || !lock then s else
  let tab := ntActive s
  let res := s.insp.fox.sums.map (foxJudge s tab k)
  let new := res.filterMap (·.2)
  let all := new.foldl addProposal s.insp.fox.waiting
  let s := modFox (fun f => { f with sums := res.filterMap (·.1), waiting := all }) s
  match all with
  | [] => s
  | p :: _ =>
    let s := raise 0x0F001 [pPage frame, pNum all.length, pNum p.1.nozzle, 0] s
    let now := all.take 1024
    let verdicts := now.map (fun x => ((if x.1.state = 2 then 3 else if x.1.state = 1 then 2 else 1), x.1.nozzle, x.2))
    let s := modFox (fun f => { f with verdictFrame := frame, verdicts := verdicts, waiting := all.drop 1024 }) s
    let s := markSwitched Obj.verdicts (ntStage (now.map (·.1)) s)
    raise 0x0F002 [wd s.nt.generation, pNum now.length, 0, 0] s

/-! Pattern results (R445 to R447). -/

/-- A quotient rounded half up, with a divisor of either sign; a free value where it is 0. -/
def roundQuot (a b : Int) (s : State) : Int × State :=
  if b = 0 then (sgn 36 (freeVal s).toNat, takeFree s)
  else if b > 0 then (roundHalfUp a b, s) else (roundHalfUp (-a) (-b), s)

/-- The result of a head on a pattern page is published, and compared with the one of the page before (R445, R446). -/
def patternResult (page : Nat) (x : PatternSum) (s : State) : State :=
  let h := x.head
  let kh : Int := getN s Obj.headTrim h
  let (k', s) := if x.mA = 0 then (((freeVal s).toNat % 2 ^ 18 : Nat) , takeFree s)
    else ((Int.fdiv (kh * x.m + Int.fdiv x.mA 2) x.mA).toNat, s)
  let (corr, s) := roundQuot ((x.rhoLess - x.rhoMore) * camPitch s) (2 * (x.rhoLess - 2 * x.rho + x.rhoMore)) s
  let s := setN Obj.patternResult h (satN 18 k' * 2 ^ 18 + pat 18 (satS 18 (x.dy * camPitch s + corr))) s
  let prev := s.cal.patterns.find? (fun p => p.1 == h && decide (p.2.1 = (page + 2 ^ 24 - 1) % 2 ^ 24))
  let s := modCal (fun c => { c with patterns := c.patterns.filter (fun p => p.1 != h) ++ [(h, page, k')] }) s
  let s := setN Obj.patternFlags h 1 s
  match prev with
  | none => s
  | some (_, _, k1) =>
    if !(bitOf (getW s Obj.autoCal 0) 2) then s
    else
      let out := fun (v : Nat) => decide (v < 32768) || decide (v > 98304)
      if out k1 || out k' then raise 0x10002 [32, p9 h, pNum (if out k1 then k1 else k'), 0] s
      else if (if k1 < k' then k' - k1 else k1 - k') * 256 > getN s Obj.patternTol 0 * min k1 k' then
        raise 0x10003 [32, p9 h, pNum k1, pNum k'] s
      else
        let trim := (k1 + k' + 1) / 2
        setN Obj.patternFlags h 3 (modCal (fun c => { c with
          trims := c.trims.filter (fun t => t.1 != h) ++ [(h, trim, s.clock.tick, none)] }) s)

/-- The results of a pattern page are published when its frame closes on input k (R445). A head excluded on the page gets
none: it has no evidence. -/
def patternClose (k page : Nat) (s : State) : State :=
  let mine := s.insp.fox.pattern.filter (fun x => x.input == k)
  let s := forEach mine (patternResult page) s
  modFox (fun f => { f with pattern := f.pattern.filter (fun x => x.input != k) }) s

/-- Page q begins screening: trims agreed at least 100 µs ago take effect with it (R447). -/
def bindTrims (q : Nat) (s : State) : State :=
  modCal (fun c => { c with trims := c.trims.map (fun t =>
    if t.2.2.2.isNone && decide (s.clock.tick ≥ t.2.2.1 + 62500) then (t.1, t.2.1, t.2.2.1, some q) else t) }) s

/-- Head h reaches its first line of page p: its new trim is written, or skipped where its shadow is dirty (R447). -/
def applyTrim (h p : Nat) (s : State) : State :=
  match s.cal.trims.find? (fun t => t.1 == h && (match t.2.2.2 with
      | some q => reached q p
      | none => false)) with
  | none => s
  | some (_, v, _, _) =>
    let s := modCal (fun c => { c with trims := c.trims.filter (fun t => t.1 != h) }) s
    let flags := getN s Obj.patternFlags h
    if s.dict.dirty.contains Obj.headTrim then setN Obj.patternFlags h (flags % 8 + 8) s
    else
      let s := setShadow Obj.headTrim h (el v) (setN Obj.headTrim h v s)
      raise 0x10001 [32, p9 h, pNum v, pInt (getS s 18 Obj.dieTemp 0)] (setN Obj.patternFlags h (flags % 4 + 4) s)

/-- 0F.001 FOX_STATE (R432). -/
def foxState (s : State) : Word :=
  let f := s.insp.fox
  wd (f.regOk.toNat * 2 ^ 32
    + packBits (fun k => camOn s k && camSees s k && !((vget s.lanes (42 + k) State.resetLane).lock)) 4 * 2 ^ 28
    + f.slots.length * 2 ^ 24 + s.nt.generation % 4096 * 2 ^ 12)

/-- Word w of 0F.021 VERDICTS (R432). -/
def verdictWord (s : State) (w : Nat) : Word :=
  let f := s.insp.fox
  if w = 0 then wd (f.verdictFrame % 2 ^ 24 * 2 ^ 12 + f.verdicts.length)
  else match f.verdicts[w - 1]? with
    | some v => wd (v.1 * 2 ^ 34 + pat 8 (satS 8 (Int.fdiv v.2.2 2)) * 2 ^ 26 + v.2.1)
    | none => 0

end Sys2Proof.Machine
end

