-- ==== Sys2Proof/Machine/Firing.lean ====
section
/-! DEFINITION. The Line Scheduler (chapters 11 and 12): arming, check and hand-over instants, commits and firing
energy, line starts at a boundary, fire times, halts and page aborts. -/

namespace Sys2Proof.Machine

open Sys2Proof

/-- A page line past its page's end stands for the first line of the page after it. -/
def normLine (s : State) (l : Nat × Nat) : Option (Nat × Nat) :=
  match pageOf s l.1 with
  | none => none
  | some x => match lastLine x with
    | some m => if l.2 > m then nextLine s l.1 m else some l
    | none => some l

/-- 0A.003 FIRE_ENABLE may be written 1 (R304). -/
def armAbort (s : State) : Nat :=
  if s.dict.badObj.contains Obj.headGeom || decide (ldsDemand s > 29127)
      || decide (getPos s Obj.printOrigin 0 ≤ posNow s) then 0x0C else 0

/-- Printing is armed (R304): the LDS allocation is fixed, and head-lines are counted from now (R313). -/
def armDo (s : State) : State :=
  if getN s Obj.fireEnable 0 = 1 then s else
  let s := setN Obj.fireEnable 0 1 s
  { s with fire := { s.fire with
      firstPage := s.pages.isEmpty || s.fire.firstPage
      heads := s.fire.heads.map (fun u => { u with ldsCount := 0 }) } }

/-- Printing is disarmed (R304, R337). -/
def disarmDo (s : State) : State :=
  let s := setN Obj.fireEnable 0 0 s
  let s := { s with fire := { s.fire with firstPage := true } }
  if s.fire.overspeed then emit (.overspeed false) { s with fire := { s.fire with overspeed := false } } else s

/-- The four lines of a line group are not screened (R266). -/
def markUnscreened (p y : Nat) (s : State) : State :=
  { s with fire := { s.fire with unscreened := s.fire.unscreened ++ (List.range 4).map (fun i => (p, y + i)) } }

/-- Line group lg of page p, as far as its header has come. -/
def groupAt (s : State) (p lg : Nat) : Option LineGroup := s.rfe.groups.find? (fun g => g.page == p && g.lg == lg)

/-- A line group has been checked, and is late or not (R27, R325). -/
def markChecked (p lg : Nat) (late : Bool) (s : State) : State :=
  { s with rfe := { s.rfe with groups := s.rfe.groups.map (fun g =>
      if g.page == p && g.lg == lg then { g with checked := true, late := late } else g) } }

/-- The check instant of a line group (R27, R325, R327): no prediction, no check instant (R307). -/
def checkLg (p lg : Nat) (s : State) : State :=
  if !(predicts s) || (pageOf s p).isNone || haltHolds s p (4 * lg) then s else
  if (pageOf s p).any (fun x => x.lastLg.any (fun m => decide (lg > m))) then s else
  if (match groupAt s p lg with
      | some g => g.complete || g.checked
      | none => s.fire.late.contains (p, 4 * lg)) then
    (match groupAt s p lg with
      | some g => markChecked p lg g.late s
      | none => s)
  else
    let blank := getN s Obj.latePolicy 0 == 0
    let s := lateGroup p (4 * lg) (bump Obj.lgLate 0 1 (markChecked p lg blank s))
    codecFollow (if blank then forEach (List.range 4) (fun l s => voidLine p (4 * lg + l) s) (markUnscreened p (4 * lg) s) else s)

/-- Head-lines in the transmit queues of all heads, which crossing unit 8 reports together (R36). -/
def queueFill (s : State) : Nat := s.fire.heads.toList.foldl (fun n u => n + u.queue.length) 0

/-- The codes of one head of a page line enter its transmit queue (R312), which takes nothing while a side of its crossing
unit is in reset (R38). -/
def queueLine (h p y : Nat) (codes : List Word) (s : State) : State :=
  if xingStalled s 8 then s else
  let s := modHead h (fun u => { u with queue := u.queue ++ [{ page := p, line := y, codes := codes }] }) s
  xingQueue 8 (queueFill s) s

/-- Both ends of the transmit queues are emptied while a side of their crossing unit is in reset (R38). -/
def queuesLost (s : State) : State := { s with fire := { s.fire with heads := s.fire.heads.map (fun u => { u with queue := [] }) } }

/-- n words of memory m read in order from an address. -/
def readRun (m : Nat) : Nat → Nat → State → List Word × State
  | _, 0, s => ([], s)
  | a, n + 1, s =>
    let (w, s) := userRead m a s
    let (ws, s) := readRun m (a + 1) n s
    (w :: ws, s)

/-- The codes of one head of a page line are written to the LDS at the head's next place (R312, R313). -/
def ldsWrite (h p y : Nat) (codes : List Word) (s : State) : State :=
  let q := (headU s h).ldsCount
  let s := writeRun 0 (ldsBase s h + 288 * (q % ldsUse s h)) codes s
  modBook h (fun b => { b with ldsWritten := wrap36 (b.ldsWritten + 1), ldsResident := b.ldsResident + 1 })
    (modHead h (fun u => { u with lds := u.lds ++ [(p, y, q)], ldsCount := q + 1 }) s)

/-- Head h's first head-line in the LDS that has not been read into its transmit queue. -/
def ldsUnread (s : State) (h : Nat) : Option (Nat × Nat × Nat) :=
  let u := headU s h
  u.lds.find? (fun e => !(u.queue.any (fun q => q.page == e.1 && q.line == e.2.1))
    && !(u.committed.any (fun c => c.page == e.1 && c.line == e.2.1)))

/-- The hand-over instant of head h's next head-line in the LDS (R312): it is read into the transmit queue. An LDS that is
not ready gives nothing (R47). -/
def handOverLds (h : Nat) (s : State) : State :=
  match ldsUnread s h with
  | none => s
  | some (p, y, q) =>
    if !(headEnabled s h) || !(predicts s) || haltHolds s p y || !(rdy s 11) || xingStalled s 8 then s else
    let (codes, s) := readRun 0 (ldsBase s h + 288 * (q % ldsUse s h)) 288 s
    queueLine h p y codes s

/-- The codes of one head of a page line leave the Cell queues (R312): to its transmit queue, or to the LDS, where a read of
the same place due at the same instant comes first. -/
def handLine (h p y : Nat) (codes : List Word) (s : State) : State :=
  if ldsUse s h = 0 then queueLine h p y codes s
  else if !(rdy s 11) then s
  else
    let s := if (ldsUnread s h).any (fun e => e.2.2 % ldsUse s h == (headU s h).ldsCount % ldsUse s h) then handOverLds h s else s
    ldsWrite h p y codes s

/-- The page line after line y of page p is the next to be handed over; the end of a line group tells of its late lines
(R326). -/
def handOnward (p y : Nat) (s : State) : State :=
  let s := { s with fire := { s.fire with handNext := some (p, y + 1) } }
  if y % 4 = 3 then lateFlush s else s

/-- The hand-over instant of the next page line for heads of offset 0 (R312): its codes leave the Cell queues. Codes
that are not there make the page line late (R325). -/
def handOver (s : State) : State :=
  match s.fire.handNext.bind (normLine s) with
  | none => s
  | some (p, y) =>
    if !(predicts s) || haltHolds s p y then s else
    match s.fabric.cells.find? (fun c => c.page == p && c.line == y) with
    | some c =>
      let s := { s with fabric := { s.fabric with cells := s.fabric.cells.filter (fun c => !(c.page == p && c.line == y)) } }
      handOnward p y (if s.fire.late.contains (p, y) then s
        else forEach (enabledHeads s) (fun h s => handLine h p y (at? c.codes h []) s) s)
    | none =>
      if s.fire.late.contains (p, y) then handOnward p y s
      else
        let s := lateAtHandOver p y s
        if getN s Obj.latePolicy 0 = 0 then handOnward p y s else s

/-- While a halt stops the web, a line is committed only if the web, slowing as the two halves of the velocity window
show, still reaches the boundary (R328). -/
def reachesInHalt (s : State) (b : Int) : Bool :=
  if s.fire.halt.phase != 1 then true else
  let m := getN s Obj.velWindow 0
  match s.fire.latches[0]?, s.fire.latches[m / 2]?, s.fire.latches[m]? with
  | some k, some mid, some old =>
    let dt1 : Int := k.2 - mid.2
    let dt0 : Int := mid.2 - old.2
    let d1 := wrapPos (k.1 - mid.1)
    let d0 := wrapPos (mid.1 - old.1)
    -- v1 = d1/dt1, v0 = d0/dt0, deceleration a = (v0 - v1) / ((dt0 + dt1)/2); reaches when v1^2 >= 2 a (B - p)
    let slow := d0 * dt1 - d1 * dt0
    if slow ≤ 0 then true
    else decide (d1 * d1 * dt0 * (dt0 + dt1) ≥ 4 * slow * wrapPos (b - k.1) * dt1)
  | _, _, _ => true

/-- The hand-over deadline of head h's next head-line (R28, R309, R362): not committed by then, it is late. A line whose codes
are queued is not judged where the head lane is down (R324 row 1), where line starts are not armed (R43), or where a halt
keeps it uncommitted (R328). -/
def deadline (h : Nat) (s : State) : State :=
  match nextHeadLine s h with
  | none => s
  | some (p, y) =>
    if !(headEnabled s h) || !(predicts s) || haltHolds s p y || isLate s h p y then s
    else if (headU s h).queue.any (fun q => q.page == p && q.line == y)
      && ((linkU s h).state != .ready || !(detectorsArmed s) || !(reachesInHalt s (boundary s h p y))) then s
    else lateHeadLine h p y s

/-- W_base scaled by K (R319). -/
def corrWidth (w k : Nat) : Nat := min ((w * k + 32768) / 65536) 1023

/-- The corrected train of a drop code of page p, in ticks (R316, R317). -/
def trainOf (s : State) (h p k c : Nat) : Nat :=
  let w0 := fireW s h p Obj.pulseProfiles (14 * h + 2 * (c - 1))
  let w1 := fireW s h p Obj.pulseProfiles (14 * h + 2 * (c - 1) + 1)
  corrWidth (fld w0 35 26) k + fld w0 25 16 + corrWidth (fld w0 15 6) k + fld w1 35 26 + corrWidth (fld w1 25 16) k

/-- The 12 codes of a packed word (R350). -/
def unpackCodes (w : Word) : List Nat := (List.range 12).map (fun i => fld w (35 - 3 * i) (33 - 3 * i))

/-- The drop codes other than 0 present in a head-line. -/
def codesPresent (codes : List Word) : List Nat :=
  (List.range 8).filter (fun c => c != 0 && codes.any (fun w => (unpackCodes w).contains c))

/-- Occupancy of a head-line of page p in ticks (R317). -/
def occupancy (s : State) (h p k : Nat) (codes : List Word) : Nat :=
  ((codesPresent codes).map (trainOf s h p k)).foldl max 0 + fireN s h p Obj.recovery h

/-- K_V of R319. -/
def kV (vNom vMeas : Nat) : Nat :=
  if vMeas = 0 then 91750 else
  let r := (vNom * 65536 + vMeas / 2) / vMeas
  (clampI 45875 91750 (((r * r + 32768) / 65536 : Nat) : Int)).toNat

/-- K_T of R319. -/
def kT (alpha tRef tHead : Int) : Nat :=
  (clampI 52429 81920 (65536 + Int.fdiv (alpha * (tRef - tHead) + 8) 16)).toNat

/-- K of R319. -/
def kLine (kh kv kt : Nat) : Nat := (((kh * kv + 32768) / 65536) * kt + 32768) / 65536 % 2 ^ 18

/-- K_H of head h for page p: a new trim that waits for the page comes before what the object holds (R447). -/
def trimFor (s : State) (h p : Nat) : Nat :=
  match s.cal.trims.find? (fun t => t.1 == h && t.2.2.2.any (fun q => reached q p)) with
  | some t => if s.dict.dirty.contains Obj.headTrim then fireN s h p Obj.headTrim h else t.2.1
  | none => fireN s h p Obj.headTrim h

/-- Fire time and occupancy end of the line that head h fires last before its next one. -/
def fireBefore (s : State) (h : Nat) : Option (Nat × Nat) :=
  match (headU s h).committed.getLast? with
  | some c => some (c.fire, c.occEnd)
  | none => (headU s h).lastFire

/-- The earliest permitted fire of head h, none before its first fired line (R335). -/
def earliest (s : State) (h : Nat) : Option Nat :=
  (fireBefore s h).map (fun f => max f.2 (f.1 + ceilDiv 40000000000 (getN s Obj.fireFmax 0)))

/-- The slip budget in units of 1/64 tick (R336). -/
def slipBudget (s : State) : Nat := getN s Obj.slipBudget 0 * ceilDiv 40000000000 (getN s Obj.fireFmax 0) / 64

/-- A LINE frame (R350). -/
def lineFrame (lseq p y k fire : Nat) (bank : Bool) (codes : List Word) : List Word :=
  let w0 := wd (lseq % 4096 * 2 ^ 24 + p % 2 ^ 24)
  let w1 := wd (y % 2 ^ 18 * 2 ^ 18 + k)
  let w2 := wd fire
  let w3 := wd (if bank then 2 ^ 35 else 0)
  [w0, w1, w2, wd (w3.toNat + crc16Hdr w0 w1 w2 w3)] ++ codes

/-- Fire-delay values accepted since apply from the head's first line committed after their run (R436). -/
def delayTake (h : Nat) (s : State) : State :=
  match vget s.cal.delayNew h none with
  | some v => { s with cal := { s.cal with delayNow := vset s.cal.delayNow h v, delayNew := vset s.cal.delayNew h none } }
  | none => s

/-- The committed line goes out: F, K and the frame are fixed (R309, R318 to R320, R350). -/
def commitFire (h p y fire : Nat) (dp dt : Int) (bank : Bool) (codes : List Word) (s : State) : State :=
  let c := vget s.hpc.chans h State.resetChan
  let l := linkU s h
  let staleV := match c.vTick with
    | some t => decide (((s.clock.tick - t : Nat) : Int) * 64 * dp > 4096 * dt)
    | none => true
  let s := if staleV then bump Obj.staleV 0 1 s else s
  let s := if s.clock.tick - l.tempTick > 62500 || l.tempTick = 0 then bump Obj.staleT 0 1 s else s
  let kv := kV (fireN s h p Obj.vNom h) (getN s Obj.hpcV h)
  let kt := kT (fireS s 18 h p Obj.alpha h) (fireS s 18 h p Obj.tRef h) (getS s 18 Obj.headTemp h)
  let k := kLine (trimFor s h p) kv kt
  let s := setN Obj.kLine h k (setN Obj.energyNow h (kv * 2 ^ 18 + kt) s)
  let s := sendHead h 1 (lineFrame l.lseq p y k fire bank codes) (delayTake h s)
  let s := modLink h (fun l => { l with lseq := (l.lseq + 1) % 4096 }) s
  let entry : Committed := { page := p, line := y, lseq := l.lseq, fire := fire, occEnd := fire + 64 * occupancy s h p k codes,
                             frameEnd := (linkU s h).wireEnd, bank := bank, start := (headU s h).starts }
  let s := modHead h (fun u => { u with
    committed := u.committed ++ [entry]
    queue := u.queue.filter (fun q => !(q.page == p && q.line == y)) }) s
  lineStarted h p y false (some fire) s

/-- A head-line is inhibited; the first one of an inhibition raises EV 0B.004, which names it (R338). -/
def inhibitLine (h p y : Nat) (s : State) : State :=
  let s := bookLine h p y .inhibited 1 s
  if (headU s h).inhibitTold then s else
  raise 0x0B004 [p9 h, pInt (getS s 36 Obj.headTemp h), pPage p, pLine y] (modHead h (fun u => { u with inhibitTold := true }) s)

/-- The Line Scheduler commits head h's next head-line where R309 lets it; a head-line beyond the slip budget is
skipped, and one of an inhibited head is inhibited (R324, R336). The Line Scheduler, and for a head with an offset the LDS,
are ready (R22, R47). -/
def commitLine (h : Nat) (s : State) : State :=
  match nextHeadLine s h with
  | none => s
  | some (p, y) =>
    let u := headU s h
    match u.queue.find? (fun q => q.page == p && q.line == y), predict s (boundary s h p y), bankFor s h p with
    | some q, some (f, dp, dt), some bank =>
      let now : Int := s.clock.tick * 64
      let l := linkU s h
      let ft : Int := frameTime s h
      let lead : Int := getN s Obj.fireLead 0 * 40
      if !(headEnabled s h) || !(detectorsArmed s) || haltHolds s p y || isLate s h p y || l.state != .ready || calBusy s h
        || !(rdy s 12) || (decide (ldsUse s h ≠ 0) && !(rdy s 11))
        || decide (now < l.wireEnd) || u.fireTwo.any (fun g => decide (now < g)) || decide (now + ft > f - lead) || !(reachesInHalt s (boundary s h p y)) || s.pwr.season != .summer then s
      else
        let s := restoreAtPage h p y s
        if (headU s h).inhibited then
          lineStarted h p y false none (passLine h p y (inhibitLine h p y s))
        else
        let e : Int := match earliest s h with
          | some e => e
          | none => f
        if f ≥ e then commitFire h p y f.toNat dp dt bank q.codes s
        else if e - f ≤ slipBudget s then
          let s := bump Obj.fireSlips 0 1 s
          let s := if (headU s h).onceSlip = some p then s else
            raise 0x0A001 [p9 h, pPage p, pLine y, pInt (e - f)] (modHead h (fun u => { u with onceSlip := some p }) s)
          commitFire h p y e.toNat dp dt bank q.codes s
        else
          let s := if s.fire.overspeed then s else emit (.overspeed true) { s with fire := { s.fire with overspeed := true } }
          let s := if (headU s h).onceSkip = some p then s else
            raise 0x0A002 [p9 h, pPage p, pLine y] (modHead h (fun u => { u with onceSkip := some p }) s)
          lineStarted h p y true none (passLine h p y (bookLine h p y .skipped 0 s))
    | _, _, _ => s

/-- The position reaches the boundary of head h's next head-line while it is not committed (R308): its line start,
with the outcome of R324. A head-line that is neither blanked nor inhibited under rows 1 to 3 has no frame, and is
blanked too (notes/assumptions/20.md). -/
def boundaryStart (h : Nat) (s : State) : State :=
  match nextHeadLine s h with
  | none => s
  | some (p, y) =>
    if !(headEnabled s h) || !(detectorsArmed s) || haltHolds s p y then s else
    let s := restoreAtPage h p y s
    lineStarted h p y false none (passLine h p y (
      if (linkU s h).state != .ready then bookLine h p y .blanked 2 s
      else if (headU s h).inhibited then inhibitLine h p y s
      else bookLine h p y .blanked 3 s))

/-- A committed line has fired (R44, R335). -/
def lineFired (h : Nat) (c : Committed) (s : State) : State :=
  bookLine h c.page c.line .fired 0 (modHead h (fun u => { u with
    committed := u.committed.filter (fun x => x.start != c.start), lastFire := some (c.fire, c.occEnd) }) s)

/-- New ADC values of channel h apply at the FIRE boundary of a page (R436). -/
def adcTake (h : Nat) (s : State) : State :=
  match vget s.cal.adcNew h none with
  | some v => { s with cal := { s.cal with adcNow := vset s.cal.adcNow h v, adcNew := vset s.cal.adcNew h none } }
  | none => s

/-- The FIRE boundary of page p at head h: its first line's fire time (R91, R92, R361, R436, R447). -/
def fireBoundary (h p : Nat) (s : State) : State := adcTake h (applyTrim h p (settleBanks (beginFire h p s)))

/-- The oldest line start of head h that waits for its fire time: a committed line, or one that passed without a frame. -/
def oldestStart (s : State) (h : Nat) : Option (Nat × Nat × Option Committed × Nat) :=
  let u := headU s h
  let first := (u.committed.map (·.start) ++ u.passed.map (·.2.2)).min?
  match u.committed.find? (fun c => some c.start == first) with
  | some c => some (c.page, c.line, some c, c.start)
  | none => (u.passed.find? (fun x => some x.2.2 == first)).map (fun x => (x.1, x.2.1, none, x.2.2))

/-- The fire time of a line start is past: a committed line has fired, another one no longer waits. -/
def startPast (h : Nat) (c : Option Committed) (n : Nat) (s : State) : State :=
  match c with
  | some c => lineFired h c s
  | none => modHead h (fun u => { u with passed := u.passed.filter (fun x => x.2.2 != n) }) s

/-- Line y of page p has had its fire time at head h (R91): FIRE objects switch at the first line of a page, and a page may
end at its last. -/
def linePast (h p y : Nat) (s : State) : State :=
  let s := if y = 0 then fireBoundary h p s else s
  if (pageOf s p).any (fun x => lastLine x == some y) then
    endPages { s with pages := s.pages.map (fun x =>
      if x.num == p then { x with heads := x.heads ||| BitVec.ofNat 32 (2 ^ h) } else x) }
  else s

/-- Head h reaches the fire time of the oldest of its line starts that waits for it (R44, R91). -/
def fireReached (h : Nat) (s : State) : State :=
  match oldestStart s h with
  | none => s
  | some (p, y, c, n) => linePast h p y (startPast h c n s)

/-- A write of 1 to 0A.005 BOOK_CLEAR sets the counters of every head to zero (R321). LDS_RESIDENT counts what the
LDS holds, which is nothing outside a page. -/
def bookClearDo (s : State) : State :=
  { s with fire := { s.fire with heads := s.fire.heads.map (fun u =>
    { u with book := State.resetHead.book }) } }

/-- The line group holding L and every line group before it on its page are complete (R331). -/
def haltData (s : State) : Bool :=
  let lg := s.fire.halt.line / 4
  match pageOf s s.fire.halt.page with
  | some x => decide (lg < x.nextLg) && !(x.missing.any (fun g => decide (g ≤ lg)))
  | none => false

/-- DATA_READY and BEHIND follow in PHASE 2, and HALT_REQ is released when both are set (R331). -/
def haltFlags (s : State) : State :=
  let x := s.fire.halt
  if x.phase != 2 then s else
  let x := { x with dataReady := x.dataReady || haltData s, behind := x.behind || decide (posNow s ≤ getPos s Obj.rewindPos 0) }
  if x.haltReq && x.dataReady && x.behind then
    emit (.haltReq false) { s with fire := { s.fire with halt := { x with haltReq := false } } }
  else { s with fire := { s.fire with halt := x } }

/-- PHASE 1 ends (R329): the resume boundaries are published. -/
def haltStop (s : State) : State :=
  if s.fire.halt.phase != 1 || predicts s || s.fire.heads.toList.any (fun u => !u.committed.isEmpty) then s else
  let s := forEach (List.range 32) (fun h s =>
    match headEnabled s h, nextHeadLine s h with
    | true, some (p, y) =>
      setE Obj.resumeBoundary h (posElem (boundary s h p y)) (modHead h (fun u => { u with resume := some (p, y) }) s)
    | _, _ => setE Obj.resumeBoundary h 0 (modHead h (fun u => { u with resume := none }) s)) s
  let bs := (List.range 32).filterMap (fun h => (headU s h).resume.map (fun l => boundary s h l.1 l.2))
  let r := match bs with
    | b :: rest => rest.foldl min b
    | [] => 0
  let s := setE Obj.rewindPos 0 (posElem (r - 4096 * (getN s Obj.resumeRunup 0 : Int))) (setE Obj.resumePos 0 (posElem r) s)
  haltFlags { s with fire := { s.fire with halt := { s.fire.halt with phase := 2 } } }

/-- A pending Nozzle Table commit whose page has begun at INPUT takes effect too (R342 step 5): its one boundary is SCREEN,
and no page is left to reach it. -/
def forceBegunNt (s : State) : State :=
  match s.nt.pending, s.dict.begunInput with
  | some p, some q => if reached p q then ntSwitch p s else s
  | _, _ => s

/-- The commits whose page has begun at any boundary take effect at every boundary and head (R342 step 5). -/
def forceBegunCommits (s : State) : State :=
  settleBanks (forEach (pendingCommits s) (fun ic s =>
    if ic.2.inputDone || ic.2.screenDone || ic.2.heads != 0 then
      setSlot ic.1 none (forEach (ic.2.objs.filter (fun o => isFireObj o || !ic.2.screenDone))
        (fun o s => switchObj o (objEntries ic.2.image o) s) s)
    else s) s)

/-- Every page in progress is abandoned (R342 steps 2, 3, 5 and 6). -/
def abandonPages (s : State) : State :=
  let ps := s.pages.map (·.num)
  let mine := fun (p : Nat) => ps.contains p
  let s := lateFlush s
  let s := forEach (List.range 32) (fun h s =>
    let s := discardLds h (fun e => mine e.1) s
    modHead h (fun u => { u with queue := u.queue.filter (fun q => !(mine q.page))
                                 lateLines := [], passed := [], resume := none, next := none }) s) s
  let held := (s.rfe.groups.filter (fun g => mine g.page && g.rows.isNone)).foldl (fun n g => n + g.charge) 0
  let s := releaseWords held s
  let s := { s with
    fabric := { s.fabric with cells := s.fabric.cells.filter (fun c => !(mine c.page)), downFor := none, work := none
                              compSent := false, edgeIn := s.fabric.edgeIn.filter (fun f => !(mine f.page)) }
    insp := { s.insp with fox := { s.insp.fox with slots := s.insp.fox.slots.filter (fun e => !(mine e.page)) } }
    rfe := { s.rfe with groups := s.rfe.groups.filter (fun g => !(mine g.page)), abandoned := ps, inPage := none
                        lastPage := match s.rfe.inPage with
                          | some x => some x.1
                          | none => s.rfe.lastPage
                        tables := 0, tableWords := 0, tableObjs := []
                        ahead := s.rfe.ahead + s.rfe.tableWords }
    pages := []
    fire := { s.fire with late := [], lateEvents := [], unscreened := [], handNext := none, firstPage := true } }
  forceBegunNt (forceBegunCommits (rideCount ps.length s))

/-- A halt in force ends without resuming (R342 step 4). -/
def endHalt (s : State) : State :=
  let s := if s.fire.halt.haltReq then emit (.haltReq false) s else s
  { s with fire := { s.fire with halt := { phase := 0, page := 0, line := 0, dataReady := false, behind := false, haltReq := false } } }

/-- CHECK_INSTANT (R27). -/
def execCheckInstant (t page lg : Nat) (s : State) : Host.Outcome State Fault Refusal := happen t (checkLg page lg) s

/-- HANDOVER_INSTANT (R312): of the next page line for heads of offset 0, or of a head with an offset. -/
def execHandoverInstant (t : Nat) (head : Option Head) (s : State) : Host.Outcome State Fault Refusal :=
  happen t (fun s => match head with
    | none => handOver s
    | some h => handOverLds h.val s) s

/-- HANDOVER_DEADLINE (R28). -/
def execHandoverDeadline (t : Nat) (head : Head) (s : State) : Host.Outcome State Fault Refusal := happen t (deadline head.val) s

/-- LINE_COMMIT (R309). -/
def execLineCommit (t : Nat) (head : Head) (s : State) : Host.Outcome State Fault Refusal := happen t (commitLine head.val) s

/-- BOUNDARY_REACHED (R308). -/
def execBoundaryReached (t : Nat) (head : Head) (s : State) : Host.Outcome State Fault Refusal := happen t (boundaryStart head.val) s

/-- FIRE_TIME_REACHED (R91). -/
def execFireTimeReached (t : Nat) (head : Head) (s : State) : Host.Outcome State Fault Refusal := happen t (fireReached head.val) s

/-- HALT_STOPPED (R329). -/
def execHaltStopped (t : Nat) (s : State) : Host.Outcome State Fault Refusal := happen t haltStop s

end Sys2Proof.Machine
end

