-- ==== Sys2Proof/Machine/Web.lean ====
section
/-! DEFINITION. The Web Position Unit at work (R376 to R393): what a change of position does, the sources and their
loss, presets, encoders, ENCOUT, and the arming of compare units. -/

namespace Sys2Proof.Machine

open Sys2Proof

/-- Divided ENCOUT steps as the position goes from p to q (R393): one for each k with PHASE + k·DIV crossed, 50 ticks
(80 ns) apart. A step that waits longer than that is an overrun (notes/assumptions/21.md). Pins at high impedance (R80) show none. -/
def encoutSteps (p q : Int) (s : State) : State :=
  if fld (getW s Obj.encoutCfg 0) 35 34 != 3 || !(encoutDriven s) then s else
  let d : Int := getN s Obj.encoutDiv 0
  let ph := getPos s Obj.encoutPhase 0
  let n := Int.fdiv (q - ph) d - Int.fdiv (p - ph) d
  if n = 0 then s else
  let first := max s.clock.tick (s.pos.encout + 50)
  let free := if first - s.clock.tick > 50 then 0 else if first = s.clock.tick then 2 else 1
  let s := bump Obj.encoutOverruns 0 (n.natAbs - free) s
  emit (.encout n) { s with pos := { s.pos with encout := first + 50 * (n.natAbs - 1) } }

/-- A forward crossing of REWIND_POS with HALT_REQ released arms the detectors (R333); the web may have rested on it. -/
def resumeAt (p q : Int) (s : State) : State :=
  let r := getPos s Obj.rewindPos 0
  if s.fire.halt.phase = 2 && !s.fire.halt.haltReq && decide (p ≤ r) && decide (r < q) then
    raise 0x0A004 (pPage s.fire.halt.page :: pPos r) { s with fire := { s.fire with halt := { s.fire.halt with phase := 3 } } }
  else s

/-- The position may have changed: the direction of motion follows (R377), ENCOUT steps (R393), backward motion
cancels the committed lines (R310), and a stopped halt looks at REWIND_POS (R331, R333). -/
def posTouch (s : State) : State :=
  let p := s.pos.last
  let q := posNow s
  if p = q then s else
  let s := encoutSteps p q { s with pos := { s.pos with last := q, backward := decide (q < p) } }
  let s := if q < p then cancelCommitted s else s
  resumeAt p q (haltFlags s)

/-- The position is set, not moved: no direction, no step follows from it (notes/assumptions/22.md). -/
def posSet (s : State) : State := { s with pos := { s.pos with last := posNow s } }

/-- A ride-through starts (R387): Hare takes over from the last latch, at its position and at the speed of the
velocity window (rounded down: notes/assumptions/23.md). Its limit is the end of the page after the newest page in
progress. -/
def rideStart (e : Nat) (s : State) : State :=
  let (p, t) := match s.fire.latches.head? with
    | some l => l
    | none => (posNow s, s.clock.tick)
  let v : Int := match velWindow s with
    | some (dp, ticks) => if ticks = 0 then 0 else satS 36 (Int.fdiv (dp * 2 ^ 20 * 10000) ticks)
    | none => 0
  let page := match s.pages.getLast? with
    | some x => x.num
    | none => 0
  let s := loadHare p t v { s with pos := { s.pos with srcState := 1, rideLimit := s.pages.length + 1 } }
  raise 0x0C005 (p9 e :: pPage page :: pPos p) s

/-- Encoder e leaves OK or is switched off: where it is the active source in use, R386 applies. -/
def sourceLost (e cause : Nat) (s : State) : State :=
  if s.pos.source != e || s.pos.srcState != 0 then s
  else if getN s Obj.fallback 0 = 1 && pageInProgress s && rdy s 15 then rideStart e s
  else holdSource cause s

/-- Encoder e fails with an event, where its state lets it (R380). -/
def encFail (e code : Nat) (params : List Word) (s : State) : State :=
  let st := (encU s e).state
  if st = 1 then sourceLost e 1 (raise code params (setEncState e 2 s))
  else if st = 3 then raise code params (setEncState e 2 s)
  else s

/-- The front end of encoder e is held in reset: the core treats it as a failed source (R41). -/
def encHeld (s : State) (e : Nat) : Bool := bitOf (getW s Obj.funcReset 0) (13 + e)

/-- Encoder e is OFF, FAILED or held: it can neither be chosen nor preset. -/
def encDead (s : State) (e : Nat) : Bool := (encU s e).state == 0 || (encU s e).state == 2 || encHeld s e

/-- The front end of encoder e comes to be held in reset (R41, R380). -/
def frontHeld (e : Nat) (s : State) : State :=
  if (encU s e).state = 1 then sourceLost e 1 (setEncState e 2 s) else s

/-- The front end of encoder e is released (R39, R41): its count restarts, the encoder is UNREFERENCED, and where it is
the active source with no ride-through the source is lost. -/
def frontReleased (e : Nat) (s : State) : State :=
  if (encU s e).state = 0 then s else
  let s := setN Obj.indexErr e 0 (modEnc e (fun u => { u with
    count := 0, newest := 0, period := 0, edges := false, indexRef := none, wires := 0 }) (setEncState e 3 s))
  if s.pos.source = e && s.pos.srcState != 1 then holdSource 2 s else s

/-- Encoder e switched on with count and position 0, or off (R380). A front end held in reset makes it FAILED (R41). -/
def encEnable (e : Nat) (on : Bool) (s : State) : State :=
  let st := (encU s e).state
  if on && st = 0 then
    posSet (setEncState e (if encHeld s e then 2 else 1) (modEnc e (fun u => { u with
      count := 0, newest := sampleAt s.clock.tick, period := 0, edges := false, indexRef := none, pRef := 0, fRef := 0
      corrDone := 0, corrNow := none }) s))
  else if !on && st != 0 then
    let s := setEncState e 0 s
    if st = 1 then sourceLost e 1 s else s
  else s

/-- A write to 0C.100 ENC_CFG: ENABLE acts at once, the other fields at the next latch (R382). -/
def encCfgDo (e : Nat) (v : Word) (s : State) : State := encEnable e (bitOf v 35) (setN Obj.encCfg e v.toNat s)

/-- A new FORMAT, INVERT, FILTER or SCALE is taken at a latch, where the position does not step (R382). -/
def encTake (e : Nat) (s : State) : State :=
  let u := encU s e
  let cfg := getW s Obj.encCfg e
  let sc := getN s Obj.encScale e
  if u.cfg = cfg && u.scale = sc then s else
  let s := refEnc e (encPosAt u s.clock.tick) s
  modEnc e (fun u => { u with cfg := cfg, scale := sc }) s

/-- 0C.000 POS_SOURCE may not be written (R376, R387). -/
def posSourceAbort (v : Nat) (s : State) : Nat :=
  if v = 2 then 0
  else
    if encDead s v || ((encU s v).state = 3 && s.pos.srcState != 0) then 0x0C else 0

/-- The new source adopts the position of the old one at a latch (R376): a ride-through ends, the source is OK. -/
def adoptSource (s : State) : State :=
  let src := getN s Obj.posSource 0
  if src = s.pos.source then s else
  let p := posNow s
  let s := { s with pos := { s.pos with source := src } }
  if src = 2 then loadHare p s.clock.tick s.hare.v { s with pos := { s.pos with srcState := 0 } }
  else if !(encDead s src) then setEncState src 1 (refEnc src p { s with pos := { s.pos with srcState := 0 } })
  else holdSource 1 { s with pos := { s.pos with held := p, srcState := 2 } }

/-- 0C.003 POS_PRESET may not be written (R388). -/
def presetAbort (s : State) : Nat :=
  if pageInProgress s && decide (s.pos.srcState = 0) then 0x07
  else if s.pos.source ≠ 2 && encDead s s.pos.source then 0x0C
  else 0

/-- Head-lines whose boundary lies behind a preset position have no line start (R388): the head goes on to the first
one that does not. -/
def passBy (q : Int) (s : State) : State :=
  forEach (List.range 32) (fun h s =>
    match (headU s h).next with
    | none => s
    | some (p, y) => match pageOf s p with
      | none => s
      | some x =>
        let y' := max y (Int.toNat (-(Int.fdiv (-(q - x.origin - headOffset s h)) 4096)))
        let y' := match lastLine x with
          | some m => min y' (m + 1)
          | none => y'
        if y' = y then s else modHead h (fun u => { u with next := some (p, y') }) s) s

/-- A preset takes effect at a latch (R388): the active source reads q, a ride-through ends, and an unreferenced
encoder is OK again. -/
def presetNow (s : State) : State :=
  match s.pos.preset with
  | none => s
  | some q =>
    let s := { s with pos := { s.pos with preset := none } }
    let src := s.pos.source
    let s := if src = 2 then loadHare q s.clock.tick s.hare.v { s with pos := { s.pos with srcState := 0 } }
      else if !(encDead s src) then setEncState src 1 (refEnc src q { s with pos := { s.pos with srcState := 0 } })
      else { s with pos := { s.pos with srcState := 2, held := q } }
    passBy q (posSet s)

/-- A latch (R305, R376, R382, R385, R388): what waits for it takes effect, and the pair of position and tick joins
the window, which keeps 257 of them. -/
def latch (s : State) : State :=
  let s := posTouch (forEach [0, 1] finishCorr s)
  let s := posSet (adoptSource (forEach [0, 1] encTake s))
  let s := presetNow s
  { s with fire := { s.fire with latches := ((posNow s, s.clock.tick) :: s.fire.latches).take 257 } }

/-- 0C.005 SPEED in 1/16 line/s (R402): dp in 1/4,096 line over ticks of 1.6 ns, rounded down. -/
def speedNow (s : State) : Int :=
  match velWindow s with
  | some (dp, ticks) => if ticks = 0 then 0 else satS 36 (Int.fdiv (dp * 625000000) (256 * ticks))
  | none => 0

/-- Compare unit i. -/
def cmpU (s : State) (i : Nat) : CmpUnit := vget s.cmps i { armedBack := false, behind := false, queue := [] }
def modCmp (i : Nat) (f : CmpUnit → CmpUnit) (s : State) : State := { s with cmps := vmod s.cmps i f }

/-- Compare unit i is armed now against its V (R389); in page mode its queue is what it fires from (R392). -/
def cmpArmNow (i : Nat) (s : State) : State :=
  let v := getPos s Obj.cmpPos i
  let p := posNow s
  let back := s.pos.backward
  if bitOf (getW s Obj.cmp i) 33 then modCmp i (fun u => { u with armedBack := false, behind := false }) s
  else if (if back then decide (v < p) else decide (p < v)) then
    modCmp i (fun u => { u with armedBack := back, behind := false }) s
  else raise 0x0C006 (p9 i :: pPos v) (modCmp i (fun u => { u with armedBack := !back, behind := true }) s)

/-- 0C.180 CMP may not be written with v (R390, R402). -/
def cmpAbort (i : Nat) (v : Word) (s : State) : Nat :=
  if fld v 27 18 = 0 || fld v 32 31 = 3 then 0x06
  else if bitOf v 35 && fld v 32 31 = 2 && pinConflict s none (some i) (fld v 30 29) (fld v 28 28) then 0x0C
  else 0

/-- A write to 0C.180 CMP (R389): ENABLE 1 arms the unit. A unit that is off, or that leaves page mode, has no queue. -/
def cmpDo (i : Nat) (v : Word) (s : State) : State :=
  let s := setN Obj.cmp i (v &&& 0xBFFFC0000#36).toNat s
  let s := if bitOf v 35 && bitOf v 33 then s else modCmp i (fun u => { u with queue := [] }) s
  if bitOf v 35 then cmpArmNow i s else modCmp i (fun u => { u with behind := false }) s

/-- 0C.180 CMP as it reads (R402). -/
def cmpWord (s : State) (i : Nat) : Word :=
  let u := cmpU s i
  wd ((getW s Obj.cmp i &&& 0xBFFFC0000#36).toNat + (if u.behind then 2 ^ 34 else 0) + (if u.armedBack then 2 ^ 17 else 0)
    + u.queue.length * 2 ^ 10)

/-- Entries at the head of a page-mode queue that have already been passed are discarded and counted (R392). -/
def cmpDrop (i : Nat) : Nat → State → State
  | 0, s => s
  | n + 1, s => match (cmpU s i).queue with
    | (v, _) :: rest => if v ≤ posNow s then
        cmpDrop i n (bump Obj.cmpMissed i 1 (modCmp i (fun u => { u with queue := rest }) s)) else s
    | [] => s

/-- A page origin reaches every page-mode unit that is enabled (R392). -/
def cmpOrigin (page : Nat) (origin : Int) (s : State) : State :=
  forEach (List.range 8) (fun i s =>
    let w := getW s Obj.cmp i
    if !(bitOf w 35 && bitOf w 33) then s
    else if (cmpU s i).queue.length ≥ 64 then bump Obj.cmpMissed i 1 s
    else cmpDrop i 64 (modCmp i (fun u => { u with queue := u.queue ++ [(origin + getPos s Obj.cmpPos i, page)] }) s)) s

/-- Levels of an encoder that ENCOUT repeats (R393), while its pins are driven (R80). -/
def encoutRepeat (e : Nat) (z : Bool) (s : State) : State :=
  if fld (getW s Obj.encoutCfg 0) 35 34 = e + 1 && encoutDriven s then emit (.encoutLevels (encU s e).a (encU s e).b z) s else s

/-- ENCODER_EDGE (R378, R381). A front end in reset counts nothing (R41); what it counts crosses to the timebase as a
counter (R36). -/
def execEncoderEdge (t : Nat) (enc : Enc) (a b : Bool) (sample : Nat) (s : State) : Host.Outcome State Fault Refusal :=
  happen t (fun s => if encHeld s enc.val then s
    else
      let before := (encU s enc.val).count
      let s := encEdge enc.val a b sample s
      let s := xingCount enc.val (sgn 36 (pat 36 ((encU s enc.val).count - before))) s
      posTouch (encoutRepeat enc.val false s)) s

/-- INDEX_PULSE (R384, R385). -/
def execIndexPulse (t : Nat) (enc : Enc) (s : State) : Host.Outcome State Fault Refusal :=
  happen t (fun s => if encHeld s enc.val then s
    else posTouch (encoutRepeat enc.val true (judgeIndex enc.val s))) s

/-- ENCODER_WIRE_FAULT (R379, R380, R386). -/
def execEncoderWireFault (t : Nat) (enc : Enc) (pair : Fin 3) (s : State) : Host.Outcome State Fault Refusal :=
  happen t (fun s =>
    if (encU s enc.val).state = 0 then s else
    let s := modEnc enc.val (fun u => { u with wires := u.wires ||| BitVec.ofNat 3 (2 ^ pair.val) }) s
    if pair.val = 2 then raise 0x0C001 [p9 enc.val, wd 2] s
    else encFail enc.val 0x0C001 [p9 enc.val, wd pair.val] s) s

/-- ENCODER_OVERSPEED (R379, R380, R386). -/
def execEncoderOverspeed (t : Nat) (enc : Enc) (together : Bool) (s : State) : Host.Outcome State Fault Refusal :=
  happen t (fun s =>
    if (encU s enc.val).state = 0 then s else
    encFail enc.val 0x0C004 [p9 enc.val, wd (if together then 2 else 1)]
      (modEnc enc.val (fun u => { u with overspeed := true }) s)) s

/-- ENCODER_RECOVER (R380): in FAILED the condition on A and B has been absent for 1 ms, else Z has agreed for it
(notes/assumptions/137.md). -/
def execEncoderRecover (t : Nat) (enc : Enc) (s : State) : Host.Outcome State Fault Refusal :=
  happen t (fun s =>
    let failed := decide ((encU s enc.val).state = 2)
    let s := modEnc enc.val (fun u => { u with wires := if failed then u.wires &&& 4 else u.wires &&& 3 }) s
    if failed && !(encHeld s enc.val) then setEncState enc.val 3 s else s) s

/-- POSITION_LATCH (R305). -/
def execPositionLatch (t : Nat) (s : State) : Host.Outcome State Fault Refusal := happen t latch s

end Sys2Proof.Machine
end

