-- ==== Sys2Proof/Machine/Axes.lean ====
section
/-! DEFINITION. Hare and the auxiliary axes (R394 to R401): one servo cycle of each, targets, decelerations, and the
fault of the AUX port. -/

namespace Sys2Proof.Machine

open Sys2Proof

/-- One cycle of Hare (R394). In a ride-through it holds its speed, and in PHASE 1 of a halt slows to rest (R387). -/
def hareCycle (s : State) : State :=
  let v := s.hare.v
  let aim : Int := if s.pos.srcState = 1 then (if s.fire.halt.phase = 1 then 0 else v)
    else if s.hare.run then getS s 36 Obj.hareVmax 0 else 0
  let v' : Int := if v < aim then v + min (getN s Obj.hareAccel 0 : Int) (aim - v)
    else v - min (getN s Obj.hareDecel 0 : Int) (v - aim)
  { s with hare := { s.hare with v := v', xPrev := s.hare.x, x := s.hare.x + v', startTick := s.clock.tick } }

/-- A write to 0D.000 HARE_CTRL (R394): RUN 1 with START_TRIG waits for a trigger unit with TARGET 3. -/
def hareCtrlDo (v : Word) (s : State) : State :=
  let s := setN Obj.hareCtrl 0 (v &&& 0xC00000000#36).toNat s
  let wait := bitOf v 35 && bitOf v 34 && !s.hare.run
  { s with hare := { s.hare with run := bitOf v 35 && !wait, waitTrig := wait } }

/-- A trigger unit with TARGET 3 fires: a RUN that waits for it takes effect (R394). -/
def hareTrigger (s : State) : State :=
  if s.hare.waitTrig then { s with hare := { s.hare with run := true, waitTrig := false } } else s

/-- 0D.000 HARE_CTRL as it reads. -/
def hareCtrlWord (s : State) : Word := setBit (getW s Obj.hareCtrl 0 &&& 0xC00000000#36) 33 (s.hare.v != 0)

/-- Axis a. -/
def axisU (s : State) (a : Nat) : AxisUnit :=
  vget s.axes a { p := 0, v := 0, target := 0, taken := none, deferred := none, inPos := false, driveFault := false }
def modAxis (a : Nat) (f : AxisUnit → AxisUnit) (s : State) : State := { s with axes := vmod s.axes a f }

/-- A position in 2^-16 count as a set-point in counts (R395). -/
def setPoint (p : Int) : Int := Int.fdiv (p + 32768) 65536

/-- ENABLE and MODE of 0D.100 AX_CTRL. -/
def axisOn (s : State) (a : Nat) : Bool := bitOf (getW s Obj.axCtrl a) 35
def axisRing (s : State) (a : Nat) : Bool := bitOf (getW s Obj.axCtrl a) 34

/-- An axis is in motion (R396). -/
def inMotion (u : AxisUnit) : Bool := u.v != 0 || setPoint u.p != setPoint u.target

/-- FAULT of 0D.006 AUX_STATE. -/
def auxFault (s : State) : Bool := bitOf (getW s Obj.auxState 0) 35

/-- Bit 16 of READY (R401). -/
def auxReady (s : State) : State :=
  setUp 16 (bitOf (getW s Obj.auxCfg 0) 35 && !(auxFault s) && s.aux.everGood) s

/-- A move to a target in counts starts in the next cycle, with the DECEL that waited for it (R396, R397). A target
equal to the present set-point is complete at once: EV 0D.003. -/
def startMove (a : Nat) (target : Int) (s : State) : State :=
  let s := modAxis a (fun u => { u with target := target * 65536
                                        taken := if u.deferred.isSome then u.deferred else u.taken
                                        deferred := none }) s
  let s := setI Obj.axTarget a target s
  let sp := setPoint (axisU s a).p
  if target = sp then raise 0x0D003 [p9 a, pInt sp] s else s

/-- STOP (R397): the target becomes the point where the axis comes to rest at DECEL_NOW: v squared over twice DECEL
from here (rounded down: notes/assumptions/24.md). A move that has not begun to run ends where it stands, and is complete
at once (R396). -/
def stopAxis (a : Nat) (s : State) : State :=
  let u := axisU s a
  if !(inMotion u) then s else
  let d : Int := ((u.v * u.v / (2 * max 1 (getN s Obj.axDecelNow a)) : Nat) : Int)
  let tgt := if u.target < u.p then u.p - d else u.p + d
  let s := setI Obj.axTarget a (setPoint tgt) (modAxis a (fun u => { u with target := tgt }) s)
  if u.v = 0 then raise 0x0D003 [p9 a, pInt (setPoint u.p)] s else s

/-- One cycle of an axis in MODE 0 (R395), and whether it completes its move: EV 0D.003. -/
def planAxis (a : Nat) (s : State) : State :=
  let u := axisU s a
  let d := (u.target - u.p).natAbs
  let D := getN s Obj.axDecelNow a
  let vs := isqrt (2 * D * d)
  let v := min (max (min (u.v + getN s Obj.axAccel a) (getN s Obj.axVmax a)) (u.v - D)) vs
  let step := min v d
  let p := if u.target < u.p then u.p - step else u.p + step
  let s := modAxis a (fun u => { u with p := p, v := if step = d then 0 else v }) s
  let s := setI Obj.axSetpoint a (setPoint p) s
  if step = d && (inMotion u || d != 0) then raise 0x0D003 [p9 a, pInt (setPoint p)] s else s

/-- One cycle of an axis (R395, R398): in MODE 1 the set-point is 0D.190 AX_RING_SP and no move is planned. -/
def axisCycle (a : Nat) (s : State) : State :=
  let s := match (axisU s a).taken with
    | some d => setN Obj.axDecelNow a d (modAxis a (fun u => { u with taken := none }) s)
    | none => s
  if !(axisOn s a) then s
  else if axisRing s a then
    let sp := getS s 36 Obj.axRingSp a
    setI Obj.axSetpoint a sp (modAxis a (fun u => { u with p := sp * 65536, v := 0, target := sp * 65536 }) s)
  else planAxis a s

/-- 0D.110 AX_TARGET may not be written (R396). -/
def axTargetAbort (a : Nat) (s : State) : Nat :=
  if axisRing s a || !(axisOn s a) || auxFault s then 0x07
  else if inMotion (axisU s a) then 0x0C else 0

/-- A write to 0D.140 AX_DECEL (R397). -/
def axDecelDo (a d : Nat) (s : State) : State :=
  let s := setN Obj.axDecel a d s
  let u := axisU s a
  if !(inMotion u) || u.v * u.v ≤ 2 * d * (u.target - u.p).natAbs then
    modAxis a (fun u => { u with taken := some d, deferred := none }) s
  else raise 0x0D002 [p9 a, pNum d] (modAxis a (fun u => { u with deferred := some d }) s)

/-- 0D.100 AX_CTRL may not be written with v: MODE changes only at rest (R398). -/
def axCtrlAbort (a : Nat) (v : Word) (s : State) : Nat :=
  if bitOf v 34 != axisRing s a && inMotion (axisU s a) then 0x0C else 0

/-- A write to 0D.100 AX_CTRL; STOP acts and is not kept. -/
def axCtrlDo (a : Nat) (v : Word) (s : State) : State :=
  let s := setN Obj.axCtrl a (v &&& 0xE00000000#36).toNat s
  if bitOf v 32 then stopAxis a s else s

/-- 0D.1A0 AX_STATE (R403). -/
def axState (s : State) (a : Nat) : Word :=
  let u := axisU s a
  wd ((if inMotion u then 2 ^ 35 else 0) + (if u.inPos then 2 ^ 34 else 0) + (if u.driveFault then 2 ^ 33 else 0)
    + (if u.deferred.isSome then 2 ^ 32 else 0))

/-- The AUX port faults (R401): EV 0D.004, FAULT and CAUSE, bit 16, and every axis in MODE 0 stops. -/
def auxFaultNow (cause seq : Nat) (s : State) : State :=
  if auxFault s then s else
  let s := raise 0x0D004 [wd cause, wd seq] s
  let s := auxReady (setN Obj.auxState 0 (2 ^ 35 + cause * 2 ^ 32) s)
  forEach [0, 1] (fun a s => if axisRing s a then s else stopAxis a s) s

/-- A bad reply (R401): counted; the third in a row faults the port. -/
def auxBad (cause seq : Nat) (s : State) : State :=
  let s := bump Obj.auxBadReplies 0 1 { s with aux := { s.aux with badRun := s.aux.badRun + 1, goodRun := 0 } }
  if s.aux.badRun ≥ 3 then auxFaultNow cause seq s else s

/-- Four bytes, most significant first. -/
def bytes32 (i : Int) : List Byte := (List.range 4).map (fun k => BitVec.ofNat 8 (pat 32 i / 256 ^ (3 - k)))

/-- A signed 32-bit value from bytes. -/
def int32 (bs : List Byte) : Int := sgn 32 (bs.foldl (fun a b => a * 256 + b.toNat) 0)

/-- A set-point frame (R400). -/
def auxFrame (s : State) : List Byte :=
  let flags := b2n (axisOn s 0) + 2 * b2n (axisOn s 1) + 4 * b2n (inMotion (axisU s 0)) + 8 * b2n (inMotion (axisU s 1))
  let bs : List Byte := [0xA5#8, BitVec.ofNat 8 s.aux.seq, BitVec.ofNat 8 flags]
    ++ bytes32 (getS s 36 Obj.axSetpoint 0) ++ bytes32 (getS s 36 Obj.axSetpoint 1)
  let c := crc16Bytes bs
  bs ++ [BitVec.ofNat 8 (c / 256), BitVec.ofNat 8 c]

/-- The set-point frame of a servo cycle goes out where the port is enabled (R400) and driven (R80). -/
def auxSend (s : State) : State :=
  let s := { s with aux := { s.aux with seq := (s.aux.seq + 1) % 256 } }
  if bitOf (getW s Obj.auxCfg 0) 35 && auxDriven s then
    emit (.auxFrame (auxFrame s)) { s with aux := { s.aux with waiting := s.aux.waiting ++ [(s.aux.seq, s.clock.tick)] } }
  else s

/-- A reply frame of the drive (R400, R401), to the oldest frame without one. 32 µs are 20,000 ticks. -/
def auxReplyTake (bs : List Byte) (s : State) : State :=
  match s.aux.waiting with
  | [] => s
  | (seq, at0) :: rest =>
    let s := { s with aux := { s.aux with waiting := rest } }
    let c := crc16Bytes (bs.take 11)
    if s.clock.tick - at0 > 20000 then auxBad 1 seq s
    else if bs.length ≠ 13 || bs.head? != some (0x5A#8)
        || bs.drop 11 != [BitVec.ofNat 8 (c / 256), BitVec.ofNat 8 c] then auxBad 2 seq s
    else if (at? bs 1 0).toNat ≠ seq then auxBad 3 seq s
    else
      let fl := (at? bs 2 0).toNat
      let s := { s with aux := { s.aux with badRun := 0, goodRun := s.aux.goodRun + 1, everGood := true } }
      let s := setI Obj.axActual 0 (int32 ((bs.drop 3).take 4)) (setI Obj.axActual 1 (int32 ((bs.drop 7).take 4)) s)
      let s := forEach [0, 1] (fun a s => modAxis a (fun u => { u with inPos := nbit fl (2 + a), driveFault := nbit fl (4 + a) }) s) s
      let s := auxReady s
      if nbit fl 4 || nbit fl 5 then auxFaultNow 4 seq s else s

/-- A write to 0D.005 AUX_CFG; with ENABLE 0 no reply has arrived yet. -/
def auxCfgDo (v : Word) (s : State) : State :=
  let s := setN Obj.auxCfg 0 (v &&& 0x800000000#36).toNat s
  auxReady (if bitOf v 35 then s else { s with aux := { s.aux with waiting := [], everGood := false, badRun := 0, goodRun := 0 } })

/-- FAULT of 0D.006 may not be cleared (R401). -/
def auxClearAbort (s : State) : Nat := if s.aux.goodRun ≥ 16 then 0 else 0x0C

/-- FAULT of 0D.006 is cleared (R401). -/
def auxClearDo (s : State) : State := auxReady (setN Obj.auxState 0 (setBit (getW s Obj.auxState 0) 35 false).toNat s)

end Sys2Proof.Machine
end

