-- ==== Sys2Proof/Machine/HeadPower.lean ====
section
/-! DEFINITION. Head power channels (chapter 18): requests, staggered checks, ramps, trips and latches, samples, and
the die-to-die link as far as the power die acts on it. The commands that may leave Summer by force stand in
Season.lean. -/

namespace Sys2Proof.Machine

open Sys2Proof

/-- Channel n. -/
def chan (s : State) (n : Nat) : Chan := vget s.hpc.chans n State.resetChan
def modChan (n : Nat) (f : Chan → Chan) (s : State) : State := { s with hpc := { s.hpc with chans := vmod s.hpc.chans n f } }

/-- Code of a channel state (R471). -/
def chCode : ChState → Nat
  | .off => 0
  | .check => 1
  | .ramp => 2
  | .on => 3
  | .tripped => 4
  | .latched => 5
  | .held => 6

/-- Bit 21 of READY (R482). -/
def hpcReady (s : State) : State :=
  setUp 21 (s.hpc.proved && !s.pwr.vdrvLow
    && s.hpc.chans.toList.any (fun c => c.state != .latched && c.state != .held)) s

/-- A channel's state set; a channel that leaves ON leaves the switch-on order and its window flag (R473, R478). -/
def setChan (n : Nat) (st : ChState) (s : State) : State :=
  let s := modChan n (fun c => { c with state := st, window := if st = .on then c.window else false, outOfWindow := 0 }) s
  let order := s.hpc.order.filter (fun x => x != n)
  hpcReady { s with hpc := { s.hpc with
    order := if st = .on then order ++ [n] else order
    waiting := s.hpc.waiting.filter (fun x => x != n) } }

/-- A bit of 12.000 HPC_ENABLE cleared. -/
def clearRequest (n : Nat) (s : State) : State := setN Obj.hpcEnable 0 (setBit (getW s Obj.hpcEnable 0) n false).toNat s

/-- 12.000 HPC_ENABLE may not be written with v (R472): the bits it sets. -/
def hpcEnableAbort (v : Word) (s : State) : Nat :=
  let new := (List.range 32).filter (fun n => bitOf v n && !(bitOf (getW s Obj.hpcEnable 0) n))
  if new.isEmpty then 0
  else if s.pwr.season != .summer || !(rdy s 20) || bitOf (getW s Obj.funcReset 0) 21 then 0x07
  else if new.any (fun n => (chan s n).state = .latched || (chan s n).state = .held) then 0x0C
  else 0

/-- A write to 12.000 HPC_ENABLE (R472): a channel whose bit is set waits for its stagger slot, one whose bit is
cleared goes to OFF at once, from any state but LATCHED and HELD. -/
def hpcEnableDo (v : Word) (s : State) : State :=
  let old := getW s Obj.hpcEnable 0
  let s := setN Obj.hpcEnable 0 (v.toNat % 2 ^ 32) s
  forEach (List.range 32) (fun n s =>
    if bitOf v n && !(bitOf old n) then { s with hpc := { s.hpc with waiting := s.hpc.waiting ++ [n] } }
    else if bitOf old n && !(bitOf v n) then
      (if (chan s n).state = .latched || (chan s n).state = .held then
        { s with hpc := { s.hpc with waiting := s.hpc.waiting.filter (fun x => x != n) } }
       else setChan n .off s)
    else s) s

/-- A channel enters CHECK in its stagger slot (R473). -/
def enterCheck (n : Nat) (s : State) : State :=
  let s := setChan n .check s
  { s with hpc := { s.hpc with lastCheck := some s.clock.tick } }

/-- A trip (R475, R476): counted, EV 12.001, and the channel TRIPPED, or LATCHED where the trips of the last 10 s
exceed OC_RETRIES. -/
def tripChan (n cause : Nat) (s : State) : State :=
  let recent := (s.clock.tick :: (chan s n).trips).filter (fun t => decide (s.clock.tick - t < 6250000000))
  let s := bump Obj.trips n 1 s
  let s := modChan n (fun c => { c with trips := recent, tripCount := satN 4 recent.length, cause := cause }) (setChan n .tripped s)
  let s := raise 0x12001 [p9 n, pInt (getS s 18 Obj.hpcI n), pNum (chan s n).tripCount] s
  if recent.length > getN s Obj.ocRetries 0 then
    raise 0x12002 [p9 n, pNum (chan s n).tripCount] (modChan n (fun c => { c with cause := 1 }) (setChan n .latched s))
  else s

/-- The checks before switch-on, in order (R474). The measurement does not tell which sense wire is open: a free
value (notes/assumptions/25.md). A channel in CHECK when Autumn begins goes on (notes/assumptions/130.md). -/
def checkDone (n : Nat) (vSense vSupply : Int) (s : State) : State :=
  if (chan s n).state != .check then s
  else if vSense < -(getN s Obj.revV 0 : Int) then
    raise 0x12004 [p9 n, pInt vSense] (modChan n (fun c => { c with cause := 4 }) (setChan n .latched s))
  else if vSense > (getN s Obj.openV 0 : Int) then
    let second := bitOf (freeVal s) 0
    let s := setChan n .latched (takeFree s)
    raise 0x12003 [p9 n, wd (if second then 2 else 1), wd 1, pInt vSense]
      (modChan n (fun c => { c with cause := 3, openP := !second, openN := second }) s)
  else if vSupply < (fld (getW s Obj.hpcVwin n) 35 18 : Int) || vSupply > (fld (getW s Obj.hpcVwin n) 17 0 : Int) then
    raise 0x12005 [p9 n, pInt vSupply, wd 1]
      (clearRequest n (modChan n (fun c => { c with cause := 5 }) (setChan n .off s)))
  else setChan n .ramp s

/-- Every channel off together (R69, R480): LATCHED and HELD are kept, every request is cleared. -/
def allOff (s : State) : State :=
  let s := forEach (List.range 32) (fun n s => match (chan s n).state with
    | .off => s
    | .latched => s
    | .held => s
    | _ => modChan n (fun c => { c with cause := 6 }) (setChan n .off s)) s
  setN Obj.hpcEnable 0 0 { s with hpc := { s.hpc with waiting := [], order := [] } }

/-- Orderly Autumn step 4 begins (R67, R484): channels in CHECK, RAMP or TRIPPED go off at once. -/
def autumnOffBegin (s : State) : State :=
  let s := forEach (List.range 32) (fun n s => match (chan s n).state with
    | .check => clearRequest n (setChan n .off s)
    | .ramp => clearRequest n (setChan n .off s)
    | .tripped => clearRequest n (setChan n .off s)
    | _ => s) s
  { s with hpc := { s.hpc with waiting := [] } }

/-- The channel switched on last goes off, with its request (R67, R472). -/
def autumnOffNext (s : State) : State :=
  match s.hpc.order.getLast? with
  | some n => clearRequest n (setChan n .off s)
  | none => s

/-- A write to 12.001 HPC_UNLATCH (R483). -/
def unlatchDo (v : Word) (s : State) : State :=
  forEach (List.range 32) (fun n s =>
    if bitOf v n && decide ((chan s n).state = .latched) then
      modChan n (fun c => { c with cause := 0, tripCount := 0, trips := [], openP := false, openN := false }) (setChan n .off s)
    else s) s

/-- The V samples of a channel are held while its ADC is calibrated (R434). -/
def vHeld (s : State) (n : Nat) : Bool := s.cal.running.any (fun r => r.item == 2 && r.target == n)

/-- A V sample (R478, R479). -/
def sampleV (n : Nat) (v : Int) (s : State) : State :=
  if vHeld s n then s else
  let s := setN Obj.hpcV n (clampI 0 262143 v).toNat (modChan n (fun c => { c with vTick := some s.clock.tick }) s)
  if (chan s n).state != .on then s
  else if v < (fld (getW s Obj.hpcVwin n) 35 18 : Int) || v > (fld (getW s Obj.hpcVwin n) 17 0 : Int) then
    let s := modChan n (fun c => { c with outOfWindow := c.outOfWindow + 1 }) s
    if (chan s n).outOfWindow ≥ getN s Obj.winFilter 0 && !(chan s n).window then
      raise 0x12005 [p9 n, pInt v, wd 3] (modChan n (fun c => { c with window := true }) s)
    else s
  else modChan n (fun c => { c with outOfWindow := 0, window := false }) s

/-- 12.100 HPC_STATE (R485). -/
def hpcWord (s : State) (n : Nat) : Word :=
  let c := chan s n
  wd (chCode c.state * 2 ^ 33 + c.cause * 2 ^ 30 + (if bitOf (getW s Obj.hpcEnable 0) n then 2 ^ 29 else 0)
    + (if c.window then 2 ^ 28 else 0) + (if c.openP then 2 ^ 27 else 0) + (if c.openN then 2 ^ 26 else 0)
    + satN 4 c.tripCount * 2 ^ 22)

/-- 12.180 OC_LIMIT, 12.1C0 SHUNT: the product must lie in 10 to 150 mV (R485). -/
def ocProductBad (a b : Nat) : Bool := decide (a * b < 10000000) || decide (a * b > 150000000)

/-- 12.140 HPC_VWIN may not be written with v (R485). -/
def vwinAbort (v : Word) : Nat :=
  let lo := fld v 35 18
  let hi := fld v 17 0
  if lo < 8000 || lo > 48000 || hi < 8000 || hi > 48000 || lo ≥ hi then 0x06 else 0

/-- A stagger slot is free (R473): no channel entered CHECK in the last 100 µs. -/
def slotFree (s : State) : Bool :=
  match s.hpc.lastCheck with
  | some c => decide (s.clock.tick - c ≥ 62500)
  | none => true

/-- STAGGER_SLOT (R473): the lowest channel that waits enters CHECK in a free slot. -/
def execStaggerSlot (t : Nat) (ch : Head) (s : State) : Host.Outcome State Fault Refusal :=
  happen t (fun s =>
    if s.pwr.season = .summer && rdy s 21 && slotFree s && s.hpc.waiting.contains ch.val
        && s.hpc.waiting.all (fun n => decide (ch.val ≤ n)) then enterCheck ch.val s else s) s

/-- CHANNEL_CHECK_DONE (R474). -/
def execChannelCheckDone (t : Nat) (ch : Head) (vSense vSupply : Int) (s : State) : Host.Outcome State Fault Refusal :=
  happen t (checkDone ch.val vSense vSupply) s

/-- RAMP_SETTLED (R475). -/
def execRampSettled (t : Nat) (ch : Head) (s : State) : Host.Outcome State Fault Refusal :=
  happen t (fun s => if (chan s ch.val).state = .ramp then setChan ch.val .on s else s) s

/-- RAMP_TIMEOUT (R475). -/
def execRampTimeout (t : Nat) (ch : Head) (s : State) : Host.Outcome State Fault Refusal :=
  happen t (fun s => if (chan s ch.val).state = .ramp then tripChan ch.val 2 s else s) s

/-- OVERCURRENT_TRIP (R476): armed in RAMP and in ON. -/
def execOvercurrentTrip (t : Nat) (ch : Head) (s : State) : Host.Outcome State Fault Refusal :=
  happen t (fun s => if (chan s ch.val).state = .ramp || (chan s ch.val).state = .on then tripChan ch.val 1 s else s) s

/-- TRIP_HOLDOFF_END (R471, R473): the retry takes the present stagger slot where one is free, else it waits. -/
def execTripHoldoffEnd (t : Nat) (ch : Head) (s : State) : Host.Outcome State Fault Refusal :=
  happen t (fun s =>
    if (chan s ch.val).state != .tripped then s else
    if slotFree s && s.hpc.waiting.isEmpty && s.pwr.season == .summer then enterCheck ch.val s
    else if s.hpc.waiting.contains ch.val then s
    else { s with hpc := { s.hpc with waiting := s.hpc.waiting ++ [ch.val] } }) s

/-- TRIP_COUNT_CLEAR (R476). -/
def execTripCountClear (t : Nat) (ch : Head) (s : State) : Host.Outcome State Fault Refusal :=
  happen t (fun s => if (chan s ch.val).state = .on then modChan ch.val (fun c => { c with tripCount := 0, trips := [] }) s else s) s

/-- SENSE_OPEN (R477). -/
def execSenseOpen (t : Nat) (ch : Head) (wireN : Bool) (mv : Int) (s : State) : Host.Outcome State Fault Refusal :=
  happen t (fun s =>
    if (chan s ch.val).state != .on then s else
    raise 0x12003 [p9 ch.val, wd (if wireN then 2 else 1), wd 3, pInt mv]
      (modChan ch.val (fun c => { c with cause := 3, openP := c.openP || !wireN, openN := c.openN || wireN })
        (setChan ch.val .latched s))) s

/-- ADC_SEQUENCE (R479): a start within the 4.0 µs of a running sequence is ignored and counted. -/
def execAdcSequence (t : Nat) (byTrigger : Bool) (s : State) : Host.Outcome State Fault Refusal :=
  happen t (fun s =>
    if !byTrigger && getN s Obj.adcTrigOnly 0 = 1 then s
    else match s.hpc.adcStart with
      | some c => if s.clock.tick - c < 2500 then bump Obj.adcMissed 0 1 s
          else { s with hpc := { s.hpc with adcStart := some s.clock.tick } }
      | none => { s with hpc := { s.hpc with adcStart := some s.clock.tick } }) s

/-- ADC_SAMPLE (R478, R479). -/
def execAdcSample (t : Nat) (ch : Head) (current : Bool) (value : Int) (s : State) : Host.Outcome State Fault Refusal :=
  happen t (crossing 12 (fun s =>
    if current then setN Obj.hpcI ch.val (pat 36 (satS 18 value)) s else sampleV ch.val value s)) s

/-- D2D_COMMAND_FRAME (R480): a frame that fails its CRC is ignored; 100 good frames, 100 µs, bring a lost link back. -/
def execD2dCommandFrame (t : Nat) (crcOk : Bool) (s : State) : Host.Outcome State Fault Refusal :=
  happen t (fun s =>
    if !crcOk then s else
    let s := xingQueue 12 1 s
    let s := { s with hpc := { s.hpc with goodFrames := satN 12 (s.hpc.goodFrames + 1) } }
    if s.hpc.lost && decide (s.hpc.goodFrames ≥ 100) then
      setUp 20 true { s with hpc := { s.hpc with lost := false } }
    else s) s

end Sys2Proof.Machine
end

