-- ==== Sys2Proof/Machine/Time.lean ====
section
/-! DEFINITION. TIME72 and its servo, IEEE 1588, trigger units and capture units (chapter 05). -/

namespace Sys2Proof.Machine

open Sys2Proof

/-- The Timebase's clock changed. -/
def modClock (f : Clock → Clock) (s : State) : State := { s with clock := f s.clock }

/-- The 1588 exchange changed. -/
def modPtp (f : Ptp → Ptp) (s : State) : State := { s with ptp := f s.ptp }

/-- A TIME72 value in ps, rounded half up (R155). -/
def psOf (v : Nat) : Int := roundHalfUp ((v : Int) * 1000000000000) (2 ^ 36)

/-- TIME72 at an instant in 1/64 tick not after the present tick. -/
def timeAt (s : State) (x : Nat) : Nat :=
  ((s.clock.acc - (64 * s.clock.tick - x) * getN s Obj.rateAddend 0 / 64) / 2 ^ 28) % 2 ^ 72

/-- The local time of a timestamp, in ps (R153, R162). -/
def localPs (s : State) (x : Nat) : Int := psOf (timeAt s x)

/-- A flag of 03.005 TIME_FLAGS. -/
def timeFlag (b : Nat) (on : Bool) (s : State) : State :=
  setN Obj.timeFlags 0 (setBit (getW s Obj.timeFlags 0) b on).toNat s

/-- Entry to a SYNC_STATE (R151) with READY bit 6 (R152) and the events of R499; the means start again. -/
def syncEnter (n : Nat) (s : State) : State :=
  let s := modClock (fun c => { c with meanSum := 0, meanCount := 0, goodMeans := 0 }) (setN Obj.syncState 0 n s)
  let s := if n = 2 then setUp 6 true s else if n = 3 then s else setUp 6 false s
  if n = 2 then raise 0x03001 [p9 (getN s Obj.timeSource 0), getW s Obj.offset 0] s
  else if n = 3 then raise 0x03002 [p9 (getN s Obj.timeSource 0), getW s Obj.offset 0] s
  else s

/-- A free-running device locks at once when the Timebase is ready (R151). -/
def freeRun (s : State) : State :=
  if getN s Obj.timeSource 0 == 0 && getN s Obj.syncState 0 == 0 && depReady (ownUp s) 5 then syncEnter 2 s else s

/-- The source is lost (R151, R160): holdover from states 1 and 2. The offset predicted at its end is the last one
sampled (notes/assumptions/26.md). -/
def enterHoldover (s : State) : State :=
  let st := getN s Obj.syncState 0
  if st = 1 ∨ st = 2 then
    modClock (fun c => { c with predicted := getS s 36 Obj.offset 0 }) (syncEnter 3 s)
  else s

/-- Trigger unit u. -/
def trigU (s : State) (u : Nat) : TrigUnit := vget s.trigs u State.resetTrig

/-- A trigger unit changed. -/
def modTrig (u : Nat) (f : TrigUnit → TrigUnit) (s : State) : State := { s with trigs := vmod s.trigs u f }

/-- A step of TIME72 to a value: an armed unit whose TRIG_START it passes is late, and fires at the tick after it (R167). -/
def trigPassed (after : Nat) (s : State) : State :=
  let before := time72 s
  forEach (List.range 16) (fun u s =>
    let start := (getE s Obj.trigStart u).toNat
    if bitOf (getW s Obj.trig u) 35 && (trigU s u).nextFire.isNone && decide (before < start) && decide (start < after) then
      modTrig u (fun x => { x with passed := true }) (setN Obj.trig u (setBit (getW s Obj.trig u) 34 true).toNat s)
    else s) s

/-- TIME72 steps to its source, `theta` ps behind it (R158, R159). -/
def stepTime (theta : Int) (s : State) : State :=
  let d := roundHalfUp (theta * 2 ^ 64) 1000000000000
  let new := (((s.clock.acc : Int) - d) % 2 ^ 100).toNat
  modClock (fun c => { c with acc := new }) (trigPassed (new / 2 ^ 28) s)

/-- Nominal RATE_ADDEND and its limits (R149). -/
def rateNominal : Int := 29514790518
def rateLimit (r : Int) : Nat := (clampI 29219642613 29809938423 r).toNat

/-- The servo (R157): theta in ps, T in ps, L in ppm. The rate is the exact quotient rounded half up
(notes/assumptions/27.md). -/
def servo (theta T : Int) (ppm : Int) (s : State) : State :=
  let i := s.clock.iAcc + roundHalfUp (clampI (-20000) 20000 theta) 256
  let limit8 := 8 * ppm * T / 1000000
  let corr8 := clampI (-limit8) limit8 theta
  let rate := rateNominal - Int.fdiv (2 * rateNominal * (8 * i + corr8) + 8 * T) (16 * T)
  timeFlag 32 (decide (corr8 = limit8 ∨ corr8 = -limit8))
    (setN Obj.rateAddend 0 (rateLimit rate) (modClock (fun c => { c with iAcc := i }) s))

/-- The state machine of R151 at a valid sample. -/
def syncStep (ring : Bool) (theta : Int) (s : State) : State :=
  let win : Int := if ring then 2000 else 100000
  let lose : Int := if ring then 20000 else 1000000
  let len : Nat := if ring then 16 else 8
  let st := getN s Obj.syncState 0
  let s := if st = 0 then syncEnter 1 s
    else if st = 3 then syncEnter (if theta.natAbs ≤ win.toNat then 2 else 1) s
    else s
  let sum := s.clock.meanSum + theta
  if s.clock.meanCount + 1 < len then
    modClock (fun c => { c with meanSum := sum, meanCount := c.meanCount + 1 }) s
  else
    let good := if sum.natAbs ≤ win.toNat * len then s.clock.goodMeans + 1 else 0
    let s := modClock (fun c => { c with meanSum := 0, meanCount := 0, goodMeans := good }) s
    if getN s Obj.syncState 0 == 1 && decide (good ≥ 4) then syncEnter 2 s
    else if getN s Obj.syncState 0 == 2 && decide (sum.natAbs > lose.toNat * len)
        && !(bitOf (getW s Obj.timeFlags 0) 33) then syncEnter 1 s
    else s

/-- The first intact named copy after a change of named copy (R161). -/
def rerouteCheck (theta : Int) (s : State) : State :=
  let s := if s.clock.rerouted then
      let d := theta - s.clock.predicted
      let s := raise 0x03006 [pInt d, wd (b2n s.ring.namedB)] (modClock (fun c => { c with rerouted := false }) s)
      if d.natAbs > 20000 then timeFlag 33 true s else s
    else s
  if bitOf (getW s Obj.timeFlags 0) 33 && decide (theta.natAbs ≤ 2000) then timeFlag 33 false s else s

/-- The rows of R158's table, and what comes before them: TIME_RESYNC (R159) and a re-route slew (R161). -/
inductive Absorb where
  | resync
  | reroute
  | step
  | servo
  | hold
  | backSlew
  | pending
deriving DecidableEq, Repr

/-- The row that an offset falls under (R158, R159, R161). -/
def absorbRow (theta : Int) (s : State) : Absorb :=
  let summer := inSeason .summer s
  if s.clock.resync && !(summer && decide (theta > 0)) then .resync
  else if bitOf (getW s Obj.timeFlags 0) 33 then .reroute
  else if theta < -1000000 then
    (if !summer || !(pageInProgress s) then .step else if theta < -10000000000 then .hold else .servo)
  else if theta > 10000000000 then .pending
  else if theta > 1000000 then .backSlew
  else .servo

/-- How an offset is absorbed (R157 to R159, R161): a held offset and a backward slew last as long as their row does. -/
def absorb (theta T : Int) (s : State) : State :=
  let row := absorbRow theta s
  let before := s.clock
  let s := modClock (fun c => { c with held := if row = .hold then some theta else none, slewing := decide (row = .backSlew) }) s
  match row with
  | .resync => stepTime theta (timeFlag 35 false (timeFlag 34 false (modClock (fun c => { c with resync := false }) s)))
  | .reroute => servo theta T 100 s
  | .step => stepTime theta s
  | .servo => servo theta T 500 s
  | .hold => if before.held.isNone then raise 0x03005 [pInt (roundHalfUp theta 1000), 0] s else s
  | .backSlew => servo theta T 500 (if before.slewing then s else raise 0x03004 [pInt theta] s)
  | .pending =>
    timeFlag 35 true (timeFlag 34 true
      (if bitOf (getW s Obj.timeFlags 0) 34 then s else raise 0x03005 [pInt (roundHalfUp theta 1000), 1] s))

/-- An offset sample (R151, R157, R158, R161). -/
def offsetSample (ring : Bool) (theta T : Int) (s : State) : State :=
  let s := modClock (fun c => { c with sampled := true }) (setI Obj.offset 0 (satS 36 theta) s)
  absorb theta T (syncStep ring theta (if ring then rerouteCheck theta s else s))

/-- Why a write to 03.000 TIME_NOW is refused (R159). -/
def timeNowAbort (v : Nat) (s : State) : Nat :=
  if getN s Obj.timeSource 0 != 0 then 0x07
  else if inSeason .summer s && (pageInProgress s || decide (v < time72 s)) then 0x07
  else 0

/-- TIME_NOW takes the value written (R159); an armed unit whose TRIG_START a forward step passes is late (R167). -/
def timeNowDo (v : Nat) (s : State) : State :=
  modClock (fun c => { c with acc := v * 2 ^ 28 }) (trigPassed v (xingQueue 14 1 s))

/-- Why a write of 1 to 03.006 TIME_RESYNC is refused (R159). -/
def resyncAbort (s : State) : Nat := if inSeason .summer s then 0x07 else 0

/-- TIME_RESYNC (R159): PENDING clears, and the next sample steps. -/
def resyncDo (s : State) : State :=
  timeFlag 35 false (timeFlag 34 false (modClock (fun c => { c with resync := true }) s))

/-- Why a write to 03.002 TIME_SOURCE is refused (R170). -/
def timeSourceAbort (v : Nat) (s : State) : Nat :=
  if role s = 2 then 0x07 else if v > 1 then 0x06 else 0

/-- A new TIME_SOURCE: the device has no sample from it yet (notes/assumptions/28.md). -/
def timeSourceDo (v : Nat) (s : State) : State :=
  if v = getN s Obj.timeSource 0 then s else
  let s := setN Obj.timeSource 0 v s
  let s := { s with ptp := { s.ptp with master := none, sync := none, haveSync := false, delayTx := none,
                                        pdelayTx := none, pdelayResp := none } }
  let s := modClock (fun c => { c with sampled := false, slewing := false, held := none }) s
  freeRun (syncEnter 0 (setN Obj.ptpState 0 (if v = 1 then 4 * 2 ^ 32 else 0) s))

/-! IEEE 1588 (R162, R163). The message rules of IEEE 1588-2019 are PRESUMED (notes/assumptions/29.md). -/

/-- The device follows IEEE 1588 and the message is of its domain (R162). -/
def ptpOn (h : PtpHdr) (s : State) : Bool :=
  getN s Obj.timeSource 0 == 1 && fld (getW s Obj.ptpCfg 0) 7 0 == h.domain

/-- The delay mechanism is P2P (R162). -/
def ptpP2p (s : State) : Bool := bitOf (getW s Obj.ptpCfg 0) 35

/-- A correctionField in ps. -/
def corrPs (h : PtpHdr) : Int := roundHalfUp (h.correction * 1000) 65536

/-- The interval of a log value, in ps, within -7 to 1 (R162). -/
def intervalPs (l : Int) : Int :=
  let l := clampI (-7) 1 l
  if l < 0 then 1000000000000 / 2 ^ (-l).toNat else 1000000000000 * 2 ^ l.toNat

/-- The port state of 03.00B PTP_STATE: 4 listening, 8 uncalibrated, 9 slave. -/
def ptpPort (s : State) : State :=
  let st : Nat := if s.ptp.master.isNone then 4 else if getN s Obj.syncState 0 = 2 then 9 else 8
  setN Obj.ptpState 0 (setFld (getW s Obj.ptpState 0) 35 32 st).toNat s

/-- A Sync with its timestamps: an offset sample (R151, R157). -/
def ptpOffset (rx origin corr T : Int) (s : State) : State :=
  let diff := rx - origin - corr - getS s 36 Obj.hostAsym 0
  let s := modPtp (fun p => { p with syncDiff := diff, haveSync := true }) s
  ptpPort (offsetSample false (diff - getS s 36 Obj.ptpMeanDelay 0) T s)

/-- The sender is the parent of the chosen grandmaster. -/
def fromParent (h : PtpHdr) (s : State) : Bool := s.ptp.master.isSome && h.sender == s.ptp.parent

/-- PTP_SYNC (R162): a one-step Sync is a sample, a two-step one waits for its Follow_Up. -/
def execPtpSync (t : Nat) (h : PtpHdr) (origin : Int) (rx : Nat) (s : State) : Host.Outcome State Fault Refusal :=
  happen t (fun s =>
    let rx := localPs s rx
    if !(ptpOn h s && fromParent h s) then s else
    let s := setN Obj.ptpState 0 (setBit (getW s Obj.ptpState 0) 31 h.twoStep).toNat s
    if h.twoStep then modPtp (fun p => { p with sync := some (h.seq, rx, corrPs h) }) s
    else ptpOffset rx origin (corrPs h) (intervalPs h.logInterval) s) s

/-- PTP_FOLLOW_UP (R162): the origin of the Sync of the same sequence number. -/
def execPtpFollowUp (t : Nat) (h : PtpHdr) (origin : Int) (s : State) : Host.Outcome State Fault Refusal :=
  happen t (fun s =>
    if !(ptpOn h s && fromParent h s) then s else
    match s.ptp.sync with
    | none => s
    | some (seq, rx, corr) =>
      if seq != h.seq then s else
      ptpOffset rx origin (corr + corrPs h) (intervalPs h.logInterval) (modPtp (fun p => { p with sync := none }) s)) s

/-- The group addresses of time messages, and of those of the peer delay mechanism (R162): 224.0.1.129, 224.0.0.107. -/
def ptpGroup : BitVec 32 := 0xE0000181#32
def pdelayGroup : BitVec 32 := 0xE000006B#32

/-- The correctionField of a request that leaves (R162): less HOST_ASYM, in 2^-16 ns. -/
def asymCorrection (s : State) : Int := roundHalfUp (-(getS s 36 Obj.hostAsym 0) * 65536) 1000

/-- The domain of 03.00A PTP_CFG (R162). -/
def ptpDomain (s : State) : Nat := fld (getW s Obj.ptpCfg 0) 7 0

/-- PTP_DELAY_REQ_TIMER (R162): a Delay_Req leaves under E2E. -/
def execPtpDelayReqTimer (t : Nat) (tx : Nat) (s : State) : Host.Outcome State Fault Refusal :=
  happen t (fun s =>
    let tx := localPs s tx
    if !(getN s Obj.timeSource 0 == 1 && !(ptpP2p s) && s.ptp.master.isSome) then s else
    let n := (s.ptp.reqSeq + 1) % 65536
    emit (.ptp 1 n (ptpDomain s) 319 ptpGroup (asymCorrection s) [tx]) (modPtp (fun p => { p with reqSeq := n, delayTx := some (n, tx) }) s)) s

/-- PTP_DELAY_RESP (R162): the mean path delay. -/
def execPtpDelayResp (t : Nat) (h : PtpHdr) (rx : Int) (s : State) : Host.Outcome State Fault Refusal :=
  happen t (fun s =>
    if !(ptpOn h s && fromParent h s && !(ptpP2p s)) then s else
    match s.ptp.delayTx with
    | none => s
    | some (seq, tx) =>
      if seq != h.seq || !s.ptp.haveSync then s else
      setI Obj.ptpMeanDelay 0 (satS 36 (roundHalfUp (s.ptp.syncDiff + (rx - tx - corrPs h)) 2))
        (modPtp (fun p => { p with delayTx := none }) s)) s

/-- Announce b is better than a: the dataset comparison of IEEE 1588-2019. -/
def betterMaster (a b : Announce) : Bool :=
  let key (x : Announce) : List Nat :=
    [x.priority1, x.clockClass, x.accuracy, x.variance, x.priority2, x.identity.toNat, x.stepsRemoved]
  let rec less : List Nat → List Nat → Bool
    | x :: xs, y :: ys => if x = y then less xs ys else decide (x < y)
    | _, _ => false
  less (key b) (key a)

/-- PTP_ANNOUNCE (R163). -/
def execPtpAnnounce (t : Nat) (h : PtpHdr) (ann : Announce) (s : State) : Host.Outcome State Fault Refusal :=
  happen t (fun s =>
    if !(ptpOn h s) then s else
    let take := match s.ptp.master with
      | none => true
      | some m => h.sender == s.ptp.parent || betterMaster m ann
    if !take then s else
    let hi := wd (ann.identity.toNat / 2 ^ 32)
    let lo := wd (ann.identity.toNat % 2 ^ 32)
    let old := (getN s Obj.ptpGmId 0, getN s Obj.ptpGmId 1)
    let s := modPtp (fun p => { p with
      master := some ann, parent := h.sender
      sync := if p.parent = h.sender then p.sync else none
      haveSync := p.haveSync && p.parent == h.sender }) s
    let s := setN Obj.ptpGmId 1 lo.toNat (setN Obj.ptpGmId 0 hi.toNat s)
    let s := setN Obj.ptpState 0 (setFld (getW s Obj.ptpState 0) 15 0 ann.stepsRemoved).toNat s
    let s := if old != (0, 0) && old != (hi.toNat, lo.toNat) then
        let s := raise 0x03003 [hi, lo] s
        if getN s Obj.syncState 0 = 0 then s else syncEnter 1 s
      else s
    ptpPort s) s

/-- PDELAY_REQ_TIMER (R162): a Pdelay_Req leaves under P2P. -/
def execPdelayReqTimer (t : Nat) (tx : Nat) (s : State) : Host.Outcome State Fault Refusal :=
  happen t (fun s =>
    let tx := localPs s tx
    if !(getN s Obj.timeSource 0 == 1 && ptpP2p s) then s else
    let n := (s.ptp.reqSeq + 1) % 65536
    emit (.ptp 2 n (ptpDomain s) 319 pdelayGroup (asymCorrection s) [tx]) (modPtp (fun p => { p with reqSeq := n, pdelayTx := some (n, tx), pdelayResp := none }) s)) s

/-- PTP_PDELAY_REQ (R162): answered under P2P, in two steps; the Follow_Up carries the request's correctionField back. -/
def execPtpPdelayReq (t : Nat) (h : PtpHdr) (rx tx : Nat) (s : State) : Host.Outcome State Fault Refusal :=
  happen t (fun s =>
    if ptpOn h s && ptpP2p s then
      emit (.ptp 10 h.seq (ptpDomain s) 320 pdelayGroup h.correction [localPs s tx])
        (emit (.ptp 3 h.seq (ptpDomain s) 319 pdelayGroup 0 [localPs s rx]) s)
    else s) s

/-- PTP_PDELAY_RESP (R162). -/
def execPtpPdelayResp (t : Nat) (h : PtpHdr) (t2 : Int) (rx : Nat) (s : State) : Host.Outcome State Fault Refusal :=
  happen t (fun s =>
    let rx := localPs s rx
    match s.ptp.pdelayTx with
    | none => s
    | some (seq, tx) =>
      if !(ptpOn h s && ptpP2p s && seq == h.seq) then s else
      let got := rx - corrPs h - getS s 36 Obj.hostAsym 0
      if h.twoStep then modPtp (fun p => { p with pdelayResp := some (h.seq, t2, got) }) s
      else setI Obj.ptpMeanDelay 0 (satS 36 (roundHalfUp (got - tx) 2)) (modPtp (fun p => { p with pdelayTx := none }) s)) s

/-- PTP_PDELAY_RESP_FOLLOW_UP (R162). -/
def execPtpPdelayRespFollowUp (t : Nat) (h : PtpHdr) (t3 : Int) (s : State) : Host.Outcome State Fault Refusal :=
  happen t (fun s =>
    match s.ptp.pdelayTx, s.ptp.pdelayResp with
    | some (seq, tx), some (_, t2, got) =>
      if !(ptpOn h s && ptpP2p s && seq == h.seq) then s else
      setI Obj.ptpMeanDelay 0 (satS 36 (roundHalfUp (got - tx - (t3 - t2) - corrPs h) 2))
        (modPtp (fun p => { p with pdelayTx := none, pdelayResp := none }) s)
    | _, _ => s) s

/-- SYNC_TIMEOUT (R160). -/
def execSyncTimeout (t : Nat) (s : State) : Host.Outcome State Fault Refusal :=
  happen t (fun s => if getN s Obj.timeSource 0 = 1 then
    ptpPort (enterHoldover (modPtp (fun p => { p with haveSync := false, sync := none }) s)) else s) s

/-- ANNOUNCE_TIMEOUT (R160): the master is gone. -/
def execAnnounceTimeout (t : Nat) (s : State) : Host.Outcome State Fault Refusal :=
  happen t (fun s => if getN s Obj.timeSource 0 = 1 then
    ptpPort (enterHoldover (modPtp (fun p => { p with master := none, haveSync := false, sync := none }) s)) else s) s

/-- HOLDOVER_READY_EXPIRE (R152). -/
def execHoldoverReadyExpire (t : Nat) (s : State) : Host.Outcome State Fault Refusal :=
  happen t (fun s => if getN s Obj.syncState 0 = 3 then setUp 6 false s else s) s

/-! Trigger units (R166 to R168). -/

/-- Why a write of v to 03.100 TRIG element u is refused (R167), in the order of R111. A field counts as written where its
value changes, LATE where a 1 is written (notes/assumptions/30.md). -/
def trigAbort (u : Nat) (v : Word) (s : State) : Nat :=
  let old := getW s Obj.trig u
  let arms := bitOf v 35 && !(bitOf old 35)
  if bitOf old 35 && (bitOf v 34 || decide (fld v 33 0 ≠ fld old 33 0)) then 0x07
  else if fld v 26 17 = 0 ∨ fld v 33 31 ≥ 5 then 0x06
  else if arms && decide (fld v 26 17 * 64 ≥ getN s Obj.trigPeriod u) && decide (fld v 16 0 ≠ 1) then 0x06
  else if arms && decide (fld v 33 31 = 1) && decide (getN s Obj.trigPeriod u ≠ 640000) then 0x06
  else if arms && decide (fld v 33 31 = 1) && (List.range 16).any (fun j => j != u && bitOf (getW s Obj.trig j) 35
      && fld (getW s Obj.trig j) 33 31 == 1) then 0x0C
  else if arms && bitOf v 30 && pinConflict s (some u) none (fld v 29 28) (fld v 27 27) then 0x0C
  else 0

/-- A write of v to TRIG element u (R167): arming with TRIG_START not ahead sets LATE instead. -/
def trigDo (u : Nat) (v : Word) (s : State) : State :=
  let old := getW s Obj.trig u
  let late := bitOf old 34 && !(bitOf v 34)
  let arms := bitOf v 35 && !(bitOf old 35)
  let passed := decide ((getE s Obj.trigStart u).toNat ≤ time72 s)
  let new := setBit (setBit v 34 (late || (arms && passed))) 35 (bitOf v 35 && !(arms && passed))
  let s := setN Obj.trig u new.toNat (xingQueue 14 1 s)
  if arms || !(bitOf v 35) then modTrig u (fun x => { x with nextFire := none, fired := 0, passed := false }) s else s

/-- The instant of a unit's firing at the present tick, in 1/64 tick (R166): at TRIG_START for the first, at the
tick itself where a step has passed TRIG_START (R167), then every TRIG_PERIOD. None where the unit does not fire. -/
def trigInstant (u : Nat) (s : State) : Option Nat :=
  if !(bitOf (getW s Obj.trig u) 35) then none else
  match (trigU s u).nextFire with
  | some x => if x / 64 ≤ s.clock.tick then some x else none
  | none =>
    let start := (getE s Obj.trigStart u).toNat
    if time72 s < start then none
    else if (trigU s u).passed then some (64 * s.clock.tick)
    else some (64 * s.clock.tick - (s.clock.acc - start * 2 ^ 28) * 64 / getN s Obj.rateAddend 0)

/-- A unit fires at an instant (R166): counted, its pulse sent, disarmed after REPEAT firings. -/
def trigFire (u at64 : Nat) (s : State) : State :=
  let w := getW s Obj.trig u
  let n := (trigU s u).fired + 1
  let s := bump Obj.trigFired u 1 s
  let s := if bitOf w 30 then emit (.pulse (fld w 29 28) (bitOf w 27) (fld w 26 17) at64) s else s
  let done := fld w 16 0 != 0 && decide (n ≥ fld w 16 0)
  let s := if done then setN Obj.trig u (setBit w 35 false).toNat s else s
  modTrig u (fun _ => { nextFire := if done then none else some (at64 + getN s Obj.trigPeriod u), fired := n, passed := false
                        lastTick := some s.clock.tick }) s

/-- Another unit has reached the internal target of unit u at this tick: one event is delivered (R168). -/
def trigShared (u : Nat) (s : State) : Bool :=
  (List.range 16).any (fun j => j != u && (trigU s j).lastTick == some s.clock.tick
    && fld (getW s Obj.trig j) 33 31 == fld (getW s Obj.trig u) 33 31)

/-! Capture units (R169). -/

/-- Why a write to 03.140 CAPT is refused: a reserved source or edge (R84). -/
def captAbort (v : Word) : Nat := if fld v 31 28 ≥ 8 ∨ fld v 27 26 = 3 then 0x06 else 0

/-- A write to CAPT: VALID and OVERRUN clear where 1 is written (R85). -/
def captDo (i : Nat) (v : Word) (s : State) : State :=
  let old := getW s Obj.capt i
  setN Obj.capt i (setBit (setBit (v &&& 0xFFFC00000#36) 33 (bitOf old 33 && !(bitOf v 33))) 32
    (bitOf old 32 && !(bitOf v 32))).toNat (xingQueue 14 1 s)

/-- CAPTURE_EDGE (R169, R383): a qualifying edge is counted, and recorded as MODE says; an edge of source 6 is one
of the trigger unit that UNIT names. -/
def execCaptureEdge (t : Nat) (unit : Fin 8) (source : EdgeSource) (rising : Bool) (stamp : Nat) (s : State) :
    Host.Outcome State Fault Refusal :=
  happen t (fun s =>
    let i := unit.val
    let c := getW s Obj.capt i
    let fits := match fld c 27 26 with
      | 0 => rising
      | 1 => !rising
      | 2 => true
      | _ => false
    if !(bitOf c 35 && fld c 31 28 == source.source.val && (source.source.val != 6 || fld c 25 22 == source.trig.val) && fits) then s else
    let s := setN Obj.captCount i (getN s Obj.captCount i + 1) s
    if !(bitOf c 34) && bitOf c 33 then setN Obj.capt i (setBit c 32 true).toNat s
    else
      let p := posNow { s with clock := { s.clock with tick := stamp / 64 } }
      setN Obj.capt i (setBit c 33 true).toNat
        (setE Obj.captPos i (posElem p) (setE Obj.captTime i (timeElem (timeAt s stamp)) s))) s

end Sys2Proof.Machine
end

