-- ==== Sys2Proof/Machine/Season.lean ====
section
/-! DEFINITION. Seasons, rails, resets, wakes and saves (chapter 02): what each entry to a season does to the device,
orderly Autumn step by step, and the ways out of Summer by force. -/

namespace Sys2Proof.Machine

open Sys2Proof

/-- A field of 01.006 BOOT_STATUS set. -/
def setBoot (hi lo v : Nat) (s : State) : State :=
  setN Obj.bootStatus 0 (setFld (getW s Obj.bootStatus 0) hi lo v).toNat s

/-- Code of a season (R53). -/
def seasonCode : Season → Nat
  | .winter => 0
  | .thaw => 1
  | .summer => 2
  | .autumn => 3

/-- A change of season, with EV 01.003 (R53). -/
def seasonTo (x : Season) (s : State) : State :=
  if s.pwr.season = x then s
  else raise 0x01003 [wd (seasonCode s.pwr.season), wd (seasonCode x)] { s with pwr := { s.pwr with season := x } }

/-- The stored value of a memory word as a flash image takes it. -/
def imageWord (s : State) (m a : Nat) : Word :=
  let v := cellAt s m a
  if v.valid = 3 then (match decodeWord v with
    | .good d => d
    | .fixed d => d
    | .bad => policyValue s m)
  else if v.valid = 0 then 0 else policyValue s m

/-- The listed words of memory m below `top` as entries of an object. -/
def imageOf (s : State) (m id top : Nat) : Store :=
  ((memU s m).cells.filter (fun p => decide (p.1 < top))).foldl
    (fun acc p => insertKey acc (objKey id p.1) (el (imageWord s m p.1).toNat)) []

/-- The object goes into the region at 0x20_0000 (R88): Nozzle Table, tone curves, flat field, calibration tables. -/
def inTables (id : Nat) : Bool :=
  id == Obj.nozzleTable || id == Obj.toneCurves || id == Obj.flatField || id == Obj.delayCal || id == Obj.adcCal

/-- The object is saved: its P flag (R13), and the accepted calibration values (R443). -/
def isSaved (id : Nat) : Bool :=
  id == Obj.delayCal || id == Obj.adcCal || (match findObj id with
    | some d => d.persist
    | none => false)

/-- The repair map as words (R468). -/
def repairImage (s : State) : Store :=
  (List.range (s.repairs.length + 1)).foldl
    (fun acc w => insertKey acc (objKey Obj.repairMap w) (el (repairWord s w).toNat)) []

/-- What a save takes (R88): the values in force now, for the two regions. -/
def saveImages (s : State) : Store × Store :=
  let act := s.dict.active.filter (fun p => isSaved (p.1 / 2097152))
  let req : Store := [(objKey Obj.seasonReq 0, el s.pwr.reqSaved)]
  let persist := overlay (overlay (overlay (act.filter (fun p => !(inTables (p.1 / 2097152)))) req)
    (imageOf s 3 Obj.screenStore 1048576)) (if s.repairs.isEmpty then [] else repairImage s)
  let tables := overlay (overlay (act.filter (fun p => inTables (p.1 / 2097152)))
    (imageOf s 2 Obj.nozzleTable 110592)) (imageOf s 7 Obj.flatField 131072)
  (persist, tables)

/-- The copy of a region that a save writes is marked invalid first (R77). -/
def markUnused (r : FlashRegion) : FlashRegion :=
  match r.inUse with
  | some false => { r with copy1 := { r.copy1 with valid := false } }
  | _ => { r with copy0 := { r.copy0 with valid := false } }

/-- The copy written becomes the valid one, with the next sequence number (R77); the first save of a region without one is
notes/assumptions/132.md. -/
def writeUnused (r : FlashRegion) (img : Store) : FlashRegion :=
  match r.inUse with
  | some false => { r with copy1 := { valid := true, seq := (r.copy0.seq + 1) % 65536, image := img }, inUse := some true }
  | some true => { r with copy0 := { valid := true, seq := (r.copy1.seq + 1) % 65536, image := img }, inUse := some false }
  | none => { r with copy0 := { valid := true, seq := 0, image := img }, inUse := some false }

/-- A save starts (R88): SAVE reads 1. -/
def saveStart (s : State) : State :=
  setN Obj.save 0 1 { s with flash := { s.flash with saving := some (saveImages s)
                                                     persist := markUnused s.flash.persist
                                                     tables := markUnused s.flash.tables } }

/-- A save fails (R77, R88). -/
def saveFail (s : State) : State :=
  setBoot 26 26 1 (setN Obj.save 0 3 { s with flash := { s.flash with saving := none } })

/-- A save that is running is abandoned and has failed (R70, R77). -/
def saveAbandon (s : State) : State := if s.flash.saving.isSome then saveFail s else s

/-- A calibration run abandoned leaves its mark (R444): RESULT 4, or 3 for a self-test. -/
def runAbandoned (r : CalReq) (s : State) : State :=
  if r.item = 1 then setN Obj.delayCal r.target (setFld (getW s Obj.delayCal r.target) 26 24 4).toNat s
  else if r.item = 2 then setN Obj.adcCal r.target (setFld (getW s Obj.adcCal r.target) 16 14 4).toNat s
  else setN Obj.selftestResult (r.item - 16) (3 * 2 ^ 33 + r.target % 64 * 2 ^ 27) s

/-- At entry to Autumn (R440, R444): runs are abandoned and every queued request is dropped, each with EV 10.005. -/
def calDrop (s : State) : State :=
  let s := forEach s.cal.running runAbandoned s
  let all := s.cal.queue ++ s.cal.running.filter (fun r => r.item ≤ 2)
  let s := forEach all (fun r s => raise 0x10005 [wd r.item, wd r.target, pNum ((s.clock.tick - r.since) / 625000), wd 2] s) s
  { s with cal := { s.cal with queue := [], running := [] } }

/-- Encoder states as 0C.100 ENC_CFG has them at an entry to Thaw (R380). -/
def freshEnc (s : State) (e : Nat) : EncUnit :=
  let cfg := getW s Obj.encCfg e
  { State.resetEnc with
    cfg := cfg, scale := getN s Obj.encScale e
    state := if !(bitOf cfg 35) then 0 else if bitOf (getW s Obj.funcReset 0) (13 + e) then 2 else 1 }

/-- Channels off, as every season but Summer has them; LATCHED and HELD stay where they are kept (R482), and the values of
12.100 HPC_STATE where objects are (R529). -/
def offChans (latches values : Bool) (s : State) : Vector Chan 32 :=
  s.hpc.chans.map (fun c => if latches && (c.state == .latched || c.state == .held) then c
    else { State.resetChan with trips := if values then c.trips else [], tripCount := if values then c.tripCount else 0 })

/-- The units that come up anew at each entry to Thaw, whatever happens to object values. -/
def freshUnits (keepLatches values : Bool) (s : State) : State :=
  let r := State.reset
  { s with
    clock := { r.clock with tick := s.clock.tick }
    ptp := r.ptp, trigs := r.trigs, ring := r.ring, host := r.host, bond := r.bond, rfe := r.rfe, pages := []
    lanes := s.lanes.map (fun l => { State.resetLane with losses := l.losses, ctle := l.ctle, injecting := l.injecting })
    codec := r.codec, fabric := r.fabric
    fire := { r.fire with heads := s.fire.heads.map (fun u => { State.resetHead with book := { u.book with ldsResident := 0 } }) }
    links := s.links.map (fun l => { State.resetLink with downs := l.downs, cause := l.cause })
    aux := r.aux
    insp := { r.insp with dispSeq := s.insp.dispSeq }
    cal := { r.cal with trims := s.cal.trims, patterns := s.cal.patterns, groups := s.cal.groups, channels := s.cal.channels }
    hpc := { r.hpc with chans := offChans keepLatches values s } }

/-- Encoders, position, Hare and axes as an entry to Thaw that reloads object values leaves them. -/
def freshMotion (s : State) : State :=
  let r := State.reset
  { s with
    encs := Vector.ofFn (fun i => freshEnc s i.val)
    pos := { r.pos with source := getN s Obj.posSource 0
                        srcState := if getN s Obj.posSource 0 = 2 || (freshEnc s (getN s Obj.posSource 0)).state = 1 then 0 else 2 }
    hare := r.hare, axes := r.axes }

/-- The event queue at an entry to Thaw (R504): events raised while the firmware ran enter it, and it is kept and
renumbered from 0. Events of the AON buffer go on waiting (R503). -/
def keepQueue (s : State) : State :=
  let s := queueRaised s
  let q := s.ev.queue.mapIdx (fun i e => { e with seq := i })
  { s with ev := { s.ev with queue := q, nextSeq := q.length } }

/-- Every part of the power state that an entry to Thaw sets (R60, R61). -/
def thawPwr (kept : Bool) (s : State) : State :=
  { s with pwr := { s.pwr with
      inReset := false, powerOn := false, domains := false, bypassOpen := false, up := 1, codeError := false
      autumn := State.reset.pwr.autumn, wakeLatched := none, wakeRunAt := none, restored := kept
      reqWritten := false, romOnly := false, kept := kept } }

/-- Entry to Thaw that reloads object values (R87, R529): every object at its default until the flash is discovered
(R533), every memory cleared (R458). BOOT_STATUS keeps the outcome of the wind-down (R67). -/
def thawReload (cause : Nat) (keepLatches : Bool) (s : State) : State :=
  let boot := getW s Obj.bootStatus 0
  let r := State.reset
  let s := { s with
    dict := r.dict, mem := r.mem, repairs := [], nt := r.nt, cmps := r.cmps, xing := xingReleased, insp := r.insp, cal := r.cal
    flash := { s.flash with saving := none }
    fire := r.fire, links := r.links, lanes := r.lanes
    pwr := { s.pwr with reqSaved := 2 } }
  let s := thawPwr false (freshMotion (freshUnits keepLatches false s))
  setBoot 35 32 cause (setN Obj.bootStatus 0 (fld boot 26 24 * 2 ^ 24) s)

/-- Entry to Thaw that keeps object values (R529, R530): the pages in progress are abandoned, and the memories named
are cleared. Open transfers are abandoned. -/
def thawKeep (cause : Nat) (mems : List Nat) (s : State) : State :=
  let s := endHalt (abandonPages s)
  let fox := s.insp.fox
  let s := { s with dict := { s.dict with transfers := Vector.replicate 4 none, inband := none } }
  let s := thawPwr true (freshUnits true true s)
  let s := setN Obj.syncState 0 0 (setN Obj.maxLineRate 0 0 (setN Obj.tileReady 0 0 s))
  let s := { s with insp := { s.insp with fox := { s.insp.fox with verdicts := fox.verdicts, verdictFrame := fox.verdictFrame } } }
  setBoot 35 32 cause (forEach mems (fun m s => clearMem m (modMem m (fun u => { u with repairing := [], clearing := false }) s)) s)

/-- The events of a change from Autumn or Summer to Thaw. -/
def enterThaw (f : State → State) (s : State) : State :=
  let s := f (keepQueue s)
  seasonTo .thaw { s with pwr := { s.pwr with ready := readyOf s } }

/-- Bits of READY that go at an entry to Thaw or Winter raise their events (R22). -/
def dropReady (s : State) : State := settle { s with pwr := { s.pwr with up := 1 } }

/-- A wake (R59): Winter is left for Thaw, object values reloaded. -/
def wakeUp (cause : Nat) (s : State) : State := enterThaw (thawReload cause false) s

/-- Winter is entered (R55, R504): every domain but AON is off, the bypass closes, the queue is empty. -/
def enterWinter (s : State) : State :=
  let s := { s with ev := { State.reset.ev with nextSeq := 0 } }
  let latched := s.pwr.wakeLatched
  let s := saveAbandon (endHalt (abandonPages s))
  let s := thawPwr false (freshMotion (freshUnits false false s))
  let s := seasonTo .winter { s with pwr := { s.pwr with ready := readyOf s } }
  match latched with
  | some c => wakeUp c s
  | none => s

/-- Autumn step 5 (R67, R70). -/
def autumnEnd (s : State) : State :=
  let a := s.pwr.autumn
  if a.toWinter then enterWinter s
  else if a.firmware then enterThaw (thawKeep 5 [0, 1, 4, 5, 6]) (dropReady s)
  else enterThaw (thawReload 7 true) (dropReady s)

/-- Autumn step 4 (R67): the channel switched on last goes off first. -/
def autumnStep4 (s : State) : State :=
  let s := { s with pwr := { s.pwr with autumn := { s.pwr.autumn with step := 4 } } }
  let s := autumnOffNext (autumnOffBegin s)
  if s.hpc.order.isEmpty then autumnEnd (setN Obj.hpcEnable 0 0 s) else s

/-- Autumn step 3 (R67): the save; without a usable flash it fails at once. -/
def autumnStep3 (s : State) : State :=
  let s := { s with pwr := { s.pwr with autumn := { s.pwr.autumn with step := 3, again := s.flash.saving.isSome } } }
  if s.flash.saving.isSome then s
  else if rdy s 24 then saveStart s
  else autumnStep4 (saveFail s)

/-- Autumn step 2 ends with a result (R67, R399). -/
def capEnd (result : Nat) (s : State) : State :=
  autumnStep3 (setBoot 25 24 result { s with pwr := { s.pwr with autumn := { s.pwr.autumn with capping := [] } } })

/-- An axis starts its capping move (R399), and whether it is complete at once. -/
def capMove (a : Nat) (s : State) : State := startMove a (getS s 36 Obj.axCapPos a) s

/-- Axes that have arrived leave the capping list, one that has finished an earlier move starts its own; the step ends
with the list (R399). -/
def capCheck (s : State) : State :=
  if s.pwr.autumn.step != 2 then s else
  let s := forEach s.pwr.autumn.capping (fun e s =>
    if e.2 && !(inMotion (axisU s e.1)) then
      capMove e.1 { s with pwr := { s.pwr with autumn := { s.pwr.autumn with
        capping := s.pwr.autumn.capping.map (fun x => if x.1 == e.1 then (x.1, false) else x) } } }
    else s) s
  let s := { s with pwr := { s.pwr with autumn := { s.pwr.autumn with
    capping := s.pwr.autumn.capping.filter (fun e => e.2 || inMotion (axisU s e.1)) } } }
  if auxFault s then capEnd 3 s
  else if s.pwr.autumn.capping.isEmpty then capEnd 1 s
  else s

/-- Autumn step 2 (R67, R399): each enabled axis in MODE 0 with CAP_EN moves to its capped position, after the move it
is in. -/
def autumnStep2 (s : State) : State :=
  let s := { s with pwr := { s.pwr with autumn := { s.pwr.autumn with step := 2 } } }
  if s.pwr.autumn.firmware then autumnStep4 s
  else if getN s Obj.autumnCap 0 = 0 then capEnd 0 s
  else
    let caps := [0, 1].filter (fun a => axisOn s a && !(axisRing s a) && bitOf (getW s Obj.axCtrl a) 33)
    let moving := caps.filter (fun a => inMotion (axisU s a))
    let s := { s with pwr := { s.pwr with autumn := { s.pwr.autumn with
      capping := caps.map (fun a => (a, moving.contains a)) } } }
    if auxFault s then capEnd 3 s
    else capCheck (forEach (caps.filter (fun a => !(moving.contains a))) capMove s)

/-- Every head bridge on a READY link has confirmed idle: step 1 ends (R67, R363). -/
def idleCheck (s : State) : State :=
  if s.pwr.autumn.step = 1 && s.links.toList.all (fun l => l.state != .ready || l.idle) then autumnStep2 s else s

/-- Autumn begins (R67, R70): no line frame is sent any more (commits need Summer), the calibration queue is dropped. -/
def autumnStart (toWinter firmware : Bool) (s : State) : State :=
  let s := seasonTo .autumn { s with pwr := { s.pwr with
    autumn := { step := 1, toWinter := toWinter, firmware := firmware, capping := [], again := false } } }
  idleCheck (calDrop s)

/-- A firmware restart (R70, R71): through Autumn, or the wind-down in progress is cut short and keeps its heading
(notes/assumptions/131.md). A save that runs in Summer goes on (notes/assumptions/133.md). -/
def codeRestart (s : State) : State :=
  let s := { s with pwr := { s.pwr with codeError := false } }
  match s.pwr.season with
  | .winter => s
  | .autumn => if s.pwr.autumn.step < 4 then autumnStep4 (saveAbandon s) else s
  | _ => autumnStart false true s

/-- An uncorrectable word of control processor RAM restarts the firmware (R465, R70). -/
def codeCheck (s : State) : State := if s.pwr.codeError then codeRestart s else s

/-- A forced exit from Summer or Autumn (R69): to Thaw with SEASON_REQ 1, or to Winter where Autumn was heading there. -/
def forcedExit (s : State) : State :=
  if s.pwr.season != .summer && s.pwr.season != .autumn then s else
  let winter := s.pwr.season == .autumn && s.pwr.autumn.toWinter
  let s := saveAbandon (calDrop (forceIdle (allOff s)))
  if winter then enterWinter (dropReady s)
  else setN Obj.seasonReq 0 1 (enterThaw (thawKeep 6 [0, 1, 4, 5]) (dropReady s))

/-- 01.004 RAIL_FLAGS and 01.100 RAIL_MEAS as they were in another state: RESET_N does not reach the rail monitors (R71). -/
def keepRails (old s : State) : State :=
  forEach (List.range 9) (fun r s => setN Obj.railMeas r (getN old Obj.railMeas r) s) (setN Obj.railFlags 0 (getN old Obj.railFlags 0) s)

/-- A whole-device reset (R71, R72): everything at reset but what flash and the rails hold. -/
def wholeReset (power : Bool) (s : State) : State :=
  let r := State.reset
  let s := saveAbandon s
  let s' := { r with
    clock := { r.clock with tick := s.clock.tick }
    flash := s.flash, sent := s.sent, free := s.free, pending := s.pending
    pwr := { r.pwr with inReset := true, powerOn := power || s.pwr.powerOn, resetLow := s.pwr.resetLow, strap := s.pwr.strap, grade := s.pwr.grade
                        railsOut := if power then 0 else s.pwr.railsOut, vdrvLow := if power then false else s.pwr.vdrvLow } }
  if power then s' else keepRails s s'

/-- Release of a whole-device reset: the strap is sampled (R486) and the device is in Thaw (R71, R529), with no EV 01.003
(notes/assumptions/129.md). -/
def release (strap : Fin 4) (cause : Nat) (s : State) : State :=
  let old := s
  let s := { s with ev := State.reset.ev, pwr := { s.pwr with strap := strap, season := .thaw } }
  let s := thawReload cause false (setN Obj.bootStatus 0 0 s)
  let s := if cause = 1 then keepRails old s else s
  { s with pwr := { s.pwr with ready := readyOf s } }

/-- The set of R46 is ready (R486: never with strap 11). -/
def summerSet (s : State) : Bool :=
  rdy s 0 && rdy s 20 && rdy s 25 && s.pwr.strap != 3 && (rdy s 1 || rdy s 2 || (rdy s 3 && role s != 2))

/-- 01.001 SEASON_REQ may not be written with v (R66). -/
def seasonReqAbort (v : Nat) (s : State) : Nat :=
  if s.pwr.season = .autumn then 0x08
  else if (v = 1 && s.pwr.season != .thaw) || ((v = 0 || v = 3) && pageInProgress s) then 0x07
  else if v > 3 then 0x06 else 0

/-- A write to 01.001 SEASON_REQ (R65). -/
def seasonReqDo (v : Nat) (s : State) : State :=
  let s := xingQueue 13 1 s
  if v = 0 then autumnStart true false s
  else if v = 3 then autumnStart false false s
  else
    let s := setN Obj.seasonReq 0 v s
    { s with pwr := { s.pwr with reqSaved := v, reqWritten := s.pwr.reqWritten || !s.pwr.restored } }

/-- 00.010 SAVE may not be written with v (R78, R88, R117). -/
def saveAbort (v : Nat) (s : State) : Nat :=
  if s.flash.saving.isSome || !(rdy s 24) then 0x08 else if v ≠ 1 then 0x06 else 0

/-- A save ends (R77, R88); in Autumn step 3 the wind-down goes on. -/
def saveEnd (ok : Bool) (s : State) : State :=
  match s.flash.saving with
  | none => s
  | some (persist, tables) =>
    let s := if ok then
        setBoot 26 26 0 (setN Obj.save 0 2 { s with flash := { s.flash with
          saving := none, persist := writeUnused s.flash.persist persist, tables := writeUnused s.flash.tables tables } })
      else saveFail s
    if s.pwr.season = .autumn && s.pwr.autumn.step = 3 then
      (if s.pwr.autumn.again then
        saveStart { s with pwr := { s.pwr with autumn := { s.pwr.autumn with again := false } } }
       else autumnStep4 s)
    else s

/-- RAIL_OUT_OF_RANGE (R51, R69). -/
def execRailOutOfRange (t : Nat) (rail : Rail) (mv : Nat) (s : State) : Host.Outcome State Fault Refusal :=
  happenAlways t (fun s =>
    let s := setN Obj.railFlags 0 (getW s Obj.railFlags 0 ||| wd (2 ^ rail.val)).toNat s
    let s := setN Obj.railMeas rail.val (satN 18 mv) s
    let s := { s with pwr := { s.pwr with railsOut := s.pwr.railsOut ||| BitVec.ofNat 9 (2 ^ rail.val) } }
    if s.pwr.inReset then s else forcedExit (raise 0x01004 [p9 rail.val, pNum mv] s)) s

/-- RAIL_BACK_IN_RANGE (R51, R151, R528): a free-running device whose Timebase becomes ready with it locks. -/
def execRailBackInRange (t : Nat) (rail : Rail) (s : State) : Host.Outcome State Fault Refusal :=
  happenAlways t (fun s =>
    let s := hpcReady { s with pwr := { s.pwr with
      railsOut := s.pwr.railsOut &&& ~~~ BitVec.ofNat 9 (2 ^ rail.val)
      vdrvLow := if rail.val = 8 then false else s.pwr.vdrvLow } }
    whenB (awake s) freeRun s) s

/-- POWER_ON_RESET (R71, R72). -/
def execPowerOnReset (t : Nat) (s : State) : Host.Outcome State Fault Refusal := happenAlways t (wholeReset true) s

/-- POWER_ON_RELEASE (R71, R486, R529): the power-on reset ends; RESET_N still holds a device while it is low. -/
def execPowerOnRelease (t : Nat) (strap : Fin 4) (s : State) : Host.Outcome State Fault Refusal :=
  happenAlways t (fun s =>
    if !s.pwr.powerOn then s
    else if s.pwr.resetLow then { s with pwr := { s.pwr with powerOn := false } }
    else release strap 0 s) s

/-- RESET_N_LOW (R71, R72). -/
def execResetNLow (t : Nat) (s : State) : Host.Outcome State Fault Refusal :=
  happenAlways t (fun s => wholeReset false { s with pwr := { s.pwr with resetLow := true } }) s

/-- RESET_N_HIGH (R71, R486, R529). The power-on reset still holds a device that it holds. -/
def execResetNHigh (t : Nat) (strap : Fin 4) (s : State) : Host.Outcome State Fault Refusal :=
  happenAlways t (fun s =>
    let s := { s with pwr := { s.pwr with resetLow := false } }
    if s.pwr.inReset && !s.pwr.powerOn then release strap 1 s else s) s

/-- WATCHDOG_TIMEOUT (R70, R71). -/
def execWatchdogTimeout (t : Nat) (s : State) : Host.Outcome State Fault Refusal := happen t codeRestart s

/-- A wake cause that 01.009 WAKE_SRC_EN enables (R56, R59, R68): Winter is left, Autumn latches it. -/
def wakeCause (bit : Nat) (s : State) : State :=
  if s.pwr.inReset || !(bitOf (getW s Obj.wakeSrcEn 0) bit) then s
  else match s.pwr.season with
    | .winter => crossing 13 (wakeUp (2 + bit)) s
    | .autumn => crossing 13 (fun s => { s with pwr := { s.pwr with wakeLatched := match s.pwr.wakeLatched with
        | some c => some c
        | none => some (2 + bit) } }) s
    | _ => s

/-- WAKE_PIN (R56, R59, R68). -/
def execWakePin (t : Nat) (s : State) : Host.Outcome State Fault Refusal := happenAlways t (wakeCause 0) s

/-- WAKE_PATTERN (R56, R59, R68). -/
def execWakePattern (t : Nat) (port : RingPort) (s : State) : Host.Outcome State Fault Refusal :=
  happenAlways t (wakeCause (match port with
    | .rngA => 1
    | .rngB => 2)) s

/-- Ticks that a cycle-frame copy takes to leave (R125): 30.344 µs. -/
def copyTicks : Nat := 18965

/-- A copy is leaving a port (R125). -/
def copyLeaving (port : RingPort) (s : State) : Bool :=
  match (match port with
    | .rngA => s.ring.outA
    | .rngB => s.ring.outB) with
  | some x => decide (s.clock.tick < x + copyTicks)
  | none => false

/-- A wake run goes out of a port where the device has ring ports, and cuts a copy that is leaving there (R58, R486). -/
def wakeRun (port : RingPort) (s : State) : State :=
  if role s = 0 then s else
  let s := if copyLeaving port s then emit (.copyCut port) s else s
  let s := { s with ring := match port with
    | .rngA => { s.ring with runA := some s.clock.tick }
    | .rngB => { s.ring with runB := some s.clock.tick } }
  emit (.wakeRun port) { s with pwr := { s.pwr with wakeRunAt := some s.clock.tick } }

/-- WAKE_RELAY (R58): 1 ms is 625,000 ticks. -/
def execWakeRelay (t : Nat) (port : RingPort) (s : State) : Host.Outcome State Fault Refusal :=
  happen t (fun s =>
    if !(rdy s 4) || (match s.pwr.wakeRunAt with
        | some w => decide (s.clock.tick - w < 625000)
        | none => false) then s
    else wakeRun (match port with
      | .rngA => .rngB
      | .rngB => .rngA) s) s

/-- DOMAINS_POWERED (R58, R61, R121). -/
def execDomainsPowered (t : Nat) (s : State) : Host.Outcome State Fault Refusal :=
  happen t (fun s => { s with pwr := { s.pwr with domains := true, bypassOpen := decide (role s ≠ 0) } }) s

/-- ENTER_SUMMER (R46, R63). -/
def execEnterSummer (t : Nat) (s : State) : Host.Outcome State Fault Refusal :=
  happen t (fun s =>
    if s.pwr.season = .thaw && getN s Obj.seasonReq 0 = 2 && summerSet s then seasonTo .summer s else s) s

/-- AUTUMN_IDLE_TIMEOUT (R67). -/
def execAutumnIdleTimeout (t : Nat) (s : State) : Host.Outcome State Fault Refusal :=
  happen t (fun s => if s.pwr.season = .autumn && s.pwr.autumn.step = 1 then autumnStep2 s else s) s

/-- AUTUMN_CAP_TIMEOUT (R67). -/
def execAutumnCapTimeout (t : Nat) (s : State) : Host.Outcome State Fault Refusal :=
  happen t (fun s => if s.pwr.season = .autumn && s.pwr.autumn.step = 2 then capEnd 2 s else s) s

/-- AUTUMN_STAGGER_OFF (R67). -/
def execAutumnStaggerOff (t : Nat) (s : State) : Host.Outcome State Fault Refusal :=
  happen t (fun s =>
    if s.pwr.season != .autumn || s.pwr.autumn.step != 4 then s else
    let s := autumnOffNext s
    if s.hpc.order.isEmpty then autumnEnd (setN Obj.hpcEnable 0 0 s) else s) s

/-- SAVE_COMPLETE (R77, R88). -/
def execSaveComplete (t : Nat) (ok : Bool) (s : State) : Host.Outcome State Fault Refusal := happen t (saveEnd ok) s

/-- SAVE_TIMEOUT (R88). -/
def execSaveTimeout (t : Nat) (s : State) : Host.Outcome State Fault Refusal := happen t (saveEnd false) s

/-- The die-to-die link fails (R20, R69, R480): the power die switches every channel off. -/
def d2dFault (cause : Nat) (s : State) : State := forcedExit (raise 0x01005 [wd cause] (allOff s))

/-- D2D_LINK_LOST (R480). -/
def execD2dLinkLost (t : Nat) (s : State) : Host.Outcome State Fault Refusal :=
  happen t (fun s =>
    let s := d2dFault 1 s
    setUp 20 false { s with hpc := { s.hpc with lost := true, goodFrames := 0 } }) s

/-- VDRV_LOW (R480, R482). -/
def execVdrvLow (t : Nat) (s : State) : Host.Outcome State Fault Refusal :=
  happen t (fun s => d2dFault 2 (hpcReady { s with pwr := { s.pwr with vdrvLow := true } })) s

end Sys2Proof.Machine
end

