-- ==== Sys2Proof/Machine/Integrity.lean ====
section
/-! DEFINITION. Integrity work (chapter 17): write-backs, merge evictions, Badger, row repairs, clears and the summary. -/

namespace Sys2Proof.Machine

open Sys2Proof

/-- The bit of READY of the function that uses memory m (R449). -/
def memFunc (m : Nat) : Nat :=
  match m with
  | 0 => 11
  | 1 => 8
  | 2 => 10
  | 3 => 9
  | 4 => 9
  | 6 => 25
  | _ => 18

/-- A function reports not ready while f runs, and ready again after it (R441, R458). -/
def whileNotReady (b : Nat) (f : State → State) (s : State) : State :=
  if !(bitOf s.pwr.up b) then f s else settle (setUp b true (f (settle (setUp b false s))))

/-- A corrected word is written back (R454, R456, R461). A merge entry of the word goes first and makes the write-back
needless. -/
def writeBack (m : Nat) (s : State) : State :=
  match (memU s m).writeBacks with
  | [] => s
  | (a, d) :: rest =>
    if (memU s m).merge.any (fun e => e.addr == a) then evictAt m a s
    else putCell m a { data := d, upset := 0, valid := 3 }
      (noteWriteBack m a (modMem m (fun u => { u with writeBacks := rest }) s))

/-- The oldest entry of the merge buffer is evicted (R455). -/
def mergeEvict (m : Nat) (s : State) : State :=
  match (memU s m).merge with
  | [] => s
  | e :: _ => evictEntry m e s

/-- What Badger does with the word it has read (R452, R459). A word that nothing has written, in compatibility mode, has
no content the spec states: whether it decodes is a free value. -/
def scrubWord (m a : Nat) (s : State) : State :=
  let v := cellAt s m a
  let bad := fun (s : State) => furtherAction m a (raise 0x11003 [p9 m, pNum a] (bump Obj.poisoned m 1 (poison m a s)))
  if v.valid = 0 then
    if !(compat s m) || (memU s m).zeroed then s else
    let n := (freeVal s).toNat % 3
    let s := takeFree s
    if n = 0 then s else if n = 1 then corrected m a (freeVal s) (takeFree s) else bad s
  else if v.valid ≠ 3 then s
  else match decodeWord v with
    | .good _ => s
    | .fixed d => corrected m a d s
    | .bad => bad s

/-- Code bits of a word found flipped. A word that nothing has written takes none. An unlisted word of a memory with typed
contents is a written one or not by a free value, its data another; in compatibility mode after the clear it holds zero
(R451, R457; notes/assumptions/9.md). -/
def upsetWord (m a : Nat) (upset : BitVec 43) (s : State) : State :=
  let v := cellAt s m a
  if v.valid ≠ 0 then putCell m a { v with upset := v.upset ^^^ upset } s
  else if upset = 0 then s
  else if compat s m then
    (if (memU s m).zeroed then putCell m a { data := 0, upset := upset, valid := 3 } s else s)
  else if typedMem m then
    let inUse := bitOf (freeVal s) 0
    let s := takeFree s
    if inUse then putCell m a { data := freeVal s, upset := upset, valid := 3 } (takeFree s) else s
  else s

/-- Badger reads its next word, in which the given code bits are found flipped (R456, R459). -/
def scrubRead (m : Nat) (upset : BitVec 43) (s : State) : State :=
  if !(scrubs s m) then s else
  let a := (memU s m).scrubAddr
  let s := evictAt m a s
  let s := scrubWord m a (upsetWord m a upset s)
  let wrap := decide (a + 1 ≥ memWords m)
  codeCheck (modMem m (fun u => { u with scrubAddr := if wrap then 0 else a + 1
                                         passes := if wrap then satN 16 (u.passes + 1) else u.passes }) s)

/-- A word as its copy to a spare row holds it: corrected, or poisoned where it is uncorrectable (R462). -/
def copyWord (m a : Nat) (s : State) : State :=
  let v := cellAt s m a
  if v.valid ≠ 3 then s
  else match decodeWord v with
    | .good _ => s
    | .fixed d => putCell m a { data := d, upset := 0, valid := 3 } s
    | .bad => poison m a s

/-- The copy of a row ends (R462): the row is remapped, EV 11.004. -/
def repairDone (m : Nat) (s : State) : State :=
  match (memU s m).repairing with
  | [] => s
  | (mac, row, spare) :: rest =>
    let base := mac * 4096 + row * 32
    let s := forEach ((List.range 32).map (base + ·)) (copyWord m) s
    raise 0x11004 [p9 m, wd mac, wd row, wd spare]
      (modMem m (fun u => { u with repairing := rest })
        { s with repairs := s.repairs ++ [{ mem := m, macroIx := mac, spare := spare, row := row }] })

/-- Why a write to 11.003 CLEAR is refused (R457, R458), in the order of R111. -/
def clearAbort (v : Word) (s : State) : Nat :=
  let ms := bitsOf 8 v.toNat
  if ms.any (fun m => pageInProgress s || decide (getN s Obj.fireEnable 0 = 1) || compat s m
    || (m == 1 && s.rfe.c != s.rfe.r)) then 0x07
  else if ms.contains 6 then 0x06 else 0

/-- A write to 11.003 CLEAR (R458): memories 2, 3 and 7 are reloaded; the load of memory 2 ends with NT_LOAD_DONE. -/
def clearDo (v : Word) (s : State) : State :=
  forEach (bitsOf 8 v.toNat) (fun m s =>
    if m = 2 then clearMem 2 (modMem 2 (fun u => { u with clearing := true }) s)
    else whileNotReady (memFunc m) (clearMem m) s) s

/-- The corrections of two memories in one parameter (R467, R499). -/
def summaryPair (s : State) (m : Nat) : Word :=
  wd (satN 18 (memU s m).corrected * 2 ^ 18 + satN 18 (memU s (m + 1)).corrected)

/-- A summary period ends (R467). -/
def summaryEnd (s : State) : State :=
  if (List.range 8).all (fun m => (memU s m).corrected == 0) then s else
  let s := raise 0x11001 [summaryPair s 0, summaryPair s 2, summaryPair s 4, summaryPair s 6] s
  { s with mem := s.mem.map (fun u => { u with corrected := 0 }) }

/-- A write to 11.001 COMPAT: a changed bit clears that bit of 11.002 INIT_DONE (R457). -/
def compatDo (v : Word) (s : State) : State :=
  let changed := getW s Obj.compat 0 ^^^ v
  setN Obj.compat 0 v.toNat (setN Obj.initDone 0 (getW s Obj.initDone 0 &&& ~~~ changed).toNat s)

/-- WRITE_BACK (R454). -/
def execWriteBack (t : Nat) (m : Mem) (s : State) : Host.Outcome State Fault Refusal :=
  happen t (fun s => codeCheck (writeBack m.val s)) s

/-- MERGE_EVICT (R455). -/
def execMergeEvict (t : Nat) (m : Mem) (s : State) : Host.Outcome State Fault Refusal :=
  happen t (fun s => codeCheck (mergeEvict m.val s)) s

/-- SCRUB_READ (R459). -/
def execScrubRead (t : Nat) (m : Mem) (upset : BitVec 43) (s : State) : Host.Outcome State Fault Refusal :=
  happen t (scrubRead m.val upset) s

/-- REPAIR_DONE (R462). -/
def execRepairDone (t : Nat) (m : Mem) (s : State) : Host.Outcome State Fault Refusal := happen t (repairDone m.val) s

/-- SUMMARY_PERIOD_END (R467). -/
def execSummaryPeriodEnd (t : Nat) (s : State) : Host.Outcome State Fault Refusal := happen t summaryEnd s

end Sys2Proof.Machine
end

