-- ==== Sys2Proof/Machine/Raster.lean ====
section
/-! DEFINITION. The Raster Front End (chapter 07): the bond at work, headers, line groups, credits. -/

set_option Elab.async false

namespace Sys2Proof.Machine

open Sys2Proof

/-- A set of raster lanes from a number. -/
def lanes5 (n : Nat) : BitVec 5 := BitVec.ofNat 5 n

/-- Line groups discarded before their decoding are missing from their page again (R331). -/
def pageMissing (gone : List LineGroup) (x : Page) : Page :=
  { x with missing := x.missing ++ ((gone.filter (fun g => g.page == x.num && !(x.missing.contains g.lg))).map (·.lg)) }

/-- The bond dissolves (R531, R532): line groups not decoded yet are discarded with their words, the open input page
ends at its last accepted line group. -/
def bondDissolve (loose : Bool) (s : State) : State :=
  let held := s.rfe.groups.filter (fun g => g.rows.isNone)
  let s := rateFollow (modBond (fun b => { b with formed := false, loose := loose, n := 0, active := 0, announced := none,
                                                  offer := false, dsk := none, held := [], ready := none }) s)
  let s := releaseWords (held.foldl (fun n g => n + g.charge) 0) s
  let s := modRfe (fun r => { r with groups := r.groups.filter (fun g => g.rows.isSome) }) s
  let s := { s with pages := s.pages.map (pageMissing held) }
  match s.rfe.inPage with
  | some (p, _, lg) => closeCut p lg s
  | none => s

/-- Lanes of a set are lost from the bond (R187, R219): EV 05.001 and a BOND message, and no DSK of theirs is awaited; with
no lane left the bond dissolves (notes/assumptions/31.md). -/
def bondLose (lanes : Nat) (s : State) : State :=
  let gone := s.bond.active &&& lanes5 lanes
  if gone = 0 then s else
  let left := s.bond.active &&& ~~~ gone
  let page := bondPage s
  let s := modBond (fun b => { b with active := left, lost := b.lost ||| gone, announced := some left, offer := false
                                      lossPage := pageAtLoss s
                                      dsk := b.dsk.map (fun g => { g with want := g.want &&& ~~~ gone, come := g.come &&& ~~~ gone }) }) s
  let s := raise 0x05001 [wd s.bond.lost.toNat, pPage page, p9 (ones 5 left.toNat), wd (lineRate s left.toNat)] s
  if left = 0 then bondDissolve true s else bondMessage page left.toNat s

/-- The bond re-forms at a page start over the lanes given (R219, R220); an offer that the feeder declined is
answered with the bond in force. -/
def bondReform (lanes : Nat) (s : State) : State :=
  let declined := s.bond.offer && s.bond.announced != some (lanes5 lanes)
  let s := rateFollow (modBond (fun b => { b with n := ones 5 lanes, active := lanes5 lanes, lost := 0, announced := none,
                                                  offer := false }) s)
  if declined then bondMessage (bondPage s) lanes s else s

/-- The gathering ends when every DSK it awaits has come (R186). The DSKs of a page start tell over which lanes the bond
re-forms, if the header that follows says so (R219). -/
def dskDone (s : State) : State :=
  match s.bond.dsk with
  | none => s
  | some g =>
    if g.want &&& ~~~ g.come != 0 then s else
    modBond (fun b => { b with dsk := none, ready := if g.reform then some (g.want ||| g.failed, g.failed) else b.ready }) s

/-- A lane's DSK fails (R187): the lane is lost, at once or when the bond has re-formed. -/
def dskFail (lanes : Nat) (s : State) : State :=
  let s := match s.bond.dsk with
    | some g =>
      let f := g.want &&& lanes5 lanes
      modBond (fun b => { b with dsk := some { g with want := g.want &&& ~~~ f, come := g.come &&& ~~~ f
                                                      failed := g.failed ||| f } }) s
    | none => s
  let s := match s.bond.dsk with
    | some g => if g.reform then s else bondLose lanes s
    | none => bondLose lanes s
  dskDone s

/-- A DSK of a lane (R185 to R187, R219, R220). g 0 marks a page start (notes/assumptions/33.md). -/
def dskTake (i n p g : Nat) (s : State) : State :=
  let others := (List.range 5).filter (fun j => j != i)
  match s.bond.dsk with
  | some x =>
    if n != x.n || g != x.g || decide (p ≥ n) || others.any (fun j => nbit x.come.toNat j && (laneU s j).pos == p)
    then dskFail (2 ^ i) s
    else dskDone (modBond (fun b => { b with dsk := some { x with come := x.come ||| lanes5 (2 ^ i) } }) s)
  | none =>
    let start : Option (BitVec 5 × Bool) := match s.bond.announced with
      | some m =>
        if g = 0 then
          if n = ones 5 m.toNat then some (m, true)
          else if s.bond.offer && n == ones 5 s.bond.active.toNat then some (s.bond.active, true)
          else none
        else if n = s.bond.n then some (s.bond.active, false) else none
      | none => if n = s.bond.n then some (s.bond.active, false) else none
    match start with
    | some (want, reform) =>
      if !(nbit want.toNat i) then bondLose (2 ^ i) s
      else if p ≥ n then bondLose (2 ^ i) s
      else dskDone (modBond (fun b => { b with dsk := some { n := n, g := g, come := lanes5 (2 ^ i), want := want,
                                                             failed := 0, reform := reform } }) s)
    | none => bondLose (2 ^ i) s

/-- DSK_RECEIVED. The lane's position is that of its last DSK (R185, R196). A lane that sends the next DSK while others of
the last are awaited ends that wait. -/
def dskReceivedDo (i n p g : Nat) (s : State) : State :=
  if !(laneUp s i) then s else
  let s := modLane i (fun l => { l with pos := p }) s
  if !s.bond.formed then s else
  let s := match s.bond.dsk with
    | some x => if nbit x.come.toNat i then dskFail (x.want &&& ~~~ x.come).toNat s else s
    | none => s
  if s.bond.formed then dskTake i n p g s else s

/-! Line-group headers (R200 to R204, R210, R211, R214). -/

/-- Stride by RATIO (R181). -/
def strideOf (ratio : Nat) : Nat := at? [24, 12, 8, 6, 4, 9] ratio 0

/-- Blocks that a lane at bond position p carries (R185). -/
def blocksAt (nblocks n p : Nat) : Nat := (nblocks + n - 1 - p) / n

/-- The charge of a line group (R210). -/
def lgCharge (nblocks n ratio : Nat) : Nat :=
  (List.range n).foldl (fun c p => c + ((4 + blocksAt nblocks n p * strideOf ratio + 1) / 2) * 2) 0

/-- The fields of a header (R200). -/
structure HdrFields where
  page : Nat
  start : Bool
  last : Bool
  lg : Nat
  columns : Nat
  ratio : Nat
  base : Nat
  tblCnt : Nat
  tmode : Bool
  reserved : Bool
deriving DecidableEq, Repr

/-- The header of one copy. -/
def hdrFields (c : HdrCopy) : HdrFields :=
  { page := fld c.w0 35 12, start := bitOf c.w0 11, last := bitOf c.w0 10, lg := fld c.w1 35 20, columns := fld c.w1 19 3
    ratio := fld c.w1 2 0, base := c.w2.toNat, tblCnt := fld c.w3 35 32, tmode := bitOf c.w3 31
    reserved := fld c.w0 9 0 != 0 || fld c.w3 30 16 != 0 }

/-- The cause of EV 05.004 for a header, 0 where R203 accepts it, judged with the given open page. -/
def hdrJudge (s : State) (inPage : Option (Nat × Nat × Nat)) (f : HdrFields) : Nat :=
  let bad := decide (f.ratio > 5) || f.reserved || f.columns == 0 || decide (f.columns > 110592)
  match inPage with
  | some (page, columns, lg) =>
    if bad || f.page != page || f.columns != columns then 5
    else if f.lg ≤ lg then 4
    else if f.lg - (lg + 1) ≥ 32768 then 7
    else 0
  | none =>
    if bad || !f.start || f.lg != 0 then 5
    else if s.rfe.first then 0
    else match s.rfe.lastPage with
      | some l => if ahead f.page l then 0 else 4
      | none => 0

/-- The case of a credit error (R214): 1 over LIMIT, 2 behind C, 0 none. -/
def creditCase (s : State) (base charge : Nat) : Nat :=
  let behind := (s.rfe.c + 2 ^ 36 - base) % 2 ^ 36
  let room := (s.rfe.limit * 1024 + 2 ^ 37 - base - charge) % 2 ^ 36
  if behind ≠ 0 ∧ behind < 2 ^ 35 then 2
  else if room ≥ 2 ^ 35 then 1
  else 0

/-- An object leaves the pending commit for a page. -/
def unbind (o p : Nat) (s : State) : State :=
  match (pendingCommits s).find? (fun ic => ic.2.page == p && ic.2.objs.contains o) with
  | none => s
  | some ic =>
    let objs := ic.2.objs.filter (fun x => x != o)
    setSlot ic.1 (if objs.isEmpty then none else some { ic.2 with
      objs := objs, image := ic.2.image.filter (fun e => e.1 / 2097152 != o) }) s

/-- Every table frame of the line group is rejected because their count differs from TBL_CNT (R206, R209): the open
transfer is abandoned, the shadows they wrote are invalid, and what their COMMIT bound is unbound. -/
def rejectTables (s : State) : State :=
  let s := { s with dict := { s.dict with inband := none } }
  forEach s.rfe.tableObjs (fun x s =>
    let (o, off, page) := x
    let s := raise 0x05005 [wd 3, 0, wd o, pNum off] (bump Obj.tblRejected 0 1 s)
    let s := match page with
      | some p => if o = Obj.nozzleTable then { s with nt := { s.nt with pending := none } } else unbind o p s
      | none => s
    { s with dict := { s.dict with
        badShadow := if s.dict.badShadow.contains o then s.dict.badShadow else s.dict.badShadow ++ [o]
        dirty := if o = Obj.nozzleTable || s.dict.dirty.contains o then s.dict.dirty else s.dict.dirty ++ [o] } }) s

/-- A page begins with its first accepted header (R91, R303, R392). -/
def pageBegin (f : HdrFields) (s : State) : State :=
  let origin := if s.fire.firstPage then getPos s Obj.printOrigin 0
    else wrapPos (getPos s Obj.pageOrigin 0 + 4096 * ((4 * (s.rfe.lg + 1) + getN s Obj.pageGap 0 : Nat) : Int))
  let fresh := fun (l : Option (Nat × Nat)) => match l with
    | some (p, y) => if s.pages.any (fun x => x.num == p) then some (p, y) else some (f.page, 0)
    | none => some (f.page, 0)
  let s := { s with
    pages := s.pages ++ [{ num := f.page, origin := origin, columns := f.columns, lastLg := none, nextLg := 0, missing := [], screened := false, heads := 0 }]
    fire := { s.fire with
      firstPage := false
      handNext := fresh s.fire.handNext
      heads := s.fire.heads.map (fun u => { u with next := fresh u.next }) } }
  let s := setE Obj.pageOrigin 0 (posElem origin) s
  cmpOrigin f.page origin (beginInput f.page (modRfe (fun r => { r with first := false, abandoned := [] }) s))

/-- A header is accepted (R203): C and R (R211), the page, the line group. -/
def hdrAccept (f : HdrFields) (okPos : BitVec 5) (s : State) : State :=
  let nblocks := ceilDiv f.columns 27
  let charge := lgCharge nblocks s.bond.n f.ratio
  let tablesOk := s.rfe.tables == f.tblCnt
  let s := if tablesOk then s else rejectTables s
  let s := if s.rfe.inPage.isNone then pageBegin f s else s
  let jump := (f.base + 2 ^ 36 - s.rfe.c) % 2 ^ 36
  let late := s.fire.late.contains (f.page, 4 * f.lg)
  let halted := decide (s.fire.halt.phase ≠ 0) && s.fire.halt.page == f.page && s.fire.halt.line / 4 == f.lg
  let g : LineGroup :=
    { page := f.page, lg := f.lg, columns := f.columns, ratio := f.ratio, tmode := f.tmode, isEnd := f.last, charge := charge
      n := s.bond.n, okPos := okPos, tablesOk := tablesOk, blocks := [], complete := false, checked := late || halted, late := late
      rows := none }
  let freed := jump - s.rfe.ahead
  let s := modRfe (fun r => { r with
    c := (f.base + charge + r.tableWords) % 2 ^ 36
    inPage := some (f.page, f.columns, f.lg), gotHeader := true, ratio := f.ratio, tmode := f.tmode, lg := f.lg
    page := f.page, nblocks := nblocks, tables := 0, tableWords := 0, tableObjs := [], ahead := 0
    groups := r.groups ++ [g] }) s
  let s := { s with pages := s.pages.map (fun x => if x.num == f.page then { x with
    nextLg := f.lg + 1, missing := x.missing ++ (List.range (f.lg + 1 - x.nextLg)).map (fun i => x.nextLg + i) } else x) }
  let s := codecFollow (rateFollow (setN Obj.pageNow 0 f.page (bump Obj.lgAccepted 0 1 (releaseWords freed s))))
  if f.last then closeInput f.page f.lg s else s

/-- The table frames before a header that is not accepted stay ahead of C (R211). -/
def hdrRefuse (s : State) : State :=
  modRfe (fun r => { r with ahead := r.ahead + r.tableWords, tables := 0, tableWords := 0, tableObjs := [] }) s

/-- A passing header is judged and acted on (R203, R214). -/
def hdrAct (f : HdrFields) (okPos : BitVec 5) (fails : Nat) (s : State) : State :=
  let closes := f.start && s.rfe.inPage.isSome
  let cause := hdrJudge s (if closes then none else s.rfe.inPage) f
  -- Judged as if the page that this header closes were the last page.
  let cause := match closes, cause, s.rfe.inPage with
    | true, 0, some (p, _, _) => if ahead f.page p then 0 else 4
    | true, 4, some (p, _, _) => if ahead f.page p then 0 else 4
    | _, c, _ => c
  let charge := lgCharge (ceilDiv f.columns 27) s.bond.n f.ratio
  let credit := creditCase s f.base charge
  if cause = 0 ∧ credit ≠ 0 then
    let s := raise 0x05003 [wd credit, pPage f.page, wd f.lg, wd f.base] (bump Obj.creditErrors 0 1 (hdrRefuse s))
    if credit = 2 then resyncMessage s.rfe.c s else s
  else
    let s := match closes, s.rfe.inPage with
      | true, some (p, _, lg) => closeCut p lg (raise 0x05004 [wd 6, wd fails, pPage f.page, wd f.lg] s)
      | _, _ => s
    if cause = 0 then hdrAccept f okPos s
    else
      let s := raise 0x05004 [wd cause, wd fails, pPage f.page, wd f.lg] s
      let gone := s.rfe.abandoned.contains f.page
      let words := if gone then charge else 0
      releaseWords words (modRfe (fun r => { r with ahead := r.ahead + words }) (hdrRefuse s))

/-- A header copy passes its HCRC (R201). -/
def hdrOk (c : HdrCopy) : Bool := crc16Hdr c.w0 c.w1 c.w2 c.w3 == fld c.w3 15 0

/-- Every raster lane in lock takes its stride from the header on it, or keeps the last one where that fails (R181). -/
def takeStrides (copies : List HdrCopy) (s : State) : State :=
  forEach (copies.filter hdrOk) (fun c s =>
    if laneUp s c.ras.val && decide ((hdrFields c).ratio ≤ 5) then
      modLane c.ras.val (fun l => { l with stride := strideOf (hdrFields c).ratio }) s
    else s) s

/-- The DSKs of a page start have come: the bond re-forms where the header carries PAGE_START for a page ahead of the one
open at the loss (R219), or no copy of it can be read (notes/assumptions/33.md). -/
def reformAt (copies : List HdrCopy) (s : State) : State :=
  match s.bond.ready with
  | none => s
  | some (lanes, failed) =>
    let s := modBond (fun b => { b with ready := none }) s
    let pass := copies.filter (fun c => nbit lanes.toNat c.ras.val && laneUp s c.ras.val && hdrOk c)
    let starts := fun (c : HdrCopy) => (hdrFields c).start && (s.rfe.first || (match s.bond.lossPage with
      | some l => ahead (hdrFields c).page l
      | none => true))
    if pass.isEmpty || pass.any starts then bondLose failed.toNat (bondReform lanes.toNat s) else s

/-- A line-group header released to the Raster Front End (R200 to R203): the copies of the active lanes, in order of bond
position. -/
def headerNow (copies : List HdrCopy) (s : State) : State :=
  let s := takeStrides copies (reformAt copies s)
  let mine := copies.filter (fun c => s.bond.formed && nbit s.bond.active.toNat c.ras.val && laneUp s c.ras.val)
  let posOf := fun (c : HdrCopy) => (laneU s c.ras.val).pos
  let ok := hdrOk
  if mine.isEmpty then s else
  let pass := mine.filter ok
  let failed := mine.filter (fun c => !(ok c))
  let fails := failed.foldl (fun m c => m ||| 2 ^ c.ras.val) 0
  let s := bump Obj.hdrErrors 0 failed.length s
  match pass with
  | [] => hdrRefuse (raise 0x05004 [wd 2, wd fails, 0, 0] s)
  | c :: rest =>
    let best := rest.foldl (fun b c => if posOf c < posOf b then c else b) c
    let f := hdrFields best
    if rest.any (fun x => x.w0 != c.w0 || x.w1 != c.w1 || x.w2 != c.w2 || x.w3 != c.w3) then
      hdrRefuse (raise 0x05004 [wd 3, wd fails, pPage f.page, wd f.lg] s)
    else
      let s := if fails = 0 then s else raise 0x05004 [wd 1, wd fails, pPage f.page, wd f.lg] s
      let keeps := fun (c : HdrCopy) => (laneU s c.ras.val).stride == strideOf f.ratio
      let okPos := lanes5 ((mine.filter (fun c => ok c || keeps c)).foldl (fun m c => m ||| 2 ^ posOf c) 0)
      hdrAct f okPos fails s

/-- LG_HEADER: it waits while DSKs of its line group are awaited (R186). -/
def lgHeaderDo (copies : List HdrCopy) (s : State) : State :=
  if s.bond.dsk.isSome then modBond (fun b => { b with held := b.held ++ [copies] }) s else headerNow copies s

/-- The gathering has ended: all lanes are released together (R186). -/
def dskRelease (s : State) : State :=
  if s.bond.dsk.isSome then s
  else forEach s.bond.held headerNow (modBond (fun b => { b with held := [] }) s)

/-- Words of a line group that find the buffer full (R214): it holds 1,048,576. -/
def wordsDropped (s : State) : Nat := (s.rfe.c + 2 ^ 36 - s.rfe.r) % 2 ^ 36 - 1048576

/-- A block of a line group is received (R184, R202): its lane is active and in block lock, and its length is the
stride. -/
def blockTaken (s : State) (g : LineGroup) (blocks : List (List Word)) (b : Nat) : Option (List Word) :=
  let p := if g.n = 0 then 0 else b % g.n
  let lane := (List.range 5).any (fun i => nbit s.bond.active.toNat i && (laneU s i).block && (laneU s i).pos == p)
  match blocks[b]? with
  | some ws => if lane && nbit g.okPos.toNat p && ws.length == strideOf g.ratio then some ws else none
  | none => none

/-- LINE_GROUP_COMPLETE (R218): the blocks received are stored, as far as the buffer has room (R214); with all of them,
and its table frames, the line group is complete. One that completes after it was found late is discarded (R325). -/
def lgCompleteDo (page lg : Nat) (blocks : List (List Word)) (s : State) : State :=
  match s.rfe.groups.find? (fun g => g.page == page && g.lg == lg) with
  | none => s
  | some g =>
    if !g.blocks.isEmpty then s
    else if g.late then
      releaseWords g.charge (modRfe (fun r => { r with groups := r.groups.map (fun x =>
        if x.page == page && x.lg == lg then { x with charge := 0, blocks := [none] } else x) }) s)
    else
      let n := ceilDiv g.columns 27
      let room := n - ceilDiv (wordsDropped s) (strideOf g.ratio)
      let got := (List.range n).map (fun b => if b < room then blockTaken s g blocks b else none)
      let done := g.tablesOk && got.all Option.isSome
      let s := modRfe (fun r => { r with groups := r.groups.map (fun x =>
        if x.page == page && x.lg == lg then { x with blocks := got, complete := done } else x) }) s
      haltFlags (if done then { s with pages := s.pages.map (fun x =>
        if x.num == page then { x with missing := x.missing.filter (fun l => l != lg) } else x) } else s)

/-- Why a write to 04.000 BOND_CFG is refused (R196). -/
def bondCfgAbort (v : Word) : Nat := if fld v 4 0 = 0 then 0x06 else 0

/-- A new 04.000 BOND_CFG (R532). -/
def bondCfgDo (v : Word) (s : State) : State :=
  let s := laneReady 0 (setN Obj.bondCfg 0 (fld v 4 0) s)
  if !s.bond.formed then bondTry s
  else if bondLocked s = 0 then bondDissolve true s
  else bondMessage (bondPage s) (bondLocked s)
    (modBond (fun b => { b with announced := some (lanes5 (bondLocked s)), offer := false, lossPage := pageAtLoss s }) s)

/-- A lost lane is offered again (R220). With no bond left, none of its lanes can carry an offer: the bond forms anew. -/
def laneOfferDo (i : Nat) (s : State) : State :=
  if !s.bond.formed then bondTry s else
  if !(nbit (bondSel s) i) || !(laneUp s i) || nbit s.bond.active.toNat i
    || (match s.bond.announced with
      | some m => nbit m.toNat i
      | none => false) then s
  else
    let m := s.bond.announced.getD s.bond.active ||| lanes5 (2 ^ i)
    bondMessage (bondPage s) m.toNat (modBond (fun b => { b with announced := some m, offer := true, lossPage := pageAtLoss s }) s)

/-- 05.000 RFE_STATE (R223). -/
def rfeState (s : State) : Word :=
  wd ((if s.rfe.inPage.isSome then 2 ^ 35 else 0) + (if s.dict.inband.isSome then 2 ^ 34 else 0) + s.rfe.ratio % 8 * 2 ^ 31
    + ones 5 s.bond.active.toNat * 2 ^ 28 + s.rfe.lg % 2 ^ 16 * 2 ^ 12 + (if s.bond.announced.isSome then 2 ^ 11 else 0))

/-- 05.100 CREDIT_BOOK (R211, R223). -/
def creditBook (s : State) (i : Nat) : Word :=
  match i with
  | 0 => wd s.rfe.c
  | 1 => wd s.rfe.r
  | 2 => wd s.rfe.limit
  | _ => wd ((s.rfe.c + 2 ^ 36 - s.rfe.r) % 2 ^ 36)

/-- SKIP_RECEIVED (R179): the elastic buffer stays between 12 and 20 characters. -/
def execSkipReceived (t : Nat) (ras : Ras) (fill : Nat) (s : State) : Host.Outcome State Fault Refusal :=
  happen t (fun s => if (laneU s ras.val).lock && decide (12 ≤ fill) && decide (fill ≤ 20) then
    modLane ras.val (fun l => { l with bufFill := fill }) s else s) s

/-- BUFFER_SLIP (R178, R179). -/
def execBufferSlip (t : Nat) (lane : LaneIx) (underflow : Bool) (s : State) : Host.Outcome State Fault Refusal :=
  happen t (fun s => if (laneU s lane.val).lock && lane.val != 5 then
    modLane lane.val (fun l => { l with bufFill := fillStart lane.val })
      (raise 0x04005 [p9 lane.val, wd (b2n underflow)] (bump Obj.laneSlips lane.val 1 s)) else s) s

/-- BLOCK_LOCK (R183). -/
def execBlockLock (t : Nat) (ras : Ras) (s : State) : Host.Outcome State Fault Refusal :=
  happen t (fun s => if (laneU s ras.val).lock then modLane ras.val (fun l => { l with block := true }) s else s) s

/-- BLOCK_LOCK_LOST (R183, R187). -/
def execBlockLockLost (t : Nat) (ras : Ras) (s : State) : Host.Outcome State Fault Refusal :=
  happen t (fun s =>
    if !(laneU s ras.val).block then s else
    let s := raise 0x04003 [p9 ras.val, pPage s.rfe.page, wd s.rfe.lg] (modLane ras.val (fun l => { l with block := false }) s)
    if pageInProgress s then dskRelease (dskDone (bondLose (2 ^ ras.val) s)) else s) s

/-- DSK_RECEIVED (R186). -/
def execDskReceived (t : Nat) (ras : Ras) (n p g : Nat) (s : State) : Host.Outcome State Fault Refusal :=
  happen t (crossing (2 + ras.val) (fun s => dskRelease (dskReceivedDo ras.val n p g s))) s

/-- DSK_TIMEOUT (R187). -/
def execDskTimeout (t : Nat) (ras : Ras) (s : State) : Host.Outcome State Fault Refusal :=
  happen t (fun s => match s.bond.dsk with
    | some g => if nbit (g.want &&& ~~~ g.come).toNat ras.val then dskRelease (dskFail (2 ^ ras.val) s) else s
    | none => s) s

/-- LG_HEADER (R203). -/
def execLgHeader (t : Nat) (copies : List HdrCopy) (s : State) : Host.Outcome State Fault Refusal :=
  happen t (fun s => lgHeaderDo copies (forEach copies (fun c => xingQueue (2 + c.ras.val) 1) s)) s

/-- LINE_GROUP_COMPLETE (R218). -/
def execLineGroupComplete (t : Nat) (page lg : Nat) (blocks : List (List Word)) (s : State) : Host.Outcome State Fault Refusal :=
  happen t (fun s => lgCompleteDo page lg blocks (forEach (bitsOf 5 s.bond.active.toNat) (fun i => xingQueue (2 + i) 1) s)) s

/-- CREDIT_FRAME_TIMER (R213). -/
def execCreditFrameTimer (t : Nat) (s : State) : Host.Outcome State Fault Refusal := happen t creditSend s

/-- LANE_OFFER (R220). -/
def execLaneOffer (t : Nat) (ras : Ras) (s : State) : Host.Outcome State Fault Refusal := happen t (laneOfferDo ras.val) s

/-- PRBS_LOCK (R191): on a lane whose checker runs. -/
def execPrbsLock (t : Nat) (lane : LaneIx) (s : State) : Host.Outcome State Fault Refusal :=
  happen t (fun s => if laneWorks s lane.val && (lanePrbs s lane.val == 1 || lanePrbs s lane.val == 3) then
    modLane lane.val (fun l => { l with prbsLock := true }) s else s) s

/-- PRBS_WINDOW_END (R191, R192): what the checker counted in the window, its comparison with the threshold, and whether it
still has lock: more than 256 errors in 1,024 bits end that. -/
def execPrbsWindowEnd (t : Nat) (lane : LaneIx) (bits : Nat) (errors : PrbsErrors) (s : State) : Host.Outcome State Fault Refusal :=
  happen t (fun s =>
    if !(laneU s lane.val).prbsLock then s else
    let s := modLane lane.val (fun l => { l with prbsLock := errors.locked }) s
    let s := bump Obj.prbsErrors lane.val errors.count (bump Obj.prbsBits lane.val bits s)
    if errors.count > getN s Obj.prbsThreshold 0 then raise 0x04004 [p9 lane.val, pNum errors.count] s else s) s

end Sys2Proof.Machine
end

