-- ==== Sys2Proof/Machine/Codec.lean ====
section
/-! DEFINITION. The fixed-ratio block codec (chapter 08): code tables, the decoder, the reference coder, and the Block
Decoder at work. -/

namespace Sys2Proof.Machine

open Sys2Proof

/-- BASE and the number of extra bits of each symbol (R232). -/
def symBase : List Nat := [0, 1, 2, 3, 4, 6, 8, 12, 16, 24, 32, 48, 64, 96, 128, 192]
def symExtra : List Nat := [0, 0, 0, 0, 1, 1, 2, 2, 3, 3, 4, 4, 5, 5, 6, 6]

/-- Code lengths of the static tables T0 to T3 (R232). -/
def staticTable (t : Nat) : List Nat :=
  match t with
  | 0 => [1, 2, 3, 4, 5, 6, 7, 8, 9, 11, 12, 12, 12, 12, 12, 12]
  | 1 => [2, 2, 3, 3, 4, 4, 5, 5, 5, 6, 7, 8, 9, 10, 11, 11]
  | 2 => [4, 4, 4, 4, 3, 3, 3, 3, 4, 4, 4, 5, 6, 7, 8, 8]
  | _ => [4, 4, 4, 4, 4, 4, 4, 4, 4, 4, 4, 4, 4, 4, 4, 4]

/-- Symbol a comes before symbol b in the order of R232. -/
def codeBefore (lens : List Nat) (a b : Nat) : Bool :=
  decide (at? lens a 0 < at? lens b 0) || (at? lens a 0 == at? lens b 0 && decide (a < b))

/-- The canonical code of a symbol (R232): each symbol before it takes its share of the code space. -/
def canonCode (lens : List Nat) (s : Nat) : Nat :=
  (List.range 16).foldl (fun c a => if codeBefore lens a s then c + 2 ^ (at? lens s 0 - at? lens a 0) else c) 0

/-- Lengths and codes of a table, by symbol. -/
def codeTable (lens : List Nat) : List (Nat × Nat) := (List.range 16).map (fun s => (at? lens s 0, canonCode lens s))

/-! The ladder of dynamic tables (R233). -/

/-- Weight of symbol s at level l. -/
def ladderWeight (l s : Nat) : Nat := 2 ^ (16 - (if s ≤ l then l - s else s - l))

/-- The Kraft sum in units of 2^-12. -/
def kraft (lens : List Nat) : Nat := lens.foldl (fun k l => k + 2 ^ (12 - l)) 0

/-- The symbol that a rule picks: the best of those allowed, by a strict order. -/
def pickSym (ok : Nat → Bool) (better : Nat → Nat → Bool) : Option Nat :=
  (List.range 16).foldl (fun b s => if !(ok s) then b else
    match b with
    | none => some s
    | some x => if better s x then some s else some x) none

/-- The lengthening loop: largest length below 12, then smallest weight, then highest symbol. -/
def lengthen (l : Nat) : Nat → List Nat → List Nat
  | 0, lens => lens
  | fuel + 1, lens =>
    if kraft lens ≤ 4096 then lens else
    match pickSym (fun s => decide (at? lens s 0 < 12)) (fun s x =>
        decide (at? lens s 0 > at? lens x 0) || (at? lens s 0 == at? lens x 0 &&
          (decide (ladderWeight l s < ladderWeight l x) || (ladderWeight l s == ladderWeight l x && decide (s > x))))) with
    | some s => lengthen l fuel (lens.set s (at? lens s 0 + 1))
    | none => lens

/-- The shortening loop: largest weight, then lowest symbol. -/
def shorten (l : Nat) : Nat → List Nat → List Nat
  | 0, lens => lens
  | fuel + 1, lens =>
    match pickSym (fun s => decide (at? lens s 0 > 1) && decide (kraft lens + 2 ^ (12 - at? lens s 0) ≤ 4096)) (fun s x =>
        decide (ladderWeight l s > ladderWeight l x) || (ladderWeight l s == ladderWeight l x && decide (s < x))) with
    | some s => shorten l fuel (lens.set s (at? lens s 0 - 1))
    | none => lens

/-- The table of level l (R233). -/
def ladderTable (l : Nat) : List Nat :=
  let total := (List.range 16).foldl (fun t s => t + ladderWeight l s) 0
  let first := (List.range 16).map (fun s =>
    ((List.range 12).find? (fun i => decide (ladderWeight l s * 2 ^ (i + 1) ≥ total))).elim 12 (fun i => i + 1))
  shorten l 200 (lengthen l 200 first)

/-! The decoder (R237). The error is the cause of R238. -/

/-- The payload of a block as one number, and its budget P (R225). -/
def payloadOf (ws : List Word) : Nat := ws.foldl (fun n w => n * 2 ^ 36 + w.toNat) 0 % 2 ^ (36 * ws.length - 18)
def payloadBits (ws : List Word) : Nat := 36 * ws.length - 18

/-- n bits at position pos. -/
def takeBits (pay P pos n : Nat) : Except Nat Nat :=
  if pos + n > P then .error 3 else .ok (pay / 2 ^ (P - pos - n) % 2 ^ n)

/-- The symbol at a position: code lengths from n on, with `left` lengths to try. -/
def takeSym (tbl : List (Nat × Nat)) (pay P pos : Nat) : Nat → Nat → Except Nat (Nat × Nat)
  | 0, _ => .error 4
  | left + 1, n =>
    match takeBits pay P pos n with
    | .error e => .error e
    | .ok code =>
      match (List.range 16).find? (fun s => at? tbl s (0, 0) == (n, code)) with
      | some s => .ok (s, pos + n)
      | none => takeSym tbl pay P pos left (n + 1)

/-- The prediction of the next sample from the samples so far, newest first (R230). -/
def predictSample (mode m : Nat) (done : List Nat) : Nat :=
  let n := done.length
  let left := at? done 0 0
  let up := at? done 26 0
  let diag := at? done 27 0
  if n = 0 then m / 2
  else if n < 27 then left
  else if n % 27 = 0 then up
  else match mode with
    | 2 => left
    | 3 => up
    | 4 => (left + up + 1) / 2
    | _ => min (left + up - min diag (left + up)) (m - 1)

/-- The quantised samples of a predictive block, newest first. -/
def takeResiduals (mode m : Nat) (tbl : List (Nat × Nat)) (pay P : Nat) : Nat → Nat → List Nat → Except Nat (List Nat)
  | 0, _, done => .ok done
  | left + 1, pos, done =>
    match takeSym tbl pay P pos 12 1 with
    | .error e => .error e
    | .ok (s, pos) =>
      let x := at? symExtra s 0
      match takeBits pay P pos x with
      | .error e => .error e
      | .ok v =>
        let u := at? symBase s 0 + v
        if u ≥ m then .error 4 else
        let p := predictSample mode m done
        let q := if u % 2 = 0 then (p + u / 2) % m else (p + m - (u + 1) / 2) % m
        takeResiduals mode m tbl pay P left (pos + x) (q :: done)

/-- The samples of a raw block, newest first. -/
def takeRaw (width pay P : Nat) : Nat → Nat → List Nat → Except Nat (List Nat)
  | 0, _, done => .ok done
  | left + 1, pos, done =>
    match takeBits pay P pos width with
    | .error e => .error e
    | .ok v => takeRaw width pay P left (pos + width) (v :: done)

/-- The reconstruction of a quantised sample (R229). -/
def dequant (k q : Nat) : Nat := if k = 0 then q else q * 2 ^ k + 2 ^ (k - 1)

/-- The 18 symbols of a group of pre-screened codes (R236). -/
def groupSyms (g : Nat) : List Nat := (List.range 18).map (fun i => g / 7 ^ (17 - i) % 7)

/-- The groups of a pre-screened block (R236). -/
def takeGroups (pay P : Nat) : Nat → Nat → List Nat → Except Nat (List Nat)
  | 0, _, done => .ok done
  | left + 1, pos, done =>
    match takeBits pay P pos 51 with
    | .error e => .error e
    | .ok g => if g ≥ 7 ^ 18 then .error 4 else takeGroups pay P left (pos + 51) (done ++ groupSyms g)

/-- A block header (R226): the half-word, and whether it is valid for block b (R182). -/
def blockHalf (ws : List Word) : Nat := (at? ws 0 0).toNat / 2 ^ 18
def headerOk (half b : Nat) : Bool :=
  crc6 half == half % 64 && decide (half / 2 ^ 14 ≤ 6) && half / 64 % 8 == b % 8

/-- A block decoded (R237): 108 samples, or the cause of damage. `tables` are those that TABLE names; `oos` says
that a dynamic slot may not be used. -/
def decodeBlock (ratio b : Nat) (oos : Bool) (tables : Nat → List Nat) (ws : List Word) : Except Nat (List Nat) :=
  let half := blockHalf ws
  let mode := half / 2 ^ 14
  let tab := half / 2 ^ 12 % 4
  let k := half / 2 ^ 9 % 8
  let pay := payloadOf ws
  let P := payloadBits ws
  if !(headerOk half b) then .error 1
  else if (mode = 6 ∧ ratio ≠ 5) ∨ (mode ≠ 6 ∧ ratio = 5) then .error 2
  else if mode = 1 ∧ (k ≠ 0 ∨ tab ≠ 0) then .error 2
  else if mode = 1 then (takeBits pay P 0 8).map (fun v => List.replicate 108 v)
  else if mode = 6 then
    if tab ≠ 0 then .error 2
    else (takeGroups pay P 6 0 []).map (fun l => l.map (fun c => if c ≥ k then c + 1 else c))
  else if mode = 0 then (takeRaw (8 - k) pay P 108 0 []).map (fun l => l.reverse.map (dequant k))
  else if oos then .error 6
  else (takeResiduals mode (256 / 2 ^ k) (codeTable (tables tab)) pay P 108 0 []).map (fun l => l.reverse.map (dequant k))

/-! The reference coder (R240), with which the Block Compressor codes (R241). -/

/-- The symbol of u (R232). -/
def symOf (u : Nat) : Nat := ((List.range 16).filter (fun s => decide (at? symBase s 0 ≤ u))).getLast?.getD 0

/-- The mapped residuals of quantised samples (R231); `done` newest first. -/
def residualsOf (mode m : Nat) : List Nat → List Nat → List Nat
  | [], _ => []
  | q :: rest, done =>
    let r := (q + m - predictSample mode m done) % m
    (if r < m / 2 then 2 * r else 2 * (m - r) - 1) :: residualsOf mode m rest (q :: done)

/-- Bits of a code word with its extra bits, as value and width. -/
def codeBits (tbl : List (Nat × Nat)) (u : Nat) : Nat × Nat :=
  let s := symOf u
  let x := at? symExtra s 0
  let c := at? tbl s (0, 0)
  (c.2 * 2 ^ x + (u - at? symBase s 0), c.1 + x)

/-- Values of given widths put end to end: the number and its width. -/
def joinBits (l : List (Nat × Nat)) : Nat × Nat := l.foldl (fun a b => (a.1 * 2 ^ b.2 + b.1, a.2 + b.2)) (0, 0)

/-- The words of a block from its header fields and its payload (R225 to R227); fill bits are 0. -/
def blockWords (S mode tab k b : Nat) (pay : Nat × Nat) : List Word :=
  let half := mode * 2 ^ 14 + tab * 2 ^ 12 + k * 2 ^ 9 + b % 8 * 64
  let P := 36 * S - 18
  let n := (half + crc6 half) * 2 ^ P + pay.1 * 2 ^ (P - pay.2)
  (List.range S).map (fun i => wd (n / 2 ^ (36 * (S - 1 - i))))

/-- The best coding at one k (R240): mode, table and payload, the earlier candidate on a tie. -/
def bestAt (P k : Nat) (vs : List Nat) : Option (Nat × Nat × (Nat × Nat)) :=
  let q := vs.map (fun v => v / 2 ^ k)
  let raw : Option (Nat × Nat × (Nat × Nat)) :=
    if 108 * (8 - k) ≤ P then some (0, 0, joinBits (q.map (fun x => (x, 8 - k)))) else none
  [2, 3, 4, 5].foldl (fun best mode =>
    let us := residualsOf mode (256 / 2 ^ k) q []
    (List.range 4).foldl (fun best t =>
      let tbl := codeTable (staticTable t)
      let pay := joinBits (us.map (codeBits tbl))
      if pay.2 ≤ P && (match best with
          | some x => decide (pay.2 < x.2.2.2)
          | none => true) then some (mode, t, pay) else best) best) raw

/-- The first k at which the block fits. -/
def codeAt (S b : Nat) (vs : List Nat) : Nat → Nat → List Word
  | 0, _ => blockWords S 0 0 7 b (joinBits (vs.map (fun v => (v / 128, 1))))
  | left + 1, k =>
    match bestAt (36 * S - 18) k vs with
    | some (mode, t, pay) => blockWords S mode t k b pay
    | none => codeAt S b vs left (k + 1)

/-- The values that the encoder reconstructs from its own coding of a block (R229): those of its k, which its header holds;
in mode 1 the one value. -/
def ownValues (ws : List Word) (vs : List Nat) : List Nat :=
  let half := blockHalf ws
  let k := half / 2 ^ 9 % 8
  if half / 2 ^ 14 = 1 then vs else vs.map (fun v => dequant k (v / 2 ^ k))

/-- A block of 108 samples coded at stride S (R240). -/
def codeBlock (S b : Nat) (vs : List Nat) : List Word :=
  if vs.all (fun v => v == at? vs 0 0) then blockWords S 1 0 0 b (at? vs 0 0, 8) else codeAt S b vs 8 0

/-! The Block Decoder at work (R234, R235, R237 to R239). -/

/-- A header counts for its dynamic slot (R234). -/
def countSlot (ws : List Word) (b : Nat) (c : Codec) : Codec :=
  let half := blockHalf ws
  let mode := half / 2 ^ 14
  if !(headerOk half b) then { c with oos := true }
  else if 2 ≤ mode ∧ mode ≤ 5 then
    match half / 2 ^ 12 % 4 with
    | 0 => { c with n0 := c.n0 + 1 }
    | 1 => { c with n1 := c.n1 + 1 }
    | 2 => { c with n2 := c.n2 + 1 }
    | _ => { c with n3 := c.n3 + 1 }
  else c

/-- Line l of a line group from its decoded blocks (R224, R204). -/
def rowOfBlocks (columns l : Nat) (bs : List (List Nat)) : List Nat :=
  ((bs.map (fun b => (b.drop (27 * l)).take 27)).flatten).take columns

/-- The Block Decoder takes a line group (R237 to R239). -/
def decodeGroup (g : LineGroup) (s : State) : State :=
  let start := match s.codec.lastLg with
    | some (p, l) => if p = g.page then l + 1 else 0
    | none => 0
  let c := epochStep g.lg (passGroups s g.page (g.lg - start) start s.codec)
  let blocks := g.blocks.map (fun b => b.getD [])
  let tables := fun j => if g.tmode then ladderTable (c.level + j) else staticTable j
  let out := blocks.mapIdx (fun b ws => decodeBlock g.ratio b (g.tmode && c.oosApplies) tables ws)
  let causes := out.map (fun r => match r with
    | .ok _ => 0
    | .error e => e)
  let samples := out.map (fun r => match r with
    | .ok l => l
    | .error _ => List.replicate 108 0)
  let bad := (causes.filter (fun x => x != 0)).length
  let first := (causes.findIdx (fun x => x != 0))
  let c := if g.tmode then (blocks.mapIdx (fun b ws => (b, ws))).foldl (fun c x => countSlot x.2 x.1 c) c else c
  let count := c.oos && !c.counted
  let s := modCodec (fun _ => { c with counted := c.counted || count, lastLg := some (g.page, g.lg) }) s
  let s := if count then bump Obj.oosEpochs 0 1 s else s
  let s := bump Obj.blocksDamaged 0 bad (bump Obj.blocksDecoded 0 blocks.length s)
  let s := forEach (List.range 8) (fun i s => if i = 0 then s else
    bump Obj.damageCause i (causes.filter (fun x => x == i)).length s) s
  let s := if bad = 0 then s else
    raise 0x06001 [wd (at? causes first 0 * 2 ^ 32 + satN 13 bad), pPage g.page, wd g.lg, wd first] s
  let rows := (List.range 4).map (fun l => rowOfBlocks g.columns l samples)
  codecFollow (releaseWords g.charge (modRfe (fun r => { r with groups := r.groups.map (fun x =>
    if x.page == g.page && x.lg == g.lg then { x with rows := some rows, blocks := [] } else x) }) s))

/-- The next line group for the decoder (R218): the oldest that is neither decoded nor late, if it is complete. -/
def nextDecode (s : State) : Option LineGroup :=
  match s.rfe.groups.find? (fun g => g.rows.isNone && !g.late) with
  | some g => if g.complete then some g else none
  | none => none

/-- 06.000 CODEC_STATE (R243). -/
def codecState (s : State) : Word :=
  wd ((if s.rfe.tmode then 2 ^ 35 else 0) + (if s.codec.oos then 2 ^ 34 else 0) + s.codec.level % 16 * 2 ^ 30
    + s.codec.epoch % 2 ^ 12 * 2 ^ 18)

/-- DECODE_LINE_GROUP (R237). Nothing is decoded while the Block Decoder is held or not up (R218). -/
def execDecodeLineGroup (t : Nat) (s : State) : Host.Outcome State Fault Refusal :=
  happen t (fun s => match ownUp s 8, nextDecode s with
    | true, some g => decodeGroup g s
    | _, _ => s) s

end Sys2Proof.Machine
end

