-- ==== Sys2Proof/Machine/Pipeline.lean ====
section
/-! DEFINITION. The Image Pipeline (R416 to R420): clean samples, colour planes, display records, coding stripe frames
and ink values. -/

namespace Sys2Proof.Machine

open Sys2Proof

/-- What the pipeline needs of one input (R417, R418): PERIOD, rows and positions, channel codes and ROW_DELAY by row, the
flat-field words, M and OFF. -/
structure PipeCtx where
  period : Nat
  rows : Nat
  positions : Nat
  codes : Array (Array Nat)
  delays : Array Nat
  flat : Array Nat
  matrix : Array Int
  off : Array Int

/-- ROW_DELAY of row r of input k, and the largest of the input (R412, R418). -/
def rowDelay (s : State) (k r : Nat) : Nat := fld (getW s Obj.mosaic (4 * k + r)) 3 0
def maxDelay (s : State) (k : Nat) : Nat := ((List.range (camRows s k)).map (rowDelay s k)).foldl max 0

/-- Two signed halves of a word. -/
def halves (w : Word) : List Int := [sgn 18 (fld w 35 18), sgn 18 (fld w 17 0)]

/-- FLAT_FIELD words that input k uses (R417). -/
def flatWords (s : State) (k : Nat) : Nat × Nat := (getN s Obj.ffBase k, camRows s k * camPositions s k)

/-- What the pipeline needs of input k. -/
def pipeCtx (s : State) (k : Nat) : PipeCtx :=
  let f := flatWords s k
  { period := camPeriod s k, rows := camRows s k, positions := camPositions s k
    codes := ((List.range 4).map (fun r => ((List.range 8).map (fun i =>
      fld (getW s Obj.mosaic (4 * k + r)) (35 - 3 * i) (33 - 3 * i))).toArray)).toArray
    delays := ((List.range 4).map (rowDelay s k)).toArray
    flat := memImage s 7 f.1 f.2
    matrix := ((List.range 10).flatMap (fun i => halves (getW s Obj.colourMatrix (12 * k + i)))).toArray
    off := ((List.range 2).flatMap (fun i => halves (getW s Obj.colourMatrix (12 * k + 10 + i)))).toArray }

/-- s' of a sample (R417 step 2). -/
def cleanSample (c : PipeCtx) (row pos : Nat) (s12 : Nat) : Nat :=
  let w := c.flat.getD (row * c.positions + pos) 0
  (clampI 0 4095 (Int.fdiv (((s12 : Int) - (w / 2 ^ 24 % 4096 : Nat)) * (w / 2 ^ 8 % 65536 : Nat) + 2048) 4096)).toNat

/-- Channel c of output pixel i (R417 step 3); `line r` gives the samples of row r's camera line. -/
def channelOf (c : PipeCtx) (line : Nat → Array Nat) (i ch : Nat) : Nat :=
  let vals := (List.range c.rows).flatMap (fun r =>
    ((List.range c.period).filter (fun q => (c.codes.getD r #[]).getD q 7 == ch)).map (fun q =>
      let pos := c.period * i + q
      cleanSample c r pos ((line r).getD (r * c.positions + pos) 0)))
  let n := vals.length
  if n = 0 then 0 else (vals.foldl (· + ·) 0 + n / 2) / n

/-- The four output planes of pixel i (R417 step 4). -/
def planesOf (c : PipeCtx) (line : Nat → Array Nat) (i : Nat) : List Nat :=
  let ch := (List.range 5).map (fun x => (channelOf c line i x : Int))
  (List.range 4).map (fun p =>
    let sum := (List.range 5).foldl (fun (a : Int) x => a + c.matrix.getD (5 * p + x) 0 * at? ch x 0) 0
    (clampI 0 4095 (Int.fdiv (sum + 2048) 4096 + c.off.getD p 0)).toNat)

/-- An output line: the planes of each pixel; `lines d` gives the samples of the camera line d lines after it. -/
def outputLine (c : PipeCtx) (lines : Nat → Array Nat) : List (List Nat) :=
  (List.range (c.positions / c.period)).map (planesOf c (fun r => lines (c.delays.getD r 0)))

/-- The samples of camera line j, in an order of lines given. A line that was never received holds nothing stated: its
samples are free values (notes/assumptions/36.md). -/
def lineSamples (s : State) (ls : List CamLine) (j : Nat) : Array Nat :=
  match ls.find? (fun l => l.j == j) with
  | some l => l.samples.toArray
  | none => ((List.range 65536).map (fun i => (Config.freeWord (s.free + j * 65536 + i)).toNat % 4096)).toArray

/-- Free values taken for the lines that a stripe lacks. -/
def takeLines (ls : List CamLine) (lo n : Nat) (s : State) : State :=
  if (List.range n).all (fun i => ls.any (fun l => l.j == lo + i)) then s else { s with free := s.free + (lo + n) * 65536 }

/-- The output lines of a stripe, with their numbers, GEN and transition flags (R414, R417). -/
def stripeLines (s : State) (x : Stripe) : List (Nat × Nat × Bool × List (List Nat)) :=
  let c := pipeCtx s x.input
  (List.range x.count).map (fun i =>
    let j := 32 * x.index + i
    let l := x.lines.find? (fun l => l.j == j)
    (j, (l.map (·.gen)).getD 0, (l.map (·.trans)).getD false,
     outputLine c (fun d => lineSamples s x.lines (j + d))))

/-! Display (R417 step 5a, R419). -/

/-- The sRGB transfer function on a/d, times 255, rounded half up: a power of 1/2.4 compared through its twelfth power. -/
def srgb (a d : Nat) : Nat :=
  if a * 10000000 ≤ 31308 * d then (a * 6589200 + d * 1000) / (d * 2000)
  else
    let ok := fun (n : Nat) => decide ((1000 * n + 13525) ^ 12 * d ^ 5 ≤ a ^ 5 * 269025 ^ 12)
    (List.range 8).foldl (fun n i =>
      let m := n + 2 ^ (7 - i)
      if m ≤ 255 && ok m then m else n) 0

/-- A display pixel: planes 0 to 2 averaged over the output pixels present. -/
def displayPixel (px : List (List Nat)) : Nat :=
  let v := fun (p : Nat) => srgb (px.foldl (fun a x => a + at? x p 0) 0) (4095 * px.length)
  v 0 * 65536 + v 1 * 256 + v 2

/-- Pixels three to a pair of words (R419). -/
def displayWords (px : List Nat) : List Word :=
  (List.range ((px.length + 2) / 3)).flatMap (fun i =>
    let v := at? px (3 * i) 0 * 2 ^ 48 + at? px (3 * i + 1) 0 * 2 ^ 24 + at? px (3 * i + 2) 0
    [wd (v / 2 ^ 36), wd v])

/-- Words in use in the display queue (R431). -/
def dispFill (s : State) : Nat := s.insp.display.foldl (fun n r => n + r.2.length) 0

/-- A display record is written, or dropped where the queue of 131,072 words lacks room (R414, R419). -/
def displayStripe (x : Stripe) (ls : List (Nat × Nat × Bool × List (List Nat))) (s : State) : State :=
  let e := 2 ^ getN s Obj.dispScale 0
  let n := camPixels s x.input
  let w := (n + e - 1) / e
  let h := (ls.length + e - 1) / e
  let rows := (ls.map (fun l => l.2.2.2.toArray)).toArray
  let px := (List.range h).flatMap (fun r => (List.range w).map (fun i =>
    displayPixel ((List.range e).flatMap (fun a => (List.range e).filterMap (fun b => (rows.getD (e * r + a) #[])[e * i + b]?)))))
  let head : List Word :=
    [wd (x.input * 2 ^ 34 + getN s Obj.dispScale 0 * 2 ^ 31 + w % 32768 * 2 ^ 16 + h * 2 ^ 10 + (if x.isShort then 512 else 0)
       + (if x.isLong then 256 else 0) + (if x.nopage then 128 else 0)),
     wd (x.frame % 2 ^ 24 * 2 ^ 12 + x.index % 4096), wd s.insp.dispSeq]
  let rec_ := head ++ displayWords px
  if dispFill s + rec_.length > 131072 then bump Obj.dispDropped 0 1 s
  else modInsp (fun i => { i with display := i.display ++ [(i.dispSeq, rec_)], dispSeq := (i.dispSeq + 1) % 2 ^ 36 }) s

/-! Coding (R417 step 5b, R420, R241). -/

/-- What the encoder gives for a block at an attempt, with its faults. -/
def codeAttempt (S b attempt : Nat) (faults : List CoderFault) (vs : List Nat) : List Word :=
  (faults.filter (fun f => f.block == b && f.attempt == attempt)).foldl (fun ws f => setAt ws f.word (at? ws f.word 0 ^^^ f.bits))
    (codeBlock S b vs)

/-- The independent decoder finds the encoder's own values in a block (R242). -/
def blockVerifies (ratio S b : Nat) (vs : List Nat) (ws : List Word) : Bool :=
  match decodeBlock ratio b false staticTable ws with
  | .ok l => l == ownValues (codeBlock S b vs) vs
  | .error _ => false

/-- A block as the Block Compressor emits it (R242): its words, and whether it was coded again, and flat. -/
def emitBlock (ratio S b : Nat) (faults : List CoderFault) (vs : List Nat) : List Word × Bool × Bool :=
  let first := codeAttempt S b 0 faults vs
  if blockVerifies ratio S b vs first then (first, false, false)
  else
    let second := codeAttempt S b 1 faults vs
    if blockVerifies ratio S b vs second then (second, true, false)
    else (blockWords S 1 0 0 b ((vs.foldl (· + ·) 0 + 54) / 108, 8), true, true)

/-- The blocks of one block row of a plane: 4 lines of samples, the last pixel repeated past the edge. -/
def rowBlocks (ratio S n : Nat) (faults : List CoderFault) (lines : Array (Array Nat)) : List (List Word × Bool × Bool) :=
  (List.range ((n + 26) / 27)).map (fun b =>
    emitBlock ratio S b faults ((List.range 4).flatMap (fun l => (List.range 27).map (fun i =>
      (lines.getD l #[]).getD (min (27 * b + i) (n - 1)) 0))))

/-- Consecutive pieces of a list of at most m elements, with the index of each piece's first; fuel bounds the pieces. -/
def piecesOf {α : Type} (m : Nat) : Nat → Nat → List α → List (Nat × List α)
  | 0, _, _ => []
  | _ + 1, _, [] => []
  | f + 1, i, l => (i, l.take m) :: piecesOf m f (i + m) (l.drop m)

/-- A coding stripe frame (R420). -/
def codingFrame (x : Stripe) (plane brow ratio gen : Nat) (pad : Bool) (piece : Nat × List (List Word × Bool × Bool)) : List Word :=
  let w0 := wd (x.input * 2 ^ 34 + plane * 2 ^ 32 + brow * 2 ^ 29 + piece.1 % 8192 * 2 ^ 16 + piece.2.length * 2 ^ 10 + ratio * 2 ^ 7)
  let w1 := wd (x.frame % 2 ^ 24 * 2 ^ 12 + x.index % 4096)
  let w2 := wd ((if x.isShort then 2 ^ 35 else 0) + (if x.isLong then 2 ^ 34 else 0) + (if x.nopage then 2 ^ 33 else 0)
    + (if pad then 2 ^ 32 else 0) + packBits (fun i => (at? piece.2 i ([], false, false)).2.2) 32)
  let w3 := wd (gen % 256 * 2 ^ 28)
  [w0, w1, w2, wd (w3.toNat + crc16Hdr w0 w1 w2 w3)] ++ (piece.2.map (fun b => b.1)).flatten

/-- A frame goes out on the next active lane of the bond in turn (R420). -/
def sendCoding (ws : List Word) (s : State) : State :=
  let lanes := bitsOf 5 s.bond.active.toNat
  if !s.bond.formed || lanes.isEmpty then s else
  emit (.coding (at? lanes (s.insp.codeLane % lanes.length) 0) ws) (modInsp (fun i => { i with codeLane := (i.codeLane + 1) % 60 }) s)

/-- The block rows of a stripe's planes, with plane and row (R241, R242, R420). -/
def stripeRows (x : Stripe) (faults : List CoderFault) (ls : List (Nat × Nat × Bool × List (List Nat))) (s : State) :
    List (Nat × Nat × List (List Word × Bool × Bool)) :=
  let ratio := getN s Obj.cmpRatio 0
  let lines := (ls.map (fun l => l.2.2.2)).toArray
  (List.range (getN s Obj.codePlanes 0)).flatMap (fun p => (List.range ((ls.length + 3) / 4)).map (fun r =>
    let four := ((List.range 4).map (fun l =>
      ((lines.getD (min (4 * r + l) (ls.length - 1)) []).map (fun px => min 255 ((at? px p 0 + 8) / 16))).toArray)).toArray
    (p, r, rowBlocks ratio (strideOf ratio) (camPixels s x.input) (faults.filter (fun f => f.plane == p && f.brow == r)) four)))

/-- Retries and flat blocks are counted; EV 06.002 once for a stripe with flat blocks, naming the first plane that has any and
the blocks of all planes (R242; notes/assumptions/74.md). -/
def codeCounts (x : Stripe) (rows : List (Nat × Nat × List (List Word × Bool × Bool))) (s : State) : State :=
  let retries := (rows.map (fun r => (r.2.2.filter (fun b => b.2.1)).length)).sum
  let flat := rows.map (fun r => (r.1, (r.2.2.filter (fun b => b.2.2)).length))
  let n := (flat.map (fun r => r.2)).sum
  let s := whenB (retries != 0) (bump Obj.cmpRetries 0 retries) s
  match flat.find? (fun r => r.2 != 0) with
  | none => s
  | some r => raise 0x06002 [wd (x.input * 4 + r.1), pPage x.frame, wd x.index, wd n] (bump Obj.cmpFallbacks 0 n s)

/-- The planes of a stripe are coded and sent (R420). -/
def codeStripe (x : Stripe) (faults : List CoderFault) (ls : List (Nat × Nat × Bool × List (List Nat))) (s : State) : State :=
  let ratio := getN s Obj.cmpRatio 0
  let m := min 32 (252 / strideOf ratio)
  let gen := match ls with
    | l :: _ => l.2.1
    | [] => 0
  let rows := stripeRows x faults ls s
  forEach rows (fun row s =>
    forEach (piecesOf m (row.2.2.length + 1) 0 row.2.2) (fun piece s =>
      sendCoding (codingFrame x row.1 row.2.1 ratio gen (decide (4 * row.2.1 + 4 > ls.length)) piece) s) s) (codeCounts x rows s)

/-! Ink values (R417 step 5c, R426). -/

/-- Line j lies within the registration range of an evidence line. -/
def nearEvidence (s : State) (j : Nat) : Bool :=
  let f := getN s Obj.foxSample 0
  decide (j % f ≤ dyRange s) || decide (f - j % f ≤ dyRange s)

/-- Ink values of the lines that registration may use. -/
def visionStripe (x : Stripe) (ls : List (Nat × Nat × Bool × List (List Nat))) (s : State) : State :=
  let new := (ls.filter (fun l => nearEvidence s l.1)).map (fun l =>
    ({ input := x.input, frame := x.frame, j := l.1, trans := l.2.2.1, ink := l.2.2.2.map (inkOf s) } : VisionLine))
  modFox (fun f => { f with vision := f.vision ++ new }) s

/-- A camera lane holds symbol lock. -/
def camLock (s : State) (k : Nat) : Bool := (laneU s (42 + k)).lock

/-- The stripe that became ready earliest, on a tie that of the lower input, then the earlier stripe (R416). -/
def nextStripe (s : State) : Option Stripe :=
  (s.insp.stripes.filter (fun x => x.ready.isSome)).foldl (fun a x => match a with
    | some b =>
      let tx := x.ready.getD 0
      let tb := b.ready.getD 0
      if tx < tb || (tx == tb && x.input < b.input) then some x else some b
    | none => some x) none

/-- Fox looks at the lines of a page frame processed so far (R424). -/
def foxAfter (x : Stripe) (s : State) : State :=
  if x.nopage || !(camSees s x.input) then s
  else foxLines x.input x.frame (32 * x.index + x.count - 1) x.last (camLock s x.input) s

/-- One stripe is processed and its buffer becomes free (R415, R416). The faults that strike the encoder are free
(notes/assumptions/74.md). -/
def processStripe (s : State) : State :=
  if !(rdy s 18) then s else
  match nextStripe s with
  | none => s
  | some x =>
    let s := modInsp (fun i => { i with stripes := i.stripes.erase x }) s
    let f := flatWords s x.input
    let s := readRange 7 f.1 (f.1 + f.2) (evictRange 7 f.1 (f.1 + f.2) s)
    let ls := stripeLines s x
    let s := takeLines x.lines (32 * x.index) (x.count + maxDelay s x.input) s
    let s := if camShows s x.input && !ls.isEmpty then displayStripe x ls s else s
    let s := if camCodes s x.input && !ls.isEmpty then codeStripe x (Config.coderFaults s.free) ls (takeFree s) else s
    let s := if camSees s x.input && !x.nopage then visionStripe x ls s else s
    foxAfter x s

/-- Why a write of DISP_ACK is refused (R419), and its effect. -/
def dispAckAbort (seq : Nat) (s : State) : Nat := if s.insp.display.any (fun r => r.1 == seq) then 0 else 0x06
def dispAckDo (seq : Nat) (s : State) : State :=
  modInsp (fun i => { i with display := (i.display.dropWhile (fun r => r.1 != seq)).drop 1 }) s

/-- STRIPE_PROCESS (R416). -/
def execStripeProcess (t : Nat) (s : State) : Host.Outcome State Fault Refusal :=
  happen t processStripe s

end Sys2Proof.Machine
end

