-- ==== Sys2Proof/Machine/Camera.lean ====
section
/-! DEFINITION. Camera rings (R404 to R415, R421 to R423): frames and stripes by position, STATUS, SYNC and SETTINGS,
exposure commits, frame statistics, and a lane lost. -/

namespace Sys2Proof.Machine

open Sys2Proof

/-- Words of one line frame after SOF, rounded up to even (R414). -/
def lineWords (s : State) (k : Nat) : Nat := (3 + (camRows s k * camPositions s k + 2) / 3 + 1) / 2 * 2

/-- Stripe buffers of an input under a CAM_ROLE value, by its enabled inputs (R414). -/
def stripeAlloc (s : State) (roleWord : Word) (k : Nat) : Nat :=
  let n := ones 4 (fld roleWord 31 28)
  if !(bitOf roleWord (28 + k)) then 0 else 1572864 / n / ((32 + maxDelay s k) * lineWords s k)
def camAlloc (s : State) (k : Nat) : Nat := stripeAlloc s (getW s Obj.camRole 0) k
def camUsed (s : State) (k : Nat) : Nat := (s.insp.stripes.filter (fun x => x.input == k)).length

/-- A write of CAM_ROLE is refused (R414, R418): an enabled input with fewer than 2 buffers, POSITIONS not a multiple of
PERIOD, flat-field words past the table, or a reserved channel code. -/
def camRoleAbort (v : Word) (s : State) : Nat :=
  let bad := fun (k : Nat) => bitOf v (28 + k) && (decide (stripeAlloc s v k < 2)
    || decide (camPositions s k % camPeriod s k ≠ 0)
    || decide (getN s Obj.ffBase k + camRows s k * camPositions s k > 131072)
    || (List.range (camRows s k)).any (fun r => (List.range (camPeriod s k)).any (fun i =>
        let c := fld (getW s Obj.mosaic (4 * k + r)) (35 - 3 * i) (33 - 3 * i)
        c == 5 || c == 6)))
  if (List.range 4).any bad then 0x06 else 0

/-- Discarded line frames of input k are counted (R407). -/
def lineDrop (k n : Nat) (s : State) : State := if n = 0 then s else bump Obj.linesDiscarded k n s

/-- A CTRL frame (R407). -/
def ctrlFrame (op gen exp : Nat) (rgb cir : Word) (seq : Nat) : List Word :=
  let ws := [wd (op * 2 ^ 32 + gen % 256 * 2 ^ 24 + exp % 2 ^ 24), rgb, setFld cir 11 0 0, wd (seq % 256 * 2 ^ 28)]
  ws ++ [wd (crc32 ws), 0]

/-! Frames (R411, R412, R421, R422). -/

/-- Output lines that a frame has: camera lines up to its last, less the largest ROW_DELAY, at most FRAME_LINES (R412). -/
def frameOutput (s : State) (k : Nat) (f : CamFrame) : Nat :=
  match f.lastJ with
  | some j => min (j + 1 - maxDelay s k) (getN s Obj.frameLines k)
  | none => 0

/-- The mean of R422 for one plane; with no line counted the spec states none: a free value. -/
def planeMean (x : Nat × Nat × Nat) (s : State) : Nat × State :=
  if x.2.1 = 0 then ((freeVal s).toNat % 4096, takeFree s) else ((x.1 + x.2.1 / 2) / x.2.1, s)

/-- The FRAME_STATS record of a frame that closes (R422). -/
def writeStats (k : Nat) (f : CamFrame) (isShort : Bool) (s : State) : State :=
  let base := 32 * k + 8 * (f.num % 4)
  let put := fun (i n : Nat) (s : State) => setN Obj.frameStats (base + i) n s
  let s := put 0 (f.num % 2 ^ 24 * 2 ^ 12 + (if isShort then 2048 else 1024) + (if f.nopage then 512 else 0) + 256) s
  let s := put 1 (f.firstGen % 256 * 2 ^ 28 + satN 16 f.counted * 2 ^ 12 + satN 12 f.trans) s
  let s := forEach (List.range 4) (fun p s =>
    let x := at? f.sums p (0, 0, 0)
    let (m, s) := planeMean x s
    put (2 + p) (m * 2 ^ 24 + satN 24 x.2.2) s) s
  let (t0, s) := if f.lastJ.isSome then (f.t0, s) else ((freeVal s).toNat, takeFree s)
  put 7 (t0 % 2 ^ 36) (put 6 (t0 / 2 ^ 36) s)

/-- The frame under way on input k closes (R412, R416, R428, R445). -/
def closeFrame (k : Nat) (isShort : Bool) (s : State) : State :=
  match (camU s k).frame with
  | none => s
  | some f =>
    let total := frameOutput s k f
    let s := raise (if isShort then 0x0E002 else 0x0E003) [p9 k, pPage f.num, pNum total, 0] s
    let s := writeStats k f isShort s
    let lastIx := (total - 1) / 32
    let close := fun (x : Stripe) =>
      if x.input == k && x.frame == f.num && x.nopage == f.nopage then
        { x with isShort := isShort, isLong := !isShort, ready := some (x.ready.getD s.clock.tick), last := x.index == lastIx
                 count := if x.ready.isSome then x.count else min 32 (total - 32 * x.index) }
      else x
    let keep := fun (x : Stripe) => !(x.input == k && x.frame == f.num && x.nopage == f.nopage && x.count == 0)
    let s := modInsp (fun i => { i with stripes := (i.stripes.map close).filter keep }) s
    let s := modCam k (fun c => { c with frame := none }) s
    let s := if f.nopage || s.insp.stripes.any (fun x => x.input == k && x.frame == f.num && x.last && !x.nopage) then s
      else foxLines k f.num total true (camLock s k) s
    let s := foxClose k f.num (camLock s k) s
    if f.nopage || !(patternPage s f.num) then s else patternClose k f.num s

/-- At a frame start that comes after 64 output lines, a committed exposure goes out (R421). -/
def sendSettings (k frame : Nat) (s : State) : State :=
  match (camU s k).commit with
  | none => s
  | some (n, exp, rgb, cir) =>
    if n < 64 || !(camMaster s k) then s else
    let gen := ((camU s k).sentGen + 1) % 256
    let s := modCam k (fun c => { c with commit := none, sentGen := gen }) s
    let s := setN Obj.expActive k (fld exp 35 12 * 2 ^ 12 + gen) s
    raise 0x0E005 [p9 k, wd gen, pPage frame, 0] (emit (.camera k (ctrlFrame 1 gen (fld exp 35 12) rgb cir 0)) s)

/-- A frame start (R411): of page `page` at position V, or without a page. None is taken while the camera rings are held
in reset (R73). -/
def frameStart (page : Option (Nat × Int)) (s : State) : State :=
  if bitOf (getW s Obj.funcReset 0) 17 then s else
  forEach ((List.range 4).filter (camOn s)) (fun k s =>
    let s := closeFrame k true s
    let num := (page.map (·.1)).getD 0
    let v := (page.map (·.2)).getD 0
    let frame : CamFrame :=
      { num := num, nopage := page.isNone, start := v, pos0 := camFirst s v, lastJ := none, highest := none,
        firstGen := (camU s k).gen, counted := 0, trans := 0, t0 := 0, dropped := [], overrun := false, gap := false,
        recent := [], sums := List.replicate 4 (0, 0, 0) }
    let s := modCam k (fun c => { c with frame := some frame }) s
    sendSettings k num s) s

/-- The frame under way on input k changed. -/
def modFrame (k : Nat) (f : CamFrame → CamFrame) (s : State) : State :=
  modCam k (fun c => { c with frame := c.frame.map f }) s

/-! Lines and stripes (R413 to R415, R423). -/

/-- The stripes that hold camera line j, for a largest ROW_DELAY d (R414). -/
def stripesOf (j d : Nat) : List Nat := (List.range (j / 32 + 1)).filter (fun i => decide (j ≤ 32 * i + 31 + d))

/-- A line after a loss of the lane: the stripes that lack a line through it are dropped, and their lines counted (R423). -/
def closeGap (k j : Nat) (f : CamFrame) (s : State) : State :=
  let d := maxDelay s k
  let first := match f.lastJ with
    | some m => m + 1
    | none => 0
  let s := modFrame k (fun f => { f with gap := false }) s
  if !f.gap || decide (j ≤ first) then s else
  let lacks := fun (i : Nat) => decide (32 * i ≤ j - 1) && decide (first ≤ 32 * i + 31 + d)
  let gone := s.insp.stripes.filter (fun x => x.input == k && x.frame == f.num && x.nopage == f.nopage && x.ready.isNone && lacks x.index)
  let s := lineDrop k (gone.foldl (fun n x => n + x.lines.length) 0) s
  let s := modInsp (fun i => { i with stripes := i.stripes.filter (fun x => !(gone.contains x)) }) s
  modFrame k (fun f => { f with dropped := f.dropped
    ++ (((stripesOf j d).filter lacks).filter (fun i => !(f.dropped.any (fun e => e.1 == i)))).map (fun i => (i, true)) }) s

/-- A camera line enters stripe i of the frame (R414, R415). -/
def stripeTake (k : Nat) (l : CamLine) (i : Nat) (s : State) : State :=
  match (camU s k).frame with
  | none => s
  | some f =>
    let mine := fun (x : Stripe) => x.input == k && x.frame == f.num && x.nopage == f.nopage && x.index == i
    match f.dropped.find? (fun e => e.1 == i) with
    | some (_, true) => lineDrop k 1 s
    | some (_, false) => bump Obj.stripeOverruns k 1 s
    | none =>
      if s.insp.stripes.any mine then
        let full := 32 + maxDelay s k
        modInsp (fun x => { x with stripes := x.stripes.map (fun x =>
          if mine x then { x with lines := x.lines ++ [l], ready := if x.lines.length + 1 = full then some s.clock.tick else x.ready } else x) }) s
      else if camUsed s k < camAlloc s k then
        modInsp (fun x => { x with stripes := x.stripes ++ [
          { input := k, frame := f.num, nopage := f.nopage, index := i, lines := [l], ready := none, count := 32, last := false
            isShort := false, isLong := false }] }) s
      else
        let s := bump Obj.stripeOverruns k 1 (modFrame k (fun f => { f with dropped := f.dropped ++ [(i, false)], overrun := true }) s)
        if f.overrun then s else raise 0x0E004 [p9 k, pPage f.num, pNum i, 0] s

/-- The statistics of the output line that a camera line completes (R422). -/
def lineStats (k : Nat) (s : State) : State :=
  match (camU s k).frame with
  | none => s
  | some f =>
    let d := maxDelay s k
    match f.lastJ with
    | none => s
    | some j =>
      if j < d || !((List.range (d + 1)).all (fun i => f.recent.any (fun l => l.j == j - d + i))) then s else
      match f.recent.find? (fun l => l.j == j - d) with
      | none => s
      | some l =>
        let s := modCam k (fun c => { c with commit := c.commit.map (fun x => (x.1 + 1, x.2)) }) s
        if l.trans then modFrame k (fun f => { f with trans := f.trans + 1 }) s
        else
          let out := outputLine (pipeCtx s k) (fun i => ((f.recent.find? (fun l => l.j == j - d + i)).map (·.samples.toArray)).getD #[])
          let add := fun (p : Nat) (x : Nat × Nat × Nat) => out.foldl (fun a px =>
            let v := at? px p 0
            (a.1 + v, a.2.1 + 1, a.2.2 + (if v = 4095 then 1 else 0))) x
          modFrame k (fun f => { f with counted := f.counted + 1, sums := f.sums.mapIdx add }) s

/-- A camera line is taken into the frame under way as frame line j (R411 to R415). -/
def lineTake (k : Nat) (l : CamLine) (pos : Int) (s : State) : State :=
  match (camU s k).frame with
  | none => s
  | some f =>
    let s := closeGap k l.j f s
    let s := modFrame k (fun f => { f with
      lastJ := some l.j, highest := some pos, firstGen := if f.lastJ.isNone then l.gen else f.firstGen
      t0 := if f.lastJ.isNone then time72 s else f.t0
      recent := f.recent.filter (fun r => decide (r.j + 16 > l.j)) ++ [l] }) s
    let s := forEach (stripesOf l.j (maxDelay s k)) (stripeTake k l) s
    let s := lineStats k s
    if l.j + 1 - maxDelay s k ≥ getN s Obj.frameLines k then closeFrame k false s else s

/-- Samples of a LINE frame as 12-bit values (R407, R417 step 1). -/
def lineSamplesOf (ws : List Word) : List Nat :=
  let w1 := at? ws 1 0
  (((ws.drop 3).flatMap unpack3).take (fld w1 19 0)).map (fun v =>
    let w := 8 + 2 * fld w1 21 20
    v % 2 ^ w * 2 ^ (12 - w))

/-- A LINE frame arrives on input k (R407, R409, R411, R413, R418, R422). -/
def cameraLine (k : Nat) (ws : List Word) (eofOk : Bool) (s : State) : State :=
  if !(camOn s k) || !(laneServes s (42 + k)) || !(camLock s k) then s else
  let w1 := at? ws 1 0
  let n := fld w1 19 0
  if !eofOk || at? ws 2 0 != wd ((at? ws 2 0).toNat / 2 ^ 16 * 2 ^ 16 + crc16Upper [at? ws 0 0, w1] (at? ws 2 0))
    || decide (n ≠ camRows s k * camPositions s k) || decide (ws.length < 3 + (n + 2) / 3) || fld w1 21 20 == 3 then lineDrop k 1 s
  else
    let gen := fld w1 35 28
    let fresh := gen != (camU s k).gen
    let left := if fresh then (camU s k).latency else (camU s k).transLeft
    let s := modCam k (fun c => { c with gen := gen, transLeft := left - 1, synced := c.synced && bitOf w1 27 }) s
    let line := fun (j : Nat) => ({ j := j, gen := gen, trans := decide (left > 0), samples := lineSamplesOf ws } : CamLine)
    match (camU s k).frame with
    | none => lineDrop k 1 s
    | some f =>
      if f.nopage then lineTake k (line (match f.lastJ with
        | some j => j + 1
        | none => 0)) 0 s
      else if !(camU s k).synced then lineDrop k 1 s
      else
        let pos := getPos s Obj.camPhase 0 + ((camU s k).kSync + sgn 36 (at? ws 0 0).toNat) * camPitch s
        if pos < f.start || (match f.highest with
            | some h => decide (pos ≤ h)
            | none => false) then lineDrop k 1 s
        else lineTake k (line (Int.fdiv (pos - f.pos0) (camPitch s)).toNat) pos s

/-- A STATUS frame arrives on input k (R407 to R409). -/
def cameraStatus (k : Nat) (ws : List Word) (eofOk : Bool) (s : State) : State :=
  if !(camOn s k) || !(laneServes s (42 + k)) || !(camLock s k) then s
  else if !eofOk || ws.length ≠ 4 || at? ws 2 0 != wd (crc32 (ws.take 2)) then s
  else
    let w1 := at? ws 1 0
    let seq := fld w1 27 20
    let valid := bitOf w1 19
    let s := modCam k (fun c => { c with latency := fld w1 17 10, sensorFault := bitOf w1 18, synced := c.synced && valid }) s
    if valid && seq != (camU s k).syncSeen then
      modCam k (fun c => { c with syncSeen := seq, synced := true, kSync := Int.fdiv (posNow s - getPos s Obj.camPhase 0) (camPitch s) }) s
    else s

/-- Why a write of SYNC_REQ is refused (R408), and its effect: a SYNC frame on each input named. -/
def syncReqAbort (v : Word) (s : State) : Nat :=
  let m := fld v 3 0
  if m ≠ 0 && ((bitsOf 4 m).any (fun k => !(camOn s k) || !(camMaster s k)) || moving s || pageInProgress s) then 0x07
  else if m = 0 then 0x06 else 0
def syncReqDo (v : Word) (s : State) : State :=
  forEach (bitsOf 4 (fld v 3 0)) (fun k s =>
    let seq := ((camU s k).syncSent + 1) % 256
    emit (.camera k (ctrlFrame 2 0 0 0 0 seq)) (modCam k (fun c => { c with syncSent := seq }) s)) s

/-- Why a write of EXP_COMMIT is refused (R421), and its effect. -/
def expCommitAbort (v : Word) (s : State) : Nat :=
  if (bitsOf 4 (fld v 3 0)).any (fun k => !(camMaster s k)) then 0x07 else 0
def expCommitDo (v : Word) (s : State) : State :=
  forEach (bitsOf 4 (fld v 3 0)) (fun k s =>
    modCam k (fun c => { c with commit := some (0, getW s Obj.expSet k, getW s Obj.gainRgb k, getW s Obj.gainCir k) }) s) s

/-- An enabled camera lane loses symbol lock (R423). -/
def cameraLost (k : Nat) (s : State) : State :=
  if !(camOn s k) then s else raise 0x0E001 [p9 k, 0, 0, 0] (modFrame k (fun f => { f with gap := true }) s)

/-- 0E.100 CAM_STATUS (R431). -/
def camStatusWord (s : State) (k : Nat) : Word :=
  let c := camU s k
  let a := camAlloc s k
  wd ((if camLock s k then 2 ^ 35 else 0) + (if c.synced then 2 ^ 34 else 0) + (if c.frame.isSome then 2 ^ 33 else 0)
    + (if c.sensorFault then 2 ^ 32 else 0) + c.gen % 256 * 2 ^ 24 + c.latency % 256 * 2 ^ 16 + satN 4 a * 2 ^ 12
    + satN 4 (a - camUsed s k) * 2 ^ 8)

/-- A frame received on an enabled CAMn goes out of CAMn unchanged, a damaged one as received (R405). -/
def cameraRepeat (k kind : Nat) (ws : List Word) (eofOk : Bool) (s : State) : State :=
  if camOn s k && laneServes s (42 + k) && camLock s k then emit (.cameraRepeat k kind ws eofOk) s else s

/-- CAMERA_LINE (R405, R411). Nothing passes the crossing while one of its sides is in reset (R38). -/
def execCameraLine (t : Nat) (input : Cam) (words : List Word) (eofOk : Bool) (s : State) : Host.Outcome State Fault Refusal :=
  happen t (fun s =>
    let s := cameraRepeat input.val 1 words eofOk s
    if xingStalled s 9 then s else crossing 9 (cameraLine input.val words eofOk) s) s

/-- CAMERA_STATUS (R405, R408). -/
def execCameraStatus (t : Nat) (input : Cam) (words : List Word) (eofOk : Bool) (s : State) : Host.Outcome State Fault Refusal :=
  happen t (fun s =>
    let s := cameraRepeat input.val 3 words eofOk s
    if xingStalled s 9 then s else crossing 9 (cameraStatus input.val words eofOk) s) s

end Sys2Proof.Machine
end

