-- ==== Sys2Proof/Machine/Fabric.lean ====
section
/-! DEFINITION. The Screening Fabric at work (chapter 09, R311): line groups screened line by line, the frames that cross
device edges, waits and retries, page boundaries, and Configuration Network loads. -/

namespace Sys2Proof.Machine

open Sys2Proof

/-- The fabric screens (R266): it is not held in reset, and a Tile is ready. -/
def fabricRuns (s : State) : Bool := !(bitOf (getW s Obj.funcReset 0) 9) && getN s Obj.tileReady 0 != 0

/-- The enabled chains: number, first nozzle and number of positions (R246). -/
def chainsOf (s : State) : List (Nat × Nat × Nat) :=
  ((List.range 4).filter (fun i => bitOf (getW s Obj.chain i) 35)).map (fun i =>
    let c := getW s Obj.chain i
    (i, fld c 9 5 * headNozzles, (fld c 4 0 + 1 - fld c 9 5) * headNozzles))

/-- The heads in no enabled chain. -/
def loneHeads (s : State) : List Nat :=
  (List.range 32).filter (fun h => !((chainsOf s).any (fun c => decide (c.2.1 ≤ h * headNozzles) && decide (h * headNozzles < c.2.1 + c.2.2))))

/-- What the fabric needs to screen page line y, with the samples of its line. -/
def lineCtx (s : State) (y : Nat) (samples : List Nat) : LineCtx :=
  { heads := ((List.range 32).map (fun h => headScreen s h y)).toArray, ramp := getN s Obj.ramp 0
    origin := getN s Obj.columnOrigin 0, mask := getN s Obj.stateMask 0, nt := ntActive s, samples := samples.toArray
    second := getN s Obj.secondInk 0, tiles := s.fabric.tiles.toNat }

/-- The words of memory 4 that the Cells of Tile t hold (R244, R449; notes/assumptions/9.md). -/
def tileReads (t : Nat) (s : State) : State := readRange 4 (65536 * t) (65536 * (t + 1)) (evictRange 4 (65536 * t) (65536 * (t + 1)) s)

/-- The reads of a line: the Cell-local RAM of the Tiles in service, every word of the active Nozzle Table, and the
threshold row of each head that uses one. -/
def lineReads (y : Nat) (s : State) : State :=
  let s := forEach (bitsOf 27 s.fabric.tiles.toNat) tileReads s
  forEach ((List.range 32).filter (usesArray s)) (fun h s =>
    let r := rowPlace s h y
    readRange 3 r.1 (r.1 + r.2) (evictRange 3 r.1 (r.1 + r.2) s)) (ntTouch false s)

/-- An edge frame held for a chain, edge, kind, page and line. -/
def edgeHeld (s : State) (i e : Nat) (comp : Bool) (p y : Nat) : Option EdgeFrame :=
  s.fabric.edgeIn.find? (fun f => f.chain == i && f.backward == (e == 1) && f.comp == comp && f.page == p && f.line == y)

/-- Down terms cross into line y of page p (R265): the line before was screened, and was no pre-screened one. -/
def downCarried (s : State) (p y : Nat) : Bool := decide (s.fabric.downFor = some (p, y)) && !s.fabric.preset

/-- The edge frames that line y of page p needs (R264, R268, R293): chain, edge, kind and line. A pre-screened line needs
none. Down terms from the next device belong to the line before. -/
def edgeNeeds (s : State) (p y : Nat) : List (Nat × Nat × Bool × Nat) :=
  (chainsOf s).flatMap (fun c =>
    (if edgeOpen s c.1 0 then [] else [(c.1, 0, true, y), (c.1, 0, false, y)])
    ++ (if edgeOpen s c.1 1 then [] else (c.1, 1, true, y) ::
      (if downCarried s p y then [(c.1, 1, false, y - 1)] else [])))

/-- The frames awaited: needed and not held (R25). -/
def edgeAwaited (s : State) (p y : Nat) : List (Nat × Nat × Bool × Nat) :=
  (edgeNeeds s p y).filter (fun n => (edgeHeld s n.1 n.2.1 n.2.2.1 p n.2.2.2).isNone)

/-- The line group of a page line. -/
def groupOf (s : State) (p y : Nat) : Option LineGroup := s.rfe.groups.find? (fun g => g.page == p && g.lg == y / 4 && !g.late)

/-- The columns beyond an edge of a chain that its EDGE_COMP frame covers, as local columns (R294): none where the edge is
open or the chain owns no column. -/
def edgeSpan (s : State) (c : LineCtx) (ch : Nat × Nat × Nat) (e : Nat) : Option Int :=
  if edgeOpen s ch.1 e then none
  else (ownedColumns c ch.2.1 ch.2.2).map (fun x => if e = 1 then x.2 + 1 else x.1 - 16)

/-- EDGE_COMP goes out for a line before it is screened (R269, R294). -/
def sendComp (c : LineCtx) (sums : Array Int) (p y : Nat) (s : State) : State :=
  forEach (chainsOf s) (fun ch s =>
    forEach [1, 0] (fun e s => match edgeSpan s c ch e with
      | none => s
      | some x =>
        edgeSend (e == 0) ch.1 true p y
          (compWords (e == 0) ch.1 false p y (x + c.origin)
            ((List.range 16).map (fun (j : Nat) => sums.getD (columnSlot false (x + (j : Int))) 0))) s) s) s

/-- Kernels and their selection by head, for the compensation path. -/
def compTables (s : State) : Array (List (Int × Int)) × Array Nat :=
  (((List.range 16).map (compKernel s)).toArray, ((List.range 32).map (fun h => fld (getW s Obj.compSel h) 35 32)).toArray)

/-- The terms that the sources of a line give. A pre-screened line has none (R293). -/
def lineTerms (s : State) (c : LineCtx) (pre : Bool) : List (Int × Bool × Int) :=
  if pre then [] else
  let t := compTables s
  sourceTerms c t.1 t.2

/-- No sums. -/
def noSums : Array Int := Array.replicate columnSlots 0

/-- The terms that frames bring for a line, by local column: of two frames of one neighbour for a column, that of the
lower chain (R294). -/
def receivedTerms (s : State) (p y : Nat) (origin : Int) : List (Int × Bool × Int) :=
  let frames := (chainsOf s).flatMap (fun ch => [0, 1].filterMap (fun e =>
    if edgeOpen s ch.1 e then none
    else match edgeHeld s ch.1 e true p y with
      | some f => if f.isVoid then none else some ((edgeLane s ch.1 e).getD 4, f)
      | none => none))
  let all := frames.foldl (fun (acc : List (Nat × Int × Int)) x =>
    let new := x.2.terms.mapIdx (fun j t => (x.1, x.2.xstart + (j : Int) - origin, t))
    acc ++ new.filter (fun n => !(acc.any (fun a => a.1 == n.1 && a.2.1 == n.2.1)))) []
  (all.filter (fun x => x.2.2 != 0)).map (fun x => (x.2.1, false, x.2.2))

/-- Saturated nozzle-lines (R292): counted, and EV 08.003 once for each head and page. -/
def noteSaturated (p y : Nat) (ns : List Nat) (s : State) : State :=
  let s := if ns.isEmpty then s else bump Obj.compSaturated 0 ns.length s
  forEach ((List.range 32).filter (fun h => ns.any (fun n => n / headNozzles == h))) (fun h s =>
    if s.fabric.saturated.contains (h, p) then s
    else raise 0x08003 [p9 h, pPage p, pLine y, 0] (modFab (fun f => { f with saturated := f.saturated ++ [(h, p)] }) s)) s

/-- The sums of a line saturate at these nozzles (R292): the sum leaves the range of C, or D3 + C leaves 0 to 4,095. -/
def saturatedNozzles (c : LineCtx) (sum : Nat → Int) : List Nat :=
  (List.range nozzleCount).filter (fun n =>
    let v := sum n
    v != 0 && c.live n && (decide (v < -8192) || decide (v > 8191)
      || (!(c.masked n) && (decide ((densityD3 c n : Int) + clampI (-8192) 8191 v < 0)
        || decide ((densityD3 c n : Int) + clampI (-8192) 8191 v > 4095)))))

/-- Codes of consecutive nozzles put into the array of all codes; `codes` newest first. -/
def putCodes (lo : Nat) (codes : List Nat) (a : Array Nat) : Array Nat :=
  (codes.reverse.foldl (fun (x : Nat × Array Nat) v => (x.1 + 1, x.2.setIfInBounds x.1 v)) (lo, a)).2

/-- A list of N terms with values added at two places. -/
def addAt (n : Nat) (l : List Int) (i j : Int) (a b : Int) : List Int :=
  (List.range n).map (fun k => at? l k 0 + (if (k : Int) = i then a else 0) + (if (k : Int) = j then b else 0))

/-- The word of Cell-local RAM that holds the error terms carried into nozzle n (R244, R449). -/
def termAddr (n : Nat) : Nat := n / 256 * 4096 + Config.termWord (n % 256) % 4096

/-- The down terms of a chain from nozzle lo on, as the Cells read them: what an upset word decodes to, or R465's value. -/
def downRead (lo n : Nat) (down : List Int) (s : State) : List Int :=
  (List.range n).map (fun k =>
    let v := cellAt s 4 (termAddr (lo + k))
    if v.valid = 0 || (v.valid = 3 && v.upset = 0) then at? down k 0 else sgn 36 (peek s 4 (termAddr (lo + k))).toNat)

/-- The down terms of a chain written by the Cells in service for the next line. -/
def downWrite (c : LineCtx) (lo : Nat) (down : List Int) (s : State) : State :=
  forEach ((List.range down.length).filter (fun k => c.live (lo + k))) (fun k s =>
    bufferWrite 4 (termAddr (lo + k)) (ws (at? down k 0)) s) s

/-- One chain of a line (R263 to R265): the codes of its nozzles, its down terms, and its EDGE_ED frames sent. -/
def screenChain (c : LineCtx) (comp : Nat → Int) (p y : Nat) (x : Array Nat × State) (ch : Nat × Nat × Nat) : Array Nat × State :=
  let (codes, s) := x
  let (i, lo, n) := ch
  let carried := downCarried s p y
  let term := fun (f : Option EdgeFrame) (k : Nat) => match f with
    | some f => if f.isVoid then 0 else at? f.terms k 0
    | none => 0
  let fwd := if edgeOpen s i 0 then none else edgeHeld s i 0 false p y
  let back := if edgeOpen s i 1 || !carried then none else edgeHeld s i 1 false p (y - 1)
  let dn := if carried then addAt n (downRead lo n (vget s.fabric.down i []) s) ((n : Int) - 1) ((n : Int) - 2) (term back 0) (term back 1) else []
  let r := runNozzles c comp true lo n (term fwd 0) (term fwd 1) dn
  let ts := r.terms.reverse.toArray
  let nd := addAt n ((List.range n).map (fun (q : Nat) => downInto ts (q : Int))) 0 1 (term fwd 2) (term fwd 3)
  let s := edgeSend false i false p y (edWords false i false p y r.f0 r.f1 (downInto ts n) (downInto ts (n + 1))) s
  let s := edgeSend true i false p y (edWords true i false p y (downInto ts (-1)) (downInto ts (-2)) 0 0) s
  (putCodes lo r.codes codes, downWrite c lo nd (modFab (fun f => { f with down := vset f.down i nd }) s))

/-- The codes of a contone line (R250 to R266). -/
def screenContone (c : LineCtx) (p y : Nat) (s : State) : Array Nat × State :=
  let ts := lineTerms s c false
  let got := receivedTerms s p y c.origin
  let owners := ownerTable c
  let spans := (chainsOf s).flatMap (fun ch => [0, 1].filterMap (fun e => edgeSpan s c ch e))
  let carried := fun (x : Int) => spans.any (fun a => decide (a ≤ x) && decide (x < a + 16))
  let lost := termsLost owners carried ts + got.foldl (fun n t => n + (owners.getD (columnSlot false t.1) (0, 0)).2) 0
  let s := if lost = 0 then s else bump Obj.compLost 0 lost s
  let sums := columnSums got (columnSums ts noSums)
  let sum := fun (n : Nat) => if c.owner n then sums.getD (columnSlot (c.ink n) (c.column n)) 0 else 0
  let comp := fun (n : Nat) => clampI (-8192) 8191 (sum n)
  let s := noteSaturated p y (saturatedNozzles c sum) s
  let x := (chainsOf s).foldl (screenChain c comp p y) (Array.replicate nozzleCount 0, s)
  ((loneHeads s).foldl (fun a h =>
    putCodes (h * headNozzles) (runNozzles c comp false (h * headNozzles) headNozzles 0 0 []).codes a) x.1, x.2)

/-- The codes of a pre-screened line (R267); it emits no terms (R265). -/
def screenPreset (c : LineCtx) (p y : Nat) (s : State) : Array Nat × State :=
  let s := forEach (chainsOf s) (fun ch s =>
    edgeSend true ch.1 false p y (edWords true ch.1 false p y 0 0 0 0)
      (edgeSend false ch.1 false p y (edWords false ch.1 false p y 0 0 0 0) s)) s
  (((List.range nozzleCount).map (presetCode c)).toArray,
   modFab (fun f => { f with down := Vector.replicate 4 [] }) s)

/-- Page line y of page p is screened: its codes enter the Cell queues and the evidence slots (R253, R311), those of a late
line only the latter (R325), and the line group goes after its last line. -/
def screenLine (g : LineGroup) (p y : Nat) (s : State) : State :=
  let c := lineCtx s y (at? (g.rows.getD []) (y % 4) [])
  let s := lineReads y s
  let (codes, s) := if g.ratio = 5 then screenPreset c p y s else screenContone c p y s
  let s := evidenceScreened p y c codes s
  let cell : Screened := { page := p, line := y, codes := (List.range 32).map (fun h => if headEnabled s h then packCodes codes h else []) }
  let used := fun (f : EdgeFrame) => f.page == p && (decide (f.line < y) || (f.line == y && !(f.backward && !f.comp)))
  let s := modFab (fun f => { f with
    cells := if s.fire.late.contains (p, y) then f.cells else f.cells ++ [cell]
    downFor := some (p, y + 1)
    preset := g.ratio == 5
    compSent := false
    work := if y % 4 = 3 then none else some (p, y + 1)
    edgeIn := f.edgeIn.filter (fun x => !(used x)) }) s
  let s := xingCount 7 1 (bump Obj.linesScreened 0 1 s)
  if y % 4 = 3 then { s with rfe := { s.rfe with groups := s.rfe.groups.filter (fun x => !(x.page == p && x.lg == g.lg)) } } else s

/-- EDGE_COMP for the next line has gone out. -/
def screenPrepare (g : LineGroup) (p y : Nat) (s : State) : State :=
  if s.fabric.compSent then s else
  let c := lineCtx s y (at? (g.rows.getD []) (y % 4) [])
  let s := if (chainsOf s).any (fun ch => !(edgeOpen s ch.1 0) || !(edgeOpen s ch.1 1)) then
      sendComp c (columnSums (lineTerms s c (g.ratio == 5)) noSums) p y s
    else s
  modFab (fun f => { f with compSent := true }) s

/-- The fabric waits for edge frames (R25, R271): the line counts once, and EV 07.002 is raised once for each line group
and edge. -/
def screenWait (p y : Nat) (miss : List (Nat × Nat × Bool × Nat)) (s : State) : State :=
  let s := if s.fabric.waitLine = some (p, y) then s
    else bump Obj.edgeWaits 0 1 (modFab (fun f => { f with waitLine := some (p, y) }) s)
  forEach miss (fun m s =>
    let key := (p, y / 4, 2 * m.1 + m.2.1)
    if s.fabric.waited.contains key then s
    else raise 0x07002 [p9 m.1, wd m.2.1, pPage p, pLine y] (modFab (fun f => { f with
      waited := f.waited.filter (fun w => w.1 == p) ++ [key] }) s)) s

/-- The fabric goes on with the line group under way, up to n lines, as far as edge frames let it. -/
def screenRun : Nat → State → State
  | 0, s => s
  | n + 1, s => match s.fabric.work with
    | none => s
    | some (p, y) =>
      if !(fabricRuns s) then s else
      match groupOf s p y with
      | none => modFab (fun f => { f with work := none, compSent := false }) s
      | some g =>
        let s := screenPrepare g p y s
        match (if g.ratio = 5 then [] else edgeAwaited s p y) with
        | [] => screenRun n (screenLine g p y s)
        | miss => screenWait p y miss s

/-- Edge frames of a page that the fabric will not screen are refused (R491 cause 3): counted, and their edges open. -/
def edgeRefused (k : Nat) (f : EdgeFrame) (s : State) : State :=
  let e := if f.backward then 1 else 0
  let s := bump Obj.edgeMismatches 0 1 s
  let s := seamEvent (some k) 3 s
  if pageInProgress s then forceEdges [(f.chain, e)] s else s

/-- Page q begins at SCREEN (R91, R285, R287, R447, R491). -/
def screenPage (q : Nat) (s : State) : State :=
  let prev := s.dict.begunScreen
  let s := { s with pages := s.pages.map (fun x => if x.num == q then { x with screened := true } else x) }
  let s := seamPage (bindTrims q (ntBoundary q (beginScreen q s)))
  let s := modFab (fun f => { f with edgeIn := f.edgeIn.filter (fun x => prev != some x.page || x.page == q)
                                     saturated := f.saturated.filter (fun x => x.2 == q), waited := [] }) s
  let odd := fun (f : EdgeFrame) => f.page != q && !(ahead f.page q)
  let s := forEach (s.fabric.edgeIn.filter odd) (fun f s =>
    match edgeLane s f.chain (if f.backward then 1 else 0) with
    | some k => edgeRefused k f s
    | none => s) s
  modFab (fun f => { f with edgeIn := f.edgeIn.filter (fun x => !(odd x)) }) s

/-- The line group that the fabric screens next (R266, R311): the oldest that is not left out. Under HALT the line group
before it on its page has been screened. -/
def nextScreen (s : State) : Option LineGroup :=
  match s.rfe.groups.find? (fun g => !g.late) with
  | some g =>
    if g.complete && g.checked && g.rows.isSome && decide (s.fabric.cells.length + 4 ≤ 136)
      && (pageOf s g.page).isSome
      && (getN s Obj.latePolicy 0 == 0 || g.lg == 0 || (match s.fabric.downFor with
        | some d => d == (g.page, 4 * g.lg)
        | none => true))
    then some g else none
  | none => none

/-- The fabric begins a line group (R311). -/
def screenStart (s : State) : State :=
  if !(fabricRuns s) || s.fabric.work.isSome then s else
  match nextScreen s with
  | none => s
  | some g =>
    let fresh := match pageOf s g.page with
      | some x => !x.screened
      | none => false
    let s := if fresh then screenPage g.page s else s
    let tiles := getN s Obj.tileReady 0 % 2 ^ 27
    screenRun 4 (modFab (fun f => { f with work := some (g.page, 4 * g.lg), compSent := false
                                           tiles := BitVec.ofNat 27 tiles &&& ~~~ f.tilesDown }) s)

/-- EDGE_RETRY for every frame that the fabric awaits on a cascade lane (R269). -/
def retryAwaited (k : Nat) (s : State) : State :=
  match s.fabric.work with
  | none => s
  | some (p, y) =>
    if !(fabricRuns s) then s else
    forEach ((edgeAwaited s p y).filter (fun n => edgeLane s n.1 n.2.1 == some k))
      (fun n s => retrySend n.1 n.2.1 n.2.2.1 p n.2.2.2 s) s

/-- A frame that no line needs any more. -/
def edgePast (s : State) (f : EdgeFrame) : Bool :=
  match s.fabric.downFor with
  | some (p, y) => f.page == p && (decide (f.line + 1 < y) || (decide (f.line < y) && !(f.backward && !f.comp)))
  | none => false

/-- An edge frame arrives on cascade lane k (R268 to R270, R491). -/
def edgeTake (k : Nat) (comp : Bool) (ws : List Word) (eofOk : Bool) (s : State) : State :=
  if !(laneServes s (38 + k)) || !(laneU s (38 + k)).lock then s else
  match (if eofOk then edgeParse comp ws else none) with
  | none => retryAwaited k (bump Obj.edgeCrcErrors 0 1 s)
  | some f =>
    let e := if f.backward then 1 else 0
    if edgeLane s f.chain e != some k || edgeOpen s f.chain e || edgePast s f
      || (edgeHeld s f.chain e f.comp f.page f.line).isSome then s
    else if (match s.dict.begunScreen with
        | some q => f.page == q || ahead f.page q
        | none => true) then
      screenRun 4 (modFab (fun x => { x with edgeIn := x.edgeIn ++ [f] }) s)
    else screenRun 4 (edgeRefused k f s)

/-- An EDGE_RETRY arrives on cascade lane k (R269): the kept frame goes out again. A line not screened is VOID (R270). -/
def retryTake (k : Nat) (ws : List Word) (s : State) : State :=
  if !(laneServes s (38 + k)) || !(laneU s (38 + k)).lock then s
  else if ws.length ≠ 4 || at? ws 2 0 != wd (crc32 (ws.take 2)) then retryAwaited k (bump Obj.edgeCrcErrors 0 1 s)
  else
    let w0 := at? ws 0 0
    let i := fld w0 34 33
    let back := bitOf w0 35
    let comp := bitOf w0 32
    let y := fld w0 17 0
    let p := fld (at? ws 1 0) 35 12
    if edgeLane s i (if back then 0 else 1) != some k || edgeOpen s i (if back then 0 else 1) then s
    else match s.fabric.edgeOut.find? (fun f => f.chain == i && f.backward == back && f.comp == comp && f.page == p && f.line == y) with
    | some f => emit (.edge (38 + k) (if comp then 9 else 8) f.words) s
    | none =>
      if !(s.fire.unscreened.contains (p, y)) || !(fabricRuns s) then s
      else if comp then edgeSend back i true p y (compWords back i true p y 0 []) s
      else edgeSend back i false p y (edWords back i true p y 0 0 0 0) s

/-- A Configuration Network load to a Tile ends (R245, R275): a second failed check in a row fails the Tile. -/
def configLoad (t : Nat) (ok : Bool) (s : State) : State :=
  if bitOf (getW s Obj.funcReset 0) 8 then s
  else if ok then modFab (fun f => { f with loadFails := f.loadFails &&& ~~~ BitVec.ofNat 27 (2 ^ t) }) s
  else if nbit s.fabric.loadFails.toNat t then
    tileFail t 2 (modFab (fun f => { f with loadFails := f.loadFails &&& ~~~ BitVec.ofNat 27 (2 ^ t) }) s)
  else modFab (fun f => { f with loadFails := f.loadFails ||| BitVec.ofNat 27 (2 ^ t) }) s

/-- SCREEN_START (R311). -/
def execScreenStart (t : Nat) (s : State) : Host.Outcome State Fault Refusal := happen t screenStart s

/-- EDGE_FRAME_RECEIVED (R268). A lane that is no cascade lane carries no edge frame. -/
def execEdgeFrameReceived (t : Nat) (lane : LaneIx) (comp : Bool) (words : List Word) (eofOk : Bool) (s : State) : Host.Outcome State Fault Refusal :=
  happen t (whenB (decide (38 ≤ lane.val) && decide (lane.val < 42)) (edgeTake (lane.val - 38) comp words eofOk)) s

/-- EDGE_FRAME_TIMEOUT (R269). -/
def execEdgeFrameTimeout (t : Nat) (chain : Fin 4) (endEdge comp : Bool) (s : State) : Host.Outcome State Fault Refusal :=
  happen t (fun s => match s.fabric.work with
    | none => s
    | some (p, y) =>
      if !(fabricRuns s) then s else
      forEach ((edgeAwaited s p y).filter (fun n => n.1 == chain.val && n.2.1 == b2n endEdge && n.2.2.1 == comp))
        (fun n s => retrySend n.1 n.2.1 n.2.2.1 p n.2.2.2 s) s) s

/-- EDGE_RETRY (R269). -/
def execEdgeRetry (t : Nat) (lane : LaneIx) (words : List Word) (s : State) : Host.Outcome State Fault Refusal :=
  happen t (whenB (decide (38 ≤ lane.val) && decide (lane.val < 42)) (retryTake (lane.val - 38) words)) s

/-- CONFIG_LOAD (R245). -/
def execConfigLoad (t : Nat) (tile : Tile) (ok : Bool) (s : State) : Host.Outcome State Fault Refusal :=
  happen t (configLoad tile.val ok) s

end Sys2Proof.Machine
end

