-- ==== Sys2Proof/Machine/HeadLink.lean ====
section
/-! DEFINITION. The head lane protocol at the device (chapter 13): STATUS reports, timing markers, the loading of banks,
idle commands and bridge registers. -/

namespace Sys2Proof.Machine

open Sys2Proof

/-! Banks (R360 to R362). -/

/-- What a bank of head h holds. -/
def bankHolds (s : State) (h : Nat) (b : Bool) : BankHolds := if b then (linkU s h).bank1 else (linkU s h).bank0

/-- The profiles that a bank is to hold, as words. -/
def bankWords (s : State) (h : Nat) (x : BankHolds) : Option (List Word) :=
  match x with
  | .nothing => none
  | .current => some (profileWords s.dict.active h)
  | .commit p => ((pendingCommits s).find? (fun ic => ic.2.page == p)).map (fun ic => profileWords ic.2.image h)

/-- The page of head h's next head-line. -/
def nextPage (s : State) (h : Nat) : Option Nat := (nextHeadLine s h).map (·.1)

/-- No line that head h has yet to send names what a bank holds (R362): neither the next line's page nor, of a commit that
it has not reached, a later one. With no page begun for the head, every later page is still to come. -/
def bankPast (s : State) (h : Nat) (x : BankHolds) : Bool :=
  match x, nextPage s h with
  | .nothing, _ => true
  | .current, some q => bankWanted s h q != .current
  | .commit p, some q => reached p q && bankWanted s h q != .commit p
  | _, none => false

/-- A bank is free (R362): no head-line that has not fired names it, no frame that waits is to fill it, and its profiles
are not those of a coming line. -/
def bankFree (s : State) (h : Nat) (b : Bool) : Bool :=
  !((headU s h).committed.any (fun c => c.bank == b && decide (c.fire > s.clock.tick * 64)))
    && !((linkU s h).waiting.any (fun f => f.bank.any (fun x => x.1 == b))) && bankPast s h (bankHolds s h b)

/-- The bank of head h that takes the next profiles: the one that is not current first. -/
def bankTarget (s : State) (h : Nat) : Option Bool :=
  let c := (linkU s h).bankCur
  if bankFree s h (!c) then some (!c) else if bankFree s h c then some c else none

/-- A commit's profiles are on their way to head h, or there. -/
def bankComing (s : State) (h p : Nat) : Bool :=
  bankHolds s h false == .commit p || bankHolds s h true == .commit p
    || (linkU s h).waiting.any (fun f => f.bank.any (fun x => x.2 == .commit p))

/-- The profiles of the earliest pending commit that no bank holds and that a coming line of head h names (R362). -/
def bankNext (s : State) (h : Nat) : Option Nat :=
  ((pendingCommits s).find? (fun ic => ic.2.objs.contains Obj.pulseProfiles && !(nbit ic.2.heads.toNat h)
    && !(bankComing s h ic.2.page) && !(bankPast s h (.commit ic.2.page)))).map (·.2.page)

/-- The next profiles go into a free bank of a READY link (R361, R362), but not during a fire-delay run (R434). -/
def bankLoad (h : Nat) (s : State) : State :=
  if (linkU s h).state != .ready || calBusy s h then s else
  match bankNext s h, bankTarget s h with
  | some p, some b =>
    match bankWords s h (.commit p) with
    | some ws => sendLow h { kind := 3, words := bankFrame b ws, bank := some (b, .commit p) } s
    | none => s
  | _, _ => s

/-- The profiles of the commit for page p are of no use any more: the banks of head h that hold them hold nothing, and frames
that would bring them do not go. -/
def bankDrop (h p : Nat) (s : State) : State :=
  let drop := fun (b : Bool) (s : State) => if bankHolds s h b == .commit p then setBank h b .nothing s else s
  drop true (drop false (modLink h (fun l => { l with
    waiting := l.waiting.filter (fun f => !(f.bank.any (fun x => x.2 == .commit p))) }) s))

/-- Every READY link loads what a commit for page p has just bound (R361). -/
def bankBind (p : Nat) (s : State) : State :=
  forEach (List.range 32) (fun h s =>
    bankLoad h (bankDrop h p s)) s

/-- A commit for page p is cancelled: banks that hold its profiles hold nothing for a coming line. -/
def bankCancel (p : Nat) (s : State) : State :=
  forEach (List.range 32) (fun h s =>
    bankDrop h p s) s

/-- COMMIT_NOW with new profiles (R361): they go into the bank that is not current, which becomes current. -/
def bankNow (s : State) : State :=
  forEach (List.range 32) (fun h s =>
    if (linkU s h).state != .ready then s else
    let old := (linkU s h).bankCur
    setBank h old .nothing (loadCurrent h (!old) s)) s

/-- Banks that a STATUS shows not valid are sent again where a held or coming frame names them (R361). -/
def bankReload (h : Nat) (valid0 valid1 : Bool) (s : State) : State :=
  if (linkU s h).state != .ready || calBusy s h then s else
  forEach [false, true] (fun b s =>
    if (if b then valid1 else valid0) then s else
    match bankWords s h (bankHolds s h b) with
    | some ws => sendLow h { kind := 3, words := bankFrame b ws, bank := some (b, bankHolds s h b) } s
    | none => s) s

/-! STATUS (R363 to R365). -/

/-- EV 0B.007, at most once per head in 1 ms, 625,000 ticks (R365). -/
def crcEvent (h reported failed : Nat) (s : State) : State :=
  match (linkU s h).crcTick with
  | some c => if s.clock.tick - c < 625000 then s
      else raise 0x0B007 [p9 h, wd reported, wd failed] (modLink h (fun l => { l with crcTick := some s.clock.tick }) s)
  | none => raise 0x0B007 [p9 h, wd reported, wd failed] (modLink h (fun l => { l with crcTick := some s.clock.tick }) s)

/-- 0B.240 LINK_CRC_ERRORS of head h: frames reported by the bridge, and failed at the device (R365). -/
def crcCount (h reported failed : Nat) (s : State) : State :=
  if reported + failed = 0 then s else
  let w := getW s Obj.linkCrcErrors h
  crcEvent h reported failed
    (setN Obj.linkCrcErrors h (satN 18 (fld w 35 18 + reported) * 2 ^ 18 + satN 18 (fld w 17 0 + failed)) s)

/-- A temperature report (R364, R338, R339). -/
def tempReport (h : Nat) (temp : Int) (s : State) : State :=
  let limit := getS s 36 Obj.tLimit 0
  let hyst : Int := getN s Obj.tHyst 0
  let warn := getS s 36 Obj.tWarn 0
  let s := modLink h (fun l => { l with tempTick := s.clock.tick }) (setI Obj.headTemp h temp s)
  let s := if temp ≥ warn && (linkU s h).warnArmed then
      raise 0x0B003 [p9 h, pInt temp] (modLink h (fun l => { l with warnArmed := false }) s)
    else if temp < warn - hyst then modLink h (fun l => { l with warnArmed := true }) s
    else s
  if temp ≥ limit then
    modHead h (fun u => { u with inhibited := true, cooled := false, inhibitTold := u.inhibitTold && u.inhibited }) s
  else if temp < limit - hyst && (headU s h).inhibited then modHead h (fun u => { u with cooled := true }) s
  else s

/-- The first page line of page p whose fire time head h has not reached. -/
def unfired (s : State) (h p : Nat) : Option Nat :=
  let u := headU s h
  let wait := (u.committed.filter (fun c => c.page == p)).map (·.line) ++ (u.passed.filter (fun c => c.1 == p)).map (·.2.1)
    ++ (match nextHeadLine s h with
      | some (q, y) => if q = p then [y] else []
      | none => [])
  wait.min?

/-- A line not fired excludes the head from the evidence lines whose footprint it is in the middle of firing (R425). -/
def notFiredExclude (h : Nat) (s : State) : State :=
  forEach s.insp.fox.slots (fun e s =>
    match unfired s h e.page with
    | some y => if e.line < y && y ≤ e.line + e.lines then excludeHead h e.page e.line s else s
    | none => s) s

/-- Lines not fired, and drive faults (R354, R365). The page is the one under way at the head. -/
def faultReport (h : Nat) (w0 w3 : Word) (s : State) : State :=
  let n := fld w3 23 16
  let cause := fld w3 15 12
  let s := if n ≠ 0 && 1 ≤ cause && cause ≤ 4 then notFiredExclude h (bump Obj.notFired h n s) else s
  let page := match nextHeadLine s h with
    | some (p, _) => some p
    | none => s.pages.head?.map (·.num)
  if (bitOf w0 6 || n ≠ 0) && page.isSome && (linkU s h).errPage != page then
    raise 0x0B006 [p9 h, wd cause, wd (fld w3 35 24), wd (b2n (bitOf w0 6))] (modLink h (fun l => { l with errPage := page }) s)
  else s

/-- Every cause that took a link down has cleared (R369), as a valid STATUS with REF_LOCK shows it: lock, STATUS and
REF_LOCK are there again, and after a loss of echoes an echo has come. A bridge is given its time only once the link is
READY (R368), so SYNCED clear keeps no link down (notes/assumptions/120.md). -/
def causeCleared (l : Link) : Bool := l.refLock && (l.cause != 3 || l.echoed)

/-- The link state after a valid STATUS (R369, R370). -/
def statusLink (h : Nat) (s : State) : State :=
  let l := linkU s h
  match l.state with
  | .ready => if !l.refLock then linkDown h 5 s else if !l.synced then linkDown h 6 s else s
  | .training => if l.refLock then modLink h (fun l => { l with state := .timing, marks := [], rtts := [] }) s else s
  | .down => if causeCleared l then modLink h (fun l => { l with state := .timing, marks := [], rtts := [] }) s else s
  | .timing => if l.refLock then s else modLink h (fun l => { l with state := .training, marks := [], rtts := [] }) s
  | .off => s

/-- A STATUS frame (R355, R363 to R365). One that ends with EOF_BAD is discarded (R347). -/
def headStatus (h : Nat) (ws : List Word) (eofOk : Bool) (s : State) : State :=
  if (linkU s h).state == .off || !(laneServes s (6 + h)) || !(laneU s (6 + h)).lock || !eofOk then s
  else if ws.length ≠ 6 || at? ws 4 0 != wd (crc32 (ws.take 4)) then crcCount h 0 1 s
  else
    let w0 := at? ws 0 0
    let w1 := at? ws 1 0
    let w3 := at? ws 3 0
    let s := modLink h (fun l => { l with
      firedSeq := fld w0 35 24, idle := bitOf w0 11, bank0Valid := bitOf w0 10, bank1Valid := bitOf w0 9
      refLock := bitOf w0 8, synced := bitOf w0 7 }) s
    let s := if bitOf w0 5 then tempReport h (sgn 18 (fld w1 35 18)) s else s
    let s := crcCount h (fld w3 11 8) 0 (faultReport h w0 w3 s)
    let s := bankReload h (bitOf w0 10) (bitOf w0 9) (statusLink h s)
    idleCheck (pumpHead h s)

/-! Markers (R366 to R368). -/

/-- A TIME frame for marker m (R368). -/
def timeFrame (m : Nat) (tx d : Int) : List Word :=
  let ta := pat 54 (tx + d)
  let ws := [wd (m % 256 * 2 ^ 28), wd (ta / 2 ^ 18), wd (ta % 2 ^ 18 * 2 ^ 18 + pat 18 (d * 25))]
  ws ++ [wd (crc32 ws)]

/-- The delay estimate set, and published in ps (R367). -/
def setDelay (h : Nat) (d : Int) (s : State) : State :=
  setN Obj.linkDelay h (clampI 0 262143 (d * 25)).toNat (modLink h (fun l => { l with delay := d }) s)

/-- A TMARK leaves between frames (R349, R366, R369), on a lane in service. While a fire-delay run is under way its
departure is not timestamped (R434). -/
def markSend (h tx : Nat) (s : State) : State :=
  let l := linkU s h
  if !(l.state == .timing || l.state == .ready || l.state == .down) || !(laneServes s (6 + h)) then s else
  let s := pumpHead h s
  let leaves := max tx (linkU s h).wireEnd
  let s := emit (.tmark h l.nextMark) s
  modLink h (fun l => { l with nextMark := (l.nextMark + 1) % 256, wireEnd := leaves + charTime s h 4
                               marks := if calBusy s h then l.marks else l.marks ++ [(l.nextMark, leaves)] }) s

/-- m of an echoed TMARK (R347): two or more of its three data characters are equal, else the marker is ignored. -/
def markOf (d0 d1 d2 : Nat) : Option Nat := if d0 = d1 ∨ d0 = d2 then some d0 else if d1 = d2 then some d1 else none

/-- The last 8 markers of TIMING agree: every rtt lies within 8 units of their mean (R367). -/
def marksAgree (r : List (Nat × Int × Int)) : Bool :=
  let sum := r.foldl (fun a x => a + x.2.1) 0
  r.length == 8 && r.all (fun x => decide ((8 * x.2.1 - sum).natAbs ≤ 64))

/-- An echo arrives with its TURN (R367, R368). -/
def markEcho (h m rx turn : Nat) (s : State) : State :=
  match (linkU s h).marks.find? (fun e => e.1 == m) with
  | none => s
  | some (_, tx) =>
    let s := modLink h (fun l => { l with marks := (l.marks.dropWhile (fun e => e.1 != m)).drop 1, echoed := true }) s
    if calBusy s h then s else
    let rtt : Int := (rx : Int) - tx - turn
    let dn := Int.fdiv (rtt * 25 + getS s 36 Obj.headAsym h + 25) 50
    match (linkU s h).state with
    | .timing =>
      let old := (linkU s h).rtts
      let run := match old with
        | (n, _, _) :: _ => if (n + 1) % 256 = m then old else []
        | [] => []
      let r := ((m, rtt, dn) :: run).take 8
      let s := modLink h (fun l => { l with rtts := r }) s
      if marksAgree r then
        let d := Int.fdiv (r.foldl (fun a x => a + x.2.2) 0 + 4) 8
        linkReady h { kind := 2, words := timeFrame m tx d, bank := none } (setDelay h d s)
      else s
    | .ready =>
      let d := (linkU s h).delay
      if (dn - d).natAbs * 25 > getN s Obj.stepLimit 0 then linkDown h 4 s
      else
        let d := d + clampI (-2) 2 (Int.fdiv (dn - d + 4) 8)
        sendLow h { kind := 2, words := timeFrame m tx d, bank := none } (setDelay h d s)
    | _ => s

/-! Bridge registers (R358, R359, R375). -/

/-- Why a write to 0B.2C0 REG_SEL is refused (R359, R375): GO while GO is 1, or without a link; a TEST value other than 0
under the conditions of R195. -/
def regSelAbort (h : Nat) (v : Word) (s : State) : Nat :=
  let st := linkCode (linkU s h).state
  if !(bitOf v 35) then 0
  else if bitOf (getW s Obj.regSel h) 35 then 0x08
  else if st < 2 || st > 4 then 0x07
  else if bitOf v 34 && fld v 15 0 = 2 && getN s Obj.regData h ≠ 0 then serviceAbort (6 + h) s
  else 0

/-- A write to 0B.2C0 REG_SEL (R375). GO stays 1 until the reply; ERR is read only. -/
def regSelDo (h : Nat) (v : Word) (s : State) : State :=
  let old := getW s Obj.regSel h
  let keep := (if bitOf old 35 || bitOf v 35 then 2 ^ 35 else 0) + (if bitOf old 33 then 2 ^ 33 else 0)
  let s := setN Obj.regSel h (keep + (if bitOf v 34 then 2 ^ 34 else 0) + fld v 15 0) s
  if !(bitOf v 35) then s else
  let s := modLink h (fun l => { l with regWrite := bitOf v 34, regAddr := fld v 15 0 }) s
  sendLow h { kind := 4, bank := none
              words := if bitOf v 34 then cmdFrame 4 0 (fld v 15 0) (getW s Obj.regData h) else cmdFrame 3 0 (fld v 15 0) 0 } s

/-- GO ends, with ERR (R375). -/
def regDone (h : Nat) (err : Bool) (s : State) : State :=
  setN Obj.regSel h (setBit (setBit (getW s Obj.regSel h) 35 false) 33 err).toNat s

/-- A REG_REPLY (R355, R358, R359, R374, R375). The first reply to a read of BRIDGE_ID after an entry to READY is the
device's own. One that ends with EOF_BAD is discarded (R347). -/
def regReply (h : Nat) (ws : List Word) (eofOk : Bool) (s : State) : State :=
  if (linkU s h).state == .off || !(laneServes s (6 + h)) || !(laneU s (6 + h)).lock || !eofOk then s
  else if ws.length ≠ 4 || at? ws 2 0 != wd (crc32 (ws.take 2)) then crcCount h 0 1 s
  else
    let w0 := at? ws 0 0
    let op := fld w0 35 32
    let l := linkU s h
    if l.idRead && op = 3 && fld w0 15 0 = 0 then
      setN Obj.bridgeId h (at? ws 1 0).toNat (modLink h (fun l => { l with idRead := false }) s)
    else if bitOf (getW s Obj.regSel h) 35 && op = (if l.regWrite then 4 else 3) && fld w0 15 0 = l.regAddr then
      let s := regDone h (bitOf w0 31) (setN Obj.regData h (at? ws 1 0).toNat s)
      if l.regWrite && l.regAddr = 2 && !(bitOf w0 31) && fld (at? ws 1 0) 1 0 ≠ 0 && l.state != .off then
        let s := modLink h (fun l => { l with state := .training, marks := [], rtts := [], waiting := [] }) s
        setUp 12 (anyLinkReady s) s
      else s
    else s

/-- IDLE in orderly Autumn step 1 (R357, R67): every line frame sent to the head has fired. -/
def idleCommand (h : Nat) (s : State) : State :=
  if s.pwr.season = .autumn && s.pwr.autumn.step = 1 && (linkU s h).state == .ready
    && !((headU s h).committed.any (fun c => decide (c.fire > s.clock.tick * 64))) then
    sendHead h 4 (cmdFrame 2 0 0 0) s
  else s

/-- HEAD_STATUS (R363). -/
def execHeadStatus (t : Nat) (head : Head) (words : HeadReport) (s : State) : Host.Outcome State Fault Refusal :=
  happen t (headStatus head.val words.words words.eofOk) s

/-- STATUS_TIMEOUT (R370). -/
def execStatusTimeout (t : Nat) (head : Head) (s : State) : Host.Outcome State Fault Refusal :=
  happen t (fun s => idleCheck (linkDown head.val 2 s)) s

/-- TMARK_SEND (R366). -/
def execTmarkSend (t : Nat) (head : Head) (tx : Nat) (s : State) : Host.Outcome State Fault Refusal :=
  happen t (markSend head.val tx) s

/-- TMARK_ECHO (R367). -/
def execTmarkEcho (t : Nat) (head : Head) (m : MarkChars) (rx turn : Nat) (s : State) : Host.Outcome State Fault Refusal :=
  happen t (fun s => match markOf m.d0 m.d1 m.d2 with
    | some k => idleCheck (markEcho head.val k rx turn s)
    | none => s) s

/-- ECHO_MISSING (R370): 4 markers wait for their echo. -/
def execEchoMissing (t : Nat) (head : Head) (s : State) : Host.Outcome State Fault Refusal :=
  happen t (fun s => if 4 ≤ (linkU s head.val).marks.length then idleCheck (linkDown head.val 3 s) else s) s

/-- BANK_LOAD (R362). -/
def execBankLoad (t : Nat) (head : Head) (s : State) : Host.Outcome State Fault Refusal := happen t (bankLoad head.val) s

/-- HEAD_IDLE_COMMAND (R357). -/
def execHeadIdleCommand (t : Nat) (head : Head) (s : State) : Host.Outcome State Fault Refusal :=
  happen t (idleCommand head.val) s

/-- REG_REPLY (R358). -/
def execRegReply (t : Nat) (head : Head) (words : HeadReport) (s : State) : Host.Outcome State Fault Refusal :=
  happen t (regReply head.val words.words words.eofOk) s

/-- REG_REPLY_TIMEOUT (R375). -/
def execRegReplyTimeout (t : Nat) (head : Head) (s : State) : Host.Outcome State Fault Refusal :=
  happen t (fun s => if bitOf (getW s Obj.regSel head.val) 35 then regDone head.val true s else s) s

end Sys2Proof.Machine
end

