-- ==== Sys2Proof/Machine/Lanes.lean ====
section
/-! DEFINITION. What a serial lane's lock, its loss, and its configuration do to the function that the lane serves
(R134, R171, R176, R177, R190 to R196, R219, R272, R369, R370, R423). -/

namespace Sys2Proof.Machine

open Sys2Proof

/-! What a lane sends (R190, R194). -/

/-- The two stages of the PRBS generator whose sum it feeds back, the first being its length (R190). -/
def prbsTaps (pattern : Nat) : Nat × Nat :=
  match pattern with
  | 0 => (7, 6)
  | 1 => (15, 14)
  | 2 => (23, 18)
  | _ => (31, 28)

/-- The next bit of a PRBS generator, and its register after it; stage 1 is bit 0. -/
def prbsNext (pattern reg : Nat) : Bool × Nat :=
  let t := prbsTaps pattern
  let b := nbit reg (t.1 - 1) != nbit reg (t.2 - 1)
  (b, (2 * reg + b2n b) % 2 ^ t.1)

/-- The first n bits that a generator sends from a register content. INVERT inverts the sequences of PRBS15, PRBS23 and
PRBS31; for PRBS7 R190 names no inverted sequence (notes/assumptions/70.md). -/
def prbsBits (pattern : Nat) (invert : Bool) : Nat → Nat → List Bool
  | 0, _ => []
  | n + 1, reg =>
    let x := prbsNext pattern reg
    (x.1 != (invert && pattern != 0)) :: prbsBits pattern invert n x.2

/-- What a lane's transmitter sends: nothing, its 8b/10b characters, a PRBS, or the bits it receives. -/
inductive LaneOutput where
  | off | coded
  | prbs (pattern : Nat) (invert : Bool)
  | returned
deriving DecidableEq, Repr

/-- What lane i sends now (R190, R194): PRBS 1 and 2 generate, LOOP 2 returns. -/
def laneSends (s : State) (i : Nat) : LaneOutput :=
  let w := getW s Obj.laneTest i
  if !(laneWorks s i) then .off
  else if lanePrbs s i = 1 || lanePrbs s i = 2 then .prbs (fld w 31 30) (bitOf w 29)
  else if laneLoop s i = 2 then .returned
  else .coded

/-- The ring changed. -/
def modRing (f : Ring → Ring) (s : State) : State := { s with ring := f s.ring }

/-- A ring port loses symbol lock or leaves service (R134, R135): a Member turns copies back there, and holds over where its
named copy comes in at that port (R160; notes/assumptions/26.md); the Master assigns every slot to the other copy, from the
first cycle at least 2 µs, 1,250 ticks, later, and counts no earlier intact copy of the lost one
(notes/assumptions/125.md). -/
def portLost (i : Nat) (s : State) : State :=
  if role s = 2 then
    let s := modRing (fun r => { r with wrapA := r.wrapA || i == 46, wrapB := r.wrapB || i == 47 }) s
    whenB (s.ring.namedB == (i == 46)) enterHoldover s
  else if role s = 1 then
    let m : BitVec 64 := if i = 46 then BitVec.ofNat 64 (2 ^ 64 - 1) else 0
    let s := modRing (fun r => if i = 46 then { r with presentA := 0 } else { r with presentB := 0 }) s
    if s.ring.newMap.getD s.ring.map = m then s
    else modRing (fun r => { r with newMap := some m, newMapFrom := s.clock.tick + 1250, newMapPort := true }) s
  else s

/-- A ring port is trained (R134, R139): a Member that has not yet received a cycle frame turns copies back at both
ports. -/
def portGained (s : State) : State :=
  if role s = 2 && !s.ring.seenCycle then modRing (fun r => { r with wrapA := true, wrapB := true }) s else s

/-- The host link is up (R140). The table has no row that brings the partner's advertisement: its bits are a free
value (notes/assumptions/37.md). -/
def hostUp (s : State) : State :=
  if s.host.linkUp then s else
  let an := getN s Obj.hostAn 0 = 1
  let v := (freeVal s).toNat
  let s := if an then takeFree s else s
  { s with host := { s.host with
      linkUp := true, anComplete := an
      partnerFd := an && nbit v 0, partnerHd := an && nbit v 1, remoteFault := an && nbit v 2 } }

/-- Lane i has gained symbol lock. -/
def laneGained (i : Nat) (s : State) : State :=
  let s := lockGain i s
  if !(laneUp s i) then s
  else if i < 5 then bondTry s
  else if i = 5 then hostUp s
  else if i < 46 then s
  else portGained s

/-- A head lane has no symbol lock (R369, R370). -/
def headLaneLost (h : Nat) (s : State) : State :=
  match (linkU s h).state with
  | .ready => linkDown h 1 s
  | .timing => modLink h (fun l => { l with state := .training, marks := [], rtts := [] }) s
  | _ => s

/-- What the function of a lane does when the lane has lost lock, `cause` 1, or has left service, 2. -/
def laneGone (i cause : Nat) (s : State) : State :=
  if i < 5 then (if pageInProgress s then dskRelease (dskDone (bondLose (2 ^ i) s)) else s)
  else if i = 5 then s
  else if i < 38 then idleCheck (headLaneLost (i - 6) s)
  else if i < 42 then screenRun 4 (seamDown (i - 38) cause s)
  else if i < 46 then cameraLost (i - 42) s
  else portLost i s

/-- Lane i loses symbol lock (R176, R177): cause 1 code-group errors, at least 4 of which are counted on a lane in service
(R175), 2 no signal, which a PRBS checker does not survive either (R191). -/
def laneLost (i cause errors : Nat) (s : State) : State :=
  let s := if cause = 2 then modLane i (fun l => { l with signal := false, prbsLock := false }) s else s
  if !(laneU s i).lock then s else
  let serves := laneServes s i
  let s := if cause = 1 && serves then bump Obj.codeErrors i (max 4 errors) s else s
  let s := lockDrop i cause s
  if serves then laneGone i 1 s else s

/-- Lane i leaves service (R195): no EV 04.001 (R177). -/
def laneOut (i : Nat) (s : State) : State :=
  let had := (laneU s i).lock
  let s := laneStop i s
  if had || i ≥ 38 then laneGone i 2 s else s

/-- The link of head h follows its lane being enabled or not (R344, R369). -/
def headLaneFollow (h : Nat) (s : State) : State :=
  let st := (linkU s h).state
  if !(laneWorks s (6 + h)) then (if st == .off then s else linkTo h .off s)
  else if st == .off then linkTo h .training s
  else s

/-- Injections that wait on lanes that work again leave (R193). -/
def injectAll (s : State) : State := forEach (List.range 48) injectNow s

/-- A write to 04.100 LANE_CFG (R171, R177, R195). -/
def laneCfgDo (i : Nat) (v : Word) (s : State) : State :=
  let was := laneWorks s i
  let s := setN Obj.laneCfg i v.toNat s
  let s := if was && !(laneWorks s i) then
      (if 6 ≤ i && i < 38 then laneStop i (headLaneFollow (i - 6) s) else laneOut i s)
    else s
  injectNow i (if 6 ≤ i && i < 38 then idleCheck (headLaneFollow (i - 6) s) else s)

/-- A write to 04.1C0 LANE_TEST (R190 to R195). A lane whose PRBS or LOOP changes loses the lock it had: it trains when it
returns to service. -/
def laneTestDo (i : Nat) (v : Word) (s : State) : State :=
  let served := laneServes s i
  let mode := fld (getW s Obj.laneTest i) 35 32 == fld v 35 32
  let same := fld (getW s Obj.laneTest i) 35 29 == fld v 35 29
  let s := setN Obj.laneTest i v.toNat s
  let s := if bitOf v 28 || bitOf v 27 then modLane i (fun l => { l with injecting := true }) s else s
  let s := if same then s else modLane i (fun l => { l with prbsLock := false }) s
  let s := if served && !(laneServes s i) then laneOut i s else if mode then s else laneStop i s
  injectNow i s

/-- LANE_LOCK (R177). -/
def execLaneLock (t : Nat) (lane : LaneIx) (s : State) : Host.Outcome State Fault Refusal := happen t (laneGained lane.val) s

/-- LANE_LOCK_LOST (R175, R176). -/
def execLaneLockLost (t : Nat) (lane : LaneLoss) (s : State) : Host.Outcome State Fault Refusal :=
  happen t (laneLost lane.lane.val 1 lane.errors) s

/-- LANE_NO_SIGNAL (R176). -/
def execLaneNoSignal (t : Nat) (lane : LaneIx) (s : State) : Host.Outcome State Fault Refusal := happen t (laneLost lane.val 2 0) s

end Sys2Proof.Machine
end

