-- ==== Sys2Proof/Machine/Calibration.lean ====
section
/-! DEFINITION. Calibration and self-test (chapter 16): requests, intervals, twin runs, self-tests and their failures. -/

namespace Sys2Proof.Machine

open Sys2Proof

/-- The codes of R433 with their targets. -/
def calKnown (item target : Nat) : Bool :=
  match item with
  | 1 => decide (target < 4)
  | 2 => decide (target < 32)
  | 16 => decide (target = 0)
  | 17 => decide (target < 8) && decide (target ≠ 6)
  | 18 => decide (target < 27)
  | 19 => decide (target < 32)
  | _ => false

/-- An item is queued or running. -/
def calQueued (s : State) (item target : Nat) : Option CalReq := s.cal.queue.find? (fun r => r.item == item && r.target == target)
def calRunning (s : State) (item target : Nat) : Bool := s.cal.running.any (fun r => r.item == item && r.target == target)

/-! Intervals (R439). -/

/-- Idle (R439). -/
def calIdle (s : State) : Bool :=
  s.pwr.season == .thaw || (s.pwr.season == .summer && decide (getN s Obj.fireEnable 0 = 0) && !(pageInProgress s))

/-- The predicted hand-over instant of head h's next head-line leaves room for a run of the given ticks and 10 µs more,
or no prediction exists and the position lies at least 3 lines behind its boundary (R312, R439). -/
def gapAhead (s : State) (h ticks : Nat) : Bool :=
  match nextHeadLine s h with
  | none => true
  | some (p, y) =>
    let b := boundary s h p y
    match predict s (b - 8192) with
    | some (f, _, _) => decide (((s.clock.tick + ticks + 6250 : Nat) : Int) * 64 ≤ f - 40000)
    | none => decide (posNow s + 12288 ≤ b)

/-- A head gap of head h for a run of the given ticks (R439). -/
def headGap (s : State) (h ticks : Nat) : Bool :=
  let now := s.clock.tick * 64
  !(headEnabled s h) || calIdle s || decide (s.fire.halt.phase = 2)
    || ((headU s h).committed.all (fun c => decide (c.fire ≤ now) && decide (c.occEnd ≤ now))
      && (match (headU s h).lastFire with
        | some f => decide (f.2 ≤ now)
        | none => true)
      && gapAhead s h ticks)

/-- Run times of items 1 and 2 in ticks (R433): 40 µs and 2 ms. -/
def calTicks (item : Nat) : Nat := if item = 1 then 25000 else 1250000

/-- The item may run now (R439, R441, R443). -/
def calCan (s : State) (item target : Nat) : Bool :=
  let run := s.cal.running
  let held := fun (b : Nat) => bitOf (getW s Obj.funcReset 0) b
  match item with
  | 1 => rdy s 4 && rdy s 5 && !(held 12) && !(run.any (fun r => r.item == 1))
      && (List.range 8).all (fun i => headGap s (8 * target + i) (calTicks 1))
  | 2 => rdy s 20 && !(held 4) && !(held 5) && !(held 12) && !(run.any (fun r => r.item == 2 && r.target / 4 == target / 4))
      && headGap s target (calTicks 2)
  | 19 =>
    let st := (chan s target).state
    rdy s 20 && (st == .off || st == .latched || st == .held)
      && run.all (fun r => r.item ≤ 2 || r.item == 19) && decide ((run.filter (fun r => r.item == 19)).length < 8)
  | _ => run.all (fun r => r.item ≤ 2) && (item == 16 || calIdle s) && !(item == 17 && target == 1 && s.rfe.c != s.rfe.r)

/-! Requests (R438 to R440). -/

/-- Why a write to 10.000 CAL_REQ is refused (R438, R441). -/
def calReqAbort (v : Word) (s : State) : Nat :=
  if s.cal.queue.length ≥ 16 then 0x08 else if calKnown (fld v 35 30) (fld v 29 24) then 0 else 0x06

/-- A request is queued, or merged into the entry of the same item and target, which takes the later deadline (R438); one
that cannot start raises EV 10.004 once (R440). MAX_WAIT 0 takes 10.007 AUTO_WAIT. 1 ms is 625,000 ticks. -/
def calQueue (item target maxWait : Nat) (s : State) : State :=
  let wait := if maxWait = 0 then getN s Obj.autoWait 0 else maxWait
  let deadline := s.clock.tick + wait * 625000
  let s := match calQueued s item target with
    | some _ => modCal (fun c => { c with queue := c.queue.map (fun r =>
        if r.item == item && r.target == target && decide (r.deadline < deadline) then { r with deadline := deadline, maxWait := wait } else r) }) s
    | none => modCal (fun c => { c with queue := c.queue ++
        [{ item := item, target := target, maxWait := wait, since := s.clock.tick, deadline := deadline, deferred := false, wasUp := false }] }) s
  match calQueued s item target with
  | some r =>
    if r.deferred || calCan s item target then s else
    raise 0x10004 [wd item, wd target, pNum r.maxWait] (modCal (fun c => { c with queue := c.queue.map (fun r =>
      if r.item == item && r.target == target then { r with deferred := true } else r) }) s)
  | none => s

def calReqDo (v : Word) (s : State) : State := calQueue (fld v 35 30) (fld v 29 24) (fld v 23 0) s

/-- A request leaves the queue. -/
def calUnqueue (item target : Nat) (s : State) : State :=
  modCal (fun c => { c with queue := c.queue.filter (fun r => !(r.item == item && r.target == target)) }) s

/-- The bring-up of a Thaw runs an item by itself (R443, R482): items 1 and 2, and item 19 on every channel. -/
def calBringUp (s : State) (item target : Nat) : Bool :=
  s.pwr.season == .thaw && (item == 1 || item == 2 || item == 19) && calKnown item target && !(s.cal.broughtUp.contains (item, target))

/-- A run starts (R439): the function that uses a memory reports not ready during its march (R441). -/
def calStart (item target : Nat) (s : State) : State :=
  let r : Option CalReq := match calQueued s item target with
    | some r => some r
    | none => if calBringUp s item target then
        some { item := item, target := target, maxWait := 0, since := s.clock.tick, deadline := s.clock.tick, deferred := false, wasUp := false }
      else none
  match r with
  | none => s
  | some r =>
    if calRunning s item target || !(calCan s item target) then s else
    let r := { r with wasUp := bitOf s.pwr.up (memFunc target) }
    let s := calUnqueue item target s
    let s := modCal (fun c => { c with running := c.running ++ [r] }) s
    if item = 17 then setUp (memFunc target) false s else s

/-- A request has waited MAX_WAIT (R440): 1 ms is 625,000 ticks. -/
def calExpire (item target : Nat) (s : State) : State :=
  match calQueued s item target with
  | none => s
  | some r => raise 0x10005 [wd item, wd target, pNum ((s.clock.tick - r.since) / 625000), wd 1] (calUnqueue item target s)

/-- Runs of items 1 and 2 that a choice picks are abandoned and queued again with their deadlines (R444). -/
def calAbandon (which : CalReq → Bool) (s : State) : State :=
  let gone := s.cal.running.filter (fun r => decide (r.item ≤ 2) && which r)
  let s := forEach gone runAbandoned s
  modCal (fun c => { c with
    running := c.running.filter (fun r => !(decide (r.item ≤ 2) && which r))
    queue := c.queue ++ gone.filter (fun r => !(c.queue.any (fun q => q.item == r.item && q.target == r.target))) }) s

/-! Twin runs (R435 to R437). -/

/-- Bit 23 of READY (R443). -/
def calReady (s : State) : State :=
  setUp 23 (bitOf s.pwr.up 24 && s.cal.groups == BitVec.ofNat 4 15 && s.cal.channels == BitVec.ofNat 32 (2 ^ 32 - 1)) s

/-- The mean of two runs, rounded half up (R435). -/
def meanUp (a b : Int) : Int := Int.fdiv (a + b + 1) 2

/-- Index and value of the first element outside a range. -/
def firstOutside (lo hi : Int) (l : List Int) : Option Int := l.find? (fun x => decide (x < lo) || decide (x > hi))

/-- A run of item 1 or 2 is rejected (R435, R437, R443): EV 10.002 for plausibility, 10.003 for a disagreement. -/
def calReject (item target result : Nat) (a b : Int) (s : State) : State :=
  let s := if item = 1 then setN Obj.delayCal target (setFld (getW s Obj.delayCal target) 26 24 result).toNat s
    else setN Obj.adcCal target (setFld (getW s Obj.adcCal target) 16 14 result).toNat s
  let s := if result = 2 then raise 0x10002 [wd item, wd target, pInt a] s else raise 0x10003 [wd item, wd target, pInt a, pInt b] s
  modCal (fun c => { c with
    backoff := c.backoff.filter (fun x => x != (item, target)) ++ [(item, target)]
    broughtUp := if c.retried.contains (item, target) then c.broughtUp ++ [(item, target)] else c.broughtUp
    retried := if c.retried.contains (item, target) then c.retried else c.retried ++ [(item, target)] }) s

/-- Accepted values wait for their boundary (R436): a port's taps for the head's next committed line, a channel's OFFSET and
GAIN for the FIRE boundary of the next page, or they are in force at once while no page is in progress. -/
def delayNewSet (g : Nat) (taps : List Int) (s : State) : State :=
  forEach (List.range 8) (fun i s => { s with cal := { s.cal with
    delayNew := vset s.cal.delayNew (8 * g + i) (some (at? taps i 0).toNat) } }) s
def adcNewSet (c : Nat) (v : Word) (s : State) : State :=
  if pageInProgress s then { s with cal := { s.cal with adcNew := vset s.cal.adcNew c (some v) } }
  else { s with cal := { s.cal with adcNow := vset s.cal.adcNow c v, adcNew := vset s.cal.adcNew c none } }

/-- A run of item 1 or 2 is accepted (R435, R443). -/
def calAccept (item target : Nat) (value : Word) (shown : Word) (s : State) : State :=
  let s := if item = 1 then setN Obj.delayCal target value.toNat s else setN Obj.adcCal target value.toNat s
  let s := raise 0x10001 [wd item, wd target, shown, pInt (getS s 36 Obj.dieTemp 0)] s
  calReady (modCal (fun c => { c with
    groups := if item = 1 then c.groups ||| BitVec.ofNat 4 (2 ^ target) else c.groups
    channels := if item = 2 then c.channels ||| BitVec.ofNat 32 (2 ^ target) else c.channels
    backoff := c.backoff.filter (fun x => x != (item, target))
    broughtUp := c.broughtUp ++ [(item, target)] }) s)

/-- Result of item 1 (R435): delay taps of the eight ports, twice. One TAPS stands for the group: where the ports differ
the spec does not say which, a free value (notes/assumptions/38.md). -/
def delayDone (g : Nat) (first second : List Int) (s : State) : State :=
  let all := first ++ second
  match firstOutside 80 200 all, (first.zip second).find? (fun p => decide ((p.1 - p.2).natAbs > 1)) with
  | some x, _ => calReject 1 g 2 x x s
  | none, some (a, b) => calReject 1 g 3 a b s
  | none, none =>
    let means := (first.zip second).map (fun p => meanUp p.1 p.2)
    let one := means.eraseDups
    let (taps, s) : Nat × State := match one with
      | [x] => (pat 9 x, s)
      | _ => ((freeVal s).toNat % 512, takeFree s)
    let temp := pat 14 (getS s 36 Obj.dieTemp 0)
    calAccept 1 g (wd (taps * 2 ^ 27 + 2 ^ 24 + temp * 2 ^ 10)) (wd taps) (delayNewSet g means s)

/-- Result of item 2 (R435): OFFSET and GAIN deviation, twice. EV 10.001 has one word for the two: a free value
(notes/assumptions/38.md). -/
def adcDone (c : Nat) (first second : List Int) (s : State) : State :=
  let o1 := at? first 0 0
  let o2 := at? second 0 0
  let g1 := at? first 1 0
  let g2 := at? second 1 0
  match firstOutside (-32) 31 [o1, o2], firstOutside (-655) 655 [g1, g2] with
  | some x, _ => calReject 2 c 2 x x s
  | none, some x => calReject 2 c 2 x x s
  | none, none =>
    if (o1 - o2).natAbs > 2 then calReject 2 c 3 o1 o2 s
    else if (g1 - g2).natAbs > 33 then calReject 2 c 3 g1 g2 s
    else
      let temp := pat 14 (getS s 36 Obj.dieTemp 0)
      let v := wd (pat 8 (meanUp o1 o2) * 2 ^ 28 + pat 11 (meanUp g1 g2) * 2 ^ 17 + 2 ^ 14 + temp)
      calAccept 2 c v (freeVal s) (takeFree (adcNewSet c v s))

/-! Self-tests (R441, R442). -/

/-- 10.120 SELFTEST_RESULT of an item, and EV 10.006 on a failure. -/
def selfResult (item target : Nat) (pass : Bool) (detail : Nat) (s : State) : State :=
  let s := setN Obj.selftestResult (item - 16) ((if pass then 1 else 2) * 2 ^ 33 + target % 64 * 2 ^ 27 + detail % 2 ^ 27) s
  if pass then s else raise 0x10006 [wd item, wd target, wd (detail % 2 ^ 27)] s

/-- Item 16: ROM and patch (R442): a patch failure restarts the firmware from ROM alone (R77). -/
def romDone (romOk patchOk : Bool) (s : State) : State :=
  let s := selfResult 16 0 (romOk && patchOk) 0 s
  if patchOk then s else codeRestart { s with pwr := { s.pwr with romOnly := true } }

/-- Item 17: the march of memory m ends (R441, R442, R457): cleared, reloaded, and its failing rows repaired. -/
def marchDone (m : Nat) (wasUp : Bool) (bad : List Nat) (s : State) : State :=
  let s := selfResult 17 m bad.isEmpty (at? bad 0 0) s
  let s := clearMem m s
  let s := modMem m (fun u => { u with zeroed := true, clearing := decide (m = 2) }) s
  let s := if compat s m then setN Obj.initDone 0 (setBit (getW s Obj.initDone 0) m true).toNat s else s
  let s := forEach bad (hardError m) s
  if m = 2 then s else setUp (memFunc m) wasUp s

/-- Item 19 (R442, R482): a channel that fails is held off, one held off that passes is OFF again. -/
def comparatorDone (c : Nat) (pass : Bool) (s : State) : State :=
  let s := selfResult 19 c pass 0 s
  let s := if pass then (if (chan s c).state == .held then setChan c .off s else s) else setChan c .held s
  let s := modCal (fun x => { x with broughtUp := if x.broughtUp.contains (19, c) then x.broughtUp else x.broughtUp ++ [(19, c)] }) s
  let all := (List.range 32).all (fun n => s.cal.broughtUp.contains (19, n))
  hpcReady { s with hpc := { s.hpc with proved := s.hpc.proved || all } }

/-- A run ends (R435, R442). `first` and `second` hold, for item 1, the taps of the eight ports of each run; for item 2,
OFFSET and GAIN of each run; for item 16, `first` holds 1 or 0 for the ROM and for the patch; for item 17, the addresses
of the words that read wrong; for items 18 and 19, 1 where the test passed. -/
def calRunDone (item target : Nat) (first second : List Int) (s : State) : State :=
  match s.cal.running.find? (fun r => r.item == item && r.target == target) with
  | none => s
  | some r =>
    let s := modCal (fun c => { c with running := c.running.filter (fun r => !(r.item == item && r.target == target)) }) s
    match item with
    | 1 => delayDone target first second s
    | 2 => adcDone target first second s
    | 16 => romDone (at? first 0 0 == 1) (at? first 1 0 == 1) s
    | 17 => marchDone target r.wasUp (first.map Int.toNat) s
    | 18 => if at? first 0 0 == 1 then selfResult 18 target true 0 s else tileFail target 3 (selfResult 18 target false 0 s)
    | 19 => comparatorDone target (at? first 0 0 == 1) s
    | _ => s

/-! Automatic triggers (R433, R437, R438). -/

/-- The automatic trigger of an item holds: a value accepted, AUTO_CAL on, and DIE_TEMP moved past the threshold since. -/
def calMoved (s : State) (item target : Nat) : Bool :=
  let die := getS s 36 Obj.dieTemp 0
  if item = 1 then
    nbit s.cal.groups.toNat target && bitOf (getW s Obj.autoCal 0) 0
      && decide ((die - sgn 14 (fld (getW s Obj.delayCal target) 23 10)).natAbs > getN s Obj.delayTrig 0)
  else
    nbit s.cal.channels.toNat target && bitOf (getW s Obj.autoCal 0) 1
      && decide ((die - sgn 14 (fld (getW s Obj.adcCal target) 13 0)).natAbs > getN s Obj.adcTrig 0)

/-- The automatic trigger queues an item, where the queue has room; one that is queued already is not queued again. -/
def calAuto (item target : Nat) (s : State) : State :=
  if !(calMoved s item target) || calRunning s item target || (calQueued s item target).isSome || s.cal.queue.length ≥ 16 then s
  else calQueue item target 0 s

/-- DIE_TEMP is measured (R433). -/
def dieTempDo (temp : Int) (s : State) : State :=
  let s := setI Obj.dieTemp 0 temp s
  let auto := fun (item target : Nat) (s : State) => if s.cal.backoff.contains (item, target) then s else calAuto item target s
  forEach (List.range 32) (auto 2) (forEach (List.range 4) (auto 1) s)

/-- RETRY_DELAY has passed since a rejection (R437). -/
def calRetry (item target : Nat) (s : State) : State :=
  if !(s.cal.backoff.contains (item, target)) then s
  else calAuto item target (modCal (fun c => { c with backoff := c.backoff.filter (fun x => x != (item, target)) }) s)

/-- 10.001 CAL_STATE (R448). -/
def calStateWord (s : State) : Word :=
  match s.cal.running with
  | r :: _ => wd (2 ^ 35 + r.item * 2 ^ 29 + r.target * 2 ^ 23 + s.cal.queue.length * 2 ^ 18)
  | [] => wd (s.cal.queue.length * 2 ^ 18)

/-- Word i of 10.002 CAL_QUEUE (R448): the ms left are rounded up. -/
def calQueueWord (s : State) (i : Nat) : Word :=
  match s.cal.queue[i]? with
  | some r => wd (r.item * 2 ^ 30 + r.target * 2 ^ 24 + satN 24 (ceilDiv (r.deadline - s.clock.tick) 625000))
  | none => 0

/-- CAL_AUTO_TRIGGER (R433). -/
def execCalAutoTrigger (t : Nat) (dieTemp : Int) (s : State) : Host.Outcome State Fault Refusal := happen t (dieTempDo dieTemp) s

/-- CAL_START (R439). -/
def execCalStart (t item target : Nat) (s : State) : Host.Outcome State Fault Refusal := happen t (calStart item target) s

/-- CAL_RUN_DONE (R435). -/
def execCalRunDone (t item target : Nat) (first second : List Int) (s : State) : Host.Outcome State Fault Refusal :=
  happen t (calRunDone item target first second) s

/-- CAL_REQUEST_EXPIRE (R440). -/
def execCalRequestExpire (t item target : Nat) (s : State) : Host.Outcome State Fault Refusal := happen t (calExpire item target) s

/-- CAL_RETRY (R437). -/
def execCalRetry (t item target : Nat) (s : State) : Host.Outcome State Fault Refusal := happen t (calRetry item target) s

end Sys2Proof.Machine
end

