-- ==== Sys2Proof/Machine/Motion.lean ====
section
/-! DEFINITION. What fires and cycles: compare units (R389 to R392), trigger units (R166, R168), the servo cycle of Hare
and the axes (R394 to R399), and the replies of the drives (R400, R401). -/

namespace Sys2Proof.Machine

open Sys2Proof

/-- The effect of a compare firing at its TARGET (R390): a camera frame start or a pulse. -/
def cmpDeliver (i : Nat) (page : Option (Nat × Int)) (s : State) : State :=
  let w := getW s Obj.cmp i
  let s := bump Obj.cmpFired i 1 s
  match fld w 32 31 with
  | 1 => frameStart page s
  | 2 => emit (.pulse (fld w 30 29) (bitOf w 28) (fld w 27 18) (s.clock.tick * 64)) s
  | _ => s

/-- A compare unit out of page mode fires (R389 to R391). -/
def cmpFireOnce (i : Nat) (s : State) : State :=
  let v := getPos s Obj.cmpPos i
  let back := (cmpU s i).armedBack
  let s := cmpDeliver i none s
  let period : Int := getN s Obj.cmpPeriod i
  if period ≠ 0 then setE Obj.cmpPos i (posElem (wrapPos (if back then v - period else v + period))) s
  else setN Obj.cmp i (setBit (getW s Obj.cmp i) 35 false).toNat (modCmp i (fun u => { u with behind := false }) s)

/-- CMP_FIRE: the position, moving in the armed direction, has reached V, or the head entry of the queue (R389, R392). -/
def cmpFire (i : Nat) (s : State) : State :=
  let s := posTouch s
  let w := getW s Obj.cmp i
  let p := posNow s
  if !(bitOf w 35) then s
  else if bitOf w 33 then
    match (cmpU s i).queue with
    | (v, page) :: rest =>
      if !s.pos.backward && decide (v ≤ p) then cmpDeliver i (some (page, v)) (modCmp i (fun u => { u with queue := rest }) s) else s
    | [] => s
  else
    let v := getPos s Obj.cmpPos i
    if (cmpU s i).armedBack then (if s.pos.backward && decide (p ≤ v) then cmpFireOnce i s else s)
    else if !s.pos.backward && decide (v ≤ p) then cmpFireOnce i s else s

/-- TRIGGER_FIRE (R166): the unit fires, and its internal target acts: 3 a Hare start, 4 a camera frame start. The servo
cycle and the ADC sequence of targets 1 and 2 are commands of their own (R168). Units that reach one target at one tick
deliver one event. -/
def triggerFire (u : Nat) (s : State) : State :=
  match trigInstant u s with
  | none => s
  | some x =>
    let target := fld (getW s Obj.trig u) 33 31
    let one := !(trigShared u s)
    let s := trigFire u x s
    if !one then s else if target = 3 then hareTrigger s else if target = 4 then frameStart none s else s

/-- One servo cycle (R394, R395, R400): Hare, the axes, the set-point frame. A function held in reset does nothing. -/
def servoCycle (s : State) : State :=
  if !(rdy s 5) then s else
  let s := if bitOf (getW s Obj.funcReset 0) 15 then s else posTouch (hareCycle s)
  if bitOf (getW s Obj.funcReset 0) 16 then s
  else capCheck (auxSend (forEach [0, 1] axisCycle s))

/-- CMP_FIRE (R389). -/
def execCmpFire (t : Nat) (unit : Fin 8) (s : State) : Host.Outcome State Fault Refusal := happen t (cmpFire unit.val) s

/-- TRIGGER_FIRE (R166). -/
def execTriggerFire (t : Nat) (unit : Fin 16) (s : State) : Host.Outcome State Fault Refusal := happen t (triggerFire unit.val) s

/-- SERVO_CYCLE (R394, R395). -/
def execServoCycle (t : Nat) (s : State) : Host.Outcome State Fault Refusal := happen t servoCycle s

/-- AUX_REPLY (R400, R401). -/
def execAuxReply (t : Nat) (bytes : List Byte) (s : State) : Host.Outcome State Fault Refusal :=
  happen t (fun s => capCheck (auxReplyTake bytes s)) s

/-- AUX_REPLY_TIMEOUT (R401): the oldest frame without a reply has a missing one. -/
def execAuxReplyTimeout (t : Nat) (s : State) : Host.Outcome State Fault Refusal :=
  happen t (fun s => match s.aux.waiting with
    | [] => s
    | (seq, _) :: rest => capCheck (auxBad 1 seq { s with aux := { s.aux with waiting := rest } })) s

end Sys2Proof.Machine
end

