-- ==== Sys2Proof/Machine/FuncReset.lean ====
section
/-! DEFINITION. 01.003 FUNC_RESET: what holding and releasing each function does (R73 to R75, R531), and the crossing
units that it touches (R36 to R41). -/

namespace Sys2Proof.Machine

open Sys2Proof

/-- Lanes of a function of READY. -/
def lanesOf (b : Nat) : List Nat := (List.range 48).filter (fun i => laneFunc i == b)

/-- Objects whose elements all return to their reset values (R73): counters and status. -/
def clearObjs (os : List Nat) (s : State) : State :=
  { s with dict := { s.dict with active := s.dict.active.filter (fun p => !(os.contains (p.1 / 2097152))) } }

/-- The counters of lanes return to their reset values. -/
def clearLane (i : Nat) (s : State) : State :=
  forEach [Obj.prbsBits, Obj.prbsErrors, Obj.codeErrors, Obj.laneSlips] (fun o s => setN o i 0 s) s

/-- Every Tile comes back when the fabric is reset (R275): the record in 07.011 TILE_FAULT stays. -/
def tilesBack (s : State) : State := { s with fabric := { s.fabric with tilesDown := 0, loadFails := 0 } }

/-- An axis in reset (R73): its motion ends, what was written to its objects stays. -/
def axisReset (a : AxisUnit) : AxisUnit :=
  { p := 0, v := 0, target := a.target, taken := a.taken, deferred := a.deferred, inPos := false, driveFault := false }

/-- What the Line Delay Store holds is lost (R73): its head-lines are discarded, but for those that the transmit queues
hold too. -/
def ldsLost (s : State) : State :=
  forEach (List.range 32) (fun h s =>
    let u := headU s h
    discardLds h (fun e => !(u.queue.any (fun q => q.page == e.1 && q.line == e.2.1))) s) s

/-- Function b enters reset (R73, R531; notes/assumptions/64.md). -/
def holdFunc (b : Nat) (s : State) : State :=
  let s := setUp b false s
  match b with
  | 4 =>
    let s := setUp 5 false (forEach (List.range 48) laneOut (setUp 4 false s))
    calAbandon (fun _ => true) (syncEnter 0 (forEach (List.range 32) headLaneFollow s))
  | 5 =>
    let s := queuesLost { s with trigs := State.reset.trigs }
    calAbandon (fun _ => true) (syncEnter 0 s)
  | 7 => bondDissolve false (forEach (lanesOf 7) laneStop s)
  | 9 =>
    let s := modMem 4 (fun u => { u with cells := [], merge := [], writeBacks := [] }) (queuesLost (setN Obj.tileReady 0 0 s))
    { s with fabric := { s.fabric with
        down := Vector.replicate 4 [], downFor := none, work := none, compSent := false, cells := [], edgeIn := [], edgeOut := [] } }
  | 11 => ldsLost s
  | 12 => calAbandon (fun _ => true) (forEach (List.range 32) headLaneFollow (forEach (lanesOf 12) laneStop (queuesLost s)))
  | 13 => frontHeld 0 s
  | 14 => frontHeld 1 s
  | 15 => posSet { s with hare := { State.reset.hare with run := s.hare.run, waitTrig := s.hare.waitTrig } }
  | 16 => { s with axes := s.axes.map axisReset, aux := State.reset.aux }
  | 17 =>
    let s := forEach (lanesOf 17) laneOut s
    { s with insp := { s.insp with inputs := State.reset.insp.inputs } }
  | 18 => { s with insp := { s.insp with stripes := [], display := [] } }
  | 19 => { s with insp := { s.insp with fox := State.reset.insp.fox } }
  | 20 => calAbandon (fun r => r.item == 2) s
  | 21 => hpcReady (allOff { s with hpc := { s.hpc with proved := false } })
  | 24 => saveAbandon s
  | _ => forEach (lanesOf b) laneOut s

/-- Function b is released (R73, R531): its counters and status are at their reset values. -/
def releaseFunc (b : Nat) (s : State) : State :=
  let s := forEach (lanesOf b) (fun i s => injectNow i (clearLane i s)) s
  match b with
  | 3 => clearObjs [Obj.hostDiscards] s
  | 5 => clearObjs [Obj.trigFired, Obj.captCount, Obj.captTime, Obj.captPos] s
  | 7 => clearObjs [Obj.lgAccepted, Obj.lgLate, Obj.hdrErrors, Obj.tblAccepted, Obj.tblRejected, Obj.creditErrors, Obj.pageNow] s
  | 8 => { clearObjs [Obj.blocksDecoded, Obj.blocksDamaged, Obj.oosEpochs, Obj.damageCause] s with codec := { State.reset.codec with lastLg := s.codec.lastLg } }
  | 9 => tilesBack (clearObjs [Obj.edgeWaits, Obj.edgeCrcErrors, Obj.linesScreened, Obj.compSaturated, Obj.compLost] s)
  | 12 =>
    let s := clearObjs [Obj.notFired, Obj.linkCrcErrors, Obj.linkDelay, Obj.bridgeId, Obj.headTemp] s
    forEach (List.range 32) headLaneFollow { s with links := s.links.map (fun _ => State.resetLink) }
  | 13 => frontReleased 0 s
  | 14 => frontReleased 1 s
  | 16 => auxReady (clearObjs [Obj.auxBadReplies, Obj.auxState, Obj.axSetpoint, Obj.axActual] s)
  | 17 => clearObjs [Obj.linesDiscarded] s
  | 18 => clearObjs [Obj.dispDropped, Obj.stripeOverruns, Obj.cmpRetries, Obj.cmpFallbacks, Obj.frameStats] s
  | 19 => clearObjs [Obj.evidLines, Obj.evidSkipped, Obj.regDiscards, Obj.regShift, Obj.noise] s
  | 21 => clearObjs [Obj.trips, Obj.adcMissed, Obj.hpcV, Obj.hpcI] s
  | 22 => clearObjs [Obj.edgeMismatches] s
  | _ => s

/-- The ports through which the device is reached (R74, R486), as bits of FUNC_RESET. -/
def reachPorts (s : State) : Nat := if role s = 2 then 6 else if role s = 1 then 14 else 8

/-- Why a write of v to 01.003 FUNC_RESET is refused (R74, R75), every code that applies. -/
def funcResetAborts (v : Word) (s : State) : List Nat :=
  [if fld v 35 26 != 0 || bitOf v 0 || bitOf v 6 || bitOf v 10 || bitOf v 23 then 0x06 else 0,
   if (bitOf v 4 || bitOf v 20) && !(inSeason .thaw s) then 0x07 else 0,
   if v.toNat &&& reachPorts s == reachPorts s then 0x0C else 0,
   if bitOf v 25 then seasonReqAbort 3 s else 0]

/-- A write of v to 01.003 FUNC_RESET (R73 to R75). -/
def funcResetDo (v : Word) (s : State) : State :=
  let old := getW s Obj.funcReset 0
  let new := setBit v 25 false
  let s := setN Obj.funcReset 0 new.toNat s
  let s := forEach ((List.range 26).filter (fun b => bitOf new b && !(bitOf old b))) holdFunc s
  let s := forEach ((List.range 26).filter (fun b => bitOf old b && !(bitOf new b))) releaseFunc s
  let s := idleCheck (forEach (List.range 16) xingFollow s)
  if bitOf v 25 then seasonReqDo 3 s else s

/-! Bring-up (R60 to R64). -/

/-- 00.002 FW_VERSION of the ROM of stepping B0 (R117). -/
def romVersion : Nat := 0x008000000

/-- The firmware runs (R61, R77): with the patch in use, or from ROM alone. FW_VERSION of a patch is what the flash
copy carries (notes/assumptions/65.md). -/
def firmwareUp (s : State) : State :=
  let r := s.flash.patch
  let ver := ((lookupKey (regionImage r) (objKey Obj.fwVersion 0)).map (fun e => (elemLo e).toNat)).getD romVersion
  if r.inUse.isNone || s.pwr.romOnly then
    setBoot 31 30 0 (setN Obj.fwVersion 0 romVersion s)
  else setBoot 31 30 (if r.inUse = some true then 3 else 2) (setN Obj.fwVersion 0 ver s)

/-- A function that brings itself up is up (R60, R61), where it can be: it is not held, and what it stands for is so. -/
def bitUp (b : Nat) (s : State) : State :=
  if bitOf (getW s Obj.funcReset 0) b then s else
  match b with
  | 0 => s
  | 1 => laneReady 46 s
  | 2 => laneReady 47 s
  | 3 => laneReady 5 s
  | 4 => injectAll (forEach (List.range 32) headLaneFollow (setUp 4 true s))
  | 5 => freeRun (setUp 5 true s)
  | 6 => whenB (decide (getN s Obj.syncState 0 = 2)) (setUp 6 true) s
  | 7 => laneReady 0 s
  | 9 =>
    let s := setN Obj.tileReady 0 (2 ^ 27 - 1 - s.fabric.tilesDown.toNat) (setUp 9 (s.fabric.tilesDown == 0) s)
    let s := if s.pwr.kept then calReady (setUp 10 (!s.nt.loading || bitOf s.pwr.up 10) s) else s
    screenRun 4 (settle s)
  | 10 => whenB (!s.nt.loading) (setUp 10 true) s
  | 12 => whenB (s.links.toList.any (fun l => l.state == .ready)) (setUp 12 true) s
  | 13 => whenB (decide ((encU s 0).state = 1)) (setUp 13 true) s
  | 14 => whenB (decide ((encU s 1).state = 1)) (setUp 14 true) s
  | 16 => auxReady s
  | 17 => laneReady 42 s
  | 21 => hpcReady { s with hpc := { s.hpc with proved := true } }
  | 22 => laneReady 38 s
  | 23 => calReady s
  | 24 => whenB s.pwr.restored (setUp 24 true) s
  | 25 => whenB (s.pwr.restored || bitOf (getW s Obj.bootStatus 0) 27) (fun s => setUp 25 true (firmwareUp s)) s
  | _ => setUp b true s

/-- FUNCTION_READY (R60, R61). -/
def execFunctionReady (t : Nat) (bit : ReadyBit) (s : State) : Host.Outcome State Fault Refusal := happen t (bitUp bit.val) s

/-- PLL_LOCK (R61): bits 4 and 5, what runs on them, and a wake run out of each port of a device that a wake started
(R58). -/
def execPllLock (t : Nat) (s : State) : Host.Outcome State Fault Refusal :=
  happen t (fun s =>
    if bitOf (getW s Obj.funcReset 0) 4 then s else
    let s := setUp 4 true s
    let s := if bitOf (getW s Obj.funcReset 0) 5 then s else setUp 5 true s
    let s := setUp 15 true s
    let s := forEach [0, 1] (fun e s => if (encU s e).state = 1 then setUp (13 + e) true s else s) s
    let s := injectAll (forEach (List.range 32) headLaneFollow (freeRun s))
    let cause := fld (getW s Obj.bootStatus 0) 35 32
    if s.pwr.wakeRunAt.isNone && decide (2 ≤ cause) && decide (cause ≤ 4) then wakeRun .rngB (wakeRun .rngA s) else s) s

end Sys2Proof.Machine
end

