-- ==== Sys2Proof/Machine/Reads.lean ====
section
/-! DEFINITION. What every object reads as (R90, R117, R147, R497): the objects whose value the device forms at the read, the words of
TABLE and DOMAIN objects, and every other from the dictionary. -/

namespace Sys2Proof.Machine

open Sys2Proof

/-- The slot that a Member claims (R133, R488): the one confirmed in 02.004 SLOT_CFG, else its hop count; none while the
hop count is above 63. -/
def claimedSlot (s : State) : Option Nat :=
  let cfg := getW s Obj.slotCfg 0
  let saved := fld cfg 5 0
  if s.ring.hop > 63 then none
  else if bitOf cfg 35 && saved != 0 then some saved
  else if s.ring.hop = 0 then none else some s.ring.hop

/-- 02.004 SLOT_CFG confirms the claim. -/
def claimConfirmed (s : State) : Bool := bitOf (getW s Obj.slotCfg 0) 35 && fld (getW s Obj.slotCfg 0) 5 0 != 0

/-- The slot the device holds (R133, R486, R488). -/
def heldSlot (s : State) : Option Nat :=
  if role s = 2 then (if s.ring.slotless then none else claimedSlot s)
  else if s.pwr.strap = 3 then none else some 0

/-- 00.003 SLOT (R117). -/
def slotNo (s : State) : Nat := if role s = 2 then (claimedSlot s).getD 0 else 0

/-- 02.000 RING_STATE (R147). -/
def ringStateWord (s : State) : Word :=
  let r := s.ring
  wd (r.ringState % 4 * 2 ^ 34 + (if (laneU s 46).lock then 2 ^ 33 else 0) + (if (laneU s 47).lock then 2 ^ 32 else 0)
    + (if r.wrapA then 2 ^ 31 else 0) + (if r.wrapB then 2 ^ 30 else 0) + (if r.namedB then 2 ^ 29 else 0)
    + (if role s = 1 then 0 else r.hop % 128 * 2 ^ 22)
    + (if role s = 1 then ones 64 (r.presentA ||| r.presentB).toNat * 2 ^ 15 else 0))

/-- Word w of 02.001 PATH_MAP (R147). -/
def pathMapWord (s : State) (w : Nat) : Word :=
  match w with
  | 0 => wd (s.ring.mapSeq % 256 * 2 ^ 24 + s.ring.mapCycle % 2 ^ 24)
  | 1 => wd (s.ring.map.toNat / 2 ^ 36)
  | _ => wd s.ring.map.toNat

/-- 02.013 HOST_STATE (R147). -/
def hostStateWord (s : State) : Word :=
  let h := s.host
  wd ((if h.linkUp then 2 ^ 35 else 0) + (if h.anComplete then 2 ^ 34 else 0) + (if h.partnerFd then 2 ^ 33 else 0)
    + (if h.partnerHd then 2 ^ 32 else 0) + (if h.remoteFault then 2 ^ 31 else 0)
    + (h.datagrams.filter (fun d => !d.done)).length * 2 ^ 16)

/-- 13.000 CAS_STATE (R497). -/
def casStateWord (s : State) : Word :=
  wd (packBits (fun k => (laneU s (38 + k)).lock) 4 * 2 ^ 32 + packBits (casOpen s) 4 * 2 ^ 28
    + (if (heldSlot s).isNone then 2 ^ 27 else 0) + slotNo s * 2 ^ 21 + s.pwr.strap.val * 2 ^ 19)

/-- Highest severity among the queue's entries (R125): 0 none, else its code plus 1. -/
def maxSev (s : State) : Nat := s.ev.queue.foldl (fun m e => max m (e.event.sev + 1)) 0

/-- Word w of 14.000 EVENT_QUEUE, counted from the oldest entry (R112, R115). -/
def eventWord (s : State) (w : Nat) : Word :=
  match s.ev.queue[w / 8]? with
  | none => 0
  | some e => match w % 8 with
    | 0 => elemHi (timeElem e.event.time)
    | 1 => elemLo (timeElem e.event.time)
    | 2 => wd (e.event.group % 256 * 2 ^ 28 + e.event.number % 4096 * 2 ^ 16 + e.event.sev % 4 * 2 ^ 14 + e.rep % 8192)
    | 3 => wd e.seq
    | k => at? e.event.params (k - 4) 0

/-- The word at offset w of a list of records, counted from the oldest (R419). -/
def recordWord : List (Nat × List Word) → Nat → Word
  | [], _ => 0
  | r :: rest, w => if w < r.2.length then at? r.2 w 0 else recordWord rest (w - r.2.length)

/-- 01.005 CORE_VTARGET (R50): the spec gives its limits, no value at a junction temperature (notes/assumptions/122.md). -/
def coreVtarget (s : State) : Word := wd (680 + (freeVal s).toNat % 121)

/-- 01.100 RAIL_MEAS of rail i (R49, R79): what was measured out of range stands while the rail is out of range; in range
the spec gives no value (notes/assumptions/122.md). -/
def railMeas (s : State) (i : Nat) : Word :=
  if nbit s.pwr.railsOut.toNat i then getW s Obj.railMeas i else wd ((freeVal s).toNat % 2 ^ 18)

/-- Objects of which a read returns values that the spec leaves open: each element read takes its own. -/
def openRead (id : Nat) : Bool := id == Obj.laneStatus || id == Obj.coreVtarget || id == Obj.railMeas

/-- An element that the device forms at the read; none where the dictionary holds it. -/
def liveWord (s : State) (id i : Nat) : Option Word :=
  if id = Obj.slot then some (wd (slotNo s))
  else if id = Obj.commitSlot then some (commitSlot s i)
  else if id = Obj.season then some (wd (seasonCode s.pwr.season))
  else if id = Obj.ready then some s.pwr.ready
  else if id = Obj.coreVtarget then some (coreVtarget s)
  else if id = Obj.railMeas then some (railMeas s i)
  else if id = Obj.ringState then some (ringStateWord s)
  else if id = Obj.pathMap then some (pathMapWord s i)
  else if id = Obj.hostState then some (hostStateWord s)
  else if id = Obj.bondState then some (bondState s)
  else if id = Obj.laneStatus then some (laneStatus s i (freeVal s))
  else if id = Obj.rfeState then some (rfeState s)
  else if id = Obj.creditBook then some (creditBook s i)
  else if id = Obj.codecState then some (codecState s)
  else if id = Obj.edgeState then some (edgeStateWord s)
  else if id = Obj.ntCommit then some (ntCommitWord s)
  else if id = Obj.ntStatus then some (ntStatusWord s)
  else if id = Obj.ntProposals then some (proposalWord s i)
  else if id = Obj.ldsUse then some (wd (ldsUse s i))
  else if id = Obj.ldsBase then some (wd (ldsBase s i))
  else if id = Obj.headBook then some (bookWord s i)
  else if id = Obj.haltState then some (haltState s)
  else if id = Obj.headLink then some (headLink (linkU s i))
  else if id = Obj.posState then some (posState s)
  else if id = Obj.speed then some (ws (satS 36 (speedNow s)))
  else if id = Obj.encCount then some (ws (encU s i).count)
  else if id = Obj.encStatus then some (encStatus (encU s i))
  else if id = Obj.cmp then some (cmpWord s i)
  else if id = Obj.hareCtrl then some (hareCtrlWord s)
  else if id = Obj.hareSpeed then some (ws s.hare.v)
  else if id = Obj.axState then some (axState s i)
  else if id = Obj.dispFill then some (wd (dispFill s))
  else if id = Obj.dispQueue then some (recordWord s.insp.display i)
  else if id = Obj.camStatus then some (camStatusWord s i)
  else if id = Obj.foxState then some (foxState s)
  else if id = Obj.verdicts then some (verdictWord s i)
  else if id = Obj.calState then some (calStateWord s)
  else if id = Obj.calQueue then some (calQueueWord s i)
  else if id = Obj.repairMap then some (repairWord s i)
  else if id = Obj.memStatus then some (memStatus s i)
  else if id = Obj.sparesUsed then some (wd (sparesUsed s i))
  else if id = Obj.scrubAddr then some (wd (memU s i).scrubAddr)
  else if id = Obj.hpcState then some (hpcWord s i)
  else if id = Obj.casState then some (casStateWord s)
  else if id = Obj.unslotted then some (wd (satN 9 s.ring.unslotted))
  else if id = Obj.eventQueue then some (eventWord s i)
  else if id = Obj.eventMask then some (eventMask s)
  else if id = Obj.eventFill then some (wd s.ev.queue.length)
  else if id = Obj.eventNextSeq then some (wd s.ev.nextSeq)
  else if id = Obj.xingPeerMap then some (xingMap s (fun x => x.peer))
  else if id = Obj.xingDiscontMap then some (xingMap s (fun x => x.discont))
  else if id = Obj.xingStatus then some (xingWord s i)
  else none

/-- The element that a read of an object returns, its effects on memories aside (R90). -/
def readElem (s : State) (id i : Nat) : Elem :=
  if id = Obj.timeNow then timeElem (time72 s)
  else if id = Obj.posNow then posElem (wrapPos (posNow s))
  else match liveWord s id i with
    | some w => el w.toNat
    | none => getE s id i

/-- The memory and the first word in it of a DOMAIN object that a memory holds: active or shadow copy (R449). -/
def domainPlace (id : Nat) (shadow : Bool) : Option (Nat × Nat) :=
  if id = Obj.nozzleTable then some (2, if shadow then nozzleCount else 0)
  else if id = Obj.screenStore then (if shadow then none else some (3, 0))
  else if id = Obj.flatField then some (7, 0)
  else none

/-- An element read, with what the read of the memory that holds it does (R451, R452; notes/assumptions/9.md): one
that control processor RAM does not give back reads as a free value (R465). -/
def ramRead (d : ObjDef) (id i : Nat) (v : Elem) (s : State) : Elem × State :=
  let step := fun (x : Bool × State) (k : Nat) =>
    let a := Config.ramWord id (d.wordsPer * i + k) % 524288
    let before := getN x.2 Obj.uncorrectable 6 + getN x.2 Obj.poisonReads 6
    let s := (userRead 6 a x.2).2
    (x.1 || getN s Obj.uncorrectable 6 + getN s Obj.poisonReads 6 != before, s)
  let r := (List.range d.wordsPer).foldl step (false, s)
  if r.1 then (el (freeVal r.2).toNat, takeFree r.2) else (v, r.2)

/-- One element of a plain read (R83, R90). -/
def readOne (d : ObjDef) (shadow : Bool) (i : Nat) (s : State) : Elem × State :=
  if openRead d.id then (readElem s d.id i, takeFree s)
  else if d.id = Obj.timeNow then (readElem s d.id i, xingQueue 14 1 s)
  else if (liveWord s d.id i).isSome || d.id = Obj.posNow then (readElem s d.id i, s)
  else ramRead d d.id i (if shadow then getShadow s d.id i else readElem s d.id i) s

/-- The words of an element (R143). -/
def elemWords (d : ObjDef) (e : Elem) : List Word := if d.wordsPer = 2 then [elemHi e, elemLo e] else [elemLo e]

/-- The bits that a word of HEAD_GEOM reads (R9, R297): the others are reserved. -/
def geomMask (w : Nat) : Word :=
  match w % 4 with
  | 0 => 0xF8001FFFF
  | 1 => 0xFFFF00000
  | 2 => 0xFFFFFFFFF
  | _ => 0x000000FFF

/-- One word of a block read (R107). -/
def readWord (id : Nat) (shadow : Bool) (w : Nat) (s : State) : Word × State :=
  match domainPlace id shadow with
  | some (m, base) => userRead m (base + w) s
  | none =>
    let v := if shadow then elemLo (getShadow s id w) else elemLo (readElem s id w)
    (if id = Obj.headGeom then v &&& geomMask w else v, s)

end Sys2Proof.Machine
end

