-- ==== Sys2Proof/Machine/Writes.lean ====
section
/-! DEFINITION. Writing one element of an object (R83, R84): what each object refuses by a rule of its own (R505), and
what the write does. -/

namespace Sys2Proof.Machine

open Sys2Proof

/-- Two enabled elements of 07.100 CHAIN share a head (R247). -/
def chainsShare (v w : Word) : Bool :=
  bitOf v 35 && bitOf w 35 && decide (fld v 9 5 ≤ fld w 4 0) && decide (fld w 9 5 ≤ fld v 4 0)

/-- A write of v to element i of CHAIN is refused (R247). -/
def chainBad (i : Nat) (v : Word) (s : State) : Bool :=
  decide (fld v 9 5 > fld v 4 0)
    || (List.range 4).any (fun j => j != i && chainsShare v (elemLo (getShadow s Obj.chain j)))

/-- A descriptor of KIND 0 or 2 whose array leaves the Screen Store (R260). -/
def descBad (desc size : Word) : Bool :=
  fld desc 35 34 != 1 && decide (fld desc 29 14 * 16 + fld size 21 11 * ((fld size 35 22 + 2) / 3) > 1048576)

/-- An enabled chain that holds heads of both colours (R493). -/
def bothColours (chain second : Word) : Bool :=
  let heads := (List.range 32).filter (fun h => decide (fld chain 9 5 ≤ h) && decide (h ≤ fld chain 4 0))
  bitOf chain 35 && heads.any (fun h => bitOf second h) && heads.any (fun h => !(bitOf second h))

/-- A pair of a chain and an edge is served by more than one enabled element of CAS_CFG (R490). -/
def casBad (i : Nat) (v : Word) (s : State) : Bool :=
  bitOf v 35 && (List.range 4).any (fun j =>
    let w := getW s Obj.casCfg j
    j != i && bitOf w 35 && bitOf v 34 == bitOf w 34 && fld v 33 30 &&& fld w 33 30 != 0)

/-- A position of an element of 0E.1A0 MOSAIC has a reserved channel code (R9, R417). -/
def mosaicBad (w : Word) : Bool :=
  (List.range 8).any (fun i => fld w (35 - 3 * i) (33 - 3 * i) == 5 || fld w (35 - 3 * i) (33 - 3 * i) == 6)

/-- What an object refuses of a value, by a rule of its own, where every word of it stands in the value alone or in
the values beside it (R505): those of 0x06. -/
def valueBad (id i : Nat) (w : Word) (s : State) : Bool :=
  if id = Obj.wakeSrcEn then w == 0
  else if id = Obj.slotCfg then bitOf w 35 && fld w 5 0 != slotNo s
  else if id = Obj.ptpCfg then decide (fld w 7 0 > 127)
  else if id = Obj.bondCfg then bondCfgAbort w != 0
  else if id = Obj.laneEq then fld w 35 34 == 3
  else if id = Obj.chain then chainBad i w s
  else if id = Obj.screenDesc then fld w 35 34 == 3 || descBad w (elemLo (getShadow s Obj.screenSize i))
  else if id = Obj.screenSize then
    decide (fld w 35 22 = 0) || decide (fld w 35 22 > 8192) || decide (fld w 21 11 = 0) || decide (fld w 21 11 > 1024)
      || descBad (elemLo (getShadow s Obj.screenDesc i)) w
  else if id = Obj.edKernel then kernelSum w != 32
  else if id = Obj.gainMax then decide (w.toNat < getN s Obj.gainMin 0)
  else if id = Obj.fireFmax then decide (w.toNat > match s.pwr.grade with
    | .g16 => 160000
    | .g12 => 120000)
  else if id = Obj.pageAbort then w != 1
  else if id = Obj.tWarn then decide (sgn 36 w.toNat > getS s 36 Obj.tLimit 0)
  else if id = Obj.encCfg then fld w 34 33 == 3 || fld w 31 28 == 0
  else if id = Obj.indexCfg then fld w 35 34 == 3 || fld w 25 0 == 0
  else if id = Obj.camGeom then decide (fld w 35 32 = 0) || decide (fld w 35 32 > 8) || fld w 29 14 == 0
  else if id = Obj.mosaic then mosaicBad w
  else if id = Obj.phiMiss then decide (w.toNat ≤ getN s Obj.phiWeak 0)
  else if id = Obj.phiWeak then decide (w.toNat ≥ getN s Obj.phiMiss 0) || decide (w.toNat < getN s Obj.phiGood 0)
  else if id = Obj.phiGood then decide (w.toNat > getN s Obj.phiWeak 0)
  else if id = Obj.compat then bitOf w 6
  else if id = Obj.hpcVwin then vwinAbort w != 0
  else if id = Obj.ocLimit then ocProductBad w.toNat (getN s Obj.shunt i)
  else if id = Obj.shunt then ocProductBad (getN s Obj.ocLimit i) w.toNat
  else if id = Obj.casCfg then casBad i w s
  else if id = Obj.eventAck then !(s.ev.queue.any (fun e => e.seq == w.toNat))
  else false

/-- The commands and settings that may be refused for the state the device is in (R505): every code that applies. -/
def stateAborts (id i : Nat) (e : Elem) (s : State) : List Nat :=
  let w := elemLo e
  let n := w.toNat
  if id = Obj.save then [saveAbort n s]
  else if id = Obj.commitPage then [commitAbort (fld w 23 0) s]
  else if id = Obj.commitCancel then [cancelAbort (fld w 23 0) s]
  else if id = Obj.commitNow then [if n = 1 then commitNowAbort s else 0]
  else if id = Obj.seasonReq then [seasonReqAbort n s]
  else if id = Obj.funcReset then funcResetAborts w s
  else if id = Obj.timeNow then [timeNowAbort e.toNat s]
  else if id = Obj.timeSource then [timeSourceAbort n s]
  else if id = Obj.timeResync then [if n = 1 then resyncAbort s else 0]
  else if id = Obj.trig then [trigAbort i w s]
  else if id = Obj.trigStart || id = Obj.trigPeriod then [whenCode (bitOf (getW s Obj.trig i) 35) 0x07]
  else if id = Obj.capt then [captAbort w]
  else if id = Obj.laneCfg then [laneCfgAbort i w s]
  else if id = Obj.laneTest then [laneTestAbort i w s]
  else if id = Obj.ntCommit then [(ntCommitWrite w s).1]
  else if id = Obj.ntApprove then [ntApproveAbort w s]
  else if id = Obj.fireEnable then [if n = 1 then armAbort s else whenCode (pageInProgress s) 0x07]
  else if id = Obj.bookClear then [if n = 1 then whenCode (pageInProgress s) 0x07 else 0]
  else if id = Obj.pageAbort then [whenCode (!(pageInProgress s)) 0x07]
  else if id = Obj.regSel then [regSelAbort i w s]
  else if id = Obj.posSource then [posSourceAbort n s]
  else if id = Obj.posPreset then [presetAbort s]
  else if id = Obj.cmp then [cmpAbort i w s]
  else if id = Obj.auxState then [if bitOf w 35 then auxClearAbort s else 0]
  else if id = Obj.axCtrl then [axCtrlAbort i w s]
  else if id = Obj.axTarget then [axTargetAbort i s]
  else if id = Obj.camRole then [camRoleAbort w s]
  else if id = Obj.syncReq then [syncReqAbort w s]
  else if id = Obj.expCommit then [expCommitAbort w s]
  else if id = Obj.dispAck then [dispAckAbort n s]
  else if id = Obj.calReq then [calReqAbort w s]
  else if id = Obj.clear then [clearAbort w s]
  else if id = Obj.flipCheck || id = Obj.flipData then [whenCode (bitOf (getW s Obj.flipCtrl i) 35) 0x07]
  else if id = Obj.hpcEnable then [hpcEnableAbort w s]
  else if id = Obj.secondInk then
    [whenCode ((List.range 4).any (fun j => bothColours (getW s Obj.chain j) w
      || bothColours (elemLo (getShadow s Obj.chain j)) w)) 0x0C]
  else []

/-- Every code under which element i of an object refuses a value (R84, R505, R527). -/
def elemAborts (d : ObjDef) (i : Nat) (e : Elem) (s : State) : List Nat :=
  if !(typeOk d.ty e) then [0x05]
  else
    let m := maskElem d e
    whenCode (!(rangeOk d m)) 0x06 :: whenCode (valueBad d.id i (elemLo m) s) 0x06 :: stateAborts d.id i m s

/-- What a refused write still does: the events of R284 and R396. -/
def elemRefused (d : ObjDef) (i code : Nat) (e : Elem) (s : State) : State :=
  let w := elemLo (maskElem d e)
  if d.id = Obj.ntCommit then (if code = (ntCommitWrite w s).1 then (ntCommitWrite w s).2 else s)
  else if d.id = Obj.axTarget && code == 0x0C then raise 0x0D001 [p9 i, w] s
  else s

/-- Pages of the pending commit take new pulse profiles to the banks (R361). -/
def commitPageDo (p : Nat) (s : State) : State :=
  let had := s.dict.dirty.contains Obj.pulseProfiles
  let s := commitDo p s
  if had then bankBind p s else s

/-- COMMIT_CANCEL, with the bank that its pulse profiles had (R98, R361). -/
def commitCancelDo (p : Nat) (s : State) : State := bankCancel p (cancelDo p s)

/-- COMMIT_NOW, with the banks that its pulse profiles go to (R99, R361). -/
def commitNowWrite (s : State) : State :=
  let had := s.dict.dirty.contains Obj.pulseProfiles
  let s := commitNowDo s
  if had then bankNow s else s

/-- A write of 1 to 0A.027 PAGE_ABORT (R342). -/
def pageAbortDo (s : State) : State := endHalt (abandonPages s)

/-- A write to 02.004 SLOT_CFG: a claim that changes is held again (R133, R488). -/
def slotCfgDo (v : Word) (s : State) : State :=
  let before := claimedSlot s
  let s := setN Obj.slotCfg 0 v.toNat s
  if claimedSlot s = before then s
  else modRing (fun r => { r with slotless := false }) s

/-- A write to 0E.000 CAM_ROLE: an input that leaves service starts anew (R404). -/
def camRoleDo (v : Word) (s : State) : State :=
  let off := (List.range 4).filter (fun k => !(bitOf v (28 + k)))
  let s := setN Obj.camRole 0 v.toNat s
  forEach off (fun k s => modCam k (fun _ => State.resetCam) s) s

/-- EVENT_ACK of sequence number q (R115, R501): every entry up to it goes. -/
def eventAckDo (q : Nat) (s : State) : State :=
  { s with ev := { s.ev with queue := (s.ev.queue.dropWhile (fun e => e.seq != q)).drop 1 } }

/-- The commands of groups 00 to 04, and their settings that act at once; none where the write only sets the value. -/
def applyLow (id i : Nat) (e : Elem) (s : State) : Option State :=
  let w := elemLo e
  let n := w.toNat
  if id = Obj.save then some (saveStart s)
  else if id = Obj.commitPage then some (commitPageDo (fld w 23 0) s)
  else if id = Obj.commitCancel then some (commitCancelDo (fld w 23 0) s)
  else if id = Obj.commitNow then some (if n = 1 then commitNowWrite s else s)
  else if id = Obj.seasonReq then some (seasonReqDo n s)
  else if id = Obj.funcReset then some (funcResetDo w s)
  else if id = Obj.railFlags then some (setN id 0 (getW s id 0 &&& ~~~ w).toNat s)
  else if id = Obj.slotCfg then some (slotCfgDo w s)
  else if id = Obj.timeNow then some (timeNowDo e.toNat s)
  else if id = Obj.timeSource then some (timeSourceDo n s)
  else if id = Obj.timeResync then some (if n = 1 then resyncDo s else s)
  else if id = Obj.trig then some (trigDo i w s)
  else if id = Obj.capt then some (captDo i w s)
  else if id = Obj.bondCfg then some (bondCfgDo w s)
  else if id = Obj.laneCfg then some (laneCfgDo i w s)
  else if id = Obj.laneTest then some (laneTestDo i w s)
  else none

/-- The same for groups 07 to 0D. -/
def applyMid (id i : Nat) (e : Elem) (s : State) : Option State :=
  let w := elemLo e
  let n := w.toNat
  if id = Obj.tileFault then some (setN id 0 (getW s id 0 &&& ~~~ w).toNat s)
  else if id = Obj.ntCommit then some (ntCommitWrite w s).2
  else if id = Obj.ntApprove then some (ntApproveDo w s)
  else if id = Obj.fireEnable then some (if n = 1 then armDo s else disarmDo s)
  else if id = Obj.bookClear then some (if n = 1 then bookClearDo s else s)
  else if id = Obj.pageAbort then some (pageAbortDo s)
  else if id = Obj.regSel then some (regSelDo i w s)
  else if id = Obj.posPreset then some { s with pos := { s.pos with preset := some (elemPos e) } }
  else if id = Obj.encCfg then some (encCfgDo i w s)
  else if id = Obj.cmp then some (cmpDo i w s)
  else if id = Obj.cmpPos then
    (let s := setE id i e s
     some (if bitOf (getW s Obj.cmp i) 35 then cmpArmNow i s else s))
  else if id = Obj.hareCtrl then some (hareCtrlDo w s)
  else if id = Obj.auxCfg then some (auxCfgDo w s)
  else if id = Obj.auxState then some (if bitOf w 35 then auxClearDo s else s)
  else if id = Obj.axCtrl then some (axCtrlDo i w s)
  else if id = Obj.axTarget then some (startMove i (sgn 36 n) s)
  else if id = Obj.axDecel then some (axDecelDo i n s)
  else none

/-- The same for groups 0E to 15. -/
def applyHigh (id i : Nat) (e : Elem) (s : State) : Option State :=
  let w := elemLo e
  let n := w.toNat
  if id = Obj.camRole then some (camRoleDo w s)
  else if id = Obj.syncReq then some (syncReqDo w s)
  else if id = Obj.expCommit then some (expCommitDo w s)
  else if id = Obj.dispAck then some (dispAckDo n s)
  else if id = Obj.calReq then some (calReqDo w s)
  else if id = Obj.compat then some (compatDo w s)
  else if id = Obj.clear then some (clearDo w s)
  else if id = Obj.hpcEnable then some (hpcEnableDo w s)
  else if id = Obj.hpcUnlatch then some (unlatchDo w s)
  else if id = Obj.eventAck then some (eventAckDo n s)
  else if id = Obj.xingStatus then some (if bitOf w 34 then xingClear i s else s)
  else none

/-- What a write that is accepted does to element i of an object (R83, R90, R96). -/
def elemApply (d : ObjDef) (i : Nat) (e : Elem) (s : State) : State :=
  if d.cls == .rwb then
    let s := setShadow d.id i e s
    { s with dict := { s.dict with dirty := if s.dict.dirty.contains d.id then s.dict.dirty else s.dict.dirty ++ [d.id] } }
  else match applyLow d.id i e s with
    | some t => t
    | none => match applyMid d.id i e s with
      | some t => t
      | none => match applyHigh d.id i e s with
        | some t => t
        | none => setE d.id i e s

/-- The user writes of an element's words to control processor RAM (R449, R466; notes/assumptions/9.md): a command that
is not kept has none. -/
def ramWrite (d : ObjDef) (i : Nat) (e : Elem) (s : State) : State :=
  if d.cls == .wo then s else
  forEach (List.range d.wordsPer) (fun k s =>
    userWrite 6 (Config.ramWord d.id (d.wordsPer * i + k) % 524288) (if d.wordsPer = 2 && k == 0 then elemHi e else elemLo e) s) s

/-- The first element, from index i on, that is refused: its code, index and value (R83). -/
def firstRefused (d : ObjDef) (base : List Nat) (s : State) : Nat → List Elem → Option (Nat × Nat × Elem)
  | _, [] => none
  | i, e :: es =>
    let code := firstAbort (base ++ elemAborts d i e s)
    if code ≠ 0 then some (code, i, e) else firstRefused d base s (i + 1) es

/-- Elements are applied one at a time, from index i on (R83). -/
def writeElems (d : ObjDef) : Nat → List Elem → State → State
  | _, [], s => s
  | i, e :: es, s =>
    let m := maskElem d e
    writeElems d (i + 1) es (elemApply d i m (ramWrite d i m s))

/-- A range of elements is checked whole, then written whole, or not at all with the abort of the first one refused (R83). -/
def writeRange (d : ObjDef) (base : List Nat) (i : Nat) (es : List Elem) (s : State) : Nat × State :=
  match firstRefused d base s i es with
  | none => (0, writeElems d i es s)
  | some (code, j, e) => (code, elemRefused d j code e s)

end Sys2Proof.Machine
end

