-- ==== Sys2Proof/Machine/Blocks.lean ====
section
/-! DEFINITION. Plain accesses, block transfers and what a close checks (R81 to R84, R90, R101 to R107), at the device
that carries them out. -/

set_option Elab.async false

namespace Sys2Proof.Machine

open Sys2Proof

/-- The outcome of an access: abort code (0 none), handle, data words, and whether it is the last segment of a read. -/
structure Reply where
  abort : Nat
  handle : Nat
  data : List Word
  last : Bool
deriving DecidableEq, Repr

/-- An access accepted, with data, and one refused. -/
def okReply (data : List Word) : Reply := { abort := 0, handle := 0, data := data, last := false }
def badReply (code : Nat) : Reply := { abort := code, handle := 0, data := [], last := false }

/-- Until the firmware runs, the minimal object responder serves a few objects (R62). -/
def responderServes (id : Nat) (write : Bool) : Bool :=
  id == Obj.seasonReq || id == Obj.funcReset
    || (!write && (id == Obj.deviceId || id == Obj.slot || id == Obj.season || id == Obj.ready || id == Obj.bootStatus
        || id == Obj.hpcState))

/-- Codes that an access to an object meets for the device's state and its shadow flag (R62, R90). -/
def gateAborts (d : ObjDef) (write shadow : Bool) (s : State) : List Nat :=
  [whenCode (!(rdy s 25) && !(responderServes d.id write)) 0x07, whenCode (shadow && d.cls != .rwb) 0x07]

/-- RWI objects may be written only when no page is in progress (R12). -/
def pageAbortCode (d : ObjDef) (s : State) : Nat := whenCode (d.cls == .rwi && pageInProgress s) 0x07

/-- A read of n elements from index i on (R83). -/
def readElems (d : ObjDef) (shadow : Bool) (i n : Nat) (s : State) : List Word × State :=
  (List.range n).foldl (fun x k =>
    let (e, s) := readOne d shadow (i + k) x.2
    (x.1 ++ elemWords d e, s)) ([], s)

/-- A plain read (R82, R83, R90). -/
def plainRead (a : Access) (s : State) : Reply × State :=
  match findObj a.obj with
  | none => (badReply 0x01, s)
  | some d =>
    let code := firstAbort (plainAborts d false a.index a.count ++ gateAborts d false a.shadow s)
    if code ≠ 0 then (badReply code, s)
    else
      let (ws, s) := readElems d a.shadow a.index a.count s
      (okReply ws, s)

/-- A plain write (R82 to R84, R90). -/
def plainWrite (a : Access) (vals : List Word) (s : State) : Reply × State :=
  match findObj a.obj with
  | none => (badReply 0x01, s)
  | some d =>
    let code := firstAbort (plainAborts d true a.index a.count ++ [whenCode (vals.length != a.count * d.wordsPer) 0x05])
    if code ≠ 0 then (badReply code, s)
    else
      let r := writeRange d (pageAbortCode d s :: gateAborts d true a.shadow s) a.index (elemsOf d.wordsPer vals) s
      (badReply r.1, r.2)

/-! Block transfers. -/

/-- A block write is open on an object, by the host or in-band (R106, R209). -/
def writeOpen (s : State) (id : Nat) : Bool :=
  s.dict.transfers.toList.any (fun t => match t with
      | some t => t.obj == id && t.write
      | none => false)
    || (match s.dict.inband with
      | some t => t.obj == id
      | none => false)

/-- The object is in a pending commit (R96, R283). -/
def inCommit (s : State) (id : Nat) : Bool :=
  if id = Obj.nozzleTable then s.nt.pending.isSome else (pendingCommits s).any (fun ic => ic.2.objs.contains id)

/-- Why a block write of an object may not open now, the access and its range aside (R96, R106, R282): shared with the
in-band transfers of R209. -/
def blockWriteAborts (d : ObjDef) (s : State) : List Nat :=
  [whenCode (writeOpen s d.id) 0x0B, whenCode (d.id == Obj.nozzleTable && s.nt.seeding) 0x08, pageAbortCode d s,
   whenCode (d.cls == .rwb && inCommit s d.id) 0x0E]

/-- A list with an entry added once. -/
def addOnce (l : List Nat) (x : Nat) : List Nat := if l.contains x then l else l ++ [x]

/-- The load of the Nozzle Table from flash stops (R64): the words that it has written keep their flash values in both copies.
How many those are is a free value (notes/assumptions/127.md). -/
def ntLoadStop (s : State) : State :=
  if !s.nt.loading then s else
  let k := (freeVal s).toNat % (nozzleCount + 1)
  let img := (regionImage s.flash.tables).filter (fun p => decide (p.1 % 2097152 < k))
  let s := if rdy s 24 && rdy s 9 then
      takeFree (loadImage 2 Obj.nozzleTable nozzleCount img (loadImage 2 Obj.nozzleTable 0 img s))
    else s
  modMem 2 (fun u => { u with clearing := false }) (modNt (fun n => { n with loading := false }) s)

/-- What the opening of a block write does to its object (R90, R104, R105): the shadow or the object is invalid, and the
host's Nozzle Table wins over a load from flash (R64). -/
def blockOpened (d : ObjDef) (s : State) : State :=
  if d.id = Obj.nozzleTable then
    let s := ntLoadStop s
    { s with dict := { s.dict with badShadow := addOnce s.dict.badShadow d.id } }
  else if d.cls == .rwb then
    { s with dict := { s.dict with badShadow := addOnce s.dict.badShadow d.id, dirty := addOnce s.dict.dirty d.id } }
  else { s with dict := { s.dict with badObj := addOnce s.dict.badObj d.id } }

/-- A transfer slot set. -/
def setTransfer (h : Nat) (t : Option Transfer) (s : State) : State :=
  { s with dict := { s.dict with transfers := vset s.dict.transfers h t } }

/-- The transfer of a handle. -/
def transferOf (s : State) (h : Nat) : Option Transfer := vget s.dict.transfers h none

/-- An open request (R101, R103 to R107). -/
def openBlock (write : Bool) (a : Access) (s : State) : Reply × State :=
  match findObj a.obj with
  | none => (badReply 0x01, s)
  | some d =>
    let free := (List.range 4).find? (fun h => (transferOf s h).isNone)
    let code := firstAbort (openAborts d write a.index a.count ++ gateAborts d write a.shadow s
      ++ [whenCode free.isNone 0x08, whenCode (!write && writeOpen s d.id) 0x08]
      ++ (if write then blockWriteAborts d s else []))
    match code, free with
    | 0, some h =>
      let s := if write then blockOpened d s else s
      let t : Transfer := { obj := d.id, write := write, shadow := a.shadow, offset := a.index, length := a.count, nextSeq := 0,
                            words := [], sent := 0, switched := false
                            captured := if d.id = Obj.headBook then (List.range d.count).map (bookWord s) else [] }
      ({ okReply [] with handle := h }, setTransfer h (some t) s)
    | c, _ => (badReply c, s)

/-- The bits that a word of a TABLE or DOMAIN object holds (R9): the others are reserved. -/
def tableMask (d : ObjDef) (w : Nat) : Word :=
  if d.id = Obj.pulseProfiles then (if w % 2 = 0 then 0xFFFFFFFC0 else 0xFFFFF0000)
  else if d.id = Obj.levels && w % 3 == 2 then 0xFFF000000
  else if d.id = Obj.compKernels && w % 6 == 5 then 0xFFF000000
  else d.mask

/-- The host-dirty ranges with a range added (R281). -/
def addRange (l : List (Nat × Nat)) (lo hi : Nat) : List (Nat × Nat) :=
  match l.getLast? with
  | some r => if r.2 = lo then l.dropLast ++ [(r.1, hi)] else l ++ [(lo, hi)]
  | none => [(lo, hi)]

/-- One word of a block write reaches its object (R104, R105). -/
def storeWord (d : ObjDef) (i : Nat) (w : Word) (s : State) : State :=
  let v := w &&& tableMask d i
  match domainPlace d.id (d.cls == .rwb) with
  | some (m, base) => userWrite m (base + i) v s
  | none => if d.cls == .rwb then setShadow d.id i (el v.toNat) s else setE d.id i (el v.toNat) s

/-- Words of a block write reach their object from word i on. -/
def storeWords (d : ObjDef) (i : Nat) (ws : List Word) (s : State) : State :=
  let s := (ws.foldl (fun (x : Nat × State) w => (x.1 + 1, storeWord d x.1 w x.2)) (i, s)).2
  if d.id = Obj.nozzleTable && !ws.isEmpty then
    modNt (fun n => { n with hostDirty := addRange n.hostDirty i (i + ws.length) }) s
  else s

/-- RWI objects may be written only when no page is in progress (R12): a segment that comes then is refused. -/
def segmentBarred (t : Transfer) (s : State) : Bool :=
  match findObj t.obj with
  | some d => d.cls == .rwi && pageInProgress s
  | none => false

/-- A segment of a block write (R101, R103); the reply to the last one says so (R143). -/
def segmentWrite (h seq count : Nat) (ws : List Word) (t : Transfer) (s : State) : Reply × State :=
  let code := firstAbort [whenCode (decide (t.words.length + count > t.length)) 0x02,
    whenCode (decide (count < 1) || decide (count > 256) || ws.length != count) 0x05, whenCode (segmentBarred t s) 0x07,
    whenCode (seq % 65536 != t.nextSeq) 0x06]
  if code ≠ 0 then (badReply code, s)
  else
    let s := match findObj t.obj with
      | some d => storeWords d (t.offset + t.words.length) ws s
      | none => s
    ({ okReply [] with handle := h, last := decide (t.words.length + count = t.length) },
     setTransfer h (some { t with words := t.words ++ ws, nextSeq := (t.nextSeq + 1) % 65536 }) s)

/-- Word w of an open block read: what was captured at its opening, or the object's word now (R45, R107; for a write opened
meanwhile see notes/assumptions/123.md). -/
def transferWord (t : Transfer) (w : Nat) (s : State) : Word × State :=
  if t.captured.isEmpty then readWord t.obj t.shadow w s else (at? t.captured w 0, s)

/-- A segment of a block read (R102, R103, R107): the last one carries the CRC. -/
def segmentRead (h seq count : Nat) (t : Transfer) (s : State) : Reply × State :=
  let code := firstAbort [whenCode (decide (t.sent + count > t.length)) 0x02,
    whenCode (decide (count < 1) || decide (count > 256)) 0x05, whenCode t.switched 0x08, whenCode (seq % 65536 != t.nextSeq) 0x06]
  if code ≠ 0 then (badReply code, if code = 0x08 then setTransfer h none s else s)
  else
    let (ws, s) := (List.range count).foldl (fun x k =>
      let (w, s) := transferWord t (t.offset + t.sent + k) x.2
      (x.1 ++ [w], s)) ([], s)
    let last := decide (t.sent + count = t.length)
    let all := t.words ++ ws
    let s := setTransfer h (some { t with words := all, sent := t.sent + count, nextSeq := (t.nextSeq + 1) % 65536 }) s
    ({ abort := 0, handle := h, data := if last then ws ++ [wd (crc32 all)] else ws, last := last }, s)

/-- A segment (R101, R103). -/
def segmentDo (h seq count : Nat) (ws : List Word) (s : State) : Reply × State :=
  match transferOf s h with
  | none => (badReply 0x07, s)
  | some t => if t.write then segmentWrite h seq count ws t s else segmentRead h seq count t s

/-! What a close checks of the data (R258, R291, R299). -/

/-- The levels of a head rise from above 0 (R258). -/
def levelsOk (f : Nat → Word) (h : Nat) : Bool :=
  let l := unpack3 (f (3 * h)) ++ unpack3 (f (3 * h + 1)) ++ [fld (f (3 * h + 2)) 35 24]
  ((0 :: l).zip l).all (fun x => decide (x.1 < x.2))

/-- The weights of kernel k add to a number from 0 to 4,095 (R291). -/
def kernelOk (f : Nat → Word) (k : Nat) : Bool :=
  let ws := ((List.range 6).flatMap (fun j => unpack3 (f (6 * k + j)))).take 16
  let sum := ws.foldl (fun (n : Int) w => n + sgn 12 w) 0
  decide (0 ≤ sum) && decide (sum ≤ 4095)

/-- An enabled entry of HEAD_GEOM keeps the rules of R299. -/
def geomOk (f : Nat → Word) (h : Nat) : Bool :=
  let w0 := f (4 * h)
  let w1 := f (4 * h + 1)
  let w2 := f (4 * h + 2)
  let w3 := f (4 * h + 3)
  let first : Int := fld w0 16 0
  let last := first + stepOf (fld w0 34 33) * 3455
  !(bitOf w0 35) || (decide (0 ≤ first) && decide (first ≤ 110591) && decide (0 ≤ last) && decide (last ≤ 110591)
    && decide (fld w1 35 28 ≤ 192) && decide (fld w1 27 20 ≤ 192) && fld w0 30 17 == 0 && fld w1 19 0 == 0
    && decide (w2.toNat ≤ 29127) && decide (w3.toNat ≤ 4095))

/-- The check of an object's data at the close request: words as the object or its shadow would hold them. -/
def closeOk (id : Nat) (f : Nat → Word) : Bool :=
  if id = Obj.levels then (List.range 32).all (levelsOk f)
  else if id = Obj.compKernels then (List.range 16).all (kernelOk f)
  else if id = Obj.headGeom then (List.range 32).all (geomOk f)
  else true

/-- HEAD_GEOM is valid anew (R313, R314): the demand is published, and above the capacity raises EV 09.001. -/
def geomFollow (s : State) : State :=
  let n := ldsDemand s
  let s := setN Obj.ldsDemand 0 n s
  if n > 29127 then raise 0x09001 [wd n] s else s

/-- A block write has closed with its data in order (R104, R105). -/
def blockValid (d : ObjDef) (s : State) : State :=
  if d.cls == .rwb then { s with dict := { s.dict with badShadow := s.dict.badShadow.filter (fun o => o != d.id) } }
  else
    let s := { s with dict := { s.dict with badObj := s.dict.badObj.filter (fun o => o != d.id) } }
    if d.id = Obj.headGeom then geomFollow s else s

/-- The end of a block write whose words have all come: its code, and the state (R101, R104, R105, R258). -/
def blockEnd (t : Transfer) (crc : Nat) (s : State) : Nat × State :=
  if crc32 t.words ≠ crc then (0x0D, s)
  else match findObj t.obj with
    | none => (0, s)
    | some d =>
      let f := fun (i : Nat) => if d.cls == .rwb then elemLo (getShadow s d.id i) else getW s d.id i
      if closeOk d.id f then (0, blockValid d s) else (0x06, s)

/-- A close request (R101). -/
def closeDo (h crc : Nat) (s : State) : Reply × State :=
  match transferOf s h with
  | none => (badReply 0x07, s)
  | some t =>
    if !t.write then ({ okReply [] with handle := h }, setTransfer h none s)
    else if t.words.length < t.length then (badReply 0x05, s)
    else
      let r := blockEnd t crc (setTransfer h none s)
      ({ badReply r.1 with handle := h }, r.2)

end Sys2Proof.Machine
end

