-- ==== Sys2Proof/Machine/Access.lean ====
section
/-! DEFINITION. Access records (R143, R144), where an access goes (R108 to R110), and how its reply comes back to what
asked for it: a command of the queue, or a record of a host datagram (R145). -/

set_option Elab.async false

namespace Sys2Proof.Machine

open Sys2Proof

/-- An access record (R143). -/
structure Req where
  op : Nat
  shadow : Bool
  slot : Nat
  handle : Nat
  tag : Nat
  obj : Nat
  index : Nat
  count : Nat
  data : List Word
deriving DecidableEq, Repr

/-- Words 0 to 3 of a record or of the reply to it, with operation code op and handle h (R143, R144). -/
def recordHead (op h index : Nat) (q : Req) : List Word :=
  [wd (op % 16 * 2 ^ 32 + b2n q.shadow * 2 ^ 31 + q.slot % 128 * 2 ^ 24 + h % 4 * 2 ^ 22 + q.tag % 65536),
   wd (q.obj % 2 ^ 20), wd index, wd q.count]

/-- The words of a request record (R143). -/
def reqWords (q : Req) : List Word := recordHead q.op q.handle q.index q ++ q.data

/-- The words of the reply to a record (R144). -/
def replyWords (q : Req) (r : Reply) : List Word :=
  if r.abort ≠ 0 then recordHead 9 q.handle q.index q ++ [wd r.abort]
  else
    recordHead 8 (if q.op = 2 ∨ q.op = 3 then r.handle else q.handle)
      (if q.op = 4 then q.index % 65536 + b2n r.last * 2 ^ 35 else q.index) q ++ r.data

/-- Words of one element of an object; an object that is not defined has none, and its elements count as one word. -/
def wordsOfObj (id : Nat) : Nat :=
  match findObj id with
  | some d => d.wordsPer
  | none => 1

/-- Data words that a request record carries (R145): `seg` tells the block writes that are open, by slot and handle. -/
def dataWords (seg : Nat → Nat → Bool) (op slot handle obj count : Nat) : Nat :=
  if op = 1 then count * wordsOfObj obj
  else if op = 4 ∧ seg slot handle then count
  else 0

/-- The first record of a list of words, and the words after it: none where the operation is not 0 to 5 or the words
end too soon (R145). -/
def parseRecord (seg : Nat → Nat → Bool) : List Word → Option (Req × List Word)
  | w0 :: w1 :: w2 :: w3 :: rest =>
    let op := fld w0 35 32
    let slot := fld w0 30 24
    let handle := fld w0 23 22
    let obj := fld w1 19 0
    let n := dataWords seg op slot handle obj w3.toNat
    if op > 5 ∨ rest.length < n then none
    else some ({ op := op, shadow := bitOf w0 31, slot := slot, handle := handle, tag := fld w0 15 0, obj := obj,
                 index := w2.toNat, count := w3.toNat, data := rest.take n }, rest.drop n)
  | _ => none

/-- A request is carried out at this device (R81, R101); an access that finds control processor RAM damaged restarts
the firmware (R465). -/
def localReq (q : Req) (s : State) : Reply × State :=
  let a : Access := { slot := q.slot, obj := q.obj, index := q.index, count := q.count, shadow := q.shadow }
  let r := match q.op with
    | 0 => plainRead a s
    | 1 => plainWrite a q.data s
    | 2 => openBlock false a s
    | 3 => openBlock true a s
    | 4 => segmentDo q.handle q.index q.count q.data s
    | 5 => closeDo q.handle (q.index % 2 ^ 32) s
    | _ => (badReply 0x05, s)
  (r.1, codeCheck r.2)

/-! Where an access goes. -/

/-- The ways of an access (R108, R109): carried out here, at every device, on the ring, or refused. -/
inductive Route where
  | here
  | all
  | ring
  | absent
deriving DecidableEq, Repr

/-- The way of an access to a slot (R108, R109). -/
def routeOf (slot : Nat) (s : State) : Route :=
  if role s = 2 then .here
  else if slot = 0 then .here
  else if slot = 64 then .all
  else if role s = 1 ∧ slot < 64 ∧ nbit s.ring.joined.toNat slot ∧ ¬ (nbit s.ring.bypassed.toNat slot) then .ring
  else .absent

/-- The owner of an access: source, port, SEQ and record number of the datagram that carries it. -/
abbrev Owner := Option (BitVec 32 × Nat × Nat × Nat)

/-- The access waits for its turn on the ring with the next TAG (R129, R130; notes/assumptions/124.md). -/
def ringAsk (owner : Owner) (bcast : Option Nat) (slot : Nat) (q : Req) (s : State) : State :=
  { s with ring := { s.ring with
      nextTag := s.ring.nextTag + 1
      accesses := s.ring.accesses ++ [{ tag := s.ring.nextTag, slot := slot, record := reqWords q, sends := 0, toSend := true,
                                        sentAt := none, owner := owner, bcast := bcast }] } }

/-- Slot 64 takes a plain write of a scalar object only (R110): the code that refuses anything else, first in the order of
R111. A segment and a close name no object. -/
def broadcastAbort (q : Req) : Nat :=
  if q.op = 4 ∨ q.op = 5 then 0x05 else
  match findObj q.obj with
  | none => 0x01
  | some d =>
    if q.op = 1 ∧ ¬ d.isArray ∧ ¬ d.isBulk then 0
    else firstAbort (0x05 :: (if q.op = 0 ∨ q.op = 1 then plainAborts d (q.op == 1) q.index q.count
      else openAborts d (q.op == 3) q.index q.count))

/-- The result of a write to slot 64 (R110, R144): the mask and the abort of the lowest slot that refused. -/
def broadcastReply (b : Bcast) : Reply :=
  let low := b.refused.foldl (fun (m : Option (Nat × Nat)) x => match m with
    | none => some x
    | some y => if x.1 < y.1 then some x else some y) none
  okReply [wd (b.mask.toNat / 2 ^ 36), wd b.mask.toNat, wd ((low.map (fun x => x.2)).getD 0)]

/-- Slots that a write to slot 64 goes to over the ring: every device present. -/
def presentSlots (s : State) : List Nat :=
  if role s = 1 then (List.range 64).filter (fun k => k != 0 && nbit s.ring.joined.toNat k && !(nbit s.ring.bypassed.toNat k))
  else []

/-- A slot has answered its part of a write to slot 64, with code 0 where it accepted. -/
def bcastNote (slot code : Nat) (b : Bcast) : Bcast :=
  { b with mask := if code = 0 then b.mask ||| BitVec.ofNat 64 (2 ^ slot) else b.mask
           refused := if code = 0 then b.refused else b.refused ++ [(slot, code)]
           left := b.left.filter (fun k => k != slot) }

/-- A write to slot 64 (R110): here at once, and to every device present; its result where none is left to answer. -/
def broadcastDo (owner : Owner) (q : Req) (s : State) : Option Reply × State :=
  let code := broadcastAbort q
  if code ≠ 0 then (some (badReply code), s)
  else
    let slots := presentSlots s
    let (r, s) := localReq q s
    let b := bcastNote 0 r.abort { id := s.ring.nextBcast, owner := owner, mask := 0, refused := [], left := slots }
    if slots.isEmpty then (some (broadcastReply b), s)
    else
      let s := { s with ring := { s.ring with bcasts := s.ring.bcasts ++ [b], nextBcast := s.ring.nextBcast + 1 } }
      (none, forEach slots (fun k s => ringAsk none (some b.id) k q s) s)

/-- An access begins (R108 to R110): its reply, where it has one at once. -/
def startAccess (owner : Owner) (q : Req) (s : State) : Option Reply × State :=
  match routeOf q.slot s with
  | .here =>
    let r := localReq q s
    (some r.1, r.2)
  | .all => broadcastDo owner q s
  | .ring => (none, ringAsk owner none q.slot q s)
  | .absent => (some (badReply 0x09), s)

/-! Replies. -/

/-- The address in 02.010 HOST_IP, and the UDP port in 02.011 HOST_UDP_PORT: those in force (R141). -/
def hostIp (s : State) : BitVec 32 :=
  match s.host.oldAddr with
  | some (_, _, _, ip, _) => ip
  | none => BitVec.ofNat 32 (fld (getW s Obj.hostIp 0) 31 0)
def hostPort (s : State) : Nat :=
  match s.host.oldAddr with
  | some (_, _, _, _, port) => port
  | none => getN s Obj.hostUdpPort 0

/-- The 5 bytes of a word in a datagram (R142), and the bytes of a datagram. -/
def wordBytes (w : Word) : List Byte := (List.range 5).map (fun k => BitVec.ofNat 8 (w.toNat / 256 ^ (4 - k)))
def datagramBytes (ws : List Word) : List Byte := ws.flatMap wordBytes

/-- The 16-bit words of a run of bytes, the last padded with zeros. -/
def halfWords : List Byte → List Nat
  | a :: b :: rest => (a.toNat * 256 + b.toNat) :: halfWords rest
  | [a] => [a.toNat * 256]
  | [] => []

/-- The checksum of a UDP datagram (R141), as RFC 768 forms it (PRESUMED: notes/assumptions/126.md): the one's complement of
the one's complement sum over the addresses, the protocol, the length, the ports and the payload; 0 is sent as all ones. -/
def udpChecksum (src dst : BitVec 32) (sport dport : Nat) (payload : List Byte) : Nat :=
  let len := 8 + payload.length
  let sum := ([src.toNat / 65536, src.toNat % 65536, dst.toNat / 65536, dst.toNat % 65536, 17, len, sport, dport, len]
    ++ halfWords payload).sum
  let folded := if sum % 65535 = 0 ∧ sum ≠ 0 then 65535 else sum % 65535
  if folded = 65535 then 65535 else 65535 - folded

/-- The checksum of a datagram of words to the host. -/
def replyCheck (dst : BitVec 32) (port : Nat) (ws : List Word) (s : State) : Nat :=
  udpChecksum (hostIp s) dst (hostPort s) port (datagramBytes ws)

/-- A datagram of words to the host (R141, R142): header, records, CRC. -/
def sendDatagram (dst : BitVec 32) (port : Nat) (header : Word) (recs : List Word) (s : State) : State :=
  let ws := header :: recs ++ [wd (crc32 (header :: recs))]
  emit (.datagram dst port ws (replyCheck dst port ws s)) s

/-- Header word of a reply datagram (R142): the flags by their bit numbers. -/
def replyHeader (seq records : Nat) (flags : List Nat) : Word :=
  wd (2 ^ 28 + 2 ^ 27 + (flags.map (fun b => 2 ^ b)).sum + records % 64 * 2 ^ 16 + seq % 65536)

/-- The reply to a write of 02.010 or 02.011 has left with a datagram: the new values are in force (R141). -/
def addrFollow (d : Datagram) (s : State) : State :=
  match s.host.oldAddr with
  | some (src, port, seq, _, _) =>
    if src == d.src && port == d.port && seq == d.seq then { s with host := { s.host with oldAddr := none } } else s
  | none => s

/-- Every record of a datagram has its reply: the reply datagram leaves (R145). -/
def datagramDone (d : Datagram) (s : State) : State :=
  addrFollow d
    (sendDatagram d.src d.port (replyHeader d.seq d.replies.length []) ((d.replies.map (fun r => r.getD [])).flatten) s)

/-- A record of a datagram has its reply (R145). -/
def fillRecord (src : BitVec 32) (port seq n : Nat) (ws : List Word) (s : State) : State :=
  let mine := fun (d : Datagram) => d.src == src && d.port == port && d.seq == seq && !d.done
  match s.host.datagrams.find? mine with
  | none => s
  | some d =>
    let d := { d with replies := setAt d.replies n (some ws) }
    let d := { d with done := d.replies.all (fun r => r.isSome) }
    let s := { s with host := { s.host with
      datagrams := s.host.datagrams.map (fun x => if mine x then d else x) } }
    if d.done then datagramDone d s else s

/-- The words of a reply record reach what asked (R111, R144, R145): a command of the queue gets the abort code and the
data, where an open request's data is its handle. -/
def deliver (owner : Owner) (op : Nat) (ws : List Word) (s : State) : State :=
  match owner with
  | some (src, port, seq, n) => fillRecord src port seq n ws s
  | none =>
    if fld (at? ws 0 0) 35 32 = 9 then emit (.reply (fld (at? ws 4 0) 7 0) []) s
    else if op = 2 ∨ op = 3 then emit (.reply 0 [wd (fld (at? ws 0 0) 23 22)]) s
    else emit (.reply 0 (ws.drop 4)) s

/-- An access of a command of the queue: its reply leaves at once, or when the ring brings it. -/
def access (q : Req) (s : State) : State :=
  match startAccess none q s with
  | (some r, s) => deliver none q.op (replyWords q r) s
  | (none, s) => s

/-- The request of an access named by a command. -/
def reqOf (op : Nat) (a : Access) (data : List Word) : Req :=
  { op := op, shadow := a.shadow, slot := a.slot, handle := 0, tag := 0, obj := a.obj, index := a.index, count := a.count,
    data := data }

/-- A plain write of one element of this device, by a command that stands for it. -/
def writeOne (obj index : Nat) (vals : List Word) (s : State) : State :=
  let q : Req := { op := 1, shadow := false, slot := 0, handle := 0, tag := 0, obj := obj, index := index, count := 1, data := vals }
  let r := localReq q s
  deliver none 1 (replyWords q r.1) r.2

/-! The commands of R81 to R110. -/

/-- READ (R83). -/
def execReadObj (t : Nat) (a : Access) (s : State) : Host.Outcome State Fault Refusal := happen t (access (reqOf 0 a [])) s

/-- WRITE_OBJECT (R83). -/
def execWriteObject (t : Nat) (a : Access) (vals : List Word) (s : State) : Host.Outcome State Fault Refusal :=
  happen t (access (reqOf 1 a vals)) s

/-- OPEN_READ (R101). -/
def execOpenRead (t : Nat) (a : Access) (s : State) : Host.Outcome State Fault Refusal := happen t (access (reqOf 2 a [])) s

/-- OPEN_WRITE (R101). -/
def execOpenWrite (t : Nat) (a : Access) (s : State) : Host.Outcome State Fault Refusal := happen t (access (reqOf 3 a [])) s

/-- SEGMENT (R103), of a transfer at this device. -/
def execSegment (t : Nat) (handle : Fin 4) (seq count : Nat) (words : List Word) (s : State) : Host.Outcome State Fault Refusal :=
  happen t (access { op := 4, shadow := false, slot := 0, handle := handle.val, tag := 0, obj := 0, index := seq, count := count,
                     data := words }) s

/-- CLOSE (R101), of a transfer at this device. -/
def execCloseTransfer (t : Nat) (handle : Fin 4) (crc : BitVec 32) (s : State) : Host.Outcome State Fault Refusal :=
  happen t (access { op := 5, shadow := false, slot := 0, handle := handle.val, tag := 0, obj := 0, index := crc.toNat, count := 0,
                     data := [] }) s

/-- TRANSFER_TIMEOUT (R103, R104): a transfer is abandoned; what a block write made invalid stays so. -/
def execTransferTimeout (t : Nat) (handle : Fin 4) (s : State) : Host.Outcome State Fault Refusal :=
  happen t (setTransfer handle.val none) s

/-- BROADCAST_WRITE (R110): a plain write to slot 64, whatever slot its access names. -/
def execBroadcastWrite (t : Nat) (a : Access) (vals : List Word) (s : State) : Host.Outcome State Fault Refusal :=
  happen t (access (reqOf 1 { a with slot := 64 } vals)) s

end Sys2Proof.Machine
end

