-- ==== Sys2Proof/Machine/Commands.lean ====
section
/-! DEFINITION. The commands that stand for one plain write of a particular object at this device, and the control
cycle of the event queue. Each write passes the checks of R82 to R84 and of its object, and its reply leaves. -/

namespace Sys2Proof.Machine

open Sys2Proof

/-- A plain write of an element with one bit of its value in force set or cleared. -/
def writeBit (obj index bit : Nat) (on : Bool) (s : State) : State :=
  writeOne obj index [setBit (getW s obj index) bit on] s

/-- CONTROL_CYCLE (R501): the events raised in the cycle cross to the control domain (R36) and enter the queue; acknowledgements have taken effect. -/
def execControlCycle (t : Nat) (s : State) : Host.Outcome State Fault Refusal := 
  happen t (fun s => queueRaised (xingCount 15 s.ev.raised.length s)) s

/-- SEASON_REQ_WINTER (R65). -/
def execSeasonReqWinter (t : Nat) (s : State) : Host.Outcome State Fault Refusal := happen t (writeOne Obj.seasonReq 0 [0]) s

/-- SEASON_REQ_HOLD (R65). -/
def execSeasonReqHold (t : Nat) (s : State) : Host.Outcome State Fault Refusal := happen t (writeOne Obj.seasonReq 0 [1]) s

/-- SEASON_REQ_SUMMER (R65). -/
def execSeasonReqSummer (t : Nat) (s : State) : Host.Outcome State Fault Refusal := happen t (writeOne Obj.seasonReq 0 [2]) s

/-- SEASON_REQ_RESTART (R65). -/
def execSeasonReqRestart (t : Nat) (s : State) : Host.Outcome State Fault Refusal :=
  happen t (writeOne Obj.seasonReq 0 [3]) s

/-- 01.003 FUNC_RESET as it reads: bit 25 always reads 0 (R75). -/
def heldNow (s : State) : Word := setBit (getW s Obj.funcReset 0) 25 false

/-- A plain write of 01.003 FUNC_RESET with one bit of what it reads set or cleared. -/
def writeHeld (bit : Nat) (on : Bool) (s : State) : State := writeOne Obj.funcReset 0 [setBit (heldNow s) bit on] s

/-- FUNC_RESET_HOLD (R73): one bit more in 01.003. -/
def execFuncResetHold (t : Nat) (bit : Fin 36) (s : State) : Host.Outcome State Fault Refusal :=
  happen t (writeHeld bit.val true) s

/-- FUNC_RESET_RELEASE (R73): one bit less in 01.003. -/
def execFuncResetRelease (t : Nat) (bit : Fin 36) (s : State) : Host.Outcome State Fault Refusal :=
  happen t (writeHeld bit.val false) s

/-- FUNC_RESET_RESTART (R75). -/
def execFuncResetRestart (t : Nat) (s : State) : Host.Outcome State Fault Refusal :=
  happen t (writeHeld 25 true) s

/-- SAVE (R88). -/
def execSaveReq (t : Nat) (s : State) : Host.Outcome State Fault Refusal := happen t (writeOne Obj.save 0 [1]) s

/-- COMMIT_PAGE (R93). -/
def execCommitPage (t : Nat) (page : Word) (s : State) : Host.Outcome State Fault Refusal :=
  happen t (writeOne Obj.commitPage 0 [page]) s

/-- COMMIT_CANCEL (R98). -/
def execCommitCancel (t : Nat) (page : Word) (s : State) : Host.Outcome State Fault Refusal :=
  happen t (writeOne Obj.commitCancel 0 [page]) s

/-- COMMIT_NOW (R99). -/
def execCommitNow (t : Nat) (s : State) : Host.Outcome State Fault Refusal := happen t (writeOne Obj.commitNow 0 [1]) s

/-- EVENT_ACK (R115). -/
def execEventAck (t : Nat) (seq : Word) (s : State) : Host.Outcome State Fault Refusal :=
  happen t (writeOne Obj.eventAck 0 [seq]) s

/-- TIME_RESYNC (R159). -/
def execTimeResync (t : Nat) (s : State) : Host.Outcome State Fault Refusal := happen t (writeOne Obj.timeResync 0 [1]) s

/-- TIME_NOW_WRITE (R159). -/
def execTimeNowWrite (t : Nat) (w0 w1 : Word) (s : State) : Host.Outcome State Fault Refusal :=
  happen t (writeOne Obj.timeNow 0 [w0, w1]) s

/-- TRIG_ENABLE (R167): ENABLE 1 beside the unit's other fields. -/
def execTrigEnable (t : Nat) (unit : Fin 16) (s : State) : Host.Outcome State Fault Refusal :=
  happen t (writeBit Obj.trig unit.val 35 true) s

/-- INJECT_SINGLE (R193). -/
def execInjectSingle (t : Nat) (lane : LaneIx) (s : State) : Host.Outcome State Fault Refusal :=
  happen t (writeBit Obj.laneTest lane.val 28 true) s

/-- INJECT_BURST (R193). -/
def execInjectBurst (t : Nat) (lane : LaneIx) (s : State) : Host.Outcome State Fault Refusal :=
  happen t (writeBit Obj.laneTest lane.val 27 true) s

/-- LANE_PRBS_MODE (R190): PRBS, PATTERN and INVERT of 04.1C0. -/
def execLanePrbsMode (t : Nat) (lane : LaneIx) (prbs pattern : Fin 4) (invert : Bool) (s : State) : Host.Outcome State Fault Refusal :=
  happen t (fun s =>
    writeOne Obj.laneTest lane.val
      [setBit (setFld (setFld (getW s Obj.laneTest lane.val) 35 34 prbs.val) 31 30 pattern.val) 29 invert] s) s

/-- LANE_LOOPBACK (R194): LOOP of 04.1C0. -/
def execLaneLoopback (t : Nat) (lane : LaneIx) (loop : Fin 4) (s : State) : Host.Outcome State Fault Refusal :=
  happen t (fun s =>
    writeOne Obj.laneTest lane.val [setFld (getW s Obj.laneTest lane.val) 33 32 loop.val] s) s

/-- LANE_ENABLE (R177). -/
def execLaneEnable (t : Nat) (lane : LaneIx) (s : State) : Host.Outcome State Fault Refusal :=
  happen t (writeBit Obj.laneCfg lane.val 35 true) s

/-- LANE_DISABLE (R195). -/
def execLaneDisable (t : Nat) (lane : LaneIx) (s : State) : Host.Outcome State Fault Refusal :=
  happen t (writeBit Obj.laneCfg lane.val 35 false) s

/-- BOND_CFG_WRITE (R532). -/
def execBondCfgWrite (t : Nat) (v : Word) (s : State) : Host.Outcome State Fault Refusal :=
  happen t (writeOne Obj.bondCfg 0 [v]) s

/-- NT_COMMIT_PAGE (R283). -/
def execNtCommitPage (t : Nat) (page : Nat) (s : State) : Host.Outcome State Fault Refusal :=
  happen t (writeOne Obj.ntCommit 0 [wd (page % 2 ^ 24)]) s

/-- NT_COMMIT_NOW (R283). -/
def execNtCommitNow (t : Nat) (s : State) : Host.Outcome State Fault Refusal :=
  happen t (writeOne Obj.ntCommit 0 [wd (2 ^ 35)]) s

/-- NT_COMMIT_CANCEL (R283). -/
def execNtCommitCancel (t : Nat) (page : Nat) (s : State) : Host.Outcome State Fault Refusal :=
  happen t (writeOne Obj.ntCommit 0 [wd (2 ^ 34 + page % 2 ^ 24)]) s

/-- NT_APPROVE (R286). -/
def execNtApprove (t : Nat) (gen : Nat) (s : State) : Host.Outcome State Fault Refusal :=
  happen t (writeOne Obj.ntApprove 0 [wd (gen % 2 ^ 12)]) s

/-- NT_REJECT (R286). -/
def execNtReject (t : Nat) (gen : Nat) (s : State) : Host.Outcome State Fault Refusal :=
  happen t (writeOne Obj.ntApprove 0 [wd (2 ^ 35 + gen % 2 ^ 12)]) s

/-- FIRE_ENABLE_ARM (R304). -/
def execFireEnableArm (t : Nat) (s : State) : Host.Outcome State Fault Refusal := happen t (writeOne Obj.fireEnable 0 [1]) s

/-- FIRE_ENABLE_DISARM (R304). -/
def execFireEnableDisarm (t : Nat) (s : State) : Host.Outcome State Fault Refusal :=
  happen t (writeOne Obj.fireEnable 0 [0]) s

/-- BOOK_CLEAR (R321). -/
def execBookClear (t : Nat) (s : State) : Host.Outcome State Fault Refusal := happen t (writeOne Obj.bookClear 0 [1]) s

/-- PAGE_ABORT (R342). -/
def execPageAbort (t : Nat) (s : State) : Host.Outcome State Fault Refusal := happen t (writeOne Obj.pageAbort 0 [1]) s

/-- REG_READ (R375). -/
def execRegRead (t : Nat) (head : Head) (addr : Nat) (s : State) : Host.Outcome State Fault Refusal :=
  happen t (writeOne Obj.regSel head.val [wd (2 ^ 35 + addr % 2 ^ 16)]) s

/-- REG_WRITE (R375). -/
def execRegWrite (t : Nat) (head : Head) (addr : Nat) (s : State) : Host.Outcome State Fault Refusal :=
  happen t (writeOne Obj.regSel head.val [wd (2 ^ 35 + 2 ^ 34 + addr % 2 ^ 16)]) s

/-- POS_SOURCE_WRITE (R376). -/
def execPosSourceWrite (t : Nat) (v : Word) (s : State) : Host.Outcome State Fault Refusal :=
  happen t (writeOne Obj.posSource 0 [v]) s

/-- POS_PRESET (R388). -/
def execPosPreset (t : Nat) (w0 w1 : Word) (s : State) : Host.Outcome State Fault Refusal :=
  happen t (writeOne Obj.posPreset 0 [w0, w1]) s

/-- CMP_ARM (R389). -/
def execCmpArm (t : Nat) (unit : Fin 8) (v : Word) (s : State) : Host.Outcome State Fault Refusal :=
  happen t (writeOne Obj.cmp unit.val [v]) s

/-- HARE_RUN (R394): RUN and START_TRIG of 0D.000. -/
def execHareRun (t : Nat) (run startTrig : Bool) (s : State) : Host.Outcome State Fault Refusal :=
  happen t (writeOne Obj.hareCtrl 0 [wd (b2n run * 2 ^ 35 + b2n startTrig * 2 ^ 34)]) s

/-- AX_TARGET_WRITE (R396). -/
def execAxTargetWrite (t : Nat) (axis : Axis) (v : Word) (s : State) : Host.Outcome State Fault Refusal :=
  happen t (writeOne Obj.axTarget axis.val [v]) s

/-- AX_DECEL_WRITE (R397). -/
def execAxDecelWrite (t : Nat) (axis : Axis) (v : Word) (s : State) : Host.Outcome State Fault Refusal :=
  happen t (writeOne Obj.axDecel axis.val [v]) s

/-- AX_STOP (R397): STOP beside the axis's other fields. -/
def execAxStop (t : Nat) (axis : Axis) (s : State) : Host.Outcome State Fault Refusal :=
  happen t (writeBit Obj.axCtrl axis.val 32 true) s

/-- AUX_FAULT_CLEAR (R401). -/
def execAuxFaultClear (t : Nat) (s : State) : Host.Outcome State Fault Refusal :=
  happen t (writeOne Obj.auxState 0 [wd (2 ^ 35)]) s

/-- SYNC_REQ (R408). -/
def execSyncReq (t : Nat) (mask : Word) (s : State) : Host.Outcome State Fault Refusal :=
  happen t (writeOne Obj.syncReq 0 [mask]) s

/-- EXP_COMMIT (R421). -/
def execExpCommit (t : Nat) (mask : Word) (s : State) : Host.Outcome State Fault Refusal :=
  happen t (writeOne Obj.expCommit 0 [mask]) s

/-- DISP_ACK (R419). -/
def execDispAck (t : Nat) (seq : Word) (s : State) : Host.Outcome State Fault Refusal :=
  happen t (writeOne Obj.dispAck 0 [seq]) s

/-- CAL_REQ (R438). -/
def execCalReq (t : Nat) (v : Word) (s : State) : Host.Outcome State Fault Refusal := happen t (writeOne Obj.calReq 0 [v]) s

/-- MEMORY_CLEAR (R458). -/
def execMemoryClear (t : Nat) (mask : Word) (s : State) : Host.Outcome State Fault Refusal :=
  happen t (writeOne Obj.clear 0 [mask]) s

/-- HPC_REQUEST_ON (R472). -/
def execHpcRequestOn (t : Nat) (ch : Head) (s : State) : Host.Outcome State Fault Refusal :=
  happen t (writeBit Obj.hpcEnable 0 ch.val true) s

/-- HPC_REQUEST_OFF (R472). -/
def execHpcRequestOff (t : Nat) (ch : Head) (s : State) : Host.Outcome State Fault Refusal :=
  happen t (writeBit Obj.hpcEnable 0 ch.val false) s

/-- HPC_UNLATCH (R483). -/
def execHpcUnlatch (t : Nat) (mask : Word) (s : State) : Host.Outcome State Fault Refusal :=
  happen t (writeOne Obj.hpcUnlatch 0 [mask]) s

end Sys2Proof.Machine
end

