-- ==== Sys2Proof/Machine/Flash.lean ====
section
/-! DEFINITION. What the flash brings at an entry to Thaw: the copies in use, the persistent objects and their checks,
the Nozzle Table (R61, R64, R76, R77, R443, R464, R530, R533, R534). -/

namespace Sys2Proof.Machine

open Sys2Proof

/-- A copy with sequence number a is newer than one with b (R77). -/
def newerSeq (a b : Nat) : Bool :=
  let d := (a + 65536 - b % 65536) % 65536
  decide (1 ≤ d) && decide (d ≤ 2 ^ 15 - 1)

/-- The copy of a region that bring-up uses (R77): false for the first. -/
def chooseCopy (r : FlashRegion) : Option Bool :=
  if r.copy0.valid && r.copy1.valid then some (newerSeq r.copy1.seq r.copy0.seq)
  else if r.copy0.valid then some false
  else if r.copy1.valid then some true
  else none

/-- A region with its copy chosen, or with none where the flash does not answer. -/
def chooseRegion (answers : Bool) (r : FlashRegion) : FlashRegion :=
  { r with inUse := if answers then chooseCopy r else none }

/-- The objects that a bring-up restores from images: with the P flag, and the calibration tables (R443). 08.000 is
loaded on its own (R77), 11.020 is applied on its own (R464), and 01.001 follows R533. -/
def restorable (id : Nat) : Bool :=
  isSaved id && id != Obj.nozzleTable && id != Obj.repairMap && id != Obj.seasonReq

/-- Values of an image as raw elements, before any check: active and shadow copies alike. -/
def imageSet (p : Nat × Elem) (s : State) : State :=
  let id := p.1 / 2097152
  let i := p.1 % 2097152
  match findObj id with
  | none => s
  | some d => setShadow id i (maskElem d p.2) (setE id i (maskElem d p.2) s)

/-- The device as the whole image would leave it: each object is checked against the other restored values. -/
def restoreCandidate (img : Store) (s : State) : State :=
  let s := forEach img imageSet s
  forEach [0, 1] (fun e s => encEnable e (bitOf (getW s Obj.encCfg e) 35) s) s

/-- A restored object passes the check of R534: as a write of its values, or as the close of a block write. -/
def restoreOk (img : Store) (cand : State) (id : Nat) : Bool :=
  match findObj id with
  | none => false
  | some d =>
    let mine := objEntries img id
    mine.all (fun p => decide (p.1 % 2097152 < d.count)) &&
      (if d.isBulk then closeOk id (fun i => getW cand id i)
       else mine.all (fun p => firstAbort (elemAborts d (p.1 % 2097152) p.2 cand) == 0))

/-- One restored element takes effect. -/
def restoreElem (p : Nat × Elem) (s : State) : State :=
  let id := p.1 / 2097152
  let i := p.1 % 2097152
  match findObj id with
  | none => s
  | some d =>
    let e := maskElem d p.2
    if d.isBulk then
      match domainPlace id false with
      | some (m, base) => putCell m (base + i) { data := elemLo e, upset := 0, valid := 3 }
          (if d.cls == .rwb then setShadow id i e s else s)
      | none => if d.cls == .rwb then setShadow id i e (setE id i e s) else setE id i e s
    else if d.cls == .rwb then setShadow id i e (setE id i e s)
    else if d.cls == .rw || d.cls == .rwi then elemApply { d with cls := .rw } i e s
    else setE id i e s

/-- The season request of the image (R533): a value written before the restore wins. -/
def restoreReq (img : Store) (s : State) : State :=
  if s.pwr.reqWritten then s else
  match lookupKey img (objKey Obj.seasonReq 0) with
  | none => s
  | some e =>
    if e = 1 ∨ e = 2 then setE Obj.seasonReq 0 e { s with pwr := { s.pwr with reqSaved := e.toNat } }
    else setBoot 23 23 1 s

/-- The repair map of the image (R464, R468). -/
def restoreRepairs (img : Store) : List Repair :=
  let word := fun (w : Nat) => ((lookupKey img (objKey Obj.repairMap w)).map elemLo).getD 0
  (List.range (min (fld (word 0) 10 0) 1024)).map (fun k =>
    let v := word (k + 1)
    { mem := fld v 35 33, macroIx := fld v 32 21, spare := fld v 20 19, row := fld v 18 12 })

/-- Groups and channels whose calibration the flash holds (R443), and the values they put in force (R436). -/
def calLoaded (s : State) : State :=
  modCal (fun c => { c with
    delayNow := Vector.ofFn (fun h => fld (getW s Obj.delayCal (h.val / 8)) 35 27)
    adcNow := Vector.ofFn (fun k => getW s Obj.adcCal k.val)
    groups := BitVec.ofNat 4 (packBits (fun g => fld (getW s Obj.delayCal g) 26 24 == 1) 4)
    channels := BitVec.ofNat 32 (packBits (fun k => fld (getW s Obj.adcCal k) 16 14 == 1) 32) }) s

/-- The objects an image holds, each once. -/
def imageObjs (img : Store) : List Nat := img.foldl (fun acc p => addOnce acc (p.1 / 2097152)) []

/-- The restore of R533 and R534. -/
def restoreDo (s : State) : State :=
  let persist := regionImage s.flash.persist
  let img := (overlay persist (regionImage s.flash.tables)).filter (fun p => restorable (p.1 / 2097152))
  let cand := restoreCandidate img s
  let bad := (imageObjs img).filter (fun o => !(restoreOk img cand o))
  let s := { s with repairs := restoreRepairs persist }
  let s := forEach (img.filter (fun p => !(bad.contains (p.1 / 2097152)))) restoreElem s
  let s := restoreReq persist (if bad.isEmpty then s else setBoot 23 23 1 s)
  let s := match s.flash.persist.inUse with
    | none => s
    | some c => setBoot 29 28 (2 + b2n c) (setBoot 15 0 (if c then s.flash.persist.copy1.seq else s.flash.persist.copy0.seq) s)
  geomFollow (calLoaded s)

/-- FLASH_DISCOVERED (R533): bit 24 and the restore, where this entry to Thaw reloads values (R529); a flash that does
not answer leaves the defaults (R77). -/
def flashDiscoveredDo (answers : Bool) (s : State) : State :=
  if !s.pwr.domains || bitOf s.pwr.up 24 then s else
  let f := s.flash
  let s := if s.pwr.kept then s else
    { s with flash := { f with patch := chooseRegion answers f.patch, persist := chooseRegion answers f.persist
                               tables := chooseRegion answers f.tables } }
  if !answers then setBoot 27 27 1 s
  else
    let s := if s.pwr.restored then s else restoreDo { s with pwr := { s.pwr with restored := true } }
    calReady (whenB (!(bitOf (getW s Obj.funcReset 0) 24)) (setUp 24 true) s)

/-- The load of the Nozzle Table ends (R61, R77): both copies hold what the flash holds, and the default elsewhere. A
host that has opened a write of the table has ended the load before (R64). -/
def ntLoadDoneDo (s : State) : State :=
  if !s.nt.loading then s else
  let img := regionImage s.flash.tables
  let s := loadImage 2 Obj.nozzleTable nozzleCount img (loadImage 2 Obj.nozzleTable 0 img s)
  let s := modMem 2 (fun u => { u with clearing := false }) (modNt (fun n => { n with loading := false }) s)
  ntCount (setUp 10 true s)

/-- FLASH_DISCOVERED (R533). -/
def execFlashDiscovered (t : Nat) (answers : Bool) (s : State) : Host.Outcome State Fault Refusal :=
  happen t (flashDiscoveredDo answers) s

/-- NT_LOAD_DONE (R77). -/
def execNtLoadDone (t : Nat) (s : State) : Host.Outcome State Fault Refusal := happen t ntLoadDoneDo s

end Sys2Proof.Machine
end

