-- ==== Sys2Proof/Machine/Mailbox.lean ====
section
/-! DEFINITION. The ring mailbox (R129 to R132): its segments, what the Master lays out, what a Member answers, and how
an access of the Master ends (R109, R110). -/

set_option Elab.async false

namespace Sys2Proof.Machine

open Sys2Proof

/-- A segment header (R129). -/
def segHeader (kind dest len tag : Nat) : Word :=
  let w := wd (kind % 16 * 2 ^ 32 + dest % 64 * 2 ^ 26 + len % 1024 * 2 ^ 16 + tag % 256 * 2 ^ 8)
  wd (w.toNat + crc8Hdr w)

/-- The header check passes (R129). -/
def segHeaderOk (w : Word) : Bool := crc8Hdr w == fld w 7 0

/-- A segment found in a mailbox: the place of its header, the header, its body. -/
structure Seg where
  place : Nat
  head : Word
  body : List Word
deriving DecidableEq, Repr

def Seg.kind (g : Seg) : Nat := fld g.head 35 32
def Seg.dest (g : Seg) : Nat := fld g.head 31 26
def Seg.tag (g : Seg) : Nat := fld g.head 15 8

/-- The segments of a mailbox, laid end to end; a header whose check fails, or one that reaches past the area, ends the
parsing (R129, R132). -/
def segments : Nat → Nat → List Word → List Seg
  | 0, _, _ => []
  | _, _, [] => []
  | n + 1, place, h :: rest =>
    let len := fld h 25 16
    if !(segHeaderOk h) || decide (len = 0) || decide (rest.length < len) then []
    else { place := place, head := h, body := rest.take len } :: segments n (place + 1 + len) (rest.drop len)

/-- A segment's words of a given size: the record, zero padding, and the CRC over the header and the record (R129). -/
def segWords (kind dest len tag : Nat) (record : List Word) : List Word :=
  let h := segHeader kind dest len tag
  h :: record ++ List.replicate (len - 1 - record.length) 0 ++ [wd (crc32 (h :: record))]

/-- A RESERVED or EMPTY segment: its body carries no check (R129). -/
def blankSeg (kind dest len tag : Nat) : List Word := segHeader kind dest len tag :: List.replicate len 0

/-- The CRC of a segment over its header and its record passes (R129). -/
def segCrcOk (head : Word) (record body : List Word) : Bool :=
  match body.getLast? with
  | some c => crc32 (head :: record) == fld c 31 0
  | none => false

/-! Replies and their lengths. -/

/-- The longest reply record that a request can produce (R130, R144, R145): an ABORT alone where its object or range is
refused. -/
def longestReply (q : Req) : Nat :=
  if q.slot = 64 ∧ q.op = 1 then 7
  else if q.op = 0 then (match findObj q.obj with
    | some d => if firstAbort (plainAborts d false q.index q.count) = 0 then max 5 (4 + q.count * d.wordsPer) else 5
    | none => 5)
  else if q.op = 4 ∧ q.data.isEmpty then 5 + q.count
  else 5

/-- The request that the Master has put on the ring, from its record. -/
def askedReq (record : List Word) : Req :=
  let w0 := at? record 0 0
  { op := fld w0 35 32, shadow := bitOf w0 31, slot := fld w0 30 24, handle := fld w0 23 22, tag := fld w0 15 0
    obj := fld (at? record 1 0) 19 0, index := (at? record 2 0).toNat, count := (at? record 3 0).toNat, data := record.drop 4 }

/-- Words of the reply record to a request (R144). -/
def replyLength (q : Req) (w0 w2 : Word) : Nat :=
  if fld w0 35 32 ≠ 8 then 5
  else if q.op = 0 then 4 + q.count * wordsOfObj q.obj
  else if q.op = 4 ∧ q.data.isEmpty then 4 + q.count + b2n (bitOf w2 35)
  else 4

/-! The Master's accesses. -/

/-- The ABORT record that answers an access for its device (R109, R132, R144). -/
def abortRecord (a : RingAccess) (code : Nat) : List Word := replyWords (askedReq a.record) (badReply code)

/-- The block writes known to be open at other slots follow the replies (R145). -/
def noteOpens (a : RingAccess) (reply : List Word) (s : State) : State :=
  let q := askedReq a.record
  let ok := fld (at? reply 0 0) 35 32 == 8
  let h := fld (at? reply 0 0) 23 22
  let code := fld (at? reply 4 0) 7 0
  let drop := fun (k : Nat) => s.host.opens.filter (fun x => x != (a.slot, k))
  let opens :=
    if q.op = 3 ∧ ok then drop h ++ [(a.slot, h)]
    else if q.op = 2 ∧ ok then drop h
    else if q.op = 5 ∧ (ok ∨ code = 0x0D ∨ code = 0x06 ∨ code = 0x07) then drop q.handle
    else if q.op = 4 ∧ !ok ∧ code = 0x07 then drop q.handle
    else s.host.opens
  { s with host := { s.host with opens := opens } }

/-- A slot has answered its part of a write to slot 64 (R110); with the last one the result leaves. -/
def bcastAnswer (id slot code : Nat) (record : List Word) (s : State) : State :=
  match s.ring.bcasts.find? (fun b => b.id == id) with
  | none => s
  | some b =>
    let b := bcastNote slot code b
    if b.left.isEmpty then
      deliver b.owner 1 (replyWords (askedReq record) (broadcastReply b))
        { s with ring := { s.ring with bcasts := s.ring.bcasts.filter (fun x => x.id != id) } }
    else { s with ring := { s.ring with bcasts := s.ring.bcasts.map (fun x => if x.id = id then b else x) } }

/-- An access of the Master ends with a reply record (R109, R132). -/
def accessEnd (a : RingAccess) (reply : List Word) (s : State) : State :=
  let s := { s with ring := { s.ring with accesses := s.ring.accesses.filter (fun x => x.tag != a.tag || x.slot != a.slot) } }
  let s := noteOpens a reply s
  match a.bcast with
  | some id => bcastAnswer id a.slot (if fld (at? reply 0 0) 35 32 = 8 then 0 else fld (at? reply 4 0) 7 0) a.record s
  | none => deliver a.owner (askedReq a.record).op reply s

/-- The outstanding access that a segment answers. -/
def answered (g : Seg) (s : State) : Option RingAccess :=
  s.ring.accesses.find? (fun a => a.tag % 256 == g.tag && a.slot == g.dest && (a.sentAt.isSome || decide (a.sends > 0)))

/-- An access changed. -/
def modAccess (a : RingAccess) (f : RingAccess → RingAccess) (s : State) : State :=
  { s with ring := { s.ring with accesses := s.ring.accesses.map (fun x => if x.tag = a.tag ∧ x.slot = a.slot then f x else x) } }

/-- EV 02.006 and its count at this device (R132, R147). -/
def mailboxBad (kind : Nat) (g : Seg) (s : State) : State :=
  raise 0x02006 [wd kind, wd g.dest, wd g.tag] (bump Obj.mbxCrcErrors 0 1 s)

/-- A segment from its words, header first. -/
def segOf (ws : List Word) : Option Seg :=
  match segments 1 0 ws with
  | g :: _ => some g
  | [] => none

/-- A REPLY reaches the Master (R132). -/
def replyArrived (g : Seg) (s : State) : State :=
  match answered g s with
  | none => s
  | some a =>
    let record := g.body.take (replyLength (askedReq a.record) (at? g.body 0 0) (at? g.body 2 0))
    if segCrcOk g.head record g.body then accessEnd a record s else mailboxBad 3 g s

/-- A NAK reaches the Master (R132): the request goes out at most twice more. Its own CRC is not looked at
(notes/assumptions/124.md). -/
def nakArrived (g : Seg) (s : State) : State :=
  match answered g s with
  | none => s
  | some a =>
    if a.sends ≥ 2 then accessEnd a (abortRecord a 0x0D) s
    else modAccess a (fun x => { x with sends := x.sends + 1, toSend := true, sentAt := none }) s

/-! What the Master lays out (R130). -/

/-- The segments that wait, in the order of R130: reservations, requests sent again, new requests, at most one access
outstanding per slot (R86). -/
def planned (acc : List RingAccess) : List (RingAccess × Bool) :=
  let out := acc.filter (fun a => a.sentAt.isSome)
  let again := acc.filter (fun a => a.toSend && (a.sentAt.isSome || decide (a.sends > 0)))
  let fresh := acc.filter (fun a => a.sentAt.isNone && a.sends == 0
    && (match acc.find? (fun x => x.slot == a.slot) with
      | some x => x.tag == a.tag
      | none => false))
  out.map (fun a => (a, true)) ++ again.map (fun a => (a, false)) ++ fresh.map (fun a => (a, false))

/-- The words of a planned segment: a reservation for the longest reply, or the request. -/
def plannedWords (x : RingAccess × Bool) : List Word :=
  let a := x.1
  if x.2 then blankSeg 2 a.slot (longestReply (askedReq a.record) + 1) a.tag
  else segWords 1 a.slot (a.record.length + 1) a.tag a.record

/-- The segments that fit in `room` words, up to the first one that does not, and the tags and slots of the requests
among them (R130). One word that is left over is zero (notes/assumptions/124.md). -/
def layOut : Nat → List (RingAccess × Bool) → List Word × List (Nat × Nat)
  | room, [] => (if room < 2 then List.replicate room 0 else blankSeg 0 0 (room - 1) 0, [])
  | room, x :: rest =>
    let ws := plannedWords x
    if ws.length ≤ room then
      let r := layOut (room - ws.length) rest
      (ws ++ r.1, if x.2 then r.2 else (x.1.tag, x.1.slot) :: r.2)
    else (if room < 2 then List.replicate room 0 else blankSeg 0 0 (room - 1) 0, [])

/-- The mailbox of a cycle (R130), and the accesses whose requests go out in it. -/
def mailboxOf (cycle : Nat) (s : State) : List Word × State :=
  let r := layOut 768 (planned s.ring.accesses)
  let went := fun (a : RingAccess) => r.2.contains (a.tag, a.slot)
  (r.1, { s with ring := { s.ring with accesses := s.ring.accesses.map (fun a =>
    if went a then { a with toSend := false, sentAt := some cycle } else a) } })

/-- A copy took requests with it that no device carried out: those of the slots that act on it go out again, but for the ones
that its mailbox still shows, by TAG and slot (R131, R132; notes/assumptions/68.md). -/
def resend (cycle : Nat) (copyB : Bool) (shown : List (Nat × Nat)) (s : State) : State :=
  { s with ring := { s.ring with accesses := s.ring.accesses.map (fun a =>
      if a.sentAt = some cycle ∧ nbit s.ring.map.toNat a.slot = copyB ∧ !(shown.contains (a.tag % 256, a.slot))
      then { a with toSend := true } else a) } }

/-- The requests that a mailbox shows up to the first header whose check fails (R132): by TAG and slot. -/
def shownRequests (box : List Word) : List (Nat × Nat) :=
  ((segments 768 0 box).filter (fun g => g.kind == 1)).map (fun g => (g.tag, g.dest))

/-! A Member. -/

/-- The block writes open at this device, as `parseRecord` asks for them. -/
def writesHere (s : State) (_slot handle : Nat) : Bool :=
  match transferOf s handle with
  | some t => t.write
  | none => false

/-- A REPLY to a request of this TAG is kept (R131). -/
def replyKept (tag : Nat) (s : State) : Bool :=
  match s.ring.kept with
  | some (t, k :: _) => t == tag && k == wd 3
  | _ => false

/-- A REQUEST at the Member it addresses (R131, R132): carried out once, its reply kept until another TAG comes; one whose
CRC fails is answered with a NAK, which carries the four words that stand for the access record
(notes/assumptions/124.md). The kept entry is TAG, then the kind and the record. -/
def requestArrived (g : Seg) (s : State) : State :=
  let all := g.body.dropLast
  let parsed := parseRecord (writesHere s) all
  let record := match parsed with
    | some r => all.take (all.length - r.2.length)
    | none => all
  if !(segCrcOk g.head record g.body) then
    mailboxBad 1 g (if replyKept g.tag s then s else { s with ring := { s.ring with kept := some (g.tag, wd 4 :: all.take 4) } })
  else if replyKept g.tag s then s
  else
    match parsed with
    | none =>
      { s with ring := { s.ring with
          kept := some (g.tag, wd 3 :: replyWords (askedReq (all.take 4)) (badReply 0x05)) } }
    | some (q, _) =>
      let (r, s) := localReq q s
      { s with ring := { s.ring with kept := some (g.tag, wd 3 :: replyWords q r) } }

/-- The first reservation of a Member's TAG, filled with its kept reply (R131). -/
def fillReserved (slot : Nat) (s : State) (box : List Word) : List Word :=
  match s.ring.kept with
  | some (tag, kind :: record) =>
    match (segments 768 0 box).find? (fun g => g.kind == 2 && g.dest == slot && g.tag == tag) with
    | some g =>
      if record.length + 1 ≤ g.body.length then
        box.take g.place ++ segWords kind.toNat slot g.body.length tag record ++ box.drop (g.place + 1 + g.body.length)
      else box
    | none => box
  | _ => box

/-- MAILBOX_REQUEST (R131): a request addressed to this Member. -/
def execMailboxRequest (t : Nat) (seg : List Word) (s : State) : Host.Outcome State Fault Refusal :=
  happen t (fun s => match segOf seg, heldSlot s with
    | some g, some k => if role s = 2 ∧ g.kind = 1 ∧ g.dest = k then requestArrived g s else s
    | _, _ => s) s

/-- MAILBOX_REPLY (R132). -/
def execMailboxReply (t : Nat) (seg : List Word) (s : State) : Host.Outcome State Fault Refusal :=
  happen t (fun s => match segOf seg with
    | some g => if role s = 1 ∧ g.kind = 3 then replyArrived g s else s
    | none => s) s

/-- MAILBOX_NAK (R132). -/
def execMailboxNak (t : Nat) (seg : List Word) (s : State) : Host.Outcome State Fault Refusal :=
  happen t (fun s => match segOf seg with
    | some g => if role s = 1 ∧ g.kind = 4 then nakArrived g s else s
    | none => s) s

/-- RING_ACCESS_TIMEOUT (R109). -/
def execRingAccessTimeout (t : Nat) (tag : Nat) (s : State) : Host.Outcome State Fault Refusal :=
  happen t (fun s => match s.ring.accesses.find? (fun a => a.tag % 256 == tag % 256) with
    | some a => accessEnd a (abortRecord a 0x0A) s
    | none => s) s

end Sys2Proof.Machine
end

