-- ==== Sys2Proof/Machine/Host.lean ====
section
/-! DEFINITION. The host port (R140 to R146): frames accepted and counted, ARP and echo, object-access datagrams. -/

namespace Sys2Proof.Machine

open Sys2Proof

/-- The host port works: on a device that has one (R140, R486), ready, its link up. -/
def hostWorks (s : State) : Bool := hasHost s && rdy s 3 && s.host.linkUp

/-- The MAC address in 02.100 HOST_MAC. -/
def hostMacOf (s : State) : BitVec 48 :=
  BitVec.ofNat 48 (fld (getW s Obj.hostMac 0) 23 0 * 2 ^ 24 + fld (getW s Obj.hostMac 1) 23 0)

/-- Ports of the time messages and their multicast addresses (R141, R162): 224.0.1.129 and 224.0.0.107. -/
def timePort (p : Nat) : Bool := p == 319 || p == 320
def timeGroup (a : BitVec 32) : Bool := a == 0xE0000181#32 || a == 0xE000006B#32

/-- A frame is accepted (R140, R141). -/
def frameAccepted (f : HostFrame) (s : State) : Bool :=
  let plain := !f.tagged && !f.pause && decide (f.length ≤ 1518)
  if !plain then false
  else if f.etherType = 0x0806 then f.target == hostIp s
  else if f.etherType = 0x0800 then
    f.headerBytes == 20 && !f.fragment
      && (if f.udp then
            f.checksumOk && ((f.target == hostIp s && f.udpPort == hostPort s)
              || (timePort f.udpPort && (timeGroup f.target || f.target == hostIp s)))
          else f.icmpEcho && f.target == hostIp s)
  else false

/-- The header of a reply datagram with no records (R145): the flag by its bit number. -/
def bareReply (src : BitVec 32) (port seq flag : Nat) (s : State) : State :=
  sendDatagram src port (replyHeader seq 0 [flag]) [] s

/-- The block writes open by slot and handle, as the device knows them (R145). -/
def openWrites (s : State) (slot handle : Nat) : Bool :=
  if slot = 0 ∨ slot = 64 then writesHere s slot handle else s.host.opens.contains (slot, handle)

/-- n records that end exactly with the words (R145). -/
def parseRecords (seg : Nat → Nat → Bool) : Nat → List Word → Option (List Req)
  | 0, ws => if ws.isEmpty then some [] else none
  | n + 1, ws => match parseRecord seg ws with
    | none => none
    | some (q, rest) => (parseRecords seg n rest).map (fun qs => q :: qs)

/-- A request datagram of a length that R142 allows passes its CRC. -/
def datagramWhole (ws : List Word) : Bool :=
  match ws.getLast? with
  | some crc => decide (2 ≤ ws.length) && decide (ws.length ≤ 294) && crc32 ws.dropLast == fld crc 31 0
  | none => false

/-- The records of a request datagram (R142, R145): none where it fails its CRC or cannot be parsed. -/
def datagramRecords (ws : List Word) (s : State) : Option (List Req) :=
  let h := at? ws 0 0
  let n := fld h 21 16
  if !(datagramWhole ws) ∨ fld h 35 28 ≠ 1 ∨ n = 0 ∨ n > 32 then none
  else parseRecords (openWrites s) n ((ws.drop 1).dropLast)

/-- A reply of n words fits beside the replies before it, and leaves each later record room for an ABORT (R145;
notes/assumptions/69.md). -/
def replyFits (used later n : Nat) : Bool := decide (used + n + 5 * later ≤ 292)

/-- HOST_IP and HOST_UDP_PORT stay in force, as they were before a record, until its reply has left (R141). -/
def holdAddr (src : BitVec 32) (port seq : Nat) (before s : State) : State :=
  if s.host.oldAddr.isSome || (getW s Obj.hostIp 0 == getW before Obj.hostIp 0
      && getW s Obj.hostUdpPort 0 == getW before Obj.hostUdpPort 0) then s
  else { s with host := { s.host with oldAddr := some (src, port, seq, hostIp before, hostPort before) } }

/-- Records are carried out in order (R145): `n` is the number of the next one, `used` the words of the replies so far. One
whose reply would not fit is not carried out; of one that goes to another device the longest reply counts. -/
def runRecords (src : BitVec 32) (port seq : Nat) : Nat → Nat → List Req → State → State
  | _, _, [], s => s
  | n, used, q :: qs, s =>
    let refuse := fun (s : State) =>
      let ws := replyWords q (badReply 0x05)
      (used + ws.length, fillRecord src port seq n ws s)
    let r := match startAccess (some (src, port, seq, n)) q s with
      | (some r, t) =>
        let ws := replyWords q r
        if replyFits used qs.length ws.length then
          (used + ws.length, fillRecord src port seq n ws (holdAddr src port seq s t))
        else refuse s
      | (none, t) =>
        if replyFits used qs.length (longestReply q) then (used + longestReply q, holdAddr src port seq s t) else refuse s
    runRecords src port seq (n + 1) r.1 qs r.2

/-- The 16 most recent datagrams are kept, those in progress always (R146). -/
def keep16 (ds : List Datagram) : List Datagram :=
  let extra := ds.length - 16
  (ds.foldl (fun (x : Nat × List Datagram) d =>
    if d.done && decide (x.1 > 0) then (x.1 - 1, x.2) else (x.1, x.2 ++ [d])) (extra, [])).2

/-- A datagram on the object-access port (R142 to R146). -/
def hostDatagramDo (src : BitVec 32) (port : Nat) (ws : List Word) (s : State) : State :=
  match ws with
  | [] => s
  | h :: _ =>
    let seq := fld h 15 0
    if !(datagramWhole ws) then bareReply src port seq 26 s else
    match s.host.datagrams.find? (fun d => d.src == src && d.port == port && d.seq == seq) with
    | some d =>
      if d.done then
        sendDatagram src port (replyHeader seq d.replies.length [25]) ((d.replies.map (fun r => r.getD [])).flatten) s
      else s
    | none =>
      match datagramRecords ws s with
      | none => bareReply src port seq 26 s
      | some qs =>
        if (s.host.datagrams.filter (fun d => !d.done)).length ≥ 8 then bareReply src port seq 24 s
        else
          let d : Datagram := { src := src, port := port, seq := seq, replies := qs.map (fun _ => none), done := false }
          let s := { s with host := { s.host with datagrams := keep16 (s.host.datagrams ++ [d]) } }
          runRecords src port seq 0 0 qs s

/-- HOST_FRAME (R140, R141): accepted, or discarded and counted. -/
def execHostFrame (t : Nat) (f : HostFrame) (s : State) : Host.Outcome State Fault Refusal :=
  happen t (fun s => if hostWorks s && !(frameAccepted f s) then bump Obj.hostDiscards 0 1 s else s) s

/-- ARP_REQUEST (R141): the answer to the sender gives this device's MAC address. -/
def execArpRequest (t : Nat) (target sender : BitVec 32) (_mac : BitVec 48) (s : State) : Host.Outcome State Fault Refusal :=
  happen t (fun s => if hostWorks s && target == hostIp s then emit (.arp sender (hostMacOf s)) s else s) s

/-- ICMP_ECHO (R141). -/
def execIcmpEcho (t : Nat) (target sender : BitVec 32) (payload : List Byte) (s : State) : Host.Outcome State Fault Refusal :=
  happen t (fun s => if hostWorks s && target == hostIp s then emit (.echo sender payload) s else s) s

/-- HOST_DATAGRAM (R145). -/
def execHostDatagram (t : Nat) (src : BitVec 32) (port : Nat) (words : List Word) (s : State) : Host.Outcome State Fault Refusal :=
  happen t (fun s => if hostWorks s then crossing 11 (hostDatagramDo src port words) s else s) s

/-- REPLY_CACHE_EXPIRE (R146). -/
def execReplyCacheExpire (t : Nat) (src : BitVec 32) (port seq : Nat) (s : State) : Host.Outcome State Fault Refusal :=
  happen t (fun s => { s with host := { s.host with datagrams := s.host.datagrams.filter (fun d =>
    !(d.done && d.src == src && d.port == port && d.seq == seq)) } }) s

/-- HOST_LINK_DOWN (R140): the Master raises EV 02.007 with what HOST_STATE then reads. -/
def execHostLinkDown (t : Nat) (s : State) : Host.Outcome State Fault Refusal :=
  happen t (fun s =>
    if !s.host.linkUp then s else
    let s := { s with host := { s.host with
      linkUp := false, anComplete := false, partnerFd := false, partnerHd := false, remoteFault := false } }
    if role s = 1 then raise 0x02007 [hostStateWord s] s else s) s

end Sys2Proof.Machine
end

