-- ==== Sys2Proof/Machine/Ring.lean ====
section
/-! DEFINITION. The Budar ring (R124 to R128, R133 to R139), the ring's time (R153 to R156, R160, R161) and the slots
(R487 to R489): cycle-frame copies at a Member and at the Master. -/

namespace Sys2Proof.Machine

open Sys2Proof

/-! The cycle frame (R125). -/

/-- CYCLE, DIR and WRAPPED of a copy. -/
def copyCycle (ws : List Word) : Nat := fld (at? ws 0 0) 23 0
def copyDirB (ws : List Word) : Bool := bitOf (at? ws 0 0) 31
def copyWrapped (ws : List Word) : Bool := bitOf (at? ws 0 0) 30

/-- A sum of the ring's time, on 64-bit signed integers (R155). -/
def s64 (i : Int) : Int := sgn 64 (pat 64 i)

/-- ORIGIN_TIME, and the SOF at the receive pin and at the transmit pin, in ps (R153, R155). -/
def copyOrigin (ws : List Word) : Int := s64 (psOf ((at? ws 1 0).toNat * 2 ^ 36 + (at? ws 2 0).toNat))
def copyRx (c : CopyIn) (s : State) : Int := s64 (localPs s c.rx)
def copyTx (c : CopyIn) (s : State) : Int := s64 (localPs s c.tx)

/-- DELAY_SUM and HOP. -/
def copyDelay (ws : List Word) : Int := ((at? ws 3 0).toNat : Int)
def copyHop (ws : List Word) : Nat := fld (at? ws 4 0) 6 0

/-- PATH_MAP, UNWRAP and MAP_SEQ. -/
def copyMap (ws : List Word) : BitVec 64 := BitVec.ofNat 64 (fld (at? ws 5 0) 27 0 * 2 ^ 36 + (at? ws 6 0).toNat)
def copyUnwrap (ws : List Word) : Bool := bitOf (at? ws 7 0) 35
def copyMapSeq (ws : List Word) : Nat := fld (at? ws 7 0) 31 24

/-- The status word of a slot, and the mailbox. -/
def copyStatus (ws : List Word) (k : Nat) : Word := at? ws (8 + k) 0
def copyBox (ws : List Word) : List Word := (ws.drop 72).take 768

/-- A copy that ends intact here (R126): whole, ended with EOF, its CRC good, a cycle frame. -/
def copyIntact (c : CopyIn) : Bool :=
  c.eofOk && c.words.length == 842 && crc32 (c.words.take 840) == fld (at? c.words 840 0) 31 0 && fld (at? c.words 0 0) 35 32 == 1

/-- A copy with the CRC over the words sent (R126). -/
def withCrc (ws : List Word) : List Word :=
  if ws.length ≤ 840 then ws else setAt ws 840 (wd (crc32 (ws.take 840)))

/-- The status word of this device (R125). -/
def statusWord (s : State) : Word :=
  wd (2 ^ 35 + seasonCode s.pwr.season * 2 ^ 33 + b2n (pageInProgress s) * 2 ^ 32 + b2n (laneU s 46).lock * 2 ^ 31
    + b2n (laneU s 47).lock * 2 ^ 30 + b2n s.ring.wrapA * 2 ^ 29 + b2n s.ring.wrapB * 2 ^ 28
    + satN 9 s.ev.queue.length * 2 ^ 19 + maxSev s * 2 ^ 16 + s.ring.hop % 128 * 2 ^ 9 + b2n (claimConfirmed s) * 2 ^ 8)

/-- Cycle x is cycle n or one of the `back` before it. -/
def cycleWithin (back n x : Nat) : Bool := decide ((n + 2 ^ 24 - x % 2 ^ 24) % 2 ^ 24 ≤ back)

/-! The ring's time (R155). -/

/-- 03.180 RING_DELAY: link estimate. -/
def linkPs (s : State) : Int := getS s 36 Obj.ringDelay 2

/-- theta_a of this cycle or the last (R155). -/
def thetaNear (cyc : Nat) (s : State) : Option Int :=
  match s.clock.thetaA with
  | some (n, v) => if cycleWithin 1 cyc n then some v else none
  | none => none

/-- The delay of copy B up to its receive pin, and the link estimate that goes with it (R155). -/
def delayB (cyc : Nat) (rx origin dsb : Int) (s : State) : Int × Int :=
  let asym := getS s 36 Obj.rngaAsym 0
  match thetaNear cyc s with
  | some v =>
    let db := s64 (rx - origin - v)
    (db, roundHalfUp (s64 (linkPs s + s64 (db - dsb - asym))) 2)
  | none => (s64 (dsb + linkPs s + asym), linkPs s)

/-- A new link estimate is taken, but in holdover, which freezes it (R155, R160). -/
def linkTake (v : Int) (s : State) : State := if getN s Obj.syncState 0 = 3 then s else setI Obj.ringDelay 2 v s

/-- The delays of an intact copy are taken (R155, R156), and theta of the copy. -/
def timeCopy (c : CopyIn) (s : State) : Int × State :=
  let cyc := copyCycle c.words
  let origin := copyOrigin c.words
  let ds := copyDelay c.words
  if !c.copyB then
    let v := s64 (copyRx c s - origin - ds)
    (v, setI Obj.ringDelay 0 ds (modClock (fun k => { k with thetaA := some (cyc, v) }) s))
  else
    let rx := copyRx c s
    let d := delayB cyc rx origin ds s
    (s64 (rx - origin - d.1), setI Obj.ringDelay 1 d.1 (linkTake d.2 s))

/-- DELAY_SUM that this device sends on (R154, R155). -/
def sendDelay (c : CopyIn) (s : State) : Word :=
  let ds := copyDelay c.words
  let residence := s64 (copyTx c s - copyRx c s)
  let sum := if !c.copyB then ds + residence + linkPs s
    else (delayB (copyCycle c.words) (copyRx c s) (copyOrigin c.words) ds s).1 + residence
  wd (pat 36 sum)

/-! A Member. -/

/-- The ports that a copy comes in at and goes out of (R120, R134): a copy turned back runs the other way. -/
def portIn (copyB wrapped : Bool) : RingPort := if copyB == wrapped then .rngB else .rngA
def portOut (copyB wrapped : Bool) : RingPort := if copyB == wrapped then .rngA else .rngB

/-- Lane of a ring port. -/
def portLane (p : RingPort) : Nat :=
  match p with
  | .rngA => 46
  | .rngB => 47

/-- The other ring port. -/
def otherPort (p : RingPort) : RingPort :=
  match p with
  | .rngA => .rngB
  | .rngB => .rngA

/-- Copies are turned back at a port (R134). -/
def wraps (s : State) (p : RingPort) : Bool :=
  match p with
  | .rngA => s.ring.wrapA
  | .rngB => s.ring.wrapB

/-- A copy that begins to leave a port at a tick meets the port's wake run, 16.384 µs, which takes its place (R58). -/
def cutByRun (p : RingPort) (start : Nat) (s : State) : Bool :=
  match (match p with
    | .rngA => s.ring.runA
    | .rngB => s.ring.runB) with
  | some w => decide (w < start + copyTicks) && decide (start < w + 10240)
  | none => false

/-- A copy leaves a port from a tick on, where the lane serves the ring (R194); one that a wake run cuts short ends with
EOF_BAD (R58). -/
def copyOut (p : RingPort) (start : Nat) (ws : List Word) (ok : Bool) (s : State) : State :=
  if !(laneServes s (portLane p)) then s else
  emit (.ringCopy p ws (ok && !(cutByRun p start s)))
    (modRing (fun r => match p with
      | .rngA => { r with outA := some start }
      | .rngB => { r with outB := some start }) s)

/-- A copy on its way out: its port, or the other one where this port turns it back (R134). -/
def sendCopy (p : RingPort) (start : Nat) (ws : List Word) (ok : Bool) (s : State) : State :=
  copyOut (if wraps s p then otherPort p else p) start (withCrc ws) ok s

/-- The named copy of this device in a passing copy is B (R128). -/
def namesB (ws : List Word) (s : State) : Bool := nbit (copyMap ws).toNat (slotNo s)

/-- The copy as this device sends it on (R126, R128, R131, R133 to R135): its own fields written. -/
def forwardWords (c : CopyIn) (s : State) : List Word :=
  let ws := c.words
  let ws := setAt ws 3 (sendDelay c s)
  let ws := if c.copyB then ws else setAt ws 4 (setFld (at? ws 4 0) 6 0 (copyHop ws + 1))
  let ws := match heldSlot s with
    | some k =>
      let ws := setAt ws (8 + k) (statusWord s)
      if namesB c.words s == c.copyB && decide (840 ≤ ws.length) then
        ws.take 72 ++ fillReserved k s (copyBox ws) ++ ws.drop 840
      else ws
    | none => ws
  if wraps s (portOut c.copyB false) then
    setAt ws 0 (setFld (setBit (at? ws 0 0) 30 true) 29 24 (slotNo s))
  else ws

/-- n gap cycles from cycle `first` on (R128, R137, R160): each counts but the cycle after UNWRAP (R138), and time holds
over. -/
def gapCycles (first n : Nat) (s : State) : State :=
  if n = 0 then s else
  let planned := match s.ring.unwrapAt with
    | some c => decide ((c + 1 + 2 ^ 24 - first % 2 ^ 24) % 2 ^ 24 < n)
    | none => false
  enterHoldover (bump Obj.gapCycles 0 (n - b2n planned) s)

/-- A cycle is under way at a Member (R128): the cycles since the last one whose named copy was judged were gaps. A copy of
the cycle before is no new cycle, and a CYCLE that is not ahead starts the count anew (notes/assumptions/125.md). -/
def newCycle (cyc : Nat) (s : State) : State :=
  let r := s.ring
  if r.seenCycle && cycleWithin 1 r.cycle cyc then s
  else
    let first := if r.judged then (r.cycle + 1) % 2 ^ 24 else r.cycle
    let gaps := if !r.seenCycle then 0 else if ahead cyc r.cycle then (cyc + 2 ^ 24 - first) % 2 ^ 24 else b2n (!r.judged)
    modRing (fun r => { r with cycle := cyc, judged := false, seenCycle := true }) (gapCycles first gaps s)

/-- The named copy has ended without being intact (R126, R128): its cycle, of which the copy's own number may be damaged, is
the one under way, or the next one where that has been judged. -/
def namedLost (s : State) : State :=
  let r := s.ring
  let s := if r.judged then newCycle ((r.cycle + 1) % 2 ^ 24) s else s
  gapCycles s.ring.cycle 1 (modRing (fun r => { r with judged := true }) s)

/-- A rival claim on this device's slot as a copy brings it (R488). -/
def rivalCheck (ws : List Word) (s : State) : State :=
  match claimedSlot s with
  | none => s
  | some k =>
    let w := copyStatus ws k
    let rivalHop := fld w 15 9
    let mine := claimConfirmed s
    let stronger := (bitOf w 8 && !mine) || (bitOf w 8 == mine && decide (rivalHop < s.ring.hop))
    if bitOf w 35 && rivalHop != s.ring.hop && stronger && !s.ring.slotless then
      raise 0x13002 [wd 1, wd k, wd rivalHop] (modRing (fun r => { r with slotless := true }) s)
    else s

/-- The hop count that an intact copy A brings (R133, R488): a claim that changes with it is held again. -/
def takeHop (hop : Nat) (s : State) : State :=
  let before := claimedSlot s
  let s := modRing (fun r => { r with hop := hop }) s
  if claimedSlot s = before then s else modRing (fun r => { r with slotless := false }) s

/-- The named copy has ended intact (R128, R131, R137, R138, R157, R161): map, time, ring state and requests are taken. -/
def actOn (c : CopyIn) (theta : Int) (s : State) : State :=
  let ws := c.words
  let cyc := copyCycle ws
  let r := s.ring
  let wrapped := r.wrapA || r.wrapB || (match r.wrapSeen with
    | some n => cycleWithin 1 cyc n
    | none => false)
  let newMap := copyMap ws != r.map || copyMapSeq ws != r.mapSeq
  let s := if r.namedB != c.copyB && s.clock.sampled then modClock (fun k => { k with rerouted := true }) s else s
  let s := modRing (fun r => { r with
    judged := true, map := copyMap ws, mapSeq := copyMapSeq ws, mapCycle := if newMap then cyc else r.mapCycle
    namedB := c.copyB, ringState := if wrapped then 2 else 1
    unwrapAt := if copyUnwrap ws then some cyc else r.unwrapAt }) s
  let s := if getN s Obj.timeSource 0 = 2 then offsetSample true theta 50000000 s else s
  forEach (segments 768 0 (copyBox ws)) (fun g s =>
    if g.kind = 1 ∧ heldSlot s = some g.dest then requestArrived g s else s) s

/-- The turn-back at a port ends with the copy of the UNWRAP cycle, where the port has lock (R138). -/
def unwrapPort (p : RingPort) (s : State) : State :=
  if !(laneU s (portLane p)).lock then s
  else modRing (fun r => match p with
    | .rngA => { r with wrapA := false }
    | .rngB => { r with wrapB := false }) s

/-- A copy on its first pass through a Member (R126 to R128, R133 to R139, R155, R488). -/
def firstPass (c : CopyIn) (s : State) : State :=
  let ws := c.words
  let ok := copyIntact c
  let out := portOut c.copyB false
  let turned := wraps s out
  let s := sendCopy out (c.tx / 64) (forwardWords c s) ok s
  if !ok then
    if s.ring.namedB == c.copyB then namedLost s else s
  else
    let s := newCycle (copyCycle ws) s
    let s := if c.copyB then s else takeHop (copyHop ws) s
    let s := rivalCheck ws s
    let r := timeCopy c s
    let s := if namesB ws r.2 == c.copyB then actOn c r.1 r.2 else r.2
    if turned && copyUnwrap ws then unwrapPort out s else s

/-- A copy at a Member (R126, R127): one that has been turned back only passes. -/
def memberCopy (c : CopyIn) (s : State) : State :=
  let wrapped := copyWrapped c.words
  if !s.pwr.bypassOpen || !(laneUp s (portLane (portIn c.copyB wrapped))) then s
  else if wrapped then
    sendCopy (portOut c.copyB true) (c.tx / 64) c.words (copyIntact c) (modRing (fun r => { r with wrapSeen := some (copyCycle c.words) }) s)
  else firstPass c s

/-! The Master. -/

/-- The cycle after UNWRAP (R138). -/
def unwrapNext (cyc : Nat) (s : State) : Bool :=
  match s.ring.unwrapAt with
  | some c => (c + 1) % 2 ^ 24 == cyc
  | none => false

/-- The words of a copy, the CRC aside (R124, R125, R133): DIR tells the two apart, and the seed of DELAY_SUM (R154). -/
def cycleWords (copyB : Bool) (box : List Word) (s : State) : List Word :=
  let r := s.ring
  let t := time72 s
  [wd (2 ^ 32 + b2n copyB * 2 ^ 31 + r.cycle), wd (t / 2 ^ 36), wd t, if copyB then 0 else wd (pat 36 (linkPs s)),
    wd 1, wd (r.map.toNat / 2 ^ 36), wd r.map.toNat,
    wd (b2n (r.unwrapAt == some r.cycle) * 2 ^ 35 + r.mapSeq % 256 * 2 ^ 24)]
    ++ List.replicate 64 0 ++ box

/-- A frame of the words given, with its CRC and the reserved word (R125). -/
def cycleFrame (ws : List Word) : List Word := ws ++ [wd (crc32 ws), 0]

/-- A new map that may be carried from this cycle on takes effect (R135). -/
def mapFollow (s : State) : State :=
  let r := s.ring
  match r.newMap with
  | none => s
  | some m =>
    if r.newMapFrom > s.clock.tick then s
    else
      let seq := (r.mapSeq + 1) % 256
      raise 0x02002 [wd seq, wd r.cycle, wd (m.toNat / 2 ^ 36), wd m.toNat]
        (modRing (fun r => { r with map := m, mapSeq := seq, mapCycle := r.cycle, newMap := none, newMapPort := false }) s)

/-- A copy of the cycle, with its mailbox, leaves the Master at a port that has lock (R124, R125). -/
def cycleOut (p : RingPort) (copyB : Bool) (box : List Word) (s : State) : State :=
  whenB (laneUp s (portLane p)) (copyOut p s.clock.tick (cycleFrame (cycleWords copyB box s)) true) s

/-- CYCLE_START on the Master (R124, R125, R130). -/
def cycleStartDo (s : State) : State :=
  if role s ≠ 1 ∨ !s.pwr.bypassOpen ∨ !(rdy s 4) then s
  else
    let s := mapFollow (modRing (fun r => { r with cycle := (r.cycle + 1) % 2 ^ 24, startTick := s.clock.tick }) s)
    let b := if unwrapNext s.ring.cycle s then (blankSeg 0 0 767 0, s) else mailboxOf s.ring.cycle s
    cycleOut .rngB true b.1 (cycleOut .rngA false b.1 b.2)

/-- A copy of this Master (R487): by its CYCLE and DIR. -/
def ownCopy (c : CopyIn) (s : State) : Bool :=
  cycleWithin 2 s.ring.cycle (copyCycle c.words) && copyDirB c.words == c.copyB

/-- Ticks since the start of a cycle: 50 µs are 31,250 ticks. -/
def cycleAge (cyc : Nat) (s : State) : Nat :=
  s.clock.tick - s.ring.startTick + 31250 * ((s.ring.cycle + 2 ^ 24 - cyc % 2 ^ 24) % 2 ^ 24)

/-- The Master judges a copy once (R135). -/
def copyJudged (copyB : Bool) (cyc : Nat) (s : State) : State :=
  modRing (fun r => { r with back := ((copyB, cyc) :: r.back).take 8 }) s

/-- A copy has not come back intact (R135, R138): EV 02.001, once. -/
def copyLost (copyB : Bool) (cyc : Nat) (s : State) : State :=
  if s.ring.back.contains (copyB, cyc) then s else
  let s := resend cyc copyB [] (copyJudged copyB cyc s)
  if unwrapNext cyc s then s else raise 0x02001 [wd (b2n copyB), wd cyc] s

/-- The slots PRESENT in a copy; slot 0 is the Master's own. -/
def presentIn (ws : List Word) : BitVec 64 :=
  BitVec.ofNat 64 (packBits (fun k => k == 0 || bitOf (copyStatus ws k) 35) 64)

/-- The map that the most recent intact copies give (R135). -/
def builtMap (s : State) : BitVec 64 :=
  let r := s.ring
  BitVec.ofNat 64 (packBits (fun k =>
    if nbit r.presentA.toNat k then false else if nbit r.presentB.toNat k then true else nbit r.map.toNat k) 64)

/-- The map after an intact copy (R135): that of a lost port, while it waits to be carried, goes first. -/
def mapBuild (s : State) : State :=
  let m := builtMap s
  let r := s.ring
  if r.newMap.isSome && r.newMapPort then s
  else modRing (fun r => { r with newMap := if m = r.map then none else some m, newMapFrom := s.clock.tick }) s

/-- Devices whose status slot appears (R139): EV 02.004. -/
def joinCheck (ws : List Word) (s : State) : State :=
  forEach (List.range 64) (fun k s =>
    let w := copyStatus ws k
    if k = 0 ∨ !(bitOf w 35) then s
    else
      let s := modRing (fun r => { r with status := vset r.status k w }) s
      if nbit s.ring.joined.toNat k && !(nbit s.ring.bypassed.toNat k) then s
      else raise 0x02004 [wd k, wd (fld w 15 9)] (modRing (fun r => { r with
        joined := r.joined ||| BitVec.ofNat 64 (2 ^ k), bypassed := r.bypassed &&& ~~~ BitVec.ofNat 64 (2 ^ k) }) s)) s

/-- 13.001 UNSLOTTED from copy A (R489): EV 13.002 when the number rises from 0. -/
def unslottedCheck (ws : List Word) (s : State) : State :=
  let n := copyHop ws - ones 64 s.ring.presentA.toNat
  let before := s.ring.unslotted
  let s := modRing (fun r => { r with unslotted := n }) s
  if before = 0 ∧ n > 0 then raise 0x13002 [wd 2, wd (satN 9 n)] s else s

/-- The Master's delays (R155): of a copy that was not turned back. -/
def masterTime (c : CopyIn) (s : State) : State :=
  let ds := copyDelay c.words
  let loop := s64 (copyRx c s - copyOrigin c.words)
  if !c.copyB then setI Obj.ringDelay 3 (s64 (loop - ds)) s
  else
    let raw := s64 (loop - ds - getS s 36 Obj.rngaAsym 0)
    linkTake (roundHalfUp (s64 (linkPs s + raw)) 2) (setI Obj.ringDelay 1 loop s)

/-- Both copies of one cycle have come back intact and not turned back after a restoration (R138): EV 02.003. -/
def restoredCheck (cyc : Nat) (copyB : Bool) (s : State) : State :=
  let s := modRing (fun r => if copyB then { r with cleanB := some cyc } else { r with cleanA := some cyc }) s
  if s.ring.unwrapAt.isSome && s.ring.cleanA == some cyc && s.ring.cleanB == some cyc then
    raise 0x02003 [wd cyc] (modRing (fun r => { r with unwrapAt := none }) s)
  else s

/-- A copy of another Master (R487). -/
def foreignCopy (s : State) : State :=
  raise 0x13002 [wd 3, 0, 0] (modRing (fun r => { r with ringState := 0, foreign := some r.cycle }) s)

/-- A copy of this Master has come back intact (R135, R138, R139, R155, R487, R489). -/
def copyBack (c : CopyIn) (s : State) : State :=
  let ws := c.words
  let cyc := copyCycle ws
  let wrapped := copyWrapped ws
  let here := presentIn ws
  let foreignNow := match s.ring.foreign with
    | some n => cycleWithin 1 s.ring.cycle n
    | none => false
  let s := modRing (fun r => { r with
    presentA := if c.copyB then r.presentA else here
    presentB := if c.copyB then here else r.presentB
    ringState := if foreignNow then 0 else if wrapped then 2 else 1 }) s
  let s := resend cyc c.copyB (shownRequests (copyBox ws)) (copyJudged c.copyB cyc s)
  let s := joinCheck ws s
  let s := if unwrapNext cyc s then s else mapBuild s
  let s := if c.copyB then s else unslottedCheck ws s
  if wrapped then s else restoredCheck cyc c.copyB (masterTime c s)

/-- A copy at the Master (R135, R487). -/
def masterCopy (c : CopyIn) (s : State) : State :=
  let ok := copyIntact c
  if ok && !(ownCopy c s) then foreignCopy s
  else
    let cyc := if cycleWithin 2 s.ring.cycle (copyCycle c.words) then copyCycle c.words else s.ring.cycle
    if ok && decide (cycleAge cyc s ≤ 62500) then copyBack c s else copyLost c.copyB cyc s

/-- Every device that turns copies back reports both locks (R138). -/
def wrappersLocked (s : State) : Bool :=
  let at? := fun (k : Nat) => vget s.ring.status k 0
  let here := (List.range 64).filter (fun k => nbit (s.ring.presentA ||| s.ring.presentB).toNat k
    && (bitOf (at? k) 29 || bitOf (at? k) 28))
  !here.isEmpty && here.all (fun k => bitOf (at? k) 31 && bitOf (at? k) 30)

/-! The commands. -/

/-- CYCLE_START (R124). -/
def execCycleStart (t : Nat) (s : State) : Host.Outcome State Fault Refusal := happen t cycleStartDo s

/-- CYCLE_FRAME_COPY (R126): a copy on its way through a Member; at the Master, one that it did not send (R487). -/
def execCycleFrameCopy (t : Nat) (c : CopyIn) (s : State) : Host.Outcome State Fault Refusal :=
  happen t (fun s =>
    if role s = 2 then crossing 10 (memberCopy c) s
    else if role s = 1 ∧ s.pwr.bypassOpen then
      (if copyIntact c && !(ownCopy c s) then crossing 10 foreignCopy s else s)
    else s) s

/-- COPY_RETURN (R135). -/
def execCopyReturn (t : Nat) (c : CopyIn) (s : State) : Host.Outcome State Fault Refusal :=
  happen t (fun s => if role s = 1 ∧ s.pwr.bypassOpen then crossing 10 (masterCopy c) s else s) s

/-- COPY_RETURN_TIMEOUT (R135): of the cycle that started 100 µs, 62,500 ticks, ago. -/
def execCopyReturnTimeout (t : Nat) (copyB : Bool) (s : State) : Host.Outcome State Fault Refusal :=
  happen t (fun s =>
    if role s ≠ 1 then s else
    let age := s.clock.tick - s.ring.startTick
    let back := ceilDiv (62500 - age) 31250
    copyLost copyB ((s.ring.cycle + 2 ^ 24 - back) % 2 ^ 24) s) s

/-- RING_RESTORE (R138): UNWRAP goes with the next cycle. -/
def execRingRestore (t : Nat) (s : State) : Host.Outcome State Fault Refusal :=
  happen t (fun s => if role s = 1 ∧ wrappersLocked s then
    modRing (fun r => { r with unwrapAt := some ((r.cycle + 1) % 2 ^ 24) }) s else s) s

/-- SLOT_MISSING (R139): the Master treats the slot as bypassed. -/
def execSlotMissing (t : Nat) (slot : Slot) (s : State) : Host.Outcome State Fault Refusal :=
  happen t (fun s =>
    if role s ≠ 1 ∨ !(nbit s.ring.joined.toNat slot.val) ∨ nbit s.ring.bypassed.toNat slot.val then s
    else raise 0x02005 [wd slot.val] (modRing (fun r => { r with bypassed := r.bypassed ||| BitVec.ofNat 64 (2 ^ slot.val) }) s)) s

/-- RING_LOST (R139, R160): a Member without an intact copy for 20 cycles. -/
def execRingLost (t : Nat) (s : State) : Host.Outcome State Fault Refusal :=
  happen t (fun s => if role s ≠ 2 then s else
    enterHoldover (raise 0x02001 [wd 2, wd s.ring.cycle] (modRing (fun r => { r with ringState := 0 }) s))) s

/-- SLOT_RECLAIM (R488). -/
def execSlotReclaim (t : Nat) (s : State) : Host.Outcome State Fault Refusal :=
  happen t (modRing (fun r => { r with slotless := false })) s

end Sys2Proof.Machine
end

