-- ==== Sys2Proof/Machine/TableFrames.lean ====
section
/-! DEFINITION. Table frames: in-band block writes that follow the page stream (R205 to R209). -/

set_option Elab.async false

namespace Sys2Proof.Machine

open Sys2Proof

/-- The fields of a table frame (R205). -/
structure TableHdr where
  start : Bool
  last : Bool
  commit : Bool
  obj : Nat
  offset : Nat
  page : Nat
  len : Nat
deriving DecidableEq, Repr

/-- The header of a table frame from its first four words. -/
def tableHdr (ws : List Word) : TableHdr :=
  let w0 := at? ws 0 0
  { start := bitOf w0 35, last := bitOf w0 34, commit := bitOf w0 33, obj := fld w0 19 0, offset := (at? ws 1 0).toNat
    page := fld (at? ws 2 0) 23 0, len := fld (at? ws 3 0) 26 16 }

/-- The header and the frame pass their checks (R205): HCRC, a LEN from 1 to 1,024 that the frame holds, FCRC. -/
def tableSound (f : TableHdr) (ws : List Word) : Bool :=
  crc16Hdr (at? ws 0 0) (at? ws 1 0) (at? ws 2 0) (at? ws 3 0) == fld (at? ws 3 0) 15 0
    && decide (1 ≤ f.len) && decide (f.len ≤ 1024) && decide (4 + f.len + 1 + b2n f.last ≤ ws.length)
    && crc32 (ws.take (4 + f.len)) == fld (at? ws (4 + f.len) 0) 31 0

/-- The frame is rejected (R209): the open transfer is abandoned, and its shadow stays invalid. -/
def tableReject (f : TableHdr) (cause abort : Nat) (s : State) : State :=
  raise 0x05005 [wd cause, wd abort, wd f.obj, pNum f.offset]
    (bump Obj.tblRejected 0 1 { s with dict := { s.dict with inband := none } })

/-- Why the object may not enter a commit for page p (R93, R208): this object alone is bound. -/
def bindAbort (p : Nat) (s : State) : Nat :=
  let all := pendingCommits s
  let same := all.any (fun ic => ic.2.page == p)
  firstAbort [whenCode (!same && all.length == 4) 0x0E,
    whenCode (match s.dict.begunLast with
      | some l => !(ahead p l)
      | none => false) 0x06,
    whenCode (!same && all.any (fun ic => !(ahead p ic.2.page))) 0x06]

/-- The object enters the commit for page p; dirty objects written by the host do not (R208). -/
def bindDo (o p : Nat) (s : State) : State :=
  let others := s.dict.dirty.filter (fun d => d != o)
  let s := commitPageDo p { s with dict := { s.dict with dirty := [o] } }
  { s with dict := { s.dict with dirty := others } }

/-- COMMIT of an END frame (R208): its code, and the state. -/
def tableCommit (f : TableHdr) (s : State) : Nat × State :=
  if f.obj = Obj.nozzleTable then ntCommitWrite (wd f.page) s
  else
    let c := bindAbort f.page s
    if c ≠ 0 then (c, s) else (0, bindDo f.obj f.page s)

/-- A frame has been taken: it counts, and the header of its line group may still reject it (R206). -/
def tableTaken (f : TableHdr) (page : Option Nat) (s : State) : State :=
  bump Obj.tblAccepted 0 1 (modRfe (fun r => { r with tableObjs := r.tableObjs ++ [(f.obj, f.offset, page)] }) s)

/-- The shadow of an object is invalid again. -/
def shadowBad (o : Nat) (s : State) : State :=
  { s with dict := { s.dict with badShadow := addOnce s.dict.badShadow o } }

/-- The words of a frame whose transfer is open reach the shadow; an END frame ends it (R207, R208). -/
def tableCopy (f : TableHdr) (d : ObjDef) (t : Transfer) (ws : List Word) (s : State) : State :=
  let data := (ws.drop 4).take f.len
  let s := storeWords d f.offset data s
  let t := { t with words := t.words ++ data, length := t.length + f.len }
  if !f.last then tableTaken f none { s with dict := { s.dict with inband := some t } }
  else
    let s := { s with dict := { s.dict with inband := none } }
    let r := blockEnd t (fld (at? ws (5 + f.len) 0) 31 0) s
    if r.1 ≠ 0 then tableReject f (if r.1 = 0x0D then 1 else 4) (if r.1 = 0x0D then 0 else r.1) r.2
    else if !f.commit then tableTaken f none r.2
    else
      let c := tableCommit f r.2
      if c.1 ≠ 0 then tableReject f 4 c.1 (shadowBad f.obj c.2) else tableTaken f (some f.page) c.2

/-- A START frame opens a transfer (R207): the access that the host would make is judged. A TABLE or DOMAIN object
that is no target of R207 has no code that the host would have received: a free value (notes/assumptions/67.md). -/
def tableStart (f : TableHdr) (ws : List Word) (s : State) : State :=
  let s := { s with dict := { s.dict with inband := none } }
  match findObj f.obj with
  | none => tableReject f 4 0x01 s
  | some d =>
    let code := firstAbort (openAborts d true f.offset f.len ++ gateAborts d true false s ++ blockWriteAborts d s)
    if code ≠ 0 then tableReject f 4 code s
    else if d.cls != .rwb && d.id != Obj.nozzleTable then tableReject f 4 (fld (freeVal s) 7 0) (takeFree s)
    else
      let t : Transfer := { obj := d.id, write := true, shadow := false, offset := f.offset, length := 0, nextSeq := 0, words := [],
                            sent := 0, switched := false, captured := [] }
      tableCopy f d t ws (blockOpened d s)

/-- A frame after the START frame: of the same object and in sequence (R207, R209), and within the object. -/
def tableNext (f : TableHdr) (ws : List Word) (s : State) : State :=
  match s.dict.inband, findObj f.obj with
  | some t, some d =>
    if t.obj ≠ f.obj ∨ f.offset ≠ t.offset + t.length then tableReject f 2 0 s
    else
      let code := firstAbort (openAborts d true f.offset f.len)
      if code ≠ 0 then tableReject f 4 code s else tableCopy f d t ws s
  | _, _ => tableReject f 2 0 s

/-- A table frame (R205 to R211): its words are charged and released, and it is taken or rejected. The last word of one
that ended with EOF_BAD counts as lost (R197). -/
def tableFrameDo (ws : List Word) (eofOk : Bool) (s : State) : State :=
  if !s.bond.formed then s else
  let s := modRfe (fun r => { r with tables := r.tables + 1, tableWords := r.tableWords + ws.length }) s
  let got := if eofOk then ws else ws.dropLast
  let f := tableHdr got
  let s := if !(tableSound f got) then tableReject f 1 0 s
    else if f.start then tableStart f got s
    else tableNext f got s
  releaseWords ws.length s

/-- TABLE_FRAME (R207). -/
def execTableFrame (t : Nat) (words : List Word) (eofOk : Bool) (s : State) : Host.Outcome State Fault Refusal :=
  happen t (tableFrameDo words eofOk) s

end Sys2Proof.Machine
end

