-- ==== Sys2Proof/Machine/Dispatch.lean ====
section
/-! DEFINITION. The dispatch: one arm per command of spec/opcode_table.json, each a direct call of its meaning. -/

namespace Sys2Proof.Machine

open Sys2Proof

def exec (i : Instr) (s : State) : Host.Outcome State Fault Refusal :=
  match i with
  | .railOutOfRange t rail mv => Sys2Proof.Machine.execRailOutOfRange t rail mv s
  | .powerOnReset t => Sys2Proof.Machine.execPowerOnReset t s
  | .powerOnRelease t strap => Sys2Proof.Machine.execPowerOnRelease t strap s
  | .resetNLow t => Sys2Proof.Machine.execResetNLow t s
  | .resetNHigh t strap => Sys2Proof.Machine.execResetNHigh t strap s
  | .watchdogTimeout t => Sys2Proof.Machine.execWatchdogTimeout t s
  | .wakePin t => Sys2Proof.Machine.execWakePin t s
  | .wakePattern t port => Sys2Proof.Machine.execWakePattern t port s
  | .wakeRelay t port => Sys2Proof.Machine.execWakeRelay t port s
  | .domainsPowered t => Sys2Proof.Machine.execDomainsPowered t s
  | .pllLock t => Sys2Proof.Machine.execPllLock t s
  | .functionReady t bit => Sys2Proof.Machine.execFunctionReady t bit s
  | .flashDiscovered t answers => Sys2Proof.Machine.execFlashDiscovered t answers s
  | .ntLoadDone t => Sys2Proof.Machine.execNtLoadDone t s
  | .enterSummer t => Sys2Proof.Machine.execEnterSummer t s
  | .seasonReqWinter t => Sys2Proof.Machine.execSeasonReqWinter t s
  | .seasonReqHold t => Sys2Proof.Machine.execSeasonReqHold t s
  | .seasonReqSummer t => Sys2Proof.Machine.execSeasonReqSummer t s
  | .seasonReqRestart t => Sys2Proof.Machine.execSeasonReqRestart t s
  | .autumnIdleTimeout t => Sys2Proof.Machine.execAutumnIdleTimeout t s
  | .autumnCapTimeout t => Sys2Proof.Machine.execAutumnCapTimeout t s
  | .autumnStaggerOff t => Sys2Proof.Machine.execAutumnStaggerOff t s
  | .funcResetHold t bit => Sys2Proof.Machine.execFuncResetHold t bit s
  | .funcResetRelease t bit => Sys2Proof.Machine.execFuncResetRelease t bit s
  | .funcResetRestart t => Sys2Proof.Machine.execFuncResetRestart t s
  | .saveReq t => Sys2Proof.Machine.execSaveReq t s
  | .saveComplete t ok => Sys2Proof.Machine.execSaveComplete t ok s
  | .saveTimeout t => Sys2Proof.Machine.execSaveTimeout t s
  | .d2dCommandFrame t crcOk => Sys2Proof.Machine.execD2dCommandFrame t crcOk s
  | .d2dLinkLost t => Sys2Proof.Machine.execD2dLinkLost t s
  | .vdrvLow t => Sys2Proof.Machine.execVdrvLow t s
  | .readObj t a => Sys2Proof.Machine.execReadObj t a s
  | .writeObject t a vals => Sys2Proof.Machine.execWriteObject t a vals s
  | .openRead t a => Sys2Proof.Machine.execOpenRead t a s
  | .openWrite t a => Sys2Proof.Machine.execOpenWrite t a s
  | .segment t handle seq count words => Sys2Proof.Machine.execSegment t handle seq count words s
  | .closeTransfer t handle crc => Sys2Proof.Machine.execCloseTransfer t handle crc s
  | .transferTimeout t handle => Sys2Proof.Machine.execTransferTimeout t handle s
  | .broadcastWrite t a vals => Sys2Proof.Machine.execBroadcastWrite t a vals s
  | .commitPage t page => Sys2Proof.Machine.execCommitPage t page s
  | .commitCancel t page => Sys2Proof.Machine.execCommitCancel t page s
  | .commitNow t => Sys2Proof.Machine.execCommitNow t s
  | .controlCycle t => Sys2Proof.Machine.execControlCycle t s
  | .eventAck t seq => Sys2Proof.Machine.execEventAck t seq s
  | .cycleStart t => Sys2Proof.Machine.execCycleStart t s
  | .cycleFrameCopy t c => Sys2Proof.Machine.execCycleFrameCopy t c s
  | .copyReturn t c => Sys2Proof.Machine.execCopyReturn t c s
  | .copyReturnTimeout t copyB => Sys2Proof.Machine.execCopyReturnTimeout t copyB s
  | .mailboxRequest t seg => Sys2Proof.Machine.execMailboxRequest t seg s
  | .mailboxReply t seg => Sys2Proof.Machine.execMailboxReply t seg s
  | .mailboxNak t seg => Sys2Proof.Machine.execMailboxNak t seg s
  | .ringAccessTimeout t tag => Sys2Proof.Machine.execRingAccessTimeout t tag s
  | .ringRestore t => Sys2Proof.Machine.execRingRestore t s
  | .slotMissing t slot => Sys2Proof.Machine.execSlotMissing t slot s
  | .ringLost t => Sys2Proof.Machine.execRingLost t s
  | .slotReclaim t => Sys2Proof.Machine.execSlotReclaim t s
  | .hostFrame t f => Sys2Proof.Machine.execHostFrame t f s
  | .arpRequest t target sender mac => Sys2Proof.Machine.execArpRequest t target sender mac s
  | .icmpEcho t target sender payload => Sys2Proof.Machine.execIcmpEcho t target sender payload s
  | .hostDatagram t src port words => Sys2Proof.Machine.execHostDatagram t src port words s
  | .replyCacheExpire t src port seq => Sys2Proof.Machine.execReplyCacheExpire t src port seq s
  | .hostLinkDown t => Sys2Proof.Machine.execHostLinkDown t s
  | .syncTimeout t => Sys2Proof.Machine.execSyncTimeout t s
  | .announceTimeout t => Sys2Proof.Machine.execAnnounceTimeout t s
  | .holdoverReadyExpire t => Sys2Proof.Machine.execHoldoverReadyExpire t s
  | .ptpSync t h origin rx => Sys2Proof.Machine.execPtpSync t h origin rx s
  | .ptpFollowUp t h origin => Sys2Proof.Machine.execPtpFollowUp t h origin s
  | .ptpDelayReqTimer t tx => Sys2Proof.Machine.execPtpDelayReqTimer t tx s
  | .ptpDelayResp t h rx => Sys2Proof.Machine.execPtpDelayResp t h rx s
  | .ptpAnnounce t h ann => Sys2Proof.Machine.execPtpAnnounce t h ann s
  | .ptpPdelayReq t h rx tx => Sys2Proof.Machine.execPtpPdelayReq t h rx tx s
  | .ptpPdelayResp t h t2 rx => Sys2Proof.Machine.execPtpPdelayResp t h t2 rx s
  | .ptpPdelayRespFollowUp t h t3 => Sys2Proof.Machine.execPtpPdelayRespFollowUp t h t3 s
  | .timeResync t => Sys2Proof.Machine.execTimeResync t s
  | .timeNowWrite t w0 w1 => Sys2Proof.Machine.execTimeNowWrite t w0 w1 s
  | .trigEnable t unit => Sys2Proof.Machine.execTrigEnable t unit s
  | .triggerFire t unit => Sys2Proof.Machine.execTriggerFire t unit s
  | .captureEdge t unit source rising stamp => Sys2Proof.Machine.execCaptureEdge t unit source rising stamp s
  | .laneLock t lane => Sys2Proof.Machine.execLaneLock t lane s
  | .laneLockLost t lane => Sys2Proof.Machine.execLaneLockLost t lane s
  | .laneNoSignal t lane => Sys2Proof.Machine.execLaneNoSignal t lane s
  | .bufferSlip t lane underflow => Sys2Proof.Machine.execBufferSlip t lane underflow s
  | .skipReceived t ras fill => Sys2Proof.Machine.execSkipReceived t ras fill s
  | .blockLock t ras => Sys2Proof.Machine.execBlockLock t ras s
  | .blockLockLost t ras => Sys2Proof.Machine.execBlockLockLost t ras s
  | .dskReceived t ras n p g => Sys2Proof.Machine.execDskReceived t ras n p g s
  | .dskTimeout t ras => Sys2Proof.Machine.execDskTimeout t ras s
  | .prbsLock t lane => Sys2Proof.Machine.execPrbsLock t lane s
  | .prbsWindowEnd t lane bits errors => Sys2Proof.Machine.execPrbsWindowEnd t lane bits errors s
  | .injectSingle t lane => Sys2Proof.Machine.execInjectSingle t lane s
  | .injectBurst t lane => Sys2Proof.Machine.execInjectBurst t lane s
  | .lanePrbsMode t lane prbs pattern invert => Sys2Proof.Machine.execLanePrbsMode t lane prbs pattern invert s
  | .laneLoopback t lane loop => Sys2Proof.Machine.execLaneLoopback t lane loop s
  | .laneEnable t lane => Sys2Proof.Machine.execLaneEnable t lane s
  | .laneDisable t lane => Sys2Proof.Machine.execLaneDisable t lane s
  | .lgHeader t copies => Sys2Proof.Machine.execLgHeader t copies s
  | .lineGroupComplete t page lg blocks => Sys2Proof.Machine.execLineGroupComplete t page lg blocks s
  | .tableFrame t words eofOk => Sys2Proof.Machine.execTableFrame t words eofOk s
  | .creditFrameTimer t => Sys2Proof.Machine.execCreditFrameTimer t s
  | .laneOffer t ras => Sys2Proof.Machine.execLaneOffer t ras s
  | .bondCfgWrite t v => Sys2Proof.Machine.execBondCfgWrite t v s
  | .checkInstant t page lg => Sys2Proof.Machine.execCheckInstant t page lg s
  | .decodeLineGroup t => Sys2Proof.Machine.execDecodeLineGroup t s
  | .screenStart t => Sys2Proof.Machine.execScreenStart t s
  | .edgeFrameReceived t lane comp words eofOk => Sys2Proof.Machine.execEdgeFrameReceived t lane comp words eofOk s
  | .edgeFrameTimeout t chain endEdge comp => Sys2Proof.Machine.execEdgeFrameTimeout t chain endEdge comp s
  | .edgeRetry t lane words => Sys2Proof.Machine.execEdgeRetry t lane words s
  | .configLoad t tile ok => Sys2Proof.Machine.execConfigLoad t tile ok s
  | .handoverInstant t head => Sys2Proof.Machine.execHandoverInstant t head s
  | .handoverDeadline t head => Sys2Proof.Machine.execHandoverDeadline t head s
  | .ntCommitPage t page => Sys2Proof.Machine.execNtCommitPage t page s
  | .ntCommitNow t => Sys2Proof.Machine.execNtCommitNow t s
  | .ntCommitCancel t page => Sys2Proof.Machine.execNtCommitCancel t page s
  | .seedingDone t => Sys2Proof.Machine.execSeedingDone t s
  | .ntApprove t gen => Sys2Proof.Machine.execNtApprove t gen s
  | .ntReject t gen => Sys2Proof.Machine.execNtReject t gen s
  | .fireEnableArm t => Sys2Proof.Machine.execFireEnableArm t s
  | .fireEnableDisarm t => Sys2Proof.Machine.execFireEnableDisarm t s
  | .positionLatch t => Sys2Proof.Machine.execPositionLatch t s
  | .lineCommit t head => Sys2Proof.Machine.execLineCommit t head s
  | .boundaryReached t head => Sys2Proof.Machine.execBoundaryReached t head s
  | .bookClear t => Sys2Proof.Machine.execBookClear t s
  | .haltStopped t => Sys2Proof.Machine.execHaltStopped t s
  | .pageAbort t => Sys2Proof.Machine.execPageAbort t s
  | .headStatus t head words => Sys2Proof.Machine.execHeadStatus t head words s
  | .statusTimeout t head => Sys2Proof.Machine.execStatusTimeout t head s
  | .tmarkSend t head tx => Sys2Proof.Machine.execTmarkSend t head tx s
  | .tmarkEcho t head m rx turn => Sys2Proof.Machine.execTmarkEcho t head m rx turn s
  | .echoMissing t head => Sys2Proof.Machine.execEchoMissing t head s
  | .bankLoad t head => Sys2Proof.Machine.execBankLoad t head s
  | .headIdleCommand t head => Sys2Proof.Machine.execHeadIdleCommand t head s
  | .regRead t head addr => Sys2Proof.Machine.execRegRead t head addr s
  | .regWrite t head addr => Sys2Proof.Machine.execRegWrite t head addr s
  | .regReply t head words => Sys2Proof.Machine.execRegReply t head words s
  | .regReplyTimeout t head => Sys2Proof.Machine.execRegReplyTimeout t head s
  | .encoderEdge t enc a b sample => Sys2Proof.Machine.execEncoderEdge t enc a b sample s
  | .indexPulse t enc => Sys2Proof.Machine.execIndexPulse t enc s
  | .encoderWireFault t enc pair => Sys2Proof.Machine.execEncoderWireFault t enc pair s
  | .encoderOverspeed t enc together => Sys2Proof.Machine.execEncoderOverspeed t enc together s
  | .encoderRecover t enc => Sys2Proof.Machine.execEncoderRecover t enc s
  | .posSourceWrite t v => Sys2Proof.Machine.execPosSourceWrite t v s
  | .posPreset t w0 w1 => Sys2Proof.Machine.execPosPreset t w0 w1 s
  | .cmpArm t unit v => Sys2Proof.Machine.execCmpArm t unit v s
  | .cmpFire t unit => Sys2Proof.Machine.execCmpFire t unit s
  | .servoCycle t => Sys2Proof.Machine.execServoCycle t s
  | .hareRun t run startTrig => Sys2Proof.Machine.execHareRun t run startTrig s
  | .auxReply t bytes => Sys2Proof.Machine.execAuxReply t bytes s
  | .auxReplyTimeout t => Sys2Proof.Machine.execAuxReplyTimeout t s
  | .axTargetWrite t axis v => Sys2Proof.Machine.execAxTargetWrite t axis v s
  | .axDecelWrite t axis v => Sys2Proof.Machine.execAxDecelWrite t axis v s
  | .axStop t axis => Sys2Proof.Machine.execAxStop t axis s
  | .auxFaultClear t => Sys2Proof.Machine.execAuxFaultClear t s
  | .cameraLine t input words eofOk => Sys2Proof.Machine.execCameraLine t input words eofOk s
  | .cameraStatus t input words eofOk => Sys2Proof.Machine.execCameraStatus t input words eofOk s
  | .syncReq t mask => Sys2Proof.Machine.execSyncReq t mask s
  | .expCommit t mask => Sys2Proof.Machine.execExpCommit t mask s
  | .stripeProcess t => Sys2Proof.Machine.execStripeProcess t s
  | .dispAck t seq => Sys2Proof.Machine.execDispAck t seq s
  | .calReq t v => Sys2Proof.Machine.execCalReq t v s
  | .calAutoTrigger t dieTemp => Sys2Proof.Machine.execCalAutoTrigger t dieTemp s
  | .calStart t item target => Sys2Proof.Machine.execCalStart t item target s
  | .calRunDone t item target first second => Sys2Proof.Machine.execCalRunDone t item target first second s
  | .calRequestExpire t item target => Sys2Proof.Machine.execCalRequestExpire t item target s
  | .calRetry t item target => Sys2Proof.Machine.execCalRetry t item target s
  | .writeBack t m => Sys2Proof.Machine.execWriteBack t m s
  | .mergeEvict t m => Sys2Proof.Machine.execMergeEvict t m s
  | .scrubRead t m upset => Sys2Proof.Machine.execScrubRead t m upset s
  | .repairDone t m => Sys2Proof.Machine.execRepairDone t m s
  | .memoryClear t mask => Sys2Proof.Machine.execMemoryClear t mask s
  | .summaryPeriodEnd t => Sys2Proof.Machine.execSummaryPeriodEnd t s
  | .hpcRequestOn t ch => Sys2Proof.Machine.execHpcRequestOn t ch s
  | .hpcRequestOff t ch => Sys2Proof.Machine.execHpcRequestOff t ch s
  | .staggerSlot t ch => Sys2Proof.Machine.execStaggerSlot t ch s
  | .channelCheckDone t ch vSense vSupply => Sys2Proof.Machine.execChannelCheckDone t ch vSense vSupply s
  | .rampSettled t ch => Sys2Proof.Machine.execRampSettled t ch s
  | .rampTimeout t ch => Sys2Proof.Machine.execRampTimeout t ch s
  | .overcurrentTrip t ch => Sys2Proof.Machine.execOvercurrentTrip t ch s
  | .tripHoldoffEnd t ch => Sys2Proof.Machine.execTripHoldoffEnd t ch s
  | .tripCountClear t ch => Sys2Proof.Machine.execTripCountClear t ch s
  | .senseOpen t ch wireN mv => Sys2Proof.Machine.execSenseOpen t ch wireN mv s
  | .adcSequence t byTrigger => Sys2Proof.Machine.execAdcSequence t byTrigger s
  | .adcSample t ch current value => Sys2Proof.Machine.execAdcSample t ch current value s
  | .hpcUnlatch t mask => Sys2Proof.Machine.execHpcUnlatch t mask s
  | .fireTimeReached t head => Sys2Proof.Machine.execFireTimeReached t head s
  | .railBackInRange t rail => Sys2Proof.Machine.execRailBackInRange t rail s
  | .pdelayReqTimer t tx => Sys2Proof.Machine.execPdelayReqTimer t tx s

end Sys2Proof.Machine
end

