-- ==== Sys2Proof/Machine/Idle.lean ====
section
/-! DEFINITION. What happens at a tick when no command waits. -/

namespace Sys2Proof.Machine

open Sys2Proof

/-- One tick of 1.6 ns of the Timebase (R148, R149; notes/assumptions/1.md). -/
def idleTick (s : State) : Host.Outcome State Fault Refusal := happenAlways (s.clock.tick + 1) id s

end Sys2Proof.Machine
end

