-- ==== Sys2Proof/Safety.lean ====
section
/-! DEFINITION. What counts as a safe run: the terms in which the statements speak. -/

set_option Elab.async false

namespace Sys2Proof.Machine

open Sys2Proof

/-- The step answers a next state. -/
def Steps (s t : State) : Prop := step s = .next t

/-- READY agrees with what the functions report and with the dependencies of R22. -/
def ReadyAgrees (s : State) : Prop := s.pwr.ready = readyOf s

/-- The eight memories are each in canonical form. -/
def memsCanonical (v : Vector MemUnit 8) : Prop := ∀ m : Fin 8, Memory.wf m.val (v[m.val]'m.isLt).cells = true

/-- The values of objects are in canonical form: keys strictly rising. -/
def valuesRise (d : Dict) : Prop := keysRise none d.active = true ∧ keysRise none d.shadow = true

/-- The queue of events and the AON buffer hold no more than their entries (R112, R503). -/
def eventsFit (e : Events) : Prop := e.queue.length ≤ 256 ∧ e.aon.length ≤ 32

/-- Every memory is in its canonical form. -/
def MemoriesCanonical (s : State) : Prop := memsCanonical s.mem

/-- The values of objects are in canonical form. -/
def ValuesCanonical (s : State) : Prop := valuesRise s.dict

/-- The queue of events and the AON buffer hold no more than their entries. -/
def EventsBounded (s : State) : Prop := eventsFit s.ev

/-- The memories and the values of objects are in canonical form, and the events fit. -/
def Sound (s : State) : Prop := MemoriesCanonical s ∧ ValuesCanonical s ∧ EventsBounded s

/-- The command is carried out, and the state after it has the property P. -/
def Answers (c : Instr) (s : State) (P : State → Prop) : Prop := ∃ u, exec c s = .next u ∧ P u

/-- A group of fields of State. `dict` is the dictionary without the values in force, which `Frame` names object by
object; `pwr` is the power state
without the bits that functions set, which are `up`, and without READY, which counts with the events `ev`; `values` stands for the values of any object whatever
(those that a commit or a restore names). -/
inductive Area where
  | clock | ptp | trigs | pwr | flash | dict | ev | mem | repairs | ring | host | lanes | bond | rfe | pages | codec
  | fabric | nt | fire | links | encs | pos | hare | axes | aux | cmps | insp | cal | hpc | xing | sent | free | pending
  | up | values
deriving DecidableEq, Repr

/-- The fields of one group are the same in two states. -/
def Area.same : Area → State → State → Prop
  | .clock, s, u => u.clock = s.clock
  | .ptp, s, u => u.ptp = s.ptp
  | .trigs, s, u => u.trigs = s.trigs
  | .pwr, s, u => u.pwr = { s.pwr with up := u.pwr.up, ready := u.pwr.ready }
  | .flash, s, u => u.flash = s.flash
  | .dict, s, u => u.dict = { s.dict with active := u.dict.active }
  | .ev, s, u => u.ev = s.ev ∧ u.pwr.ready = s.pwr.ready
  | .mem, s, u => u.mem = s.mem
  | .repairs, s, u => u.repairs = s.repairs
  | .ring, s, u => u.ring = s.ring
  | .host, s, u => u.host = s.host
  | .lanes, s, u => u.lanes = s.lanes
  | .bond, s, u => u.bond = s.bond
  | .rfe, s, u => u.rfe = s.rfe
  | .pages, s, u => u.pages = s.pages
  | .codec, s, u => u.codec = s.codec
  | .fabric, s, u => u.fabric = s.fabric
  | .nt, s, u => u.nt = s.nt
  | .fire, s, u => u.fire = s.fire
  | .links, s, u => u.links = s.links
  | .encs, s, u => u.encs = s.encs
  | .pos, s, u => u.pos = s.pos
  | .hare, s, u => u.hare = s.hare
  | .axes, s, u => u.axes = s.axes
  | .aux, s, u => u.aux = s.aux
  | .cmps, s, u => u.cmps = s.cmps
  | .insp, s, u => u.insp = s.insp
  | .cal, s, u => u.cal = s.cal
  | .hpc, s, u => u.hpc = s.hpc
  | .xing, s, u => u.xing = s.xing
  | .sent, s, u => u.sent = s.sent
  | .free, s, u => u.free = s.free
  | .pending, s, u => u.pending = s.pending
  | .up, s, u => u.pwr.up = s.pwr.up
  | .values, _, _ => True

/-- Every object but those of a list keeps its values in force. -/
def ObjsKept (O : List Nat) (s u : State) : Prop := ∀ id, id ∉ O → ∀ i, getE u id i = getE s id i

/-- Nothing but the groups T and the values of the objects O differs; what was sound is sound, what has left the device
has left it, and the tick is the same. -/
structure Keeps (T : List Area) (O : List Nat) (s u : State) : Prop where
  areas : ∀ a, a ∉ T → a.same s u
  objs : .values ∉ T → ObjsKept O s u
  sound : Sound s → Sound u
  sent : s.sent <+: u.sent
  tick : u.clock.tick = s.clock.tick

/-- The objects that every command may write: the counters of lost and of masked events (R113, R116). -/
def countersOfEvents : List Nat := [Obj.eventLost, Obj.eventMasked]

/-- What a command at tick t leaves alone: nothing but the groups T and the values of the objects O differs, save that
time passes (R148, R149) and that READY follows its functions with an event for each change (R60). -/
structure Frame (t : Nat) (T : List Area) (O : List Nat) (s u : State) : Prop where
  clock : Area.clock ∉ T → u.clock = (advance t s).clock
  up : Area.up ∉ T → u.pwr.up = s.pwr.up
  ev : Area.ev ∉ T → u.pwr.ready = s.pwr.ready → u.ev = s.ev
  areas : ∀ a, a ∉ T → a ≠ .clock → a ≠ .up → a ≠ .ev → a.same s u
  objs : .values ∉ T → ObjsKept (O ++ countersOfEvents) s u

/-- A command leaves alone all but the groups T and the objects O, in every state. -/
def LeavesAlone (c : Instr) (T : List Area) (O : List Nat) : Prop := ∀ s, Answers c s (Frame c.tick T O s)

/-- An event of that group and number with those parameters has been raised since s. -/
def Raises (code : Nat) (params : List Word) (s u : State) : Prop :=
  ∃ new, u.ev.raised = s.ev.raised ++ new ∧
    ∃ e ∈ new, e.group = code / 4096 ∧ e.number = code % 4096 ∧ e.params = params

/-- Those frames, pulses and replies have left the device since s, in this order, and nothing else. -/
def Sends (xs : List Sent) (s u : State) : Prop := u.sent = s.sent ++ xs

/-- No word of a memory differs but those of control processor RAM that hold element i of an object of n words an
element (R449). -/
def RamOnly (obj i n : Nat) (s u : State) : Prop :=
  ∀ m a, ¬ (m = 6 ∧ ∃ k, k < n ∧ a = Config.ramWord obj (n * i + k) % 524288) → cellAt u m a = cellAt s m a

/-- The access is refused with that code: the reply leaves, and nothing else happens. -/
def Refuses (c : Instr) (s : State) (code : Nat) : Prop :=
  Answers c s (fun u => Sends [.reply code []] s u ∧ Frame c.tick [.sent] [] s u)

/-- Every code under which a plain write of one element of an object at this device is refused (R82 to R84, R505),
0 standing for none. -/
def writeCodes (obj i : Nat) (vals : List Word) (s : State) : List Nat :=
  match findObj obj with
  | none => [0x01]
  | some d =>
    (plainAborts d true i 1 ++ [whenCode (vals.length != d.wordsPer) 0x05])
      ++ ((pageAbortCode d s :: gateAborts d true false s)
        ++ (match elemsOf d.wordsPer vals with
          | e :: _ => elemAborts d i e s
          | [] => []))

/-- A plain write of one element is accepted: no code applies. -/
abbrev Accepted (obj i : Nat) (vals : List Word) (s : State) : Prop := ∀ c ∈ writeCodes obj i vals s, c = 0

/-- The device is awake, its firmware runs, and no uncorrectable word of control processor RAM waits to restart it. -/
abbrev Works (s : State) : Prop := awake s = true ∧ rdy s 25 = true ∧ s.pwr.codeError = false

/-- No step of a wind-down is under way that another happening could end (R67). -/
abbrev Steady (s : State) : Prop := s.pwr.autumn.step ≠ 1 ∧ s.pwr.autumn.step ≠ 2

end Sys2Proof.Machine
end

