-- ==== Sys2Proof/Certificates/Slice0/Obligations.lean ====
section
/-! DEFINITION. The statements for the provers, from the numbered rules of spec/. -/

open Sys2Proof Sys2Proof.Machine

/-- A step of a state with command c at the front of its queue is `exec c` on the state with the rest of the queue. -/
def Obligations.StepRunsTheFrontCommand : Prop :=
  ∀ (c : Instr) (s : State), step { s with pending := c :: s.pending } = exec c s

/-- A step on an empty queue is one tick: a choice of the model (notes/assumptions/1.md). What the tick does follows R148 and R149. -/
def Obligations.EmptyQueueLetsATickPass : Prop :=
  ∀ s : State, s.pending = [] → ∃ u, step s = .next u
    ∧ u.clock = { s.clock with
        tick := s.clock.tick + 1
        acc := if rdy s 5 then (s.clock.acc + getN s Obj.rateAddend 0) % 2 ^ 100 else s.clock.acc }
    ∧ Frame (s.clock.tick + 1) [] [] s u

/-- The state right after reset, with the values the spec gives, meets the invariants of the model. -/
def Obligations.ResetIsThawWithDefaults : Prop :=
  State.reset.pwr.season = .thaw ∧ State.reset.pwr.inReset = false ∧ State.reset.pwr.ready = 1
    ∧ State.reset.dict.active = [] ∧ State.reset.ev.queue = [] ∧ State.reset.ev.nextSeq = 0
    ∧ time72 State.reset = 0 ∧ State.reset.pages = [] ∧ (∀ m, (memU State.reset m).cells = [])
    ∧ State.reset.pending = [] ∧ ReadyAgrees State.reset ∧ Sound State.reset

/-- READY agrees with its functions after every step. -/
def Obligations.ReadyAgreesAfterEveryStep : Prop :=
  ∀ s t : State, ReadyAgrees s → Steps s t → ReadyAgrees t

/-- The canonical form of memories and values, and the limits of the event queue and of the AON buffer, are kept by every step. -/
def Obligations.StepsKeepMemoriesValuesAndEventsSound : Prop :=
  ∀ s t : State, Sound s → Steps s t → Sound t

/-- A step takes the front command and no other, and never takes back what left the device. -/
def Obligations.StepsTakeOneCommandAndOnlySendMore : Prop :=
  ∀ s t : State, Steps s t → t.pending = s.pending.drop 1 ∧ s.sent <+: t.sent

/-- The tick count goes to the command's tick, and nothing else alters it (R148). -/
def Obligations.CommandsNeverSetTheTickBack : Prop :=
  ∀ (c : Instr) (s : State), Answers c s (fun u => u.clock.tick = max s.clock.tick c.tick)

/-- READY bits and what they depend on (R22; the reading of its table is notes/assumptions/11.md). -/
def Obligations.ReadyHonoursDependencies : Prop :=
  ∀ s : State, ReadyAgrees s →
    (rdy s 5 = true → rdy s 4 = true)
    ∧ (rdy s 6 = true → rdy s 5 = true ∧ rdy s 4 = true)
    ∧ (rdy s 8 = true → rdy s 7 = true ∧ rdy s 4 = true)
    ∧ (rdy s 9 = true → rdy s 8 = true ∧ rdy s 7 = true ∧ rdy s 4 = true ∧ rdy s 25 = true)
    ∧ (rdy s 12 = true → rdy s 4 = true ∧ rdy s 5 = true ∧ (rdy s 13 = true ∨ rdy s 14 = true ∨ rdy s 15 = true))
    ∧ (rdy s 15 = true → rdy s 5 = true ∧ rdy s 4 = true)
    ∧ (rdy s 16 = true → rdy s 5 = true ∧ rdy s 4 = true)
    ∧ (rdy s 18 = true → rdy s 17 = true)
    ∧ (rdy s 19 = true → rdy s 18 = true ∧ rdy s 17 = true ∧ rdy s 9 = true)
    ∧ (rdy s 21 = true → rdy s 20 = true)

/-- The order of checking (R111). -/
def Obligations.FirstAbortInTheOrderOfChecking : Prop :=
  (∀ codes : List Nat,
    (firstAbort codes = 0 ∧ ∀ c ∈ abortOrder, c ∉ codes)
    ∨ (∃ pre post, abortOrder = pre ++ firstAbort codes :: post ∧ firstAbort codes ∈ codes ∧ ∀ c ∈ pre, c ∉ codes))
  ∧ (∀ t a s d, awake s = true → s.pwr.codeError = false → routeOf a.slot s = .here → findObj a.obj = some d →
      firstAbort (plainAborts d false a.index a.count ++ gateAborts d false a.shadow s) ≠ 0 →
      Refuses (.readObj t a) s (firstAbort (plainAborts d false a.index a.count ++ gateAborts d false a.shadow s)))
  ∧ (∀ t a vals s d, awake s = true → s.pwr.codeError = false → routeOf a.slot s = .here → findObj a.obj = some d →
      firstAbort (plainAborts d true a.index a.count ++ [whenCode (vals.length != a.count * d.wordsPer) 0x05]) ≠ 0 →
      Refuses (.writeObject t a vals) s
        (firstAbort (plainAborts d true a.index a.count ++ [whenCode (vals.length != a.count * d.wordsPer) 0x05])))

/-- What a plain access must fit (R82), with the order of R111. -/
def Obligations.PlainAccessesMustFitTheirObject : Prop :=
  (∀ t a s d, awake s = true → s.pwr.codeError = false → routeOf a.slot s = .here → findObj a.obj = some d → d.isBulk = false →
    (if d.isArray then a.index + max a.count 1 > d.count else a.index ≠ 0) →
    Refuses (.readObj t a) s 0x02 ∧ ∀ vals, Refuses (.writeObject t a vals) s 0x02)
  ∧ (∀ t a s d vals, awake s = true → s.pwr.codeError = false → routeOf a.slot s = .here → findObj a.obj = some d → d.isBulk = false →
    (if d.isArray then a.index + max a.count 1 ≤ d.count else a.index = 0) → (d.cls = .const ∨ d.cls = .ro) →
    Refuses (.writeObject t a vals) s 0x03)
  ∧ (∀ t a s d, awake s = true → s.pwr.codeError = false → routeOf a.slot s = .here → findObj a.obj = some d → d.isBulk = false →
    (if d.isArray then a.index + max a.count 1 ≤ d.count else a.index = 0) → d.cls = .wo →
    Refuses (.readObj t a) s 0x04)
  ∧ (∀ t a s d, awake s = true → s.pwr.codeError = false → routeOf a.slot s = .here → findObj a.obj = some d →
    (d.isBulk = true ∨ (d.isArray = false ∧ a.index = 0 ∧ a.count ≠ 1)
      ∨ (d.isArray = true ∧ a.index < d.count ∧ a.count = 0)) →
    (d.cls ≠ .wo → Refuses (.readObj t a) s 0x05)
      ∧ (d.cls ≠ .const → d.cls ≠ .ro → ∀ vals, Refuses (.writeObject t a vals) s 0x05))

/-- Objects that are not defined (R119). -/
def Obligations.UndefinedObjectsAreRefused : Prop :=
  (∀ id, id / 4096 > 0x15 → findObj id = none)
  ∧ (∀ t a s vals, awake s = true → s.pwr.codeError = false → (routeOf a.slot s = .here ∨ routeOf a.slot s = .all) →
      findObj a.obj = none →
      Refuses (.readObj t a) s 0x01 ∧ Refuses (.writeObject t a vals) s 0x01 ∧ Refuses (.openRead t a) s 0x01
        ∧ Refuses (.openWrite t a) s 0x01)

/-- SAVE without a usable flash (R78), and while a save is running (R88). -/
def Obligations.SaveBeforeTheFlashIsUsableIsRefused : Prop :=
  ∀ t s, awake s = true → s.pwr.codeError = false → (rdy s 24 = false ∨ s.flash.saving.isSome = true) → Refuses (.saveReq t) s 0x08

/-- Refusals of season requests (R66, with the seasons of R65 in which each is accepted). -/
def Obligations.SeasonRequestsRefused : Prop :=
  (∀ t s, awake s = true → s.pwr.codeError = false → s.pwr.season = .autumn →
    Refuses (.seasonReqWinter t) s 0x08 ∧ Refuses (.seasonReqHold t) s 0x08 ∧ Refuses (.seasonReqSummer t) s 0x08
      ∧ Refuses (.seasonReqRestart t) s 0x08)
  ∧ (∀ t s, awake s = true → s.pwr.codeError = false → s.pwr.season = .summer → Refuses (.seasonReqHold t) s 0x07)
  ∧ (∀ t s, awake s = true → s.pwr.codeError = false → s.pwr.season ≠ .autumn → pageInProgress s = true →
    Refuses (.seasonReqWinter t) s 0x07 ∧ Refuses (.seasonReqRestart t) s 0x07)
  ∧ (∀ v s, v ≤ 3 → s.pwr.season ≠ .autumn → (v = 1 → s.pwr.season = .thaw) → (v = 0 ∨ v = 3 → pageInProgress s = false) →
    seasonReqAbort v s = 0)

/-- Refusals of 01.003 FUNC_RESET (R74). -/
def Obligations.FuncResetWritesRefused : Prop :=
  ∀ t slot v s, awake s = true → s.pwr.codeError = false → routeOf slot s = .here → bitOf v 25 = false →
    ((bitOf v 4 = true ∨ bitOf v 20 = true) ∧ s.pwr.season ≠ .thaw →
      Refuses (.writeObject t { slot := slot, obj := Obj.funcReset, index := 0, count := 1, shadow := false } [v]) s 0x07)
    ∧ (¬ ((bitOf v 4 = true ∨ bitOf v 20 = true) ∧ s.pwr.season ≠ .thaw) →
      (bitOf v 0 = true ∨ bitOf v 6 = true ∨ bitOf v 10 = true ∨ bitOf v 23 = true ∨ v.toNat ≥ 2 ^ 26 →
        Refuses (.writeObject t { slot := slot, obj := Obj.funcReset, index := 0, count := 1, shadow := false } [v]) s 0x06)
      ∧ (¬ (bitOf v 0 = true ∨ bitOf v 6 = true ∨ bitOf v 10 = true ∨ bitOf v 23 = true ∨ v.toNat ≥ 2 ^ 26) →
        (role s = 2 ∧ bitOf v 1 = true ∧ bitOf v 2 = true) ∨ (role s = 1 ∧ bitOf v 1 = true ∧ bitOf v 2 = true ∧ bitOf v 3 = true)
            ∨ (role s = 0 ∧ bitOf v 3 = true) →
        Refuses (.writeObject t { slot := slot, obj := Obj.funcReset, index := 0, count := 1, shadow := false } [v]) s 0x0C))

/-- The order of page numbers (R94). -/
def Obligations.OfTwoPagesAtMostOneIsAhead : Prop :=
  ∀ p q : Nat, p < 2 ^ 24 → q < 2 ^ 24 →
    (ahead p q = true ↔ 1 ≤ ((p : Int) - q) % 2 ^ 24 ∧ ((p : Int) - q) % 2 ^ 24 ≤ 2 ^ 23 - 1)
    ∧ ((((p : Int) - q) % 2 ^ 24 = 0 ∨ ((p : Int) - q) % 2 ^ 24 = 2 ^ 23) → ahead p q = false ∧ ahead q p = false)
    ∧ ¬ (ahead p q = true ∧ ahead q p = true)

/-- The mask (R113) and the merging of repeats (R114). -/
def Obligations.EventsPassTheMaskAndMerge : Prop :=
  ∀ (s : State) (e : Event),
    (passesMask s e = true ↔ e.sev = 3 ∨ (e.group ≤ 0x15 ∧ bitOf (eventMask s) e.group = true ∧ bitOf (eventMask s) (32 + e.sev) = true))
    ∧ (passesMask s e = false → (enqueue s e).ev = s.ev
        ∧ getN (enqueue s e) Obj.eventMasked 0 = min (getN s Obj.eventMasked 0 + 1) (2 ^ 36 - 1))
    ∧ (∀ older q, s.ev.queue = older ++ [q] → passesMask s e = true → e.group = q.event.group → e.number = q.event.number →
        e.params = q.event.params → (e.time - q.event.time + (q.event.time - e.time)) * 1000 ≤ 2 ^ 36 →
        (q.rep < 8191 → (enqueue s e).ev.queue = older ++ [{ q with rep := q.rep + 1 }])
        ∧ (8191 ≤ q.rep → (enqueue s e).ev.queue = s.ev.queue)
        ∧ (enqueue s e).ev.nextSeq = s.ev.nextSeq)

/-- RWB objects and their shadow (R90). -/
def Obligations.WritesOfRwbObjectsWriteTheShadowAlone : Prop :=
  (∀ t slot obj i vals d e s, Works s → routeOf slot s = .here → findObj obj = some d → d.cls = .rwb →
    elemsOf d.wordsPer vals = [e] → Accepted obj i vals (advance t s) →
    Answers (.writeObject t { slot := slot, obj := obj, index := i, count := 1, shadow := false } vals) s (fun u =>
      getShadow u obj i = maskElem d e ∧ obj ∈ u.dict.dirty ∧ u.sent = s.sent ++ [.reply 0 []]
        ∧ (∀ id k, id ∉ [Obj.eventLost, Obj.eventMasked, Obj.flipCtrl] → getE u id k = getE s id k)))
  ∧ (∀ t slot obj d s, awake s = true → s.pwr.codeError = false → routeOf slot s = .here → findObj obj = some d →
    d.cls ≠ .rwb → d.cls ≠ .wo → d.isBulk = false → 1 ≤ d.count →
    Refuses (.readObj t { slot := slot, obj := obj, index := 0, count := 1, shadow := true }) s 0x07)

/-- Accesses that are carried out at this device: READ, OPEN_READ, OPEN_WRITE, SEGMENT, CLOSE, TRANSFER_TIMEOUT and
BROADCAST_WRITE. -/
def Obligations.AccessesAndBlockTransfersAreCarriedOut : Prop :=
  (∀ t a d s, awake s = true → routeOf a.slot s = .here → findObj a.obj = some d →
    (∀ c ∈ plainAborts d false a.index a.count ++ gateAborts d false a.shadow s, c = 0) →
    (readElems d a.shadow a.index a.count (advance t s)).2.pwr.codeError = false →
    Answers (.readObj t a) s (fun u =>
      u.sent = s.sent ++ [.reply 0 (readElems d a.shadow a.index a.count (advance t s)).1]))
  ∧ (∀ t slot s, Works s → routeOf slot s = .here →
    Answers (.readObj t { slot := slot, obj := Obj.ready, index := 0, count := 1, shadow := false }) s (fun u =>
      u.sent = s.sent ++ [.reply 0 [s.pwr.ready]]))
  ∧ (∀ t a d h s, Works s → routeOf a.slot s = .here → findObj a.obj = some d → d.isBulk = true → d.cls ≠ .wo →
    a.count > 0 → a.index + a.count ≤ d.count → (a.shadow = true → d.cls = .rwb) → writeOpen s d.id = false →
    h < 4 → transferOf s h = none → (∀ k, k < h → transferOf s k ≠ none) →
    Answers (.openRead t a) s (fun u =>
      u.sent = s.sent ++ [.reply 0 [wd h]]
        ∧ transferOf u h = some { obj := a.obj, write := false, shadow := a.shadow, offset := a.index, length := a.count,
                                  nextSeq := 0, words := [], sent := 0, switched := false,
                                  captured := if a.obj = Obj.headBook then (List.range d.count).map (bookWord (advance t s)) else [] }))
  ∧ (∀ t a d h s, Works s → routeOf a.slot s = .here → findObj a.obj = some d → d.isBulk = true → d.cls ≠ .const →
    d.cls ≠ .ro → a.count > 0 → a.index + a.count ≤ d.count → (a.shadow = true → d.cls = .rwb) → writeOpen s d.id = false →
    (d.cls = .rwi → pageInProgress s = false) → (d.cls = .rwb → inCommit s d.id = false) →
    (d.id = Obj.nozzleTable → s.nt.seeding = false) →
    h < 4 → transferOf s h = none → (∀ k, k < h → transferOf s k ≠ none) →
    Answers (.openWrite t a) s (fun u =>
      u.sent = s.sent ++ [.reply 0 [wd h]] ∧ (d.cls = .rwb → a.obj ∈ u.dict.badShadow)
        ∧ transferOf u h = some { obj := a.obj, write := true, shadow := a.shadow, offset := a.index, length := a.count,
                                  nextSeq := 0, words := [], sent := 0, switched := false, captured := [] }))
  ∧ (∀ t (h : Fin 4) (seq : Nat) (ws : List Word) (tr : Transfer) s, awake s = true → s.pwr.codeError = false →
    transferOf s h.val = some tr → tr.write = true → 1 ≤ ws.length → ws.length ≤ 256 → tr.words.length + ws.length ≤ tr.length →
    seq % 65536 = tr.nextSeq → segmentBarred tr s = false →
    Answers (.segment t h seq ws.length ws) s (fun u =>
      u.sent = s.sent ++ [.reply 0 []]
        ∧ transferOf u h.val = some { tr with words := tr.words ++ ws, nextSeq := (tr.nextSeq + 1) % 65536 }))
  ∧ (∀ t (h : Fin 4) (seq count : Nat) (tr : Transfer) s, awake s = true → s.pwr.codeError = false →
    transferOf s h.val = some tr → tr.write = false → 1 ≤ count → count ≤ 256 → tr.sent + count ≤ tr.length →
    tr.switched = false → seq % 65536 = tr.nextSeq →
    Answers (.segment t h seq count []) s (fun u => ∃ ws, ws.length = count
        ∧ u.sent = s.sent ++ [.reply 0 (if tr.sent + count = tr.length then ws ++ [wd (crc32 (tr.words ++ ws))] else ws)]
        ∧ transferOf u h.val = some { tr with words := tr.words ++ ws, sent := tr.sent + count,
                                              nextSeq := (tr.nextSeq + 1) % 65536 }))
  ∧ (∀ t (h : Fin 4) (crc : BitVec 32) (tr : Transfer) s, awake s = true → s.pwr.codeError = false →
    transferOf s h.val = some tr → tr.write = false →
    Answers (.closeTransfer t h crc) s (fun u => u.sent = s.sent ++ [.reply 0 []] ∧ transferOf u h.val = none))
  ∧ (∀ t (h : Fin 4) (crc : BitVec 32) (tr : Transfer) d s, awake s = true → s.pwr.codeError = false →
    transferOf s h.val = some tr → tr.write = true → tr.length ≤ tr.words.length → findObj tr.obj = some d → d.cls = .rwb →
    crc.toNat = crc32 tr.words → closeOk d.id (fun i => elemLo (getShadow s d.id i)) = true →
    Answers (.closeTransfer t h crc) s (fun u =>
      u.sent = s.sent ++ [.reply 0 []] ∧ transferOf u h.val = none ∧ tr.obj ∉ u.dict.badShadow))
  ∧ (∀ t (h : Fin 4) s, awake s = true → Answers (.transferTimeout t h) s (fun u => transferOf u h.val = none))
  ∧ (∀ t a vals d e s, Works s → role s = 0 → findObj a.obj = some d → d.cls = .rwb → d.isArray = false → d.isBulk = false →
    a.index = 0 → a.count = 1 → a.shadow = false → elemsOf d.wordsPer vals = [e] → Accepted a.obj 0 vals (advance t s) →
    Answers (.broadcastWrite t a vals) s (fun u =>
      u.sent = s.sent ++ [.reply 0 [0, 1, 0]] ∧ getShadow u a.obj 0 = maskElem d e ∧ a.obj ∈ u.dict.dirty))

/-- COMMIT_PAGE, COMMIT_CANCEL, COMMIT_NOW, SAVE, EVENT_ACK and CONTROL_CYCLE. -/
def Obligations.CommitsSavesAndTheEventQueue : Prop :=
  (∀ t page i s, Works s → Accepted Obj.commitPage 0 [page] (advance t s) → s.dict.dirty ≠ [] →
    (∀ x ∈ pendingCommits s, x.2.page ≠ fld page 23 0) → i < 4 → vget s.dict.commits i none = none →
    (∀ k, k < i → vget s.dict.commits k none ≠ none) →
    Answers (.commitPage t page) s (fun u => u.dict.dirty = []
      ∧ vget u.dict.commits i none = some { page := fld page 23 0, objs := s.dict.dirty, image := capture s s.dict.dirty,
                                            inputDone := false, screenDone := false, heads := 0 }))
  ∧ (∀ t page s, Works s → Accepted Obj.commitPage 0 [page] (advance t s) → s.dict.dirty = [] →
    Answers (.commitPage t page) s (fun u => u.dict.dirty = [] ∧ u.dict.commits = s.dict.commits ∧ u.sent = s.sent ++ [.reply 0 []]))
  ∧ (∀ t page i c s, Works s → Accepted Obj.commitCancel 0 [page] (advance t s) →
    (pendingCommits s).find? (fun x => x.2.page == fld page 23 0) = some (i, c) →
    Answers (.commitCancel t page) s (fun u => vget u.dict.commits i none = none ∧ ∀ o ∈ c.objs, o ∈ u.dict.dirty))
  ∧ (∀ t s, Works s → Sound s → Accepted Obj.commitNow 0 [1] (advance t s) →
    Answers (.commitNow t) s (fun u => u.dict.dirty = []
      ∧ ∀ o ∈ s.dict.dirty, ∀ d, findObj o = some d → d.cls = .rwb → o ≠ Obj.screenStore → ∀ k, getE u o k = getShadow s o k))
  ∧ (∀ t s, Works s → Accepted Obj.save 0 [1] (advance t s) →
    Answers (.saveReq t) s (fun u => getN u Obj.save 0 = 1 ∧ u.flash.saving.isSome = true
      ∧ u.flash.persist = markUnused s.flash.persist ∧ u.flash.tables = markUnused s.flash.tables))
  ∧ (∀ t seq older q rest s, Works s → s.ev.queue = older ++ q :: rest → q.seq = seq.toNat → (∀ e ∈ older, e.seq ≠ seq.toNat) →
    Accepted Obj.eventAck 0 [seq] (advance t s) →
    Answers (.eventAck t seq) s (fun u => u.ev.queue = rest))
  ∧ (∀ t e s, awake s = true → ReadyAgrees s → s.ev.raised = [e] → passesMask s e = true → s.ev.queue.length < 240 →
    (∀ q, s.ev.queue.getLast? = some q → repeatsEntry e q = false) →
    Answers (.controlCycle t) s (fun u => u.ev.raised = []
      ∧ u.ev.queue = s.ev.queue ++ [{ event := e, seq := s.ev.nextSeq, rep := 0 }] ∧ u.ev.nextSeq = (s.ev.nextSeq + 1) % 2 ^ 36))

/-- SEASON_REQ_WINTER, SEASON_REQ_RESTART, SEASON_REQ_HOLD, SEASON_REQ_SUMMER and WATCHDOG_TIMEOUT. -/
def Obligations.SeasonRequestsTakeEffect : Prop :=
  (∀ t s, Works s → Accepted Obj.seasonReq 0 [0] (advance t s) →
    (∃ h, (linkU s h).state = .ready ∧ (linkU s h).idle = false) → Answers (.seasonReqWinter t) s (fun u =>
      u.pwr.season = .autumn ∧ u.pwr.autumn = { step := 1, toWinter := true, firmware := false, capping := [], again := false }
        ∧ u.cal.queue = [] ∧ u.cal.running = []))
  ∧ (∀ t s, Works s → Accepted Obj.seasonReq 0 [3] (advance t s) →
    (∃ h, (linkU s h).state = .ready ∧ (linkU s h).idle = false) → Answers (.seasonReqRestart t) s (fun u =>
      u.pwr.season = .autumn ∧ u.pwr.autumn = { step := 1, toWinter := false, firmware := false, capping := [], again := false }
        ∧ u.cal.queue = [] ∧ u.cal.running = []))
  ∧ (∀ t s, awake s = true → s.pwr.season ≠ .autumn →
    (∃ h, (linkU s h).state = .ready ∧ (linkU s h).idle = false) → Answers (.watchdogTimeout t) s (fun u =>
      u.pwr.season = .autumn ∧ u.pwr.autumn = { step := 1, toWinter := false, firmware := true, capping := [], again := false }
        ∧ u.cal.queue = [] ∧ u.cal.running = []))
  ∧ (∀ t s, Works s → Accepted Obj.seasonReq 0 [1] (advance t s) → Answers (.seasonReqHold t) s (fun u =>
      getN u Obj.seasonReq 0 = 1 ∧ u.pwr.reqSaved = 1 ∧ u.pwr.season = s.pwr.season))
  ∧ (∀ t s, Works s → Accepted Obj.seasonReq 0 [2] (advance t s) → Answers (.seasonReqSummer t) s (fun u =>
      getN u Obj.seasonReq 0 = 2 ∧ u.pwr.reqSaved = 2 ∧ u.pwr.season = s.pwr.season))

/-- FUNC_RESET_HOLD, FUNC_RESET_RELEASE and FUNC_RESET_RESTART. -/
def Obligations.HeldFunctionsAreNotReady : Prop :=
  (∀ t (b : Fin 36) s, Works s → Steady s → s.fabric.work = none → b.val ≠ 25 →
    Accepted Obj.funcReset 0 [setBit (heldNow s) b.val true] (advance t s) →
    Answers (.funcResetHold t b) s (fun u => bitOf (getW u Obj.funcReset 0) b.val = true ∧ rdy u b.val = false))
  ∧ (∀ t (b : Fin 36) s, Works s → Steady s → s.fabric.work = none → b.val ≠ 25 →
    Accepted Obj.funcReset 0 [setBit (heldNow s) b.val false] (advance t s) →
    Answers (.funcResetRelease t b) s (fun u => bitOf (getW u Obj.funcReset 0) b.val = false
      ∧ ∀ k, k < 25 → k ≠ b.val → bitOf (getW u Obj.funcReset 0) k = bitOf (getW s Obj.funcReset 0) k))
  ∧ (∀ t s, exec (.funcResetHold t 25) s = exec (.funcResetRestart t) s)
  ∧ (∀ t s, Works s → Steady s → Accepted Obj.funcReset 0 [setBit (heldNow s) 25 true] (advance t s) →
    (∃ h, (linkU s h).state = .ready ∧ (linkU s h).idle = false) →
    Answers (.funcResetRestart t) s (fun u => bitOf (getW u Obj.funcReset 0) 25 = false ∧ u.pwr.season = .autumn
      ∧ u.pwr.autumn = { step := 1, toWinter := false, firmware := false, capping := [], again := false }))

/-- AUTUMN_IDLE_TIMEOUT, AUTUMN_CAP_TIMEOUT, AUTUMN_STAGGER_OFF, SAVE_COMPLETE and SAVE_TIMEOUT. -/
def Obligations.AutumnGoesStepByStep : Prop :=
  (∀ t s, awake s = true → s.pwr.season = .autumn → s.pwr.autumn.step = 1 → s.pwr.autumn.firmware = false →
    s.flash.saving = none → rdy s 24 = true → getN s Obj.autumnCap 0 = 0 →
    Answers (.autumnIdleTimeout t) s (fun u => u.pwr.season = .autumn ∧ u.pwr.autumn.step = 3 ∧ u.flash.saving.isSome = true
      ∧ getN u Obj.save 0 = 1 ∧ fld (getW u Obj.bootStatus 0) 25 24 = 0))
  ∧ (∀ t s, awake s = true → s.pwr.season = .autumn → s.pwr.autumn.step = 2 → s.flash.saving = none → rdy s 24 = true →
    Answers (.autumnCapTimeout t) s (fun u => u.pwr.season = .autumn ∧ u.pwr.autumn.step = 3 ∧ u.flash.saving.isSome = true
      ∧ getN u Obj.save 0 = 1 ∧ fld (getW u Obj.bootStatus 0) 25 24 = 2))
  ∧ (∀ t s rest n, awake s = true → s.pwr.season = .autumn → s.pwr.autumn.step = 4 → s.hpc.order = rest ++ [n] → rest ≠ [] →
    n ∉ rest → Answers (.autumnStaggerOff t) s (fun u => u.pwr.season = .autumn ∧ u.pwr.autumn.step = 4 ∧ u.hpc.order = rest
      ∧ (chan u n).state = .off ∧ (n < 36 → bitOf (getW u Obj.hpcEnable 0) n = false)))
  ∧ (∀ t s n, awake s = true → s.pwr.season = .autumn → s.pwr.autumn.step = 4 → s.hpc.order = [n] → s.pwr.wakeLatched = none →
    Answers (.autumnStaggerOff t) s (fun u =>
      if s.pwr.autumn.toWinter then u.pwr.season = .winter ∧ u.hpc.order = [] ∧ u.ev.queue = []
      else u.pwr.season = .thaw ∧ u.hpc.order = [] ∧ fld (getW u Obj.bootStatus 0) 35 32 = if s.pwr.autumn.firmware then 5 else 7))
  ∧ (∀ t s images, awake s = true → s.flash.saving = some images → (s.pwr.season ≠ .autumn ∨ s.pwr.autumn.step ≠ 3) →
    Answers (.saveComplete t true) s (fun u => u.flash.saving = none ∧ getN u Obj.save 0 = 2
      ∧ bitOf (getW u Obj.bootStatus 0) 26 = false ∧ u.flash.persist = writeUnused s.flash.persist images.1
      ∧ u.flash.tables = writeUnused s.flash.tables images.2))
  ∧ (∀ t s c, awake s = true → s.flash.saving.isSome = true → (s.pwr.season ≠ .autumn ∨ s.pwr.autumn.step ≠ 3) →
    (c = .saveTimeout t ∨ c = .saveComplete t false) →
    Answers c s (fun u => u.flash.saving = none ∧ getN u Obj.save 0 = 3 ∧ bitOf (getW u Obj.bootStatus 0) 26 = true
      ∧ u.flash.persist = s.flash.persist ∧ u.flash.tables = s.flash.tables))

/-- RAIL_OUT_OF_RANGE, RAIL_BACK_IN_RANGE, POWER_ON_RESET, POWER_ON_RELEASE, RESET_N_LOW, RESET_N_HIGH, WAKE_PIN and
WAKE_PATTERN. -/
def Obligations.RailsResetsAndWakesSetTheSeason : Prop :=
  (∀ t (rail : Rail) mv s, s.pwr.inReset = false → (s.pwr.season = .winter ∨ s.pwr.season = .thaw) →
    Answers (.railOutOfRange t rail mv) s (fun u => u.pwr.season = s.pwr.season ∧ nbit u.pwr.railsOut.toNat rail.val = true
      ∧ getW u Obj.railFlags 0 = getW s Obj.railFlags 0 ||| wd (2 ^ rail.val) ∧ getN u Obj.railMeas rail.val = min mv (2 ^ 18 - 1)
      ∧ (rdy s 25 = true → Raises 0x01004 [p9 rail.val, pNum mv] s u)))
  ∧ (∀ t (rail : Rail) mv s, s.pwr.inReset = false →
    (s.pwr.season = .summer ∨ (s.pwr.season = .autumn ∧ s.pwr.autumn.toWinter = false)) →
    Answers (.railOutOfRange t rail mv) s (fun u => u.pwr.season = .thaw ∧ getN u Obj.seasonReq 0 = 1 ∧ u.hpc.order = []
      ∧ u.pwr.reqSaved = s.pwr.reqSaved ∧ fld (getW u Obj.bootStatus 0) 35 32 = 6))
  ∧ (∀ t (rail : Rail) s, Answers (.railBackInRange t rail) s (fun u => nbit u.pwr.railsOut.toNat rail.val = false))
  ∧ (∀ t s, Answers (.powerOnReset t) s (fun u => u.pwr.inReset = true ∧ u.pwr.powerOn = true ∧ u.pages = []
      ∧ getN u Obj.railFlags 0 = 0 ∧ u.hpc.chans = State.reset.hpc.chans ∧ u.pwr.bypassOpen = false))
  ∧ (∀ t strap s, s.pwr.powerOn = true → s.pwr.resetLow = false → Answers (.powerOnRelease t strap) s (fun u => u.pwr.inReset = false ∧ u.pwr.season = .thaw
      ∧ u.pwr.strap = strap ∧ fld (getW u Obj.bootStatus 0) 35 32 = 0 ∧ u.ev.queue = []))
  ∧ (∀ t s, Answers (.resetNLow t) s (fun u => u.pwr.inReset = true ∧ u.pwr.powerOn = s.pwr.powerOn ∧ u.pages = []
      ∧ getN u Obj.railFlags 0 = getN s Obj.railFlags 0 ∧ u.pwr.railsOut = s.pwr.railsOut
      ∧ u.hpc.chans = State.reset.hpc.chans ∧ u.pwr.bypassOpen = false))
  ∧ (∀ t strap s, s.pwr.inReset = true → s.pwr.powerOn = false → Answers (.resetNHigh t strap) s (fun u =>
      u.pwr.inReset = false ∧ u.pwr.season = .thaw ∧ u.pwr.strap = strap ∧ fld (getW u Obj.bootStatus 0) 35 32 = 1
        ∧ getN u Obj.railFlags 0 = getN s Obj.railFlags 0))
  ∧ (∀ t s, s.pwr.inReset = false → bitOf (getW s Obj.wakeSrcEn 0) 0 = true →
    Answers (.wakePin t) s (fun u =>
      (s.pwr.season = .winter → u.pwr.season = .thaw ∧ fld (getW u Obj.bootStatus 0) 35 32 = 2)
        ∧ (s.pwr.season = .autumn → s.pwr.wakeLatched = none → u.pwr.season = .autumn ∧ u.pwr.wakeLatched = some 2)))
  ∧ (∀ t (port : RingPort) s, s.pwr.inReset = false → bitOf (getW s Obj.wakeSrcEn 0) (if port = .rngA then 1 else 2) = true →
    Answers (.wakePattern t port) s (fun u =>
      (s.pwr.season = .winter → u.pwr.season = .thaw ∧ fld (getW u Obj.bootStatus 0) 35 32 = if port = .rngA then 3 else 4)
        ∧ (s.pwr.season = .autumn → s.pwr.wakeLatched = none →
          u.pwr.season = .autumn ∧ u.pwr.wakeLatched = some (if port = .rngA then 3 else 4))))

/-- DOMAINS_POWERED, PLL_LOCK, FUNCTION_READY, FLASH_DISCOVERED, NT_LOAD_DONE, WAKE_RELAY and ENTER_SUMMER. -/
def Obligations.BringUpSetsReadiness : Prop :=
  (∀ t s, awake s = true → Answers (.domainsPowered t) s (fun u => u.pwr.domains = true
      ∧ (u.pwr.bypassOpen = true ↔ role s ≠ 0)))
  ∧ (∀ t s, awake s = true → bitOf (getW s Obj.funcReset 0) 4 = false → bitOf (getW s Obj.funcReset 0) 5 = false →
    Answers (.pllLock t) s (fun u => bitOf u.pwr.up 4 = true ∧ bitOf u.pwr.up 5 = true ∧ bitOf u.pwr.up 15 = true))
  ∧ (∀ t (bit : ReadyBit) s, awake s = true → bitOf (getW s Obj.funcReset 0) bit.val = false →
    bit.val ∈ [8, 11, 15, 18, 19, 20] → Answers (.functionReady t bit) s (fun u => bitOf u.pwr.up bit.val = true))
  ∧ (∀ t (bit : ReadyBit) s, awake s = true → bitOf (getW s Obj.funcReset 0) bit.val = false →
    (bit.val = 24 ∧ s.pwr.restored = true) ∨ (bit.val = 25 ∧ (s.pwr.restored = true ∨ bitOf (getW s Obj.bootStatus 0) 27 = true)) ∨ (bit.val = 6 ∧ getN s Obj.syncState 0 = 2) ∨ (bit.val = 10 ∧ s.nt.loading = false)
      ∨ (bit.val = 12 ∧ ∃ h, (linkU s h).state = .ready) ∨ (bit.val = 13 ∧ (encU s 0).state = 1)
      ∨ (bit.val = 14 ∧ (encU s 1).state = 1) → Answers (.functionReady t bit) s (fun u => bitOf u.pwr.up bit.val = true))
  ∧ (∀ t s, awake s = true → bitOf s.pwr.up 24 = false → s.pwr.domains = true → Answers (.flashDiscovered t false) s (fun u =>
      bitOf (getW u Obj.bootStatus 0) 27 = true ∧ bitOf u.pwr.up 24 = false))
  ∧ (∀ t s, awake s = true → bitOf s.pwr.up 24 = false → s.pwr.domains = true → bitOf (getW s Obj.funcReset 0) 24 = false →
    s.pwr.restored = true → Answers (.flashDiscovered t true) s (fun u => bitOf u.pwr.up 24 = true))
  ∧ (∀ t s, awake s = true → bitOf s.pwr.up 24 = false → s.pwr.domains = true → bitOf (getW s Obj.funcReset 0) 24 = false →
    s.pwr.restored = false → s.pwr.kept = false → chooseCopy s.flash.patch = none → chooseCopy s.flash.persist = none →
    chooseCopy s.flash.tables = none → Answers (.flashDiscovered t true) s (fun u =>
      bitOf u.pwr.up 24 = true ∧ u.pwr.restored = true
        ∧ ∀ id k, id ∉ [Obj.ldsDemand, Obj.eventLost, Obj.eventMasked] → getE u id k = getE s id k))
  ∧ (∀ t s, awake s = true → s.nt.loading = true → Answers (.ntLoadDone t) s (fun u => u.nt.loading = false ∧ bitOf u.pwr.up 10 = true))
  ∧ (∀ t (port : RingPort) s, awake s = true → rdy s 4 = true → role s ≠ 0 → s.pwr.wakeRunAt = none →
    copyLeaving (if port = .rngA then .rngB else .rngA) (advance t s) = false →
    Answers (.wakeRelay t port) s (fun u => u.sent = s.sent ++ [.wakeRun (if port = .rngA then .rngB else .rngA)]
      ∧ u.pwr.wakeRunAt = some (max s.clock.tick t)))
  ∧ (∀ t s, s.pwr.inReset = false → s.pwr.season = .thaw → getN s Obj.seasonReq 0 = 2 → rdy s 0 = true → rdy s 20 = true →
    rdy s 25 = true → s.pwr.strap ≠ 3 → (rdy s 1 = true ∨ rdy s 2 = true ∨ (rdy s 3 = true ∧ role s ≠ 2)) →
    Answers (.enterSummer t) s (fun u => u.pwr.season = .summer ∧ Raises 0x01003 [1, 2] s u))

/-- CYCLE_START, COPY_RETURN, COPY_RETURN_TIMEOUT, RING_RESTORE, SLOT_MISSING, RING_LOST and SLOT_RECLAIM. -/
def Obligations.RingCyclesCopiesAndMembersAreCarriedOut : Prop :=
  (∀ t s, awake s = true → role s = 1 → s.pwr.bypassOpen = true → rdy s 4 = true →
    Answers (.cycleStart t) s (fun u => u.ring.cycle = (s.ring.cycle + 1) % 2 ^ 24 ∧ ∃ box, box.length = 768
      ∧ Sends ((if laneUp s 46 then [.ringCopy .rngA (cycleFrame (cycleWords false box u)) (!(cutByRun .rngA u.clock.tick s))] else [])
        ++ (if laneUp s 47 then [.ringCopy .rngB (cycleFrame (cycleWords true box u)) (!(cutByRun .rngB u.clock.tick s))] else [])) s u))
  ∧ (∀ t c s, awake s = true → role s = 1 → s.pwr.bypassOpen = true → copyIntact c = true → ownCopy c s = true →
    cycleAge (copyCycle c.words) (advance t s) ≤ 62500 → copyWrapped c.words = false → s.ring.foreign = none →
    Answers (.copyReturn t c) s (fun u => u.ring.ringState = 1
      ∧ (if c.copyB then u.ring.presentB else u.ring.presentA) = presentIn c.words))
  ∧ (∀ t c s, awake s = true → role s = 1 → s.pwr.bypassOpen = true → copyIntact c = false →
    cycleWithin 2 s.ring.cycle (copyCycle c.words) = true → s.ring.back.contains (c.copyB, copyCycle c.words) = false →
    s.ring.unwrapAt = none → rdy s 25 = true →
    Answers (.copyReturn t c) s (Raises 0x02001 [wd (b2n c.copyB), wd (copyCycle c.words)] s))
  ∧ (∀ t copyB k s, awake s = true → role s = 1 → k ≤ 2 → max s.clock.tick t + 31250 * k = s.ring.startTick + 62500 →
    s.ring.back.contains (copyB, (s.ring.cycle + 2 ^ 24 - k) % 2 ^ 24) = false →
    s.ring.unwrapAt = none → rdy s 25 = true → Answers (.copyReturnTimeout t copyB) s
      (Raises 0x02001 [wd (b2n copyB), wd ((s.ring.cycle + 2 ^ 24 - k) % 2 ^ 24)] s))
  ∧ (∀ t s, awake s = true → role s = 1 → wrappersLocked s = true →
    Answers (.ringRestore t) s (fun u => u.ring.unwrapAt = some ((s.ring.cycle + 1) % 2 ^ 24)))
  ∧ (∀ t (slot : Slot) s, awake s = true → role s = 1 → nbit s.ring.joined.toNat slot.val = true →
    nbit s.ring.bypassed.toNat slot.val = false → rdy s 25 = true → Answers (.slotMissing t slot) s (fun u =>
      u.ring.bypassed = s.ring.bypassed ||| BitVec.ofNat 64 (2 ^ slot.val) ∧ Raises 0x02005 [wd slot.val] s u))
  ∧ (∀ t s, awake s = true → role s = 2 → rdy s 25 = true → Answers (.ringLost t) s (fun u =>
      u.ring.ringState = 0 ∧ Raises 0x02001 [wd 2, wd s.ring.cycle] s u))
  ∧ (∀ t s, awake s = true → Answers (.slotReclaim t) s (fun u => u.ring.slotless = false))

/-- CYCLE_FRAME_COPY, MAILBOX_REQUEST, MAILBOX_REPLY, MAILBOX_NAK and RING_ACCESS_TIMEOUT. -/
def Obligations.MembersForwardCopiesAndTheMailboxIsCarriedOut : Prop :=
  (∀ t c s, awake s = true → role s = 2 → s.pwr.bypassOpen = true →
    laneUp s (portLane (portIn c.copyB (copyWrapped c.words))) = true →
    laneServes s (portLane (if wraps s (portOut c.copyB (copyWrapped c.words)) then otherPort (portOut c.copyB (copyWrapped c.words))
      else portOut c.copyB (copyWrapped c.words))) = true →
    Answers (.cycleFrameCopy t c) s (fun u =>
      let out := portOut c.copyB (copyWrapped c.words)
      let out := if wraps s out then otherPort out else out
      let ws := if copyWrapped c.words then c.words else forwardWords c (advance t s)
      ∃ rest, Sends (.ringCopy out (withCrc ws) (copyIntact c && !(cutByRun out (c.tx / 64) s)) :: rest) s u))
  ∧ (∀ t seg g k s, awake s = true → role s = 2 → segOf seg = some g → heldSlot s = some k → g.kind = 1 → g.dest = k →
    segCrcOk g.head ((match parseRecord (writesHere s) g.body.dropLast with
      | some r => g.body.dropLast.take (g.body.dropLast.length - r.2.length)
      | none => g.body.dropLast)) g.body = false → rdy s 25 = true → Answers (.mailboxRequest t seg) s (fun u =>
        u.ring.kept = (if replyKept g.tag s then s.ring.kept else some (g.tag, wd 4 :: g.body.dropLast.take 4)) ∧ Raises 0x02006 [1, wd g.dest, wd g.tag] s u
          ∧ getN u Obj.mbxCrcErrors 0 = satN 36 (getN s Obj.mbxCrcErrors 0 + 1)))
  ∧ (∀ t seg g k q rest s, awake s = true → role s = 2 → segOf seg = some g → heldSlot s = some k → g.kind = 1 → g.dest = k →
    parseRecord (writesHere s) g.body.dropLast = some (q, rest) →
    segCrcOk g.head (g.body.dropLast.take (g.body.dropLast.length - rest.length)) g.body = true →
    s.ring.kept = none → Answers (.mailboxRequest t seg) s (fun u =>
      u.ring.kept = some (g.tag, wd 3 :: replyWords q (localReq q (advance t s)).1)))
  ∧ (∀ t seg g a s, awake s = true → role s = 1 → segOf seg = some g → g.kind = 3 → answered g s = some a → a.owner = none →
    a.bcast = none →
    segCrcOk g.head (g.body.take (replyLength (askedReq a.record) (at? g.body 0 0) (at? g.body 2 0))) g.body = true →
    Answers (.mailboxReply t seg) s (fun u => u.ring.accesses = s.ring.accesses.filter (fun x => x.tag != a.tag || x.slot != a.slot)
      ∧ ∃ code data, Sends [.reply code data] s u))
  ∧ (∀ t seg g a s, awake s = true → role s = 1 → segOf seg = some g → g.kind = 4 → answered g s = some a → a.sends < 2 →
    Answers (.mailboxNak t seg) s (fun u => u.ring.accesses = s.ring.accesses.map (fun x =>
      if x.tag = a.tag ∧ x.slot = a.slot then { x with sends := x.sends + 1, toSend := true, sentAt := none } else x)))
  ∧ (∀ t seg g a s, awake s = true → role s = 1 → segOf seg = some g → g.kind = 4 → answered g s = some a → 2 ≤ a.sends →
    a.owner = none → a.bcast = none → Answers (.mailboxNak t seg) s (fun u =>
      u.ring.accesses = s.ring.accesses.filter (fun x => x.tag != a.tag || x.slot != a.slot) ∧ Sends [.reply 0x0D []] s u))
  ∧ (∀ t tag a s, awake s = true → s.ring.accesses.find? (fun a => a.tag % 256 == tag % 256) = some a → a.owner = none →
    a.bcast = none → Answers (.ringAccessTimeout t tag) s (fun u =>
      u.ring.accesses = s.ring.accesses.filter (fun x => x.tag != a.tag || x.slot != a.slot) ∧ Sends [.reply 0x0A []] s u))

/-- HOST_FRAME, ARP_REQUEST, ICMP_ECHO, HOST_DATAGRAM, REPLY_CACHE_EXPIRE and HOST_LINK_DOWN. -/
def Obligations.TheHostPortAnswers : Prop :=
  (∀ t f s, awake s = true → hostWorks s = true → Answers (.hostFrame t f) s (fun u =>
      getN u Obj.hostDiscards 0 = if frameAccepted f s then getN s Obj.hostDiscards 0 else satN 36 (getN s Obj.hostDiscards 0 + 1)))
  ∧ (∀ t sender mac s, awake s = true → hostWorks s = true →
    Answers (.arpRequest t (hostIp s) sender mac) s (Sends [.arp sender (hostMacOf s)] s))
  ∧ (∀ t sender payload s, awake s = true → hostWorks s = true →
    Answers (.icmpEcho t (hostIp s) sender payload) s (Sends [.echo sender payload] s))
  ∧ (∀ t src port h ws s, awake s = true → hostWorks s = true → 
    datagramWhole (h :: ws) = false ∨ (datagramRecords (h :: ws) s = none
      ∧ s.host.datagrams.find? (fun d => d.src == src && d.port == port && d.seq == fld h 15 0) = none) →
    Answers (.hostDatagram t src port (h :: ws)) s
      (Sends [.datagram src port [replyHeader (fld h 15 0) 0 [26], wd (crc32 [replyHeader (fld h 15 0) 0 [26]])]
        (replyCheck src port [replyHeader (fld h 15 0) 0 [26], wd (crc32 [replyHeader (fld h 15 0) 0 [26]])] s)] s))
  ∧ (∀ t src port h ws d s, awake s = true → hostWorks s = true → datagramWhole (h :: ws) = true →
    s.host.datagrams.find? (fun d => d.src == src && d.port == port && d.seq == fld h 15 0) = some d →
    Answers (.hostDatagram t src port (h :: ws)) s (fun u =>
      let ws := replyHeader (fld h 15 0) d.replies.length [25] :: (d.replies.map (fun r => r.getD [])).flatten
      let all := ws ++ [wd (crc32 ws)]
      Sends (if d.done then [.datagram src port all (replyCheck src port all s)] else []) s u))
  ∧ (∀ t src port h ws qs s, awake s = true → hostWorks s = true → datagramRecords (h :: ws) s = some qs →
    s.host.datagrams.find? (fun d => d.src == src && d.port == port && d.seq == fld h 15 0) = none →
    8 ≤ (s.host.datagrams.filter (fun d => !d.done)).length → Answers (.hostDatagram t src port (h :: ws)) s
      (Sends [.datagram src port [replyHeader (fld h 15 0) 0 [24], wd (crc32 [replyHeader (fld h 15 0) 0 [24]])]
        (replyCheck src port [replyHeader (fld h 15 0) 0 [24], wd (crc32 [replyHeader (fld h 15 0) 0 [24]])] s)] s))
  ∧ (∀ t src port h ws qs s, awake s = true → hostWorks s = true → datagramRecords (h :: ws) s = some qs →
    s.host.datagrams.find? (fun d => d.src == src && d.port == port && d.seq == fld h 15 0) = none →
    (s.host.datagrams.filter (fun d => !d.done)).length < 8 → Answers (.hostDatagram t src port (h :: ws)) s (fun u =>
      u = settle (runRecords src port (fld h 15 0) 0 0 qs (xingQueue 11 1 (advance t { s with host := { s.host with
        datagrams := keep16 (s.host.datagrams
          ++ [{ src := src, port := port, seq := fld h 15 0, replies := qs.map (fun _ => none), done := false }]) } })))))
  ∧ (∀ t src port seq s, awake s = true → Answers (.replyCacheExpire t src port seq) s (fun u =>
      ∀ d ∈ s.host.datagrams, (d ∈ u.host.datagrams ↔ ¬(d.done = true ∧ d.src = src ∧ d.port = port ∧ d.seq = seq))))
  ∧ (∀ t s, awake s = true → s.host.linkUp = true → Answers (.hostLinkDown t) s (fun u =>
      u.host.linkUp = false ∧ u.host.anComplete = false
        ∧ (role s = 1 → rdy s 25 = true → Raises 0x02007 [hostStateWord u] s u)))

/-- PTP_SYNC, PTP_FOLLOW_UP, PTP_DELAY_REQ_TIMER, PTP_DELAY_RESP, PTP_ANNOUNCE, PDELAY_REQ_TIMER, PTP_PDELAY_REQ, PTP_PDELAY_RESP and
PTP_PDELAY_RESP_FOLLOW_UP; the message rules are presumed (notes/assumptions/29.md). -/
def Obligations.TimeMessagesSampleAndAnswer : Prop :=
  (∀ t h origin rx s, awake s = true → ptpOn h s = true → fromParent h s = true → h.twoStep = false →
    Answers (.ptpSync t h origin rx) s (fun u => u.ptp.haveSync = true
      ∧ u.ptp.syncDiff = localPs (advance t s) rx - origin - corrPs h - getS s 36 Obj.hostAsym 0
      ∧ getS u 36 Obj.offset 0 = satS 36 (localPs (advance t s) rx - origin - corrPs h - getS s 36 Obj.hostAsym 0 - getS s 36 Obj.ptpMeanDelay 0)))
  ∧ (∀ t h origin rx s, awake s = true → ptpOn h s = true → fromParent h s = true → h.twoStep = true →
    Answers (.ptpSync t h origin rx) s (fun u => u.ptp.sync = some (h.seq, localPs (advance t s) rx, corrPs h)))
  ∧ (∀ t h origin rx corr s, awake s = true → ptpOn h s = true → fromParent h s = true → s.ptp.sync = some (h.seq, rx, corr) →
    Answers (.ptpFollowUp t h origin) s (fun u => u.ptp.haveSync = true ∧ u.ptp.sync = none
      ∧ getS u 36 Obj.offset 0
        = satS 36 (rx - origin - (corr + corrPs h) - getS s 36 Obj.hostAsym 0 - getS s 36 Obj.ptpMeanDelay 0)))
  ∧ (∀ t tx s, awake s = true → getN s Obj.timeSource 0 = 1 → ptpP2p s = false → s.ptp.master.isSome = true →
    Answers (.ptpDelayReqTimer t tx) s (fun u => u.ptp.delayTx = some ((s.ptp.reqSeq + 1) % 65536, localPs (advance t s) tx)
      ∧ Sends [.ptp 1 ((s.ptp.reqSeq + 1) % 65536) (ptpDomain s) 319 ptpGroup (asymCorrection s) [localPs (advance t s) tx]] s u))
  ∧ (∀ t h rx tx s, awake s = true → ptpOn h s = true → fromParent h s = true → ptpP2p s = false →
    s.ptp.delayTx = some (h.seq, tx) → s.ptp.haveSync = true → Answers (.ptpDelayResp t h rx) s (fun u => u.ptp.delayTx = none
      ∧ getS u 36 Obj.ptpMeanDelay 0 = satS 36 (roundHalfUp (s.ptp.syncDiff + (rx - tx - corrPs h)) 2)))
  ∧ (∀ t h ann s, awake s = true → ptpOn h s = true → s.ptp.master = none → Answers (.ptpAnnounce t h ann) s (fun u =>
      u.ptp.master = some ann ∧ u.ptp.parent = h.sender ∧ getW u Obj.ptpGmId 0 = wd (ann.identity.toNat / 2 ^ 32)
        ∧ getW u Obj.ptpGmId 1 = wd (ann.identity.toNat % 2 ^ 32)
        ∧ fld (getW u Obj.ptpState 0) 15 0 = ann.stepsRemoved % 2 ^ 16))
  ∧ (∀ t tx s, awake s = true → getN s Obj.timeSource 0 = 1 → ptpP2p s = true →
    Answers (.pdelayReqTimer t tx) s (fun u => u.ptp.pdelayTx = some ((s.ptp.reqSeq + 1) % 65536, localPs (advance t s) tx) ∧ u.ptp.pdelayResp = none
      ∧ Sends [.ptp 2 ((s.ptp.reqSeq + 1) % 65536) (ptpDomain s) 319 pdelayGroup (asymCorrection s) [localPs (advance t s) tx]] s u))
  ∧ (∀ t h rx tx s, awake s = true → ptpOn h s = true → ptpP2p s = true →
    Answers (.ptpPdelayReq t h rx tx) s (Sends [.ptp 3 h.seq (ptpDomain s) 319 pdelayGroup 0 [localPs (advance t s) rx],
      .ptp 10 h.seq (ptpDomain s) 320 pdelayGroup h.correction [localPs (advance t s) tx]] s))
  ∧ (∀ t h t2 rx tx s, awake s = true → ptpOn h s = true → ptpP2p s = true → s.ptp.pdelayTx = some (h.seq, tx) →
    Answers (.ptpPdelayResp t h t2 rx) s (fun u =>
      if h.twoStep then u.ptp.pdelayResp = some (h.seq, t2, localPs (advance t s) rx - corrPs h - getS s 36 Obj.hostAsym 0)
      else getS u 36 Obj.ptpMeanDelay 0 = satS 36 (roundHalfUp (localPs (advance t s) rx - corrPs h - getS s 36 Obj.hostAsym 0 - tx) 2)))
  ∧ (∀ t h t2 t3 got tx n s, awake s = true → ptpOn h s = true → ptpP2p s = true → s.ptp.pdelayTx = some (h.seq, tx) →
    s.ptp.pdelayResp = some (n, t2, got) → Answers (.ptpPdelayRespFollowUp t h t3) s (fun u => u.ptp.pdelayTx = none
      ∧ getS u 36 Obj.ptpMeanDelay 0 = satS 36 (roundHalfUp (got - tx - (t3 - t2) - corrPs h) 2)))

/-- SYNC_TIMEOUT, ANNOUNCE_TIMEOUT, HOLDOVER_READY_EXPIRE, TIME_RESYNC, TIME_NOW_WRITE, TRIG_ENABLE, TRIGGER_FIRE and CAPTURE_EDGE. -/
def Obligations.TimeStepsHoldsOverAndTriggers : Prop :=
  (∀ t c s, awake s = true → getN s Obj.timeSource 0 = 1 → (getN s Obj.syncState 0 = 1 ∨ getN s Obj.syncState 0 = 2) →
    rdy s 25 = true → (c = .syncTimeout t ∨ c = .announceTimeout t) → Answers c s (fun u => getN u Obj.syncState 0 = 3
      ∧ u.ptp.haveSync = false ∧ u.clock.predicted = getS s 36 Obj.offset 0 ∧ Raises 0x03002 [1, getW s Obj.offset 0] s u
      ∧ (c = .announceTimeout t → u.ptp.master = none)))
  ∧ (∀ t s, awake s = true → getN s Obj.syncState 0 = 3 →
    Answers (.holdoverReadyExpire t) s (fun u => bitOf u.pwr.up 6 = false))
  ∧ (∀ t s, Works s → Accepted Obj.timeResync 0 [1] (advance t s) → Answers (.timeResync t) s (fun u =>
      u.clock.resync = true ∧ bitOf (getW u Obj.timeFlags 0) 35 = false ∧ bitOf (getW u Obj.timeFlags 0) 34 = false))
  ∧ (∀ t w0 w1 s, Works s → Accepted Obj.timeNow 0 [w0, w1] (advance t s) →
    Answers (.timeNowWrite t w0 w1) s (fun u => time72 u = w0.toNat * 2 ^ 36 + w1.toNat))
  ∧ (∀ t (unit : Fin 16) s, Works s → bitOf (getW s Obj.trig unit.val) 35 = false →
    Accepted Obj.trig unit.val [setBit (getW s Obj.trig unit.val) 35 true] (advance t s) →
    Answers (.trigEnable t unit) s (fun u =>
      let ahead := decide (time72 (advance t s) < (getE s Obj.trigStart unit.val).toNat)
      bitOf (getW u Obj.trig unit.val) 35 = ahead ∧ bitOf (getW u Obj.trig unit.val) 34 = !ahead
        ∧ (trigU u unit.val).nextFire = none ∧ (trigU u unit.val).fired = 0))
  ∧ (∀ t (unit : Fin 16) x s, awake s = true → trigInstant unit.val (advance t s) = some x →
    Answers (.triggerFire t unit) s (fun u =>
      let w := getW s Obj.trig unit.val
      let n := (trigU s unit.val).fired + 1
      let last := fld w 16 0 ≠ 0 ∧ fld w 16 0 ≤ n
      getN u Obj.trigFired unit.val = satN 36 (getN s Obj.trigFired unit.val + 1)
        ∧ (∃ rest, ((fld w 33 31 ≠ 4 ∨ trigShared unit.val (advance t s) = true) → rest = [])
          ∧ Sends ((if bitOf w 30 then [.pulse (fld w 29 28) (bitOf w 27) (fld w 26 17) x] else []) ++ rest) s u)
        ∧ (last → bitOf (getW u Obj.trig unit.val) 35 = false)
        ∧ (¬last → (trigU u unit.val).nextFire = some (x + getN s Obj.trigPeriod unit.val) ∧ (trigU u unit.val).fired = n)))
  ∧ (∀ t (unit : Fin 8) (source : EdgeSource) rising stamp s, awake s = true → bitOf (getW s Obj.capt unit.val) 35 = true →
    fld (getW s Obj.capt unit.val) 31 28 = source.source.val →
    (source.source.val = 6 → fld (getW s Obj.capt unit.val) 25 22 = source.trig.val) →
    (fld (getW s Obj.capt unit.val) 27 26 = if rising then 0 else 1) ∨ fld (getW s Obj.capt unit.val) 27 26 = 2 →
    Answers (.captureEdge t unit source rising stamp) s (fun u =>
      getN u Obj.captCount unit.val = (getN s Obj.captCount unit.val + 1) % 2 ^ 36 ∧
      if bitOf (getW s Obj.capt unit.val) 34 = false ∧ bitOf (getW s Obj.capt unit.val) 33 = true
      then bitOf (getW u Obj.capt unit.val) 32 = true
      else bitOf (getW u Obj.capt unit.val) 33 = true ∧ getE u Obj.captTime unit.val = timeElem (timeAt (advance t s) stamp)))

/-- LANE_LOCK, LANE_LOCK_LOST, LANE_NO_SIGNAL, BUFFER_SLIP, SKIP_RECEIVED, BLOCK_LOCK, BLOCK_LOCK_LOST, PRBS_LOCK, PRBS_WINDOW_END,
INJECT_SINGLE, INJECT_BURST, LANE_PRBS_MODE, LANE_LOOPBACK, LANE_ENABLE and LANE_DISABLE. -/
def Obligations.LanesLockSlipAndAreTested : Prop :=
  (∀ t (lane : LaneIx) s, awake s = true → laneWorks s lane.val = true → lanePrbs s lane.val = 0 → (laneU s lane.val).lock = false →
    Answers (.laneLock t lane) s (fun u => (laneU u lane.val).lock = true ∧ (laneU u lane.val).signal = true
      ∧ (laneU u lane.val).bufFill = fillStart lane.val
      ∧ ((laneU s lane.val).trained = true → rdy s 25 = true → Raises 0x04002 [p9 lane.val] s u)))
  ∧ (∀ t (lane : LaneIx) errors cause c s, awake s = true → (laneU s lane.val).lock = true → s.fabric.work = none → s.pwr.autumn.step ≠ 1 →
    (cause = 1 ∧ c = .laneLockLost t { lane := lane, errors := errors } ∨ cause = 2 ∧ c = .laneNoSignal t lane) →
    Answers c s (fun u => (laneU u lane.val).lock = false ∧ (laneU u lane.val).block = false
      ∧ (laneU u lane.val).losses = satN 8 ((laneU s lane.val).losses + 1)
      ∧ (rdy s 25 = true → Raises 0x04001 [p9 lane.val, wd cause] s u)
      ∧ getN u Obj.codeErrors lane.val = if cause = 1 ∧ laneServes s lane.val = true
        then satN 36 (getN s Obj.codeErrors lane.val + max 4 errors) else getN s Obj.codeErrors lane.val))
  ∧ (∀ t (lane : LaneIx) under s, awake s = true → (laneU s lane.val).lock = true → lane.val ≠ 5 → rdy s 25 = true →
    Answers (.bufferSlip t lane under) s (fun u => getN u Obj.laneSlips lane.val = satN 36 (getN s Obj.laneSlips lane.val + 1)
      ∧ (laneU u lane.val).bufFill = fillStart lane.val ∧ Raises 0x04005 [p9 lane.val, wd (b2n under)] s u))
  ∧ (∀ t (ras : Ras) fill s, awake s = true → (laneU s ras.val).lock = true → 12 ≤ fill → fill ≤ 20 →
    Answers (.skipReceived t ras fill) s (fun u => (laneU u ras.val).bufFill = fill))
  ∧ (∀ t (ras : Ras) s, awake s = true → (laneU s ras.val).lock = true →
    Answers (.blockLock t ras) s (fun u => (laneU u ras.val).block = true))
  ∧ (∀ t (ras : Ras) s, awake s = true → (laneU s ras.val).block = true → rdy s 25 = true →
    Answers (.blockLockLost t ras) s (fun u => (laneU u ras.val).block = false
      ∧ Raises 0x04003 [p9 ras.val, pPage s.rfe.page, wd s.rfe.lg] s u))
  ∧ (∀ t (lane : LaneIx) s, awake s = true → laneWorks s lane.val = true → (lanePrbs s lane.val = 1 ∨ lanePrbs s lane.val = 3) →
    Answers (.prbsLock t lane) s (fun u => (laneU u lane.val).prbsLock = true))
  ∧ (∀ t (lane : LaneIx) bits (errors : PrbsErrors) s, awake s = true → (laneU s lane.val).prbsLock = true →
    Answers (.prbsWindowEnd t lane bits errors) s (fun u =>
      getN u Obj.prbsBits lane.val = satN 36 (getN s Obj.prbsBits lane.val + bits)
        ∧ getN u Obj.prbsErrors lane.val = satN 36 (getN s Obj.prbsErrors lane.val + errors.count) ∧ (laneU u lane.val).prbsLock = errors.locked
        ∧ (getN s Obj.prbsThreshold 0 < errors.count → rdy s 25 = true → Raises 0x04004 [p9 lane.val, pNum errors.count] s u)))
  ∧ (∀ t (lane : LaneIx) c (bit bits : Nat) s, Works s → laneWorks s lane.val = true →
    (bit = 28 ∧ bits = 1 ∧ c = .injectSingle t lane
      ∨ bit = 27 ∧ bits = fld (getW s Obj.laneTest lane.val) 26 19 ∧ c = .injectBurst t lane) →
    bitOf (getW s Obj.laneTest lane.val) 28 = false → bitOf (getW s Obj.laneTest lane.val) 27 = false →
    Accepted Obj.laneTest lane.val [setBit (getW s Obj.laneTest lane.val) bit true] (advance t s) →
    Answers c s (fun u => Sends [.injected lane.val bits, .reply 0 []] s u ∧ bitOf (getW u Obj.laneTest lane.val) bit = false))
  ∧ (∀ t (lane : LaneIx) (prbs pattern : Fin 4) invert s, Works s → s.fabric.work = none → s.pwr.autumn.step ≠ 1 →
    Accepted Obj.laneTest lane.val
      [setBit (setFld (setFld (getW s Obj.laneTest lane.val) 35 34 prbs.val) 31 30 pattern.val) 29 invert] (advance t s) →
    Answers (.lanePrbsMode t lane prbs pattern invert) s (fun u => lanePrbs u lane.val = prbs.val
      ∧ fld (getW u Obj.laneTest lane.val) 31 30 = pattern.val ∧ bitOf (getW u Obj.laneTest lane.val) 29 = invert
      ∧ (laneServes s lane.val = true → prbs.val ≠ 0 → (laneU u lane.val).lock = false)))
  ∧ (∀ t (lane : LaneIx) (loop : Fin 4) s, Works s → s.fabric.work = none → s.pwr.autumn.step ≠ 1 →
    Accepted Obj.laneTest lane.val [setFld (getW s Obj.laneTest lane.val) 33 32 loop.val] (advance t s) →
    Answers (.laneLoopback t lane loop) s (fun u => laneLoop u lane.val = loop.val
      ∧ (laneServes s lane.val = true → loop.val ≠ 0 → (laneU u lane.val).lock = false)))
  ∧ (∀ t (lane : LaneIx) on c s, Works s → s.fabric.work = none → s.pwr.autumn.step ≠ 1 →
    (on = true ∧ c = .laneEnable t lane ∨ on = false ∧ c = .laneDisable t lane) →
    Accepted Obj.laneCfg lane.val [setBit (getW s Obj.laneCfg lane.val) 35 on] (advance t s) →
    Answers c s (fun u => laneEnabled u lane.val = on
      ∧ (on = false → laneWorks s lane.val = true → (laneU u lane.val).lock = false)))

/-- DSK_RECEIVED, DSK_TIMEOUT, LG_HEADER, LINE_GROUP_COMPLETE, CREDIT_FRAME_TIMER, LANE_OFFER and BOND_CFG_WRITE. -/
def Obligations.TheRasterFrontEndAccepts : Prop :=
  (∀ t (ras : Ras) n p g s, awake s = true → s.bond.formed = true → laneUp s ras.val = true → s.bond.dsk = none → s.bond.held = [] →
    s.bond.announced = none → n = s.bond.n → p < n → nbit s.bond.active.toNat ras.val = true →
    Answers (.dskReceived t ras n p g) s (fun u => (laneU u ras.val).pos = p ∧ u.bond.active = s.bond.active
      ∧ u.bond.dsk = if s.bond.active &&& ~~~ lanes5 (2 ^ ras.val) = 0 then none
        else some { n := n, g := g, come := lanes5 (2 ^ ras.val), want := s.bond.active, failed := 0, reform := false }))
  ∧ (∀ t (ras : Ras) g s, awake s = true → s.bond.dsk = some g → g.reform = false → s.bond.held = [] →
    nbit (g.want &&& ~~~ g.come).toNat ras.val = true → nbit s.bond.active.toNat ras.val = true →
    s.bond.active &&& ~~~ lanes5 (2 ^ ras.val) ≠ 0 → rdy s 25 = true →
    Answers (.dskTimeout t ras) s (fun u => u.bond.active = s.bond.active &&& ~~~ lanes5 (2 ^ ras.val)
      ∧ u.bond.lost = s.bond.lost ||| lanes5 (2 ^ ras.val) ∧ ∃ ps, Raises 0x05001 ps s u))
  ∧ (∀ t c rest s, awake s = true → s.bond.formed = true → s.bond.dsk = none → s.bond.ready = none → crc16Hdr c.w0 c.w1 c.w2 c.w3 = fld c.w3 15 0 →
    (∀ x ∈ c :: rest, nbit s.bond.active.toNat x.ras.val = true ∧ laneUp s x.ras.val = true
      ∧ x.w0 = c.w0 ∧ x.w1 = c.w1 ∧ x.w2 = c.w2 ∧ x.w3 = c.w3) →
    ((hdrFields c).start = false ∨ s.rfe.inPage = none) → hdrJudge s s.rfe.inPage (hdrFields c) = 0 →
    (let charge := lgCharge (ceilDiv (hdrFields c).columns 27) s.bond.n (hdrFields c).ratio
     creditCase s (hdrFields c).base charge = 0 → s.rfe.tables = (hdrFields c).tblCnt →
      Answers (.lgHeader t (c :: rest)) s (fun u => u.rfe.page = (hdrFields c).page ∧ u.rfe.lg = (hdrFields c).lg
        ∧ u.rfe.c = ((hdrFields c).base + charge + s.rfe.tableWords) % 2 ^ 36 ∧ u.rfe.tables = 0
        ∧ u.rfe.inPage = (if (hdrFields c).last then none else some ((hdrFields c).page, (hdrFields c).columns, (hdrFields c).lg))
        ∧ (s.rfe.inPage.isSome = true → getN u Obj.lgAccepted 0 = satN 36 (getN s Obj.lgAccepted 0 + 1)))))
  ∧ (∀ t c rest s, awake s = true → s.bond.formed = true → s.bond.dsk = none → s.bond.ready = none → rdy s 25 = true →
    (∀ x ∈ c :: rest, nbit s.bond.active.toNat x.ras.val = true ∧ laneUp s x.ras.val = true
      ∧ crc16Hdr x.w0 x.w1 x.w2 x.w3 ≠ fld x.w3 15 0) →
    Answers (.lgHeader t (c :: rest)) s (fun u => getN u Obj.hdrErrors 0 = satN 36 (getN s Obj.hdrErrors 0 + (rest.length + 1))
      ∧ (∃ ps, Raises 0x05004 (2 :: ps) s u) ∧ u.rfe.groups = s.rfe.groups ∧ u.rfe.c = s.rfe.c))
  ∧ (∀ t page lg blocks g s, awake s = true → s.rfe.groups.find? (fun g => g.page == page && g.lg == lg) = some g →
    g.blocks = [] → g.late = false → g.tablesOk = true → wordsDropped s = 0 →
    ((List.range (ceilDiv g.columns 27)).map (blockTaken s g blocks)).all Option.isSome = true →
    Answers (.lineGroupComplete t page lg blocks) s (fun u => ∀ x ∈ u.rfe.groups, x.page = page → x.lg = lg → x.complete = true))
  ∧ (∀ t s, awake s = true → s.bond.formed = true → s.bond.active ≠ 0 →
    Answers (.creditFrameTimer t) s (fun u => u.rfe.limit = creditLimit s
      ∧ Sends [.credit [wd (creditLimit s), wd (crc32 [wd (creditLimit s)])]] s u))
  ∧ (∀ t (ras : Ras) s, awake s = true → s.bond.formed = true → nbit (bondSel s) ras.val = true → laneUp s ras.val = true →
    nbit s.bond.active.toNat ras.val = false → s.bond.announced = none → s.bond.active ≠ 0 →
    Answers (.laneOffer t ras) s (fun u => u.bond.announced = some (s.bond.active ||| lanes5 (2 ^ ras.val)) ∧ u.bond.offer = true
      ∧ ∃ ws, Sends [.backChannel ws] s u))
  ∧ (∀ t v s, Works s → Accepted Obj.bondCfg 0 [v] (advance t s) →
    Answers (.bondCfgWrite t v) s (fun u => getN u Obj.bondCfg 0 = fld v 4 0
      ∧ (s.bond.formed = true → bondLocked u ≠ 0 → u.bond.announced = some (lanes5 (bondLocked u)))
      ∧ (bondLocked u = 0 → u.bond.formed = false)))

/-- DECODE_LINE_GROUP, SCREEN_START, EDGE_FRAME_RECEIVED, EDGE_FRAME_TIMEOUT, EDGE_RETRY and CONFIG_LOAD. -/
def Obligations.LineGroupsAreDecodedScreenedAndCrossSeams : Prop :=
  (∀ t g s, awake s = true → ownUp s 8 = true → nextDecode s = some g → g.tmode = false →
    Answers (.decodeLineGroup t) s (fun u =>
      let out := (g.blocks.map (fun b => b.getD [])).mapIdx (fun b ws => decodeBlock g.ratio b false staticTable ws)
      let samples := out.map (fun r => match r with
        | .ok l => l
        | .error _ => List.replicate 108 0)
      let bad := (out.filter (fun r => match r with
        | .ok _ => false
        | .error e => e != 0)).length
      (∀ x ∈ u.rfe.groups, x.page = g.page → x.lg = g.lg →
        x.rows = some ((List.range 4).map (fun l => rowOfBlocks g.columns l samples)))
      ∧ getN u Obj.blocksDecoded 0 = satN 36 (getN s Obj.blocksDecoded 0 + g.blocks.length)
      ∧ getN u Obj.blocksDamaged 0 = satN 36 (getN s Obj.blocksDamaged 0 + bad)
      ∧ (bad ≠ 0 → rdy s 25 = true → ∃ ps, Raises 0x06001 ps s u)))
  ∧ (∀ t g s, awake s = true → fabricRuns s = true → s.fabric.work = none → nextScreen s = some g →
    (pageOf s g.page).any (fun x => x.screened) = true → (g.page, 4 * g.lg) ∉ s.fire.late → (∀ i e, i < 4 → edgeSet s i e = false) →
    Answers (.screenStart t) s (fun u => ∃ c rest, u.fabric.cells = s.fabric.cells ++ c :: rest ∧ c.page = g.page ∧ c.line = 4 * g.lg))
  ∧ (∀ t (lane : LaneIx) comp ws eof s, awake s = true → 38 ≤ lane.val → lane.val < 42 → laneServes s lane.val = true →
    (laneU s lane.val).lock = true → s.fabric.work = none → (eof = false ∨ edgeParse comp ws = none) →
    Answers (.edgeFrameReceived t lane comp ws eof) s (fun u =>
      getN u Obj.edgeCrcErrors 0 = satN 36 (getN s Obj.edgeCrcErrors 0 + 1)))
  ∧ (∀ t (lane : LaneIx) comp ws f s, awake s = true → 38 ≤ lane.val → lane.val < 42 → laneServes s lane.val = true →
    (laneU s lane.val).lock = true → s.fabric.work = none → edgeParse comp ws = some f →
    (let e := if f.backward then 1 else 0
     edgeLane s f.chain e = some (lane.val - 38) → edgeOpen s f.chain e = false → edgePast s f = false →
      edgeHeld s f.chain e f.comp f.page f.line = none →
      (∀ q, s.dict.begunScreen = some q → f.page = q ∨ ahead f.page q = true) →
      Answers (.edgeFrameReceived t lane comp ws true) s (fun u => u.fabric.edgeIn = s.fabric.edgeIn ++ [f])))
  ∧ (∀ t (chain : Fin 4) edge comp p y n k s, awake s = true → s.fabric.work = some (p, y) → fabricRuns s = true →
    (edgeAwaited s p y).filter (fun n => n.1 == chain.val && n.2.1 == b2n edge && n.2.2.1 == comp) = [n] →
    edgeOpen s n.1 n.2.1 = false → edgeLane s n.1 n.2.1 = some k →
    Answers (.edgeFrameTimeout t chain edge comp) s
      (Sends [.edge (38 + k) 12 (retryWords (n.2.1 == 1) n.1 n.2.2.1 p n.2.2.2)] s))
  ∧ (∀ t (lane : LaneIx) ws f s, awake s = true → 38 ≤ lane.val → lane.val < 42 → laneServes s lane.val = true →
    (laneU s lane.val).lock = true → ws.length = 4 → at? ws 2 0 = wd (crc32 (ws.take 2)) →
    (let i := fld (at? ws 0 0) 34 33
     let back := bitOf (at? ws 0 0) 35
     edgeLane s i (if back then 0 else 1) = some (lane.val - 38) → edgeOpen s i (if back then 0 else 1) = false →
      s.fabric.edgeOut.find? (fun f => f.chain == i && f.backward == back && f.comp == bitOf (at? ws 0 0) 32
        && f.page == fld (at? ws 1 0) 35 12 && f.line == fld (at? ws 0 0) 17 0) = some f →
      Answers (.edgeRetry t lane ws) s (Sends [.edge lane.val (if f.comp then 9 else 8) f.words] s)))
  ∧ (∀ t (tile : Tile) s, awake s = true → bitOf (getW s Obj.funcReset 0) 8 = false →
    Answers (.configLoad t tile true) s (fun u => nbit u.fabric.loadFails.toNat tile.val = false))
  ∧ (∀ t (tile : Tile) s, awake s = true → bitOf (getW s Obj.funcReset 0) 8 = false →
    Answers (.configLoad t tile false) s (fun u =>
      if nbit s.fabric.loadFails.toNat tile.val then nbit u.fabric.loadFails.toNat tile.val = false
        ∧ nbit u.fabric.tilesDown.toNat tile.val = true ∧ bitOf (getW u Obj.tileReady 0) tile.val = false
        ∧ bitOf (getW u Obj.tileFault 0) tile.val = true ∧ (rdy s 25 = true → Raises 0x07001 [p9 tile.val, 2] s u)
      else nbit u.fabric.loadFails.toNat tile.val = true ∧ u.fabric.tilesDown = s.fabric.tilesDown))

/-- NT_COMMIT_PAGE, NT_COMMIT_NOW, NT_COMMIT_CANCEL, NT_APPROVE, NT_REJECT, SEEDING_DONE and TABLE_FRAME. -/
def Obligations.NozzleTableCommitsAndTableFramesTakeEffect : Prop :=
  (∀ t page d s, Works s → findObj Obj.ntCommit = some d → Accepted Obj.ntCommit 0 [wd (page % 2 ^ 24)] (advance t s) →
    (ntCommitWrite (wd (page % 2 ^ 24)) (ramWrite d 0 (el (page % 2 ^ 24)) (advance t s))).1 = 0 →
    Answers (.ntCommitPage t page) s (fun u => u.nt.pending = some (page % 2 ^ 24) ∧ u.nt.lastPage = page % 2 ^ 24))
  ∧ (∀ t d s, Works s → findObj Obj.ntCommit = some d → Accepted Obj.ntCommit 0 [wd (2 ^ 35)] (advance t s) →
    (ntCommitWrite (wd (2 ^ 35)) (ramWrite d 0 (el (2 ^ 35)) (advance t s))).1 = 0 →
    Answers (.ntCommitNow t) s (fun u => u.nt.pending = none ∧ u.nt.seeding = true ∧ u.nt.hostDirty = []
      ∧ bitOf u.pwr.up 10 = true ∧ Raises 0x08001 [0, 0, 0] s u))
  ∧ (∀ t page s, Works s → Accepted Obj.ntCommit 0 [wd (2 ^ 34 + page % 2 ^ 24)] (advance t s) →
    s.nt.pending = some (page % 2 ^ 24) → (∀ q, s.dict.begunScreen = some q → q ≠ page % 2 ^ 24 ∧ ahead q (page % 2 ^ 24) = false) →
    Answers (.ntCommitCancel t page) s (fun u => u.nt.pending = none))
  ∧ (∀ t gen s, Works s → Accepted Obj.ntApprove 0 [wd (gen % 2 ^ 12)] (advance t s) → s.nt.stage = 1 →
    Answers (.ntApprove t gen) s (fun u => u.nt.stage = 2 ∧ u.nt.approvedAt = max s.clock.tick t))
  ∧ (∀ t gen s, Works s → Accepted Obj.ntApprove 0 [wd (2 ^ 35 + gen % 2 ^ 12)] (advance t s) →
    Answers (.ntReject t gen) s (fun u => u.nt.stage = 3))
  ∧ (∀ t s, awake s = true → Answers (.seedingDone t) s (fun u => u.nt.seeding = false))
  ∧ (∀ t ws eof s, awake s = true → s.bond.formed = true → rdy s 25 = true → 
    (let got := if eof then ws else ws.dropLast
    tableSound (tableHdr got) got = false →
    Answers (.tableFrame t ws eof) s (fun u => u.dict.inband = none ∧ u.rfe.tables = s.rfe.tables + 1
      ∧ u.rfe.tableWords = s.rfe.tableWords + ws.length ∧ getN u Obj.tblRejected 0 = satN 36 (getN s Obj.tblRejected 0 + 1)
      ∧ Raises 0x05005 [1, 0, wd (tableHdr got).obj, pNum (tableHdr got).offset] s u)))
  ∧ (∀ t ws d s, awake s = true → s.bond.formed = true → tableSound (tableHdr ws) ws = true → (tableHdr ws).start = true →
    (tableHdr ws).last = false → findObj (tableHdr ws).obj = some d → (d.cls = .rwb ∨ d.id = Obj.nozzleTable) →
    (let x := modRfe (fun r => { r with tables := r.tables + 1, tableWords := r.tableWords + ws.length })
       { advance t s with dict := { s.dict with inband := none } }
     firstAbort (openAborts d true (tableHdr ws).offset (tableHdr ws).len ++ gateAborts d true false x ++ blockWriteAborts d x) = 0) →
    Answers (.tableFrame t ws true) s (fun u => u.dict.inband.isSome = true ∧ u.rfe.tables = s.rfe.tables + 1
      ∧ u.rfe.tableWords = s.rfe.tableWords + ws.length ∧ getN u Obj.tblAccepted 0 = satN 36 (getN s Obj.tblAccepted 0 + 1)))

/-- FIRE_ENABLE_ARM, FIRE_ENABLE_DISARM, BOOK_CLEAR, PAGE_ABORT, CHECK_INSTANT, HANDOVER_INSTANT, HANDOVER_DEADLINE, LINE_COMMIT,
BOUNDARY_REACHED, FIRE_TIME_REACHED and HALT_STOPPED. -/
def Obligations.LinesAreHandedOverCommittedAndFired : Prop :=
  (∀ t s, Works s → Accepted Obj.fireEnable 0 [1] (advance t s) → getN s Obj.fireEnable 0 = 0 →
    Answers (.fireEnableArm t) s (fun u => getN u Obj.fireEnable 0 = 1 ∧ u.fire.firstPage = (s.pages.isEmpty || s.fire.firstPage)
      ∧ ∀ h, h < 32 → (headU u h).ldsCount = 0))
  ∧ (∀ t s, Works s → Accepted Obj.fireEnable 0 [0] (advance t s) → Answers (.fireEnableDisarm t) s (fun u =>
      getN u Obj.fireEnable 0 = 0 ∧ u.fire.firstPage = true ∧ u.fire.overspeed = false))
  ∧ (∀ t s, Works s → Accepted Obj.bookClear 0 [1] (advance t s) → Answers (.bookClear t) s (fun u =>
      ∀ h, h < 32 → (headU u h).book = State.resetHead.book))
  ∧ (∀ t s, Works s → Accepted Obj.pageAbort 0 [1] (advance t s) → Answers (.pageAbort t) s (fun u =>
      u.pages = [] ∧ u.rfe.inPage = none ∧ u.fire.halt.phase = 0 ∧ u.fire.firstPage = true))
  ∧ (∀ t page lg s, awake s = true → predicts s = true → (pageOf s page).isSome = true →
    (pageOf s page).any (fun x => x.lastLg.any (fun m => decide (lg > m))) = false → s.fire.halt.phase = 0 →
    Answers (.checkInstant t page lg) s (fun u => match s.rfe.groups.find? (fun g => g.page == page && g.lg == lg) with
      | some g =>
        if g.complete || g.checked then ∀ x ∈ u.rfe.groups, x.page = page → x.lg = lg → x.checked = true ∧ x.late = g.late
        else getN u Obj.lgLate 0 = satN 36 (getN s Obj.lgLate 0 + 1)
          ∧ (getN s Obj.latePolicy 0 = 0 → ∀ i, i < 4 → (page, 4 * lg + i) ∈ u.fire.late)
      | none => (page, 4 * lg) ∉ s.fire.late → getN u Obj.lgLate 0 = satN 36 (getN s Obj.lgLate 0 + 1)
          ∧ (getN s Obj.latePolicy 0 = 0 → ∀ i, i < 4 → (page, 4 * lg + i) ∈ u.fire.late)))
  ∧ (∀ t p y c s, awake s = true → predicts s = true → s.fire.halt.phase = 0 → s.fire.handNext.bind (normLine s) = some (p, y) →
    s.fabric.cells.find? (fun c => c.page == p && c.line == y) = some c → Answers (.handoverInstant t none) s (fun u =>
      u.fire.handNext = some (p, y + 1) ∧ u.fabric.cells = s.fabric.cells.filter (fun c => !(c.page == p && c.line == y))))
  ∧ (∀ t (h : Head) p y q s, awake s = true → predicts s = true → s.fire.halt.phase = 0 → headEnabled s h.val = true →
    ldsUnread s h.val = some (p, y, q) → rdy s 11 = true → xingStalled s 8 = false →
    Answers (.handoverInstant t (some h)) s (fun u =>
      ∃ codes, (headU u h.val).queue = (headU s h.val).queue ++ [{ page := p, line := y, codes := codes }]))
  ∧ (∀ t (h : Head) p y s, awake s = true → predicts s = true → s.fire.halt.phase = 0 → headEnabled s h.val = true →
    nextHeadLine s h.val = some (p, y) → isLate s h.val p y = false → getN s Obj.latePolicy 0 = 0 →
    ((headU s h.val).queue.any (fun q => q.page == p && q.line == y) = false
      ∨ (linkU s h.val).state = .ready ∧ detectorsArmed s = true) →
    Answers (.handoverDeadline t h) s (fun u => (p, y) ∈ (headU u h.val).lateLines))
  ∧ (∀ t (h : Head) p y q f dp dt bank s, awake s = true → s.pwr.season = .summer → headEnabled s h.val = true →
    detectorsArmed s = true → s.fire.halt.phase = 0 → nextHeadLine s h.val = some (p, y) → isLate s h.val p y = false →
    (headU s h.val).queue.find? (fun q => q.page == p && q.line == y) = some q →
    predict s (boundary s h.val p y) = some (f, dp, dt) → bankFor s h.val p = some bank → (linkU s h.val).state = .ready →
    calBusy s h.val = false → rdy s 12 = true → (ldsUse s h.val = 0 ∨ rdy s 11 = true) → (headU s h.val).inhibited = false →
    (earliest s h.val).all (fun e => decide ((e : Int) ≤ f)) = true →
    (headU s h.val).fireTwo.all (fun g => decide (g ≤ 64 * max s.clock.tick t)) = true →
    (linkU s h.val).wireEnd ≤ 64 * max s.clock.tick t →
    (64 * max s.clock.tick t + frameTime s h.val : Int) ≤ f - getN s Obj.fireLead 0 * 40 →
    Answers (.lineCommit t h) s (fun u => ∃ c k rest, (headU u h.val).committed = (headU s h.val).committed ++ [c]
      ∧ c.page = p ∧ c.line = y ∧ c.fire = f.toNat ∧ c.bank = bank ∧ c.lseq = (linkU s h.val).lseq
      ∧ (linkU u h.val).lseq = ((linkU s h.val).lseq + 1) % 4096 ∧ getN u Obj.kLine h.val = k
      ∧ Sends (.headFrame h.val 1 (lineFrame (linkU s h.val).lseq p y k f.toNat bank q.codes) :: rest) s u))
  ∧ (∀ t (h : Head) p y s, awake s = true → headEnabled s h.val = true → detectorsArmed s = true → s.fire.halt.phase = 0 →
    nextHeadLine s h.val = some (p, y) → (linkU s h.val).state ≠ .ready → (headU s h.val).inhibited = false →
    Answers (.boundaryReached t h) s (fun u => (headU u h.val).passed = (headU s h.val).passed ++ [(p, y, (headU s h.val).starts)]
      ∧ (headU u h.val).book.blanked = wrap36 ((headU s h.val).book.blanked + 1)
      ∧ (headU u h.val).book.lineStarts = wrap36 ((headU s h.val).book.lineStarts + 1)))
  ∧ (∀ t (h : Head) p y n c s, awake s = true → oldestStart s h.val = some (p, y, some c, n) → y ≠ 0 →
    (pageOf s p).all (fun x => lastLine x != some y) = true → Answers (.fireTimeReached t h) s (fun u =>
      (headU u h.val).committed = (headU s h.val).committed.filter (fun x => x.start != c.start)
        ∧ (headU u h.val).lastFire = some (c.fire, c.occEnd) ∧ (headU u h.val).book.fired = wrap36 ((headU s h.val).book.fired + 1)))
  ∧ (∀ t s, awake s = true → s.fire.halt.phase = 1 → predicts s = false →
    (∀ h, h < 32 → (headU s h).committed = []) → Answers (.haltStopped t) s (fun u => u.fire.halt.phase = 2))

/-- HEAD_STATUS, STATUS_TIMEOUT, TMARK_SEND, TMARK_ECHO, ECHO_MISSING, BANK_LOAD, HEAD_IDLE_COMMAND, REG_READ, REG_WRITE, REG_REPLY
and REG_REPLY_TIMEOUT. -/
def Obligations.HeadLanesReportMarkAndAccess : Prop :=
  (∀ t (h : Head) ws s, awake s = true → s.pwr.autumn.step ≠ 1 → (linkU s h.val).state ≠ .off → laneServes s (6 + h.val) = true →
    (laneU s (6 + h.val)).lock = true → ws.length = 6 → at? ws 4 0 = wd (crc32 (ws.take 4)) →
    Answers (.headStatus t h { words := ws, eofOk := true }) s (fun u =>
      let w0 := at? ws 0 0
      (linkU u h.val).firedSeq = fld w0 35 24 ∧ (linkU u h.val).idle = bitOf w0 11 ∧ (linkU u h.val).bank0Valid = bitOf w0 10
        ∧ (linkU u h.val).bank1Valid = bitOf w0 9 ∧ (linkU u h.val).refLock = bitOf w0 8 ∧ (linkU u h.val).synced = bitOf w0 7
        ∧ (bitOf w0 5 = true → getS u 36 Obj.headTemp h.val = sgn 18 (fld (at? ws 1 0) 35 18))
        ∧ ((linkU s h.val).state = .training → bitOf w0 8 = true → (linkU u h.val).state = .timing)
        ∧ ((linkU s h.val).state = .down → bitOf w0 8 = true → ((linkU s h.val).cause ≠ 3 ∨ (linkU s h.val).echoed = true) →
          (linkU u h.val).state = .timing)
        ∧ ((linkU s h.val).state = .ready → bitOf w0 8 = true → bitOf w0 7 = true → (linkU u h.val).state = .ready)))
  ∧ (∀ t (h : Head) ws s, awake s = true → (linkU s h.val).state ≠ .off → laneServes s (6 + h.val) = true →
    (laneU s (6 + h.val)).lock = true → (ws.length ≠ 6 ∨ at? ws 4 0 ≠ wd (crc32 (ws.take 4))) →
    Answers (.headStatus t h { words := ws, eofOk := true }) s (fun u =>
      fld (getW u Obj.linkCrcErrors h.val) 17 0 = satN 18 (fld (getW s Obj.linkCrcErrors h.val) 17 0 + 1)))
  ∧ (∀ t (h : Head) ws c s, c = .headStatus t h { words := ws, eofOk := false } ∨ c = .regReply t h { words := ws, eofOk := false } →
    Answers c s (fun u => u.links = s.links))
  ∧ (∀ t (h : Head) cause c s, awake s = true → s.pwr.autumn.step ≠ 1 → (linkU s h.val).state = .ready → rdy s 25 = true →
    (cause = 2 ∧ c = .statusTimeout t h ∨ cause = 3 ∧ c = .echoMissing t h ∧ 4 ≤ (linkU s h.val).marks.length) →
    Answers c s (fun u => (linkU u h.val).state = .down ∧ (linkU u h.val).cause = cause
      ∧ (linkU u h.val).downs = satN 12 ((linkU s h.val).downs + 1) ∧ Raises 0x0B001 [p9 h.val, wd cause] s u))
  ∧ (∀ t (h : Head) tx s, awake s = true → laneServes s (6 + h.val) = true → (linkU s h.val).waiting = [] →
    ((linkU s h.val).state = .timing ∨ (linkU s h.val).state = .ready ∨ (linkU s h.val).state = .down) → calBusy s h.val = false →
    Answers (.tmarkSend t h tx) s (fun u => Sends [.tmark h.val (linkU s h.val).nextMark] s u
      ∧ (linkU u h.val).nextMark = ((linkU s h.val).nextMark + 1) % 256
      ∧ (linkU u h.val).marks = (linkU s h.val).marks ++ [((linkU s h.val).nextMark, max tx (linkU s h.val).wireEnd)]))
  ∧ (∀ t (h : Head) (c : MarkChars) (m tx rx turn : Nat) s, markOf c.d0 c.d1 c.d2 = some m → (linkU s h.val).waiting = [] → awake s = true → s.pwr.autumn.step ≠ 1 → (linkU s h.val).state = .ready → calBusy s h.val = false →
    (linkU s h.val).marks.find? (fun e => e.1 == m) = some (m, tx) →
    (let dn := Int.fdiv ((((rx : Int) - tx - turn) * 25 + getS s 36 Obj.headAsym h.val + 25)) 50
     let d := (linkU s h.val).delay
     (dn - d).natAbs * 25 ≤ getN s Obj.stepLimit 0 →
     frameFits (advance t s) h.val
       { kind := 2, words := timeFrame m tx (d + clampI (-2) 2 (Int.fdiv (dn - d + 4) 8)), bank := none } = true →
     Answers (.tmarkEcho t h c rx turn) s (fun u =>
      (linkU u h.val).delay = d + clampI (-2) 2 (Int.fdiv (dn - d + 4) 8) ∧ (linkU u h.val).state = .ready
        ∧ Sends [.headFrame h.val 2 (timeFrame m tx (d + clampI (-2) 2 (Int.fdiv (dn - d + 4) 8)))] s u)))
  ∧ (∀ t (h : Head) p b ws s, awake s = true → (linkU s h.val).state = .ready → calBusy s h.val = false →
    bankNext s h.val = some p → bankTarget (advance t s) h.val = some b → bankWords s h.val (.commit p) = some ws →
    (linkU s h.val).waiting = [] → frameFits (advance t s) h.val { kind := 3, words := bankFrame b ws, bank := some (b, .commit p) } = true →
    Answers (.bankLoad t h) s (fun u => Sends [.headFrame h.val 3 (bankFrame b ws)] s u ∧ bankHolds u h.val b = .commit p))
  ∧ (∀ t (h : Head) s, awake s = true → s.pwr.season = .autumn → s.pwr.autumn.step = 1 → (linkU s h.val).state = .ready →
    (headU s h.val).committed = [] → Answers (.headIdleCommand t h) s (Sends [.headFrame h.val 4 (cmdFrame 2 0 0 0)] s))
  ∧ (∀ t (h : Head) addr write c s, Works s →
    (write = false ∧ c = .regRead t h addr ∨ write = true ∧ c = .regWrite t h addr) →
    Accepted Obj.regSel h.val [wd (2 ^ 35 + (if write then 2 ^ 34 else 0) + addr % 2 ^ 16)] (advance t s) →
    (linkU s h.val).waiting = [] →
    frameFits (advance t s) h.val { kind := 4, bank := none
                                    words := cmdFrame (if write then 4 else 3) 0 (addr % 2 ^ 16) (if write then getW s Obj.regData h.val else 0) } = true →
    Answers c s (fun u => bitOf (getW u Obj.regSel h.val) 35 = true ∧ (linkU u h.val).regWrite = write
      ∧ (linkU u h.val).regAddr = addr % 2 ^ 16
      ∧ Sends [.headFrame h.val 4 (cmdFrame (if write then 4 else 3) 0 (addr % 2 ^ 16) (if write then getW s Obj.regData h.val else 0)),
          .reply 0 []] s u))
  ∧ (∀ t (h : Head) ws s, awake s = true → (linkU s h.val).state ≠ .off → laneServes s (6 + h.val) = true →
    (laneU s (6 + h.val)).lock = true → ws.length = 4 → at? ws 2 0 = wd (crc32 (ws.take 2)) → (linkU s h.val).idRead = false →
    bitOf (getW s Obj.regSel h.val) 35 = true → fld (at? ws 0 0) 35 32 = (if (linkU s h.val).regWrite then 4 else 3) →
    fld (at? ws 0 0) 15 0 = (linkU s h.val).regAddr → Answers (.regReply t h { words := ws, eofOk := true }) s (fun u =>
      bitOf (getW u Obj.regSel h.val) 35 = false ∧ bitOf (getW u Obj.regSel h.val) 33 = bitOf (at? ws 0 0) 31
        ∧ getW u Obj.regData h.val = at? ws 1 0))
  ∧ (∀ t (h : Head) s, awake s = true → bitOf (getW s Obj.regSel h.val) 35 = true → Answers (.regReplyTimeout t h) s (fun u =>
      bitOf (getW u Obj.regSel h.val) 35 = false ∧ bitOf (getW u Obj.regSel h.val) 33 = true))

/-- ENCODER_EDGE, INDEX_PULSE, ENCODER_WIRE_FAULT, ENCODER_OVERSPEED, ENCODER_RECOVER, POSITION_LATCH, POS_SOURCE_WRITE,
POS_PRESET, CMP_ARM and CMP_FIRE. -/
def Obligations.WebPositionFollowsEncodersLatchesAndCompares : Prop :=
  (∀ t (e : Enc) a b (n : Nat) s (d : Int), awake s = true → bitOf (getW s Obj.funcReset 0) (13 + e.val) = false → (encU s e.val).state ≠ 0 →
    edgeCount (fld (encU s e.val).cfg 34 33) (encU s e.val).a (encU s e.val).b a b = some d →
    Answers (.encoderEdge t e a b n) s (fun u =>
      let d' := if bitOf (encU s e.val).cfg 32 then -d else d
      (encU u e.val).count = sgn 36 (pat 36 ((encU s e.val).count + d')) ∧ (encU u e.val).newest = n ∧ (encU u e.val).dir = d'
        ∧ (encU u e.val).a = a ∧ (encU u e.val).b = b ∧ (encU u e.val).state = (encU s e.val).state))
  ∧ (∀ t (e : Enc) s, awake s = true → bitOf (getW s Obj.funcReset 0) (13 + e.val) = false → fld (getW s Obj.indexCfg e.val) 35 34 ≠ 0 →
    (encU s e.val).state = 1 → 0 ≤ (encU s e.val).dir → nbit (encU s e.val).wires.toNat 2 = false →
    ((encU s e.val).indexRef = none → Answers (.indexPulse t e) s (fun u => (encU u e.val).indexRef = some (encU s e.val).count
      ∧ (encU u e.val).count = (encU s e.val).count))
    ∧ (∀ cref, (encU s e.val).indexRef = some cref → rdy s 25 = true →
      (let n : Int := fld (getW s Obj.indexCfg e.val) 25 0
       let diff := (encU s e.val).count - cref
       let k := Int.fdiv (diff + Int.fdiv n 2) n
       (k < 1 ∨ fld (getW s Obj.indexCfg e.val) 33 26 < (diff - k * n).natAbs) → Answers (.indexPulse t e) s (fun u =>
        (encU u e.val).indexRef = some cref ∧ Raises 0x0C002 [p9 e.val, pInt (diff - k * n)] s u))))
  ∧ (∀ t (e : Enc) c code what s, awake s = true → rdy s 25 = true → (encU s e.val).state = 1 →
    ((∃ pair : Fin 3, pair.val < 2 ∧ c = .encoderWireFault t e pair ∧ code = 0x0C001 ∧ what = wd pair.val)
      ∨ (∃ together, c = .encoderOverspeed t e together ∧ code = 0x0C004 ∧ what = wd (if together then 2 else 1))) →
    Answers c s (fun u => (encU u e.val).state = 2 ∧ Raises code [p9 e.val, what] s u
      ∧ (s.pos.source = e.val → s.pos.srcState = 0 →
        u.pos.srcState = if getN s Obj.fallback 0 = 1 && pageInProgress s && rdy s 15 then 1 else 2)
      ∧ (s.pos.source ≠ e.val → u.pos.srcState = s.pos.srcState)))
  ∧ (∀ t (e : Enc) s, awake s = true → rdy s 25 = true → (encU s e.val).state ≠ 0 → Answers (.encoderWireFault t e 2) s (fun u =>
      (encU u e.val).state = (encU s e.val).state ∧ nbit (encU u e.val).wires.toNat 2 = true ∧ Raises 0x0C001 [p9 e.val, wd 2] s u))
  ∧ (∀ t (e : Enc) s, awake s = true → (encU s e.val).state = 2 → bitOf (getW s Obj.funcReset 0) (13 + e.val) = false →
    Answers (.encoderRecover t e) s (fun u => (encU u e.val).state = 3 ∧ (encU u e.val).wires = (encU s e.val).wires &&& 4))
  ∧ (∀ t (e : Enc) s, awake s = true → (encU s e.val).state ≠ 2 → Answers (.encoderRecover t e) s (fun u =>
      (encU u e.val).state = (encU s e.val).state ∧ (encU u e.val).wires = (encU s e.val).wires &&& 3))
  ∧ (∀ t s, awake s = true → Answers (.positionLatch t) s (fun u =>
      u.fire.latches.head? = some (posNow u, max s.clock.tick t) ∧ u.fire.latches.length ≤ 257 ∧ u.pos.preset = none
        ∧ (∀ (e : Enc) q, s.pos.preset = some q → s.pos.source = e.val → getN s Obj.posSource 0 = e.val →
          ((encU s e.val).state = 1 ∨ (encU s e.val).state = 3) → bitOf (getW s Obj.funcReset 0) (13 + e.val) = false →
          posNow u = wrapPos q ∧ (encU u e.val).state = 1 ∧ u.pos.srcState = 0)))
  ∧ (∀ t v s, Works s → Accepted Obj.posSource 0 [v] (advance t s) → Answers (.posSourceWrite t v) s (fun u =>
      getW u Obj.posSource 0 = v ∧ u.pos = s.pos))
  ∧ (∀ t w0 w1 s, Works s → Accepted Obj.posPreset 0 [w0, w1] (advance t s) → Answers (.posPreset t w0 w1) s (fun u =>
      u.pos = { s.pos with preset := some (elemPos (pairElem w0 w1)) }))
  ∧ (∀ t (i : Fin 8) v s, Works s → Accepted Obj.cmp i.val [v] (advance t s) → Answers (.cmpArm t i v) s (fun u =>
      let V := getPos s Obj.cmpPos i.val
      let p := posNow (advance t s)
      getW u Obj.cmp i.val = v &&& 0xBFFFC0000#36
        ∧ (bitOf v 35 = false → (cmpU u i.val).behind = false ∧ (cmpU u i.val).queue = [])
        ∧ (bitOf v 35 = true → bitOf v 33 = true → (cmpU u i.val).behind = false ∧ (cmpU u i.val).queue = (cmpU s i.val).queue)
        ∧ (bitOf v 35 = true → bitOf v 33 = false → (if s.pos.backward then V < p else p < V) →
          (cmpU u i.val).armedBack = s.pos.backward ∧ (cmpU u i.val).behind = false ∧ (cmpU u i.val).queue = [])
        ∧ (bitOf v 35 = true → bitOf v 33 = false → ¬ (if s.pos.backward then V < p else p < V) →
          (cmpU u i.val).armedBack = !s.pos.backward ∧ (cmpU u i.val).behind = true
            ∧ Raises 0x0C006 (p9 i.val :: pPos V) s u)))
  ∧ (∀ t (i : Fin 8) s, awake s = true → posNow (advance t s) = s.pos.last → s.pos.backward = false → bitOf (getW s Obj.cmp i.val) 35 = true →
    bitOf (getW s Obj.cmp i.val) 33 = false → (cmpU s i.val).armedBack = false → getPos s Obj.cmpPos i.val ≤ posNow (advance t s) →
    fld (getW s Obj.cmp i.val) 32 31 = 2 → Answers (.cmpFire t i) s (fun u =>
      getN u Obj.cmpFired i.val = satN 36 (getN s Obj.cmpFired i.val + 1)
        ∧ Sends [.pulse (fld (getW s Obj.cmp i.val) 30 29) (bitOf (getW s Obj.cmp i.val) 28) (fld (getW s Obj.cmp i.val) 27 18)
            (max s.clock.tick t * 64)] s u
        ∧ (getN s Obj.cmpPeriod i.val = 0 → bitOf (getW u Obj.cmp i.val) 35 = false ∧ (cmpU u i.val).behind = false)
        ∧ (getN s Obj.cmpPeriod i.val ≠ 0 → getW u Obj.cmp i.val = getW s Obj.cmp i.val
            ∧ getPos u Obj.cmpPos i.val = wrapPos (getPos s Obj.cmpPos i.val + getN s Obj.cmpPeriod i.val))))
  ∧ (∀ t (i : Fin 8) v page rest s, awake s = true → posNow (advance t s) = s.pos.last → s.pos.backward = false →
    bitOf (getW s Obj.cmp i.val) 35 = true → bitOf (getW s Obj.cmp i.val) 33 = true → (cmpU s i.val).queue = (v, page) :: rest →
    v ≤ posNow (advance t s) → Answers (.cmpFire t i) s (fun u =>
      (cmpU u i.val).queue = rest ∧ getN u Obj.cmpFired i.val = satN 36 (getN s Obj.cmpFired i.val + 1)
        ∧ getW u Obj.cmp i.val = getW s Obj.cmp i.val))

/-- SERVO_CYCLE, HARE_RUN, AUX_REPLY, AUX_REPLY_TIMEOUT, AX_TARGET_WRITE, AX_DECEL_WRITE, AX_STOP and AUX_FAULT_CLEAR. The rest
point of STOP is rounded down by the model's choice (log entry 24). -/
def Obligations.HareAxesAndTheAuxPortRun : Prop :=
  (∀ t s, awake s = true → rdy s 5 = true → s.pwr.autumn.step ≠ 2 → bitOf (getW s Obj.funcReset 0) 15 = false →
    bitOf (getW s Obj.funcReset 0) 16 = false → Answers (.servoCycle t) s (fun u =>
      (s.pos.srcState = 0 →
        let aim : Int := if s.hare.run then getS s 36 Obj.hareVmax 0 else 0
        let v' : Int := if s.hare.v < aim then s.hare.v + min (getN s Obj.hareAccel 0 : Int) (aim - s.hare.v)
          else s.hare.v - min (getN s Obj.hareDecel 0 : Int) (s.hare.v - aim)
        u.hare.v = v' ∧ u.hare.x = s.hare.x + v' ∧ u.hare.xPrev = s.hare.x ∧ u.hare.startTick = max s.clock.tick t)
      ∧ u.aux.seq = (s.aux.seq + 1) % 256
      ∧ (bitOf (getW s Obj.auxCfg 0) 35 = true → auxDriven s = true → u.aux.waiting = s.aux.waiting ++ [(u.aux.seq, max s.clock.tick t)]
          ∧ ∃ bs, bs.length = 13 ∧ Sent.auxFrame bs ∈ u.sent)
      ∧ (∀ a : Axis, axisOn s a.val = true → axisRing s a.val = false → (axisU s a.val).taken = none →
          let x := axisU s a.val
          let d := (x.target - x.p).natAbs
          let D := getN s Obj.axDecelNow a.val
          let v := min (max (min (x.v + getN s Obj.axAccel a.val) (getN s Obj.axVmax a.val)) (x.v - D)) (isqrt (2 * D * d))
          let p' := if x.target < x.p then x.p - (min v d : Nat) else x.p + (min v d : Nat)
          (axisU u a.val).p = p' ∧ (axisU u a.val).v = (if min v d = d then 0 else v)
            ∧ getW u Obj.axSetpoint a.val = ws (setPoint p'))
      ∧ (∀ a : Axis, axisOn s a.val = true → axisRing s a.val = true → (axisU s a.val).taken = none →
          (axisU u a.val).p = getS s 36 Obj.axRingSp a.val * 65536 ∧ getW u Obj.axSetpoint a.val = getW s Obj.axRingSp a.val)))
  ∧ (∀ t run trig s, Works s → Accepted Obj.hareCtrl 0 [wd (b2n run * 2 ^ 35 + b2n trig * 2 ^ 34)] (advance t s) →
    Answers (.hareRun t run trig) s (fun u =>
      u.hare = { s.hare with run := run && (!trig || s.hare.run), waitTrig := run && trig && !s.hare.run }))
  ∧ (∀ t (bs : List Byte) seq at0 rest s, awake s = true → s.pwr.autumn.step ≠ 2 → s.aux.waiting = (seq, at0) :: rest →
    max s.clock.tick t ≤ at0 + 20000 → bs.length = 13 → bs.head? = some 0x5A#8 →
    bs.drop 11 = [BitVec.ofNat 8 (crc16Bytes (bs.take 11) / 256), BitVec.ofNat 8 (crc16Bytes (bs.take 11))] → (at? bs 1 0).toNat = seq →
    nbit (at? bs 2 0).toNat 4 = false → nbit (at? bs 2 0).toNat 5 = false → Answers (.auxReply t bs) s (fun u =>
      u.aux = { s.aux with waiting := rest, badRun := 0, goodRun := s.aux.goodRun + 1, everGood := true }
        ∧ getS u 36 Obj.axActual 0 = int32 ((bs.drop 3).take 4) ∧ getS u 36 Obj.axActual 1 = int32 ((bs.drop 7).take 4)
        ∧ (∀ a : Axis, (axisU u a.val).inPos = nbit (at? bs 2 0).toNat (2 + a.val))))
  ∧ (∀ t seq at0 rest c cause s, awake s = true → rdy s 25 = true → s.pwr.autumn.step ≠ 2 → s.aux.waiting = (seq, at0) :: rest →
    (c = .auxReplyTimeout t ∧ cause = 1 ∨ (∃ bs : List Byte, c = .auxReply t bs ∧ cause = 2 ∧ bs.length ≠ 13 ∧ max s.clock.tick t ≤ at0 + 20000)) →
    Answers c s (fun u => u.aux = { s.aux with waiting := rest, badRun := s.aux.badRun + 1, goodRun := 0 }
      ∧ getN u Obj.auxBadReplies 0 = satN 36 (getN s Obj.auxBadReplies 0 + 1)
      ∧ (s.aux.badRun < 2 → getW u Obj.auxState 0 = getW s Obj.auxState 0 ∧ u.axes = s.axes)
      ∧ (2 ≤ s.aux.badRun → auxFault s = false → auxFault u = true ∧ fld (getW u Obj.auxState 0) 34 32 = cause
          ∧ bitOf u.pwr.up 16 = false ∧ Raises 0x0D004 [wd cause, wd seq] s u)))
  ∧ (∀ t (a : Axis) v s, Works s → Accepted Obj.axTarget a.val [v] (advance t s) → Answers (.axTargetWrite t a v) s (fun u =>
      (axisU u a.val).target = sgn 36 v.toNat * 65536 ∧ (axisU u a.val).p = (axisU s a.val).p ∧ (axisU u a.val).deferred = none
        ∧ getS u 36 Obj.axTarget a.val = sgn 36 v.toNat
        ∧ (sgn 36 v.toNat = setPoint (axisU s a.val).p → Raises 0x0D003 [p9 a.val, pInt (setPoint (axisU s a.val).p)] s u)))
  ∧ (∀ t (a : Axis) v s, Works s → Accepted Obj.axDecel a.val [v] (advance t s) → Answers (.axDecelWrite t a v) s (fun u =>
      let x := axisU s a.val
      getW u Obj.axDecel a.val = v ∧ getW u Obj.axDecelNow a.val = getW s Obj.axDecelNow a.val
        ∧ ((inMotion x = false ∨ x.v * x.v ≤ 2 * v.toNat * (x.target - x.p).natAbs) →
          (axisU u a.val).taken = some v.toNat ∧ (axisU u a.val).deferred = none)
        ∧ (inMotion x = true → 2 * v.toNat * (x.target - x.p).natAbs < x.v * x.v →
          (axisU u a.val).deferred = some v.toNat ∧ (axisU u a.val).taken = x.taken ∧ Raises 0x0D002 [p9 a.val, pNum v.toNat] s u)))
  ∧ (∀ t (a : Axis) s, Works s → Accepted Obj.axCtrl a.val [setBit (getW s Obj.axCtrl a.val) 32 true] (advance t s) →
    Answers (.axStop t a) s (fun u =>
      let x := axisU s a.val
      let d : Int := ((x.v * x.v / (2 * max 1 (getN s Obj.axDecelNow a.val)) : Nat) : Int)
      bitOf (getW u Obj.axCtrl a.val) 32 = false ∧ (axisU u a.val).p = x.p ∧ (axisU u a.val).v = x.v
        ∧ (inMotion x = false → (axisU u a.val).target = x.target)
        ∧ (inMotion x = true → ((axisU u a.val).target = if x.target < x.p then x.p - d else x.p + d)
          ∧ (x.v = 0 → (axisU u a.val).target = x.p ∧ Raises 0x0D003 [p9 a.val, pInt (setPoint x.p)] s u))))
  ∧ (∀ t s, Works s → Accepted Obj.auxState 0 [wd (2 ^ 35)] (advance t s) → Answers (.auxFaultClear t) s (fun u =>
      auxFault u = false ∧ bitOf u.pwr.up 16 = (bitOf (getW s Obj.auxCfg 0) 35 && s.aux.everGood)))

/-- CAMERA_LINE, CAMERA_STATUS, SYNC_REQ, EXP_COMMIT, STRIPE_PROCESS and DISP_ACK. The stripe of a line is stated for an input whose
rows have no delay. -/
def Obligations.CameraInputsFormFramesStripesAndSettings : Prop :=
  (∀ t (k : Cam) ws eof s, awake s = true → camOn s k.val = true → laneServes s (42 + k.val) = true → camLock s k.val = true →
    Answers (.cameraLine t k ws eof) s (fun u => .cameraRepeat k.val 1 ws eof ∈ u.sent)
      ∧ Answers (.cameraStatus t k ws eof) s (fun u => Sends [.cameraRepeat k.val 3 ws eof] s u))
  ∧ (∀ t (k : Cam) ws eof s, awake s = true → xingStalled s 9 = false → camOn s k.val = true → laneServes s (42 + k.val) = true → camLock s k.val = true →
    (eof = false ∨ fld (at? ws 2 0) 15 0 ≠ crc16Upper [at? ws 0 0, at? ws 1 0] (at? ws 2 0)) →
    Answers (.cameraLine t k ws eof) s (fun u => u.insp = s.insp
      ∧ getN u Obj.linesDiscarded k.val = satN 36 (getN s Obj.linesDiscarded k.val + 1)))
  ∧ (∀ t (k : Cam) ws f s, awake s = true → xingStalled s 9 = false → camOn s k.val = true → laneServes s (42 + k.val) = true → camLock s k.val = true →
    fld (at? ws 2 0) 15 0 = crc16Upper [at? ws 0 0, at? ws 1 0] (at? ws 2 0) →
    fld (at? ws 1 0) 19 0 = camRows s k.val * camPositions s k.val → 3 + (fld (at? ws 1 0) 19 0 + 2) / 3 ≤ ws.length →
    fld (at? ws 1 0) 21 20 ≠ 3 → bitOf (at? ws 1 0) 27 = true → (camU s k.val).synced = true →
    (camU s k.val).frame = some f → f.nopage = false →
    (let pos := getPos s Obj.camPhase 0 + ((camU s k.val).kSync + sgn 36 (at? ws 0 0).toNat) * camPitch s
     let j := (Int.fdiv (pos - f.pos0) (camPitch s)).toNat
     let passed := pos < f.start ∨ ∃ h, f.highest = some h ∧ pos ≤ h
     (passed → Answers (.cameraLine t k ws true) s (fun u => (camU u k.val).frame = some f ∧ u.insp.stripes = s.insp.stripes
        ∧ getN u Obj.linesDiscarded k.val = satN 36 (getN s Obj.linesDiscarded k.val + 1)))
     ∧ (¬ passed → j + 1 - maxDelay s k.val < getN s Obj.frameLines k.val → Answers (.cameraLine t k ws true) s (fun u =>
        ∃ f', (camU u k.val).frame = some f' ∧ f'.num = f.num ∧ f'.lastJ = some j ∧ f'.highest = some pos
          ∧ (maxDelay s k.val = 0 → f.gap = false → f.dropped = [] → camUsed s k.val < camAlloc s k.val →
            ∃ x ∈ u.insp.stripes, x.input = k.val ∧ x.frame = f.num ∧ x.nopage = false ∧ x.index = j / 32
              ∧ ∃ l ∈ x.lines, l.j = j ∧ l.samples = lineSamplesOf ws)))
     ∧ (¬ passed → getN s Obj.frameLines k.val ≤ j + 1 - maxDelay s k.val → rdy s 25 = true → Answers (.cameraLine t k ws true) s (fun u =>
        (camU u k.val).frame = none ∧ Raises 0x0E003 [p9 k.val, pPage f.num, pNum (getN s Obj.frameLines k.val), 0] s u))))
  ∧ (∀ t (k : Cam) ws s, awake s = true → xingStalled s 9 = false → camOn s k.val = true → laneServes s (42 + k.val) = true → camLock s k.val = true →
    ws.length = 4 → at? ws 2 0 = wd (crc32 (ws.take 2)) → Answers (.cameraStatus t k ws true) s (fun u =>
      let w1 := at? ws 1 0
      (camU u k.val).latency = fld w1 17 10 ∧ (camU u k.val).sensorFault = bitOf w1 18
        ∧ (bitOf w1 19 = false → (camU u k.val).synced = false ∧ (camU u k.val).kSync = (camU s k.val).kSync)
        ∧ (bitOf w1 19 = true → fld w1 27 20 ≠ (camU s k.val).syncSeen → (camU u k.val).synced = true
            ∧ (camU u k.val).syncSeen = fld w1 27 20
            ∧ (camU u k.val).kSync = Int.fdiv (posNow (advance t s) - getPos s Obj.camPhase 0) (camPitch s))
        ∧ (bitOf w1 19 = true → fld w1 27 20 = (camU s k.val).syncSeen → (camU u k.val).synced = (camU s k.val).synced
            ∧ (camU u k.val).kSync = (camU s k.val).kSync)))
  ∧ (∀ t v s, Works s → Accepted Obj.syncReq 0 [v] (advance t s) → Answers (.syncReq t v) s (fun u =>
      Sends ((bitsOf 4 (fld v 3 0)).map (fun k => Sent.camera k (ctrlFrame 2 0 0 0 0 (((camU s k).syncSent + 1) % 256))) ++ [.reply 0 []]) s u
        ∧ (∀ k : Cam, (camU u k.val).syncSent = if nbit (fld v 3 0) k.val then ((camU s k.val).syncSent + 1) % 256 else (camU s k.val).syncSent)))
  ∧ (∀ t v s, Works s → Accepted Obj.expCommit 0 [v] (advance t s) → Answers (.expCommit t v) s (fun u =>
      ∀ k : Cam, (camU u k.val).commit = if nbit (fld v 3 0) k.val then
        some (0, getW s Obj.expSet k.val, getW s Obj.gainRgb k.val, getW s Obj.gainCir k.val) else (camU s k.val).commit))
  ∧ (∀ t x s, awake s = true → rdy s 18 = true → nextStripe s = some x → Answers (.stripeProcess t) s (fun u =>
      u.insp.stripes = s.insp.stripes.erase x ∧ (camShows s x.input = false → u.insp.display = s.insp.display)
        ∧ (camCodes s x.input = false → Sends [] s u)))
  ∧ (∀ t v s, Works s → Accepted Obj.dispAck 0 [v] (advance t s) → Answers (.dispAck t v) s (fun u =>
      u.insp.display = (s.insp.display.dropWhile (fun r => r.1 != v.toNat)).drop 1))

/-- CAL_REQ, CAL_AUTO_TRIGGER, CAL_START, CAL_RUN_DONE, CAL_REQUEST_EXPIRE and CAL_RETRY. Where the taps of the ports differ the value
is free (log entry 38); the statement speaks of runs whose ports agree. -/
def Obligations.CalibrationRequestsRunAndAreJudged : Prop :=
  (∀ t v s, Works s → Accepted Obj.calReq 0 [v] (advance t s) →
    (let wait := if fld v 23 0 = 0 then getN s Obj.autoWait 0 else fld v 23 0
     Answers (.calReq t v) s (fun u =>
      (∃ r ∈ u.cal.queue, r.item = fld v 35 30 ∧ r.target = fld v 29 24 ∧ max s.clock.tick t + wait * 625000 ≤ r.deadline)
      ∧ (calQueued s (fld v 35 30) (fld v 29 24) = none → u.cal.queue.length = s.cal.queue.length + 1
          ∧ (calCan (advance t s) (fld v 35 30) (fld v 29 24) = false →
            Raises 0x10004 [wd (fld v 35 30), wd (fld v 29 24), pNum wait] s u))
      ∧ ((calQueued s (fld v 35 30) (fld v 29 24)).isSome = true → u.cal.queue.length = s.cal.queue.length))))
  ∧ (∀ t temp s, awake s = true → Answers (.calAutoTrigger t temp) s (fun u => getW u Obj.dieTemp 0 = ws temp
      ∧ (∀ g : Fin 4, s.cal.queue = [] → nbit s.cal.groups.toNat g.val = true → bitOf (getW s Obj.autoCal 0) 0 = true →
          getN s Obj.delayTrig 0 < (sgn 36 (ws temp).toNat - sgn 14 (fld (getW s Obj.delayCal g.val) 23 10)).natAbs →
          s.cal.backoff.contains (1, g.val) = false → calRunning s 1 g.val = false → (calQueued u 1 g.val).isSome = true)))
  ∧ (∀ t item target s, awake s = true → (calQueued s item target).isSome = true → calRunning s item target = false →
    calCan (advance t s) item target = true → Answers (.calStart t item target) s (fun u =>
      calRunning u item target = true ∧ calQueued u item target = none
        ∧ (item = 17 → bitOf u.pwr.up (memFunc target) = false)))
  ∧ (∀ t (g : Fin 4) a b s, awake s = true → rdy s 25 = true → calRunning s 1 g.val = true →
    Answers (.calRunDone t 1 g.val (List.replicate 8 a) (List.replicate 8 b)) s (fun u =>
      calRunning u 1 g.val = false
      ∧ (80 ≤ a → a ≤ 200 → 80 ≤ b → b ≤ 200 → (a - b).natAbs ≤ 1 →
          getW u Obj.delayCal g.val = wd (pat 9 (meanUp a b) * 2 ^ 27 + 2 ^ 24 + pat 14 (getS s 36 Obj.dieTemp 0) * 2 ^ 10)
            ∧ nbit u.cal.groups.toNat g.val = true
            ∧ (∀ i : Fin 8, vget u.cal.delayNew (8 * g.val + i.val) none = some (meanUp a b).toNat)
            ∧ Raises 0x10001 [1, wd g.val, wd (pat 9 (meanUp a b)), pInt (getS s 36 Obj.dieTemp 0)] s u)
      ∧ (80 ≤ a → a ≤ 200 → 80 ≤ b → b ≤ 200 → 1 < (a - b).natAbs →
          fld (getW u Obj.delayCal g.val) 26 24 = 3 ∧ Raises 0x10003 [1, wd g.val, pInt a, pInt b] s u
            ∧ u.cal.backoff.contains (1, g.val) = true)
      ∧ ((a < 80 ∨ 200 < a) →
          fld (getW u Obj.delayCal g.val) 26 24 = 2 ∧ Raises 0x10002 [1, wd g.val, pInt a] s u ∧ u.cal.backoff.contains (1, g.val) = true)))
  ∧ (∀ t item target r s, awake s = true → rdy s 25 = true → calQueued s item target = some r →
    Answers (.calRequestExpire t item target) s (fun u => calQueued u item target = none
      ∧ Raises 0x10005 [wd item, wd target, pNum ((max s.clock.tick t - r.since) / 625000), 1] s u))
  ∧ (∀ t item target s, awake s = true → s.cal.backoff.contains (item, target) = true → Answers (.calRetry t item target) s (fun u =>
      u.cal.backoff.contains (item, target) = false
        ∧ (calMoved s item target = true → calRunning s item target = false → s.cal.queue.length < 16 → (calQueued u item target).isSome = true)))

/-- WRITE_BACK, MERGE_EVICT, SCRUB_READ, REPAIR_DONE, SUMMARY_PERIOD_END and MEMORY_CLEAR. -/
def Obligations.MemoriesAreScrubbedRepairedClearedAndReported : Prop :=
  (∀ t (m : Mem) a d rest s, awake s = true → s.pwr.codeError = false → (memU s m.val).writeBacks = (a, d) :: rest →
    (∀ e ∈ (memU s m.val).merge, e.addr ≠ a) → a < memWords m.val → Answers (.writeBack t m) s (fun u =>
      cellAt u m.val a = { data := d, upset := 0, valid := 3 } ∧ (memU u m.val).writeBacks = rest
        ∧ ∀ b, b ≠ a → cellAt u m.val b = cellAt s m.val b))
  ∧ (∀ t (m : Mem) e rest s, awake s = true → s.pwr.codeError = false → (memU s m.val).merge = e :: rest → e.addr < memWords m.val →
    bitOf (getW s Obj.flipCtrl m.val) 35 = false → compat s m.val = false →
    (let old := cellAt s m.val e.addr
     (old.valid = 0 ∨ (old.valid = 3 ∧ old.upset = 0)) → Answers (.mergeEvict t m) s (fun u =>
      cellAt u m.val e.addr = { data := (e.data &&& nonetMask e.nonets) |||
          (if e.nonets = 15 ∨ old.valid = 0 then 0 else old.data &&& ~~~ nonetMask e.nonets), upset := 0, valid := 3 }
        ∧ (∀ x ∈ (memU u m.val).merge, x.addr ≠ e.addr) ∧ ∀ b, b ≠ e.addr → cellAt u m.val b = cellAt s m.val b)))
  ∧ (∀ t (m : Mem) x s, awake s = true → rdy s 25 = true → s.pwr.codeError = false → scrubs s m.val = true →
    (∀ e ∈ (memU s m.val).merge, e.addr ≠ (memU s m.val).scrubAddr) → (memU s m.val).scrubAddr < memWords m.val →
    (let a := (memU s m.val).scrubAddr
     let v := cellAt s m.val a
     v.valid = 3 → (m.val ≠ 6 ∨ ones 43 (v.upset ^^^ x).toNat < 2) → Answers (.scrubRead t m x) s (fun u =>
      (memU u m.val).scrubAddr = (if a + 1 ≥ memWords m.val then 0 else a + 1)
        ∧ (cellAt u m.val a).data = v.data ∧ (cellAt u m.val a).upset = v.upset ^^^ x
        ∧ (ones 43 (v.upset ^^^ x).toNat = 0 → (cellAt u m.val a).valid = 3 ∧ getN u Obj.corrected m.val = getN s Obj.corrected m.val)
        ∧ (ones 43 (v.upset ^^^ x).toNat = 1 → (cellAt u m.val a).valid = 3
            ∧ getN u Obj.corrected m.val = satN 36 (getN s Obj.corrected m.val + 1))
        ∧ (ones 43 (v.upset ^^^ x).toNat = 2 → (cellAt u m.val a).valid = 2
            ∧ getN u Obj.poisoned m.val = satN 36 (getN s Obj.poisoned m.val + 1) ∧ Raises 0x11003 [p9 m.val, pNum a] s u))))
  ∧ (∀ t (m : Mem) mac row spare rest s, awake s = true → rdy s 25 = true → (memU s m.val).repairing = (mac, row, spare) :: rest →
    Answers (.repairDone t m) s (fun u => (memU u m.val).repairing = rest
      ∧ u.repairs = s.repairs ++ [{ mem := m.val, macroIx := mac, spare := spare, row := row }]
      ∧ Raises 0x11004 [p9 m.val, wd mac, wd row, wd spare] s u))
  ∧ (∀ t s, awake s = true → rdy s 25 = true → Answers (.summaryPeriodEnd t) s (fun u =>
      (∀ m : Mem, (memU u m.val).corrected = 0 ∧ (memU u m.val).cells = (memU s m.val).cells)
        ∧ ((∃ m : Mem, (memU s m.val).corrected ≠ 0) →
          Raises 0x11001 [summaryPair s 0, summaryPair s 2, summaryPair s 4, summaryPair s 6] s u)))
  ∧ (∀ t v (m : Mem) s, Works s → Accepted Obj.clear 0 [v] (advance t s) → nbit v.toNat m.val = true →
    (m.val = 0 ∨ m.val = 1 ∨ m.val = 2 ∨ m.val = 4 ∨ m.val = 5) → Answers (.memoryClear t v) s (fun u =>
      (memU u m.val).cells = [] ∧ (memU u m.val).merge = [] ∧ (memU u m.val).writeBacks = []
        ∧ (m.val = 2 → u.nt.loading = true ∧ bitOf u.pwr.up 10 = false)))

/-- The rules of a user read (R451, R452), for every memory but control processor RAM, whose policy value is free (log entry 10). -/
def Obligations.ReadsCorrectOneFlippedBitAndStopAtTwo : Prop :=
  (∀ m a s, (∀ e ∈ (memU s m).merge, e.addr ≠ a) → m < 8 → m ≠ 6 → a < memWords m →
    ((cellAt s m a).valid = 0 → compat s m = false → userRead m a s = (0, s))
    ∧ ((cellAt s m a).valid = 3 → (cellAt s m a).upset = 0 → userRead m a s = ((cellAt s m a).data, s))
    ∧ ((cellAt s m a).valid = 3 → ones 43 (cellAt s m a).upset.toNat = 1 → (userRead m a s).1 = (cellAt s m a).data
        ∧ getN (userRead m a s).2 Obj.corrected m = satN 36 (getN s Obj.corrected m + 1))
    ∧ ((cellAt s m a).valid = 3 → ones 43 (cellAt s m a).upset.toNat = 2 → rdy s 25 = true → (userRead m a s).1 = policyValue s m
        ∧ (cellAt (userRead m a s).2 m a).valid = 2 ∧ getN (userRead m a s).2 Obj.uncorrectable m = satN 36 (getN s Obj.uncorrectable m + 1)
        ∧ Raises 0x11002 [p9 m, pNum a] s (userRead m a s).2)
    ∧ (((cellAt s m a).valid = 1 ∨ (cellAt s m a).valid = 2) →
        userRead m a s = (policyValue s m, setN Obj.poisonReads m (satN 36 (getN s Obj.poisonReads m + 1)) s)))
  ∧ (∀ m a d s, m < 8 → a < memWords m → bitOf (getW s Obj.flipCtrl m) 35 = false →
    peek (userWrite m a d s) m a = d ∧ ∀ b, b ≠ a → cellAt (userWrite m a d s) m b = cellAt s m b)

/-- HPC_REQUEST_ON, HPC_REQUEST_OFF, STAGGER_SLOT, CHANNEL_CHECK_DONE, RAMP_SETTLED, RAMP_TIMEOUT, OVERCURRENT_TRIP,
TRIP_HOLDOFF_END, TRIP_COUNT_CLEAR, SENSE_OPEN, ADC_SEQUENCE, ADC_SAMPLE, HPC_UNLATCH, D2D_COMMAND_FRAME, D2D_LINK_LOST and VDRV_LOW. -/
def Obligations.HeadPowerChannelsAreCheckedRampedAndTripped : Prop :=
  (∀ t (n : Head) s, Works s → Accepted Obj.hpcEnable 0 [setBit (getW s Obj.hpcEnable 0) n.val true] (advance t s) →
    bitOf (getW s Obj.hpcEnable 0) n.val = false → Answers (.hpcRequestOn t n) s (fun u =>
      bitOf (getW u Obj.hpcEnable 0) n.val = true ∧ u.hpc = { s.hpc with waiting := s.hpc.waiting ++ [n.val] }))
  ∧ (∀ t (n : Head) s, Works s → Accepted Obj.hpcEnable 0 [setBit (getW s Obj.hpcEnable 0) n.val false] (advance t s) →
    bitOf (getW s Obj.hpcEnable 0) n.val = true → (chan s n.val).state ≠ .latched → (chan s n.val).state ≠ .held →
    Answers (.hpcRequestOff t n) s (fun u => bitOf (getW u Obj.hpcEnable 0) n.val = false ∧ (chan u n.val).state = .off
      ∧ ∀ x : Head, x ≠ n → chan u x.val = chan s x.val))
  ∧ (∀ t (n : Head) s, awake s = true → s.pwr.season = .summer → s.hpc.waiting.contains n.val = true → (∀ m ∈ s.hpc.waiting, n.val ≤ m) →
    (∀ c, s.hpc.lastCheck = some c → 62500 ≤ max s.clock.tick t - c) → rdy s 21 = true →
    Answers (.staggerSlot t n) s (fun u => (chan u n.val).state = .check ∧ u.hpc.lastCheck = some (max s.clock.tick t)
      ∧ u.hpc.waiting.contains n.val = false ∧ u.pwr.season = .summer))
  ∧ (∀ t (n : Head) (vs vp : Int) s, awake s = true → rdy s 25 = true → (chan s n.val).state = .check →
    (let lo : Int := fld (getW s Obj.hpcVwin n.val) 35 18
     let hi : Int := fld (getW s Obj.hpcVwin n.val) 17 0
     let reversed := vs < -(getN s Obj.revV 0 : Int)
     let wireOpen := (getN s Obj.openV 0 : Int) < vs
     let outside := vp < lo ∨ hi < vp
     Answers (.channelCheckDone t n vs vp) s (fun u =>
      (reversed → (chan u n.val).state = .latched ∧ (chan u n.val).cause = 4 ∧ Raises 0x12004 [p9 n.val, pInt vs] s u)
      ∧ (¬ reversed → wireOpen → (chan u n.val).state = .latched ∧ (chan u n.val).cause = 3
          ∧ ∃ w, Raises 0x12003 [p9 n.val, w, 1, pInt vs] s u)
      ∧ (¬ reversed → ¬ wireOpen → outside → (chan u n.val).state = .off ∧ (chan u n.val).cause = 5
          ∧ bitOf (getW u Obj.hpcEnable 0) n.val = false ∧ Raises 0x12005 [p9 n.val, pInt vp, 1] s u)
      ∧ (¬ reversed → ¬ wireOpen → ¬ outside → (chan u n.val).state = .ramp))))
  ∧ (∀ t (n : Head) s, awake s = true → (chan s n.val).state = .ramp → Answers (.rampSettled t n) s (fun u =>
      (chan u n.val).state = .on ∧ u.hpc.order.getLast? = some n.val))
  ∧ (∀ t (n : Head) cause c s, awake s = true → rdy s 25 = true →
    ((c = .rampTimeout t n ∧ cause = 2 ∧ (chan s n.val).state = .ramp)
      ∨ (c = .overcurrentTrip t n ∧ cause = 1 ∧ ((chan s n.val).state = .ramp ∨ (chan s n.val).state = .on))) →
    (let recent := ((max s.clock.tick t) :: (chan s n.val).trips).filter (fun x => decide (max s.clock.tick t - x < 6250000000))
     Answers c s (fun u => getN u Obj.trips n.val = satN 36 (getN s Obj.trips n.val + 1)
      ∧ (chan u n.val).tripCount = satN 4 recent.length
      ∧ Raises 0x12001 [p9 n.val, pInt (getS s 18 Obj.hpcI n.val), pNum (satN 4 recent.length)] s u
      ∧ (recent.length ≤ getN s Obj.ocRetries 0 → (chan u n.val).state = .tripped ∧ (chan u n.val).cause = cause)
      ∧ (getN s Obj.ocRetries 0 < recent.length → (chan u n.val).state = .latched ∧ (chan u n.val).cause = 1
          ∧ Raises 0x12002 [p9 n.val, pNum (satN 4 recent.length)] s u))))
  ∧ (∀ t (n : Head) s, awake s = true → (chan s n.val).state = .tripped → s.pwr.season = .summer → s.hpc.waiting = [] →
    (∀ c, s.hpc.lastCheck = some c → c + 62500 ≤ max s.clock.tick t) →
    Answers (.tripHoldoffEnd t n) s (fun u => (chan u n.val).state = .check ∧ u.hpc.lastCheck = some (max s.clock.tick t)))
  ∧ (∀ t (n : Head) s, awake s = true → (chan s n.val).state = .on → Answers (.tripCountClear t n) s (fun u =>
      chan u n.val = { chan s n.val with tripCount := 0, trips := [] }))
  ∧ (∀ t (n : Head) wireN mv s, awake s = true → rdy s 25 = true → (chan s n.val).state = .on →
    Answers (.senseOpen t n wireN mv) s (fun u => (chan u n.val).state = .latched ∧ (chan u n.val).cause = 3
      ∧ (wireN = true → (chan u n.val).openN = true) ∧ (wireN = false → (chan u n.val).openP = true)
      ∧ Raises 0x12003 [p9 n.val, wd (if wireN then 2 else 1), 3, pInt mv] s u))
  ∧ (∀ t byTrigger s, awake s = true → (byTrigger = true ∨ getN s Obj.adcTrigOnly 0 ≠ 1) → Answers (.adcSequence t byTrigger) s (fun u =>
      (∀ c, s.hpc.adcStart = some c → max s.clock.tick t < c + 2500 → u.hpc.adcStart = some c
          ∧ getN u Obj.adcMissed 0 = satN 36 (getN s Obj.adcMissed 0 + 1))
        ∧ ((∀ c, s.hpc.adcStart = some c → c + 2500 ≤ max s.clock.tick t) → u.hpc.adcStart = some (max s.clock.tick t)
          ∧ getN u Obj.adcMissed 0 = getN s Obj.adcMissed 0)))
  ∧ (∀ t (n : Head) v s, awake s = true → Answers (.adcSample t n true v) s (fun u => getS u 36 Obj.hpcI n.val = satS 18 v ∧ u.hpc = s.hpc))
  ∧ (∀ t (n : Head) v s, awake s = true → vHeld s n.val = false → (chan s n.val).state = .on →
    (let lo : Int := fld (getW s Obj.hpcVwin n.val) 35 18
     let hi : Int := fld (getW s Obj.hpcVwin n.val) 17 0
     Answers (.adcSample t n false v) s (fun u => getN u Obj.hpcV n.val = (clampI 0 262143 v).toNat
      ∧ (chan u n.val).vTick = some (max s.clock.tick t) ∧ (chan u n.val).state = .on
      ∧ (lo ≤ v → v ≤ hi → (chan u n.val).window = false ∧ (chan u n.val).outOfWindow = 0)
      ∧ ((v < lo ∨ hi < v) → (chan u n.val).outOfWindow = (chan s n.val).outOfWindow + 1
          ∧ (getN s Obj.winFilter 0 ≤ (chan s n.val).outOfWindow + 1 → (chan u n.val).window = true
              ∧ ((chan s n.val).window = false → rdy s 25 = true → Raises 0x12005 [p9 n.val, pInt v, 3] s u))))))
  ∧ (∀ t v s, Works s → Accepted Obj.hpcUnlatch 0 [v] (advance t s) → Answers (.hpcUnlatch t v) s (fun u =>
      ∀ n : Head, (bitOf v n.val = true → (chan s n.val).state = .latched → (chan u n.val).state = .off ∧ (chan u n.val).cause = 0
          ∧ (chan u n.val).tripCount = 0) ∧ ((bitOf v n.val = false ∨ (chan s n.val).state ≠ .latched) → chan u n.val = chan s n.val)))
  ∧ (∀ t s, awake s = true → Answers (.d2dCommandFrame t true) s (fun u => u.hpc.goodFrames = satN 12 (s.hpc.goodFrames + 1)
      ∧ (s.hpc.lost = true → 99 ≤ s.hpc.goodFrames → u.hpc.lost = false ∧ bitOf u.pwr.up 20 = true)
      ∧ (s.hpc.lost = false ∨ s.hpc.goodFrames < 99 → u.hpc.lost = s.hpc.lost ∧ u.pwr.up = s.pwr.up)))
  ∧ (∀ t s, awake s = true → Answers (.d2dCommandFrame t false) s (fun u => u.hpc = s.hpc))
  ∧ (∀ t cause c s, awake s = true → (c = .d2dLinkLost t ∧ cause = 1 ∨ c = .vdrvLow t ∧ cause = 2) →
    (s.pwr.season = .thaw ∨ s.pwr.season = .summer) → Answers c s (fun u =>
      u.pwr.season = .thaw ∧ getN u Obj.hpcEnable 0 = 0 ∧ u.hpc.waiting = [] ∧ u.hpc.order = []
        ∧ (∀ n : Head, (chan u n.val).state = if (chan s n.val).state = .latched then .latched
            else if (chan s n.val).state = .held then .held else .off)
        ∧ (cause = 1 → u.hpc.lost = true ∧ bitOf u.pwr.up 20 = false) ∧ (cause = 2 → u.pwr.vdrvLow = true)
        ∧ (s.pwr.season = .thaw → rdy s 25 = true → Raises 0x01005 [wd cause] s u)))

/-- What each command of the ring, the mailbox and the host port leaves alone. -/
def Obligations.RingAndHostCommandsLeaveTheRestAlone : Prop :=
  (∀ (t : Nat), LeavesAlone (.cycleStart t) [.ev, .ring, .sent] [Obj.eventLost])
  ∧ (∀ (t : Nat) (c : CopyIn), LeavesAlone (.copyReturn t c) [.ev, .ring, .xing] [Obj.eventLost, Obj.ringDelay])
  ∧ (∀ (t : Nat) (copyB : Bool), LeavesAlone (.copyReturnTimeout t copyB) [.ev, .ring] [Obj.eventLost])
  ∧ (∀ (t : Nat) (seg : List Word), LeavesAlone (.mailboxReply t seg) [.ev, .ring, .host, .sent] [Obj.eventLost, Obj.mbxCrcErrors])
  ∧ (∀ (t : Nat) (seg : List Word), LeavesAlone (.mailboxNak t seg) [.ring, .host, .sent] [])
  ∧ (∀ (t : Nat) (tag : Nat), LeavesAlone (.ringAccessTimeout t tag) [.ring, .host, .sent] [])
  ∧ (∀ (t : Nat), ∀ c ∈ ([.ringRestore t, .slotReclaim t] : List Instr), LeavesAlone c [.ring] [])
  ∧ (∀ (t : Nat) (slot : Slot), LeavesAlone (.slotMissing t slot) [.ev, .ring] [Obj.eventLost])
  ∧ (∀ (t : Nat), LeavesAlone (.ringLost t) [.clock, .ev, .ring, .up] [Obj.eventLost, Obj.syncState])
  ∧ (∀ (t : Nat) (f : HostFrame), LeavesAlone (.hostFrame t f) [] [Obj.hostDiscards])
  ∧ (∀ (t : Nat) (target sender : BitVec 32) (mac : BitVec 48), LeavesAlone (.arpRequest t target sender mac) [.sent] [])
  ∧ (∀ (t : Nat) (target sender : BitVec 32) (payload : List Byte), LeavesAlone (.icmpEcho t target sender payload) [.sent] [])
  ∧ (∀ (t : Nat) (src : BitVec 32) (port seq : Nat), LeavesAlone (.replyCacheExpire t src port seq) [.host] [])
  ∧ (∀ (t : Nat), LeavesAlone (.hostLinkDown t) [.ev, .host] [Obj.eventLost])

/-- What each command of time, and each of those that move the device through bring-up, leaves alone. -/
def Obligations.TimeCommandsLeaveTheRestAlone : Prop :=
  (∀ (t : Nat), ∀ c ∈ ([.syncTimeout t, .announceTimeout t] : List Instr), LeavesAlone c [.clock, .ptp, .ev, .up] [Obj.eventLost,
      Obj.ptpState, Obj.syncState])
  ∧ (∀ (t : Nat), LeavesAlone (.holdoverReadyExpire t) [.up] [])
  ∧ (∀ (t : Nat) (h : PtpHdr) (origin : Int) (rx : Nat), LeavesAlone (.ptpSync t h origin rx) [.clock, .ptp, .trigs, .ev, .up]
      [Obj.eventLost, Obj.offset, Obj.ptpState, Obj.rateAddend, Obj.syncState, Obj.timeFlags, Obj.trig])
  ∧ (∀ (t : Nat) (h : PtpHdr) (origin : Int), LeavesAlone (.ptpFollowUp t h origin) [.clock, .ptp, .trigs, .ev, .up] [Obj.eventLost,
      Obj.offset, Obj.ptpState, Obj.rateAddend, Obj.syncState, Obj.timeFlags, Obj.trig])
  ∧ (∀ (t : Nat) (tx : Nat), ∀ c ∈ ([.ptpDelayReqTimer t tx, .pdelayReqTimer t tx] : List Instr), LeavesAlone c [.ptp, .sent] [])
  ∧ (∀ (t : Nat) (h : PtpHdr) (rx : Int), LeavesAlone (.ptpDelayResp t h rx) [.ptp] [Obj.ptpMeanDelay])
  ∧ (∀ (t : Nat) (h : PtpHdr) (ann : Announce), LeavesAlone (.ptpAnnounce t h ann) [.clock, .ptp, .ev, .up] [Obj.eventLost, Obj.ptpGmId,
      Obj.ptpState, Obj.syncState])
  ∧ (∀ (t : Nat) (h : PtpHdr) (rx tx : Nat), LeavesAlone (.ptpPdelayReq t h rx tx) [.sent] [])
  ∧ (∀ (t : Nat) (h : PtpHdr) (t2 : Int) (rx : Nat), LeavesAlone (.ptpPdelayResp t h t2 rx) [.ptp] [Obj.ptpMeanDelay])
  ∧ (∀ (t : Nat) (h : PtpHdr) (t3 : Int), LeavesAlone (.ptpPdelayRespFollowUp t h t3) [.ptp] [Obj.ptpMeanDelay])
  ∧ (∀ (t : Nat) (unit : Fin 16), LeavesAlone (.triggerFire t unit) [.trigs, .dict, .ev, .nt, .hare, .insp, .cal, .sent, .free]
      [Obj.eventLost, Obj.evidLines, Obj.expActive, Obj.frameStats, Obj.noise, Obj.patternFlags, Obj.patternResult, Obj.regDiscards,
      Obj.regShift, Obj.trig, Obj.trigFired])
  ∧ (∀ (t : Nat) (unit : Fin 8) (source : EdgeSource) (rising : Bool) (stamp : Nat), LeavesAlone (.captureEdge t unit source rising
      stamp) [.clock] [Obj.capt, Obj.captCount, Obj.captPos, Obj.captTime])
  ∧ (∀ (t : Nat), LeavesAlone (.pllLock t) [.clock, .pwr, .ev, .ring, .lanes, .fire, .links, .insp, .sent, .up] [Obj.eventLost,
      Obj.laneTest, Obj.syncState])
  ∧ (∀ (t : Nat), LeavesAlone (.domainsPowered t) [.pwr] [])
  ∧ (∀ (t : Nat), LeavesAlone (.enterSummer t) [.pwr, .ev] [Obj.eventLost])
  ∧ (∀ (t : Nat), LeavesAlone (.controlCycle t) [.ev, .xing] [Obj.eventLost, Obj.eventMasked])
  ∧ (∀ (t : Nat) (handle : Fin 4), LeavesAlone (.transferTimeout t handle) [.dict] [])

/-- What each command of the lanes and of the Raster Front End leaves alone. -/
def Obligations.LaneAndRasterCommandsLeaveTheRestAlone : Prop :=
  (∀ (t : Nat) (lane : LaneIx) (underflow : Bool), LeavesAlone (.bufferSlip t lane underflow) [.ev, .lanes] [Obj.eventLost, Obj.laneSlips])
  ∧ (∀ (t : Nat) (ras : Ras) (fill : Nat), LeavesAlone (.skipReceived t ras fill) [.lanes] [])
  ∧ (∀ (t : Nat) (ras : Ras), LeavesAlone (.blockLock t ras) [.lanes] [])
  ∧ (∀ (t : Nat) (lane : LaneIx), LeavesAlone (.prbsLock t lane) [.lanes] [])
  ∧ (∀ (t : Nat) (lane : LaneIx) (bits : Nat) (errors : PrbsErrors), LeavesAlone (.prbsWindowEnd t lane bits errors) [.ev, .lanes]
      [Obj.eventLost, Obj.prbsBits, Obj.prbsErrors])
  ∧ (∀ (t : Nat) (lane : LaneIx), LeavesAlone (.laneLock t lane) [.ev, .ring, .host, .lanes, .bond, .rfe, .sent, .free, .up, .values]
      [Obj.eventLost, Obj.maxLineRate])
  ∧ (∀ (t : Nat) (ras : Ras), ∀ c ∈ ([.blockLockLost t ras, .dskTimeout t ras] : List Instr), LeavesAlone c [.dict, .ev, .lanes, .bond,
      .rfe, .pages, .codec, .nt, .fire, .links, .pos, .cmps, .insp, .sent, .values] [Obj.cmpMissed, Obj.creditErrors, Obj.eventLost,
      Obj.hdrErrors, Obj.lgAccepted, Obj.maxLineRate, Obj.pageNow, Obj.pageOrigin, Obj.tblRejected])
  ∧ (∀ (t : Nat) (ras : Ras) (n p g : Nat), LeavesAlone (.dskReceived t ras n p g) [.dict, .ev, .lanes, .bond, .rfe, .pages, .codec, .nt,
      .fire, .links, .pos, .cmps, .insp, .xing, .sent, .values] [Obj.cmpMissed, Obj.creditErrors, Obj.eventLost, Obj.hdrErrors,
      Obj.lgAccepted, Obj.maxLineRate, Obj.pageNow, Obj.pageOrigin, Obj.tblRejected])
  ∧ (∀ (t : Nat) (copies : List HdrCopy), LeavesAlone (.lgHeader t copies) [.dict, .ev, .lanes, .bond, .rfe, .pages, .codec, .nt, .fire,
      .links, .pos, .cmps, .insp, .xing, .sent, .values] [Obj.cmpMissed, Obj.creditErrors, Obj.eventLost, Obj.hdrErrors, Obj.lgAccepted,
      Obj.maxLineRate, Obj.pageNow, Obj.pageOrigin, Obj.tblRejected])
  ∧ (∀ (t : Nat) (page lg : Nat) (blocks : List (List Word)), LeavesAlone (.lineGroupComplete t page lg blocks) [.rfe, .pages, .fire,
      .xing, .sent] [])
  ∧ (∀ (t : Nat), LeavesAlone (.creditFrameTimer t) [.rfe, .sent] [])
  ∧ (∀ (t : Nat) (ras : Ras), LeavesAlone (.laneOffer t ras) [.bond, .rfe, .sent, .values] [Obj.maxLineRate])
  ∧ (∀ (t : Nat) (words : List Word) (eofOk : Bool), LeavesAlone (.tableFrame t words eofOk) [.pwr, .dict, .ev, .mem, .rfe, .fabric, .nt,
      .links, .sent, .free, .up, .values] [Obj.corrected, Obj.eventLost, Obj.flipCtrl, Obj.headMasked, Obj.ldsDemand, Obj.poisonReads,
      Obj.tblAccepted, Obj.tblRejected, Obj.tileFault, Obj.tileReady, Obj.uncorrectable, Obj.wbDropped])
  ∧ (∀ (t : Nat) (l : LaneLoss) c s, Steady s → c = .laneLockLost t l ∨ c = .laneNoSignal t l.lane → Answers c s (Frame t [.clock, .pwr,
      .dict, .ev, .mem, .ring, .lanes, .bond, .rfe, .pages, .codec, .fabric, .nt, .fire, .links, .pos, .cmps, .insp, .xing, .sent, .free,
      .up, .values] [] s))

/-- What each command of the codec, the fabric, the Line Scheduler and the head lanes leaves alone. -/
def Obligations.ScreeningFiringAndHeadCommandsLeaveTheRestAlone : Prop :=
  (∀ (t : Nat), LeavesAlone (.decodeLineGroup t) [.ev, .rfe, .codec, .sent] [Obj.blocksDamaged, Obj.blocksDecoded, Obj.damageCause,
      Obj.eventLost, Obj.oosEpochs])
  ∧ (∀ (t : Nat), LeavesAlone (.screenStart t) [.pwr, .dict, .ev, .mem, .rfe, .pages, .fabric, .nt, .insp, .cal, .xing, .sent, .free,
      .up, .values] [Obj.compLost, Obj.compSaturated, Obj.corrected, Obj.edgeMismatches, Obj.edgeWaits, Obj.eventLost, Obj.evidSkipped,
      Obj.flipCtrl, Obj.headMasked, Obj.linesScreened, Obj.poisonReads, Obj.tileFault, Obj.tileReady, Obj.uncorrectable, Obj.wbDropped])
  ∧ (∀ (t : Nat) (lane : LaneIx) (comp : Bool) (words : List Word) (eofOk : Bool), LeavesAlone (.edgeFrameReceived t lane comp words
      eofOk) [.pwr, .ev, .mem, .rfe, .fabric, .insp, .xing, .sent, .free, .up] [Obj.compLost, Obj.compSaturated, Obj.corrected,
      Obj.edgeCrcErrors, Obj.edgeMismatches, Obj.edgeWaits, Obj.eventLost, Obj.evidSkipped, Obj.flipCtrl, Obj.linesScreened,
      Obj.poisonReads, Obj.tileFault, Obj.tileReady, Obj.uncorrectable, Obj.wbDropped])
  ∧ (∀ (t : Nat) (chain : Fin 4) (endEdge comp : Bool), LeavesAlone (.edgeFrameTimeout t chain endEdge comp) [.sent] [])
  ∧ (∀ (t : Nat) (lane : LaneIx) (words : List Word), LeavesAlone (.edgeRetry t lane words) [.fabric, .sent] [Obj.edgeCrcErrors])
  ∧ (∀ (t : Nat) (tile : Tile) (ok : Bool), LeavesAlone (.configLoad t tile ok) [.ev, .fabric, .up] [Obj.eventLost, Obj.tileFault,
      Obj.tileReady])
  ∧ (∀ (t : Nat) (page lg : Nat), LeavesAlone (.checkInstant t page lg) [.ev, .rfe, .codec, .fabric, .fire, .sent] [Obj.eventLost,
      Obj.haltLine, Obj.haltPage, Obj.lgLate])
  ∧ (∀ (t : Nat) (head : Option Head), LeavesAlone (.handoverInstant t head) [.pwr, .ev, .mem, .fabric, .fire, .xing, .sent, .free, .up]
      [Obj.corrected, Obj.eventLost, Obj.flipCtrl, Obj.haltLine, Obj.haltPage, Obj.poisonReads, Obj.tileFault, Obj.tileReady,
      Obj.uncorrectable, Obj.wbDropped])
  ∧ (∀ (t : Nat) (head : Head), LeavesAlone (.handoverDeadline t head) [.ev, .fire, .sent] [Obj.eventLost, Obj.haltLine, Obj.haltPage])
  ∧ (∀ (t : Nat) (head : Head), LeavesAlone (.lineCommit t head) [.ev, .fire, .links, .insp, .cal, .sent] [Obj.energyNow, Obj.eventLost,
      Obj.fireSlips, Obj.kLine, Obj.staleT, Obj.staleV])
  ∧ (∀ (t : Nat) (head : Head), LeavesAlone (.boundaryReached t head) [.ev, .fire, .insp, .sent] [Obj.eventLost])
  ∧ (∀ (t : Nat) (head : Head), LeavesAlone (.fireTimeReached t head) [.dict, .ev, .bond, .rfe, .pages, .fire, .links, .pos, .insp, .cal,
      .sent, .values] [Obj.eventLost, Obj.headTrim, Obj.maxLineRate, Obj.patternFlags])
  ∧ (∀ (t : Nat), LeavesAlone (.haltStopped t) [.fire, .sent] [Obj.resumeBoundary, Obj.resumePos, Obj.rewindPos])
  ∧ (∀ (t : Nat), LeavesAlone (.seedingDone t) [.nt] [])
  ∧ (∀ (t : Nat), LeavesAlone (.ntLoadDone t) [.mem, .nt, .up] [Obj.headMasked])
  ∧ (∀ (t : Nat) (head : Head) (tx : Nat), LeavesAlone (.tmarkSend t head tx) [.links, .sent] [])
  ∧ (∀ (t : Nat) (head : Head), ∀ c ∈ ([.bankLoad t head, .headIdleCommand t head] : List Instr), LeavesAlone c [.links, .sent] [])
  ∧ (∀ (t : Nat) (head : Head) (words : HeadReport), LeavesAlone (.regReply t head words) [.ev, .links, .up] [Obj.bridgeId,
      Obj.eventLost, Obj.linkCrcErrors, Obj.regData, Obj.regSel])
  ∧ (∀ (t : Nat) (head : Head), LeavesAlone (.regReplyTimeout t head) [] [Obj.regSel])
  ∧ (∀ (t : Nat) (h : Head) (ws : HeadReport) s, Steady s → Answers (.headStatus t h ws) s (Frame t [.ev, .fire, .links, .insp, .sent,
      .up] [Obj.eventLost, Obj.headTemp, Obj.linkCrcErrors, Obj.notFired] s))
  ∧ (∀ (t : Nat) (h : Head) c s, Steady s → c = .statusTimeout t h ∨ c = .echoMissing t h → Answers c s (Frame t [.ev, .fire, .links,
      .insp, .up] [Obj.eventLost] s))
  ∧ (∀ (t : Nat) (h : Head) (m : MarkChars) (rx turn : Nat) s, Steady s → Answers (.tmarkEcho t h m rx turn) s (Frame t [.ev, .fire,
      .links, .insp, .sent, .up] [Obj.eventLost, Obj.linkDelay] s))

/-- What each command of the Web Position Unit, the axes and the camera rings leaves alone. -/
def Obligations.WebMotionAndCameraCommandsLeaveTheRestAlone : Prop :=
  (∀ (t : Nat) (enc : Enc) (a b : Bool) (sample : Nat), LeavesAlone (.encoderEdge t enc a b sample) [.ev, .fire, .links, .encs, .pos,
      .insp, .xing, .sent] [Obj.encoutOverruns, Obj.eventLost])
  ∧ (∀ (t : Nat) (enc : Enc), LeavesAlone (.indexPulse t enc) [.ev, .fire, .links, .encs, .pos, .insp, .sent] [Obj.encoutOverruns,
      Obj.eventLost, Obj.indexErr])
  ∧ (∀ (t : Nat) (enc : Enc) (pair : Fin 3), LeavesAlone (.encoderWireFault t enc pair) [.ev, .fire, .links, .encs, .pos, .hare, .insp,
      .sent, .up] [Obj.eventLost])
  ∧ (∀ (t : Nat) (enc : Enc) (together : Bool), LeavesAlone (.encoderOverspeed t enc together) [.ev, .fire, .links, .encs, .pos, .hare,
      .insp, .sent, .up] [Obj.eventLost])
  ∧ (∀ (t : Nat) (enc : Enc), LeavesAlone (.encoderRecover t enc) [.encs, .up] [])
  ∧ (∀ (t : Nat), LeavesAlone (.positionLatch t) [.ev, .fire, .links, .encs, .pos, .hare, .insp, .sent, .up] [Obj.encoutOverruns,
      Obj.eventLost, Obj.indexCorr])
  ∧ (∀ (t : Nat) (unit : Fin 8), LeavesAlone (.cmpFire t unit) [.dict, .ev, .nt, .fire, .links, .pos, .cmps, .insp, .cal, .sent, .free]
      [Obj.cmp, Obj.cmpFired, Obj.cmpPos, Obj.encoutOverruns, Obj.eventLost, Obj.evidLines, Obj.expActive, Obj.frameStats, Obj.noise,
      Obj.patternFlags, Obj.patternResult, Obj.regDiscards, Obj.regShift])
  ∧ (∀ (t : Nat) (input : Cam) (words : List Word) (eofOk : Bool), LeavesAlone (.cameraLine t input words eofOk) [.dict, .ev, .nt, .insp, .sent,
      .cal, .xing, .free] [Obj.eventLost, Obj.evidLines, Obj.frameStats, Obj.linesDiscarded, Obj.noise, Obj.patternFlags,
      Obj.patternResult, Obj.regDiscards, Obj.regShift, Obj.stripeOverruns])
  ∧ (∀ (t : Nat) (input : Cam) (words : List Word) (eofOk : Bool), LeavesAlone (.cameraStatus t input words eofOk) [.insp, .sent, .xing] [])
  ∧ (∀ (t : Nat), LeavesAlone (.stripeProcess t) [.pwr, .ev, .mem, .fabric, .insp, .sent, .free, .up] [Obj.cmpFallbacks, Obj.cmpRetries,
      Obj.corrected, Obj.dispDropped, Obj.eventLost, Obj.evidLines, Obj.flipCtrl, Obj.noise, Obj.poisonReads, Obj.regDiscards,
      Obj.regShift, Obj.tileFault, Obj.tileReady, Obj.uncorrectable, Obj.wbDropped])
  ∧ (∀ (t : Nat) s, Steady s → Answers (.servoCycle t) s (Frame t [.ev, .fire, .links, .pos, .hare, .axes, .aux, .insp, .sent]
      [Obj.axDecelNow, Obj.axSetpoint, Obj.encoutOverruns, Obj.eventLost] s))
  ∧ (∀ (t : Nat) (bytes : List Byte) s, Steady s → Answers (.auxReply t bytes) s (Frame t [.ev, .axes, .aux, .up] [Obj.auxBadReplies,
      Obj.auxState, Obj.axActual, Obj.axTarget, Obj.eventLost] s))
  ∧ (∀ (t : Nat) s, Steady s → Answers (.auxReplyTimeout t) s (Frame t [.ev, .axes, .aux, .up] [Obj.auxBadReplies, Obj.auxState,
      Obj.axTarget, Obj.eventLost] s))

/-- What each command of calibration, memory integrity and head power leaves alone. -/
def Obligations.CalibrationMemoryAndHeadPowerCommandsLeaveTheRestAlone : Prop :=
  (∀ (t : Nat) (dieTemp : Int), LeavesAlone (.calAutoTrigger t dieTemp) [.ev, .cal] [Obj.dieTemp, Obj.eventLost])
  ∧ (∀ (t : Nat) (item target : Nat), LeavesAlone (.calStart t item target) [.cal, .up] [])
  ∧ (∀ (t : Nat) (item target : Nat), ∀ c ∈ ([.calRequestExpire t item target, .calRetry t item target] : List Instr), LeavesAlone c
      [.ev, .cal] [Obj.eventLost])
  ∧ (∀ (t : Nat) (m : Mem), LeavesAlone (.repairDone t m) [.ev, .mem, .repairs] [Obj.eventLost])
  ∧ (∀ (t : Nat), LeavesAlone (.summaryPeriodEnd t) [.ev, .mem] [Obj.eventLost])
  ∧ (∀ (t : Nat) (crcOk : Bool), LeavesAlone (.d2dCommandFrame t crcOk) [.hpc, .xing, .up] [])
  ∧ (∀ (t : Nat) (ch : Head), ∀ c ∈ ([.staggerSlot t ch, .rampSettled t ch, .tripHoldoffEnd t ch] : List Instr), LeavesAlone c [.hpc,
      .up] [])
  ∧ (∀ (t : Nat) (ch : Head) (vSense vSupply : Int), LeavesAlone (.channelCheckDone t ch vSense vSupply) [.ev, .hpc, .free, .up]
      [Obj.eventLost, Obj.hpcEnable])
  ∧ (∀ (t : Nat) (ch : Head), ∀ c ∈ ([.rampTimeout t ch, .overcurrentTrip t ch] : List Instr), LeavesAlone c [.ev, .hpc, .up]
      [Obj.eventLost, Obj.trips])
  ∧ (∀ (t : Nat) (ch : Head), LeavesAlone (.tripCountClear t ch) [.hpc] [])
  ∧ (∀ (t : Nat) (ch : Head) (wireN : Bool) (mv : Int), LeavesAlone (.senseOpen t ch wireN mv) [.ev, .hpc, .up] [Obj.eventLost])
  ∧ (∀ (t : Nat) (byTrigger : Bool), LeavesAlone (.adcSequence t byTrigger) [.hpc] [Obj.adcMissed])
  ∧ (∀ (t : Nat) (ch : Head) (current : Bool) (value : Int), LeavesAlone (.adcSample t ch current value) [.ev, .hpc, .xing]
      [Obj.eventLost, Obj.hpcI, Obj.hpcV])
  ∧ (∀ (t : Nat) (rail : Rail), LeavesAlone (.railBackInRange t rail) [.clock, .pwr, .ev, .up] [Obj.eventLost, Obj.syncState])
  ∧ (∀ (t item target : Nat) (first second : List Int) s, item = 1 ∨ item = 2 → Answers (.calRunDone t item target first second) s (Frame
      t [.ev, .cal, .free, .up] [Obj.adcCal, Obj.delayCal, Obj.eventLost] s))
  ∧ (∀ (t : Nat) (m : Mem) c s, s.pwr.codeError = false → m.val ≠ 4 → m.val ≠ 6 → c = .writeBack t m ∨ c = .mergeEvict t m → Answers c s
      (fun u => Frame t [.ev, .mem] [Obj.corrected, Obj.eventLost, Obj.flipCtrl, Obj.uncorrectable] s u ∧ ∀ x : Mem, x ≠ m → memU u x.val
      = memU s x.val))
  ∧ (∀ (t : Nat) (m : Mem) (x : BitVec 43) s, s.pwr.codeError = false → m.val ≠ 4 → m.val ≠ 6 → Answers (.scrubRead t m x) s (fun u =>
      Frame t [.ev, .mem, .free] [Obj.corrected, Obj.eventLost, Obj.flipCtrl, Obj.poisoned, Obj.uncorrectable, Obj.wbDropped] s u ∧ (∀ y
      : Mem, y ≠ m → memU u y.val = memU s y.val) ∧ ∀ a, a ≠ (memU s m.val).scrubAddr → cellAt u m.val a = cellAt s m.val a))

/-- What the commands that stand for a write of an object of groups 00 to 0B leave alone when the write is accepted. Which words of control processor RAM hold an object is the model's choice (log entry 9). -/
def Obligations.AcceptedWritesOfPrintingLeaveTheRestAlone : Prop :=
  (∀ (t : Nat) (seq : Word) s, Works s → Accepted Obj.eventAck 0 [seq] (advance t s) → Answers (.eventAck t seq) s (fun u => Frame t
      [.ev, .mem, .sent] [Obj.eventLost, Obj.flipCtrl] s u ∧ RamOnly Obj.eventAck 0 1 s u))
  ∧ (∀ (t : Nat) s, Works s → Accepted Obj.save 0 [1] (advance t s) → Answers (.saveReq t) s (fun u => Frame t [.flash, .ev, .mem, .sent]
      [Obj.eventLost, Obj.flipCtrl, Obj.save] s u ∧ RamOnly Obj.save 0 1 s u))
  ∧ (∀ (t : Nat) (page : Word) s, Works s → Accepted Obj.commitPage 0 [page] (advance t s) → Answers (.commitPage t page) s (fun u =>
      Frame t [.dict, .ev, .mem, .links, .sent] [Obj.eventLost, Obj.flipCtrl] s u ∧ RamOnly Obj.commitPage 0 1 s u))
  ∧ (∀ (t : Nat) (page : Word) s, Works s → Accepted Obj.commitCancel 0 [page] (advance t s) → Answers (.commitCancel t page) s (fun u =>
      Frame t [.dict, .ev, .mem, .links, .sent] [Obj.eventLost, Obj.flipCtrl] s u ∧ RamOnly Obj.commitCancel 0 1 s u))
  ∧ (∀ (t : Nat) s, Works s → Accepted Obj.commitNow 0 [1] (advance t s) → Answers (.commitNow t) s (Frame t [.dict, .ev, .mem, .fabric,
      .links, .sent, .values] [Obj.eventLost, Obj.flipCtrl] s))
  ∧ (∀ (t : Nat) s, Works s → Accepted Obj.timeResync 0 [1] (advance t s) → Answers (.timeResync t) s (fun u => Frame t [.clock, .ev,
      .mem, .sent] [Obj.eventLost, Obj.flipCtrl, Obj.timeFlags] s u ∧ RamOnly Obj.timeResync 0 1 s u))
  ∧ (∀ (t : Nat) (w0 w1 : Word) s, Works s → Accepted Obj.timeNow 0 [w0, w1] (advance t s) → Answers (.timeNowWrite t w0 w1) s (fun u =>
      Frame t [.clock, .trigs, .ev, .mem, .xing, .sent] [Obj.eventLost, Obj.flipCtrl, Obj.trig] s u ∧ RamOnly Obj.timeNow 0 2 s u))
  ∧ (∀ (t : Nat) (unit : Fin 16) s, Works s → Accepted Obj.trig unit.val [setBit (getW s Obj.trig unit.val) 35 true] (advance t s) →
      Answers (.trigEnable t unit) s (fun u => Frame t [.trigs, .ev, .mem, .xing, .sent] [Obj.eventLost, Obj.flipCtrl, Obj.trig] s u ∧
      RamOnly Obj.trig unit.val 1 s u))
  ∧ (∀ (t : Nat) (v : Word) s, Works s → Accepted Obj.bondCfg 0 [v] (advance t s) → Answers (.bondCfgWrite t v) s (fun u => Frame t [.ev,
      .mem, .bond, .rfe, .pages, .codec, .fire, .links, .pos, .insp, .sent, .up, .values] [Obj.bondCfg, Obj.eventLost, Obj.flipCtrl,
      Obj.maxLineRate] s u ∧ RamOnly Obj.bondCfg 0 1 s u))
  ∧ (∀ (t : Nat) s, Works s → Accepted Obj.fireEnable 0 [1] (advance t s) → Answers (.fireEnableArm t) s (fun u => Frame t [.ev, .mem,
      .fire, .sent] [Obj.eventLost, Obj.fireEnable, Obj.flipCtrl] s u ∧ RamOnly Obj.fireEnable 0 1 s u))
  ∧ (∀ (t : Nat) s, Works s → Accepted Obj.fireEnable 0 [0] (advance t s) → Answers (.fireEnableDisarm t) s (fun u => Frame t [.ev, .mem,
      .fire, .sent] [Obj.eventLost, Obj.fireEnable, Obj.flipCtrl] s u ∧ RamOnly Obj.fireEnable 0 1 s u))
  ∧ (∀ (t : Nat) s, Works s → Accepted Obj.bookClear 0 [1] (advance t s) → Answers (.bookClear t) s (fun u => Frame t [.ev, .mem, .fire,
      .sent] [Obj.eventLost, Obj.flipCtrl] s u ∧ RamOnly Obj.bookClear 0 1 s u))
  ∧ (∀ (t : Nat) s, Works s → Accepted Obj.pageAbort 0 [1] (advance t s) → Answers (.pageAbort t) s (Frame t [.pwr, .dict, .ev, .mem,
      .rfe, .pages, .fabric, .nt, .fire, .links, .pos, .insp, .sent, .free, .up, .values] [Obj.corrected, Obj.eventLost, Obj.flipCtrl,
      Obj.headMasked, Obj.poisonReads, Obj.tileFault, Obj.tileReady, Obj.uncorrectable, Obj.wbDropped] s))
  ∧ (∀ (t : Nat) (head : Head) (addr : Nat) s, Works s → Accepted Obj.regSel head.val [wd (2 ^ 35 + addr % 2 ^ 16)] (advance t s) →
      Answers (.regRead t head addr) s (fun u => Frame t [.ev, .mem, .links, .sent] [Obj.eventLost, Obj.flipCtrl, Obj.regSel] s u ∧
      RamOnly Obj.regSel head.val 1 s u))
  ∧ (∀ (t : Nat) (head : Head) (addr : Nat) s, Works s → Accepted Obj.regSel head.val [wd (2 ^ 35 + 2 ^ 34 + addr % 2 ^ 16)] (advance t
      s) → Answers (.regWrite t head addr) s (fun u => Frame t [.ev, .mem, .links, .sent] [Obj.eventLost, Obj.flipCtrl, Obj.regSel] s u ∧
      RamOnly Obj.regSel head.val 1 s u))
  ∧ (∀ (t : Nat) (gen : Nat) s, Works s → Accepted Obj.ntApprove 0 [wd (gen % 2 ^ 12)] (advance t s) → Answers (.ntApprove t gen) s (fun
      u => Frame t [.ev, .mem, .nt, .sent] [Obj.eventLost, Obj.flipCtrl] s u ∧ RamOnly Obj.ntApprove 0 1 s u))
  ∧ (∀ (t : Nat) (gen : Nat) s, Works s → Accepted Obj.ntApprove 0 [wd (2 ^ 35 + gen % 2 ^ 12)] (advance t s) → Answers (.ntReject t gen)
      s (fun u => Frame t [.ev, .mem, .nt, .sent] [Obj.eventLost, Obj.flipCtrl] s u ∧ RamOnly Obj.ntApprove 0 1 s u))

/-- What the commands that stand for a write of an object of groups 0C to 12 leave alone when the write is accepted. Which words of control processor RAM hold an object is the model's choice (log entry 9). -/
def Obligations.AcceptedWritesOfMotionAndPowerLeaveTheRestAlone : Prop :=
  (∀ (t : Nat) (v : Word) s, Works s → Accepted Obj.posSource 0 [v] (advance t s) → Answers (.posSourceWrite t v) s (fun u => Frame t
      [.ev, .mem, .sent] [Obj.eventLost, Obj.flipCtrl, Obj.posSource] s u ∧ RamOnly Obj.posSource 0 1 s u))
  ∧ (∀ (t : Nat) (w0 w1 : Word) s, Works s → Accepted Obj.posPreset 0 [w0, w1] (advance t s) → Answers (.posPreset t w0 w1) s (fun u =>
      Frame t [.ev, .mem, .pos, .sent] [Obj.eventLost, Obj.flipCtrl] s u ∧ RamOnly Obj.posPreset 0 2 s u))
  ∧ (∀ (t : Nat) (unit : Fin 8) (v : Word) s, Works s → Accepted Obj.cmp unit.val [v] (advance t s) → Answers (.cmpArm t unit v) s (fun u
      => Frame t [.ev, .mem, .cmps, .sent] [Obj.cmp, Obj.eventLost, Obj.flipCtrl] s u ∧ RamOnly Obj.cmp unit.val 1 s u))
  ∧ (∀ (t : Nat) (run startTrig : Bool) s, Works s → Accepted Obj.hareCtrl 0 [wd (b2n run * 2 ^ 35 + b2n startTrig * 2 ^ 34)] (advance t
      s) → Answers (.hareRun t run startTrig) s (fun u => Frame t [.ev, .mem, .hare, .sent] [Obj.eventLost, Obj.flipCtrl, Obj.hareCtrl] s
      u ∧ RamOnly Obj.hareCtrl 0 1 s u))
  ∧ (∀ (t : Nat) (axis : Axis) (v : Word) s, Works s → Accepted Obj.axTarget axis.val [v] (advance t s) → Answers (.axTargetWrite t axis
      v) s (fun u => Frame t [.ev, .mem, .axes, .sent] [Obj.axTarget, Obj.eventLost, Obj.flipCtrl] s u ∧ RamOnly Obj.axTarget axis.val 1
      s u))
  ∧ (∀ (t : Nat) (axis : Axis) (v : Word) s, Works s → Accepted Obj.axDecel axis.val [v] (advance t s) → Answers (.axDecelWrite t axis v)
      s (fun u => Frame t [.ev, .mem, .axes, .sent] [Obj.axDecel, Obj.eventLost, Obj.flipCtrl] s u ∧ RamOnly Obj.axDecel axis.val 1 s u))
  ∧ (∀ (t : Nat) (axis : Axis) s, Works s → Accepted Obj.axCtrl axis.val [setBit (getW s Obj.axCtrl axis.val) 32 true] (advance t s) →
      Answers (.axStop t axis) s (fun u => Frame t [.ev, .mem, .axes, .sent] [Obj.axCtrl, Obj.axTarget, Obj.eventLost, Obj.flipCtrl] s u
      ∧ RamOnly Obj.axCtrl axis.val 1 s u))
  ∧ (∀ (t : Nat) s, Works s → Accepted Obj.auxState 0 [wd (2 ^ 35)] (advance t s) → Answers (.auxFaultClear t) s (fun u => Frame t [.ev,
      .mem, .sent, .up] [Obj.auxState, Obj.eventLost, Obj.flipCtrl] s u ∧ RamOnly Obj.auxState 0 1 s u))
  ∧ (∀ (t : Nat) (mask : Word) s, Works s → Accepted Obj.syncReq 0 [mask] (advance t s) → Answers (.syncReq t mask) s (fun u => Frame t
      [.ev, .mem, .insp, .sent] [Obj.eventLost, Obj.flipCtrl] s u ∧ RamOnly Obj.syncReq 0 1 s u))
  ∧ (∀ (t : Nat) (mask : Word) s, Works s → Accepted Obj.expCommit 0 [mask] (advance t s) → Answers (.expCommit t mask) s (fun u => Frame
      t [.ev, .mem, .insp, .sent] [Obj.eventLost, Obj.flipCtrl] s u ∧ RamOnly Obj.expCommit 0 1 s u))
  ∧ (∀ (t : Nat) (seq : Word) s, Works s → Accepted Obj.dispAck 0 [seq] (advance t s) → Answers (.dispAck t seq) s (fun u => Frame t
      [.ev, .mem, .insp, .sent] [Obj.eventLost, Obj.flipCtrl] s u ∧ RamOnly Obj.dispAck 0 1 s u))
  ∧ (∀ (t : Nat) (v : Word) s, Works s → Accepted Obj.calReq 0 [v] (advance t s) → Answers (.calReq t v) s (fun u => Frame t [.ev, .mem,
      .cal, .sent] [Obj.eventLost, Obj.flipCtrl] s u ∧ RamOnly Obj.calReq 0 1 s u))
  ∧ (∀ (t : Nat) (mask : Word) s, Works s → Accepted Obj.clear 0 [mask] (advance t s) → Answers (.memoryClear t mask) s (Frame t [.ev,
      .mem, .rfe, .fabric, .nt, .fire, .insp, .sent, .up] [Obj.eventLost, Obj.eventMasked, Obj.flipCtrl] s))
  ∧ (∀ (t : Nat) (ch : Head) s, Works s → Accepted Obj.hpcEnable 0 [setBit (getW s Obj.hpcEnable 0) ch.val true] (advance t s) → Answers
      (.hpcRequestOn t ch) s (fun u => Frame t [.ev, .mem, .hpc, .sent, .up] [Obj.eventLost, Obj.flipCtrl, Obj.hpcEnable] s u ∧ RamOnly
      Obj.hpcEnable 0 1 s u))
  ∧ (∀ (t : Nat) (ch : Head) s, Works s → Accepted Obj.hpcEnable 0 [setBit (getW s Obj.hpcEnable 0) ch.val false] (advance t s) → Answers
      (.hpcRequestOff t ch) s (fun u => Frame t [.ev, .mem, .hpc, .sent, .up] [Obj.eventLost, Obj.flipCtrl, Obj.hpcEnable] s u ∧ RamOnly
      Obj.hpcEnable 0 1 s u))
  ∧ (∀ (t : Nat) (mask : Word) s, Works s → Accepted Obj.hpcUnlatch 0 [mask] (advance t s) → Answers (.hpcUnlatch t mask) s (fun u =>
      Frame t [.ev, .mem, .hpc, .sent, .up] [Obj.eventLost, Obj.flipCtrl] s u ∧ RamOnly Obj.hpcUnlatch 0 1 s u))

/-- The commands of rails, resets and wakes answer a next state (R51, R56, R59, R71). -/
def Obligations.RailsResetsAndWakesAreCarriedOut : Prop :=
  (∀ t (rail : Rail) mv s, ∃ u, exec (.railOutOfRange t rail mv) s = .next u ∧ nbit u.pwr.railsOut.toNat rail.val = true)
  ∧ (∀ t (rail : Rail) s, ∃ u, exec (.railBackInRange t rail) s = .next u ∧ nbit u.pwr.railsOut.toNat rail.val = false)
  ∧ (∀ t s, ∃ u, exec (.powerOnReset t) s = .next u ∧ u.pwr.inReset = true ∧ u.pwr.powerOn = true)
  ∧ (∀ t strap s, s.pwr.powerOn = true → s.pwr.resetLow = false →
    ∃ u, exec (.powerOnRelease t strap) s = .next u ∧ u.pwr.inReset = false ∧ u.pwr.season = .thaw ∧ u.pwr.strap = strap)
  ∧ (∀ t strap s, s.pwr.powerOn = true → s.pwr.resetLow = true →
    ∃ u, exec (.powerOnRelease t strap) s = .next u ∧ u.pwr.inReset = s.pwr.inReset ∧ u.pwr.powerOn = false)
  ∧ (∀ t s, ∃ u, exec (.resetNLow t) s = .next u ∧ u.pwr.inReset = true ∧ u.pwr.resetLow = true)
  ∧ (∀ t strap s, s.pwr.inReset = true → s.pwr.powerOn = false →
    ∃ u, exec (.resetNHigh t strap) s = .next u ∧ u.pwr.inReset = false ∧ u.pwr.season = .thaw ∧ u.pwr.resetLow = false
      ∧ u.pwr.strap = strap)
  ∧ (∀ t s, s.pwr.inReset = false → s.pwr.season = .winter → bitOf (getW s Obj.wakeSrcEn 0) 0 = true →
    ∃ u, exec (.wakePin t) s = .next u ∧ u.pwr.season = .thaw)
  ∧ (∀ t (port : RingPort) s, s.pwr.inReset = false → s.pwr.season = .winter →
    bitOf (getW s Obj.wakeSrcEn 0) (if port = .rngA then 1 else 2) = true →
    ∃ u, exec (.wakePattern t port) s = .next u ∧ u.pwr.season = .thaw)

/-- The commands of bring-up answer a next state (R58 to R63, R77). -/
def Obligations.BringUpIsCarriedOut : Prop :=
  (∀ t s, awake s = true → ∃ u, exec (.domainsPowered t) s = .next u ∧ u.pwr.domains = true
    ∧ u.pwr.bypassOpen = decide (role s ≠ 0))
  ∧ (∀ t s, awake s = true → bitOf (getW s Obj.funcReset 0) 4 = false →
    ∃ u, exec (.pllLock t) s = .next u ∧ bitOf u.pwr.up 4 = true)
  ∧ (∀ t (bit : ReadyBit) s, awake s = true → bit.val = 11 ∨ bit.val = 20 → bitOf (getW s Obj.funcReset 0) bit.val = false →
    ∃ u, exec (.functionReady t bit) s = .next u ∧ bitOf u.pwr.up bit.val = true)
  ∧ (∀ t s, awake s = true → s.pwr.domains = true → bitOf s.pwr.up 24 = false →
    ∃ u, exec (.flashDiscovered t false) s = .next u ∧ bitOf (getW u Obj.bootStatus 0) 27 = true)
  ∧ (∀ t s, awake s = true → s.nt.loading = true →
    ∃ u, exec (.ntLoadDone t) s = .next u ∧ u.nt.loading = false ∧ bitOf u.pwr.up 10 = true)
  ∧ (∀ t (port : RingPort) s, awake s = true → rdy s 4 = true → role s ≠ 0 → s.pwr.wakeRunAt = none →
    ∃ u, exec (.wakeRelay t port) s = .next u ∧ Sent.wakeRun (if port = .rngA then .rngB else .rngA) ∈ u.sent
      ∧ u.pwr.wakeRunAt = some (max s.clock.tick t))
  ∧ (∀ t s, awake s = true → s.pwr.season = .thaw → getN s Obj.seasonReq 0 = 2 → summerSet s = true →
    ∃ u, exec (.enterSummer t) s = .next u ∧ u.pwr.season = .summer)

/-- The crossing units (R32 to R40). That the acknowledge of an update has come at any later tick is the model's choice (log entry 63). -/
def Obligations.CrossingUnitsPublishHoldAndRestart : Prop :=
  (∀ c : BitVec 12, ungray (gray c) = c ∧ ones 12 (gray c ^^^ gray (c + 1)).toNat = 1)
  ∧ (∀ tick n x, x.side = 0 → x.sentAt = none →
      (xingEvents tick n x).total = x.total + n ∧ (xingEvents tick n x).count = x.count + BitVec.ofInt 12 n
        ∧ (xingEvents tick n x).published = gray (x.count + BitVec.ofInt 12 n) ∧ (xingEvents tick n x).sentAt = some tick
        ∧ (xingEvents tick n x).value = x.value)
  ∧ (∀ tick a n x, x.side = 0 → x.sentAt = some a → tick ≤ a →
      (xingEvents tick n x).total = x.total + n ∧ (xingEvents tick n x).count = x.count + BitVec.ofInt 12 n
        ∧ (xingEvents tick n x).published = x.published ∧ (xingEvents tick n x).value = x.value)
  ∧ (∀ tick a x, x.sentAt = some a → a < tick → x.published = gray x.count →
      (xingAt tick x).value = x.value + xingWaiting x ∧ (xingAt tick x).taken = x.count ∧ (xingAt tick x).sentAt = none
        ∧ (xingAt tick x).flagged = x.flagNext ∧ (xingAt tick x).flagNext = false)
  ∧ (∀ tick n x, x.sentAt = none →
      (x.side = 2 → (xingEvents tick n x).total = x.total + n ∧ (xingEvents tick n x).published = x.published
        ∧ (xingEvents tick n x).value = x.value ∧ (xingEvents tick n x).sentAt = none)
      ∧ (x.side = 1 → xingEvents tick n x = x))
  ∧ (∀ i side s, i < 16 → rdy s 25 = true → (xingU s i).side = 0 → xingSide (getW s Obj.funcReset 0) i = side → side = 1 ∨ side = 2 →
      (xingU (xingFollow i s) i).peer = true ∧ (xingU (xingFollow i s) i).lastSide = side
        ∧ (xingU (xingFollow i s) i).episodes = satN 12 ((xingU s i).episodes + 1) ∧ Raises 0x15001 [p9 i, wd side] s (xingFollow i s))
  ∧ (∀ i s, i < 16 → (xingU s i).side = 0 → xingSide (getW s Obj.funcReset 0) i = 3 →
      (xingU (xingFollow i s) i).peer = false ∧ (xingU (xingFollow i s) i).lastSide = 3 ∧ (xingFollow i s).ev = s.ev)
  ∧ (∀ i s, i < 16 → (xingU s i).side ≠ 0 → xingSide (getW s Obj.funcReset 0) i = 0 →
      (xingU (xingFollow i s) i).peer = false ∧ (xingU (xingFollow i s) i).discont = true ∧ (xingU (xingFollow i s) i).count = 0
        ∧ (xingU (xingFollow i s) i).taken = 0 ∧ (xingU (xingFollow i s) i).flagNext = true
        ∧ (xingU (xingFollow i s) i).total = (xingU s i).total ∧ (xingFollow i s).ev = s.ev)
end

