-- ==== Sys2Proof/Laws/State.lean ====
section
/-! SUPPORT. What each named update of the state leaves alone and what it writes: one lemma per field. -/

set_option Elab.async false
set_option linter.all false

namespace Sys2Proof.Machine

open Sys2Proof

@[simp] theorem setE_clock (id i : Nat) (e : Elem) (s : State) : (setE id i e s).clock = s.clock := rfl
@[simp] theorem setE_ptp (id i : Nat) (e : Elem) (s : State) : (setE id i e s).ptp = s.ptp := rfl
@[simp] theorem setE_trigs (id i : Nat) (e : Elem) (s : State) : (setE id i e s).trigs = s.trigs := rfl
@[simp] theorem setE_pwr (id i : Nat) (e : Elem) (s : State) : (setE id i e s).pwr = s.pwr := rfl
@[simp] theorem setE_flash (id i : Nat) (e : Elem) (s : State) : (setE id i e s).flash = s.flash := rfl
@[simp] theorem setE_ev (id i : Nat) (e : Elem) (s : State) : (setE id i e s).ev = s.ev := rfl
@[simp] theorem setE_mem (id i : Nat) (e : Elem) (s : State) : (setE id i e s).mem = s.mem := rfl
@[simp] theorem setE_repairs (id i : Nat) (e : Elem) (s : State) : (setE id i e s).repairs = s.repairs := rfl
@[simp] theorem setE_ring (id i : Nat) (e : Elem) (s : State) : (setE id i e s).ring = s.ring := rfl
@[simp] theorem setE_host (id i : Nat) (e : Elem) (s : State) : (setE id i e s).host = s.host := rfl
@[simp] theorem setE_lanes (id i : Nat) (e : Elem) (s : State) : (setE id i e s).lanes = s.lanes := rfl
@[simp] theorem setE_bond (id i : Nat) (e : Elem) (s : State) : (setE id i e s).bond = s.bond := rfl
@[simp] theorem setE_rfe (id i : Nat) (e : Elem) (s : State) : (setE id i e s).rfe = s.rfe := rfl
@[simp] theorem setE_pages (id i : Nat) (e : Elem) (s : State) : (setE id i e s).pages = s.pages := rfl
@[simp] theorem setE_codec (id i : Nat) (e : Elem) (s : State) : (setE id i e s).codec = s.codec := rfl
@[simp] theorem setE_fabric (id i : Nat) (e : Elem) (s : State) : (setE id i e s).fabric = s.fabric := rfl
@[simp] theorem setE_nt (id i : Nat) (e : Elem) (s : State) : (setE id i e s).nt = s.nt := rfl
@[simp] theorem setE_fire (id i : Nat) (e : Elem) (s : State) : (setE id i e s).fire = s.fire := rfl
@[simp] theorem setE_links (id i : Nat) (e : Elem) (s : State) : (setE id i e s).links = s.links := rfl
@[simp] theorem setE_encs (id i : Nat) (e : Elem) (s : State) : (setE id i e s).encs = s.encs := rfl
@[simp] theorem setE_pos (id i : Nat) (e : Elem) (s : State) : (setE id i e s).pos = s.pos := rfl
@[simp] theorem setE_hare (id i : Nat) (e : Elem) (s : State) : (setE id i e s).hare = s.hare := rfl
@[simp] theorem setE_axes (id i : Nat) (e : Elem) (s : State) : (setE id i e s).axes = s.axes := rfl
@[simp] theorem setE_aux (id i : Nat) (e : Elem) (s : State) : (setE id i e s).aux = s.aux := rfl
@[simp] theorem setE_cmps (id i : Nat) (e : Elem) (s : State) : (setE id i e s).cmps = s.cmps := rfl
@[simp] theorem setE_insp (id i : Nat) (e : Elem) (s : State) : (setE id i e s).insp = s.insp := rfl
@[simp] theorem setE_cal (id i : Nat) (e : Elem) (s : State) : (setE id i e s).cal = s.cal := rfl
@[simp] theorem setE_hpc (id i : Nat) (e : Elem) (s : State) : (setE id i e s).hpc = s.hpc := rfl
@[simp] theorem setE_xing (id i : Nat) (e : Elem) (s : State) : (setE id i e s).xing = s.xing := rfl
@[simp] theorem setE_sent (id i : Nat) (e : Elem) (s : State) : (setE id i e s).sent = s.sent := rfl
@[simp] theorem setE_free (id i : Nat) (e : Elem) (s : State) : (setE id i e s).free = s.free := rfl
@[simp] theorem setE_pending (id i : Nat) (e : Elem) (s : State) : (setE id i e s).pending = s.pending := rfl
@[simp] theorem setE_dict_shadow (id i : Nat) (e : Elem) (s : State) : (setE id i e s).dict.shadow = s.dict.shadow := rfl
@[simp] theorem setE_dict_dirty (id i : Nat) (e : Elem) (s : State) : (setE id i e s).dict.dirty = s.dict.dirty := rfl
@[simp] theorem setE_dict_badShadow (id i : Nat) (e : Elem) (s : State) : (setE id i e s).dict.badShadow = s.dict.badShadow := rfl
@[simp] theorem setE_dict_badObj (id i : Nat) (e : Elem) (s : State) : (setE id i e s).dict.badObj = s.dict.badObj := rfl
@[simp] theorem setE_dict_commits (id i : Nat) (e : Elem) (s : State) : (setE id i e s).dict.commits = s.dict.commits := rfl
@[simp] theorem setE_dict_transfers (id i : Nat) (e : Elem) (s : State) : (setE id i e s).dict.transfers = s.dict.transfers := rfl
@[simp] theorem setE_dict_inband (id i : Nat) (e : Elem) (s : State) : (setE id i e s).dict.inband = s.dict.inband := rfl
@[simp] theorem setE_dict_begunInput (id i : Nat) (e : Elem) (s : State) : (setE id i e s).dict.begunInput = s.dict.begunInput := rfl
@[simp] theorem setE_dict_begunScreen (id i : Nat) (e : Elem) (s : State) : (setE id i e s).dict.begunScreen = s.dict.begunScreen := rfl
@[simp] theorem setE_dict_begunFire (id i : Nat) (e : Elem) (s : State) : (setE id i e s).dict.begunFire = s.dict.begunFire := rfl
@[simp] theorem setE_dict_begunLast (id i : Nat) (e : Elem) (s : State) : (setE id i e s).dict.begunLast = s.dict.begunLast := rfl
@[simp] theorem setN_clock (id i n : Nat) (s : State) : (setN id i n s).clock = s.clock := rfl
@[simp] theorem setN_ptp (id i n : Nat) (s : State) : (setN id i n s).ptp = s.ptp := rfl
@[simp] theorem setN_trigs (id i n : Nat) (s : State) : (setN id i n s).trigs = s.trigs := rfl
@[simp] theorem setN_pwr (id i n : Nat) (s : State) : (setN id i n s).pwr = s.pwr := rfl
@[simp] theorem setN_flash (id i n : Nat) (s : State) : (setN id i n s).flash = s.flash := rfl
@[simp] theorem setN_ev (id i n : Nat) (s : State) : (setN id i n s).ev = s.ev := rfl
@[simp] theorem setN_mem (id i n : Nat) (s : State) : (setN id i n s).mem = s.mem := rfl
@[simp] theorem setN_repairs (id i n : Nat) (s : State) : (setN id i n s).repairs = s.repairs := rfl
@[simp] theorem setN_ring (id i n : Nat) (s : State) : (setN id i n s).ring = s.ring := rfl
@[simp] theorem setN_host (id i n : Nat) (s : State) : (setN id i n s).host = s.host := rfl
@[simp] theorem setN_lanes (id i n : Nat) (s : State) : (setN id i n s).lanes = s.lanes := rfl
@[simp] theorem setN_bond (id i n : Nat) (s : State) : (setN id i n s).bond = s.bond := rfl
@[simp] theorem setN_rfe (id i n : Nat) (s : State) : (setN id i n s).rfe = s.rfe := rfl
@[simp] theorem setN_pages (id i n : Nat) (s : State) : (setN id i n s).pages = s.pages := rfl
@[simp] theorem setN_codec (id i n : Nat) (s : State) : (setN id i n s).codec = s.codec := rfl
@[simp] theorem setN_fabric (id i n : Nat) (s : State) : (setN id i n s).fabric = s.fabric := rfl
@[simp] theorem setN_nt (id i n : Nat) (s : State) : (setN id i n s).nt = s.nt := rfl
@[simp] theorem setN_fire (id i n : Nat) (s : State) : (setN id i n s).fire = s.fire := rfl
@[simp] theorem setN_links (id i n : Nat) (s : State) : (setN id i n s).links = s.links := rfl
@[simp] theorem setN_encs (id i n : Nat) (s : State) : (setN id i n s).encs = s.encs := rfl
@[simp] theorem setN_pos (id i n : Nat) (s : State) : (setN id i n s).pos = s.pos := rfl
@[simp] theorem setN_hare (id i n : Nat) (s : State) : (setN id i n s).hare = s.hare := rfl
@[simp] theorem setN_axes (id i n : Nat) (s : State) : (setN id i n s).axes = s.axes := rfl
@[simp] theorem setN_aux (id i n : Nat) (s : State) : (setN id i n s).aux = s.aux := rfl
@[simp] theorem setN_cmps (id i n : Nat) (s : State) : (setN id i n s).cmps = s.cmps := rfl
@[simp] theorem setN_insp (id i n : Nat) (s : State) : (setN id i n s).insp = s.insp := rfl
@[simp] theorem setN_cal (id i n : Nat) (s : State) : (setN id i n s).cal = s.cal := rfl
@[simp] theorem setN_hpc (id i n : Nat) (s : State) : (setN id i n s).hpc = s.hpc := rfl
@[simp] theorem setN_xing (id i n : Nat) (s : State) : (setN id i n s).xing = s.xing := rfl
@[simp] theorem setN_sent (id i n : Nat) (s : State) : (setN id i n s).sent = s.sent := rfl
@[simp] theorem setN_free (id i n : Nat) (s : State) : (setN id i n s).free = s.free := rfl
@[simp] theorem setN_pending (id i n : Nat) (s : State) : (setN id i n s).pending = s.pending := rfl
@[simp] theorem setN_dict_shadow (id i n : Nat) (s : State) : (setN id i n s).dict.shadow = s.dict.shadow := rfl
@[simp] theorem setN_dict_dirty (id i n : Nat) (s : State) : (setN id i n s).dict.dirty = s.dict.dirty := rfl
@[simp] theorem setN_dict_badShadow (id i n : Nat) (s : State) : (setN id i n s).dict.badShadow = s.dict.badShadow := rfl
@[simp] theorem setN_dict_badObj (id i n : Nat) (s : State) : (setN id i n s).dict.badObj = s.dict.badObj := rfl
@[simp] theorem setN_dict_commits (id i n : Nat) (s : State) : (setN id i n s).dict.commits = s.dict.commits := rfl
@[simp] theorem setN_dict_transfers (id i n : Nat) (s : State) : (setN id i n s).dict.transfers = s.dict.transfers := rfl
@[simp] theorem setN_dict_inband (id i n : Nat) (s : State) : (setN id i n s).dict.inband = s.dict.inband := rfl
@[simp] theorem setN_dict_begunInput (id i n : Nat) (s : State) : (setN id i n s).dict.begunInput = s.dict.begunInput := rfl
@[simp] theorem setN_dict_begunScreen (id i n : Nat) (s : State) : (setN id i n s).dict.begunScreen = s.dict.begunScreen := rfl
@[simp] theorem setN_dict_begunFire (id i n : Nat) (s : State) : (setN id i n s).dict.begunFire = s.dict.begunFire := rfl
@[simp] theorem setN_dict_begunLast (id i n : Nat) (s : State) : (setN id i n s).dict.begunLast = s.dict.begunLast := rfl
@[simp] theorem setI_clock (id i : Nat) (n : Int) (s : State) : (setI id i n s).clock = s.clock := rfl
@[simp] theorem setI_ptp (id i : Nat) (n : Int) (s : State) : (setI id i n s).ptp = s.ptp := rfl
@[simp] theorem setI_trigs (id i : Nat) (n : Int) (s : State) : (setI id i n s).trigs = s.trigs := rfl
@[simp] theorem setI_pwr (id i : Nat) (n : Int) (s : State) : (setI id i n s).pwr = s.pwr := rfl
@[simp] theorem setI_flash (id i : Nat) (n : Int) (s : State) : (setI id i n s).flash = s.flash := rfl
@[simp] theorem setI_ev (id i : Nat) (n : Int) (s : State) : (setI id i n s).ev = s.ev := rfl
@[simp] theorem setI_mem (id i : Nat) (n : Int) (s : State) : (setI id i n s).mem = s.mem := rfl
@[simp] theorem setI_repairs (id i : Nat) (n : Int) (s : State) : (setI id i n s).repairs = s.repairs := rfl
@[simp] theorem setI_ring (id i : Nat) (n : Int) (s : State) : (setI id i n s).ring = s.ring := rfl
@[simp] theorem setI_host (id i : Nat) (n : Int) (s : State) : (setI id i n s).host = s.host := rfl
@[simp] theorem setI_lanes (id i : Nat) (n : Int) (s : State) : (setI id i n s).lanes = s.lanes := rfl
@[simp] theorem setI_bond (id i : Nat) (n : Int) (s : State) : (setI id i n s).bond = s.bond := rfl
@[simp] theorem setI_rfe (id i : Nat) (n : Int) (s : State) : (setI id i n s).rfe = s.rfe := rfl
@[simp] theorem setI_pages (id i : Nat) (n : Int) (s : State) : (setI id i n s).pages = s.pages := rfl
@[simp] theorem setI_codec (id i : Nat) (n : Int) (s : State) : (setI id i n s).codec = s.codec := rfl
@[simp] theorem setI_fabric (id i : Nat) (n : Int) (s : State) : (setI id i n s).fabric = s.fabric := rfl
@[simp] theorem setI_nt (id i : Nat) (n : Int) (s : State) : (setI id i n s).nt = s.nt := rfl
@[simp] theorem setI_fire (id i : Nat) (n : Int) (s : State) : (setI id i n s).fire = s.fire := rfl
@[simp] theorem setI_links (id i : Nat) (n : Int) (s : State) : (setI id i n s).links = s.links := rfl
@[simp] theorem setI_encs (id i : Nat) (n : Int) (s : State) : (setI id i n s).encs = s.encs := rfl
@[simp] theorem setI_pos (id i : Nat) (n : Int) (s : State) : (setI id i n s).pos = s.pos := rfl
@[simp] theorem setI_hare (id i : Nat) (n : Int) (s : State) : (setI id i n s).hare = s.hare := rfl
@[simp] theorem setI_axes (id i : Nat) (n : Int) (s : State) : (setI id i n s).axes = s.axes := rfl
@[simp] theorem setI_aux (id i : Nat) (n : Int) (s : State) : (setI id i n s).aux = s.aux := rfl
@[simp] theorem setI_cmps (id i : Nat) (n : Int) (s : State) : (setI id i n s).cmps = s.cmps := rfl
@[simp] theorem setI_insp (id i : Nat) (n : Int) (s : State) : (setI id i n s).insp = s.insp := rfl
@[simp] theorem setI_cal (id i : Nat) (n : Int) (s : State) : (setI id i n s).cal = s.cal := rfl
@[simp] theorem setI_hpc (id i : Nat) (n : Int) (s : State) : (setI id i n s).hpc = s.hpc := rfl
@[simp] theorem setI_xing (id i : Nat) (n : Int) (s : State) : (setI id i n s).xing = s.xing := rfl
@[simp] theorem setI_sent (id i : Nat) (n : Int) (s : State) : (setI id i n s).sent = s.sent := rfl
@[simp] theorem setI_free (id i : Nat) (n : Int) (s : State) : (setI id i n s).free = s.free := rfl
@[simp] theorem setI_pending (id i : Nat) (n : Int) (s : State) : (setI id i n s).pending = s.pending := rfl
@[simp] theorem setI_dict_shadow (id i : Nat) (n : Int) (s : State) : (setI id i n s).dict.shadow = s.dict.shadow := rfl
@[simp] theorem setI_dict_dirty (id i : Nat) (n : Int) (s : State) : (setI id i n s).dict.dirty = s.dict.dirty := rfl
@[simp] theorem setI_dict_badShadow (id i : Nat) (n : Int) (s : State) : (setI id i n s).dict.badShadow = s.dict.badShadow := rfl
@[simp] theorem setI_dict_badObj (id i : Nat) (n : Int) (s : State) : (setI id i n s).dict.badObj = s.dict.badObj := rfl
@[simp] theorem setI_dict_commits (id i : Nat) (n : Int) (s : State) : (setI id i n s).dict.commits = s.dict.commits := rfl
@[simp] theorem setI_dict_transfers (id i : Nat) (n : Int) (s : State) : (setI id i n s).dict.transfers = s.dict.transfers := rfl
@[simp] theorem setI_dict_inband (id i : Nat) (n : Int) (s : State) : (setI id i n s).dict.inband = s.dict.inband := rfl
@[simp] theorem setI_dict_begunInput (id i : Nat) (n : Int) (s : State) : (setI id i n s).dict.begunInput = s.dict.begunInput := rfl
@[simp] theorem setI_dict_begunScreen (id i : Nat) (n : Int) (s : State) : (setI id i n s).dict.begunScreen = s.dict.begunScreen := rfl
@[simp] theorem setI_dict_begunFire (id i : Nat) (n : Int) (s : State) : (setI id i n s).dict.begunFire = s.dict.begunFire := rfl
@[simp] theorem setI_dict_begunLast (id i : Nat) (n : Int) (s : State) : (setI id i n s).dict.begunLast = s.dict.begunLast := rfl
@[simp] theorem setShadow_clock (id i : Nat) (e : Elem) (s : State) : (setShadow id i e s).clock = s.clock := rfl
@[simp] theorem setShadow_ptp (id i : Nat) (e : Elem) (s : State) : (setShadow id i e s).ptp = s.ptp := rfl
@[simp] theorem setShadow_trigs (id i : Nat) (e : Elem) (s : State) : (setShadow id i e s).trigs = s.trigs := rfl
@[simp] theorem setShadow_pwr (id i : Nat) (e : Elem) (s : State) : (setShadow id i e s).pwr = s.pwr := rfl
@[simp] theorem setShadow_flash (id i : Nat) (e : Elem) (s : State) : (setShadow id i e s).flash = s.flash := rfl
@[simp] theorem setShadow_ev (id i : Nat) (e : Elem) (s : State) : (setShadow id i e s).ev = s.ev := rfl
@[simp] theorem setShadow_mem (id i : Nat) (e : Elem) (s : State) : (setShadow id i e s).mem = s.mem := rfl
@[simp] theorem setShadow_repairs (id i : Nat) (e : Elem) (s : State) : (setShadow id i e s).repairs = s.repairs := rfl
@[simp] theorem setShadow_ring (id i : Nat) (e : Elem) (s : State) : (setShadow id i e s).ring = s.ring := rfl
@[simp] theorem setShadow_host (id i : Nat) (e : Elem) (s : State) : (setShadow id i e s).host = s.host := rfl
@[simp] theorem setShadow_lanes (id i : Nat) (e : Elem) (s : State) : (setShadow id i e s).lanes = s.lanes := rfl
@[simp] theorem setShadow_bond (id i : Nat) (e : Elem) (s : State) : (setShadow id i e s).bond = s.bond := rfl
@[simp] theorem setShadow_rfe (id i : Nat) (e : Elem) (s : State) : (setShadow id i e s).rfe = s.rfe := rfl
@[simp] theorem setShadow_pages (id i : Nat) (e : Elem) (s : State) : (setShadow id i e s).pages = s.pages := rfl
@[simp] theorem setShadow_codec (id i : Nat) (e : Elem) (s : State) : (setShadow id i e s).codec = s.codec := rfl
@[simp] theorem setShadow_fabric (id i : Nat) (e : Elem) (s : State) : (setShadow id i e s).fabric = s.fabric := rfl
@[simp] theorem setShadow_nt (id i : Nat) (e : Elem) (s : State) : (setShadow id i e s).nt = s.nt := rfl
@[simp] theorem setShadow_fire (id i : Nat) (e : Elem) (s : State) : (setShadow id i e s).fire = s.fire := rfl
@[simp] theorem setShadow_links (id i : Nat) (e : Elem) (s : State) : (setShadow id i e s).links = s.links := rfl
@[simp] theorem setShadow_encs (id i : Nat) (e : Elem) (s : State) : (setShadow id i e s).encs = s.encs := rfl
@[simp] theorem setShadow_pos (id i : Nat) (e : Elem) (s : State) : (setShadow id i e s).pos = s.pos := rfl
@[simp] theorem setShadow_hare (id i : Nat) (e : Elem) (s : State) : (setShadow id i e s).hare = s.hare := rfl
@[simp] theorem setShadow_axes (id i : Nat) (e : Elem) (s : State) : (setShadow id i e s).axes = s.axes := rfl
@[simp] theorem setShadow_aux (id i : Nat) (e : Elem) (s : State) : (setShadow id i e s).aux = s.aux := rfl
@[simp] theorem setShadow_cmps (id i : Nat) (e : Elem) (s : State) : (setShadow id i e s).cmps = s.cmps := rfl
@[simp] theorem setShadow_insp (id i : Nat) (e : Elem) (s : State) : (setShadow id i e s).insp = s.insp := rfl
@[simp] theorem setShadow_cal (id i : Nat) (e : Elem) (s : State) : (setShadow id i e s).cal = s.cal := rfl
@[simp] theorem setShadow_hpc (id i : Nat) (e : Elem) (s : State) : (setShadow id i e s).hpc = s.hpc := rfl
@[simp] theorem setShadow_xing (id i : Nat) (e : Elem) (s : State) : (setShadow id i e s).xing = s.xing := rfl
@[simp] theorem setShadow_sent (id i : Nat) (e : Elem) (s : State) : (setShadow id i e s).sent = s.sent := rfl
@[simp] theorem setShadow_free (id i : Nat) (e : Elem) (s : State) : (setShadow id i e s).free = s.free := rfl
@[simp] theorem setShadow_pending (id i : Nat) (e : Elem) (s : State) : (setShadow id i e s).pending = s.pending := rfl
@[simp] theorem setShadow_dict_active (id i : Nat) (e : Elem) (s : State) : (setShadow id i e s).dict.active = s.dict.active := rfl
@[simp] theorem setShadow_dict_dirty (id i : Nat) (e : Elem) (s : State) : (setShadow id i e s).dict.dirty = s.dict.dirty := rfl
@[simp] theorem setShadow_dict_badShadow (id i : Nat) (e : Elem) (s : State) : (setShadow id i e s).dict.badShadow = s.dict.badShadow := rfl
@[simp] theorem setShadow_dict_badObj (id i : Nat) (e : Elem) (s : State) : (setShadow id i e s).dict.badObj = s.dict.badObj := rfl
@[simp] theorem setShadow_dict_commits (id i : Nat) (e : Elem) (s : State) : (setShadow id i e s).dict.commits = s.dict.commits := rfl
@[simp] theorem setShadow_dict_transfers (id i : Nat) (e : Elem) (s : State) : (setShadow id i e s).dict.transfers = s.dict.transfers := rfl
@[simp] theorem setShadow_dict_inband (id i : Nat) (e : Elem) (s : State) : (setShadow id i e s).dict.inband = s.dict.inband := rfl
@[simp] theorem setShadow_dict_begunInput (id i : Nat) (e : Elem) (s : State) : (setShadow id i e s).dict.begunInput = s.dict.begunInput := rfl
@[simp] theorem setShadow_dict_begunScreen (id i : Nat) (e : Elem) (s : State) : (setShadow id i e s).dict.begunScreen = s.dict.begunScreen := rfl
@[simp] theorem setShadow_dict_begunFire (id i : Nat) (e : Elem) (s : State) : (setShadow id i e s).dict.begunFire = s.dict.begunFire := rfl
@[simp] theorem setShadow_dict_begunLast (id i : Nat) (e : Elem) (s : State) : (setShadow id i e s).dict.begunLast = s.dict.begunLast := rfl
@[simp] theorem bump_clock (id i n : Nat) (s : State) : (bump id i n s).clock = s.clock := rfl
@[simp] theorem bump_ptp (id i n : Nat) (s : State) : (bump id i n s).ptp = s.ptp := rfl
@[simp] theorem bump_trigs (id i n : Nat) (s : State) : (bump id i n s).trigs = s.trigs := rfl
@[simp] theorem bump_pwr (id i n : Nat) (s : State) : (bump id i n s).pwr = s.pwr := rfl
@[simp] theorem bump_flash (id i n : Nat) (s : State) : (bump id i n s).flash = s.flash := rfl
@[simp] theorem bump_ev (id i n : Nat) (s : State) : (bump id i n s).ev = s.ev := rfl
@[simp] theorem bump_mem (id i n : Nat) (s : State) : (bump id i n s).mem = s.mem := rfl
@[simp] theorem bump_repairs (id i n : Nat) (s : State) : (bump id i n s).repairs = s.repairs := rfl
@[simp] theorem bump_ring (id i n : Nat) (s : State) : (bump id i n s).ring = s.ring := rfl
@[simp] theorem bump_host (id i n : Nat) (s : State) : (bump id i n s).host = s.host := rfl
@[simp] theorem bump_lanes (id i n : Nat) (s : State) : (bump id i n s).lanes = s.lanes := rfl
@[simp] theorem bump_bond (id i n : Nat) (s : State) : (bump id i n s).bond = s.bond := rfl
@[simp] theorem bump_rfe (id i n : Nat) (s : State) : (bump id i n s).rfe = s.rfe := rfl
@[simp] theorem bump_pages (id i n : Nat) (s : State) : (bump id i n s).pages = s.pages := rfl
@[simp] theorem bump_codec (id i n : Nat) (s : State) : (bump id i n s).codec = s.codec := rfl
@[simp] theorem bump_fabric (id i n : Nat) (s : State) : (bump id i n s).fabric = s.fabric := rfl
@[simp] theorem bump_nt (id i n : Nat) (s : State) : (bump id i n s).nt = s.nt := rfl
@[simp] theorem bump_fire (id i n : Nat) (s : State) : (bump id i n s).fire = s.fire := rfl
@[simp] theorem bump_links (id i n : Nat) (s : State) : (bump id i n s).links = s.links := rfl
@[simp] theorem bump_encs (id i n : Nat) (s : State) : (bump id i n s).encs = s.encs := rfl
@[simp] theorem bump_pos (id i n : Nat) (s : State) : (bump id i n s).pos = s.pos := rfl
@[simp] theorem bump_hare (id i n : Nat) (s : State) : (bump id i n s).hare = s.hare := rfl
@[simp] theorem bump_axes (id i n : Nat) (s : State) : (bump id i n s).axes = s.axes := rfl
@[simp] theorem bump_aux (id i n : Nat) (s : State) : (bump id i n s).aux = s.aux := rfl
@[simp] theorem bump_cmps (id i n : Nat) (s : State) : (bump id i n s).cmps = s.cmps := rfl
@[simp] theorem bump_insp (id i n : Nat) (s : State) : (bump id i n s).insp = s.insp := rfl
@[simp] theorem bump_cal (id i n : Nat) (s : State) : (bump id i n s).cal = s.cal := rfl
@[simp] theorem bump_hpc (id i n : Nat) (s : State) : (bump id i n s).hpc = s.hpc := rfl
@[simp] theorem bump_xing (id i n : Nat) (s : State) : (bump id i n s).xing = s.xing := rfl
@[simp] theorem bump_sent (id i n : Nat) (s : State) : (bump id i n s).sent = s.sent := rfl
@[simp] theorem bump_free (id i n : Nat) (s : State) : (bump id i n s).free = s.free := rfl
@[simp] theorem bump_pending (id i n : Nat) (s : State) : (bump id i n s).pending = s.pending := rfl
@[simp] theorem bump_dict_shadow (id i n : Nat) (s : State) : (bump id i n s).dict.shadow = s.dict.shadow := rfl
@[simp] theorem bump_dict_dirty (id i n : Nat) (s : State) : (bump id i n s).dict.dirty = s.dict.dirty := rfl
@[simp] theorem bump_dict_badShadow (id i n : Nat) (s : State) : (bump id i n s).dict.badShadow = s.dict.badShadow := rfl
@[simp] theorem bump_dict_badObj (id i n : Nat) (s : State) : (bump id i n s).dict.badObj = s.dict.badObj := rfl
@[simp] theorem bump_dict_commits (id i n : Nat) (s : State) : (bump id i n s).dict.commits = s.dict.commits := rfl
@[simp] theorem bump_dict_transfers (id i n : Nat) (s : State) : (bump id i n s).dict.transfers = s.dict.transfers := rfl
@[simp] theorem bump_dict_inband (id i n : Nat) (s : State) : (bump id i n s).dict.inband = s.dict.inband := rfl
@[simp] theorem bump_dict_begunInput (id i n : Nat) (s : State) : (bump id i n s).dict.begunInput = s.dict.begunInput := rfl
@[simp] theorem bump_dict_begunScreen (id i n : Nat) (s : State) : (bump id i n s).dict.begunScreen = s.dict.begunScreen := rfl
@[simp] theorem bump_dict_begunFire (id i n : Nat) (s : State) : (bump id i n s).dict.begunFire = s.dict.begunFire := rfl
@[simp] theorem bump_dict_begunLast (id i n : Nat) (s : State) : (bump id i n s).dict.begunLast = s.dict.begunLast := rfl
@[simp] theorem emit_clock (x : Sent) (s : State) : (emit x s).clock = s.clock := rfl
@[simp] theorem emit_ptp (x : Sent) (s : State) : (emit x s).ptp = s.ptp := rfl
@[simp] theorem emit_trigs (x : Sent) (s : State) : (emit x s).trigs = s.trigs := rfl
@[simp] theorem emit_pwr (x : Sent) (s : State) : (emit x s).pwr = s.pwr := rfl
@[simp] theorem emit_flash (x : Sent) (s : State) : (emit x s).flash = s.flash := rfl
@[simp] theorem emit_dict (x : Sent) (s : State) : (emit x s).dict = s.dict := rfl
@[simp] theorem emit_ev (x : Sent) (s : State) : (emit x s).ev = s.ev := rfl
@[simp] theorem emit_mem (x : Sent) (s : State) : (emit x s).mem = s.mem := rfl
@[simp] theorem emit_repairs (x : Sent) (s : State) : (emit x s).repairs = s.repairs := rfl
@[simp] theorem emit_ring (x : Sent) (s : State) : (emit x s).ring = s.ring := rfl
@[simp] theorem emit_host (x : Sent) (s : State) : (emit x s).host = s.host := rfl
@[simp] theorem emit_lanes (x : Sent) (s : State) : (emit x s).lanes = s.lanes := rfl
@[simp] theorem emit_bond (x : Sent) (s : State) : (emit x s).bond = s.bond := rfl
@[simp] theorem emit_rfe (x : Sent) (s : State) : (emit x s).rfe = s.rfe := rfl
@[simp] theorem emit_pages (x : Sent) (s : State) : (emit x s).pages = s.pages := rfl
@[simp] theorem emit_codec (x : Sent) (s : State) : (emit x s).codec = s.codec := rfl
@[simp] theorem emit_fabric (x : Sent) (s : State) : (emit x s).fabric = s.fabric := rfl
@[simp] theorem emit_nt (x : Sent) (s : State) : (emit x s).nt = s.nt := rfl
@[simp] theorem emit_fire (x : Sent) (s : State) : (emit x s).fire = s.fire := rfl
@[simp] theorem emit_links (x : Sent) (s : State) : (emit x s).links = s.links := rfl
@[simp] theorem emit_encs (x : Sent) (s : State) : (emit x s).encs = s.encs := rfl
@[simp] theorem emit_pos (x : Sent) (s : State) : (emit x s).pos = s.pos := rfl
@[simp] theorem emit_hare (x : Sent) (s : State) : (emit x s).hare = s.hare := rfl
@[simp] theorem emit_axes (x : Sent) (s : State) : (emit x s).axes = s.axes := rfl
@[simp] theorem emit_aux (x : Sent) (s : State) : (emit x s).aux = s.aux := rfl
@[simp] theorem emit_cmps (x : Sent) (s : State) : (emit x s).cmps = s.cmps := rfl
@[simp] theorem emit_insp (x : Sent) (s : State) : (emit x s).insp = s.insp := rfl
@[simp] theorem emit_cal (x : Sent) (s : State) : (emit x s).cal = s.cal := rfl
@[simp] theorem emit_hpc (x : Sent) (s : State) : (emit x s).hpc = s.hpc := rfl
@[simp] theorem emit_xing (x : Sent) (s : State) : (emit x s).xing = s.xing := rfl
@[simp] theorem emit_free (x : Sent) (s : State) : (emit x s).free = s.free := rfl
@[simp] theorem emit_pending (x : Sent) (s : State) : (emit x s).pending = s.pending := rfl
@[simp] theorem takeFree_clock (s : State) : (takeFree s).clock = s.clock := rfl
@[simp] theorem takeFree_ptp (s : State) : (takeFree s).ptp = s.ptp := rfl
@[simp] theorem takeFree_trigs (s : State) : (takeFree s).trigs = s.trigs := rfl
@[simp] theorem takeFree_pwr (s : State) : (takeFree s).pwr = s.pwr := rfl
@[simp] theorem takeFree_flash (s : State) : (takeFree s).flash = s.flash := rfl
@[simp] theorem takeFree_dict (s : State) : (takeFree s).dict = s.dict := rfl
@[simp] theorem takeFree_ev (s : State) : (takeFree s).ev = s.ev := rfl
@[simp] theorem takeFree_mem (s : State) : (takeFree s).mem = s.mem := rfl
@[simp] theorem takeFree_repairs (s : State) : (takeFree s).repairs = s.repairs := rfl
@[simp] theorem takeFree_ring (s : State) : (takeFree s).ring = s.ring := rfl
@[simp] theorem takeFree_host (s : State) : (takeFree s).host = s.host := rfl
@[simp] theorem takeFree_lanes (s : State) : (takeFree s).lanes = s.lanes := rfl
@[simp] theorem takeFree_bond (s : State) : (takeFree s).bond = s.bond := rfl
@[simp] theorem takeFree_rfe (s : State) : (takeFree s).rfe = s.rfe := rfl
@[simp] theorem takeFree_pages (s : State) : (takeFree s).pages = s.pages := rfl
@[simp] theorem takeFree_codec (s : State) : (takeFree s).codec = s.codec := rfl
@[simp] theorem takeFree_fabric (s : State) : (takeFree s).fabric = s.fabric := rfl
@[simp] theorem takeFree_nt (s : State) : (takeFree s).nt = s.nt := rfl
@[simp] theorem takeFree_fire (s : State) : (takeFree s).fire = s.fire := rfl
@[simp] theorem takeFree_links (s : State) : (takeFree s).links = s.links := rfl
@[simp] theorem takeFree_encs (s : State) : (takeFree s).encs = s.encs := rfl
@[simp] theorem takeFree_pos (s : State) : (takeFree s).pos = s.pos := rfl
@[simp] theorem takeFree_hare (s : State) : (takeFree s).hare = s.hare := rfl
@[simp] theorem takeFree_axes (s : State) : (takeFree s).axes = s.axes := rfl
@[simp] theorem takeFree_aux (s : State) : (takeFree s).aux = s.aux := rfl
@[simp] theorem takeFree_cmps (s : State) : (takeFree s).cmps = s.cmps := rfl
@[simp] theorem takeFree_insp (s : State) : (takeFree s).insp = s.insp := rfl
@[simp] theorem takeFree_cal (s : State) : (takeFree s).cal = s.cal := rfl
@[simp] theorem takeFree_hpc (s : State) : (takeFree s).hpc = s.hpc := rfl
@[simp] theorem takeFree_xing (s : State) : (takeFree s).xing = s.xing := rfl
@[simp] theorem takeFree_sent (s : State) : (takeFree s).sent = s.sent := rfl
@[simp] theorem takeFree_pending (s : State) : (takeFree s).pending = s.pending := rfl
@[simp] theorem setUp_clock (b : Nat) (on : Bool) (s : State) : (setUp b on s).clock = s.clock := rfl
@[simp] theorem setUp_ptp (b : Nat) (on : Bool) (s : State) : (setUp b on s).ptp = s.ptp := rfl
@[simp] theorem setUp_trigs (b : Nat) (on : Bool) (s : State) : (setUp b on s).trigs = s.trigs := rfl
@[simp] theorem setUp_flash (b : Nat) (on : Bool) (s : State) : (setUp b on s).flash = s.flash := rfl
@[simp] theorem setUp_dict (b : Nat) (on : Bool) (s : State) : (setUp b on s).dict = s.dict := rfl
@[simp] theorem setUp_ev (b : Nat) (on : Bool) (s : State) : (setUp b on s).ev = s.ev := rfl
@[simp] theorem setUp_mem (b : Nat) (on : Bool) (s : State) : (setUp b on s).mem = s.mem := rfl
@[simp] theorem setUp_repairs (b : Nat) (on : Bool) (s : State) : (setUp b on s).repairs = s.repairs := rfl
@[simp] theorem setUp_ring (b : Nat) (on : Bool) (s : State) : (setUp b on s).ring = s.ring := rfl
@[simp] theorem setUp_host (b : Nat) (on : Bool) (s : State) : (setUp b on s).host = s.host := rfl
@[simp] theorem setUp_lanes (b : Nat) (on : Bool) (s : State) : (setUp b on s).lanes = s.lanes := rfl
@[simp] theorem setUp_bond (b : Nat) (on : Bool) (s : State) : (setUp b on s).bond = s.bond := rfl
@[simp] theorem setUp_rfe (b : Nat) (on : Bool) (s : State) : (setUp b on s).rfe = s.rfe := rfl
@[simp] theorem setUp_pages (b : Nat) (on : Bool) (s : State) : (setUp b on s).pages = s.pages := rfl
@[simp] theorem setUp_codec (b : Nat) (on : Bool) (s : State) : (setUp b on s).codec = s.codec := rfl
@[simp] theorem setUp_fabric (b : Nat) (on : Bool) (s : State) : (setUp b on s).fabric = s.fabric := rfl
@[simp] theorem setUp_nt (b : Nat) (on : Bool) (s : State) : (setUp b on s).nt = s.nt := rfl
@[simp] theorem setUp_fire (b : Nat) (on : Bool) (s : State) : (setUp b on s).fire = s.fire := rfl
@[simp] theorem setUp_links (b : Nat) (on : Bool) (s : State) : (setUp b on s).links = s.links := rfl
@[simp] theorem setUp_encs (b : Nat) (on : Bool) (s : State) : (setUp b on s).encs = s.encs := rfl
@[simp] theorem setUp_pos (b : Nat) (on : Bool) (s : State) : (setUp b on s).pos = s.pos := rfl
@[simp] theorem setUp_hare (b : Nat) (on : Bool) (s : State) : (setUp b on s).hare = s.hare := rfl
@[simp] theorem setUp_axes (b : Nat) (on : Bool) (s : State) : (setUp b on s).axes = s.axes := rfl
@[simp] theorem setUp_aux (b : Nat) (on : Bool) (s : State) : (setUp b on s).aux = s.aux := rfl
@[simp] theorem setUp_cmps (b : Nat) (on : Bool) (s : State) : (setUp b on s).cmps = s.cmps := rfl
@[simp] theorem setUp_insp (b : Nat) (on : Bool) (s : State) : (setUp b on s).insp = s.insp := rfl
@[simp] theorem setUp_cal (b : Nat) (on : Bool) (s : State) : (setUp b on s).cal = s.cal := rfl
@[simp] theorem setUp_hpc (b : Nat) (on : Bool) (s : State) : (setUp b on s).hpc = s.hpc := rfl
@[simp] theorem setUp_xing (b : Nat) (on : Bool) (s : State) : (setUp b on s).xing = s.xing := rfl
@[simp] theorem setUp_sent (b : Nat) (on : Bool) (s : State) : (setUp b on s).sent = s.sent := rfl
@[simp] theorem setUp_free (b : Nat) (on : Bool) (s : State) : (setUp b on s).free = s.free := rfl
@[simp] theorem setUp_pending (b : Nat) (on : Bool) (s : State) : (setUp b on s).pending = s.pending := rfl
@[simp] theorem setUp_pwr_season (b : Nat) (on : Bool) (s : State) : (setUp b on s).pwr.season = s.pwr.season := rfl
@[simp] theorem setUp_pwr_inReset (b : Nat) (on : Bool) (s : State) : (setUp b on s).pwr.inReset = s.pwr.inReset := rfl
@[simp] theorem setUp_pwr_powerOn (b : Nat) (on : Bool) (s : State) : (setUp b on s).pwr.powerOn = s.pwr.powerOn := rfl
@[simp] theorem setUp_pwr_resetLow (b : Nat) (on : Bool) (s : State) : (setUp b on s).pwr.resetLow = s.pwr.resetLow := rfl
@[simp] theorem setUp_pwr_domains (b : Nat) (on : Bool) (s : State) : (setUp b on s).pwr.domains = s.pwr.domains := rfl
@[simp] theorem setUp_pwr_bypassOpen (b : Nat) (on : Bool) (s : State) : (setUp b on s).pwr.bypassOpen = s.pwr.bypassOpen := rfl
@[simp] theorem setUp_pwr_ready (b : Nat) (on : Bool) (s : State) : (setUp b on s).pwr.ready = s.pwr.ready := rfl
@[simp] theorem setUp_pwr_railsOut (b : Nat) (on : Bool) (s : State) : (setUp b on s).pwr.railsOut = s.pwr.railsOut := rfl
@[simp] theorem setUp_pwr_vdrvLow (b : Nat) (on : Bool) (s : State) : (setUp b on s).pwr.vdrvLow = s.pwr.vdrvLow := rfl
@[simp] theorem setUp_pwr_codeError (b : Nat) (on : Bool) (s : State) : (setUp b on s).pwr.codeError = s.pwr.codeError := rfl
@[simp] theorem setUp_pwr_autumn (b : Nat) (on : Bool) (s : State) : (setUp b on s).pwr.autumn = s.pwr.autumn := rfl
@[simp] theorem setUp_pwr_wakeLatched (b : Nat) (on : Bool) (s : State) : (setUp b on s).pwr.wakeLatched = s.pwr.wakeLatched := rfl
@[simp] theorem setUp_pwr_wakeRunAt (b : Nat) (on : Bool) (s : State) : (setUp b on s).pwr.wakeRunAt = s.pwr.wakeRunAt := rfl
@[simp] theorem setUp_pwr_restored (b : Nat) (on : Bool) (s : State) : (setUp b on s).pwr.restored = s.pwr.restored := rfl
@[simp] theorem setUp_pwr_reqWritten (b : Nat) (on : Bool) (s : State) : (setUp b on s).pwr.reqWritten = s.pwr.reqWritten := rfl
@[simp] theorem setUp_pwr_reqSaved (b : Nat) (on : Bool) (s : State) : (setUp b on s).pwr.reqSaved = s.pwr.reqSaved := rfl
@[simp] theorem setUp_pwr_romOnly (b : Nat) (on : Bool) (s : State) : (setUp b on s).pwr.romOnly = s.pwr.romOnly := rfl
@[simp] theorem setUp_pwr_kept (b : Nat) (on : Bool) (s : State) : (setUp b on s).pwr.kept = s.pwr.kept := rfl
@[simp] theorem setUp_pwr_strap (b : Nat) (on : Bool) (s : State) : (setUp b on s).pwr.strap = s.pwr.strap := rfl
@[simp] theorem setUp_pwr_grade (b : Nat) (on : Bool) (s : State) : (setUp b on s).pwr.grade = s.pwr.grade := rfl
@[simp] theorem advance_ptp (t : Nat) (s : State) : (advance t s).ptp = s.ptp := rfl
@[simp] theorem advance_trigs (t : Nat) (s : State) : (advance t s).trigs = s.trigs := rfl
@[simp] theorem advance_pwr (t : Nat) (s : State) : (advance t s).pwr = s.pwr := rfl
@[simp] theorem advance_flash (t : Nat) (s : State) : (advance t s).flash = s.flash := rfl
@[simp] theorem advance_dict (t : Nat) (s : State) : (advance t s).dict = s.dict := rfl
@[simp] theorem advance_ev (t : Nat) (s : State) : (advance t s).ev = s.ev := rfl
@[simp] theorem advance_mem (t : Nat) (s : State) : (advance t s).mem = s.mem := rfl
@[simp] theorem advance_repairs (t : Nat) (s : State) : (advance t s).repairs = s.repairs := rfl
@[simp] theorem advance_ring (t : Nat) (s : State) : (advance t s).ring = s.ring := rfl
@[simp] theorem advance_host (t : Nat) (s : State) : (advance t s).host = s.host := rfl
@[simp] theorem advance_lanes (t : Nat) (s : State) : (advance t s).lanes = s.lanes := rfl
@[simp] theorem advance_bond (t : Nat) (s : State) : (advance t s).bond = s.bond := rfl
@[simp] theorem advance_rfe (t : Nat) (s : State) : (advance t s).rfe = s.rfe := rfl
@[simp] theorem advance_pages (t : Nat) (s : State) : (advance t s).pages = s.pages := rfl
@[simp] theorem advance_codec (t : Nat) (s : State) : (advance t s).codec = s.codec := rfl
@[simp] theorem advance_fabric (t : Nat) (s : State) : (advance t s).fabric = s.fabric := rfl
@[simp] theorem advance_nt (t : Nat) (s : State) : (advance t s).nt = s.nt := rfl
@[simp] theorem advance_fire (t : Nat) (s : State) : (advance t s).fire = s.fire := rfl
@[simp] theorem advance_links (t : Nat) (s : State) : (advance t s).links = s.links := rfl
@[simp] theorem advance_encs (t : Nat) (s : State) : (advance t s).encs = s.encs := rfl
@[simp] theorem advance_pos (t : Nat) (s : State) : (advance t s).pos = s.pos := rfl
@[simp] theorem advance_hare (t : Nat) (s : State) : (advance t s).hare = s.hare := rfl
@[simp] theorem advance_axes (t : Nat) (s : State) : (advance t s).axes = s.axes := rfl
@[simp] theorem advance_aux (t : Nat) (s : State) : (advance t s).aux = s.aux := rfl
@[simp] theorem advance_cmps (t : Nat) (s : State) : (advance t s).cmps = s.cmps := rfl
@[simp] theorem advance_insp (t : Nat) (s : State) : (advance t s).insp = s.insp := rfl
@[simp] theorem advance_cal (t : Nat) (s : State) : (advance t s).cal = s.cal := rfl
@[simp] theorem advance_hpc (t : Nat) (s : State) : (advance t s).hpc = s.hpc := rfl
@[simp] theorem advance_xing (t : Nat) (s : State) : (advance t s).xing = s.xing := rfl
@[simp] theorem advance_sent (t : Nat) (s : State) : (advance t s).sent = s.sent := rfl
@[simp] theorem advance_free (t : Nat) (s : State) : (advance t s).free = s.free := rfl
@[simp] theorem advance_pending (t : Nat) (s : State) : (advance t s).pending = s.pending := rfl
@[simp] theorem advance_clock_iAcc (t : Nat) (s : State) : (advance t s).clock.iAcc = s.clock.iAcc := rfl
@[simp] theorem advance_clock_meanSum (t : Nat) (s : State) : (advance t s).clock.meanSum = s.clock.meanSum := rfl
@[simp] theorem advance_clock_meanCount (t : Nat) (s : State) : (advance t s).clock.meanCount = s.clock.meanCount := rfl
@[simp] theorem advance_clock_goodMeans (t : Nat) (s : State) : (advance t s).clock.goodMeans = s.clock.goodMeans := rfl
@[simp] theorem advance_clock_resync (t : Nat) (s : State) : (advance t s).clock.resync = s.clock.resync := rfl
@[simp] theorem advance_clock_held (t : Nat) (s : State) : (advance t s).clock.held = s.clock.held := rfl
@[simp] theorem advance_clock_slewing (t : Nat) (s : State) : (advance t s).clock.slewing = s.clock.slewing := rfl
@[simp] theorem advance_clock_predicted (t : Nat) (s : State) : (advance t s).clock.predicted = s.clock.predicted := rfl
@[simp] theorem advance_clock_rerouted (t : Nat) (s : State) : (advance t s).clock.rerouted = s.clock.rerouted := rfl
@[simp] theorem advance_clock_thetaA (t : Nat) (s : State) : (advance t s).clock.thetaA = s.clock.thetaA := rfl
@[simp] theorem advance_clock_sampled (t : Nat) (s : State) : (advance t s).clock.sampled = s.clock.sampled := rfl
@[simp] theorem newEntry_clock (e : Event) (s : State) : (newEntry e s).clock = s.clock := rfl
@[simp] theorem newEntry_ptp (e : Event) (s : State) : (newEntry e s).ptp = s.ptp := rfl
@[simp] theorem newEntry_trigs (e : Event) (s : State) : (newEntry e s).trigs = s.trigs := rfl
@[simp] theorem newEntry_pwr (e : Event) (s : State) : (newEntry e s).pwr = s.pwr := rfl
@[simp] theorem newEntry_flash (e : Event) (s : State) : (newEntry e s).flash = s.flash := rfl
@[simp] theorem newEntry_dict (e : Event) (s : State) : (newEntry e s).dict = s.dict := rfl
@[simp] theorem newEntry_mem (e : Event) (s : State) : (newEntry e s).mem = s.mem := rfl
@[simp] theorem newEntry_repairs (e : Event) (s : State) : (newEntry e s).repairs = s.repairs := rfl
@[simp] theorem newEntry_ring (e : Event) (s : State) : (newEntry e s).ring = s.ring := rfl
@[simp] theorem newEntry_host (e : Event) (s : State) : (newEntry e s).host = s.host := rfl
@[simp] theorem newEntry_lanes (e : Event) (s : State) : (newEntry e s).lanes = s.lanes := rfl
@[simp] theorem newEntry_bond (e : Event) (s : State) : (newEntry e s).bond = s.bond := rfl
@[simp] theorem newEntry_rfe (e : Event) (s : State) : (newEntry e s).rfe = s.rfe := rfl
@[simp] theorem newEntry_pages (e : Event) (s : State) : (newEntry e s).pages = s.pages := rfl
@[simp] theorem newEntry_codec (e : Event) (s : State) : (newEntry e s).codec = s.codec := rfl
@[simp] theorem newEntry_fabric (e : Event) (s : State) : (newEntry e s).fabric = s.fabric := rfl
@[simp] theorem newEntry_nt (e : Event) (s : State) : (newEntry e s).nt = s.nt := rfl
@[simp] theorem newEntry_fire (e : Event) (s : State) : (newEntry e s).fire = s.fire := rfl
@[simp] theorem newEntry_links (e : Event) (s : State) : (newEntry e s).links = s.links := rfl
@[simp] theorem newEntry_encs (e : Event) (s : State) : (newEntry e s).encs = s.encs := rfl
@[simp] theorem newEntry_pos (e : Event) (s : State) : (newEntry e s).pos = s.pos := rfl
@[simp] theorem newEntry_hare (e : Event) (s : State) : (newEntry e s).hare = s.hare := rfl
@[simp] theorem newEntry_axes (e : Event) (s : State) : (newEntry e s).axes = s.axes := rfl
@[simp] theorem newEntry_aux (e : Event) (s : State) : (newEntry e s).aux = s.aux := rfl
@[simp] theorem newEntry_cmps (e : Event) (s : State) : (newEntry e s).cmps = s.cmps := rfl
@[simp] theorem newEntry_insp (e : Event) (s : State) : (newEntry e s).insp = s.insp := rfl
@[simp] theorem newEntry_cal (e : Event) (s : State) : (newEntry e s).cal = s.cal := rfl
@[simp] theorem newEntry_hpc (e : Event) (s : State) : (newEntry e s).hpc = s.hpc := rfl
@[simp] theorem newEntry_xing (e : Event) (s : State) : (newEntry e s).xing = s.xing := rfl
@[simp] theorem newEntry_sent (e : Event) (s : State) : (newEntry e s).sent = s.sent := rfl
@[simp] theorem newEntry_free (e : Event) (s : State) : (newEntry e s).free = s.free := rfl
@[simp] theorem newEntry_pending (e : Event) (s : State) : (newEntry e s).pending = s.pending := rfl

@[simp] theorem advance_clock_tick (t : Nat) (s : State) : (advance t s).clock.tick = s.clock.tick + (t - s.clock.tick) := rfl
@[simp] theorem emit_sent (x : Sent) (s : State) : (emit x s).sent = s.sent ++ [x] := rfl
@[simp] theorem takeFree_free (s : State) : (takeFree s).free = s.free + 1 := rfl
@[simp] theorem setUp_pwr_up (b : Nat) (on : Bool) (s : State) : (setUp b on s).pwr.up = setBit s.pwr.up b on := rfl

/-! An event raised writes the events and the counter of lost ones. -/

theorem raise_cases (c : Nat) (ps : List Word) (s : State) :
    (∃ ev, raise c ps s = { s with ev := ev }) ∨ raise c ps s = bump Obj.eventLost 0 1 s := by
  unfold raise
  dsimp only
  split
  · exact .inl ⟨_, rfl⟩
  · split
    · exact .inl ⟨_, rfl⟩
    · exact .inr rfl

@[simp] theorem raise_clock (c : Nat) (ps : List Word) (s : State) : (raise c ps s).clock = s.clock := by
  obtain ⟨_, h⟩ | h := raise_cases c ps s <;> rw [h] <;> rfl
@[simp] theorem raise_ptp (c : Nat) (ps : List Word) (s : State) : (raise c ps s).ptp = s.ptp := by
  obtain ⟨_, h⟩ | h := raise_cases c ps s <;> rw [h] <;> rfl
@[simp] theorem raise_trigs (c : Nat) (ps : List Word) (s : State) : (raise c ps s).trigs = s.trigs := by
  obtain ⟨_, h⟩ | h := raise_cases c ps s <;> rw [h] <;> rfl
@[simp] theorem raise_pwr (c : Nat) (ps : List Word) (s : State) : (raise c ps s).pwr = s.pwr := by
  obtain ⟨_, h⟩ | h := raise_cases c ps s <;> rw [h] <;> rfl
@[simp] theorem raise_flash (c : Nat) (ps : List Word) (s : State) : (raise c ps s).flash = s.flash := by
  obtain ⟨_, h⟩ | h := raise_cases c ps s <;> rw [h] <;> rfl
@[simp] theorem raise_mem (c : Nat) (ps : List Word) (s : State) : (raise c ps s).mem = s.mem := by
  obtain ⟨_, h⟩ | h := raise_cases c ps s <;> rw [h] <;> rfl
@[simp] theorem raise_repairs (c : Nat) (ps : List Word) (s : State) : (raise c ps s).repairs = s.repairs := by
  obtain ⟨_, h⟩ | h := raise_cases c ps s <;> rw [h] <;> rfl
@[simp] theorem raise_ring (c : Nat) (ps : List Word) (s : State) : (raise c ps s).ring = s.ring := by
  obtain ⟨_, h⟩ | h := raise_cases c ps s <;> rw [h] <;> rfl
@[simp] theorem raise_host (c : Nat) (ps : List Word) (s : State) : (raise c ps s).host = s.host := by
  obtain ⟨_, h⟩ | h := raise_cases c ps s <;> rw [h] <;> rfl
@[simp] theorem raise_lanes (c : Nat) (ps : List Word) (s : State) : (raise c ps s).lanes = s.lanes := by
  obtain ⟨_, h⟩ | h := raise_cases c ps s <;> rw [h] <;> rfl
@[simp] theorem raise_bond (c : Nat) (ps : List Word) (s : State) : (raise c ps s).bond = s.bond := by
  obtain ⟨_, h⟩ | h := raise_cases c ps s <;> rw [h] <;> rfl
@[simp] theorem raise_rfe (c : Nat) (ps : List Word) (s : State) : (raise c ps s).rfe = s.rfe := by
  obtain ⟨_, h⟩ | h := raise_cases c ps s <;> rw [h] <;> rfl
@[simp] theorem raise_pages (c : Nat) (ps : List Word) (s : State) : (raise c ps s).pages = s.pages := by
  obtain ⟨_, h⟩ | h := raise_cases c ps s <;> rw [h] <;> rfl
@[simp] theorem raise_codec (c : Nat) (ps : List Word) (s : State) : (raise c ps s).codec = s.codec := by
  obtain ⟨_, h⟩ | h := raise_cases c ps s <;> rw [h] <;> rfl
@[simp] theorem raise_fabric (c : Nat) (ps : List Word) (s : State) : (raise c ps s).fabric = s.fabric := by
  obtain ⟨_, h⟩ | h := raise_cases c ps s <;> rw [h] <;> rfl
@[simp] theorem raise_nt (c : Nat) (ps : List Word) (s : State) : (raise c ps s).nt = s.nt := by
  obtain ⟨_, h⟩ | h := raise_cases c ps s <;> rw [h] <;> rfl
@[simp] theorem raise_fire (c : Nat) (ps : List Word) (s : State) : (raise c ps s).fire = s.fire := by
  obtain ⟨_, h⟩ | h := raise_cases c ps s <;> rw [h] <;> rfl
@[simp] theorem raise_links (c : Nat) (ps : List Word) (s : State) : (raise c ps s).links = s.links := by
  obtain ⟨_, h⟩ | h := raise_cases c ps s <;> rw [h] <;> rfl
@[simp] theorem raise_encs (c : Nat) (ps : List Word) (s : State) : (raise c ps s).encs = s.encs := by
  obtain ⟨_, h⟩ | h := raise_cases c ps s <;> rw [h] <;> rfl
@[simp] theorem raise_pos (c : Nat) (ps : List Word) (s : State) : (raise c ps s).pos = s.pos := by
  obtain ⟨_, h⟩ | h := raise_cases c ps s <;> rw [h] <;> rfl
@[simp] theorem raise_hare (c : Nat) (ps : List Word) (s : State) : (raise c ps s).hare = s.hare := by
  obtain ⟨_, h⟩ | h := raise_cases c ps s <;> rw [h] <;> rfl
@[simp] theorem raise_axes (c : Nat) (ps : List Word) (s : State) : (raise c ps s).axes = s.axes := by
  obtain ⟨_, h⟩ | h := raise_cases c ps s <;> rw [h] <;> rfl
@[simp] theorem raise_aux (c : Nat) (ps : List Word) (s : State) : (raise c ps s).aux = s.aux := by
  obtain ⟨_, h⟩ | h := raise_cases c ps s <;> rw [h] <;> rfl
@[simp] theorem raise_cmps (c : Nat) (ps : List Word) (s : State) : (raise c ps s).cmps = s.cmps := by
  obtain ⟨_, h⟩ | h := raise_cases c ps s <;> rw [h] <;> rfl
@[simp] theorem raise_insp (c : Nat) (ps : List Word) (s : State) : (raise c ps s).insp = s.insp := by
  obtain ⟨_, h⟩ | h := raise_cases c ps s <;> rw [h] <;> rfl
@[simp] theorem raise_cal (c : Nat) (ps : List Word) (s : State) : (raise c ps s).cal = s.cal := by
  obtain ⟨_, h⟩ | h := raise_cases c ps s <;> rw [h] <;> rfl
@[simp] theorem raise_hpc (c : Nat) (ps : List Word) (s : State) : (raise c ps s).hpc = s.hpc := by
  obtain ⟨_, h⟩ | h := raise_cases c ps s <;> rw [h] <;> rfl
@[simp] theorem raise_xing (c : Nat) (ps : List Word) (s : State) : (raise c ps s).xing = s.xing := by
  obtain ⟨_, h⟩ | h := raise_cases c ps s <;> rw [h] <;> rfl
@[simp] theorem raise_sent (c : Nat) (ps : List Word) (s : State) : (raise c ps s).sent = s.sent := by
  obtain ⟨_, h⟩ | h := raise_cases c ps s <;> rw [h] <;> rfl
@[simp] theorem raise_free (c : Nat) (ps : List Word) (s : State) : (raise c ps s).free = s.free := by
  obtain ⟨_, h⟩ | h := raise_cases c ps s <;> rw [h] <;> rfl
@[simp] theorem raise_pending (c : Nat) (ps : List Word) (s : State) : (raise c ps s).pending = s.pending := by
  obtain ⟨_, h⟩ | h := raise_cases c ps s <;> rw [h] <;> rfl
@[simp] theorem raise_dict_shadow (c : Nat) (ps : List Word) (s : State) : (raise c ps s).dict.shadow = s.dict.shadow := by
  obtain ⟨_, h⟩ | h := raise_cases c ps s <;> rw [h] <;> rfl
@[simp] theorem raise_dict_dirty (c : Nat) (ps : List Word) (s : State) : (raise c ps s).dict.dirty = s.dict.dirty := by
  obtain ⟨_, h⟩ | h := raise_cases c ps s <;> rw [h] <;> rfl
@[simp] theorem raise_dict_badShadow (c : Nat) (ps : List Word) (s : State) : (raise c ps s).dict.badShadow = s.dict.badShadow := by
  obtain ⟨_, h⟩ | h := raise_cases c ps s <;> rw [h] <;> rfl
@[simp] theorem raise_dict_badObj (c : Nat) (ps : List Word) (s : State) : (raise c ps s).dict.badObj = s.dict.badObj := by
  obtain ⟨_, h⟩ | h := raise_cases c ps s <;> rw [h] <;> rfl
@[simp] theorem raise_dict_commits (c : Nat) (ps : List Word) (s : State) : (raise c ps s).dict.commits = s.dict.commits := by
  obtain ⟨_, h⟩ | h := raise_cases c ps s <;> rw [h] <;> rfl
@[simp] theorem raise_dict_transfers (c : Nat) (ps : List Word) (s : State) : (raise c ps s).dict.transfers = s.dict.transfers := by
  obtain ⟨_, h⟩ | h := raise_cases c ps s <;> rw [h] <;> rfl
@[simp] theorem raise_dict_inband (c : Nat) (ps : List Word) (s : State) : (raise c ps s).dict.inband = s.dict.inband := by
  obtain ⟨_, h⟩ | h := raise_cases c ps s <;> rw [h] <;> rfl
@[simp] theorem raise_dict_begunInput (c : Nat) (ps : List Word) (s : State) : (raise c ps s).dict.begunInput = s.dict.begunInput := by
  obtain ⟨_, h⟩ | h := raise_cases c ps s <;> rw [h] <;> rfl
@[simp] theorem raise_dict_begunScreen (c : Nat) (ps : List Word) (s : State) : (raise c ps s).dict.begunScreen = s.dict.begunScreen := by
  obtain ⟨_, h⟩ | h := raise_cases c ps s <;> rw [h] <;> rfl
@[simp] theorem raise_dict_begunFire (c : Nat) (ps : List Word) (s : State) : (raise c ps s).dict.begunFire = s.dict.begunFire := by
  obtain ⟨_, h⟩ | h := raise_cases c ps s <;> rw [h] <;> rfl
@[simp] theorem raise_dict_begunLast (c : Nat) (ps : List Word) (s : State) : (raise c ps s).dict.begunLast = s.dict.begunLast := by
  obtain ⟨_, h⟩ | h := raise_cases c ps s <;> rw [h] <;> rfl

/-! What crosses touches the crossing units alone. -/

@[simp] theorem xingQueue_clock (i n : Nat) (s : State) : (xingQueue i n s).clock = s.clock := rfl
@[simp] theorem xingQueue_ptp (i n : Nat) (s : State) : (xingQueue i n s).ptp = s.ptp := rfl
@[simp] theorem xingQueue_trigs (i n : Nat) (s : State) : (xingQueue i n s).trigs = s.trigs := rfl
@[simp] theorem xingQueue_pwr (i n : Nat) (s : State) : (xingQueue i n s).pwr = s.pwr := rfl
@[simp] theorem xingQueue_flash (i n : Nat) (s : State) : (xingQueue i n s).flash = s.flash := rfl
@[simp] theorem xingQueue_dict (i n : Nat) (s : State) : (xingQueue i n s).dict = s.dict := rfl
@[simp] theorem xingQueue_ev (i n : Nat) (s : State) : (xingQueue i n s).ev = s.ev := rfl
@[simp] theorem xingQueue_mem (i n : Nat) (s : State) : (xingQueue i n s).mem = s.mem := rfl
@[simp] theorem xingQueue_repairs (i n : Nat) (s : State) : (xingQueue i n s).repairs = s.repairs := rfl
@[simp] theorem xingQueue_ring (i n : Nat) (s : State) : (xingQueue i n s).ring = s.ring := rfl
@[simp] theorem xingQueue_host (i n : Nat) (s : State) : (xingQueue i n s).host = s.host := rfl
@[simp] theorem xingQueue_lanes (i n : Nat) (s : State) : (xingQueue i n s).lanes = s.lanes := rfl
@[simp] theorem xingQueue_bond (i n : Nat) (s : State) : (xingQueue i n s).bond = s.bond := rfl
@[simp] theorem xingQueue_rfe (i n : Nat) (s : State) : (xingQueue i n s).rfe = s.rfe := rfl
@[simp] theorem xingQueue_pages (i n : Nat) (s : State) : (xingQueue i n s).pages = s.pages := rfl
@[simp] theorem xingQueue_codec (i n : Nat) (s : State) : (xingQueue i n s).codec = s.codec := rfl
@[simp] theorem xingQueue_fabric (i n : Nat) (s : State) : (xingQueue i n s).fabric = s.fabric := rfl
@[simp] theorem xingQueue_nt (i n : Nat) (s : State) : (xingQueue i n s).nt = s.nt := rfl
@[simp] theorem xingQueue_fire (i n : Nat) (s : State) : (xingQueue i n s).fire = s.fire := rfl
@[simp] theorem xingQueue_links (i n : Nat) (s : State) : (xingQueue i n s).links = s.links := rfl
@[simp] theorem xingQueue_encs (i n : Nat) (s : State) : (xingQueue i n s).encs = s.encs := rfl
@[simp] theorem xingQueue_pos (i n : Nat) (s : State) : (xingQueue i n s).pos = s.pos := rfl
@[simp] theorem xingQueue_hare (i n : Nat) (s : State) : (xingQueue i n s).hare = s.hare := rfl
@[simp] theorem xingQueue_axes (i n : Nat) (s : State) : (xingQueue i n s).axes = s.axes := rfl
@[simp] theorem xingQueue_aux (i n : Nat) (s : State) : (xingQueue i n s).aux = s.aux := rfl
@[simp] theorem xingQueue_cmps (i n : Nat) (s : State) : (xingQueue i n s).cmps = s.cmps := rfl
@[simp] theorem xingQueue_insp (i n : Nat) (s : State) : (xingQueue i n s).insp = s.insp := rfl
@[simp] theorem xingQueue_cal (i n : Nat) (s : State) : (xingQueue i n s).cal = s.cal := rfl
@[simp] theorem xingQueue_hpc (i n : Nat) (s : State) : (xingQueue i n s).hpc = s.hpc := rfl
@[simp] theorem xingQueue_sent (i n : Nat) (s : State) : (xingQueue i n s).sent = s.sent := rfl
@[simp] theorem xingQueue_free (i n : Nat) (s : State) : (xingQueue i n s).free = s.free := rfl
@[simp] theorem xingQueue_pending (i n : Nat) (s : State) : (xingQueue i n s).pending = s.pending := rfl
@[simp] theorem xingCount_clock (i : Nat) (n : Int) (s : State) : (xingCount i n s).clock = s.clock := rfl
@[simp] theorem xingCount_ptp (i : Nat) (n : Int) (s : State) : (xingCount i n s).ptp = s.ptp := rfl
@[simp] theorem xingCount_trigs (i : Nat) (n : Int) (s : State) : (xingCount i n s).trigs = s.trigs := rfl
@[simp] theorem xingCount_pwr (i : Nat) (n : Int) (s : State) : (xingCount i n s).pwr = s.pwr := rfl
@[simp] theorem xingCount_flash (i : Nat) (n : Int) (s : State) : (xingCount i n s).flash = s.flash := rfl
@[simp] theorem xingCount_dict (i : Nat) (n : Int) (s : State) : (xingCount i n s).dict = s.dict := rfl
@[simp] theorem xingCount_ev (i : Nat) (n : Int) (s : State) : (xingCount i n s).ev = s.ev := rfl
@[simp] theorem xingCount_mem (i : Nat) (n : Int) (s : State) : (xingCount i n s).mem = s.mem := rfl
@[simp] theorem xingCount_repairs (i : Nat) (n : Int) (s : State) : (xingCount i n s).repairs = s.repairs := rfl
@[simp] theorem xingCount_ring (i : Nat) (n : Int) (s : State) : (xingCount i n s).ring = s.ring := rfl
@[simp] theorem xingCount_host (i : Nat) (n : Int) (s : State) : (xingCount i n s).host = s.host := rfl
@[simp] theorem xingCount_lanes (i : Nat) (n : Int) (s : State) : (xingCount i n s).lanes = s.lanes := rfl
@[simp] theorem xingCount_bond (i : Nat) (n : Int) (s : State) : (xingCount i n s).bond = s.bond := rfl
@[simp] theorem xingCount_rfe (i : Nat) (n : Int) (s : State) : (xingCount i n s).rfe = s.rfe := rfl
@[simp] theorem xingCount_pages (i : Nat) (n : Int) (s : State) : (xingCount i n s).pages = s.pages := rfl
@[simp] theorem xingCount_codec (i : Nat) (n : Int) (s : State) : (xingCount i n s).codec = s.codec := rfl
@[simp] theorem xingCount_fabric (i : Nat) (n : Int) (s : State) : (xingCount i n s).fabric = s.fabric := rfl
@[simp] theorem xingCount_nt (i : Nat) (n : Int) (s : State) : (xingCount i n s).nt = s.nt := rfl
@[simp] theorem xingCount_fire (i : Nat) (n : Int) (s : State) : (xingCount i n s).fire = s.fire := rfl
@[simp] theorem xingCount_links (i : Nat) (n : Int) (s : State) : (xingCount i n s).links = s.links := rfl
@[simp] theorem xingCount_encs (i : Nat) (n : Int) (s : State) : (xingCount i n s).encs = s.encs := rfl
@[simp] theorem xingCount_pos (i : Nat) (n : Int) (s : State) : (xingCount i n s).pos = s.pos := rfl
@[simp] theorem xingCount_hare (i : Nat) (n : Int) (s : State) : (xingCount i n s).hare = s.hare := rfl
@[simp] theorem xingCount_axes (i : Nat) (n : Int) (s : State) : (xingCount i n s).axes = s.axes := rfl
@[simp] theorem xingCount_aux (i : Nat) (n : Int) (s : State) : (xingCount i n s).aux = s.aux := rfl
@[simp] theorem xingCount_cmps (i : Nat) (n : Int) (s : State) : (xingCount i n s).cmps = s.cmps := rfl
@[simp] theorem xingCount_insp (i : Nat) (n : Int) (s : State) : (xingCount i n s).insp = s.insp := rfl
@[simp] theorem xingCount_cal (i : Nat) (n : Int) (s : State) : (xingCount i n s).cal = s.cal := rfl
@[simp] theorem xingCount_hpc (i : Nat) (n : Int) (s : State) : (xingCount i n s).hpc = s.hpc := rfl
@[simp] theorem xingCount_sent (i : Nat) (n : Int) (s : State) : (xingCount i n s).sent = s.sent := rfl
@[simp] theorem xingCount_free (i : Nat) (n : Int) (s : State) : (xingCount i n s).free = s.free := rfl
@[simp] theorem xingCount_pending (i : Nat) (n : Int) (s : State) : (xingCount i n s).pending = s.pending := rfl

/-! What passes an update of two fields: whenB and forEach. -/

@[simp] theorem whenB_true (f : State → State) (s : State) : whenB true f s = f s := rfl
@[simp] theorem whenB_false (f : State → State) (s : State) : whenB false f s = s := rfl
@[simp] theorem forEach_nil {α : Type} (f : α → State → State) (s : State) : forEach [] f s = s := rfl
@[simp] theorem forEach_cons {α : Type} (a : α) (l : List α) (f : α → State → State) (s : State) :
    forEach (a :: l) f s = forEach l f (f a s) := rfl

/-- What one turn of a forEach keeps, all of it keeps. -/
theorem forEach_keeps {α β : Type} (p : State → β) (f : α → State → State) (h : ∀ a s, p (f a s) = p s) (l : List α) :
    ∀ s, p (forEach l f s) = p s := by
  induction l with
  | nil => intro s; rfl
  | cons a l ih => intro s; rw [forEach_cons, ih, h]

end Sys2Proof.Machine
end

