-- ==== Sys2Proof/Laws/Values.lean ====
section
/-! SUPPORT. Object values: what is read after a write, and what every named update leaves of them. -/

set_option Elab.async false
set_option linter.all false

namespace Sys2Proof.Machine

open Sys2Proof

/-! Lists of keys. -/

@[simp] theorem lookup_insert_self {α : Type} (a : Nat) (b : α) : ∀ l, lookupKey (insertKey l a b) a = some b
  | [] => by simp [insertKey, lookupKey]
  | (k, v) :: rest => by
    unfold insertKey
    split
    · simp [lookupKey]
    · split
      · simp [lookupKey]
      · rename_i h
        rw [lookupKey, if_neg (fun e => h e.symm)]
        exact lookup_insert_self a b rest

theorem lookup_insert_ne {α : Type} {a c : Nat} (b : α) (h : c ≠ a) : ∀ l, lookupKey (insertKey l a b) c = lookupKey l c
  | [] => by simp [insertKey, lookupKey, Ne.symm h]
  | (k, v) :: rest => by
    unfold insertKey
    split
    · simp [lookupKey, Ne.symm h]
    · split
      · rename_i h2
        subst h2
        simp [lookupKey, Ne.symm h]
      · simp only [lookupKey]
        rw [lookup_insert_ne b h rest]

@[simp] theorem lookup_erase_self {α : Type} (a : Nat) : ∀ l : List (Nat × α), lookupKey (eraseKey l a) a = none
  | [] => rfl
  | (k, v) :: rest => by
    unfold eraseKey
    split
    · exact lookup_erase_self a rest
    · rename_i h
      rw [lookupKey, if_neg h]
      exact lookup_erase_self a rest

theorem lookup_erase_ne {α : Type} {a c : Nat} (h : c ≠ a) : ∀ l : List (Nat × α), lookupKey (eraseKey l a) c = lookupKey l c
  | [] => rfl
  | (k, v) :: rest => by
    unfold eraseKey
    split
    · rename_i h2
      subst h2
      rw [lookup_erase_ne h rest, lookupKey, if_neg (Ne.symm h)]
    · simp only [lookupKey]
      rw [lookup_erase_ne h rest]

theorem lookup_filter_keep {α : Type} (p : Nat → Bool) (c : Nat) (h : p c = true) :
    ∀ l : List (Nat × α), lookupKey (l.filter (fun e => p e.1)) c = lookupKey l c
  | [] => rfl
  | (k, v) :: rest => by
    by_cases hk : p k = true
    · simp only [List.filter, hk, lookupKey]
      rw [lookup_filter_keep p c h rest]
    · have : k ≠ c := fun e => hk (e ▸ h)
      simp only [List.filter, hk, lookupKey, this, if_false]
      exact lookup_filter_keep p c h rest

theorem keysRise_mono {α : Type} : ∀ (l : List (Nat × α)) {lo lo' : Nat}, lo' ≤ lo → keysRise (some lo) l = true →
    keysRise (some lo') l = true
  | [], _, _, _, _ => rfl
  | (k, v) :: rest, lo, lo', h, hr => by
    simp only [keysRise, Bool.and_eq_true, decide_eq_true_eq] at hr ⊢
    exact ⟨by omega, hr.2⟩

theorem keysRise_insert_some {α : Type} (a : Nat) (b : α) : ∀ (l : List (Nat × α)) (lo : Nat), lo < a →
    keysRise (some lo) l = true → keysRise (some lo) (insertKey l a b) = true
  | [], lo, h, _ => by simp [insertKey, keysRise, h]
  | (k, v) :: rest, lo, h, hr => by
    simp only [keysRise, Bool.and_eq_true, decide_eq_true_eq] at hr
    unfold insertKey
    split
    · simp [keysRise, h, *]
    · split
      · rename_i h2
        subst h2
        simp [keysRise, h, hr.2]
      · simp only [keysRise, Bool.and_eq_true, decide_eq_true_eq]
        exact ⟨hr.1, keysRise_insert_some a b rest k (by omega) hr.2⟩

/-- Setting a key keeps the keys rising. -/
theorem keysRise_insert {α : Type} (a : Nat) (b : α) (l : List (Nat × α)) (h : keysRise none l = true) :
    keysRise none (insertKey l a b) = true := by
  cases l with
  | nil => rfl
  | cons x rest =>
    obtain ⟨k, v⟩ := x
    simp only [keysRise] at h
    unfold insertKey
    split
    · simp [keysRise, *]
    · split
      · rename_i h2
        subst h2
        simpa [keysRise] using h
      · simp only [keysRise]
        exact keysRise_insert_some a b rest k (by omega) h

theorem keysRise_erase_some {α : Type} (a : Nat) : ∀ (l : List (Nat × α)) (lo : Nat),
    keysRise (some lo) l = true → keysRise (some lo) (eraseKey l a) = true
  | [], _, _ => rfl
  | (k, v) :: rest, lo, hr => by
    simp only [keysRise, Bool.and_eq_true, decide_eq_true_eq] at hr
    unfold eraseKey
    split
    · exact keysRise_erase_some a rest lo (keysRise_mono rest (Nat.le_of_lt hr.1) hr.2)
    · simp only [keysRise, Bool.and_eq_true, decide_eq_true_eq]
      exact ⟨hr.1, keysRise_erase_some a rest k hr.2⟩

theorem keysRise_none_of_some {α : Type} : ∀ (l : List (Nat × α)) (lo : Nat), keysRise (some lo) l = true → keysRise none l = true
  | [], _, _ => rfl
  | (k, v) :: rest, _, h => by
    simp only [keysRise, Bool.and_eq_true] at h ⊢
    exact h.2

/-- Removing a key keeps the keys rising. -/
theorem keysRise_erase {α : Type} (a : Nat) (l : List (Nat × α)) (h : keysRise none l = true) :
    keysRise none (eraseKey l a) = true := by
  cases l with
  | nil => rfl
  | cons x rest =>
    obtain ⟨k, v⟩ := x
    simp only [keysRise] at h
    have h2 := keysRise_erase_some a rest k h
    unfold eraseKey
    split
    · exact keysRise_none_of_some _ _ h2
    · exact h2

theorem keysRise_filter_some {α : Type} (p : Nat × α → Bool) : ∀ (l : List (Nat × α)) (lo : Nat),
    keysRise (some lo) l = true → keysRise (some lo) (l.filter p) = true
  | [], _, _ => rfl
  | (k, v) :: rest, lo, hr => by
    simp only [keysRise, Bool.and_eq_true, decide_eq_true_eq] at hr
    rw [List.filter_cons]
    split
    · simp only [keysRise, Bool.and_eq_true, decide_eq_true_eq]
      exact ⟨hr.1, keysRise_filter_some p rest k hr.2⟩
    · exact keysRise_filter_some p rest lo (keysRise_mono rest (Nat.le_of_lt hr.1) hr.2)

/-- Filtering keeps the keys rising. -/
theorem keysRise_filter {α : Type} (p : Nat × α → Bool) (l : List (Nat × α)) (h : keysRise none l = true) :
    keysRise none (l.filter p) = true := by
  cases l with
  | nil => rfl
  | cons x rest =>
    obtain ⟨k, v⟩ := x
    simp only [keysRise] at h
    have h2 := keysRise_filter_some p rest k h
    rw [List.filter_cons]
    split
    · exact h2
    · exact keysRise_none_of_some _ _ h2

/-- Setting entries over a store keeps the keys rising. -/
theorem keysRise_overlay : ∀ (top st : Store), keysRise none st = true → keysRise none (overlay st top) = true
  | [], _, h => h
  | p :: top, st, h => keysRise_overlay top (insertKey st p.1 p.2) (keysRise_insert _ _ _ h)

/-! Memories. -/

theorem mem_insert {α : Type} (a : Nat) (b : α) : ∀ (l : List (Nat × α)) (x : Nat × α), x ∈ insertKey l a b → x = (a, b) ∨ x ∈ l
  | [], x, h => by simpa [insertKey] using h
  | (k, v) :: rest, x, h => by
    unfold insertKey at h
    split at h
    · simpa using h
    · split at h
      · rcases List.mem_cons.mp h with h | h
        · exact .inl h
        · exact .inr (List.mem_cons_of_mem _ h)
      · rcases List.mem_cons.mp h with h | h
        · exact .inr (h ▸ List.mem_cons_self)
        · rcases mem_insert a b rest x h with h | h
          · exact .inl h
          · exact .inr (List.mem_cons_of_mem _ h)

theorem mem_erase {α : Type} (a : Nat) : ∀ (l : List (Nat × α)) (x : Nat × α), x ∈ eraseKey l a → x ∈ l
  | [], x, h => h
  | (k, v) :: rest, x, h => by
    unfold eraseKey at h
    split at h
    · exact List.mem_cons_of_mem _ (mem_erase a rest x h)
    · rcases List.mem_cons.mp h with h | h
      · exact h ▸ List.mem_cons_self
      · exact List.mem_cons_of_mem _ (mem_erase a rest x h)

/-- Writing a word keeps a memory canonical. -/
theorem memWrite_wf (m : Nat) (mem : Memory) (a : Nat) (v : Stored) (h : Memory.wf m mem = true) :
    Memory.wf m (memWrite m mem a v) = true := by
  simp only [Memory.wf, Bool.and_eq_true, List.all_eq_true, decide_eq_true_eq] at h ⊢
  unfold memWrite
  split
  · exact ⟨keysRise_erase _ _ h.1, fun x hx => h.2 x (mem_erase _ _ _ hx)⟩
  · rename_i hv
    refine ⟨keysRise_insert _ _ _ h.1, fun x hx => ?_⟩
    rcases mem_insert _ _ _ _ hx with rfl | hx
    · exact hv
    · exact h.2 x hx

/-- A memory with nothing listed is canonical. -/
theorem wf_nil (m : Nat) : Memory.wf m [] = true := rfl

/-- Taking some of a memory's cells away keeps it canonical. -/
theorem filter_wf (m : Nat) (mem : Memory) (p : Nat × Stored → Bool) (h : Memory.wf m mem = true) :
    Memory.wf m (mem.filter p) = true := by
  simp only [Memory.wf, Bool.and_eq_true, List.all_eq_true, decide_eq_true_eq] at h ⊢
  exact ⟨keysRise_filter _ _ h.1, fun x hx => h.2 x (List.mem_filter.mp hx).1⟩

/-- A word reads as it was written. -/
@[simp] theorem memRead_memWrite_self (m : Nat) (mem : Memory) (a : Nat) (v : Stored) :
    memRead m (memWrite m mem a v) a = v := by
  unfold memRead memWrite
  split
  · rename_i h
    simp [h]
  · simp

/-- Every other word reads as before. -/
theorem memRead_memWrite_ne (m : Nat) (mem : Memory) {a b : Nat} (v : Stored) (h : b ≠ a) :
    memRead m (memWrite m mem a v) b = memRead m mem b := by
  unfold memRead memWrite
  split
  · rw [lookup_erase_ne h]
  · rw [lookup_insert_ne v h]

/-! Object values. -/

/-- Values in force depend on the dictionary, the grade and the strap alone. -/
theorem getE_congr {s u : State} (h : u.dict.active = s.dict.active) (hg : u.pwr.grade = s.pwr.grade)
    (hs : u.pwr.strap = s.pwr.strap) (id i : Nat) : getE u id i = getE s id i := by
  unfold getE; rw [h, hg, hs]

theorem objKey_ne {id id' : Nat} (h : id' ≠ id) (i i' : Nat) : objKey id' i' ≠ objKey id i := by
  unfold objKey; omega

theorem keysRise_storeSet (g : Grade) (k : Nat) (st : Store) (id i : Nat) (e : Elem) (h : keysRise none st = true) :
    keysRise none (storeSet g k st id i e) = true := by
  unfold storeSet
  split
  · exact keysRise_erase _ _ h
  · exact keysRise_insert _ _ _ h

theorem lookup_storeSet_ne (g : Grade) (k : Nat) (st : Store) (id i : Nat) (e : Elem) {c : Nat} (h : c ≠ objKey id i) :
    lookupKey (storeSet g k st id i e) c = lookupKey st c := by
  unfold storeSet
  split
  · exact lookup_erase_ne h _
  · exact lookup_insert_ne _ h _

/-- A value written is the value read. -/
@[simp] theorem getE_setE_self (id i : Nat) (e : Elem) (s : State) : getE (setE id i e s) id i = e := by
  unfold getE setE storeSet
  dsimp only
  split
  · rename_i h
    simp [h]
  · simp

/-- Writing one element leaves every other. -/
theorem getE_setE_ne {id i id' i' : Nat} (h : objKey id' i' ≠ objKey id i) (e : Elem) (s : State) :
    getE (setE id i e s) id' i' = getE s id' i' := by
  unfold getE setE
  dsimp only
  rw [lookup_storeSet_ne _ _ _ _ _ _ h]

/-- Writing one object leaves every other. -/
@[simp] theorem getE_setE_obj {id id' : Nat} (h : id' ≠ id) (i i' : Nat) (e : Elem) (s : State) :
    getE (setE id i e s) id' i' = getE s id' i' := getE_setE_ne (objKey_ne h i i') e s
@[simp] theorem getE_setN_obj {id id' : Nat} (h : id' ≠ id) (i i' n : Nat) (s : State) :
    getE (setN id i n s) id' i' = getE s id' i' := getE_setE_obj h i i' _ s
@[simp] theorem getE_setI_obj {id id' : Nat} (h : id' ≠ id) (i i' : Nat) (n : Int) (s : State) :
    getE (setI id i n s) id' i' = getE s id' i' := getE_setE_obj h i i' _ s
@[simp] theorem getE_bump_obj {id id' : Nat} (h : id' ≠ id) (i i' n : Nat) (s : State) :
    getE (bump id i n s) id' i' = getE s id' i' := getE_setE_obj h i i' _ s
@[simp] theorem getE_raise {id' : Nat} (h : id' ≠ Obj.eventLost) (c : Nat) (ps : List Word) (i' : Nat) (s : State) :
    getE (raise c ps s) id' i' = getE s id' i' := by
  obtain ⟨_, e⟩ | e := raise_cases c ps s <;> rw [e]
  · rfl
  · exact getE_bump_obj h _ _ _ _

@[simp] theorem getE_emit (x : Sent) (s : State) (id i : Nat) : getE (emit x s) id i = getE s id i := rfl
@[simp] theorem getE_takeFree (s : State) (id i : Nat) : getE (takeFree s) id i = getE s id i := rfl
@[simp] theorem getE_setUp (b : Nat) (on : Bool) (s : State) (id i : Nat) : getE (setUp b on s) id i = getE s id i := rfl
@[simp] theorem getE_advance (t : Nat) (s : State) (id i : Nat) : getE (advance t s) id i = getE s id i := rfl
@[simp] theorem getE_newEntry (e : Event) (s : State) (id i : Nat) : getE (newEntry e s) id i = getE s id i := rfl
@[simp] theorem getE_setShadow (id i : Nat) (e : Elem) (s : State) (id' i' : Nat) :
    getE (setShadow id i e s) id' i' = getE s id' i' := rfl

/-- A number written in one word reads back. -/
@[simp] theorem getN_setN_self (id i n : Nat) (s : State) : getN (setN id i n s) id i = n % 2 ^ 36 := by
  simp [getN, getW, setN, elemLo, el, wd, Nat.mod_mod_of_dvd]

/-- Values read as words, numbers and positions follow the elements. -/
theorem getW_congr {s u : State} {id i : Nat} (h : getE u id i = getE s id i) : getW u id i = getW s id i := by
  unfold getW; rw [h]
theorem getN_congr {s u : State} {id i : Nat} (h : getE u id i = getE s id i) : getN u id i = getN s id i := by
  unfold getN; rw [getW_congr h]

end Sys2Proof.Machine
end

