-- ==== Sys2Proof/Laws/Frame.lean ====
section
/-! SUPPORT. Keeps: how it composes, and what each named operation and each update of one field keeps. -/

set_option Elab.async false
set_option linter.all false

namespace Sys2Proof.Machine

open Sys2Proof

theorem Area.same_refl (a : Area) (s : State) : a.same s s := by cases a <;> first | rfl | trivial | exact ⟨rfl, rfl⟩

theorem Area.same_trans {a : Area} {s t u : State} (h : a.same s t) (k : a.same t u) : a.same s u := by
  cases a
  case values => trivial
  case dict =>
    simp only [Area.same] at h k ⊢
    rw [k, h]
  case pwr =>
    simp only [Area.same] at h k ⊢
    rw [k, h]
  case ev => exact ⟨k.1.trans h.1, k.2.trans h.2⟩
  all_goals exact Eq.trans k h

theorem Keeps.refl (T : List Area) (O : List Nat) (s : State) : Keeps T O s s :=
  ⟨fun a _ => Area.same_refl a s, fun _ _ _ _ => rfl, id, List.prefix_rfl, rfl⟩

theorem Keeps.trans {T : List Area} {O : List Nat} {s t u : State} (h : Keeps T O s t) (k : Keeps T O t u) :
    Keeps T O s u :=
  ⟨fun a ha => Area.same_trans (h.areas a ha) (k.areas a ha), fun v id hid i => (k.objs v id hid i).trans (h.objs v id hid i),
    fun x => k.sound (h.sound x), h.sent.trans k.sent, k.tick.trans h.tick⟩

theorem Keeps.mono {T T' : List Area} {O O' : List Nat} {s t : State} (h : Keeps T O s t) (hT : ∀ a ∈ T, a ∈ T')
    (hO : ∀ o ∈ O, o ∈ O') : Keeps T' O' s t :=
  ⟨fun a ha => h.areas a (fun x => ha (hT a x)), fun v id hid i => h.objs (fun x => v (hT _ x)) id (fun x => hid (hO id x)) i,
    h.sound, h.sent, h.tick⟩

/-- One more operation, whose own lemma names no more groups and objects. -/
theorem Keeps.step {T T' : List Area} {O O' : List Nat} {s x u : State} (k : Keeps T O x u) (hT : ∀ a ∈ T, a ∈ T')
    (hO : ∀ o ∈ O, o ∈ O') (h : Keeps T' O' s x) : Keeps T' O' s u := h.trans (k.mono hT hO)

/-- One more update that is no object's value: the values are the same. -/
theorem Keeps.same {T : List Area} {O : List Nat} {s x u : State} (hd : u.dict.active = x.dict.active)
    (hg : u.pwr.grade = x.pwr.grade) (hs : u.pwr.strap = x.pwr.strap) (ha : ∀ a, a ∉ T → a.same x u)
    (hx : Sound x → Sound u) (he : x.sent <+: u.sent) (ht : u.clock.tick = x.clock.tick) (h : Keeps T O s x) : Keeps T O s u :=
  h.trans ⟨ha, fun _ id _ i => getE_congr hd hg hs id i, hx, he, ht⟩

/-- A memory changed whose cells stay canonical. -/
theorem memsCanonical_vmod {v : Vector MemUnit 8} {m : Nat} {f : MemUnit → MemUnit}
    (hf : ∀ u, Memory.wf m u.cells = true → Memory.wf m (f u).cells = true) (h : memsCanonical v) : memsCanonical (vmod v m f) := by
  intro k
  unfold vmod
  split
  · rename_i hm
    by_cases e : m = k.val
    · subst e
      simpa using hf _ (h k)
    · simpa [Vector.getElem_set, e] using h k
  · exact h k

section
variable {T : List Area} {O : List Nat} {s x : State}

theorem keeps_clock {v : Clock} (m : .clock ∈ T) (k : v.tick = x.clock.tick) (h : Keeps T O s x) : Keeps T O s { x with clock := v } :=
  Keeps.same (x := x) rfl rfl rfl (fun a ha => by cases a <;> first | rfl | trivial | exact ⟨rfl, rfl⟩ | exact absurd m ha)
    id List.prefix_rfl k h
theorem keeps_ptp {v : Ptp} (m : .ptp ∈ T) (h : Keeps T O s x) : Keeps T O s { x with ptp := v } :=
  Keeps.same (x := x) rfl rfl rfl (fun a ha => by cases a <;> first | rfl | trivial | exact ⟨rfl, rfl⟩ | exact absurd m ha)
    id List.prefix_rfl rfl h
theorem keeps_trigs {v : Vector TrigUnit 16} (m : .trigs ∈ T) (h : Keeps T O s x) : Keeps T O s { x with trigs := v } :=
  Keeps.same (x := x) rfl rfl rfl (fun a ha => by cases a <;> first | rfl | trivial | exact ⟨rfl, rfl⟩ | exact absurd m ha)
    id List.prefix_rfl rfl h
theorem keeps_flash {v : Flash} (m : .flash ∈ T) (h : Keeps T O s x) : Keeps T O s { x with flash := v } :=
  Keeps.same (x := x) rfl rfl rfl (fun a ha => by cases a <;> first | rfl | trivial | exact ⟨rfl, rfl⟩ | exact absurd m ha)
    id List.prefix_rfl rfl h
theorem keeps_ev {v : Events} (m : .ev ∈ T) (k : eventsFit x.ev → eventsFit v) (h : Keeps T O s x) : Keeps T O s { x with ev := v } :=
  Keeps.same (x := x) rfl rfl rfl (fun a ha => by cases a <;> first | rfl | trivial | exact ⟨rfl, rfl⟩ | exact absurd m ha)
    (fun h => ⟨h.1, h.2.1, k h.2.2⟩) List.prefix_rfl rfl h
theorem keeps_mem {v : Vector MemUnit 8} (m : .mem ∈ T) (k : memsCanonical x.mem → memsCanonical v) (h : Keeps T O s x) : Keeps T O s { x with mem := v } :=
  Keeps.same (x := x) rfl rfl rfl (fun a ha => by cases a <;> first | rfl | trivial | exact ⟨rfl, rfl⟩ | exact absurd m ha)
    (fun h => ⟨k h.1, h.2⟩) List.prefix_rfl rfl h
theorem keeps_repairs {v : List Repair} (m : .repairs ∈ T) (h : Keeps T O s x) : Keeps T O s { x with repairs := v } :=
  Keeps.same (x := x) rfl rfl rfl (fun a ha => by cases a <;> first | rfl | trivial | exact ⟨rfl, rfl⟩ | exact absurd m ha)
    id List.prefix_rfl rfl h
theorem keeps_ring {v : Ring} (m : .ring ∈ T) (h : Keeps T O s x) : Keeps T O s { x with ring := v } :=
  Keeps.same (x := x) rfl rfl rfl (fun a ha => by cases a <;> first | rfl | trivial | exact ⟨rfl, rfl⟩ | exact absurd m ha)
    id List.prefix_rfl rfl h
theorem keeps_host {v : HostPort} (m : .host ∈ T) (h : Keeps T O s x) : Keeps T O s { x with host := v } :=
  Keeps.same (x := x) rfl rfl rfl (fun a ha => by cases a <;> first | rfl | trivial | exact ⟨rfl, rfl⟩ | exact absurd m ha)
    id List.prefix_rfl rfl h
theorem keeps_lanes {v : Vector Lane 48} (m : .lanes ∈ T) (h : Keeps T O s x) : Keeps T O s { x with lanes := v } :=
  Keeps.same (x := x) rfl rfl rfl (fun a ha => by cases a <;> first | rfl | trivial | exact ⟨rfl, rfl⟩ | exact absurd m ha)
    id List.prefix_rfl rfl h
theorem keeps_bond {v : Bond} (m : .bond ∈ T) (h : Keeps T O s x) : Keeps T O s { x with bond := v } :=
  Keeps.same (x := x) rfl rfl rfl (fun a ha => by cases a <;> first | rfl | trivial | exact ⟨rfl, rfl⟩ | exact absurd m ha)
    id List.prefix_rfl rfl h
theorem keeps_rfe {v : Rfe} (m : .rfe ∈ T) (h : Keeps T O s x) : Keeps T O s { x with rfe := v } :=
  Keeps.same (x := x) rfl rfl rfl (fun a ha => by cases a <;> first | rfl | trivial | exact ⟨rfl, rfl⟩ | exact absurd m ha)
    id List.prefix_rfl rfl h
theorem keeps_pages {v : List Page} (m : .pages ∈ T) (h : Keeps T O s x) : Keeps T O s { x with pages := v } :=
  Keeps.same (x := x) rfl rfl rfl (fun a ha => by cases a <;> first | rfl | trivial | exact ⟨rfl, rfl⟩ | exact absurd m ha)
    id List.prefix_rfl rfl h
theorem keeps_codec {v : Codec} (m : .codec ∈ T) (h : Keeps T O s x) : Keeps T O s { x with codec := v } :=
  Keeps.same (x := x) rfl rfl rfl (fun a ha => by cases a <;> first | rfl | trivial | exact ⟨rfl, rfl⟩ | exact absurd m ha)
    id List.prefix_rfl rfl h
theorem keeps_fabric {v : Fabric} (m : .fabric ∈ T) (h : Keeps T O s x) : Keeps T O s { x with fabric := v } :=
  Keeps.same (x := x) rfl rfl rfl (fun a ha => by cases a <;> first | rfl | trivial | exact ⟨rfl, rfl⟩ | exact absurd m ha)
    id List.prefix_rfl rfl h
theorem keeps_nt {v : Nt} (m : .nt ∈ T) (h : Keeps T O s x) : Keeps T O s { x with nt := v } :=
  Keeps.same (x := x) rfl rfl rfl (fun a ha => by cases a <;> first | rfl | trivial | exact ⟨rfl, rfl⟩ | exact absurd m ha)
    id List.prefix_rfl rfl h
theorem keeps_fire {v : Fire} (m : .fire ∈ T) (h : Keeps T O s x) : Keeps T O s { x with fire := v } :=
  Keeps.same (x := x) rfl rfl rfl (fun a ha => by cases a <;> first | rfl | trivial | exact ⟨rfl, rfl⟩ | exact absurd m ha)
    id List.prefix_rfl rfl h
theorem keeps_links {v : Vector Link 32} (m : .links ∈ T) (h : Keeps T O s x) : Keeps T O s { x with links := v } :=
  Keeps.same (x := x) rfl rfl rfl (fun a ha => by cases a <;> first | rfl | trivial | exact ⟨rfl, rfl⟩ | exact absurd m ha)
    id List.prefix_rfl rfl h
theorem keeps_encs {v : Vector EncUnit 2} (m : .encs ∈ T) (h : Keeps T O s x) : Keeps T O s { x with encs := v } :=
  Keeps.same (x := x) rfl rfl rfl (fun a ha => by cases a <;> first | rfl | trivial | exact ⟨rfl, rfl⟩ | exact absurd m ha)
    id List.prefix_rfl rfl h
theorem keeps_pos {v : Pos} (m : .pos ∈ T) (h : Keeps T O s x) : Keeps T O s { x with pos := v } :=
  Keeps.same (x := x) rfl rfl rfl (fun a ha => by cases a <;> first | rfl | trivial | exact ⟨rfl, rfl⟩ | exact absurd m ha)
    id List.prefix_rfl rfl h
theorem keeps_hare {v : Hare} (m : .hare ∈ T) (h : Keeps T O s x) : Keeps T O s { x with hare := v } :=
  Keeps.same (x := x) rfl rfl rfl (fun a ha => by cases a <;> first | rfl | trivial | exact ⟨rfl, rfl⟩ | exact absurd m ha)
    id List.prefix_rfl rfl h
theorem keeps_axes {v : Vector AxisUnit 2} (m : .axes ∈ T) (h : Keeps T O s x) : Keeps T O s { x with axes := v } :=
  Keeps.same (x := x) rfl rfl rfl (fun a ha => by cases a <;> first | rfl | trivial | exact ⟨rfl, rfl⟩ | exact absurd m ha)
    id List.prefix_rfl rfl h
theorem keeps_aux {v : Aux} (m : .aux ∈ T) (h : Keeps T O s x) : Keeps T O s { x with aux := v } :=
  Keeps.same (x := x) rfl rfl rfl (fun a ha => by cases a <;> first | rfl | trivial | exact ⟨rfl, rfl⟩ | exact absurd m ha)
    id List.prefix_rfl rfl h
theorem keeps_cmps {v : Vector CmpUnit 8} (m : .cmps ∈ T) (h : Keeps T O s x) : Keeps T O s { x with cmps := v } :=
  Keeps.same (x := x) rfl rfl rfl (fun a ha => by cases a <;> first | rfl | trivial | exact ⟨rfl, rfl⟩ | exact absurd m ha)
    id List.prefix_rfl rfl h
theorem keeps_insp {v : Inspect} (m : .insp ∈ T) (h : Keeps T O s x) : Keeps T O s { x with insp := v } :=
  Keeps.same (x := x) rfl rfl rfl (fun a ha => by cases a <;> first | rfl | trivial | exact ⟨rfl, rfl⟩ | exact absurd m ha)
    id List.prefix_rfl rfl h
theorem keeps_cal {v : Cal} (m : .cal ∈ T) (h : Keeps T O s x) : Keeps T O s { x with cal := v } :=
  Keeps.same (x := x) rfl rfl rfl (fun a ha => by cases a <;> first | rfl | trivial | exact ⟨rfl, rfl⟩ | exact absurd m ha)
    id List.prefix_rfl rfl h
theorem keeps_hpc {v : Hpc} (m : .hpc ∈ T) (h : Keeps T O s x) : Keeps T O s { x with hpc := v } :=
  Keeps.same (x := x) rfl rfl rfl (fun a ha => by cases a <;> first | rfl | trivial | exact ⟨rfl, rfl⟩ | exact absurd m ha)
    id List.prefix_rfl rfl h
theorem keeps_xing {v : Vector Xing 16} (m : .xing ∈ T) (h : Keeps T O s x) : Keeps T O s { x with xing := v } :=
  Keeps.same (x := x) rfl rfl rfl (fun a ha => by cases a <;> first | rfl | trivial | exact ⟨rfl, rfl⟩ | exact absurd m ha)
    id List.prefix_rfl rfl h
theorem keeps_sent {v : List Sent} (m : .sent ∈ T) (k : x.sent <+: v) (h : Keeps T O s x) : Keeps T O s { x with sent := v } :=
  Keeps.same (x := x) rfl rfl rfl (fun a ha => by cases a <;> first | rfl | trivial | exact ⟨rfl, rfl⟩ | exact absurd m ha)
    id k rfl h
theorem keeps_free {v : Nat} (m : .free ∈ T) (h : Keeps T O s x) : Keeps T O s { x with free := v } :=
  Keeps.same (x := x) rfl rfl rfl (fun a ha => by cases a <;> first | rfl | trivial | exact ⟨rfl, rfl⟩ | exact absurd m ha)
    id List.prefix_rfl rfl h
theorem keeps_pending {v : List Instr} (m : .pending ∈ T) (h : Keeps T O s x) : Keeps T O s { x with pending := v } :=
  Keeps.same (x := x) rfl rfl rfl (fun a ha => by cases a <;> first | rfl | trivial | exact ⟨rfl, rfl⟩ | exact absurd m ha)
    id List.prefix_rfl rfl h
theorem keeps_dict {v : Dict} (m : .dict ∈ T) (e : v.active = x.dict.active) (k : valuesRise x.dict → valuesRise v)
    (h : Keeps T O s x) : Keeps T O s { x with dict := v } :=
  Keeps.same (x := x) e rfl rfl (fun a ha => by cases a <;> first | rfl | trivial | exact ⟨rfl, rfl⟩ | exact absurd m ha)
    (fun h => ⟨h.1, k h.2.1, h.2.2⟩) List.prefix_rfl rfl h
theorem keeps_pwr {v : Pwr} (m : .pwr ∈ T) (e : v.up = x.pwr.up ∨ .up ∈ T) (r : v.ready = x.pwr.ready ∨ .ev ∈ T) (g : v.grade = x.pwr.grade)
    (k : v.strap = x.pwr.strap) (h : Keeps T O s x) : Keeps T O s { x with pwr := v } :=
  Keeps.same (x := x) rfl g k (fun a ha => by
    cases a <;> first | rfl | trivial | exact e.resolve_right ha | exact ⟨rfl, r.resolve_right ha⟩ | exact absurd m ha) id List.prefix_rfl rfl h
theorem keeps_up {v : Pwr} (m : .up ∈ T) (e : v = { x.pwr with up := v.up }) (h : Keeps T O s x) :
    Keeps T O s { x with pwr := v } :=
  Keeps.same (x := x) rfl (by rw [e]) (by rw [e]) (fun a ha => by
    cases a <;> first | rfl | trivial | (show v = _; rw [e]) | exact ⟨rfl, by rw [e]⟩ | exact absurd m ha) id List.prefix_rfl rfl h
theorem keeps_ready {v : Pwr} (m : .ev ∈ T) (e : v = { x.pwr with ready := v.ready }) (h : Keeps T O s x) :
    Keeps T O s { x with pwr := v } :=
  Keeps.same (x := x) rfl (by rw [e]) (by rw [e]) (fun a ha => by
    cases a <;> first | rfl | trivial | (show v = _; rw [e]) | (show v.up = _; rw [e]) | exact absurd m ha) id List.prefix_rfl rfl h

/-- An update of values of any objects. -/
theorem keeps_values {v : Dict} (m : .values ∈ T) (e : v = { x.dict with active := v.active } ∨ .dict ∈ T)
    (k : valuesRise x.dict → valuesRise v) (h : Keeps T O s x) : Keeps T O s { x with dict := v } :=
  h.trans ⟨fun a ha => by cases a <;> first | rfl | trivial | exact ⟨rfl, rfl⟩ | exact e.resolve_right ha, fun k => absurd m k,
    fun h => ⟨h.1, k h.2.1, h.2.2⟩, List.prefix_rfl, rfl⟩
theorem keeps_of_eq {α : Type} {e : α × State} {a : α} {z : State} (h : e = (a, z)) (k : Keeps T O s e.2) : Keeps T O s z := by
  rw [h] at k; exact k
theorem keeps_snd {α : Type} {a : α} (h : Keeps T O s x) : Keeps T O s (a, x).2 := h
theorem valuesRise_setE {id i : Nat} {e : Elem} (h : valuesRise x.dict) : valuesRise (setE id i e x).dict :=
  ⟨keysRise_storeSet _ _ _ _ _ _ h.1, h.2⟩
theorem keeps_setE {id i : Nat} {e : Elem} (m : id ∈ O) (h : Keeps T O s x) : Keeps T O s (setE id i e x) :=
  h.trans ⟨fun a _ => by cases a <;> first | rfl | trivial | exact ⟨rfl, rfl⟩,
    fun _ id' hid' i' => getE_setE_obj (fun e => hid' (by rw [e]; exact m)) i i' _ x, fun h => ⟨h.1, valuesRise_setE h.2.1, h.2.2⟩,
    List.prefix_rfl, rfl⟩
theorem keeps_setE_any {id i : Nat} {e : Elem} (m : .values ∈ T) (h : Keeps T O s x) : Keeps T O s (setE id i e x) :=
  keeps_values m (.inl rfl) valuesRise_setE h
theorem keeps_setN_any {id i n : Nat} (m : .values ∈ T) (h : Keeps T O s x) : Keeps T O s (setN id i n x) :=
  keeps_setE_any m h
theorem keeps_setN {id i n : Nat} (m : id ∈ O) (h : Keeps T O s x) : Keeps T O s (setN id i n x) := keeps_setE m h
theorem keeps_setI {id i : Nat} {n : Int} (m : id ∈ O) (h : Keeps T O s x) : Keeps T O s (setI id i n x) := keeps_setE m h
theorem keeps_bump {id i n : Nat} (m : id ∈ O) (h : Keeps T O s x) : Keeps T O s (bump id i n x) := keeps_setE m h
theorem keeps_setShadow {id i : Nat} {e : Elem} (m : .dict ∈ T) (h : Keeps T O s x) : Keeps T O s (setShadow id i e x) :=
  keeps_dict m rfl (fun h => ⟨h.1, keysRise_storeSet _ _ _ _ _ _ h.2⟩) h
theorem keeps_emit' {y : Sent} (m : .sent ∈ T) (h : Keeps T O s x) : Keeps T O s (emit y x) :=
  keeps_sent m (List.prefix_append _ _) h
theorem keeps_takeFree (m : .free ∈ T) (h : Keeps T O s x) : Keeps T O s (takeFree x) := keeps_free m h
theorem keeps_setUp {b : Nat} {on : Bool} (m : .up ∈ T) (h : Keeps T O s x) : Keeps T O s (setUp b on x) :=
  keeps_up m rfl h
theorem keeps_raise {c : Nat} {ps : List Word} (m : .ev ∈ T) (l : Obj.eventLost ∈ O) (h : Keeps T O s x) :
    Keeps T O s (raise c ps x) := by
  unfold raise
  dsimp only
  split
  · exact keeps_ev m (fun k => k) h
  · split
    · rename_i k
      exact keeps_ev m (fun q => ⟨q.1, by simp only [List.length_append, List.length_cons, List.length_nil]; omega⟩) h
    · exact keeps_bump l h
theorem keeps_forEach {α : Type} {l : List α} {f : α → State → State} (hf : ∀ a y, Keeps T O s y → Keeps T O s (f a y)) :
    ∀ {x : State}, Keeps T O s x → Keeps T O s (forEach l f x) := by
  induction l with
  | nil => exact fun h => h
  | cons a l ih => exact fun h => ih (hf a _ h)
theorem keeps_foldl {α : Type} {l : List α} {f : State → α → State} (hf : ∀ a y, Keeps T O s y → Keeps T O s (f y a)) :
    ∀ {x : State}, Keeps T O s x → Keeps T O s (l.foldl f x) := by
  induction l with
  | nil => exact fun h => h
  | cons a l ih => exact fun h => ih (hf a _ h)
theorem keeps_foldl_pair {α β : Type} {f : α × State → β → α × State} (hf : ∀ x b, Keeps T O x.2 (f x b).2) :
    ∀ (l : List β) (x : α × State), Keeps T O x.2 (l.foldl f x).2
  | [], x => Keeps.refl _ _ x.2
  | b :: l, x => (hf x b).trans (keeps_foldl_pair hf l (f x b))
theorem keeps_whenB {c : Bool} {f : State → State} (hf : ∀ y, Keeps T O s y → Keeps T O s (f y)) (h : Keeps T O s x) :
    Keeps T O s (whenB c f x) := by
  unfold whenB; split
  · exact hf x h
  · exact h
theorem keeps_ite {c : Prop} {_ : Decidable c} {y : State} (h : Keeps T O s x) (k : Keeps T O s y) :
    Keeps T O s (if c then x else y) := by split <;> assumption

/-- An update of several fields at once. -/
theorem keeps_mk {d : Dict} {p : Pwr} {q : List Instr} {vclock : Clock} {vptp : Ptp} {vtrigs : Vector TrigUnit 16} {vflash : Flash} {vev : Events} {vmem : Vector MemUnit 8} {vrepairs : List Repair} {vring : Ring} {vhost : HostPort} {vlanes : Vector Lane 48} {vbond : Bond} {vrfe : Rfe} {vpages : List Page} {vcodec : Codec} {vfabric : Fabric} {vnt : Nt} {vfire : Fire} {vlinks : Vector Link 32} {vencs : Vector EncUnit 2} {vpos : Pos} {vhare : Hare} {vaxes : Vector AxisUnit 2} {vaux : Aux} {vcmps : Vector CmpUnit 8} {vinsp : Inspect} {vcal : Cal} {vhpc : Hpc} {vxing : Vector Xing 16} {vsent : List Sent} {vfree : Nat}
    (hq : q = x.pending) (ht : vclock.tick = x.clock.tick) (he : x.sent <+: vsent) (hx : Sound x → memsCanonical vmem ∧ valuesRise d ∧ eventsFit vev) (ha : d.active = x.dict.active) (hg : p.grade = x.pwr.grade) (hs : p.strap = x.pwr.strap)
    (h : Keeps T O s x)
    (hd : d = { x.dict with active := d.active } ∨ .dict ∈ T := by first | exact .inl rfl | exact .inr (by decide))
    (hp : p = { x.pwr with up := p.up, ready := p.ready } ∨ .pwr ∈ T := by first | exact .inl rfl | exact .inr (by decide))
    (hu : p.up = x.pwr.up ∨ .up ∈ T := by first | exact .inl rfl | exact .inr (by decide))
    (hr : p.ready = x.pwr.ready ∨ .ev ∈ T := by first | exact .inl rfl | exact .inr (by decide))
    (hclock' : vclock = x.clock ∨ .clock ∈ T := by first | exact .inl rfl | exact .inr (by decide))
    (hptp' : vptp = x.ptp ∨ .ptp ∈ T := by first | exact .inl rfl | exact .inr (by decide))
    (htrigs' : vtrigs = x.trigs ∨ .trigs ∈ T := by first | exact .inl rfl | exact .inr (by decide))
    (hflash' : vflash = x.flash ∨ .flash ∈ T := by first | exact .inl rfl | exact .inr (by decide))
    (hev' : vev = x.ev ∨ .ev ∈ T := by first | exact .inl rfl | exact .inr (by decide))
    (hmem' : vmem = x.mem ∨ .mem ∈ T := by first | exact .inl rfl | exact .inr (by decide))
    (hrepairs' : vrepairs = x.repairs ∨ .repairs ∈ T := by first | exact .inl rfl | exact .inr (by decide))
    (hring' : vring = x.ring ∨ .ring ∈ T := by first | exact .inl rfl | exact .inr (by decide))
    (hhost' : vhost = x.host ∨ .host ∈ T := by first | exact .inl rfl | exact .inr (by decide))
    (hlanes' : vlanes = x.lanes ∨ .lanes ∈ T := by first | exact .inl rfl | exact .inr (by decide))
    (hbond' : vbond = x.bond ∨ .bond ∈ T := by first | exact .inl rfl | exact .inr (by decide))
    (hrfe' : vrfe = x.rfe ∨ .rfe ∈ T := by first | exact .inl rfl | exact .inr (by decide))
    (hpages' : vpages = x.pages ∨ .pages ∈ T := by first | exact .inl rfl | exact .inr (by decide))
    (hcodec' : vcodec = x.codec ∨ .codec ∈ T := by first | exact .inl rfl | exact .inr (by decide))
    (hfabric' : vfabric = x.fabric ∨ .fabric ∈ T := by first | exact .inl rfl | exact .inr (by decide))
    (hnt' : vnt = x.nt ∨ .nt ∈ T := by first | exact .inl rfl | exact .inr (by decide))
    (hfire' : vfire = x.fire ∨ .fire ∈ T := by first | exact .inl rfl | exact .inr (by decide))
    (hlinks' : vlinks = x.links ∨ .links ∈ T := by first | exact .inl rfl | exact .inr (by decide))
    (hencs' : vencs = x.encs ∨ .encs ∈ T := by first | exact .inl rfl | exact .inr (by decide))
    (hpos' : vpos = x.pos ∨ .pos ∈ T := by first | exact .inl rfl | exact .inr (by decide))
    (hhare' : vhare = x.hare ∨ .hare ∈ T := by first | exact .inl rfl | exact .inr (by decide))
    (haxes' : vaxes = x.axes ∨ .axes ∈ T := by first | exact .inl rfl | exact .inr (by decide))
    (haux' : vaux = x.aux ∨ .aux ∈ T := by first | exact .inl rfl | exact .inr (by decide))
    (hcmps' : vcmps = x.cmps ∨ .cmps ∈ T := by first | exact .inl rfl | exact .inr (by decide))
    (hinsp' : vinsp = x.insp ∨ .insp ∈ T := by first | exact .inl rfl | exact .inr (by decide))
    (hcal' : vcal = x.cal ∨ .cal ∈ T := by first | exact .inl rfl | exact .inr (by decide))
    (hhpc' : vhpc = x.hpc ∨ .hpc ∈ T := by first | exact .inl rfl | exact .inr (by decide))
    (hxing' : vxing = x.xing ∨ .xing ∈ T := by first | exact .inl rfl | exact .inr (by decide))
    (hsent' : vsent = x.sent ∨ .sent ∈ T := by first | exact .inl rfl | exact .inr (by decide))
    (hfree' : vfree = x.free ∨ .free ∈ T := by first | exact .inl rfl | exact .inr (by decide))
    : Keeps T O s ⟨vclock, vptp, vtrigs, p, vflash, d, vev, vmem, vrepairs, vring, vhost, vlanes, vbond, vrfe, vpages, vcodec, vfabric, vnt, vfire, vlinks, vencs, vpos, vhare, vaxes, vaux, vcmps, vinsp, vcal, vhpc, vxing, vsent, vfree, q⟩ := by
  refine Keeps.same (x := x) ha hg hs (fun a m => ?_) hx he ht h
  cases a
  · exact hclock'.resolve_right m
  · exact hptp'.resolve_right m
  · exact htrigs'.resolve_right m
  · exact hp.resolve_right m
  · exact hflash'.resolve_right m
  · exact hd.resolve_right m
  · exact ⟨hev'.resolve_right m, hr.resolve_right m⟩
  · exact hmem'.resolve_right m
  · exact hrepairs'.resolve_right m
  · exact hring'.resolve_right m
  · exact hhost'.resolve_right m
  · exact hlanes'.resolve_right m
  · exact hbond'.resolve_right m
  · exact hrfe'.resolve_right m
  · exact hpages'.resolve_right m
  · exact hcodec'.resolve_right m
  · exact hfabric'.resolve_right m
  · exact hnt'.resolve_right m
  · exact hfire'.resolve_right m
  · exact hlinks'.resolve_right m
  · exact hencs'.resolve_right m
  · exact hpos'.resolve_right m
  · exact hhare'.resolve_right m
  · exact haxes'.resolve_right m
  · exact haux'.resolve_right m
  · exact hcmps'.resolve_right m
  · exact hinsp'.resolve_right m
  · exact hcal'.resolve_right m
  · exact hhpc'.resolve_right m
  · exact hxing'.resolve_right m
  · exact hsent'.resolve_right m
  · exact hfree'.resolve_right m
  · exact hq
  · exact hu.resolve_right m
  · trivial

end

/-- Every group but the queue of commands. -/
def everyArea : List Area := [.clock, .ptp, .trigs, .pwr, .flash, .dict, .ev, .mem, .repairs, .ring, .host, .lanes, .bond, .rfe, .pages, .codec, .fabric, .nt, .fire, .links, .encs, .pos, .hare, .axes, .aux, .cmps, .insp, .cal, .hpc, .xing, .sent, .free, .up, .values]

section
variable {T : List Area} {O : List Nat} {s x u : State}

/-- What holds of the queue of commands, of soundness and of what has left, the rest aside. -/
theorem Keeps.all (k : Keeps T O s u) (hp : .pending ∉ T := by decide) : Keeps everyArea [] s u :=
  ⟨fun a ha => by cases a <;> first | exact k.areas .pending hp | exact absurd (by decide) ha, fun h => absurd (by decide) h,
    k.sound, k.sent, k.tick⟩
theorem Keeps.then_all (k : Keeps T O x u) (h : Keeps everyArea [] s x) (hp : .pending ∉ T := by decide) :
    Keeps everyArea [] s u := h.trans (k.all hp)
theorem Sound.parts (h : Sound x) : memsCanonical x.mem ∧ valuesRise x.dict ∧ eventsFit x.ev := h
theorem keeps_mk_all {vd : Dict} {vp : Pwr} {q : List Instr} {vclock : Clock} {vptp : Ptp} {vtrigs : Vector TrigUnit 16} {vflash : Flash} {vev : Events} {vmem : Vector MemUnit 8} {vrepairs : List Repair} {vring : Ring} {vhost : HostPort} {vlanes : Vector Lane 48} {vbond : Bond} {vrfe : Rfe} {vpages : List Page} {vcodec : Codec} {vfabric : Fabric} {vnt : Nt} {vfire : Fire} {vlinks : Vector Link 32} {vencs : Vector EncUnit 2} {vpos : Pos} {vhare : Hare} {vaxes : Vector AxisUnit 2} {vaux : Aux} {vcmps : Vector CmpUnit 8} {vinsp : Inspect} {vcal : Cal} {vhpc : Hpc} {vxing : Vector Xing 16} {vsent : List Sent} {vfree : Nat}
    (hq : q = x.pending) (ht : vclock.tick = x.clock.tick) (he : x.sent <+: vsent) (hx : Sound x → memsCanonical vmem ∧ valuesRise vd ∧ eventsFit vev)
    (h : Keeps everyArea [] s x) : Keeps everyArea [] s ⟨vclock, vptp, vtrigs, vp, vflash, vd, vev, vmem, vrepairs, vring, vhost, vlanes, vbond, vrfe, vpages, vcodec, vfabric, vnt, vfire, vlinks, vencs, vpos, vhare, vaxes, vaux, vcmps, vinsp, vcal, vhpc, vxing, vsent, vfree, q⟩ :=
  h.trans ⟨fun a ha => by cases a <;> first | exact hq | exact absurd (by decide) ha, fun h => absurd (by decide) h, hx, he, ht⟩
theorem reset_mems : memsCanonical State.reset.mem := fun m => by
  simp only [State.reset, Vector.getElem_replicate]
  rfl
theorem reset_values : valuesRise State.reset.dict := ⟨rfl, rfl⟩
theorem reset_events : eventsFit State.reset.ev := ⟨by decide, by decide⟩
theorem raise_all {c : Nat} {ps : List Word} (h : Keeps everyArea [] s x) : Keeps everyArea [] s (raise c ps x) :=
  (keeps_raise (T := [.ev]) (O := [Obj.eventLost]) (by decide) (by decide) (Keeps.refl _ _ _)).then_all h
theorem bump_all {id i n : Nat} (h : Keeps everyArea [] s x) : Keeps everyArea [] s (bump id i n x) := keeps_setN_any (by decide) h
theorem setI_all {id i : Nat} {n : Int} (h : Keeps everyArea [] s x) : Keeps everyArea [] s (setI id i n x) :=
  keeps_setE_any (by decide) h

end

end Sys2Proof.Machine
end

