-- ==== Sys2Proof/Laws/Ops.lean ====
section
/-! SUPPORT. What each operation of Machine/Ops.lean leaves alone: nothing but the groups and the objects named differs. -/

set_option Elab.async false
set_option linter.all false

namespace Sys2Proof.Machine

open Sys2Proof

set_option linter.tactic.unusedName false

theorem newEntry_keeps (e : Event) (s : State) (h : s.ev.queue.length < 256) :
    Keeps [.ev] [] s (newEntry e s) :=
  keeps_ev (by decide) (fun k => ⟨by simp only [List.length_append, List.length_cons, List.length_nil]; omega, k.2⟩) (Keeps.refl _ _ _)

theorem mergeNewest_keeps (s : State) : Keeps [.ev] [Obj.eventLost] s (mergeNewest s) := by
  unfold mergeNewest
  split
  · rename_i q hq
    refine keeps_ite (keeps_bump (by decide) (Keeps.refl _ _ _)) (keeps_ev (by decide) (fun k => ⟨?_, k.2⟩) (Keeps.refl _ _ _))
    have : s.ev.queue ≠ [] := fun e => by simp [e] at hq
    have := List.length_pos_iff.mpr this
    have k1 := k.1
    simp only [List.length_append, List.length_dropLast, List.length_cons, List.length_nil]
    omega
  · exact Keeps.refl _ _ _

theorem enqueueFull_keeps (e : Event) (s : State) : Keeps [.ev] [Obj.eventLost] s (enqueueFull e s) := by
  have K : ∀ {x : State} (e : Event), Keeps [.ev] [Obj.eventLost] s x →
      Keeps [.ev] [Obj.eventLost] s (if x.ev.queue.length < 256 then newEntry e x else bump Obj.eventLost 0 1 x) := by
    intro x e h
    split
    · rename_i k
      exact (newEntry_keeps e x k).step (by decide) (by decide) h
    · exact keeps_bump (by decide) h
  unfold enqueueFull
  refine keeps_ite (K e (Keeps.refl _ _ _)) ?_
  have h1 : Keeps [.ev] [Obj.eventLost] s (bump Obj.eventLost 0 1 s) := keeps_bump (by decide) (Keeps.refl _ _ _)
  exact keeps_ite h1 (K _ (keeps_ev (by decide) id h1))

theorem enqueue_keeps (s : State) (e : Event) :
    Keeps [.ev] [Obj.eventLost, Obj.eventMasked] s (enqueue s e) := by
  unfold enqueue
  refine keeps_ite (keeps_bump (by decide) (Keeps.refl _ _ _)) (keeps_ite ((mergeNewest_keeps ..).mono (by decide) (by decide)) ?_)
  split
  · have k : s.ev.queue.length < 256 := by omega
    have h : Keeps [.ev] [Obj.eventLost, Obj.eventMasked] s { s with ev := { s.ev with overflowed := false } } :=
      keeps_ev (by decide) id (Keeps.refl _ _ _)
    exact (newEntry_keeps e { s with ev := { s.ev with overflowed := false } } k).step (by decide) (by decide) h
  · exact (enqueueFull_keeps e s).mono (by decide) (by decide)

theorem queueRaised_keeps (s : State) :
    Keeps [.ev]
      [Obj.eventLost, Obj.eventMasked] s (queueRaised s) := by
  unfold queueRaised
  repeat' first
    | with_reducible assumption
    | with_reducible exact Keeps.refl _ _ _
    | (extract_lets +onlyGivenNames y
       refine have hy : Keeps [.ev] [Obj.eventLost, Obj.eventMasked] s y := ?_; ?_
       (unfold y; clear y)
       rotate_left
       clear_value y)
    | (extract_lets +onlyGivenNames y)
    | with_reducible refine (enqueue_keeps ..).step (by decide) (by decide) ?_
    | with_reducible refine keeps_foldl (fun _ _ _ => ?_) ?_
    | split
    | refine keeps_ev (by decide) (by first | exact id | exact fun h => ⟨h.1, by simp⟩ | exact fun h => ⟨by simpa using h.1, h.2⟩) ?_

theorem queueAon_keeps (s : State) :
    Keeps [.ev]
      [Obj.eventLost, Obj.eventMasked] s (queueAon s) := by
  unfold queueAon
  repeat' first
    | with_reducible assumption
    | with_reducible exact Keeps.refl _ _ _
    | (extract_lets +onlyGivenNames y
       refine have hy : Keeps [.ev] [Obj.eventLost, Obj.eventMasked] s y := ?_; ?_
       (unfold y; clear y)
       rotate_left
       clear_value y)
    | (extract_lets +onlyGivenNames y)
    | with_reducible refine (enqueue_keeps ..).step (by decide) (by decide) ?_
    | with_reducible refine keeps_foldl (fun _ _ _ => ?_) ?_
    | split
    | refine keeps_ev (by decide) (by first | exact id | exact fun h => ⟨h.1, by simp⟩ | exact fun h => ⟨by simpa using h.1, h.2⟩) ?_

theorem readyEvents_keeps (old new : Word) (bits : List Nat) (s : State) :
    Keeps [.ev]
      [Obj.eventLost] s (readyEvents old new bits s) := by
  unfold readyEvents
  repeat' first
    | with_reducible assumption
    | with_reducible exact Keeps.refl _ _ _
    | with_reducible refine keeps_raise (by decide) (by decide) ?_
    | with_reducible refine keeps_foldl (fun _ _ _ => ?_) ?_
    | with_reducible refine keeps_ite ?_ ?_
    | split

theorem settle_keeps (s : State) :
    Keeps [.ev]
      [Obj.eventLost, Obj.eventMasked] s (settle s) := by
  unfold settle
  repeat' first
    | with_reducible assumption
    | with_reducible exact Keeps.refl _ _ _
    | (extract_lets +onlyGivenNames y
       refine have hy : Keeps [.ev] [Obj.eventLost, Obj.eventMasked] s y := ?_; ?_
       (unfold y; clear y)
       rotate_left
       clear_value y)
    | (extract_lets +onlyGivenNames y)
    | with_reducible refine (queueAon_keeps ..).step (by decide) (by decide) ?_
    | with_reducible refine (readyEvents_keeps ..).step (by decide) (by decide) ?_
    | with_reducible refine keeps_ite ?_ ?_
    | split
    | refine keeps_ready (by decide) rfl ?_
    | refine keeps_ev (by decide) (by first | exact id | exact fun h => ⟨h.1, by simp⟩ | exact fun h => ⟨by simpa using h.1, h.2⟩) ?_

end Sys2Proof.Machine
end

