-- ==== Sys2Proof/Laws/Axes.lean ====
section
/-! SUPPORT. What each operation of Machine/Axes.lean leaves alone: nothing but the groups and the objects named differs. -/

set_option Elab.async false
set_option linter.all false

namespace Sys2Proof.Machine

open Sys2Proof

set_option linter.tactic.unusedName false

theorem hareCycle_keeps (s : State) :
    Keeps [.hare]
      [] s (hareCycle s) := by
  unfold hareCycle
  repeat' first
    | with_reducible assumption
    | with_reducible exact Keeps.refl _ _ _
    | (extract_lets +onlyGivenNames y
       refine have hy : Keeps [.hare] [] s y := ?_; ?_
       (unfold y; clear y)
       rotate_left
       clear_value y)
    | (extract_lets +onlyGivenNames y)
    | with_reducible refine keeps_ite ?_ ?_
    | split
    | refine keeps_hare (by decide) ?_

theorem hareCtrlDo_keeps (v : Word) (s : State) :
    Keeps [.hare]
      [Obj.hareCtrl] s (hareCtrlDo v s) := by
  unfold hareCtrlDo
  repeat' first
    | with_reducible assumption
    | with_reducible exact Keeps.refl _ _ _
    | (extract_lets +onlyGivenNames y
       refine have hy : Keeps [.hare] [Obj.hareCtrl] s y := ?_; ?_
       (unfold y; clear y)
       rotate_left
       clear_value y)
    | (extract_lets +onlyGivenNames y)
    | with_reducible refine keeps_setN (by decide) ?_
    | split
    | refine keeps_hare (by decide) ?_

theorem hareTrigger_keeps (s : State) :
    Keeps [.hare]
      [] s (hareTrigger s) := by
  unfold hareTrigger
  repeat' first
    | with_reducible assumption
    | with_reducible exact Keeps.refl _ _ _
    | with_reducible refine keeps_ite ?_ ?_
    | split
    | refine keeps_hare (by decide) ?_

theorem modAxis_keeps (a : Nat) (f : AxisUnit → AxisUnit) (s : State) :
    Keeps [.axes]
      [] s (modAxis a f s) := by
  unfold modAxis
  repeat' first
    | with_reducible assumption
    | with_reducible exact Keeps.refl _ _ _
    | split
    | refine keeps_axes (by decide) ?_

theorem auxReady_keeps (s : State) :
    Keeps [.up]
      [] s (auxReady s) := by
  unfold auxReady
  repeat' first
    | with_reducible assumption
    | with_reducible exact Keeps.refl _ _ _
    | with_reducible refine keeps_setUp (by decide) ?_
    | split

theorem startMove_keeps (a : Nat) (target : Int) (s : State) :
    Keeps [.ev, .axes]
      [Obj.axTarget, Obj.eventLost] s (startMove a target s) := by
  unfold startMove
  repeat' first
    | with_reducible assumption
    | with_reducible exact Keeps.refl _ _ _
    | (extract_lets +onlyGivenNames y
       refine have hy : Keeps [.ev, .axes] [Obj.axTarget, Obj.eventLost] s y := ?_; ?_
       (unfold y; clear y)
       rotate_left
       clear_value y)
    | (extract_lets +onlyGivenNames y)
    | with_reducible refine (modAxis_keeps ..).step (by decide) (by decide) ?_
    | with_reducible refine keeps_raise (by decide) (by decide) ?_
    | with_reducible refine keeps_setI (by decide) ?_
    | with_reducible refine keeps_ite ?_ ?_
    | split

theorem stopAxis_keeps (a : Nat) (s : State) :
    Keeps [.ev, .axes]
      [Obj.axTarget, Obj.eventLost] s (stopAxis a s) := by
  unfold stopAxis
  repeat' first
    | with_reducible assumption
    | with_reducible exact Keeps.refl _ _ _
    | (extract_lets +onlyGivenNames y
       refine have hy : Keeps [.ev, .axes] [Obj.axTarget, Obj.eventLost] s y := ?_; ?_
       (unfold y; clear y)
       rotate_left
       clear_value y)
    | (extract_lets +onlyGivenNames y)
    | with_reducible refine (modAxis_keeps ..).step (by decide) (by decide) ?_
    | with_reducible refine keeps_raise (by decide) (by decide) ?_
    | with_reducible refine keeps_setI (by decide) ?_
    | with_reducible refine keeps_ite ?_ ?_
    | split

theorem planAxis_keeps (a : Nat) (s : State) :
    Keeps [.ev, .axes]
      [Obj.axSetpoint, Obj.eventLost] s (planAxis a s) := by
  unfold planAxis
  repeat' first
    | with_reducible assumption
    | with_reducible exact Keeps.refl _ _ _
    | (extract_lets +onlyGivenNames y
       refine have hy : Keeps [.ev, .axes] [Obj.axSetpoint, Obj.eventLost] s y := ?_; ?_
       (unfold y; clear y)
       rotate_left
       clear_value y)
    | (extract_lets +onlyGivenNames y)
    | with_reducible refine (modAxis_keeps ..).step (by decide) (by decide) ?_
    | with_reducible refine keeps_raise (by decide) (by decide) ?_
    | with_reducible refine keeps_setI (by decide) ?_
    | with_reducible refine keeps_ite ?_ ?_
    | split

theorem axisCycle_keeps (a : Nat) (s : State) :
    Keeps [.ev, .axes]
      [Obj.axDecelNow, Obj.axSetpoint, Obj.eventLost] s (axisCycle a s) := by
  unfold axisCycle
  repeat' first
    | with_reducible assumption
    | with_reducible exact Keeps.refl _ _ _
    | (extract_lets +onlyGivenNames y
       refine have hy : Keeps [.ev, .axes] [Obj.axDecelNow, Obj.axSetpoint, Obj.eventLost] s y := ?_; ?_
       (unfold y; clear y)
       rotate_left
       clear_value y)
    | (extract_lets +onlyGivenNames y)
    | with_reducible refine (modAxis_keeps ..).step (by decide) (by decide) ?_
    | with_reducible refine (planAxis_keeps ..).step (by decide) (by decide) ?_
    | with_reducible refine keeps_setN (by decide) ?_
    | with_reducible refine keeps_setI (by decide) ?_
    | with_reducible refine keeps_ite ?_ ?_
    | split

theorem axDecelDo_keeps (a d : Nat) (s : State) :
    Keeps [.ev, .axes]
      [Obj.axDecel, Obj.eventLost] s (axDecelDo a d s) := by
  unfold axDecelDo
  repeat' first
    | with_reducible assumption
    | with_reducible exact Keeps.refl _ _ _
    | (extract_lets +onlyGivenNames y
       refine have hy : Keeps [.ev, .axes] [Obj.axDecel, Obj.eventLost] s y := ?_; ?_
       (unfold y; clear y)
       rotate_left
       clear_value y)
    | (extract_lets +onlyGivenNames y)
    | with_reducible refine (modAxis_keeps ..).step (by decide) (by decide) ?_
    | with_reducible refine keeps_raise (by decide) (by decide) ?_
    | with_reducible refine keeps_setN (by decide) ?_
    | with_reducible refine keeps_ite ?_ ?_
    | split

theorem axCtrlDo_keeps (a : Nat) (v : Word) (s : State) :
    Keeps [.ev, .axes]
      [Obj.axCtrl, Obj.axTarget, Obj.eventLost] s (axCtrlDo a v s) := by
  unfold axCtrlDo
  repeat' first
    | with_reducible assumption
    | with_reducible exact Keeps.refl _ _ _
    | (extract_lets +onlyGivenNames y
       refine have hy : Keeps [.ev, .axes] [Obj.axCtrl, Obj.axTarget, Obj.eventLost] s y := ?_; ?_
       (unfold y; clear y)
       rotate_left
       clear_value y)
    | (extract_lets +onlyGivenNames y)
    | with_reducible refine (stopAxis_keeps ..).step (by decide) (by decide) ?_
    | with_reducible refine keeps_setN (by decide) ?_
    | with_reducible refine keeps_ite ?_ ?_
    | split

theorem auxFaultNow_keeps (cause seq : Nat) (s : State) :
    Keeps [.ev, .axes, .up]
      [Obj.auxState, Obj.axTarget, Obj.eventLost] s (auxFaultNow cause seq s) := by
  unfold auxFaultNow
  repeat' first
    | with_reducible assumption
    | with_reducible exact Keeps.refl _ _ _
    | (extract_lets +onlyGivenNames y
       refine have hy : Keeps [.ev, .axes, .up] [Obj.auxState, Obj.axTarget, Obj.eventLost] s y := ?_; ?_
       (unfold y; clear y)
       rotate_left
       clear_value y)
    | (extract_lets +onlyGivenNames y)
    | with_reducible refine (auxReady_keeps ..).step (by decide) (by decide) ?_
    | with_reducible refine (stopAxis_keeps ..).step (by decide) (by decide) ?_
    | with_reducible refine keeps_raise (by decide) (by decide) ?_
    | with_reducible refine keeps_setN (by decide) ?_
    | with_reducible refine keeps_forEach (fun _ _ _ => ?_) ?_
    | with_reducible refine keeps_ite ?_ ?_
    | split

theorem auxBad_keeps (cause seq : Nat) (s : State) :
    Keeps [.ev, .axes, .aux, .up]
      [Obj.auxBadReplies, Obj.auxState, Obj.axTarget, Obj.eventLost] s (auxBad cause seq s) := by
  unfold auxBad
  repeat' first
    | with_reducible assumption
    | with_reducible exact Keeps.refl _ _ _
    | (extract_lets +onlyGivenNames y
       refine have hy : Keeps [.ev, .axes, .aux, .up] [Obj.auxBadReplies, Obj.auxState, Obj.axTarget, Obj.eventLost] s y := ?_; ?_
       (unfold y; clear y)
       rotate_left
       clear_value y)
    | (extract_lets +onlyGivenNames y)
    | with_reducible refine (auxFaultNow_keeps ..).step (by decide) (by decide) ?_
    | with_reducible refine keeps_bump (by decide) ?_
    | with_reducible refine keeps_ite ?_ ?_
    | split
    | refine keeps_aux (by decide) ?_

theorem auxSend_keeps (s : State) :
    Keeps [.aux, .sent]
      [] s (auxSend s) := by
  unfold auxSend
  repeat' first
    | with_reducible assumption
    | with_reducible exact Keeps.refl _ _ _
    | (extract_lets +onlyGivenNames y
       refine have hy : Keeps [.aux, .sent] [] s y := ?_; ?_
       (unfold y; clear y)
       rotate_left
       clear_value y)
    | (extract_lets +onlyGivenNames y)
    | with_reducible refine keeps_emit' (by decide) ?_
    | with_reducible refine keeps_ite ?_ ?_
    | split
    | refine keeps_aux (by decide) ?_

theorem auxReplyTake_keeps (bs : List Byte) (s : State) :
    Keeps [.ev, .axes, .aux, .up]
      [Obj.auxBadReplies, Obj.auxState, Obj.axActual, Obj.axTarget, Obj.eventLost] s (auxReplyTake bs s) := by
  unfold auxReplyTake
  repeat' first
    | with_reducible assumption
    | with_reducible exact Keeps.refl _ _ _
    | (extract_lets +onlyGivenNames y
       refine have hy : Keeps [.ev, .axes, .aux, .up] [Obj.auxBadReplies, Obj.auxState, Obj.axActual, Obj.axTarget, Obj.eventLost] s y := ?_; ?_
       (unfold y; clear y)
       rotate_left
       clear_value y)
    | (extract_lets +onlyGivenNames y)
    | with_reducible refine (modAxis_keeps ..).step (by decide) (by decide) ?_
    | with_reducible refine (auxReady_keeps ..).step (by decide) (by decide) ?_
    | with_reducible refine (auxFaultNow_keeps ..).step (by decide) (by decide) ?_
    | with_reducible refine (auxBad_keeps ..).step (by decide) (by decide) ?_
    | with_reducible refine keeps_setI (by decide) ?_
    | with_reducible refine keeps_forEach (fun _ _ _ => ?_) ?_
    | with_reducible refine keeps_ite ?_ ?_
    | split
    | refine keeps_aux (by decide) ?_

theorem auxCfgDo_keeps (v : Word) (s : State) :
    Keeps [.aux, .up]
      [Obj.auxCfg] s (auxCfgDo v s) := by
  unfold auxCfgDo
  repeat' first
    | with_reducible assumption
    | with_reducible exact Keeps.refl _ _ _
    | (extract_lets +onlyGivenNames y
       refine have hy : Keeps [.aux, .up] [Obj.auxCfg] s y := ?_; ?_
       (unfold y; clear y)
       rotate_left
       clear_value y)
    | (extract_lets +onlyGivenNames y)
    | with_reducible refine (auxReady_keeps ..).step (by decide) (by decide) ?_
    | with_reducible refine keeps_setN (by decide) ?_
    | with_reducible refine keeps_ite ?_ ?_
    | split
    | refine keeps_aux (by decide) ?_

theorem auxClearDo_keeps (s : State) :
    Keeps [.up]
      [Obj.auxState] s (auxClearDo s) := by
  unfold auxClearDo
  repeat' first
    | with_reducible assumption
    | with_reducible exact Keeps.refl _ _ _
    | with_reducible refine (auxReady_keeps ..).step (by decide) (by decide) ?_
    | with_reducible refine keeps_setN (by decide) ?_
    | split

end Sys2Proof.Machine
end

