-- ==== Sys2Proof/Laws/Season.lean ====
section
/-! SUPPORT. What each operation of Machine/Season.lean leaves alone: nothing but the groups and the objects named differs. -/

set_option Elab.async false
set_option linter.all false

namespace Sys2Proof.Machine

open Sys2Proof

set_option linter.tactic.unusedName false

theorem setBoot_keeps (hi lo v : Nat) (s : State) :
    Keeps []
      [Obj.bootStatus] s (setBoot hi lo v s) := by
  unfold setBoot
  repeat' first
    | with_reducible assumption
    | with_reducible exact Keeps.refl _ _ _
    | with_reducible refine keeps_setN (by decide) ?_
    | split

theorem seasonTo_keeps (x : Season) (s : State) :
    Keeps [.pwr, .ev]
      [Obj.eventLost] s (seasonTo x s) := by
  unfold seasonTo
  repeat' first
    | with_reducible assumption
    | with_reducible exact Keeps.refl _ _ _
    | with_reducible refine keeps_raise (by decide) (by decide) ?_
    | with_reducible refine keeps_ite ?_ ?_
    | split
    | refine keeps_pwr (by decide) (.inl rfl) (.inr (by decide)) rfl rfl ?_

theorem saveStart_keeps (s : State) :
    Keeps [.flash]
      [Obj.save] s (saveStart s) := by
  unfold saveStart
  repeat' first
    | with_reducible assumption
    | with_reducible exact Keeps.refl _ _ _
    | with_reducible refine keeps_setN (by decide) ?_
    | split
    | refine keeps_flash (by decide) ?_

theorem saveFail_keeps (s : State) :
    Keeps [.flash]
      [Obj.bootStatus, Obj.save] s (saveFail s) := by
  unfold saveFail
  repeat' first
    | with_reducible assumption
    | with_reducible exact Keeps.refl _ _ _
    | with_reducible refine (setBoot_keeps ..).step (by decide) (by decide) ?_
    | with_reducible refine keeps_setN (by decide) ?_
    | split
    | refine keeps_flash (by decide) ?_

theorem saveAbandon_keeps (s : State) :
    Keeps [.flash]
      [Obj.bootStatus, Obj.save] s (saveAbandon s) := by
  unfold saveAbandon
  repeat' first
    | with_reducible assumption
    | with_reducible exact Keeps.refl _ _ _
    | with_reducible refine (saveFail_keeps ..).step (by decide) (by decide) ?_
    | with_reducible refine keeps_ite ?_ ?_
    | split

theorem runAbandoned_keeps (r : CalReq) (s : State) :
    Keeps []
      [Obj.adcCal, Obj.delayCal, Obj.selftestResult] s (runAbandoned r s) := by
  unfold runAbandoned
  repeat' first
    | with_reducible assumption
    | with_reducible exact Keeps.refl _ _ _
    | with_reducible refine keeps_setN (by decide) ?_
    | with_reducible refine keeps_ite ?_ ?_
    | split

theorem calDrop_keeps (s : State) :
    Keeps [.ev, .cal]
      [Obj.adcCal, Obj.delayCal, Obj.eventLost, Obj.selftestResult] s (calDrop s) := by
  unfold calDrop
  repeat' first
    | with_reducible assumption
    | with_reducible exact Keeps.refl _ _ _
    | (extract_lets +onlyGivenNames y
       refine have hy : Keeps [.ev, .cal] [Obj.adcCal, Obj.delayCal, Obj.eventLost, Obj.selftestResult] s y := ?_; ?_
       (unfold y; clear y)
       rotate_left
       clear_value y)
    | (extract_lets +onlyGivenNames y)
    | with_reducible refine (runAbandoned_keeps ..).step (by decide) (by decide) ?_
    | with_reducible refine keeps_raise (by decide) (by decide) ?_
    | with_reducible refine keeps_forEach (fun _ _ _ => ?_) ?_
    | split
    | refine keeps_cal (by decide) ?_

theorem freshMotion_keeps (s : State) :
    Keeps [.encs, .pos, .hare, .axes]
      [] s (freshMotion s) := by
  unfold freshMotion
  repeat' first
    | with_reducible assumption
    | with_reducible exact Keeps.refl _ _ _
    | (extract_lets +onlyGivenNames y)
    | with_reducible refine keeps_ite ?_ ?_
    | split
    | refine keeps_mk rfl rfl List.prefix_rfl id rfl rfl rfl ?_
    | refine keeps_encs (by decide) ?_
    | refine keeps_pos (by decide) ?_
    | refine keeps_hare (by decide) ?_
    | refine keeps_axes (by decide) ?_

theorem keepQueue_keeps (s : State) : Keeps [.ev] [Obj.eventLost, Obj.eventMasked] s (keepQueue s) := by
  unfold keepQueue
  exact keeps_ev (by decide) (fun h => ⟨by simpa using h.1, h.2⟩) (queueRaised_keeps s)

theorem thawPwr_keeps (kept : Bool) (s : State) :
    Keeps [.pwr, .ev, .up]
      [] s (thawPwr kept s) := by
  unfold thawPwr
  repeat' first
    | with_reducible assumption
    | with_reducible exact Keeps.refl _ _ _
    | split
    | refine keeps_pwr (by decide) (.inr (by decide)) (.inr (by decide)) rfl rfl ?_
    | refine keeps_ev (by decide) (by first | exact id | exact fun h => ⟨h.1, by simp⟩ | exact fun h => ⟨by simpa using h.1, h.2⟩) ?_
    | refine keeps_up (by decide) rfl ?_

theorem dropReady_keeps (s : State) :
    Keeps [.ev, .up]
      [Obj.eventLost, Obj.eventMasked] s (dropReady s) := by
  unfold dropReady
  repeat' first
    | with_reducible assumption
    | with_reducible exact Keeps.refl _ _ _
    | with_reducible refine (settle_keeps ..).step (by decide) (by decide) ?_
    | split
    | refine keeps_up (by decide) rfl ?_

theorem capMove_keeps (a : Nat) (s : State) :
    Keeps [.ev, .axes]
      [Obj.axTarget, Obj.eventLost] s (capMove a s) := by
  unfold capMove
  repeat' first
    | with_reducible assumption
    | with_reducible exact Keeps.refl _ _ _
    | with_reducible refine (startMove_keeps ..).step (by decide) (by decide) ?_
    | split

theorem wakeRun_keeps (port : RingPort) (s : State) :
    Keeps [.pwr, .ring, .sent]
      [] s (wakeRun port s) := by
  unfold wakeRun
  repeat' first
    | with_reducible assumption
    | with_reducible exact Keeps.refl _ _ _
    | (extract_lets +onlyGivenNames y
       refine have hy : Keeps [.pwr, .ring, .sent] [] s y := ?_; ?_
       (unfold y; clear y)
       rotate_left
       clear_value y)
    | (extract_lets +onlyGivenNames y)
    | with_reducible refine keeps_emit' (by decide) ?_
    | with_reducible refine keeps_ite ?_ ?_
    | split
    | refine keeps_pwr (by decide) (.inl rfl) (.inl rfl) rfl rfl ?_
    | refine keeps_ring (by decide) ?_

end Sys2Proof.Machine
end

