-- ==== Sys2Proof/Laws/Exec.lean ====
section
/-! SUPPORT. What every command does around its own effect: time passes before it and READY follows after it. -/

set_option Elab.async false
set_option linter.all false

namespace Sys2Proof.Machine

open Sys2Proof

/-- READY after settling is what the functions report. -/
theorem readyEvents_ready (old new : Word) : ∀ (bits : List Nat) (s : State), (readyEvents old new bits s).pwr = s.pwr
  | [], _ => rfl
  | b :: bits, s => by
    have h : readyEvents old new (b :: bits) s = readyEvents old new bits (readyEvents old new [b] s) := rfl
    rw [h, readyEvents_ready old new bits]
    simp only [readyEvents, List.foldl]
    split
    · rfl
    · split <;> exact raise_pwr ..

theorem Keeps.pwr_eq {T : List Area} {O : List Nat} {s u : State} (h : Keeps T O s u) (hp : .pwr ∉ T) (hu : .up ∉ T) :
    u.pwr = { s.pwr with ready := u.pwr.ready } := by
  have a := h.areas .pwr hp
  have b := h.areas .up hu
  simp only [Area.same] at a b
  rw [a, b]

/-- Raising and queueing of events leave READY as it is. -/
theorem enqueue_pwr (s : State) (e : Event) : (enqueue s e).pwr = s.pwr := by
  unfold enqueue
  repeat' split
  all_goals first
    | rfl
    | (unfold mergeNewest; repeat' split) <;> rfl
    | (unfold enqueueFull; dsimp only; repeat' split) <;> rfl

theorem foldl_enqueue_pwr : ∀ (es : List Event) (s : State), (es.foldl enqueue s).pwr = s.pwr
  | [], _ => rfl
  | e :: es, s => by rw [List.foldl_cons, foldl_enqueue_pwr es, enqueue_pwr]

theorem queueAon_pwr (s : State) : (queueAon s).pwr = s.pwr := foldl_enqueue_pwr _ _
theorem queueRaised_pwr (s : State) : (queueRaised s).pwr = s.pwr := foldl_enqueue_pwr _ _

theorem settle_pwr (s : State) : (settle s).pwr = { s.pwr with ready := readyOf s } := by
  unfold settle
  dsimp only
  split
  · rename_i h
    rw [h]
  · rw [readyEvents_ready]
    split
    · rw [queueAon_pwr]
    · rfl

@[simp] theorem settle_ready (s : State) : (settle s).pwr.ready = readyOf s := by rw [settle_pwr]

/-- READY depends on the functions' own bits, rails, dirty objects and two objects. -/
theorem readyOf_congr {s u : State} (hp : u.pwr.up = s.pwr.up) (hr : u.pwr.railsOut = s.pwr.railsOut)
    (hb : u.dict.badObj = s.dict.badObj) (hf : getE u Obj.funcReset 0 = getE s Obj.funcReset 0)
    (hl : getE u Obj.ldsDemand 0 = getE s Obj.ldsDemand 0) : readyOf u = readyOf s := by
  have : ownUp u = ownUp s := by
    funext b
    unfold ownUp heldByObject
    rw [hp, hr, hb, getW_congr hf, getN_congr hl]
  simp only [readyOf, this]

theorem Keeps.readyOf_eq {T : List Area} {O : List Nat} {s u : State} (h : Keeps T O s u) (hp : .pwr ∉ T) (hu : .up ∉ T)
    (hd : .dict ∉ T) (hv : .values ∉ T) (hf : Obj.funcReset ∉ O) (hl : Obj.ldsDemand ∉ O) : readyOf u = readyOf s := by
  have a := h.areas .pwr hp
  have b := h.areas .up hu
  have d := h.areas .dict hd
  simp only [Area.same] at a b d
  exact readyOf_congr b (by rw [a]) (by rw [d]) (h.objs hv _ hf 0) (h.objs hv _ hl 0)

/-- After every command READY agrees with the functions. -/
theorem settle_agrees (s : State) : ReadyAgrees (settle s) := by
  unfold ReadyAgrees
  rw [settle_ready, (settle_keeps s).readyOf_eq (by decide) (by decide) (by decide) (by decide) (by decide) (by decide)]

/-- Where READY agrees, settling changes nothing. -/
theorem settle_of_agrees {s : State} (h : ReadyAgrees s) : settle s = s := by
  unfold settle
  dsimp only
  rw [if_pos h.symm]

@[simp] theorem settle_clock (s : State) : (settle s).clock = s.clock := (settle_keeps s).areas .clock (by decide)
@[simp] theorem settle_ptp (s : State) : (settle s).ptp = s.ptp := (settle_keeps s).areas .ptp (by decide)
@[simp] theorem settle_trigs (s : State) : (settle s).trigs = s.trigs := (settle_keeps s).areas .trigs (by decide)
@[simp] theorem settle_flash (s : State) : (settle s).flash = s.flash := (settle_keeps s).areas .flash (by decide)
@[simp] theorem settle_mem (s : State) : (settle s).mem = s.mem := (settle_keeps s).areas .mem (by decide)
@[simp] theorem settle_repairs (s : State) : (settle s).repairs = s.repairs := (settle_keeps s).areas .repairs (by decide)
@[simp] theorem settle_ring (s : State) : (settle s).ring = s.ring := (settle_keeps s).areas .ring (by decide)
@[simp] theorem settle_host (s : State) : (settle s).host = s.host := (settle_keeps s).areas .host (by decide)
@[simp] theorem settle_lanes (s : State) : (settle s).lanes = s.lanes := (settle_keeps s).areas .lanes (by decide)
@[simp] theorem settle_bond (s : State) : (settle s).bond = s.bond := (settle_keeps s).areas .bond (by decide)
@[simp] theorem settle_rfe (s : State) : (settle s).rfe = s.rfe := (settle_keeps s).areas .rfe (by decide)
@[simp] theorem settle_pages (s : State) : (settle s).pages = s.pages := (settle_keeps s).areas .pages (by decide)
@[simp] theorem settle_codec (s : State) : (settle s).codec = s.codec := (settle_keeps s).areas .codec (by decide)
@[simp] theorem settle_fabric (s : State) : (settle s).fabric = s.fabric := (settle_keeps s).areas .fabric (by decide)
@[simp] theorem settle_nt (s : State) : (settle s).nt = s.nt := (settle_keeps s).areas .nt (by decide)
@[simp] theorem settle_fire (s : State) : (settle s).fire = s.fire := (settle_keeps s).areas .fire (by decide)
@[simp] theorem settle_links (s : State) : (settle s).links = s.links := (settle_keeps s).areas .links (by decide)
@[simp] theorem settle_encs (s : State) : (settle s).encs = s.encs := (settle_keeps s).areas .encs (by decide)
@[simp] theorem settle_pos (s : State) : (settle s).pos = s.pos := (settle_keeps s).areas .pos (by decide)
@[simp] theorem settle_hare (s : State) : (settle s).hare = s.hare := (settle_keeps s).areas .hare (by decide)
@[simp] theorem settle_axes (s : State) : (settle s).axes = s.axes := (settle_keeps s).areas .axes (by decide)
@[simp] theorem settle_aux (s : State) : (settle s).aux = s.aux := (settle_keeps s).areas .aux (by decide)
@[simp] theorem settle_cmps (s : State) : (settle s).cmps = s.cmps := (settle_keeps s).areas .cmps (by decide)
@[simp] theorem settle_insp (s : State) : (settle s).insp = s.insp := (settle_keeps s).areas .insp (by decide)
@[simp] theorem settle_cal (s : State) : (settle s).cal = s.cal := (settle_keeps s).areas .cal (by decide)
@[simp] theorem settle_hpc (s : State) : (settle s).hpc = s.hpc := (settle_keeps s).areas .hpc (by decide)
@[simp] theorem settle_xing (s : State) : (settle s).xing = s.xing := (settle_keeps s).areas .xing (by decide)
@[simp] theorem settle_sent (s : State) : (settle s).sent = s.sent := (settle_keeps s).areas .sent (by decide)
@[simp] theorem settle_free (s : State) : (settle s).free = s.free := (settle_keeps s).areas .free (by decide)
@[simp] theorem settle_pending (s : State) : (settle s).pending = s.pending := (settle_keeps s).areas .pending (by decide)
theorem settle_dict (s : State) : (settle s).dict = { s.dict with active := (settle s).dict.active } :=
  (settle_keeps s).areas .dict (by decide)
@[simp] theorem getE_settle {id : Nat} (h : id ∉ countersOfEvents) (s : State) (i : Nat) : getE (settle s) id i = getE s id i :=
  (settle_keeps s).objs (by decide) id h i

/-- An effect that keeps all but T and O, as a command. -/
theorem Keeps.frame {T : List Area} {O : List Nat} {t : Nat} {s x : State} (h : Keeps T O (advance t s) x) :
    Frame t T O s (settle x) := by
  have hs := settle_keeps x
  refine ⟨fun m => ?_, fun m => ?_, fun m r => ?_, fun a m c u e => ?_, fun m id hid i => ?_⟩
  · rw [settle_clock]; exact h.areas .clock m
  · rw [settle_pwr]; exact h.areas .up m
  · have k := h.areas .ev m
    have r' : readyOf x = x.pwr.ready := by rw [← settle_ready, r]; exact k.2.symm
    rw [settle_of_agrees r'.symm]; exact k.1
  · refine Area.same_trans (t := x) ?_ (hs.areas a (by simpa using e))
    have k := h.areas a m
    cases a <;> first | exact k | exact absurd rfl c
  · simp only [List.mem_append, not_or] at hid
    rw [getE_settle hid.2]
    exact h.objs m id hid.1 i

/-- A command whose effect keeps all but T and O. -/
theorem leavesAlone_always {c : Instr} {T : List Area} {O : List Nat} {f : State → State}
    (hx : ∀ s, exec c s = happenAlways c.tick f s) (hf : ∀ s, Keeps T O s (f s)) : LeavesAlone c T O :=
  fun s => ⟨_, hx s, (hf _).frame⟩

theorem leavesAlone {c : Instr} {T : List Area} {O : List Nat} {f : State → State}
    (hx : ∀ s, exec c s = happen c.tick f s) (hf : ∀ s, Keeps T O s (f s)) : LeavesAlone c T O :=
  leavesAlone_always hx (fun s => by
    split
    · exact hf s
    · exact Keeps.refl _ _ _)

@[simp] theorem awake_advance (t : Nat) (s : State) : awake (advance t s) = awake s := rfl

/-- A command on a device that is awake. -/
theorem happen_awake {t : Nat} {f : State → State} {s : State} (h : awake s = true) :
    happen t f s = .next (settle (f (advance t s))) := by
  unfold happen happenAlways
  dsimp only
  rw [if_pos (by rw [awake_advance]; exact h)]

theorem answers_happen {c : Instr} {t : Nat} {f : State → State} {s : State} {P : State → Prop} (hx : exec c s = happen t f s)
    (h : awake s = true) (hp : P (settle (f (advance t s)))) : Answers c s P :=
  ⟨_, by rw [hx, happen_awake h], hp⟩

/-- What an effect raises is raised when the firmware runs. -/
theorem raises_raise {code : Nat} {ps : List Word} {s x : State} (hr : rdy x 25 = true)
    (hk : ∃ new, x.ev.raised = s.ev.raised ++ new) : Raises code ps s (raise code ps x) := by
  obtain ⟨new, hk⟩ := hk
  unfold Raises raise
  dsimp only
  rw [if_pos hr]
  refine ⟨new ++ [_], by rw [← List.append_assoc, ← hk], _, List.mem_append_right _ List.mem_cons_self, rfl, rfl, rfl⟩

/-- Whatever a happening does after the clock has advanced keeps what its effect keeps in every state. -/
theorem happenAlways_keeps {t : Nat} {f : State → State} {s u : State} (hf : ∀ s, Keeps everyArea [] s (f s))
    (h : happenAlways t f s = .next u) : Keeps everyArea [] (advance t s) u := by
  unfold happenAlways at h
  cases h
  exact (settle_keeps _).then_all (hf _)

theorem happen_keeps {t : Nat} {f : State → State} {s u : State} (hf : ∀ s, Keeps everyArea [] s (f s))
    (h : happen t f s = .next u) : Keeps everyArea [] (advance t s) u :=
  happenAlways_keeps (fun s => by
    split
    · exact hf s
    · exact Keeps.refl _ _ _) h

theorem advance_tick (t : Nat) (s : State) : (advance t s).clock.tick = max s.clock.tick t := by
  show s.clock.tick + (t - s.clock.tick) = _
  omega
@[simp] theorem advance_sound (t : Nat) (s : State) : Sound (advance t s) ↔ Sound s := Iff.rfl

/-- A wait for the bridges to be idle does nothing where step 1 is not under way, and so on. -/
theorem idleCheck_off {s : State} (h : s.pwr.autumn.step ≠ 1) : idleCheck s = s := by simp [idleCheck, h]
theorem capCheck_off {s : State} (h : s.pwr.autumn.step ≠ 2) : capCheck s = s := by simp [capCheck, h]
theorem codeCheck_off {s : State} (h : s.pwr.codeError = false) : codeCheck s = s := by simp [codeCheck, h]

/-- What keeps the power state keeps the wind-down and the wait for a restart. -/
theorem Keeps.autumn {T : List Area} {O : List Nat} {s x : State} (h : Keeps T O s x) (hp : .pwr ∉ T := by decide) :
    x.pwr.autumn = s.pwr.autumn := by
  have a := h.areas .pwr hp
  simp only [Area.same] at a
  rw [a]
theorem Keeps.code {T : List Area} {O : List Nat} {s x : State} (h : Keeps T O s x) (hp : .pwr ∉ T := by decide) :
    x.pwr.codeError = s.pwr.codeError := by
  have a := h.areas .pwr hp
  simp only [Area.same] at a
  rw [a]
theorem Keeps.season {T : List Area} {O : List Nat} {s x : State} (h : Keeps T O s x) (hp : .pwr ∉ T := by decide) :
    x.pwr.season = s.pwr.season := by
  have a := h.areas .pwr hp
  simp only [Area.same] at a
  rw [a]

/-- An effect followed by one of the checks of a wind-down, where none is under way. -/
theorem Keeps.idle {T : List Area} {O : List Nat} {s x : State} (h : Keeps T O s x) (hs : s.pwr.autumn.step ≠ 1)
    (hp : .pwr ∉ T := by decide) : Keeps T O s (idleCheck x) := by
  rw [idleCheck_off (by rw [h.autumn hp]; exact hs)]; exact h
theorem Keeps.cap {T : List Area} {O : List Nat} {s x : State} (h : Keeps T O s x) (hs : s.pwr.autumn.step ≠ 2)
    (hp : .pwr ∉ T := by decide) : Keeps T O s (capCheck x) := by
  rw [capCheck_off (by rw [h.autumn hp]; exact hs)]; exact h

/-- A command that leaves alone all but T and O in the states of some kind. -/
theorem frame_when {c : Instr} {T : List Area} {O : List Nat} {f : State → State} {s : State}
    (hx : exec c s = happen c.tick f s) (hf : Keeps T O (advance c.tick s) (f (advance c.tick s))) :
    Answers c s (Frame c.tick T O s) := by
  refine ⟨_, hx, Keeps.frame ?_⟩
  dsimp only
  split
  · exact hf
  · exact Keeps.refl _ _ _

end Sys2Proof.Machine
end

