-- ==== Sys2Proof/Laws/Access.lean ====
section
/-! SUPPORT. What each operation of Machine/Access.lean leaves alone: nothing but the groups and the objects named differs. -/

set_option Elab.async false
set_option linter.all false

namespace Sys2Proof.Machine

open Sys2Proof

set_option linter.tactic.unusedName false

theorem ringAsk_keeps (owner : Owner) (bcast : Option Nat) (slot : Nat) (q : Req) (s : State) :
    Keeps [.ring]
      [] s (ringAsk owner bcast slot q s) := by
  unfold ringAsk
  repeat' first
    | with_reducible assumption
    | with_reducible exact Keeps.refl _ _ _
    | split
    | refine keeps_ring (by decide) ?_

theorem sendDatagram_keeps (dst : BitVec 32) (port : Nat) (header : Word) (recs : List Word) (s : State) :
    Keeps [.sent]
      [] s (sendDatagram dst port header recs s) := by
  unfold sendDatagram
  repeat' first
    | with_reducible assumption
    | with_reducible exact Keeps.refl _ _ _
    | (extract_lets +onlyGivenNames y
       refine have hy : Keeps [.sent] [] s y := ?_; ?_
       (unfold y; clear y)
       rotate_left
       clear_value y)
    | (extract_lets +onlyGivenNames y)
    | with_reducible refine keeps_emit' (by decide) ?_
    | split

theorem addrFollow_keeps (d : Datagram) (s : State) :
    Keeps [.host]
      [] s (addrFollow d s) := by
  unfold addrFollow
  repeat' first
    | with_reducible assumption
    | with_reducible exact Keeps.refl _ _ _
    | with_reducible refine keeps_ite ?_ ?_
    | split
    | refine keeps_host (by decide) ?_

theorem datagramDone_keeps (d : Datagram) (s : State) :
    Keeps [.host, .sent]
      [] s (datagramDone d s) := by
  unfold datagramDone
  repeat' first
    | with_reducible assumption
    | with_reducible exact Keeps.refl _ _ _
    | with_reducible refine (sendDatagram_keeps ..).step (by decide) (by decide) ?_
    | with_reducible refine (addrFollow_keeps ..).step (by decide) (by decide) ?_
    | split

theorem fillRecord_keeps (src : BitVec 32) (port seq n : Nat) (ws : List Word) (s : State) :
    Keeps [.host, .sent]
      [] s (fillRecord src port seq n ws s) := by
  unfold fillRecord
  repeat' first
    | with_reducible assumption
    | with_reducible exact Keeps.refl _ _ _
    | (extract_lets +onlyGivenNames y
       refine have hy : Keeps [.host, .sent] [] s y := ?_; ?_
       (unfold y; clear y)
       rotate_left
       clear_value y)
    | (extract_lets +onlyGivenNames y)
    | with_reducible refine (datagramDone_keeps ..).step (by decide) (by decide) ?_
    | with_reducible refine keeps_ite ?_ ?_
    | split
    | refine keeps_host (by decide) ?_

theorem deliver_keeps (owner : Owner) (op : Nat) (ws : List Word) (s : State) :
    Keeps [.host, .sent]
      [] s (deliver owner op ws s) := by
  unfold deliver
  repeat' first
    | with_reducible assumption
    | with_reducible exact Keeps.refl _ _ _
    | with_reducible refine (fillRecord_keeps ..).step (by decide) (by decide) ?_
    | with_reducible refine keeps_emit' (by decide) ?_
    | with_reducible refine keeps_ite ?_ ?_
    | split

end Sys2Proof.Machine
end

