-- ==== Sys2Proof/Laws/Memory.lean ====
section
/-! SUPPORT. What each operation of Machine/Memory.lean leaves alone: nothing but the groups and the objects named differs. -/

set_option Elab.async false
set_option linter.all false

namespace Sys2Proof.Machine

open Sys2Proof

set_option linter.tactic.unusedName false

theorem modMem_keeps (m : Nat) (f : MemUnit → MemUnit) (s : State)
    (hf : ∀ u, Memory.wf m u.cells = true → Memory.wf m (f u).cells = true) : Keeps [.mem] [] s (modMem m f s) :=
  keeps_mem (by decide) (memsCanonical_vmod hf) (Keeps.refl _ _ _)

/-- A stored word set keeps the cells canonical. -/
theorem putCell_wf {m a : Nat} {v : Stored} {u : MemUnit} (h : Memory.wf m u.cells = true) :
    Memory.wf m (if a < memWords m then memWrite m u.cells a v else u.cells) = true := by
  split
  · exact memWrite_wf _ _ _ _ h
  · exact h

theorem putCell_keeps (m a : Nat) (v : Stored) (s : State) :
    Keeps [.mem]
      [] s (putCell m a v s) := by
  unfold putCell
  repeat' first
    | with_reducible assumption
    | with_reducible exact Keeps.refl _ _ _
    | with_reducible refine (modMem_keeps (hf := by exact fun _ h => h) ..).step (by decide) (by decide) ?_
    | with_reducible refine (modMem_keeps (hf := by exact fun _ h => putCell_wf h) ..).step (by decide) (by decide) ?_
    | with_reducible refine (modMem_keeps (hf := by exact fun _ _ => wf_nil _) ..).step (by decide) (by decide) ?_
    | with_reducible refine keeps_ite ?_ ?_
    | split

theorem tileFail_keeps (t cause : Nat) (s : State) :
    Keeps [.ev, .fabric, .up]
      [Obj.eventLost, Obj.tileFault, Obj.tileReady] s (tileFail t cause s) := by
  unfold tileFail
  repeat' first
    | with_reducible assumption
    | with_reducible exact Keeps.refl _ _ _
    | (extract_lets +onlyGivenNames y
       refine have hy : Keeps [.ev, .fabric, .up] [Obj.eventLost, Obj.tileFault, Obj.tileReady] s y := ?_; ?_
       (unfold y; clear y)
       rotate_left
       clear_value y)
    | (extract_lets +onlyGivenNames y)
    | with_reducible refine keeps_raise (by decide) (by decide) ?_
    | with_reducible refine keeps_setN (by decide) ?_
    | with_reducible refine keeps_setUp (by decide) ?_
    | split
    | refine keeps_fabric (by decide) ?_

theorem furtherAction_keeps (m a : Nat) (s : State) :
    Keeps [.pwr, .ev, .fabric, .up]
      [Obj.eventLost, Obj.tileFault, Obj.tileReady] s (furtherAction m a s) := by
  unfold furtherAction
  repeat' first
    | with_reducible assumption
    | with_reducible exact Keeps.refl _ _ _
    | with_reducible refine (tileFail_keeps ..).step (by decide) (by decide) ?_
    | with_reducible refine keeps_ite ?_ ?_
    | split
    | refine keeps_pwr (by decide) (.inr (by decide)) (.inr (by decide)) rfl rfl ?_

theorem hardError_keeps (m a : Nat) (s : State) :
    Keeps [.ev, .mem]
      [Obj.eventLost] s (hardError m a s) := by
  unfold hardError
  repeat' first
    | with_reducible assumption
    | with_reducible exact Keeps.refl _ _ _
    | (extract_lets +onlyGivenNames y
       refine have hy : Keeps [.ev, .mem] [Obj.eventLost] s y := ?_; ?_
       (unfold y; clear y)
       rotate_left
       clear_value y)
    | (extract_lets +onlyGivenNames y)
    | with_reducible refine (modMem_keeps (hf := by exact fun _ h => h) ..).step (by decide) (by decide) ?_
    | with_reducible refine (modMem_keeps (hf := by exact fun _ h => putCell_wf h) ..).step (by decide) (by decide) ?_
    | with_reducible refine (modMem_keeps (hf := by exact fun _ _ => wf_nil _) ..).step (by decide) (by decide) ?_
    | with_reducible refine keeps_raise (by decide) (by decide) ?_
    | with_reducible refine keeps_foldl (fun _ _ _ => ?_) ?_
    | with_reducible refine keeps_ite ?_ ?_
    | split

theorem countCorrected_keeps (m a : Nat) (s : State) :
    Keeps [.ev, .mem]
      [Obj.corrected, Obj.eventLost] s (countCorrected m a s) := by
  unfold countCorrected
  repeat' first
    | with_reducible assumption
    | with_reducible exact Keeps.refl _ _ _
    | (extract_lets +onlyGivenNames y
       refine have hy : Keeps [.ev, .mem] [Obj.corrected, Obj.eventLost] s y := ?_; ?_
       (unfold y; clear y)
       rotate_left
       clear_value y)
    | (extract_lets +onlyGivenNames y)
    | with_reducible refine (modMem_keeps (hf := by exact fun _ h => h) ..).step (by decide) (by decide) ?_
    | with_reducible refine (modMem_keeps (hf := by exact fun _ h => putCell_wf h) ..).step (by decide) (by decide) ?_
    | with_reducible refine (modMem_keeps (hf := by exact fun _ _ => wf_nil _) ..).step (by decide) (by decide) ?_
    | with_reducible refine (hardError_keeps ..).step (by decide) (by decide) ?_
    | with_reducible refine keeps_bump (by decide) ?_
    | with_reducible refine keeps_ite ?_ ?_
    | split

theorem noteWriteBack_keeps (m a : Nat) (s : State) :
    Keeps [.mem]
      [] s (noteWriteBack m a s) := by
  unfold noteWriteBack
  with_reducible refine (modMem_keeps (hf := by exact fun _ h => h) ..).step (by decide) (by decide) ?_
  with_reducible exact Keeps.refl _ _ _

theorem corrected_keeps (m a : Nat) (d : Word) (s : State) :
    Keeps [.ev, .mem]
      [Obj.corrected, Obj.eventLost, Obj.wbDropped] s (corrected m a d s) := by
  unfold corrected
  repeat' first
    | with_reducible assumption
    | with_reducible exact Keeps.refl _ _ _
    | (extract_lets +onlyGivenNames y
       refine have hy : Keeps [.ev, .mem] [Obj.corrected, Obj.eventLost, Obj.wbDropped] s y := ?_; ?_
       (unfold y; clear y)
       rotate_left
       clear_value y)
    | (extract_lets +onlyGivenNames y)
    | with_reducible refine (modMem_keeps (hf := by exact fun _ h => h) ..).step (by decide) (by decide) ?_
    | with_reducible refine (modMem_keeps (hf := by exact fun _ h => putCell_wf h) ..).step (by decide) (by decide) ?_
    | with_reducible refine (modMem_keeps (hf := by exact fun _ _ => wf_nil _) ..).step (by decide) (by decide) ?_
    | with_reducible refine (countCorrected_keeps ..).step (by decide) (by decide) ?_
    | with_reducible refine keeps_bump (by decide) ?_
    | with_reducible refine keeps_ite ?_ ?_
    | split

theorem poison_keeps (m a : Nat) (s : State) :
    Keeps [.mem]
      [] s (poison m a s) := by
  unfold poison
  repeat' first
    | with_reducible assumption
    | with_reducible exact Keeps.refl _ _ _
    | with_reducible refine (putCell_keeps ..).step (by decide) (by decide) ?_
    | split

theorem flipMask_keeps (m a : Nat) (s : State) :
    Keeps [.ev]
      [Obj.eventLost, Obj.flipCtrl] s (flipMask m a s).2 := by
  unfold flipMask
  repeat' first
    | with_reducible assumption
    | with_reducible exact Keeps.refl _ _ _
    | (extract_lets +onlyGivenNames y
       refine have hy : Keeps [.ev] [Obj.eventLost, Obj.flipCtrl] s y := ?_; ?_
       (unfold y; clear y)
       rotate_left
       clear_value y)
    | (extract_lets +onlyGivenNames y)
    | with_reducible refine keeps_raise (by decide) (by decide) ?_
    | with_reducible refine keeps_setN (by decide) ?_
    | with_reducible refine keeps_ite ?_ ?_
    | split

theorem dropWaiting_keeps (m a : Nat) (s : State) :
    Keeps [.mem]
      [] s (dropWaiting m a s) := by
  unfold dropWaiting
  repeat' first
    | with_reducible assumption
    | with_reducible exact Keeps.refl _ _ _
    | with_reducible refine (modMem_keeps (hf := by exact fun _ h => h) ..).step (by decide) (by decide) ?_
    | with_reducible refine (modMem_keeps (hf := by exact fun _ h => putCell_wf h) ..).step (by decide) (by decide) ?_
    | with_reducible refine (modMem_keeps (hf := by exact fun _ _ => wf_nil _) ..).step (by decide) (by decide) ?_
    | split

theorem userWrite_keeps (m a : Nat) (d : Word) (s : State) :
    Keeps [.ev, .mem]
      [Obj.eventLost, Obj.flipCtrl] s (userWrite m a d s) := by
  unfold userWrite
  repeat' first
    | with_reducible assumption
    | with_reducible exact Keeps.refl _ _ _
    | (extract_lets +onlyGivenNames y
       refine have hy : Keeps [.ev, .mem] [Obj.eventLost, Obj.flipCtrl] s y := ?_; ?_
       (unfold y; clear y)
       rotate_left
       clear_value y)
    | (extract_lets +onlyGivenNames y)
    | with_reducible refine (putCell_keeps ..).step (by decide) (by decide) ?_
    | with_reducible refine (flipMask_keeps ..).step (by decide) (by decide) ?_
    | with_reducible refine (dropWaiting_keeps ..).step (by decide) (by decide) ?_
    | split
    | refine keeps_of_eq (by assumption) ?_

theorem bufferWrite_keeps (m a : Nat) (d : Word) (s : State) :
    Keeps [.ev, .mem]
      [Obj.eventLost, Obj.flipCtrl] s (bufferWrite m a d s) := by
  unfold bufferWrite
  repeat' first
    | with_reducible assumption
    | with_reducible exact Keeps.refl _ _ _
    | (extract_lets +onlyGivenNames y
       refine have hy : Keeps [.ev, .mem] [Obj.eventLost, Obj.flipCtrl] s y := ?_; ?_
       (unfold y; clear y)
       rotate_left
       clear_value y)
    | (extract_lets +onlyGivenNames y)
    | with_reducible refine (putCell_keeps ..).step (by decide) (by decide) ?_
    | with_reducible refine (flipMask_keeps ..).step (by decide) (by decide) ?_
    | with_reducible refine (dropWaiting_keeps ..).step (by decide) (by decide) ?_
    | with_reducible refine keeps_ite ?_ ?_
    | split
    | refine keeps_of_eq (by assumption) ?_

theorem evictEntry_keeps (m : Nat) (e : MergeEntry) (s : State) :
    Keeps [.pwr, .ev, .mem, .fabric, .up]
      [Obj.corrected, Obj.eventLost, Obj.flipCtrl, Obj.tileFault, Obj.tileReady, Obj.uncorrectable, Obj.wbDropped] s (evictEntry m e s) := by
  unfold evictEntry
  repeat' first
    | with_reducible assumption
    | with_reducible exact Keeps.refl _ _ _
    | (extract_lets +onlyGivenNames y
       refine have hy : Keeps [.pwr, .ev, .mem, .fabric, .up] [Obj.corrected, Obj.eventLost, Obj.flipCtrl, Obj.tileFault, Obj.tileReady, Obj.uncorrectable, Obj.wbDropped] s y := ?_; ?_
       (unfold y; clear y)
       rotate_left
       clear_value y)
    | (extract_lets +onlyGivenNames y)
    | with_reducible refine (modMem_keeps (hf := by exact fun _ h => h) ..).step (by decide) (by decide) ?_
    | with_reducible refine (modMem_keeps (hf := by exact fun _ h => putCell_wf h) ..).step (by decide) (by decide) ?_
    | with_reducible refine (modMem_keeps (hf := by exact fun _ _ => wf_nil _) ..).step (by decide) (by decide) ?_
    | with_reducible refine (putCell_keeps ..).step (by decide) (by decide) ?_
    | with_reducible refine (furtherAction_keeps ..).step (by decide) (by decide) ?_
    | with_reducible refine (countCorrected_keeps ..).step (by decide) (by decide) ?_
    | with_reducible refine (noteWriteBack_keeps ..).step (by decide) (by decide) ?_
    | with_reducible refine (flipMask_keeps ..).step (by decide) (by decide) ?_
    | with_reducible refine keeps_raise (by decide) (by decide) ?_
    | with_reducible refine keeps_bump (by decide) ?_
    | with_reducible refine keeps_ite ?_ ?_
    | split
    | refine keeps_of_eq (by assumption) ?_

theorem evictAt_keeps (m a : Nat) (s : State) :
    Keeps [.pwr, .ev, .mem, .fabric, .up]
      [Obj.corrected, Obj.eventLost, Obj.flipCtrl, Obj.tileFault, Obj.tileReady, Obj.uncorrectable, Obj.wbDropped] s (evictAt m a s) := by
  unfold evictAt
  repeat' first
    | with_reducible assumption
    | with_reducible exact Keeps.refl _ _ _
    | with_reducible refine (evictEntry_keeps ..).step (by decide) (by decide) ?_
    | split

theorem narrowWrite_keeps (m a : Nat) (d : Word) (n : BitVec 4) (s : State) :
    Keeps [.pwr, .ev, .mem, .fabric, .up]
      [Obj.corrected, Obj.eventLost, Obj.flipCtrl, Obj.tileFault, Obj.tileReady, Obj.uncorrectable, Obj.wbDropped] s (narrowWrite m a d n s) := by
  unfold narrowWrite
  repeat' first
    | with_reducible assumption
    | with_reducible exact Keeps.refl _ _ _
    | (extract_lets +onlyGivenNames y
       refine have hy : Keeps [.pwr, .ev, .mem, .fabric, .up] [Obj.corrected, Obj.eventLost, Obj.flipCtrl, Obj.tileFault, Obj.tileReady, Obj.uncorrectable, Obj.wbDropped] s y := ?_; ?_
       (unfold y; clear y)
       rotate_left
       clear_value y)
    | (extract_lets +onlyGivenNames y)
    | with_reducible refine (modMem_keeps (hf := by exact fun _ h => h) ..).step (by decide) (by decide) ?_
    | with_reducible refine (modMem_keeps (hf := by exact fun _ h => putCell_wf h) ..).step (by decide) (by decide) ?_
    | with_reducible refine (modMem_keeps (hf := by exact fun _ _ => wf_nil _) ..).step (by decide) (by decide) ?_
    | with_reducible refine (userWrite_keeps ..).step (by decide) (by decide) ?_
    | with_reducible refine (evictEntry_keeps ..).step (by decide) (by decide) ?_
    | with_reducible refine keeps_ite ?_ ?_
    | split

theorem userRead_keeps (m a : Nat) (s : State) :
    Keeps [.pwr, .ev, .mem, .fabric, .free, .up]
      [Obj.corrected, Obj.eventLost, Obj.flipCtrl, Obj.poisonReads, Obj.tileFault, Obj.tileReady, Obj.uncorrectable, Obj.wbDropped] s (userRead m a s).2 := by
  unfold userRead
  repeat' first
    | with_reducible assumption
    | with_reducible exact Keeps.refl _ _ _
    | (extract_lets +onlyGivenNames y
       refine have hy : Keeps [.pwr, .ev, .mem, .fabric, .free, .up] [Obj.corrected, Obj.eventLost, Obj.flipCtrl, Obj.poisonReads, Obj.tileFault, Obj.tileReady, Obj.uncorrectable, Obj.wbDropped] s y := ?_; ?_
       (unfold y; clear y)
       rotate_left
       clear_value y)
    | (extract_lets +onlyGivenNames y)
    | with_reducible refine (furtherAction_keeps ..).step (by decide) (by decide) ?_
    | with_reducible refine (corrected_keeps ..).step (by decide) (by decide) ?_
    | with_reducible refine (poison_keeps ..).step (by decide) (by decide) ?_
    | with_reducible refine (evictAt_keeps ..).step (by decide) (by decide) ?_
    | with_reducible refine keeps_raise (by decide) (by decide) ?_
    | with_reducible refine keeps_bump (by decide) ?_
    | with_reducible refine keeps_takeFree (by decide) ?_
    | with_reducible refine keeps_ite ?_ ?_
    | split

theorem readRange_keeps (m lo hi : Nat) (s : State) :
    Keeps [.pwr, .ev, .mem, .fabric, .free, .up]
      [Obj.corrected, Obj.eventLost, Obj.flipCtrl, Obj.poisonReads, Obj.tileFault, Obj.tileReady, Obj.uncorrectable, Obj.wbDropped] s (readRange m lo hi s) := by
  unfold readRange
  repeat' first
    | with_reducible assumption
    | with_reducible exact Keeps.refl _ _ _
    | with_reducible refine (userRead_keeps ..).step (by decide) (by decide) ?_
    | with_reducible refine keeps_forEach (fun _ _ _ => ?_) ?_
    | split
    | refine keeps_of_eq (by assumption) ?_

theorem writeRun_keeps (m : Nat) : ∀ (a : Nat) (ws : List Word) (s : State),
    Keeps [.ev, .mem] [Obj.eventLost, Obj.flipCtrl] s (writeRun m a ws s)
  | _, [], s => Keeps.refl _ _ s
  | a, w :: ws, s => (userWrite_keeps m a w s).trans (writeRun_keeps m (a + 1) ws _)

theorem loadImage_keeps (m o base : Nat) (img : Store) (s : State) :
    Keeps [.mem]
      [] s (loadImage m o base img s) := by
  unfold loadImage
  repeat' first
    | with_reducible assumption
    | with_reducible exact Keeps.refl _ _ _
    | with_reducible refine (putCell_keeps ..).step (by decide) (by decide) ?_
    | with_reducible refine keeps_forEach (fun _ _ _ => ?_) ?_
    | split

theorem clearMem_keeps (m : Nat) (s : State) :
    Keeps [.mem, .rfe, .fabric, .nt, .fire, .insp, .up]
      [] s (clearMem m s) := by
  unfold clearMem
  repeat' first
    | with_reducible assumption
    | with_reducible exact Keeps.refl _ _ _
    | (extract_lets +onlyGivenNames y
       refine have hy : Keeps [.mem, .rfe, .fabric, .nt, .fire, .insp, .up] [] s y := ?_; ?_
       (unfold y; clear y)
       rotate_left
       clear_value y)
    | (extract_lets +onlyGivenNames y; clear_value y)
    | with_reducible refine (modMem_keeps (hf := by exact fun _ h => h) ..).step (by decide) (by decide) ?_
    | with_reducible refine (modMem_keeps (hf := by exact fun _ h => putCell_wf h) ..).step (by decide) (by decide) ?_
    | with_reducible refine (modMem_keeps (hf := by exact fun _ _ => wf_nil _) ..).step (by decide) (by decide) ?_
    | with_reducible refine (loadImage_keeps ..).step (by decide) (by decide) ?_
    | with_reducible refine keeps_setUp (by decide) ?_
    | split
    | refine keeps_rfe (by decide) ?_
    | refine keeps_fabric (by decide) ?_
    | refine keeps_nt (by decide) ?_
    | refine keeps_fire (by decide) ?_
    | refine keeps_insp (by decide) ?_

end Sys2Proof.Machine
end

