-- ==== Sys2Proof/Laws/Commits.lean ====
section
/-! SUPPORT. What each operation of Machine/Commits.lean leaves alone: nothing but the groups and the objects named differs. -/

set_option Elab.async false
set_option linter.all false

namespace Sys2Proof.Machine

open Sys2Proof

set_option linter.tactic.unusedName false

theorem markSwitched_keeps (o : Nat) (s : State) :
    Keeps [.dict]
      [] s (markSwitched o s) := by
  unfold markSwitched
  repeat' first
    | with_reducible assumption
    | with_reducible exact Keeps.refl _ _ _
    | with_reducible refine keeps_ite ?_ ?_
    | split
    | refine keeps_dict (by decide) rfl id ?_

theorem chainCommitted_keeps (s : State) :
    Keeps [.fabric]
      [] s (chainCommitted s) := by
  unfold chainCommitted
  repeat' first
    | with_reducible assumption
    | with_reducible exact Keeps.refl _ _ _
    | split
    | refine keeps_fabric (by decide) ?_

theorem switchObj_keeps (o : Nat) (vals : Store) (s : State) :
    Keeps [.dict, .ev, .mem, .fabric, .values]
      [Obj.eventLost, Obj.flipCtrl] s (switchObj o vals s) := by
  unfold switchObj
  repeat' first
    | with_reducible assumption
    | with_reducible exact Keeps.refl _ _ _
    | (extract_lets +onlyGivenNames y
       refine have hy : Keeps [.dict, .ev, .mem, .fabric, .values] [Obj.eventLost, Obj.flipCtrl] s y := ?_; ?_
       (unfold y; clear y)
       rotate_left
       clear_value y)
    | (extract_lets +onlyGivenNames y)
    | with_reducible refine (userWrite_keeps ..).step (by decide) (by decide) ?_
    | with_reducible refine (markSwitched_keeps ..).step (by decide) (by decide) ?_
    | with_reducible refine (chainCommitted_keeps ..).step (by decide) (by decide) ?_
    | with_reducible refine keeps_forEach (fun _ _ _ => ?_) ?_
    | with_reducible refine keeps_ite ?_ ?_
    | split
    | refine keeps_values (by decide) (.inr (by decide)) (by first | exact id | exact fun h => ⟨by first | exact keysRise_overlay _ _ (keysRise_filter _ _ h.1) | exact keysRise_filter _ _ h.1, h.2⟩) ?_

theorem switchHead_keeps (o h : Nat) (vals : Store) (s : State) :
    Keeps [.dict, .values]
      [] s (switchHead o h vals s) := by
  unfold switchHead
  repeat' first
    | with_reducible assumption
    | with_reducible exact Keeps.refl _ _ _
    | (extract_lets +onlyGivenNames y
       refine have hy : Keeps [.dict, .values] [] s y := ?_; ?_
       (unfold y; clear y)
       rotate_left
       clear_value y)
    | (extract_lets +onlyGivenNames y)
    | split
    | refine keeps_values (by decide) (.inr (by decide)) (by first | exact id | exact fun h => ⟨by first | exact keysRise_overlay _ _ (keysRise_filter _ _ h.1) | exact keysRise_filter _ _ h.1, h.2⟩) ?_

theorem setSlot_keeps (i : Nat) (c : Option Commit) (s : State) :
    Keeps [.dict]
      [] s (setSlot i c s) := by
  unfold setSlot
  repeat' first
    | with_reducible assumption
    | with_reducible exact Keeps.refl _ _ _
    | split
    | refine keeps_dict (by decide) rfl id ?_

theorem finishCommit_keeps (i : Nat) (s : State) :
    Keeps [.dict, .values]
      [] s (finishCommit i s) := by
  unfold finishCommit
  repeat' first
    | with_reducible assumption
    | with_reducible exact Keeps.refl _ _ _
    | (extract_lets +onlyGivenNames y
       refine have hy : Keeps [.dict, .values] [] s y := ?_; ?_
       (unfold y; clear y)
       rotate_left
       clear_value y)
    | (extract_lets +onlyGivenNames y)
    | with_reducible refine (markSwitched_keeps ..).step (by decide) (by decide) ?_
    | with_reducible refine (switchHead_keeps ..).step (by decide) (by decide) ?_
    | with_reducible refine (setSlot_keeps ..).step (by decide) (by decide) ?_
    | with_reducible refine keeps_forEach (fun _ _ _ => ?_) ?_
    | with_reducible refine keeps_ite ?_ ?_
    | split

theorem beginInput_keeps (q : Nat) (s : State) :
    Keeps [.dict, .values]
      [] s (beginInput q s) := by
  unfold beginInput
  repeat' first
    | with_reducible assumption
    | with_reducible exact Keeps.refl _ _ _
    | (extract_lets +onlyGivenNames y
       refine have hy : Keeps [.dict, .values] [] s y := ?_; ?_
       (unfold y; clear y)
       rotate_left
       clear_value y)
    | (extract_lets +onlyGivenNames y)
    | with_reducible refine (setSlot_keeps ..).step (by decide) (by decide) ?_
    | with_reducible refine (finishCommit_keeps ..).step (by decide) (by decide) ?_
    | with_reducible refine keeps_forEach (fun _ _ _ => ?_) ?_
    | with_reducible refine keeps_ite ?_ ?_
    | split
    | refine keeps_dict (by decide) rfl id ?_

theorem beginScreen_keeps (q : Nat) (s : State) :
    Keeps [.dict, .ev, .mem, .fabric, .values]
      [Obj.eventLost, Obj.flipCtrl] s (beginScreen q s) := by
  unfold beginScreen
  repeat' first
    | with_reducible assumption
    | with_reducible exact Keeps.refl _ _ _
    | (extract_lets +onlyGivenNames y
       refine have hy : Keeps [.dict, .ev, .mem, .fabric, .values] [Obj.eventLost, Obj.flipCtrl] s y := ?_; ?_
       (unfold y; clear y)
       rotate_left
       clear_value y)
    | (extract_lets +onlyGivenNames y)
    | with_reducible refine (switchObj_keeps ..).step (by decide) (by decide) ?_
    | with_reducible refine (setSlot_keeps ..).step (by decide) (by decide) ?_
    | with_reducible refine (finishCommit_keeps ..).step (by decide) (by decide) ?_
    | with_reducible refine keeps_forEach (fun _ _ _ => ?_) ?_
    | with_reducible refine keeps_ite ?_ ?_
    | split
    | refine keeps_dict (by decide) rfl id ?_

theorem beginFire_keeps (h q : Nat) (s : State) :
    Keeps [.dict, .values]
      [] s (beginFire h q s) := by
  unfold beginFire
  repeat' first
    | with_reducible assumption
    | with_reducible exact Keeps.refl _ _ _
    | (extract_lets +onlyGivenNames y
       refine have hy : Keeps [.dict, .values] [] s y := ?_; ?_
       (unfold y; clear y)
       rotate_left
       clear_value y)
    | (extract_lets +onlyGivenNames y)
    | with_reducible refine (markSwitched_keeps ..).step (by decide) (by decide) ?_
    | with_reducible refine (switchHead_keeps ..).step (by decide) (by decide) ?_
    | with_reducible refine (setSlot_keeps ..).step (by decide) (by decide) ?_
    | with_reducible refine (finishCommit_keeps ..).step (by decide) (by decide) ?_
    | with_reducible refine keeps_forEach (fun _ _ _ => ?_) ?_
    | with_reducible refine keeps_ite ?_ ?_
    | split
    | refine keeps_dict (by decide) rfl id ?_

theorem commitDo_keeps (p : Nat) (s : State) :
    Keeps [.dict]
      [] s (commitDo p s) := by
  unfold commitDo
  repeat' first
    | with_reducible assumption
    | with_reducible exact Keeps.refl _ _ _
    | (extract_lets +onlyGivenNames y
       refine have hy : Keeps [.dict] [] s y := ?_; ?_
       (unfold y; clear y)
       rotate_left
       clear_value y)
    | (extract_lets +onlyGivenNames y)
    | with_reducible refine (setSlot_keeps ..).step (by decide) (by decide) ?_
    | with_reducible refine keeps_ite ?_ ?_
    | split
    | refine keeps_dict (by decide) rfl id ?_

theorem cancelDo_keeps (p : Nat) (s : State) :
    Keeps [.dict]
      [] s (cancelDo p s) := by
  unfold cancelDo
  repeat' first
    | with_reducible assumption
    | with_reducible exact Keeps.refl _ _ _
    | with_reducible refine (setSlot_keeps ..).step (by decide) (by decide) ?_
    | split
    | refine keeps_dict (by decide) rfl id ?_

theorem commitNowDo_keeps (s : State) :
    Keeps [.dict, .ev, .mem, .fabric, .values]
      [Obj.eventLost, Obj.flipCtrl] s (commitNowDo s) := by
  unfold commitNowDo
  repeat' first
    | with_reducible assumption
    | with_reducible exact Keeps.refl _ _ _
    | (extract_lets +onlyGivenNames y
       refine have hy : Keeps [.dict, .ev, .mem, .fabric, .values] [Obj.eventLost, Obj.flipCtrl] s y := ?_; ?_
       (unfold y; clear y)
       rotate_left
       clear_value y)
    | (extract_lets +onlyGivenNames y)
    | with_reducible refine (switchObj_keeps ..).step (by decide) (by decide) ?_
    | with_reducible refine keeps_forEach (fun _ _ _ => ?_) ?_
    | split
    | refine keeps_dict (by decide) rfl id ?_

end Sys2Proof.Machine
end

