-- ==== Sys2Proof/Laws/Nozzle.lean ====
section
/-! SUPPORT. What each operation of Machine/Nozzle.lean leaves alone: nothing but the groups and the objects named differs. -/

set_option Elab.async false
set_option linter.all false

namespace Sys2Proof.Machine

open Sys2Proof

set_option linter.tactic.unusedName false

theorem evictRange_keeps (m lo hi : Nat) (s : State) :
    Keeps [.pwr, .ev, .mem, .fabric, .up]
      [Obj.corrected, Obj.eventLost, Obj.flipCtrl, Obj.tileFault, Obj.tileReady, Obj.uncorrectable, Obj.wbDropped] s (evictRange m lo hi s) := by
  unfold evictRange
  repeat' first
    | with_reducible assumption
    | with_reducible exact Keeps.refl _ _ _
    | with_reducible refine (evictEntry_keeps ..).step (by decide) (by decide) ?_
    | with_reducible refine keeps_forEach (fun _ _ _ => ?_) ?_
    | split

theorem ntTouch_keeps (shadow : Bool) (s : State) :
    Keeps [.pwr, .ev, .mem, .fabric, .free, .up]
      [Obj.corrected, Obj.eventLost, Obj.flipCtrl, Obj.poisonReads, Obj.tileFault, Obj.tileReady, Obj.uncorrectable, Obj.wbDropped] s (ntTouch shadow s) := by
  unfold ntTouch
  repeat' first
    | with_reducible assumption
    | with_reducible exact Keeps.refl _ _ _
    | (extract_lets +onlyGivenNames y
       refine have hy : Keeps [.pwr, .ev, .mem, .fabric, .free, .up] [Obj.corrected, Obj.eventLost, Obj.flipCtrl, Obj.poisonReads, Obj.tileFault, Obj.tileReady, Obj.uncorrectable, Obj.wbDropped] s y := ?_; ?_
       (unfold y; clear y)
       rotate_left
       clear_value y)
    | (extract_lets +onlyGivenNames y)
    | with_reducible refine (evictRange_keeps ..).step (by decide) (by decide) ?_
    | with_reducible refine (readRange_keeps ..).step (by decide) (by decide) ?_
    | with_reducible refine keeps_ite ?_ ?_
    | split

theorem modNt_keeps (f : Nt → Nt) (s : State) :
    Keeps [.nt]
      [] s (modNt f s) := by
  unfold modNt
  repeat' first
    | with_reducible assumption
    | with_reducible exact Keeps.refl _ _ _
    | split
    | refine keeps_nt (by decide) ?_

theorem ntCount_keeps (s : State) :
    Keeps []
      [Obj.headMasked] s (ntCount s) := by
  unfold ntCount
  repeat' first
    | with_reducible assumption
    | with_reducible exact Keeps.refl _ _ _
    | (extract_lets +onlyGivenNames y
       refine have hy : Keeps [] [Obj.headMasked] s y := ?_; ?_
       (unfold y; clear y)
       rotate_left
       clear_value y)
    | (extract_lets +onlyGivenNames y)
    | with_reducible refine keeps_setN (by decide) ?_
    | with_reducible refine keeps_forEach (fun _ _ _ => ?_) ?_
    | split

theorem ntSwitch_keeps (page : Nat) (s : State) :
    Keeps [.pwr, .dict, .ev, .mem, .fabric, .nt, .free, .up]
      [Obj.corrected, Obj.eventLost, Obj.flipCtrl, Obj.headMasked, Obj.poisonReads, Obj.tileFault, Obj.tileReady, Obj.uncorrectable, Obj.wbDropped] s (ntSwitch page s) := by
  unfold ntSwitch
  repeat' first
    | with_reducible assumption
    | with_reducible exact Keeps.refl _ _ _
    | (extract_lets +onlyGivenNames y
       refine have hy : Keeps [.pwr, .dict, .ev, .mem, .fabric, .nt, .free, .up] [Obj.corrected, Obj.eventLost, Obj.flipCtrl, Obj.headMasked, Obj.poisonReads, Obj.tileFault, Obj.tileReady, Obj.uncorrectable, Obj.wbDropped] s y := ?_; ?_
       (unfold y; clear y)
       rotate_left
       clear_value y)
    | (extract_lets +onlyGivenNames y)
    | with_reducible refine (evictRange_keeps ..).step (by decide) (by decide) ?_
    | with_reducible refine (modNt_keeps ..).step (by decide) (by decide) ?_
    | with_reducible refine (ntCount_keeps ..).step (by decide) (by decide) ?_
    | with_reducible refine (putCell_keeps ..).step (by decide) (by decide) ?_
    | with_reducible refine (userWrite_keeps ..).step (by decide) (by decide) ?_
    | with_reducible refine (userRead_keeps ..).step (by decide) (by decide) ?_
    | with_reducible refine (markSwitched_keeps ..).step (by decide) (by decide) ?_
    | with_reducible refine keeps_raise (by decide) (by decide) ?_
    | with_reducible refine keeps_setUp (by decide) ?_
    | with_reducible refine keeps_forEach (fun _ _ _ => ?_) ?_
    | split
    | refine keeps_of_eq (by assumption) ?_

theorem ntCommitWrite_keeps (v : Word) (s : State) :
    Keeps [.pwr, .dict, .ev, .mem, .fabric, .nt, .free, .up]
      [Obj.corrected, Obj.eventLost, Obj.flipCtrl, Obj.headMasked, Obj.poisonReads, Obj.tileFault, Obj.tileReady, Obj.uncorrectable, Obj.wbDropped] s (ntCommitWrite v s).2 := by
  unfold ntCommitWrite
  repeat' first
    | with_reducible assumption
    | with_reducible exact Keeps.refl _ _ _
    | (extract_lets +onlyGivenNames y
       refine have hy : Keeps [.pwr, .dict, .ev, .mem, .fabric, .nt, .free, .up] [Obj.corrected, Obj.eventLost, Obj.flipCtrl, Obj.headMasked, Obj.poisonReads, Obj.tileFault, Obj.tileReady, Obj.uncorrectable, Obj.wbDropped] s y := ?_; ?_
       (unfold y; clear y)
       rotate_left
       clear_value y)
    | (extract_lets +onlyGivenNames y)
    | with_reducible refine (ntTouch_keeps ..).step (by decide) (by decide) ?_
    | with_reducible refine (modNt_keeps ..).step (by decide) (by decide) ?_
    | with_reducible refine (ntSwitch_keeps ..).step (by decide) (by decide) ?_
    | with_reducible refine keeps_raise (by decide) (by decide) ?_
    | with_reducible refine keeps_ite ?_ ?_
    | split

theorem ntApproveDo_keeps (v : Word) (s : State) :
    Keeps [.nt]
      [] s (ntApproveDo v s) := by
  unfold ntApproveDo
  repeat' first
    | with_reducible assumption
    | with_reducible exact Keeps.refl _ _ _
    | with_reducible refine (modNt_keeps ..).step (by decide) (by decide) ?_
    | with_reducible refine keeps_ite ?_ ?_
    | split

theorem ntStage_keeps (ps : List Proposal) (s : State) :
    Keeps [.dict, .nt]
      [] s (ntStage ps s) := by
  unfold ntStage
  repeat' first
    | with_reducible assumption
    | with_reducible exact Keeps.refl _ _ _
    | (extract_lets +onlyGivenNames y
       refine have hy : Keeps [.dict, .nt] [] s y := ?_; ?_
       (unfold y; clear y)
       rotate_left
       clear_value y)
    | (extract_lets +onlyGivenNames y)
    | with_reducible refine (modNt_keeps ..).step (by decide) (by decide) ?_
    | with_reducible refine (markSwitched_keeps ..).step (by decide) (by decide) ?_
    | with_reducible refine keeps_ite ?_ ?_
    | split

theorem ntPatch_keeps (q : Nat) (wasDirty : List (Nat × Nat)) (s : State) :
    Keeps [.pwr, .dict, .ev, .mem, .fabric, .nt, .insp, .free, .up]
      [Obj.corrected, Obj.eventLost, Obj.flipCtrl, Obj.headMasked, Obj.poisonReads, Obj.tileFault, Obj.tileReady, Obj.uncorrectable, Obj.wbDropped] s (ntPatch q wasDirty s) := by
  unfold ntPatch
  repeat' first
    | with_reducible assumption
    | with_reducible exact Keeps.refl _ _ _
    | (extract_lets +onlyGivenNames y
       refine have hy : Keeps [.pwr, .dict, .ev, .mem, .fabric, .nt, .insp, .free, .up] [Obj.corrected, Obj.eventLost, Obj.flipCtrl, Obj.headMasked, Obj.poisonReads, Obj.tileFault, Obj.tileReady, Obj.uncorrectable, Obj.wbDropped] s y := ?_; ?_
       (unfold y; clear y)
       rotate_left
       clear_value y)
    | (extract_lets +onlyGivenNames y)
    | with_reducible refine (ntTouch_keeps ..).step (by decide) (by decide) ?_
    | with_reducible refine (modNt_keeps ..).step (by decide) (by decide) ?_
    | with_reducible refine (ntCount_keeps ..).step (by decide) (by decide) ?_
    | with_reducible refine (userWrite_keeps ..).step (by decide) (by decide) ?_
    | with_reducible refine (markSwitched_keeps ..).step (by decide) (by decide) ?_
    | with_reducible refine keeps_raise (by decide) (by decide) ?_
    | with_reducible refine keeps_takeFree (by decide) ?_
    | with_reducible refine keeps_forEach (fun _ _ _ => ?_) ?_
    | with_reducible refine keeps_foldl (fun _ _ _ => ?_) ?_
    | with_reducible refine keeps_ite ?_ ?_
    | split
    | refine keeps_insp (by decide) ?_

theorem ntBoundary_keeps (q : Nat) (s : State) :
    Keeps [.pwr, .dict, .ev, .mem, .fabric, .nt, .insp, .free, .up]
      [Obj.corrected, Obj.eventLost, Obj.flipCtrl, Obj.headMasked, Obj.poisonReads, Obj.tileFault, Obj.tileReady, Obj.uncorrectable, Obj.wbDropped] s (ntBoundary q s) := by
  unfold ntBoundary
  repeat' first
    | with_reducible assumption
    | with_reducible exact Keeps.refl _ _ _
    | with_reducible refine (ntSwitch_keeps ..).step (by decide) (by decide) ?_
    | with_reducible refine (ntPatch_keeps ..).step (by decide) (by decide) ?_
    | with_reducible refine keeps_ite ?_ ?_
    | split

end Sys2Proof.Machine
end

