-- ==== Sys2Proof/Laws/Crossing.lean ====
section
/-! SUPPORT. What each operation of Machine/Crossing.lean leaves alone: nothing but the groups and the objects named differs. -/

set_option Elab.async false
set_option linter.all false

namespace Sys2Proof.Machine

open Sys2Proof

set_option linter.tactic.unusedName false

theorem xingCount_keeps (i : Nat) (n : Int) (s : State) :
    Keeps [.xing]
      [] s (xingCount i n s) := by
  unfold xingCount
  repeat' first
    | with_reducible assumption
    | with_reducible exact Keeps.refl _ _ _
    | split
    | refine keeps_xing (by decide) ?_

theorem xingQueue_keeps (i n : Nat) (s : State) :
    Keeps [.xing]
      [] s (xingQueue i n s) := by
  unfold xingQueue
  repeat' first
    | with_reducible assumption
    | with_reducible exact Keeps.refl _ _ _
    | split
    | refine keeps_xing (by decide) ?_

/-- An item crosses, and its effect keeps what it keeps. -/
theorem keeps_crossing {T : List Area} {O : List Nat} {s x : State} {i : Nat} {f : State → State} (m : .xing ∈ T)
    (hf : ∀ y, Keeps T O s y → Keeps T O s (f y)) (h : Keeps T O s x) : Keeps T O s (crossing i f x) :=
  hf _ (keeps_xing m h)

theorem xingFollow_keeps (i : Nat) (s : State) :
    Keeps [.ev, .xing]
      [Obj.eventLost] s (xingFollow i s) := by
  unfold xingFollow
  repeat' first
    | with_reducible assumption
    | with_reducible exact Keeps.refl _ _ _
    | (extract_lets +onlyGivenNames y
       refine have hy : Keeps [.ev, .xing] [Obj.eventLost] s y := ?_; ?_
       (unfold y; clear y)
       rotate_left
       clear_value y)
    | (extract_lets +onlyGivenNames y)
    | with_reducible refine keeps_raise (by decide) (by decide) ?_
    | with_reducible refine keeps_ite ?_ ?_
    | split
    | refine keeps_xing (by decide) ?_

theorem xingClear_keeps (i : Nat) (s : State) :
    Keeps [.xing]
      [] s (xingClear i s) := by
  unfold xingClear
  repeat' first
    | with_reducible assumption
    | with_reducible exact Keeps.refl _ _ _
    | split
    | refine keeps_xing (by decide) ?_

end Sys2Proof.Machine
end

