-- ==== Sys2Proof/Laws/Reads.lean ====
section
/-! SUPPORT. What each operation of Machine/Reads.lean leaves alone: nothing but the groups and the objects named differs. -/

set_option Elab.async false
set_option linter.all false

namespace Sys2Proof.Machine

open Sys2Proof

set_option linter.tactic.unusedName false

theorem ramRead_keeps (d : ObjDef) (id i : Nat) (v : Elem) (s : State) :
    Keeps [.pwr, .ev, .mem, .fabric, .free, .up]
      [Obj.corrected, Obj.eventLost, Obj.flipCtrl, Obj.poisonReads, Obj.tileFault, Obj.tileReady, Obj.uncorrectable, Obj.wbDropped] s (ramRead d id i v s).2 := by
  unfold ramRead
  extract_lets step r
  have hr : Keeps [.pwr, .ev, .mem, .fabric, .free, .up]
      [Obj.corrected, Obj.eventLost, Obj.flipCtrl, Obj.poisonReads, Obj.tileFault, Obj.tileReady, Obj.uncorrectable, Obj.wbDropped] s r.2 := by
    suffices h : ∀ (l : List Nat) (x : Bool × State), Keeps [.pwr, .ev, .mem, .fabric, .free, .up]
        [Obj.corrected, Obj.eventLost, Obj.flipCtrl, Obj.poisonReads, Obj.tileFault, Obj.tileReady, Obj.uncorrectable, Obj.wbDropped] x.2 (l.foldl step x).2 from h _ (false, s)
    intro l
    induction l with
    | nil => exact fun x => Keeps.refl _ _ x.2
    | cons k l ih => exact fun x => (userRead_keeps 6 _ x.2).trans (ih (step x k))
  clear_value r
  split
  · exact keeps_takeFree (by decide) hr
  · exact hr

theorem readOne_keeps (d : ObjDef) (shadow : Bool) (i : Nat) (s : State) :
    Keeps [.pwr, .ev, .mem, .fabric, .xing, .free, .up]
      [Obj.corrected, Obj.eventLost, Obj.flipCtrl, Obj.poisonReads, Obj.tileFault, Obj.tileReady, Obj.uncorrectable, Obj.wbDropped] s (readOne d shadow i s).2 := by
  unfold readOne
  repeat' first
    | with_reducible assumption
    | with_reducible exact Keeps.refl _ _ _
    | with_reducible refine (ramRead_keeps ..).step (by decide) (by decide) ?_
    | with_reducible refine (xingQueue_keeps ..).step (by decide) (by decide) ?_
    | with_reducible refine keeps_takeFree (by decide) ?_
    | with_reducible refine keeps_ite ?_ ?_
    | split
    | refine keeps_of_eq (by assumption) ?_

theorem readWord_keeps (id : Nat) (shadow : Bool) (w : Nat) (s : State) :
    Keeps [.pwr, .ev, .mem, .fabric, .free, .up]
      [Obj.corrected, Obj.eventLost, Obj.flipCtrl, Obj.poisonReads, Obj.tileFault, Obj.tileReady, Obj.uncorrectable, Obj.wbDropped] s (readWord id shadow w s).2 := by
  unfold readWord
  repeat' first
    | with_reducible assumption
    | with_reducible exact Keeps.refl _ _ _
    | (extract_lets +onlyGivenNames y
       refine have hy : Keeps [.pwr, .ev, .mem, .fabric, .free, .up] [Obj.corrected, Obj.eventLost, Obj.flipCtrl, Obj.poisonReads, Obj.tileFault, Obj.tileReady, Obj.uncorrectable, Obj.wbDropped] s y := ?_; ?_
       (unfold y; clear y)
       rotate_left
       clear_value y)
    | (extract_lets +onlyGivenNames y)
    | with_reducible refine (userRead_keeps ..).step (by decide) (by decide) ?_
    | with_reducible refine keeps_ite ?_ ?_
    | split
    | refine keeps_of_eq (by assumption) ?_

end Sys2Proof.Machine
end

