-- ==== Sys2Proof/Laws/Blocks.lean ====
section
/-! SUPPORT. What each operation of Machine/Blocks.lean leaves alone: nothing but the groups and the objects named differs. -/

set_option Elab.async false
set_option linter.all false

namespace Sys2Proof.Machine

open Sys2Proof

set_option linter.tactic.unusedName false

theorem readElems_keeps (d : ObjDef) (shadow : Bool) (i n : Nat) (s : State) :
    Keeps [.pwr, .ev, .mem, .fabric, .xing, .free, .up]
      [Obj.corrected, Obj.eventLost, Obj.flipCtrl, Obj.poisonReads, Obj.tileFault, Obj.tileReady, Obj.uncorrectable, Obj.wbDropped] s (readElems d shadow i n s).2 := by
  unfold readElems
  refine keeps_foldl_pair ?_ _ (([] : List Word), s)
  exact fun x k => readOne_keeps d shadow (i + k) x.2

theorem plainRead_keeps (a : Access) (s : State) :
    Keeps [.pwr, .ev, .mem, .fabric, .xing, .free, .up]
      [Obj.corrected, Obj.eventLost, Obj.flipCtrl, Obj.poisonReads, Obj.tileFault, Obj.tileReady, Obj.uncorrectable, Obj.wbDropped] s (plainRead a s).2 := by
  unfold plainRead
  repeat' first
    | with_reducible assumption
    | with_reducible exact Keeps.refl _ _ _
    | (extract_lets +onlyGivenNames y
       refine have hy : Keeps [.pwr, .ev, .mem, .fabric, .xing, .free, .up] [Obj.corrected, Obj.eventLost, Obj.flipCtrl, Obj.poisonReads, Obj.tileFault, Obj.tileReady, Obj.uncorrectable, Obj.wbDropped] s y := ?_; ?_
       (unfold y; clear y)
       rotate_left
       clear_value y)
    | (extract_lets +onlyGivenNames y)
    | with_reducible refine (readElems_keeps ..).step (by decide) (by decide) ?_
    | with_reducible refine keeps_ite ?_ ?_
    | split
    | refine keeps_of_eq (by assumption) ?_

theorem ntLoadStop_keeps (s : State) :
    Keeps [.mem, .nt, .free]
      [] s (ntLoadStop s) := by
  unfold ntLoadStop
  repeat' first
    | with_reducible assumption
    | with_reducible exact Keeps.refl _ _ _
    | (extract_lets +onlyGivenNames y
       refine have hy : Keeps [.mem, .nt, .free] [] s y := ?_; ?_
       (unfold y; clear y)
       rotate_left
       clear_value y)
    | (extract_lets +onlyGivenNames y)
    | with_reducible refine (modNt_keeps ..).step (by decide) (by decide) ?_
    | with_reducible refine (modMem_keeps (hf := by exact fun _ h => h) ..).step (by decide) (by decide) ?_
    | with_reducible refine (modMem_keeps (hf := by exact fun _ h => putCell_wf h) ..).step (by decide) (by decide) ?_
    | with_reducible refine (modMem_keeps (hf := by exact fun _ _ => wf_nil _) ..).step (by decide) (by decide) ?_
    | with_reducible refine (loadImage_keeps ..).step (by decide) (by decide) ?_
    | with_reducible refine keeps_takeFree (by decide) ?_
    | with_reducible refine keeps_ite ?_ ?_
    | split

theorem blockOpened_keeps (d : ObjDef) (s : State) :
    Keeps [.dict, .mem, .nt, .free]
      [] s (blockOpened d s) := by
  unfold blockOpened
  repeat' first
    | with_reducible assumption
    | with_reducible exact Keeps.refl _ _ _
    | (extract_lets +onlyGivenNames y
       refine have hy : Keeps [.dict, .mem, .nt, .free] [] s y := ?_; ?_
       (unfold y; clear y)
       rotate_left
       clear_value y)
    | (extract_lets +onlyGivenNames y)
    | with_reducible refine (ntLoadStop_keeps ..).step (by decide) (by decide) ?_
    | with_reducible refine keeps_ite ?_ ?_
    | split
    | refine keeps_dict (by decide) rfl id ?_

theorem setTransfer_keeps (h : Nat) (t : Option Transfer) (s : State) :
    Keeps [.dict]
      [] s (setTransfer h t s) := by
  unfold setTransfer
  repeat' first
    | with_reducible assumption
    | with_reducible exact Keeps.refl _ _ _
    | split
    | refine keeps_dict (by decide) rfl id ?_

theorem openBlock_keeps (write : Bool) (a : Access) (s : State) :
    Keeps [.dict, .mem, .nt, .free]
      [] s (openBlock write a s).2 := by
  unfold openBlock
  repeat' first
    | with_reducible assumption
    | with_reducible exact Keeps.refl _ _ _
    | (extract_lets +onlyGivenNames y
       refine have hy : Keeps [.dict, .mem, .nt, .free] [] s y := ?_; ?_
       (unfold y; clear y)
       rotate_left
       clear_value y)
    | (extract_lets +onlyGivenNames y; clear_value y)
    | with_reducible refine (blockOpened_keeps ..).step (by decide) (by decide) ?_
    | with_reducible refine (setTransfer_keeps ..).step (by decide) (by decide) ?_
    | with_reducible refine keeps_ite ?_ ?_
    | split

theorem storeWord_keeps (d : ObjDef) (i : Nat) (w : Word) (s : State) :
    Keeps [.dict, .ev, .mem, .values]
      [Obj.eventLost, Obj.flipCtrl] s (storeWord d i w s) := by
  unfold storeWord
  repeat' first
    | with_reducible assumption
    | with_reducible exact Keeps.refl _ _ _
    | (extract_lets +onlyGivenNames y)
    | with_reducible refine (userWrite_keeps ..).step (by decide) (by decide) ?_
    | with_reducible refine keeps_setE (by decide) ?_
    | with_reducible refine keeps_setShadow (by decide) ?_
    | with_reducible refine keeps_setE_any (by decide) ?_
    | with_reducible refine keeps_ite ?_ ?_
    | split

theorem storeWords_keeps (d : ObjDef) (i : Nat) (ws : List Word) (s : State) :
    Keeps [.dict, .ev, .mem, .nt, .values] [Obj.eventLost, Obj.flipCtrl] s (storeWords d i ws s) := by
  unfold storeWords
  extract_lets y
  have hy : Keeps [.dict, .ev, .mem, .nt, .values] [Obj.eventLost, Obj.flipCtrl] s y :=
    keeps_foldl_pair (fun x w => (storeWord_keeps d x.1 w x.2).mono (by decide) (by decide)) ws (i, s)
  clear_value y
  exact keeps_ite ((modNt_keeps ..).step (by decide) (by decide) hy) hy

theorem segmentWrite_keeps (h seq count : Nat) (ws : List Word) (t : Transfer) (s : State) :
    Keeps [.dict, .ev, .mem, .nt, .values]
      [Obj.eventLost, Obj.flipCtrl] s (segmentWrite h seq count ws t s).2 := by
  unfold segmentWrite
  repeat' first
    | with_reducible assumption
    | with_reducible exact Keeps.refl _ _ _
    | (extract_lets +onlyGivenNames y
       refine have hy : Keeps [.dict, .ev, .mem, .nt, .values] [Obj.eventLost, Obj.flipCtrl] s y := ?_; ?_
       (unfold y; clear y)
       rotate_left
       clear_value y)
    | (extract_lets +onlyGivenNames y)
    | with_reducible refine (setTransfer_keeps ..).step (by decide) (by decide) ?_
    | with_reducible refine (storeWords_keeps ..).step (by decide) (by decide) ?_
    | with_reducible refine keeps_ite ?_ ?_
    | split

theorem transferWord_keeps (t : Transfer) (w : Nat) (s : State) :
    Keeps [.pwr, .ev, .mem, .fabric, .free, .up]
      [Obj.corrected, Obj.eventLost, Obj.flipCtrl, Obj.poisonReads, Obj.tileFault, Obj.tileReady, Obj.uncorrectable, Obj.wbDropped] s (transferWord t w s).2 := by
  unfold transferWord
  repeat' first
    | with_reducible assumption
    | with_reducible exact Keeps.refl _ _ _
    | with_reducible refine (readWord_keeps ..).step (by decide) (by decide) ?_
    | with_reducible refine keeps_ite ?_ ?_
    | split
    | refine keeps_of_eq (by assumption) ?_

theorem segmentRead_keeps (h seq count : Nat) (t : Transfer) (s : State) :
    Keeps [.pwr, .dict, .ev, .mem, .fabric, .free, .up]
      [Obj.corrected, Obj.eventLost, Obj.flipCtrl, Obj.poisonReads, Obj.tileFault, Obj.tileReady, Obj.uncorrectable, Obj.wbDropped] s (segmentRead h seq count t s).2 := by
  have hf : ∀ z : List Word × State, (List.range count).foldl (fun x k =>
      let (w, s) := transferWord t (t.offset + t.sent + k) x.2
      (x.1 ++ [w], s)) ([], s) = z → Keeps [.pwr, .dict, .ev, .mem, .fabric, .free, .up] [Obj.corrected, Obj.eventLost, Obj.flipCtrl, Obj.poisonReads, Obj.tileFault, Obj.tileReady, Obj.uncorrectable, Obj.wbDropped] s z.2 := by
    intro z hz
    rw [← hz]
    refine keeps_foldl_pair ?_ _ (([] : List Word), s)
    exact fun x k => (transferWord_keeps t (t.offset + t.sent + k) x.2).mono (by decide) (by decide)
  unfold segmentRead
  extract_lets code
  split
  · exact keeps_ite ((setTransfer_keeps ..).step (by decide) (by decide) (Keeps.refl _ _ _)) (Keeps.refl _ _ _)
  · split
    rename_i ws z hz
    exact (setTransfer_keeps ..).step (by decide) (by decide) (hf _ hz)

theorem segmentDo_keeps (h seq count : Nat) (ws : List Word) (s : State) :
    Keeps [.pwr, .dict, .ev, .mem, .fabric, .nt, .free, .up, .values]
      [Obj.corrected, Obj.eventLost, Obj.flipCtrl, Obj.poisonReads, Obj.tileFault, Obj.tileReady, Obj.uncorrectable, Obj.wbDropped] s (segmentDo h seq count ws s).2 := by
  unfold segmentDo
  repeat' first
    | with_reducible assumption
    | with_reducible exact Keeps.refl _ _ _
    | with_reducible refine (segmentWrite_keeps ..).step (by decide) (by decide) ?_
    | with_reducible refine (segmentRead_keeps ..).step (by decide) (by decide) ?_
    | with_reducible refine keeps_ite ?_ ?_
    | split
    | refine keeps_of_eq (by assumption) ?_

theorem geomFollow_keeps (s : State) :
    Keeps [.ev]
      [Obj.eventLost, Obj.ldsDemand] s (geomFollow s) := by
  unfold geomFollow
  repeat' first
    | with_reducible assumption
    | with_reducible exact Keeps.refl _ _ _
    | (extract_lets +onlyGivenNames y
       refine have hy : Keeps [.ev] [Obj.eventLost, Obj.ldsDemand] s y := ?_; ?_
       (unfold y; clear y)
       rotate_left
       clear_value y)
    | (extract_lets +onlyGivenNames y)
    | with_reducible refine keeps_raise (by decide) (by decide) ?_
    | with_reducible refine keeps_setN (by decide) ?_
    | with_reducible refine keeps_ite ?_ ?_
    | split

theorem blockValid_keeps (d : ObjDef) (s : State) :
    Keeps [.dict, .ev]
      [Obj.eventLost, Obj.ldsDemand] s (blockValid d s) := by
  unfold blockValid
  repeat' first
    | with_reducible assumption
    | with_reducible exact Keeps.refl _ _ _
    | (extract_lets +onlyGivenNames y
       refine have hy : Keeps [.dict, .ev] [Obj.eventLost, Obj.ldsDemand] s y := ?_; ?_
       (unfold y; clear y)
       rotate_left
       clear_value y)
    | (extract_lets +onlyGivenNames y)
    | with_reducible refine (geomFollow_keeps ..).step (by decide) (by decide) ?_
    | with_reducible refine keeps_ite ?_ ?_
    | split
    | refine keeps_dict (by decide) rfl id ?_

theorem blockEnd_keeps (t : Transfer) (crc : Nat) (s : State) :
    Keeps [.dict, .ev]
      [Obj.eventLost, Obj.ldsDemand] s (blockEnd t crc s).2 := by
  unfold blockEnd
  repeat' first
    | with_reducible assumption
    | with_reducible exact Keeps.refl _ _ _
    | (extract_lets +onlyGivenNames y
       refine have hy : Keeps [.dict, .ev] [Obj.eventLost, Obj.ldsDemand] s y := ?_; ?_
       (unfold y; clear y)
       rotate_left
       clear_value y)
    | (extract_lets +onlyGivenNames y)
    | with_reducible refine (blockValid_keeps ..).step (by decide) (by decide) ?_
    | with_reducible refine keeps_ite ?_ ?_
    | split

theorem closeDo_keeps (h crc : Nat) (s : State) :
    Keeps [.dict, .ev]
      [Obj.eventLost, Obj.ldsDemand] s (closeDo h crc s).2 := by
  unfold closeDo
  repeat' first
    | with_reducible assumption
    | with_reducible exact Keeps.refl _ _ _
    | (extract_lets +onlyGivenNames y
       refine have hy : Keeps [.dict, .ev] [Obj.eventLost, Obj.ldsDemand] s y := ?_; ?_
       (unfold y; clear y)
       rotate_left
       clear_value y)
    | (extract_lets +onlyGivenNames y)
    | with_reducible refine (setTransfer_keeps ..).step (by decide) (by decide) ?_
    | with_reducible refine (blockEnd_keeps ..).step (by decide) (by decide) ?_
    | with_reducible refine keeps_ite ?_ ?_
    | split
    | refine keeps_of_eq (by assumption) ?_

end Sys2Proof.Machine
end

