-- ==== Sys2Proof/Laws/Bond.lean ====
section
/-! SUPPORT. What each operation of Machine/Bond.lean leaves alone: nothing but the groups and the objects named differs. -/

set_option Elab.async false
set_option linter.all false

namespace Sys2Proof.Machine

open Sys2Proof

set_option linter.tactic.unusedName false

theorem modLane_keeps (i : Nat) (f : Lane → Lane) (s : State) :
    Keeps [.lanes]
      [] s (modLane i f s) := by
  unfold modLane
  repeat' first
    | with_reducible assumption
    | with_reducible exact Keeps.refl _ _ _
    | split
    | refine keeps_lanes (by decide) ?_

theorem modBond_keeps (f : Bond → Bond) (s : State) :
    Keeps [.bond]
      [] s (modBond f s) := by
  unfold modBond
  repeat' first
    | with_reducible assumption
    | with_reducible exact Keeps.refl _ _ _
    | split
    | refine keeps_bond (by decide) ?_

theorem modRfe_keeps (f : Rfe → Rfe) (s : State) :
    Keeps [.rfe]
      [] s (modRfe f s) := by
  unfold modRfe
  repeat' first
    | with_reducible assumption
    | with_reducible exact Keeps.refl _ _ _
    | split
    | refine keeps_rfe (by decide) ?_

theorem laneReady_keeps (i : Nat) (s : State) :
    Keeps [.up]
      [] s (laneReady i s) := by
  unfold laneReady
  repeat' first
    | with_reducible assumption
    | with_reducible exact Keeps.refl _ _ _
    | with_reducible refine keeps_setUp (by decide) ?_
    | with_reducible refine keeps_ite ?_ ?_
    | split

theorem creditSend_keeps (s : State) :
    Keeps [.rfe, .sent]
      [] s (creditSend s) := by
  unfold creditSend
  repeat' first
    | with_reducible assumption
    | with_reducible exact Keeps.refl _ _ _
    | (extract_lets +onlyGivenNames y
       refine have hy : Keeps [.rfe, .sent] [] s y := ?_; ?_
       (unfold y; clear y)
       rotate_left
       clear_value y)
    | (extract_lets +onlyGivenNames y)
    | with_reducible refine (modRfe_keeps ..).step (by decide) (by decide) ?_
    | with_reducible refine keeps_emit' (by decide) ?_
    | with_reducible refine keeps_ite ?_ ?_
    | split

theorem creditFollow_keeps (s : State) :
    Keeps [.rfe, .sent]
      [] s (creditFollow s) := by
  unfold creditFollow
  repeat' first
    | with_reducible assumption
    | with_reducible exact Keeps.refl _ _ _
    | with_reducible refine (creditSend_keeps ..).step (by decide) (by decide) ?_
    | with_reducible refine keeps_ite ?_ ?_
    | split

theorem releaseWords_keeps (n : Nat) (s : State) :
    Keeps [.rfe, .sent]
      [] s (releaseWords n s) := by
  unfold releaseWords
  repeat' first
    | with_reducible assumption
    | with_reducible exact Keeps.refl _ _ _
    | with_reducible refine (modRfe_keeps ..).step (by decide) (by decide) ?_
    | with_reducible refine (creditFollow_keeps ..).step (by decide) (by decide) ?_
    | split

theorem backMessage_keeps (w0 w1 : Word) (s : State) :
    Keeps [.sent]
      [] s (backMessage w0 w1 s) := by
  unfold backMessage
  repeat' first
    | with_reducible assumption
    | with_reducible exact Keeps.refl _ _ _
    | (extract_lets +onlyGivenNames y
       refine have hy : Keeps [.sent] [] s y := ?_; ?_
       (unfold y; clear y)
       rotate_left
       clear_value y)
    | (extract_lets +onlyGivenNames y)
    | with_reducible refine keeps_emit' (by decide) ?_
    | with_reducible refine keeps_ite ?_ ?_
    | split

theorem resyncMessage_keeps (count : Nat) (s : State) :
    Keeps [.sent]
      [] s (resyncMessage count s) := by
  unfold resyncMessage
  repeat' first
    | with_reducible assumption
    | with_reducible exact Keeps.refl _ _ _
    | with_reducible refine (backMessage_keeps ..).step (by decide) (by decide) ?_
    | split

theorem rateFollow_keeps (s : State) :
    Keeps []
      [Obj.maxLineRate] s (rateFollow s) := by
  unfold rateFollow
  repeat' first
    | with_reducible assumption
    | with_reducible exact Keeps.refl _ _ _
    | with_reducible refine keeps_setN (by decide) ?_
    | with_reducible refine keeps_ite ?_ ?_
    | split

theorem bondMessage_keeps (page lanes : Nat) (s : State) :
    Keeps [.sent]
      [] s (bondMessage page lanes s) := by
  unfold bondMessage
  repeat' first
    | with_reducible assumption
    | with_reducible exact Keeps.refl _ _ _
    | with_reducible refine (backMessage_keeps ..).step (by decide) (by decide) ?_
    | split

theorem bondForm_keeps (lanes : Nat) (s : State) :
    Keeps [.bond, .rfe, .sent, .values]
      [Obj.maxLineRate] s (bondForm lanes s) := by
  unfold bondForm
  repeat' first
    | with_reducible assumption
    | with_reducible exact Keeps.refl _ _ _
    | (extract_lets +onlyGivenNames y
       refine have hy : Keeps [.bond, .rfe, .sent, .values] [Obj.maxLineRate] s y := ?_; ?_
       (unfold y; clear y)
       rotate_left
       clear_value y)
    | (extract_lets +onlyGivenNames y)
    | with_reducible refine (modBond_keeps ..).step (by decide) (by decide) ?_
    | with_reducible refine (modRfe_keeps ..).step (by decide) (by decide) ?_
    | with_reducible refine (creditSend_keeps ..).step (by decide) (by decide) ?_
    | with_reducible refine (resyncMessage_keeps ..).step (by decide) (by decide) ?_
    | with_reducible refine (rateFollow_keeps ..).step (by decide) (by decide) ?_
    | split

theorem bondTry_keeps (s : State) :
    Keeps [.bond, .rfe, .sent, .values]
      [Obj.maxLineRate] s (bondTry s) := by
  unfold bondTry
  repeat' first
    | with_reducible assumption
    | with_reducible exact Keeps.refl _ _ _
    | with_reducible refine (bondForm_keeps ..).step (by decide) (by decide) ?_
    | with_reducible refine keeps_ite ?_ ?_
    | split

theorem trainCtle_keeps (i : Nat) (s : State) :
    Keeps [.lanes, .free]
      [] s (trainCtle i s) := by
  unfold trainCtle
  repeat' first
    | with_reducible assumption
    | with_reducible exact Keeps.refl _ _ _
    | (extract_lets +onlyGivenNames y
       refine have hy : Keeps [.lanes, .free] [] s y := ?_; ?_
       (unfold y; clear y)
       rotate_left
       clear_value y)
    | (extract_lets +onlyGivenNames y)
    | with_reducible refine (modLane_keeps ..).step (by decide) (by decide) ?_
    | with_reducible refine keeps_takeFree (by decide) ?_
    | with_reducible refine keeps_ite ?_ ?_
    | split

theorem lockGain_keeps (i : Nat) (s : State) :
    Keeps [.ev, .lanes, .free, .up]
      [Obj.eventLost] s (lockGain i s) := by
  unfold lockGain
  repeat' first
    | with_reducible assumption
    | with_reducible exact Keeps.refl _ _ _
    | (extract_lets +onlyGivenNames y
       refine have hy : Keeps [.ev, .lanes, .free, .up] [Obj.eventLost] s y := ?_; ?_
       (unfold y; clear y)
       rotate_left
       clear_value y)
    | (extract_lets +onlyGivenNames y)
    | with_reducible refine (modLane_keeps ..).step (by decide) (by decide) ?_
    | with_reducible refine (laneReady_keeps ..).step (by decide) (by decide) ?_
    | with_reducible refine (trainCtle_keeps ..).step (by decide) (by decide) ?_
    | with_reducible refine keeps_raise (by decide) (by decide) ?_
    | with_reducible refine keeps_ite ?_ ?_
    | split

theorem lockDrop_keeps (i cause : Nat) (s : State) :
    Keeps [.ev, .lanes, .up]
      [Obj.eventLost] s (lockDrop i cause s) := by
  unfold lockDrop
  repeat' first
    | with_reducible assumption
    | with_reducible exact Keeps.refl _ _ _
    | (extract_lets +onlyGivenNames y
       refine have hy : Keeps [.ev, .lanes, .up] [Obj.eventLost] s y := ?_; ?_
       (unfold y; clear y)
       rotate_left
       clear_value y)
    | (extract_lets +onlyGivenNames y)
    | with_reducible refine (modLane_keeps ..).step (by decide) (by decide) ?_
    | with_reducible refine (laneReady_keeps ..).step (by decide) (by decide) ?_
    | with_reducible refine keeps_raise (by decide) (by decide) ?_
    | split

theorem laneStop_keeps (i : Nat) (s : State) :
    Keeps [.lanes, .up]
      [] s (laneStop i s) := by
  unfold laneStop
  repeat' first
    | with_reducible assumption
    | with_reducible exact Keeps.refl _ _ _
    | with_reducible refine (modLane_keeps ..).step (by decide) (by decide) ?_
    | with_reducible refine (laneReady_keeps ..).step (by decide) (by decide) ?_
    | split

theorem injectNow_keeps (i : Nat) (s : State) :
    Keeps [.lanes, .sent]
      [Obj.laneTest] s (injectNow i s) := by
  unfold injectNow
  repeat' first
    | with_reducible assumption
    | with_reducible exact Keeps.refl _ _ _
    | (extract_lets +onlyGivenNames y
       refine have hy : Keeps [.lanes, .sent] [Obj.laneTest] s y := ?_; ?_
       (unfold y; clear y)
       rotate_left
       clear_value y)
    | (extract_lets +onlyGivenNames y)
    | with_reducible refine (modLane_keeps ..).step (by decide) (by decide) ?_
    | with_reducible refine keeps_setN (by decide) ?_
    | with_reducible refine keeps_emit' (by decide) ?_
    | with_reducible refine keeps_ite ?_ ?_
    | split

end Sys2Proof.Machine
end

