-- ==== Sys2Proof/Laws/Fox.lean ====
section
/-! SUPPORT. What each operation of Machine/Fox.lean leaves alone: nothing but the groups and the objects named differs. -/

set_option Elab.async false
set_option linter.all false

namespace Sys2Proof.Machine

open Sys2Proof

set_option linter.tactic.unusedName false

theorem modCam_keeps (k : Nat) (f : CamInput → CamInput) (s : State) :
    Keeps [.insp]
      [] s (modCam k f s) := by
  unfold modCam
  repeat' first
    | with_reducible assumption
    | with_reducible exact Keeps.refl _ _ _
    | split
    | refine keeps_insp (by decide) ?_

theorem modInsp_keeps (f : Inspect → Inspect) (s : State) :
    Keeps [.insp]
      [] s (modInsp f s) := by
  unfold modInsp
  repeat' first
    | with_reducible assumption
    | with_reducible exact Keeps.refl _ _ _
    | split
    | refine keeps_insp (by decide) ?_

theorem modFox_keeps (f : Fox → Fox) (s : State) :
    Keeps [.insp]
      [] s (modFox f s) := by
  unfold modFox
  repeat' first
    | with_reducible assumption
    | with_reducible exact Keeps.refl _ _ _
    | split
    | refine keeps_insp (by decide) ?_

theorem modCal_keeps (f : Cal → Cal) (s : State) :
    Keeps [.cal]
      [] s (modCal f s) := by
  unfold modCal
  repeat' first
    | with_reducible assumption
    | with_reducible exact Keeps.refl _ _ _
    | split
    | refine keeps_cal (by decide) ?_

theorem evidenceScreened_keeps (p y : Nat) (c : LineCtx) (codes : Array Nat) (s : State) :
    Keeps [.insp]
      [Obj.evidSkipped] s (evidenceScreened p y c codes s) := by
  unfold evidenceScreened
  repeat' first
    | with_reducible assumption
    | with_reducible exact Keeps.refl _ _ _
    | (extract_lets +onlyGivenNames y
       refine have hy : Keeps [.insp] [Obj.evidSkipped] s y := ?_; ?_
       (unfold y; clear y)
       rotate_left
       clear_value y)
    | (extract_lets +onlyGivenNames y)
    | with_reducible refine (modFox_keeps ..).step (by decide) (by decide) ?_
    | with_reducible refine keeps_bump (by decide) ?_
    | with_reducible refine keeps_forEach (fun _ _ _ => ?_) ?_
    | with_reducible refine keeps_ite ?_ ?_
    | split

theorem foxUse_keeps (c : LineCtx) (inv : Array Nat) (cols : Array FoxColumn) (q : Array Nat) (e : EvidenceSlot) (dy dx : Int) (s : State) :
    Keeps [.insp, .free]
      [Obj.evidLines, Obj.noise] s (foxUse c inv cols q e dy dx s) := by
  unfold foxUse
  repeat' first
    | with_reducible assumption
    | with_reducible exact Keeps.refl _ _ _
    | (extract_lets +onlyGivenNames y
       refine have hy : Keeps [.insp, .free] [Obj.evidLines, Obj.noise] s y := ?_; ?_
       (unfold y; clear y)
       rotate_left
       clear_value y)
    | (extract_lets +onlyGivenNames y)
    | with_reducible refine (modFox_keeps ..).step (by decide) (by decide) ?_
    | with_reducible refine keeps_setN (by decide) ?_
    | with_reducible refine keeps_bump (by decide) ?_
    | with_reducible refine keeps_takeFree (by decide) ?_
    | with_reducible refine keeps_foldl (fun _ _ _ => ?_) ?_
    | with_reducible refine keeps_ite ?_ ?_
    | split
    | refine keeps_of_eq (by assumption) ?_

theorem patternUse_keeps (c : LineCtx) (inv : Array Nat) (cols : Array FoxColumn) (e : EvidenceSlot) (s : State) :
    Keeps [.insp]
      [] s (patternUse c inv cols e s) := by
  unfold patternUse
  repeat' first
    | with_reducible assumption
    | with_reducible exact Keeps.refl _ _ _
    | (extract_lets +onlyGivenNames y
       refine have hy : Keeps [.insp] [] s y := ?_; ?_
       (unfold y; clear y)
       rotate_left
       clear_value y)
    | (extract_lets +onlyGivenNames y)
    | with_reducible refine (modFox_keeps ..).step (by decide) (by decide) ?_
    | with_reducible refine keeps_forEach (fun _ _ _ => ?_) ?_
    | with_reducible refine keeps_foldl (fun _ _ _ => ?_) ?_
    | with_reducible refine keeps_ite ?_ ?_
    | split

theorem foxLine_keeps (e : EvidenceSlot) (s : State) :
    Keeps [.ev, .insp, .free]
      [Obj.eventLost, Obj.evidLines, Obj.noise, Obj.regDiscards, Obj.regShift] s (foxLine e s) := by
  unfold foxLine
  repeat' first
    | with_reducible assumption
    | with_reducible exact Keeps.refl _ _ _
    | (extract_lets +onlyGivenNames y
       refine have hy : Keeps [.ev, .insp, .free] [Obj.eventLost, Obj.evidLines, Obj.noise, Obj.regDiscards, Obj.regShift] s y := ?_; ?_
       (unfold y; clear y)
       rotate_left
       clear_value y)
    | (extract_lets +onlyGivenNames y)
    | with_reducible refine (modFox_keeps ..).step (by decide) (by decide) ?_
    | with_reducible refine (foxUse_keeps ..).step (by decide) (by decide) ?_
    | with_reducible refine (patternUse_keeps ..).step (by decide) (by decide) ?_
    | with_reducible refine keeps_raise (by decide) (by decide) ?_
    | with_reducible refine keeps_setN (by decide) ?_
    | with_reducible refine keeps_bump (by decide) ?_
    | with_reducible refine keeps_ite ?_ ?_
    | split

theorem foxLines_keeps (k frame : Nat) (upTo : Nat) (last : Bool) (takes : Bool) (s : State) :
    Keeps [.ev, .insp, .free]
      [Obj.eventLost, Obj.evidLines, Obj.noise, Obj.regDiscards, Obj.regShift] s (foxLines k frame upTo last takes s) := by
  unfold foxLines
  repeat' first
    | with_reducible assumption
    | with_reducible exact Keeps.refl _ _ _
    | (extract_lets +onlyGivenNames y
       refine have hy : Keeps [.ev, .insp, .free] [Obj.eventLost, Obj.evidLines, Obj.noise, Obj.regDiscards, Obj.regShift] s y := ?_; ?_
       (unfold y; clear y)
       rotate_left
       clear_value y)
    | (extract_lets +onlyGivenNames y)
    | with_reducible refine (modFox_keeps ..).step (by decide) (by decide) ?_
    | with_reducible refine (foxLine_keeps ..).step (by decide) (by decide) ?_
    | with_reducible refine keeps_forEach (fun _ _ _ => ?_) ?_
    | with_reducible refine keeps_ite ?_ ?_
    | split

theorem foxClose_keeps (k frame : Nat) (lock : Bool) (s : State) :
    Keeps [.dict, .ev, .nt, .insp]
      [Obj.eventLost] s (foxClose k frame lock s) := by
  unfold foxClose
  repeat' first
    | with_reducible assumption
    | with_reducible exact Keeps.refl _ _ _
    | (extract_lets +onlyGivenNames y
       refine have hy : Keeps [.dict, .ev, .nt, .insp] [Obj.eventLost] s y := ?_; ?_
       (unfold y; clear y)
       rotate_left
       clear_value y)
    | (extract_lets +onlyGivenNames y; clear_value y)
    | with_reducible refine (ntStage_keeps ..).step (by decide) (by decide) ?_
    | with_reducible refine (markSwitched_keeps ..).step (by decide) (by decide) ?_
    | with_reducible refine (modFox_keeps ..).step (by decide) (by decide) ?_
    | with_reducible refine keeps_raise (by decide) (by decide) ?_
    | with_reducible refine keeps_foldl (fun _ _ _ => ?_) ?_
    | with_reducible refine keeps_ite ?_ ?_
    | split

theorem roundQuot_keeps (a b : Int) (s : State) :
    Keeps [.free]
      [] s (roundQuot a b s).2 := by
  unfold roundQuot
  repeat' first
    | with_reducible assumption
    | with_reducible exact Keeps.refl _ _ _
    | with_reducible refine keeps_takeFree (by decide) ?_
    | with_reducible refine keeps_ite ?_ ?_
    | split

theorem patternResult_keeps (page : Nat) (x : PatternSum) (s : State) :
    Keeps [.ev, .cal, .free]
      [Obj.eventLost, Obj.patternFlags, Obj.patternResult] s (patternResult page x s) := by
  unfold patternResult
  repeat' first
    | with_reducible assumption
    | with_reducible exact Keeps.refl _ _ _
    | (extract_lets +onlyGivenNames y
       refine have hy : Keeps [.ev, .cal, .free] [Obj.eventLost, Obj.patternFlags, Obj.patternResult] s y := ?_; ?_
       (unfold y; clear y)
       rotate_left
       clear_value y)
    | (extract_lets +onlyGivenNames y; clear_value y)
    | with_reducible refine (modCal_keeps ..).step (by decide) (by decide) ?_
    | with_reducible refine (roundQuot_keeps ..).step (by decide) (by decide) ?_
    | with_reducible refine keeps_raise (by decide) (by decide) ?_
    | with_reducible refine keeps_setN (by decide) ?_
    | with_reducible refine keeps_takeFree (by decide) ?_
    | with_reducible refine keeps_ite ?_ ?_
    | split
    | refine keeps_of_eq (by assumption) ?_

theorem patternClose_keeps (k page : Nat) (s : State) :
    Keeps [.ev, .insp, .cal, .free]
      [Obj.eventLost, Obj.patternFlags, Obj.patternResult] s (patternClose k page s) := by
  unfold patternClose
  repeat' first
    | with_reducible assumption
    | with_reducible exact Keeps.refl _ _ _
    | (extract_lets +onlyGivenNames y
       refine have hy : Keeps [.ev, .insp, .cal, .free] [Obj.eventLost, Obj.patternFlags, Obj.patternResult] s y := ?_; ?_
       (unfold y; clear y)
       rotate_left
       clear_value y)
    | (extract_lets +onlyGivenNames y)
    | with_reducible refine (modFox_keeps ..).step (by decide) (by decide) ?_
    | with_reducible refine (patternResult_keeps ..).step (by decide) (by decide) ?_
    | with_reducible refine keeps_forEach (fun _ _ _ => ?_) ?_
    | split

theorem bindTrims_keeps (q : Nat) (s : State) :
    Keeps [.cal]
      [] s (bindTrims q s) := by
  unfold bindTrims
  repeat' first
    | with_reducible assumption
    | with_reducible exact Keeps.refl _ _ _
    | with_reducible refine (modCal_keeps ..).step (by decide) (by decide) ?_
    | with_reducible refine keeps_ite ?_ ?_
    | split

theorem applyTrim_keeps (h p : Nat) (s : State) :
    Keeps [.dict, .ev, .cal]
      [Obj.eventLost, Obj.headTrim, Obj.patternFlags] s (applyTrim h p s) := by
  unfold applyTrim
  repeat' first
    | with_reducible assumption
    | with_reducible exact Keeps.refl _ _ _
    | (extract_lets +onlyGivenNames y
       refine have hy : Keeps [.dict, .ev, .cal] [Obj.eventLost, Obj.headTrim, Obj.patternFlags] s y := ?_; ?_
       (unfold y; clear y)
       rotate_left
       clear_value y)
    | (extract_lets +onlyGivenNames y)
    | with_reducible refine (modCal_keeps ..).step (by decide) (by decide) ?_
    | with_reducible refine keeps_raise (by decide) (by decide) ?_
    | with_reducible refine keeps_setN (by decide) ?_
    | with_reducible refine keeps_setShadow (by decide) ?_
    | with_reducible refine keeps_ite ?_ ?_
    | split

end Sys2Proof.Machine
end

