-- ==== Sys2Proof/Laws/Heads.lean ====
section
/-! SUPPORT. What each operation of Machine/Heads.lean leaves alone: nothing but the groups and the objects named differs. -/

set_option Elab.async false
set_option linter.all false

namespace Sys2Proof.Machine

open Sys2Proof

set_option linter.tactic.unusedName false

theorem modHead_keeps (h : Nat) (f : HeadUnit → HeadUnit) (s : State) :
    Keeps [.fire]
      [] s (modHead h f s) := by
  unfold modHead
  repeat' first
    | with_reducible assumption
    | with_reducible exact Keeps.refl _ _ _
    | split
    | refine keeps_fire (by decide) ?_

theorem modLink_keeps (h : Nat) (f : Link → Link) (s : State) :
    Keeps [.links]
      [] s (modLink h f s) := by
  unfold modLink
  repeat' first
    | with_reducible assumption
    | with_reducible exact Keeps.refl _ _ _
    | split
    | refine keeps_links (by decide) ?_

theorem sendHead_keeps (h kind : Nat) (ws : List Word) (s : State) :
    Keeps [.links, .sent]
      [] s (sendHead h kind ws s) := by
  unfold sendHead
  repeat' first
    | with_reducible assumption
    | with_reducible exact Keeps.refl _ _ _
    | with_reducible refine (modLink_keeps ..).step (by decide) (by decide) ?_
    | with_reducible refine keeps_emit' (by decide) ?_
    | split

theorem setBank_keeps (h : Nat) (bank : Bool) (x : BankHolds) (s : State) :
    Keeps [.links]
      [] s (setBank h bank x s) := by
  unfold setBank
  repeat' first
    | with_reducible assumption
    | with_reducible exact Keeps.refl _ _ _
    | with_reducible refine (modLink_keeps ..).step (by decide) (by decide) ?_
    | with_reducible refine keeps_ite ?_ ?_
    | split

theorem pumpFrames_keeps (h : Nat) : ∀ (n : Nat) (s : State), Keeps [.links, .sent] [] s (pumpFrames h n s)
  | 0, s => Keeps.refl _ _ s
  | n + 1, s => by
    unfold pumpFrames
    split
    · exact Keeps.refl _ _ _
    · refine keeps_ite (Keeps.refl _ _ _) (Keeps.trans ?_ (pumpFrames_keeps h n _))
      have hs : ∀ k ws f, Keeps [.links, .sent] [] s (sendHead h k ws (modLink h f s)) := fun _ _ _ =>
        (sendHead_keeps ..).step (by decide) (by decide) ((modLink_keeps ..).step (by decide) (by decide) (Keeps.refl _ _ _))
      split
      · exact (setBank_keeps ..).step (by decide) (by decide) (hs ..)
      · exact hs ..

theorem pumpHead_keeps (h : Nat) (s : State) :
    Keeps [.links, .sent]
      [] s (pumpHead h s) := by
  unfold pumpHead
  repeat' first
    | with_reducible assumption
    | with_reducible exact Keeps.refl _ _ _
    | with_reducible refine (pumpFrames_keeps ..).step (by decide) (by decide) ?_
    | split

theorem sendLow_keeps (h : Nat) (f : HeadFrame) (s : State) :
    Keeps [.links, .sent]
      [] s (sendLow h f s) := by
  unfold sendLow
  repeat' first
    | with_reducible assumption
    | with_reducible exact Keeps.refl _ _ _
    | with_reducible refine (modLink_keeps ..).step (by decide) (by decide) ?_
    | with_reducible refine (pumpHead_keeps ..).step (by decide) (by decide) ?_
    | split

theorem loadCurrent_keeps (h : Nat) (bank : Bool) (s : State) :
    Keeps [.links, .sent]
      [] s (loadCurrent h bank s) := by
  unfold loadCurrent
  repeat' first
    | with_reducible assumption
    | with_reducible exact Keeps.refl _ _ _
    | with_reducible refine (modLink_keeps ..).step (by decide) (by decide) ?_
    | with_reducible refine (sendLow_keeps ..).step (by decide) (by decide) ?_
    | split

theorem settleBanks_keeps (s : State) :
    Keeps [.links]
      [] s (settleBanks s) := by
  unfold settleBanks
  repeat' first
    | with_reducible assumption
    | with_reducible exact Keeps.refl _ _ _
    | (extract_lets +onlyGivenNames y
       refine have hy : Keeps [.links] [] s y := ?_; ?_
       (unfold y; clear y)
       rotate_left
       clear_value y)
    | (extract_lets +onlyGivenNames y)
    | with_reducible refine (modLink_keeps ..).step (by decide) (by decide) ?_
    | with_reducible refine keeps_forEach (fun _ _ _ => ?_) ?_
    | with_reducible refine keeps_ite ?_ ?_
    | split

theorem modBook_keeps (h : Nat) (f : Book → Book) (s : State) :
    Keeps [.fire]
      [] s (modBook h f s) := by
  unfold modBook
  repeat' first
    | with_reducible assumption
    | with_reducible exact Keeps.refl _ _ _
    | with_reducible refine (modHead_keeps ..).step (by decide) (by decide) ?_
    | split

theorem freeSlot_keeps (h p y : Nat) (fate : LineEnd) (cause : Nat) (s : State) :
    Keeps [.ev, .fire]
      [Obj.eventLost] s (freeSlot h p y fate cause s) := by
  unfold freeSlot
  repeat' first
    | with_reducible assumption
    | with_reducible exact Keeps.refl _ _ _
    | (extract_lets +onlyGivenNames y
       refine have hy : Keeps [.ev, .fire] [Obj.eventLost] s y := ?_; ?_
       (unfold y; clear y)
       rotate_left
       clear_value y)
    | (extract_lets +onlyGivenNames y)
    | with_reducible refine (modHead_keeps ..).step (by decide) (by decide) ?_
    | with_reducible refine (modBook_keeps ..).step (by decide) (by decide) ?_
    | with_reducible refine keeps_raise (by decide) (by decide) ?_
    | with_reducible refine keeps_ite ?_ ?_
    | split

theorem discardSlot_keeps (h : Nat) (e : Nat × Nat × Nat) (s : State) :
    Keeps [.ev, .fire, .free]
      [Obj.eventLost] s (discardSlot h e s) := by
  unfold discardSlot
  repeat' first
    | with_reducible assumption
    | with_reducible exact Keeps.refl _ _ _
    | with_reducible refine (freeSlot_keeps ..).step (by decide) (by decide) ?_
    | with_reducible refine keeps_takeFree (by decide) ?_
    | split

theorem discardLds_keeps (h : Nat) (which : Nat × Nat × Nat → Bool) (s : State) :
    Keeps [.ev, .fire, .free]
      [Obj.eventLost] s (discardLds h which s) := by
  unfold discardLds
  repeat' first
    | with_reducible assumption
    | with_reducible exact Keeps.refl _ _ _
    | (extract_lets +onlyGivenNames y
       refine have hy : Keeps [.ev, .fire, .free] [Obj.eventLost] s y := ?_; ?_
       (unfold y; clear y)
       rotate_left
       clear_value y)
    | (extract_lets +onlyGivenNames y)
    | with_reducible refine (discardSlot_keeps ..).step (by decide) (by decide) ?_
    | with_reducible refine keeps_forEach (fun _ _ _ => ?_) ?_
    | split

theorem excludeHead_keeps (h p y : Nat) (s : State) :
    Keeps [.insp]
      [] s (excludeHead h p y s) := by
  unfold excludeHead
  repeat' first
    | with_reducible assumption
    | with_reducible exact Keeps.refl _ _ _
    | (extract_lets +onlyGivenNames y
       refine have hy : Keeps [.insp] [] s y := ?_; ?_
       (unfold y; clear y)
       rotate_left
       clear_value y)
    | (extract_lets +onlyGivenNames y)
    | with_reducible refine keeps_ite ?_ ?_
    | split
    | refine keeps_insp (by decide) ?_

theorem bookLine_keeps (h p y : Nat) (fate : LineEnd) (cause : Nat) (s : State) :
    Keeps [.ev, .fire, .insp]
      [Obj.eventLost] s (bookLine h p y fate cause s) := by
  unfold bookLine
  repeat' first
    | with_reducible assumption
    | with_reducible exact Keeps.refl _ _ _
    | (extract_lets +onlyGivenNames y
       refine have hy : Keeps [.ev, .fire, .insp] [Obj.eventLost] s y := ?_; ?_
       (unfold y; clear y)
       rotate_left
       clear_value y)
    | (extract_lets +onlyGivenNames y)
    | with_reducible refine (modHead_keeps ..).step (by decide) (by decide) ?_
    | with_reducible refine (modBook_keeps ..).step (by decide) (by decide) ?_
    | with_reducible refine (freeSlot_keeps ..).step (by decide) (by decide) ?_
    | with_reducible refine (excludeHead_keeps ..).step (by decide) (by decide) ?_
    | with_reducible refine keeps_ite ?_ ?_
    | split

theorem releaseOverspeed_keeps (s : State) :
    Keeps [.fire, .sent]
      [] s (releaseOverspeed s) := by
  unfold releaseOverspeed
  repeat' first
    | with_reducible assumption
    | with_reducible exact Keeps.refl _ _ _
    | with_reducible refine keeps_emit' (by decide) ?_
    | with_reducible refine keeps_ite ?_ ?_
    | split
    | refine keeps_fire (by decide) ?_

theorem lineStarted_keeps (h p y : Nat) (skip : Bool) (fire : Option Nat) (s : State) :
    Keeps [.ev, .fire, .sent]
      [Obj.eventLost] s (lineStarted h p y skip fire s) := by
  unfold lineStarted
  repeat' first
    | with_reducible assumption
    | with_reducible exact Keeps.refl _ _ _
    | (extract_lets +onlyGivenNames y
       refine have hy : Keeps [.ev, .fire, .sent] [Obj.eventLost] s y := ?_; ?_
       (unfold y; clear y)
       rotate_left
       clear_value y)
    | (extract_lets +onlyGivenNames y)
    | with_reducible refine (modHead_keeps ..).step (by decide) (by decide) ?_
    | with_reducible refine (releaseOverspeed_keeps ..).step (by decide) (by decide) ?_
    | with_reducible refine keeps_raise (by decide) (by decide) ?_
    | with_reducible refine keeps_ite ?_ ?_
    | split
    | refine keeps_fire (by decide) ?_

theorem beginHalt_keeps (p y : Nat) (s : State) :
    Keeps [.ev, .fire, .sent]
      [Obj.eventLost, Obj.haltLine, Obj.haltPage] s (beginHalt p y s) := by
  unfold beginHalt
  repeat' first
    | with_reducible assumption
    | with_reducible exact Keeps.refl _ _ _
    | (extract_lets +onlyGivenNames y
       refine have hy : Keeps [.ev, .fire, .sent] [Obj.eventLost, Obj.haltLine, Obj.haltPage] s y := ?_; ?_
       (unfold y; clear y)
       rotate_left
       clear_value y)
    | (extract_lets +onlyGivenNames y)
    | with_reducible refine keeps_raise (by decide) (by decide) ?_
    | with_reducible refine keeps_setN (by decide) ?_
    | with_reducible refine keeps_emit' (by decide) ?_
    | with_reducible refine keeps_ite ?_ ?_
    | split
    | refine keeps_fire (by decide) ?_

theorem lateEvent_keeps (p y n : Nat) (s : State) :
    Keeps [.ev, .fire]
      [Obj.eventLost] s (lateEvent p y n s) := by
  unfold lateEvent
  repeat' first
    | with_reducible assumption
    | with_reducible exact Keeps.refl _ _ _
    | with_reducible refine keeps_raise (by decide) (by decide) ?_
    | with_reducible refine keeps_ite ?_ ?_
    | split
    | refine keeps_fire (by decide) ?_

theorem lateFlush_keeps (s : State) :
    Keeps [.ev, .fire]
      [Obj.eventLost] s (lateFlush s) := by
  unfold lateFlush
  repeat' first
    | with_reducible assumption
    | with_reducible exact Keeps.refl _ _ _
    | with_reducible refine (lateEvent_keeps ..).step (by decide) (by decide) ?_
    | split
    | refine keeps_fire (by decide) ?_

theorem markLate_keeps (p y n : Nat) (s : State) :
    Keeps [.fire]
      [] s (markLate p y n s) := by
  unfold markLate
  repeat' first
    | with_reducible assumption
    | with_reducible exact Keeps.refl _ _ _
    | split
    | refine keeps_fire (by decide) ?_

theorem lateGroup_keeps (p y : Nat) (s : State) :
    Keeps [.ev, .fire, .sent]
      [Obj.eventLost, Obj.haltLine, Obj.haltPage] s (lateGroup p y s) := by
  unfold lateGroup
  repeat' first
    | with_reducible assumption
    | with_reducible exact Keeps.refl _ _ _
    | (extract_lets +onlyGivenNames y
       refine have hy : Keeps [.ev, .fire, .sent] [Obj.eventLost, Obj.haltLine, Obj.haltPage] s y := ?_; ?_
       (unfold y; clear y)
       rotate_left
       clear_value y)
    | (extract_lets +onlyGivenNames y)
    | with_reducible refine (beginHalt_keeps ..).step (by decide) (by decide) ?_
    | with_reducible refine (lateEvent_keeps ..).step (by decide) (by decide) ?_
    | with_reducible refine (markLate_keeps ..).step (by decide) (by decide) ?_
    | with_reducible refine keeps_ite ?_ ?_
    | split

theorem lateAtHandOver_keeps (p y : Nat) (s : State) :
    Keeps [.ev, .fire, .sent]
      [Obj.eventLost, Obj.haltLine, Obj.haltPage] s (lateAtHandOver p y s) := by
  unfold lateAtHandOver
  repeat' first
    | with_reducible assumption
    | with_reducible exact Keeps.refl _ _ _
    | (extract_lets +onlyGivenNames y
       refine have hy : Keeps [.ev, .fire, .sent] [Obj.eventLost, Obj.haltLine, Obj.haltPage] s y := ?_; ?_
       (unfold y; clear y)
       rotate_left
       clear_value y)
    | (extract_lets +onlyGivenNames y)
    | with_reducible refine (beginHalt_keeps ..).step (by decide) (by decide) ?_
    | with_reducible refine (lateEvent_keeps ..).step (by decide) (by decide) ?_
    | with_reducible refine (lateFlush_keeps ..).step (by decide) (by decide) ?_
    | with_reducible refine (markLate_keeps ..).step (by decide) (by decide) ?_
    | with_reducible refine keeps_ite ?_ ?_
    | split
    | refine keeps_fire (by decide) ?_

theorem lateHeadLine_keeps (h p y : Nat) (s : State) :
    Keeps [.ev, .fire, .sent]
      [Obj.eventLost, Obj.haltLine, Obj.haltPage] s (lateHeadLine h p y s) := by
  unfold lateHeadLine
  repeat' first
    | with_reducible assumption
    | with_reducible exact Keeps.refl _ _ _
    | (extract_lets +onlyGivenNames y
       refine have hy : Keeps [.ev, .fire, .sent] [Obj.eventLost, Obj.haltLine, Obj.haltPage] s y := ?_; ?_
       (unfold y; clear y)
       rotate_left
       clear_value y)
    | (extract_lets +onlyGivenNames y)
    | with_reducible refine (modHead_keeps ..).step (by decide) (by decide) ?_
    | with_reducible refine (beginHalt_keeps ..).step (by decide) (by decide) ?_
    | with_reducible refine (lateEvent_keeps ..).step (by decide) (by decide) ?_
    | with_reducible refine keeps_ite ?_ ?_
    | split

theorem restoreAtPage_keeps (h p y : Nat) (s : State) :
    Keeps [.ev, .fire]
      [Obj.eventLost] s (restoreAtPage h p y s) := by
  unfold restoreAtPage
  repeat' first
    | with_reducible assumption
    | with_reducible exact Keeps.refl _ _ _
    | with_reducible refine (modHead_keeps ..).step (by decide) (by decide) ?_
    | with_reducible refine keeps_raise (by decide) (by decide) ?_
    | with_reducible refine keeps_ite ?_ ?_
    | split

theorem passLine_keeps (h p y : Nat) (s : State) :
    Keeps [.fire]
      [] s (passLine h p y s) := by
  unfold passLine
  repeat' first
    | with_reducible assumption
    | with_reducible exact Keeps.refl _ _ _
    | with_reducible refine (modHead_keeps ..).step (by decide) (by decide) ?_
    | split

theorem blankCommitted_keeps (h : Nat) (c : Committed) (cause : Nat) (s : State) :
    Keeps [.ev, .fire, .insp]
      [Obj.eventLost] s (blankCommitted h c cause s) := by
  unfold blankCommitted
  repeat' first
    | with_reducible assumption
    | with_reducible exact Keeps.refl _ _ _
    | (extract_lets +onlyGivenNames y
       refine have hy : Keeps [.ev, .fire, .insp] [Obj.eventLost] s y := ?_; ?_
       (unfold y; clear y)
       rotate_left
       clear_value y)
    | (extract_lets +onlyGivenNames y)
    | with_reducible refine (modHead_keeps ..).step (by decide) (by decide) ?_
    | with_reducible refine (bookLine_keeps ..).step (by decide) (by decide) ?_
    | split

theorem cancelCommitted_keeps (s : State) :
    Keeps [.ev, .fire, .links, .insp, .sent]
      [Obj.eventLost] s (cancelCommitted s) := by
  unfold cancelCommitted
  repeat' first
    | with_reducible assumption
    | with_reducible exact Keeps.refl _ _ _
    | (extract_lets +onlyGivenNames y
       refine have hy : Keeps [.ev, .fire, .links, .insp, .sent] [Obj.eventLost] s y := ?_; ?_
       (unfold y; clear y)
       rotate_left
       clear_value y)
    | (extract_lets +onlyGivenNames y)
    | with_reducible refine (sendHead_keeps ..).step (by decide) (by decide) ?_
    | with_reducible refine (blankCommitted_keeps ..).step (by decide) (by decide) ?_
    | with_reducible refine keeps_forEach (fun _ _ _ => ?_) ?_
    | with_reducible refine keeps_ite ?_ ?_
    | split

theorem linkDown_keeps (h cause : Nat) (s : State) :
    Keeps [.ev, .fire, .links, .insp, .up]
      [Obj.eventLost] s (linkDown h cause s) := by
  unfold linkDown
  repeat' first
    | with_reducible assumption
    | with_reducible exact Keeps.refl _ _ _
    | (extract_lets +onlyGivenNames y
       refine have hy : Keeps [.ev, .fire, .links, .insp, .up] [Obj.eventLost] s y := ?_; ?_
       (unfold y; clear y)
       rotate_left
       clear_value y)
    | (extract_lets +onlyGivenNames y)
    | with_reducible refine (modLink_keeps ..).step (by decide) (by decide) ?_
    | with_reducible refine (blankCommitted_keeps ..).step (by decide) (by decide) ?_
    | with_reducible refine keeps_raise (by decide) (by decide) ?_
    | with_reducible refine keeps_setUp (by decide) ?_
    | with_reducible refine keeps_forEach (fun _ _ _ => ?_) ?_
    | with_reducible refine keeps_ite ?_ ?_
    | split

theorem linkTo_keeps (h : Nat) (st : LinkState) (s : State) :
    Keeps [.ev, .fire, .links, .insp, .up]
      [Obj.eventLost] s (linkTo h st s) := by
  unfold linkTo
  repeat' first
    | with_reducible assumption
    | with_reducible exact Keeps.refl _ _ _
    | (extract_lets +onlyGivenNames y
       refine have hy : Keeps [.ev, .fire, .links, .insp, .up] [Obj.eventLost] s y := ?_; ?_
       (unfold y; clear y)
       rotate_left
       clear_value y)
    | (extract_lets +onlyGivenNames y)
    | with_reducible refine (modLink_keeps ..).step (by decide) (by decide) ?_
    | with_reducible refine (linkDown_keeps ..).step (by decide) (by decide) ?_
    | with_reducible refine keeps_ite ?_ ?_
    | split

theorem linkReady_keeps (h : Nat) (time : HeadFrame) (s : State) :
    Keeps [.ev, .links, .sent, .up]
      [Obj.eventLost] s (linkReady h time s) := by
  unfold linkReady
  repeat' first
    | with_reducible assumption
    | with_reducible exact Keeps.refl _ _ _
    | (extract_lets +onlyGivenNames y
       refine have hy : Keeps [.ev, .links, .sent, .up] [Obj.eventLost] s y := ?_; ?_
       (unfold y; clear y)
       rotate_left
       clear_value y)
    | (extract_lets +onlyGivenNames y)
    | with_reducible refine (modLink_keeps ..).step (by decide) (by decide) ?_
    | with_reducible refine (sendLow_keeps ..).step (by decide) (by decide) ?_
    | with_reducible refine (loadCurrent_keeps ..).step (by decide) (by decide) ?_
    | with_reducible refine keeps_raise (by decide) (by decide) ?_
    | with_reducible refine keeps_setUp (by decide) ?_
    | split

theorem forceIdle_keeps (s : State) :
    Keeps [.ev, .fire, .links, .insp, .sent]
      [Obj.eventLost] s (forceIdle s) := by
  unfold forceIdle
  repeat' first
    | with_reducible assumption
    | with_reducible exact Keeps.refl _ _ _
    | (extract_lets +onlyGivenNames y
       refine have hy : Keeps [.ev, .fire, .links, .insp, .sent] [Obj.eventLost] s y := ?_; ?_
       (unfold y; clear y)
       rotate_left
       clear_value y)
    | (extract_lets +onlyGivenNames y)
    | with_reducible refine (sendHead_keeps ..).step (by decide) (by decide) ?_
    | with_reducible refine (blankCommitted_keeps ..).step (by decide) (by decide) ?_
    | with_reducible refine keeps_forEach (fun _ _ _ => ?_) ?_
    | with_reducible refine keeps_ite ?_ ?_
    | split

theorem holdSource_keeps (cause : Nat) (s : State) :
    Keeps [.ev, .fire, .links, .pos, .insp, .sent]
      [Obj.eventLost] s (holdSource cause s) := by
  unfold holdSource
  repeat' first
    | with_reducible assumption
    | with_reducible exact Keeps.refl _ _ _
    | (extract_lets +onlyGivenNames y
       refine have hy : Keeps [.ev, .fire, .links, .pos, .insp, .sent] [Obj.eventLost] s y := ?_; ?_
       (unfold y; clear y)
       rotate_left
       clear_value y)
    | (extract_lets +onlyGivenNames y)
    | with_reducible refine (cancelCommitted_keeps ..).step (by decide) (by decide) ?_
    | with_reducible refine keeps_raise (by decide) (by decide) ?_
    | split
    | refine keeps_pos (by decide) ?_

theorem rideCount_keeps (n : Nat) (s : State) :
    Keeps [.ev, .fire, .links, .pos, .insp, .sent]
      [Obj.eventLost] s (rideCount n s) := by
  unfold rideCount
  repeat' first
    | with_reducible assumption
    | with_reducible exact Keeps.refl _ _ _
    | with_reducible refine (holdSource_keeps ..).step (by decide) (by decide) ?_
    | with_reducible refine keeps_ite ?_ ?_
    | split
    | refine keeps_pos (by decide) ?_

theorem endPages_keeps (s : State) :
    Keeps [.ev, .bond, .rfe, .pages, .fire, .links, .pos, .insp, .sent, .values]
      [Obj.eventLost, Obj.maxLineRate] s (endPages s) := by
  unfold endPages
  repeat' first
    | with_reducible assumption
    | with_reducible exact Keeps.refl _ _ _
    | (extract_lets +onlyGivenNames y
       refine have hy : Keeps [.ev, .bond, .rfe, .pages, .fire, .links, .pos, .insp, .sent, .values] [Obj.eventLost, Obj.maxLineRate] s y := ?_; ?_
       (unfold y; clear y)
       rotate_left
       clear_value y)
    | (extract_lets +onlyGivenNames y)
    | with_reducible refine (releaseWords_keeps ..).step (by decide) (by decide) ?_
    | with_reducible refine (bondTry_keeps ..).step (by decide) (by decide) ?_
    | with_reducible refine (rideCount_keeps ..).step (by decide) (by decide) ?_
    | with_reducible refine keeps_foldl (fun _ _ _ => ?_) ?_
    | with_reducible refine keeps_ite ?_ ?_
    | split
    | refine keeps_mk rfl rfl List.prefix_rfl id rfl rfl rfl ?_
    | refine keeps_rfe (by decide) ?_
    | refine keeps_pages (by decide) ?_
    | refine keeps_fire (by decide) ?_

theorem closeInput_keeps (p lg : Nat) (s : State) :
    Keeps [.ev, .bond, .rfe, .pages, .fire, .links, .pos, .insp, .sent, .values]
      [Obj.eventLost, Obj.maxLineRate] s (closeInput p lg s) := by
  unfold closeInput
  repeat' first
    | with_reducible assumption
    | with_reducible exact Keeps.refl _ _ _
    | (extract_lets +onlyGivenNames y
       refine have hy : Keeps [.ev, .bond, .rfe, .pages, .fire, .links, .pos, .insp, .sent, .values] [Obj.eventLost, Obj.maxLineRate] s y := ?_; ?_
       (unfold y; clear y)
       rotate_left
       clear_value y)
    | (extract_lets +onlyGivenNames y)
    | with_reducible refine (endPages_keeps ..).step (by decide) (by decide) ?_
    | with_reducible refine keeps_ite ?_ ?_
    | split
    | refine keeps_mk rfl rfl List.prefix_rfl id rfl rfl rfl ?_
    | refine keeps_rfe (by decide) ?_
    | refine keeps_pages (by decide) ?_

theorem modCodec_keeps (f : Codec → Codec) (s : State) :
    Keeps [.codec]
      [] s (modCodec f s) := by
  unfold modCodec
  repeat' first
    | with_reducible assumption
    | with_reducible exact Keeps.refl _ _ _
    | split
    | refine keeps_codec (by decide) ?_

theorem codecPass_keeps : ∀ (n : Nat) (s : State), Keeps [.codec] [] s (codecPass n s)
  | 0, s => Keeps.refl _ _ s
  | n + 1, s => by
    unfold codecPass
    split
    · exact Keeps.refl _ _ _
    · exact keeps_ite ((modCodec_keeps ..).trans (codecPass_keeps n _)) (Keeps.refl _ _ _)

theorem codecFollow_keeps (s : State) :
    Keeps [.codec]
      [] s (codecFollow s) := by
  unfold codecFollow
  repeat' first
    | with_reducible assumption
    | with_reducible exact Keeps.refl _ _ _
    | with_reducible refine (codecPass_keeps ..).step (by decide) (by decide) ?_
    | with_reducible refine keeps_foldl (fun _ _ _ => ?_) ?_
    | split

theorem closeCut_keeps (p lg : Nat) (s : State) :
    Keeps [.ev, .bond, .rfe, .pages, .codec, .fire, .links, .pos, .insp, .sent, .values]
      [Obj.eventLost, Obj.maxLineRate] s (closeCut p lg s) := by
  unfold closeCut
  repeat' first
    | with_reducible assumption
    | with_reducible exact Keeps.refl _ _ _
    | with_reducible refine (closeInput_keeps ..).step (by decide) (by decide) ?_
    | with_reducible refine (codecFollow_keeps ..).step (by decide) (by decide) ?_
    | with_reducible refine keeps_ite ?_ ?_
    | split
    | refine keeps_pages (by decide) ?_

end Sys2Proof.Machine
end

