-- ==== Sys2Proof/Laws/Seams.lean ====
section
/-! SUPPORT. What each operation of Machine/Seams.lean leaves alone: nothing but the groups and the objects named differs. -/

set_option Elab.async false
set_option linter.all false

namespace Sys2Proof.Machine

open Sys2Proof

set_option linter.tactic.unusedName false

theorem modFab_keeps (f : Fabric → Fabric) (s : State) :
    Keeps [.fabric]
      [] s (modFab f s) := by
  unfold modFab
  repeat' first
    | with_reducible assumption
    | with_reducible exact Keeps.refl _ _ _
    | split
    | refine keeps_fabric (by decide) ?_

theorem seamEvent_keeps (lane : Option Nat) (cause : Nat) (s : State) :
    Keeps [.ev, .free]
      [Obj.eventLost] s (seamEvent lane cause s) := by
  unfold seamEvent
  repeat' first
    | with_reducible assumption
    | with_reducible exact Keeps.refl _ _ _
    | (extract_lets +onlyGivenNames y
       refine have hy : Keeps [.ev, .free] [Obj.eventLost] s y := ?_; ?_
       (unfold y; clear y)
       rotate_left
       clear_value y)
    | (extract_lets +onlyGivenNames y)
    | with_reducible refine keeps_raise (by decide) (by decide) ?_
    | with_reducible refine keeps_takeFree (by decide) ?_
    | split
    | refine keeps_of_eq (by assumption) ?_

theorem forceEdges_keeps (es : List (Nat × Nat)) (s : State) :
    Keeps [.fabric]
      [] s (forceEdges es s) := by
  unfold forceEdges
  repeat' first
    | with_reducible assumption
    | with_reducible exact Keeps.refl _ _ _
    | with_reducible refine (modFab_keeps ..).step (by decide) (by decide) ?_
    | with_reducible refine keeps_foldl (fun _ _ _ => ?_) ?_
    | split

theorem seamDown_keeps (k cause : Nat) (s : State) :
    Keeps [.ev, .fabric, .free]
      [Obj.eventLost] s (seamDown k cause s) := by
  unfold seamDown
  repeat' first
    | with_reducible assumption
    | with_reducible exact Keeps.refl _ _ _
    | (extract_lets +onlyGivenNames y
       refine have hy : Keeps [.ev, .fabric, .free] [Obj.eventLost] s y := ?_; ?_
       (unfold y; clear y)
       rotate_left
       clear_value y)
    | (extract_lets +onlyGivenNames y)
    | with_reducible refine (modFab_keeps ..).step (by decide) (by decide) ?_
    | with_reducible refine (seamEvent_keeps ..).step (by decide) (by decide) ?_
    | with_reducible refine (forceEdges_keeps ..).step (by decide) (by decide) ?_
    | with_reducible refine keeps_ite ?_ ?_
    | split

theorem seamPage_keeps (s : State) :
    Keeps [.ev, .fabric, .free]
      [Obj.eventLost] s (seamPage s) := by
  unfold seamPage
  repeat' first
    | with_reducible assumption
    | with_reducible exact Keeps.refl _ _ _
    | (extract_lets +onlyGivenNames y
       refine have hy : Keeps [.ev, .fabric, .free] [Obj.eventLost] s y := ?_; ?_
       (unfold y; clear y)
       rotate_left
       clear_value y)
    | (extract_lets +onlyGivenNames y)
    | with_reducible refine (modFab_keeps ..).step (by decide) (by decide) ?_
    | with_reducible refine (seamEvent_keeps ..).step (by decide) (by decide) ?_
    | with_reducible refine keeps_forEach (fun _ _ _ => ?_) ?_
    | with_reducible refine keeps_ite ?_ ?_
    | split

theorem edgeSend_keeps (backward : Bool) (chain : Nat) (comp : Bool) (page line : Nat) (ws : List Word) (s : State) :
    Keeps [.fabric, .sent]
      [] s (edgeSend backward chain comp page line ws s) := by
  unfold edgeSend
  repeat' first
    | with_reducible assumption
    | with_reducible exact Keeps.refl _ _ _
    | (extract_lets +onlyGivenNames y
       refine have hy : Keeps [.fabric, .sent] [] s y := ?_; ?_
       (unfold y; clear y)
       rotate_left
       clear_value y)
    | (extract_lets +onlyGivenNames y)
    | with_reducible refine (modFab_keeps ..).step (by decide) (by decide) ?_
    | with_reducible refine keeps_emit' (by decide) ?_
    | with_reducible refine keeps_ite ?_ ?_
    | split

theorem voidLine_keeps (p y : Nat) (s : State) :
    Keeps [.fabric, .sent]
      [] s (voidLine p y s) := by
  unfold voidLine
  repeat' first
    | with_reducible assumption
    | with_reducible exact Keeps.refl _ _ _
    | (extract_lets +onlyGivenNames y
       refine have hy : Keeps [.fabric, .sent] [] s y := ?_; ?_
       (unfold y; clear y)
       rotate_left
       clear_value y)
    | (extract_lets +onlyGivenNames y)
    | with_reducible refine (edgeSend_keeps ..).step (by decide) (by decide) ?_
    | with_reducible refine keeps_forEach (fun _ _ _ => ?_) ?_
    | with_reducible refine keeps_ite ?_ ?_
    | split

theorem retrySend_keeps (chain e : Nat) (comp : Bool) (p y : Nat) (s : State) :
    Keeps [.sent]
      [] s (retrySend chain e comp p y s) := by
  unfold retrySend
  repeat' first
    | with_reducible assumption
    | with_reducible exact Keeps.refl _ _ _
    | with_reducible refine keeps_emit' (by decide) ?_
    | split

end Sys2Proof.Machine
end

