-- ==== Sys2Proof/Laws/Firing.lean ====
section
/-! SUPPORT. What each operation of Machine/Firing.lean leaves alone: nothing but the groups and the objects named differs. -/

set_option Elab.async false
set_option linter.all false

namespace Sys2Proof.Machine

open Sys2Proof

set_option linter.tactic.unusedName false

theorem armDo_keeps (s : State) :
    Keeps [.fire]
      [Obj.fireEnable] s (armDo s) := by
  unfold armDo
  repeat' first
    | with_reducible assumption
    | with_reducible exact Keeps.refl _ _ _
    | (extract_lets +onlyGivenNames y
       refine have hy : Keeps [.fire] [Obj.fireEnable] s y := ?_; ?_
       (unfold y; clear y)
       rotate_left
       clear_value y)
    | (extract_lets +onlyGivenNames y)
    | with_reducible refine keeps_setN (by decide) ?_
    | with_reducible refine keeps_ite ?_ ?_
    | split
    | refine keeps_fire (by decide) ?_

theorem disarmDo_keeps (s : State) :
    Keeps [.fire, .sent]
      [Obj.fireEnable] s (disarmDo s) := by
  unfold disarmDo
  repeat' first
    | with_reducible assumption
    | with_reducible exact Keeps.refl _ _ _
    | (extract_lets +onlyGivenNames y
       refine have hy : Keeps [.fire, .sent] [Obj.fireEnable] s y := ?_; ?_
       (unfold y; clear y)
       rotate_left
       clear_value y)
    | (extract_lets +onlyGivenNames y)
    | with_reducible refine keeps_setN (by decide) ?_
    | with_reducible refine keeps_emit' (by decide) ?_
    | with_reducible refine keeps_ite ?_ ?_
    | split
    | refine keeps_fire (by decide) ?_

theorem markUnscreened_keeps (p y : Nat) (s : State) :
    Keeps [.fire]
      [] s (markUnscreened p y s) := by
  unfold markUnscreened
  repeat' first
    | with_reducible assumption
    | with_reducible exact Keeps.refl _ _ _
    | split
    | refine keeps_fire (by decide) ?_

theorem markChecked_keeps (p lg : Nat) (late : Bool) (s : State) :
    Keeps [.rfe]
      [] s (markChecked p lg late s) := by
  unfold markChecked
  repeat' first
    | with_reducible assumption
    | with_reducible exact Keeps.refl _ _ _
    | with_reducible refine keeps_ite ?_ ?_
    | split
    | refine keeps_rfe (by decide) ?_

theorem checkLg_keeps (p lg : Nat) (s : State) :
    Keeps [.ev, .rfe, .codec, .fabric, .fire, .sent]
      [Obj.eventLost, Obj.haltLine, Obj.haltPage, Obj.lgLate] s (checkLg p lg s) := by
  unfold checkLg
  repeat' first
    | with_reducible assumption
    | with_reducible exact Keeps.refl _ _ _
    | (extract_lets +onlyGivenNames y
       refine have hy : Keeps [.ev, .rfe, .codec, .fabric, .fire, .sent] [Obj.eventLost, Obj.haltLine, Obj.haltPage, Obj.lgLate] s y := ?_; ?_
       (unfold y; clear y)
       rotate_left
       clear_value y)
    | (extract_lets +onlyGivenNames y)
    | with_reducible refine (voidLine_keeps ..).step (by decide) (by decide) ?_
    | with_reducible refine (lateGroup_keeps ..).step (by decide) (by decide) ?_
    | with_reducible refine (codecFollow_keeps ..).step (by decide) (by decide) ?_
    | with_reducible refine (markUnscreened_keeps ..).step (by decide) (by decide) ?_
    | with_reducible refine (markChecked_keeps ..).step (by decide) (by decide) ?_
    | with_reducible refine keeps_bump (by decide) ?_
    | with_reducible refine keeps_forEach (fun _ _ _ => ?_) ?_
    | with_reducible refine keeps_ite ?_ ?_
    | split

theorem queueLine_keeps (h p y : Nat) (codes : List Word) (s : State) :
    Keeps [.fire, .xing]
      [] s (queueLine h p y codes s) := by
  unfold queueLine
  repeat' first
    | with_reducible assumption
    | with_reducible exact Keeps.refl _ _ _
    | (extract_lets +onlyGivenNames y
       refine have hy : Keeps [.fire, .xing] [] s y := ?_; ?_
       (unfold y; clear y)
       rotate_left
       clear_value y)
    | (extract_lets +onlyGivenNames y)
    | with_reducible refine (modHead_keeps ..).step (by decide) (by decide) ?_
    | with_reducible refine (xingQueue_keeps ..).step (by decide) (by decide) ?_
    | with_reducible refine keeps_ite ?_ ?_
    | split

theorem queuesLost_keeps (s : State) :
    Keeps [.fire]
      [] s (queuesLost s) := by
  unfold queuesLost
  repeat' first
    | with_reducible assumption
    | with_reducible exact Keeps.refl _ _ _
    | split
    | refine keeps_fire (by decide) ?_

theorem ldsWrite_keeps (h p y : Nat) (codes : List Word) (s : State) :
    Keeps [.ev, .mem, .fire]
      [Obj.eventLost, Obj.flipCtrl] s (ldsWrite h p y codes s) := by
  unfold ldsWrite
  repeat' first
    | with_reducible assumption
    | with_reducible exact Keeps.refl _ _ _
    | (extract_lets +onlyGivenNames y
       refine have hy : Keeps [.ev, .mem, .fire] [Obj.eventLost, Obj.flipCtrl] s y := ?_; ?_
       (unfold y; clear y)
       rotate_left
       clear_value y)
    | (extract_lets +onlyGivenNames y)
    | with_reducible refine (modHead_keeps ..).step (by decide) (by decide) ?_
    | with_reducible refine (modBook_keeps ..).step (by decide) (by decide) ?_
    | with_reducible refine (writeRun_keeps ..).step (by decide) (by decide) ?_
    | split

theorem readRun_keeps (m : Nat) : ∀ (a n : Nat) (s : State),
    Keeps [.pwr, .ev, .mem, .fabric, .free, .up]
      [Obj.corrected, Obj.eventLost, Obj.flipCtrl, Obj.poisonReads, Obj.tileFault, Obj.tileReady, Obj.uncorrectable, Obj.wbDropped]
      s (readRun m a n s).2
  | _, 0, s => Keeps.refl _ _ s
  | a, n + 1, s => (userRead_keeps m a s).trans (readRun_keeps m (a + 1) n _)

theorem handOnward_keeps (p y : Nat) (s : State) :
    Keeps [.ev, .fire]
      [Obj.eventLost] s (handOnward p y s) := by
  unfold handOnward
  repeat' first
    | with_reducible assumption
    | with_reducible exact Keeps.refl _ _ _
    | (extract_lets +onlyGivenNames y
       refine have hy : Keeps [.ev, .fire] [Obj.eventLost] s y := ?_; ?_
       (unfold y; clear y)
       rotate_left
       clear_value y)
    | (extract_lets +onlyGivenNames y)
    | with_reducible refine (lateFlush_keeps ..).step (by decide) (by decide) ?_
    | with_reducible refine keeps_ite ?_ ?_
    | split
    | refine keeps_fire (by decide) ?_

theorem handOverLds_keeps (h : Nat) (s : State) :
    Keeps [.pwr, .ev, .mem, .fabric, .fire, .xing, .free, .up]
      [Obj.corrected, Obj.eventLost, Obj.flipCtrl, Obj.poisonReads, Obj.tileFault, Obj.tileReady, Obj.uncorrectable, Obj.wbDropped] s (handOverLds h s) := by
  unfold handOverLds
  repeat' first
    | with_reducible assumption
    | with_reducible exact Keeps.refl _ _ _
    | (extract_lets +onlyGivenNames y
       refine have hy : Keeps [.pwr, .ev, .mem, .fabric, .fire, .xing, .free, .up] [Obj.corrected, Obj.eventLost, Obj.flipCtrl, Obj.poisonReads, Obj.tileFault, Obj.tileReady, Obj.uncorrectable, Obj.wbDropped] s y := ?_; ?_
       (unfold y; clear y)
       rotate_left
       clear_value y)
    | (extract_lets +onlyGivenNames y)
    | with_reducible refine (queueLine_keeps ..).step (by decide) (by decide) ?_
    | with_reducible refine (readRun_keeps ..).step (by decide) (by decide) ?_
    | with_reducible refine keeps_ite ?_ ?_
    | split
    | refine keeps_of_eq (by assumption) ?_

theorem handLine_keeps (h p y : Nat) (codes : List Word) (s : State) :
    Keeps [.pwr, .ev, .mem, .fabric, .fire, .xing, .free, .up]
      [Obj.corrected, Obj.eventLost, Obj.flipCtrl, Obj.poisonReads, Obj.tileFault, Obj.tileReady, Obj.uncorrectable, Obj.wbDropped] s (handLine h p y codes s) := by
  unfold handLine
  repeat' first
    | with_reducible assumption
    | with_reducible exact Keeps.refl _ _ _
    | (extract_lets +onlyGivenNames y
       refine have hy : Keeps [.pwr, .ev, .mem, .fabric, .fire, .xing, .free, .up] [Obj.corrected, Obj.eventLost, Obj.flipCtrl, Obj.poisonReads, Obj.tileFault, Obj.tileReady, Obj.uncorrectable, Obj.wbDropped] s y := ?_; ?_
       (unfold y; clear y)
       rotate_left
       clear_value y)
    | (extract_lets +onlyGivenNames y)
    | with_reducible refine (queueLine_keeps ..).step (by decide) (by decide) ?_
    | with_reducible refine (ldsWrite_keeps ..).step (by decide) (by decide) ?_
    | with_reducible refine (handOverLds_keeps ..).step (by decide) (by decide) ?_
    | with_reducible refine keeps_ite ?_ ?_
    | split

theorem handOver_keeps (s : State) :
    Keeps [.pwr, .ev, .mem, .fabric, .fire, .xing, .sent, .free, .up]
      [Obj.corrected, Obj.eventLost, Obj.flipCtrl, Obj.haltLine, Obj.haltPage, Obj.poisonReads, Obj.tileFault, Obj.tileReady, Obj.uncorrectable, Obj.wbDropped] s (handOver s) := by
  unfold handOver
  repeat' first
    | with_reducible assumption
    | with_reducible exact Keeps.refl _ _ _
    | (extract_lets +onlyGivenNames y
       refine have hy : Keeps [.pwr, .ev, .mem, .fabric, .fire, .xing, .sent, .free, .up] [Obj.corrected, Obj.eventLost, Obj.flipCtrl, Obj.haltLine, Obj.haltPage, Obj.poisonReads, Obj.tileFault, Obj.tileReady, Obj.uncorrectable, Obj.wbDropped] s y := ?_; ?_
       (unfold y; clear y)
       rotate_left
       clear_value y)
    | (extract_lets +onlyGivenNames y)
    | with_reducible refine (lateAtHandOver_keeps ..).step (by decide) (by decide) ?_
    | with_reducible refine (handLine_keeps ..).step (by decide) (by decide) ?_
    | with_reducible refine (handOnward_keeps ..).step (by decide) (by decide) ?_
    | with_reducible refine keeps_forEach (fun _ _ _ => ?_) ?_
    | with_reducible refine keeps_ite ?_ ?_
    | split
    | refine keeps_fabric (by decide) ?_

theorem deadline_keeps (h : Nat) (s : State) :
    Keeps [.ev, .fire, .sent]
      [Obj.eventLost, Obj.haltLine, Obj.haltPage] s (deadline h s) := by
  unfold deadline
  repeat' first
    | with_reducible assumption
    | with_reducible exact Keeps.refl _ _ _
    | with_reducible refine (lateHeadLine_keeps ..).step (by decide) (by decide) ?_
    | with_reducible refine keeps_ite ?_ ?_
    | split

theorem delayTake_keeps (h : Nat) (s : State) :
    Keeps [.cal]
      [] s (delayTake h s) := by
  unfold delayTake
  repeat' first
    | with_reducible assumption
    | with_reducible exact Keeps.refl _ _ _
    | split
    | refine keeps_cal (by decide) ?_

theorem commitFire_keeps (h p y fire : Nat) (dp dt : Int) (bank : Bool) (codes : List Word) (s : State) :
    Keeps [.ev, .fire, .links, .cal, .sent]
      [Obj.energyNow, Obj.eventLost, Obj.kLine, Obj.staleT, Obj.staleV] s (commitFire h p y fire dp dt bank codes s) := by
  unfold commitFire
  repeat' first
    | with_reducible assumption
    | with_reducible exact Keeps.refl _ _ _
    | (extract_lets +onlyGivenNames y
       refine have hy : Keeps [.ev, .fire, .links, .cal, .sent] [Obj.energyNow, Obj.eventLost, Obj.kLine, Obj.staleT, Obj.staleV] s y := ?_; ?_
       (unfold y; clear y)
       rotate_left
       clear_value y)
    | (extract_lets +onlyGivenNames y)
    | with_reducible refine (modHead_keeps ..).step (by decide) (by decide) ?_
    | with_reducible refine (modLink_keeps ..).step (by decide) (by decide) ?_
    | with_reducible refine (sendHead_keeps ..).step (by decide) (by decide) ?_
    | with_reducible refine (lineStarted_keeps ..).step (by decide) (by decide) ?_
    | with_reducible refine (delayTake_keeps ..).step (by decide) (by decide) ?_
    | with_reducible refine keeps_setN (by decide) ?_
    | with_reducible refine keeps_bump (by decide) ?_
    | with_reducible refine keeps_ite ?_ ?_
    | split

theorem inhibitLine_keeps (h p y : Nat) (s : State) :
    Keeps [.ev, .fire, .insp]
      [Obj.eventLost] s (inhibitLine h p y s) := by
  unfold inhibitLine
  repeat' first
    | with_reducible assumption
    | with_reducible exact Keeps.refl _ _ _
    | (extract_lets +onlyGivenNames y
       refine have hy : Keeps [.ev, .fire, .insp] [Obj.eventLost] s y := ?_; ?_
       (unfold y; clear y)
       rotate_left
       clear_value y)
    | (extract_lets +onlyGivenNames y)
    | with_reducible refine (modHead_keeps ..).step (by decide) (by decide) ?_
    | with_reducible refine (bookLine_keeps ..).step (by decide) (by decide) ?_
    | with_reducible refine keeps_raise (by decide) (by decide) ?_
    | with_reducible refine keeps_ite ?_ ?_
    | split

theorem commitLine_keeps (h : Nat) (s : State) :
    Keeps [.ev, .fire, .links, .insp, .cal, .sent]
      [Obj.energyNow, Obj.eventLost, Obj.fireSlips, Obj.kLine, Obj.staleT, Obj.staleV] s (commitLine h s) := by
  unfold commitLine
  repeat' first
    | with_reducible assumption
    | with_reducible exact Keeps.refl _ _ _
    | (extract_lets +onlyGivenNames y
       refine have hy : Keeps [.ev, .fire, .links, .insp, .cal, .sent] [Obj.energyNow, Obj.eventLost, Obj.fireSlips, Obj.kLine, Obj.staleT, Obj.staleV] s y := ?_; ?_
       (unfold y; clear y)
       rotate_left
       clear_value y)
    | (extract_lets +onlyGivenNames y)
    | with_reducible refine (modHead_keeps ..).step (by decide) (by decide) ?_
    | with_reducible refine (bookLine_keeps ..).step (by decide) (by decide) ?_
    | with_reducible refine (lineStarted_keeps ..).step (by decide) (by decide) ?_
    | with_reducible refine (restoreAtPage_keeps ..).step (by decide) (by decide) ?_
    | with_reducible refine (passLine_keeps ..).step (by decide) (by decide) ?_
    | with_reducible refine (commitFire_keeps ..).step (by decide) (by decide) ?_
    | with_reducible refine (inhibitLine_keeps ..).step (by decide) (by decide) ?_
    | with_reducible refine keeps_raise (by decide) (by decide) ?_
    | with_reducible refine keeps_bump (by decide) ?_
    | with_reducible refine keeps_emit' (by decide) ?_
    | with_reducible refine keeps_ite ?_ ?_
    | split
    | refine keeps_fire (by decide) ?_

theorem boundaryStart_keeps (h : Nat) (s : State) :
    Keeps [.ev, .fire, .insp, .sent]
      [Obj.eventLost] s (boundaryStart h s) := by
  unfold boundaryStart
  repeat' first
    | with_reducible assumption
    | with_reducible exact Keeps.refl _ _ _
    | (extract_lets +onlyGivenNames y
       refine have hy : Keeps [.ev, .fire, .insp, .sent] [Obj.eventLost] s y := ?_; ?_
       (unfold y; clear y)
       rotate_left
       clear_value y)
    | (extract_lets +onlyGivenNames y)
    | with_reducible refine (bookLine_keeps ..).step (by decide) (by decide) ?_
    | with_reducible refine (lineStarted_keeps ..).step (by decide) (by decide) ?_
    | with_reducible refine (restoreAtPage_keeps ..).step (by decide) (by decide) ?_
    | with_reducible refine (passLine_keeps ..).step (by decide) (by decide) ?_
    | with_reducible refine (inhibitLine_keeps ..).step (by decide) (by decide) ?_
    | with_reducible refine keeps_ite ?_ ?_
    | split

theorem lineFired_keeps (h : Nat) (c : Committed) (s : State) :
    Keeps [.ev, .fire, .insp]
      [Obj.eventLost] s (lineFired h c s) := by
  unfold lineFired
  repeat' first
    | with_reducible assumption
    | with_reducible exact Keeps.refl _ _ _
    | with_reducible refine (modHead_keeps ..).step (by decide) (by decide) ?_
    | with_reducible refine (bookLine_keeps ..).step (by decide) (by decide) ?_
    | split

theorem adcTake_keeps (h : Nat) (s : State) :
    Keeps [.cal]
      [] s (adcTake h s) := by
  unfold adcTake
  repeat' first
    | with_reducible assumption
    | with_reducible exact Keeps.refl _ _ _
    | split
    | refine keeps_cal (by decide) ?_

theorem fireBoundary_keeps (h p : Nat) (s : State) :
    Keeps [.dict, .ev, .links, .cal, .values]
      [Obj.eventLost, Obj.headTrim, Obj.patternFlags] s (fireBoundary h p s) := by
  unfold fireBoundary
  repeat' first
    | with_reducible assumption
    | with_reducible exact Keeps.refl _ _ _
    | with_reducible refine (settleBanks_keeps ..).step (by decide) (by decide) ?_
    | with_reducible refine (adcTake_keeps ..).step (by decide) (by decide) ?_
    | with_reducible refine (beginFire_keeps ..).step (by decide) (by decide) ?_
    | with_reducible refine (applyTrim_keeps ..).step (by decide) (by decide) ?_
    | split

theorem startPast_keeps (h : Nat) (c : Option Committed) (n : Nat) (s : State) :
    Keeps [.ev, .fire, .insp]
      [Obj.eventLost] s (startPast h c n s) := by
  unfold startPast
  repeat' first
    | with_reducible assumption
    | with_reducible exact Keeps.refl _ _ _
    | with_reducible refine (modHead_keeps ..).step (by decide) (by decide) ?_
    | with_reducible refine (lineFired_keeps ..).step (by decide) (by decide) ?_
    | split

theorem linePast_keeps (h p y : Nat) (s : State) :
    Keeps [.dict, .ev, .bond, .rfe, .pages, .fire, .links, .pos, .insp, .cal, .sent, .values]
      [Obj.eventLost, Obj.headTrim, Obj.maxLineRate, Obj.patternFlags] s (linePast h p y s) := by
  unfold linePast
  repeat' first
    | with_reducible assumption
    | with_reducible exact Keeps.refl _ _ _
    | (extract_lets +onlyGivenNames y
       refine have hy : Keeps [.dict, .ev, .bond, .rfe, .pages, .fire, .links, .pos, .insp, .cal, .sent, .values] [Obj.eventLost, Obj.headTrim, Obj.maxLineRate, Obj.patternFlags] s y := ?_; ?_
       (unfold y; clear y)
       rotate_left
       clear_value y)
    | (extract_lets +onlyGivenNames y)
    | with_reducible refine (endPages_keeps ..).step (by decide) (by decide) ?_
    | with_reducible refine (fireBoundary_keeps ..).step (by decide) (by decide) ?_
    | with_reducible refine keeps_ite ?_ ?_
    | split
    | refine keeps_pages (by decide) ?_

theorem fireReached_keeps (h : Nat) (s : State) :
    Keeps [.dict, .ev, .bond, .rfe, .pages, .fire, .links, .pos, .insp, .cal, .sent, .values]
      [Obj.eventLost, Obj.headTrim, Obj.maxLineRate, Obj.patternFlags] s (fireReached h s) := by
  unfold fireReached
  repeat' first
    | with_reducible assumption
    | with_reducible exact Keeps.refl _ _ _
    | with_reducible refine (startPast_keeps ..).step (by decide) (by decide) ?_
    | with_reducible refine (linePast_keeps ..).step (by decide) (by decide) ?_
    | split

theorem bookClearDo_keeps (s : State) :
    Keeps [.fire]
      [] s (bookClearDo s) := by
  unfold bookClearDo
  repeat' first
    | with_reducible assumption
    | with_reducible exact Keeps.refl _ _ _
    | split
    | refine keeps_fire (by decide) ?_

theorem haltFlags_keeps (s : State) :
    Keeps [.fire, .sent]
      [] s (haltFlags s) := by
  unfold haltFlags
  repeat' first
    | with_reducible assumption
    | with_reducible exact Keeps.refl _ _ _
    | (extract_lets +onlyGivenNames y
       refine have hy : Keeps [.fire, .sent] [] s y := ?_; ?_
       (unfold y; clear y)
       rotate_left
       clear_value y)
    | (extract_lets +onlyGivenNames y)
    | with_reducible refine keeps_emit' (by decide) ?_
    | with_reducible refine keeps_ite ?_ ?_
    | split
    | refine keeps_fire (by decide) ?_

theorem haltStop_keeps (s : State) :
    Keeps [.fire, .sent]
      [Obj.resumeBoundary, Obj.resumePos, Obj.rewindPos] s (haltStop s) := by
  unfold haltStop
  repeat' first
    | with_reducible assumption
    | with_reducible exact Keeps.refl _ _ _
    | (extract_lets +onlyGivenNames y
       refine have hy : Keeps [.fire, .sent] [Obj.resumeBoundary, Obj.resumePos, Obj.rewindPos] s y := ?_; ?_
       (unfold y; clear y)
       rotate_left
       clear_value y)
    | (extract_lets +onlyGivenNames y)
    | with_reducible refine (modHead_keeps ..).step (by decide) (by decide) ?_
    | with_reducible refine (haltFlags_keeps ..).step (by decide) (by decide) ?_
    | with_reducible refine keeps_setE (by decide) ?_
    | with_reducible refine keeps_forEach (fun _ _ _ => ?_) ?_
    | with_reducible refine keeps_foldl (fun _ _ _ => ?_) ?_
    | with_reducible refine keeps_ite ?_ ?_
    | split
    | refine keeps_fire (by decide) ?_

theorem forceBegunNt_keeps (s : State) :
    Keeps [.pwr, .dict, .ev, .mem, .fabric, .nt, .free, .up]
      [Obj.corrected, Obj.eventLost, Obj.flipCtrl, Obj.headMasked, Obj.poisonReads, Obj.tileFault, Obj.tileReady, Obj.uncorrectable, Obj.wbDropped] s (forceBegunNt s) := by
  unfold forceBegunNt
  repeat' first
    | with_reducible assumption
    | with_reducible exact Keeps.refl _ _ _
    | with_reducible refine (ntSwitch_keeps ..).step (by decide) (by decide) ?_
    | with_reducible refine keeps_ite ?_ ?_
    | split

theorem forceBegunCommits_keeps (s : State) :
    Keeps [.dict, .ev, .mem, .fabric, .links, .values]
      [Obj.eventLost, Obj.flipCtrl] s (forceBegunCommits s) := by
  unfold forceBegunCommits
  repeat' first
    | with_reducible assumption
    | with_reducible exact Keeps.refl _ _ _
    | with_reducible refine (settleBanks_keeps ..).step (by decide) (by decide) ?_
    | with_reducible refine (switchObj_keeps ..).step (by decide) (by decide) ?_
    | with_reducible refine (setSlot_keeps ..).step (by decide) (by decide) ?_
    | with_reducible refine keeps_forEach (fun _ _ _ => ?_) ?_
    | with_reducible refine keeps_ite ?_ ?_
    | split

theorem abandonPages_keeps (s : State) :
    Keeps [.pwr, .dict, .ev, .mem, .rfe, .pages, .fabric, .nt, .fire, .links, .pos, .insp, .sent, .free, .up, .values]
      [Obj.corrected, Obj.eventLost, Obj.flipCtrl, Obj.headMasked, Obj.poisonReads, Obj.tileFault, Obj.tileReady, Obj.uncorrectable, Obj.wbDropped] s (abandonPages s) := by
  unfold abandonPages
  repeat' first
    | with_reducible assumption
    | with_reducible exact Keeps.refl _ _ _
    | (extract_lets +onlyGivenNames y
       refine have hy : Keeps [.pwr, .dict, .ev, .mem, .rfe, .pages, .fabric, .nt, .fire, .links, .pos, .insp, .sent, .free, .up, .values] [Obj.corrected, Obj.eventLost, Obj.flipCtrl, Obj.headMasked, Obj.poisonReads, Obj.tileFault, Obj.tileReady, Obj.uncorrectable, Obj.wbDropped] s y := ?_; ?_
       (unfold y; clear y)
       rotate_left
       clear_value y)
    | (extract_lets +onlyGivenNames y)
    | with_reducible refine (releaseWords_keeps ..).step (by decide) (by decide) ?_
    | with_reducible refine (modHead_keeps ..).step (by decide) (by decide) ?_
    | with_reducible refine (discardLds_keeps ..).step (by decide) (by decide) ?_
    | with_reducible refine (lateFlush_keeps ..).step (by decide) (by decide) ?_
    | with_reducible refine (rideCount_keeps ..).step (by decide) (by decide) ?_
    | with_reducible refine (forceBegunNt_keeps ..).step (by decide) (by decide) ?_
    | with_reducible refine (forceBegunCommits_keeps ..).step (by decide) (by decide) ?_
    | with_reducible refine keeps_forEach (fun _ _ _ => ?_) ?_
    | with_reducible refine keeps_foldl (fun _ _ _ => ?_) ?_
    | split
    | refine keeps_mk rfl rfl List.prefix_rfl id rfl rfl rfl ?_
    | refine keeps_rfe (by decide) ?_
    | refine keeps_pages (by decide) ?_
    | refine keeps_fabric (by decide) ?_
    | refine keeps_fire (by decide) ?_
    | refine keeps_insp (by decide) ?_

theorem endHalt_keeps (s : State) :
    Keeps [.fire, .sent]
      [] s (endHalt s) := by
  unfold endHalt
  repeat' first
    | with_reducible assumption
    | with_reducible exact Keeps.refl _ _ _
    | (extract_lets +onlyGivenNames y
       refine have hy : Keeps [.fire, .sent] [] s y := ?_; ?_
       (unfold y; clear y)
       rotate_left
       clear_value y)
    | (extract_lets +onlyGivenNames y)
    | with_reducible refine keeps_emit' (by decide) ?_
    | with_reducible refine keeps_ite ?_ ?_
    | split
    | refine keeps_fire (by decide) ?_

end Sys2Proof.Machine
end

