-- ==== Sys2Proof/Laws/HeadPower.lean ====
section
/-! SUPPORT. What each operation of Machine/HeadPower.lean leaves alone: nothing but the groups and the objects named differs. -/

set_option Elab.async false
set_option linter.all false

namespace Sys2Proof.Machine

open Sys2Proof

set_option linter.tactic.unusedName false

theorem modChan_keeps (n : Nat) (f : Chan → Chan) (s : State) :
    Keeps [.hpc]
      [] s (modChan n f s) := by
  unfold modChan
  repeat' first
    | with_reducible assumption
    | with_reducible exact Keeps.refl _ _ _
    | split
    | refine keeps_hpc (by decide) ?_

theorem hpcReady_keeps (s : State) :
    Keeps [.up]
      [] s (hpcReady s) := by
  unfold hpcReady
  repeat' first
    | with_reducible assumption
    | with_reducible exact Keeps.refl _ _ _
    | with_reducible refine keeps_setUp (by decide) ?_
    | split

theorem setChan_keeps (n : Nat) (st : ChState) (s : State) :
    Keeps [.hpc, .up]
      [] s (setChan n st s) := by
  unfold setChan
  repeat' first
    | with_reducible assumption
    | with_reducible exact Keeps.refl _ _ _
    | (extract_lets +onlyGivenNames y
       refine have hy : Keeps [.hpc, .up] [] s y := ?_; ?_
       (unfold y; clear y)
       rotate_left
       clear_value y)
    | (extract_lets +onlyGivenNames y)
    | with_reducible refine (modChan_keeps ..).step (by decide) (by decide) ?_
    | with_reducible refine (hpcReady_keeps ..).step (by decide) (by decide) ?_
    | with_reducible refine keeps_ite ?_ ?_
    | split
    | refine keeps_hpc (by decide) ?_

theorem clearRequest_keeps (n : Nat) (s : State) :
    Keeps []
      [Obj.hpcEnable] s (clearRequest n s) := by
  unfold clearRequest
  repeat' first
    | with_reducible assumption
    | with_reducible exact Keeps.refl _ _ _
    | with_reducible refine keeps_setN (by decide) ?_
    | split

theorem hpcEnableDo_keeps (v : Word) (s : State) :
    Keeps [.hpc, .up]
      [Obj.hpcEnable] s (hpcEnableDo v s) := by
  unfold hpcEnableDo
  repeat' first
    | with_reducible assumption
    | with_reducible exact Keeps.refl _ _ _
    | (extract_lets +onlyGivenNames y
       refine have hy : Keeps [.hpc, .up] [Obj.hpcEnable] s y := ?_; ?_
       (unfold y; clear y)
       rotate_left
       clear_value y)
    | (extract_lets +onlyGivenNames y)
    | with_reducible refine (setChan_keeps ..).step (by decide) (by decide) ?_
    | with_reducible refine keeps_setN (by decide) ?_
    | with_reducible refine keeps_forEach (fun _ _ _ => ?_) ?_
    | with_reducible refine keeps_ite ?_ ?_
    | split
    | refine keeps_hpc (by decide) ?_

theorem enterCheck_keeps (n : Nat) (s : State) :
    Keeps [.hpc, .up]
      [] s (enterCheck n s) := by
  unfold enterCheck
  repeat' first
    | with_reducible assumption
    | with_reducible exact Keeps.refl _ _ _
    | (extract_lets +onlyGivenNames y
       refine have hy : Keeps [.hpc, .up] [] s y := ?_; ?_
       (unfold y; clear y)
       rotate_left
       clear_value y)
    | (extract_lets +onlyGivenNames y)
    | with_reducible refine (setChan_keeps ..).step (by decide) (by decide) ?_
    | split
    | refine keeps_hpc (by decide) ?_

theorem tripChan_keeps (n cause : Nat) (s : State) :
    Keeps [.ev, .hpc, .up]
      [Obj.eventLost, Obj.trips] s (tripChan n cause s) := by
  unfold tripChan
  repeat' first
    | with_reducible assumption
    | with_reducible exact Keeps.refl _ _ _
    | (extract_lets +onlyGivenNames y
       refine have hy : Keeps [.ev, .hpc, .up] [Obj.eventLost, Obj.trips] s y := ?_; ?_
       (unfold y; clear y)
       rotate_left
       clear_value y)
    | (extract_lets +onlyGivenNames y)
    | with_reducible refine (modChan_keeps ..).step (by decide) (by decide) ?_
    | with_reducible refine (setChan_keeps ..).step (by decide) (by decide) ?_
    | with_reducible refine keeps_raise (by decide) (by decide) ?_
    | with_reducible refine keeps_bump (by decide) ?_
    | with_reducible refine keeps_ite ?_ ?_
    | split

theorem checkDone_keeps (n : Nat) (vSense vSupply : Int) (s : State) :
    Keeps [.ev, .hpc, .free, .up]
      [Obj.eventLost, Obj.hpcEnable] s (checkDone n vSense vSupply s) := by
  unfold checkDone
  repeat' first
    | with_reducible assumption
    | with_reducible exact Keeps.refl _ _ _
    | (extract_lets +onlyGivenNames y
       refine have hy : Keeps [.ev, .hpc, .free, .up] [Obj.eventLost, Obj.hpcEnable] s y := ?_; ?_
       (unfold y; clear y)
       rotate_left
       clear_value y)
    | (extract_lets +onlyGivenNames y)
    | with_reducible refine (modChan_keeps ..).step (by decide) (by decide) ?_
    | with_reducible refine (setChan_keeps ..).step (by decide) (by decide) ?_
    | with_reducible refine (clearRequest_keeps ..).step (by decide) (by decide) ?_
    | with_reducible refine keeps_raise (by decide) (by decide) ?_
    | with_reducible refine keeps_takeFree (by decide) ?_
    | with_reducible refine keeps_ite ?_ ?_
    | split

theorem allOff_keeps (s : State) :
    Keeps [.hpc, .up]
      [Obj.hpcEnable] s (allOff s) := by
  unfold allOff
  repeat' first
    | with_reducible assumption
    | with_reducible exact Keeps.refl _ _ _
    | (extract_lets +onlyGivenNames y
       refine have hy : Keeps [.hpc, .up] [Obj.hpcEnable] s y := ?_; ?_
       (unfold y; clear y)
       rotate_left
       clear_value y)
    | (extract_lets +onlyGivenNames y)
    | with_reducible refine (modChan_keeps ..).step (by decide) (by decide) ?_
    | with_reducible refine (setChan_keeps ..).step (by decide) (by decide) ?_
    | with_reducible refine keeps_setN (by decide) ?_
    | with_reducible refine keeps_forEach (fun _ _ _ => ?_) ?_
    | split
    | refine keeps_hpc (by decide) ?_

theorem autumnOffBegin_keeps (s : State) :
    Keeps [.hpc, .up]
      [Obj.hpcEnable] s (autumnOffBegin s) := by
  unfold autumnOffBegin
  repeat' first
    | with_reducible assumption
    | with_reducible exact Keeps.refl _ _ _
    | (extract_lets +onlyGivenNames y
       refine have hy : Keeps [.hpc, .up] [Obj.hpcEnable] s y := ?_; ?_
       (unfold y; clear y)
       rotate_left
       clear_value y)
    | (extract_lets +onlyGivenNames y)
    | with_reducible refine (setChan_keeps ..).step (by decide) (by decide) ?_
    | with_reducible refine (clearRequest_keeps ..).step (by decide) (by decide) ?_
    | with_reducible refine keeps_forEach (fun _ _ _ => ?_) ?_
    | split
    | refine keeps_hpc (by decide) ?_

theorem autumnOffNext_keeps (s : State) :
    Keeps [.hpc, .up]
      [Obj.hpcEnable] s (autumnOffNext s) := by
  unfold autumnOffNext
  repeat' first
    | with_reducible assumption
    | with_reducible exact Keeps.refl _ _ _
    | with_reducible refine (setChan_keeps ..).step (by decide) (by decide) ?_
    | with_reducible refine (clearRequest_keeps ..).step (by decide) (by decide) ?_
    | split

theorem unlatchDo_keeps (v : Word) (s : State) :
    Keeps [.hpc, .up]
      [] s (unlatchDo v s) := by
  unfold unlatchDo
  repeat' first
    | with_reducible assumption
    | with_reducible exact Keeps.refl _ _ _
    | with_reducible refine (modChan_keeps ..).step (by decide) (by decide) ?_
    | with_reducible refine (setChan_keeps ..).step (by decide) (by decide) ?_
    | with_reducible refine keeps_forEach (fun _ _ _ => ?_) ?_
    | with_reducible refine keeps_ite ?_ ?_
    | split

theorem sampleV_keeps (n : Nat) (v : Int) (s : State) :
    Keeps [.ev, .hpc]
      [Obj.eventLost, Obj.hpcV] s (sampleV n v s) := by
  unfold sampleV
  repeat' first
    | with_reducible assumption
    | with_reducible exact Keeps.refl _ _ _
    | (extract_lets +onlyGivenNames y
       refine have hy : Keeps [.ev, .hpc] [Obj.eventLost, Obj.hpcV] s y := ?_; ?_
       (unfold y; clear y)
       rotate_left
       clear_value y)
    | (extract_lets +onlyGivenNames y)
    | with_reducible refine (modChan_keeps ..).step (by decide) (by decide) ?_
    | with_reducible refine keeps_raise (by decide) (by decide) ?_
    | with_reducible refine keeps_setN (by decide) ?_
    | with_reducible refine keeps_ite ?_ ?_
    | split

end Sys2Proof.Machine
end

