-- ==== Sys2Proof/Laws/Calibration.lean ====
section
/-! SUPPORT. What each operation of Machine/Calibration.lean leaves alone: nothing but the groups and the objects named differs. -/

set_option Elab.async false
set_option linter.all false

namespace Sys2Proof.Machine

open Sys2Proof

set_option linter.tactic.unusedName false

theorem calQueue_keeps (item target maxWait : Nat) (s : State) :
    Keeps [.ev, .cal]
      [Obj.eventLost] s (calQueue item target maxWait s) := by
  unfold calQueue
  repeat' first
    | with_reducible assumption
    | with_reducible exact Keeps.refl _ _ _
    | (extract_lets +onlyGivenNames y
       refine have hy : Keeps [.ev, .cal] [Obj.eventLost] s y := ?_; ?_
       (unfold y; clear y)
       rotate_left
       clear_value y)
    | (extract_lets +onlyGivenNames y)
    | with_reducible refine (modCal_keeps ..).step (by decide) (by decide) ?_
    | with_reducible refine keeps_raise (by decide) (by decide) ?_
    | with_reducible refine keeps_ite ?_ ?_
    | split

theorem calReqDo_keeps (v : Word) (s : State) :
    Keeps [.ev, .cal]
      [Obj.eventLost] s (calReqDo v s) := by
  unfold calReqDo
  repeat' first
    | with_reducible assumption
    | with_reducible exact Keeps.refl _ _ _
    | with_reducible refine (calQueue_keeps ..).step (by decide) (by decide) ?_
    | split

theorem calUnqueue_keeps (item target : Nat) (s : State) :
    Keeps [.cal]
      [] s (calUnqueue item target s) := by
  unfold calUnqueue
  repeat' first
    | with_reducible assumption
    | with_reducible exact Keeps.refl _ _ _
    | with_reducible refine (modCal_keeps ..).step (by decide) (by decide) ?_
    | split

theorem calStart_keeps (item target : Nat) (s : State) :
    Keeps [.ev, .cal, .up]
      [Obj.eventLost] s (calStart item target s) := by
  unfold calStart
  repeat' first
    | with_reducible assumption
    | with_reducible exact Keeps.refl _ _ _
    | (extract_lets +onlyGivenNames y
       refine have hy : Keeps [.ev, .cal, .up] [Obj.eventLost] s y := ?_; ?_
       (unfold y; clear y)
       rotate_left
       clear_value y)
    | (extract_lets +onlyGivenNames y; clear_value y)
    | with_reducible refine (modCal_keeps ..).step (by decide) (by decide) ?_
    | with_reducible refine (calUnqueue_keeps ..).step (by decide) (by decide) ?_
    | with_reducible refine keeps_setUp (by decide) ?_
    | with_reducible refine keeps_ite ?_ ?_
    | split

theorem calExpire_keeps (item target : Nat) (s : State) :
    Keeps [.ev, .cal]
      [Obj.eventLost] s (calExpire item target s) := by
  unfold calExpire
  repeat' first
    | with_reducible assumption
    | with_reducible exact Keeps.refl _ _ _
    | with_reducible refine (calUnqueue_keeps ..).step (by decide) (by decide) ?_
    | with_reducible refine keeps_raise (by decide) (by decide) ?_
    | split

theorem calAbandon_keeps (which : CalReq → Bool) (s : State) :
    Keeps [.cal]
      [Obj.adcCal, Obj.delayCal, Obj.selftestResult] s (calAbandon which s) := by
  unfold calAbandon
  repeat' first
    | with_reducible assumption
    | with_reducible exact Keeps.refl _ _ _
    | (extract_lets +onlyGivenNames y
       refine have hy : Keeps [.cal] [Obj.adcCal, Obj.delayCal, Obj.selftestResult] s y := ?_; ?_
       (unfold y; clear y)
       rotate_left
       clear_value y)
    | (extract_lets +onlyGivenNames y)
    | with_reducible refine (modCal_keeps ..).step (by decide) (by decide) ?_
    | with_reducible refine (runAbandoned_keeps ..).step (by decide) (by decide) ?_
    | with_reducible refine keeps_forEach (fun _ _ _ => ?_) ?_
    | split

theorem calReady_keeps (s : State) :
    Keeps [.up]
      [] s (calReady s) := by
  unfold calReady
  repeat' first
    | with_reducible assumption
    | with_reducible exact Keeps.refl _ _ _
    | with_reducible refine keeps_setUp (by decide) ?_
    | split

theorem calReject_keeps (item target result : Nat) (a b : Int) (s : State) :
    Keeps [.ev, .cal]
      [Obj.adcCal, Obj.delayCal, Obj.eventLost] s (calReject item target result a b s) := by
  unfold calReject
  repeat' first
    | with_reducible assumption
    | with_reducible exact Keeps.refl _ _ _
    | (extract_lets +onlyGivenNames y
       refine have hy : Keeps [.ev, .cal] [Obj.adcCal, Obj.delayCal, Obj.eventLost] s y := ?_; ?_
       (unfold y; clear y)
       rotate_left
       clear_value y)
    | (extract_lets +onlyGivenNames y)
    | with_reducible refine (modCal_keeps ..).step (by decide) (by decide) ?_
    | with_reducible refine keeps_raise (by decide) (by decide) ?_
    | with_reducible refine keeps_setN (by decide) ?_
    | with_reducible refine keeps_ite ?_ ?_
    | split

theorem delayNewSet_keeps (g : Nat) (taps : List Int) (s : State) :
    Keeps [.cal]
      [] s (delayNewSet g taps s) := by
  unfold delayNewSet
  repeat' first
    | with_reducible assumption
    | with_reducible exact Keeps.refl _ _ _
    | with_reducible refine keeps_forEach (fun _ _ _ => ?_) ?_
    | split
    | refine keeps_cal (by decide) ?_

theorem adcNewSet_keeps (c : Nat) (v : Word) (s : State) :
    Keeps [.cal]
      [] s (adcNewSet c v s) := by
  unfold adcNewSet
  repeat' first
    | with_reducible assumption
    | with_reducible exact Keeps.refl _ _ _
    | with_reducible refine keeps_ite ?_ ?_
    | split
    | refine keeps_cal (by decide) ?_

theorem calAccept_keeps (item target : Nat) (value : Word) (shown : Word) (s : State) :
    Keeps [.ev, .cal, .up]
      [Obj.adcCal, Obj.delayCal, Obj.eventLost] s (calAccept item target value shown s) := by
  unfold calAccept
  repeat' first
    | with_reducible assumption
    | with_reducible exact Keeps.refl _ _ _
    | (extract_lets +onlyGivenNames y
       refine have hy : Keeps [.ev, .cal, .up] [Obj.adcCal, Obj.delayCal, Obj.eventLost] s y := ?_; ?_
       (unfold y; clear y)
       rotate_left
       clear_value y)
    | (extract_lets +onlyGivenNames y)
    | with_reducible refine (modCal_keeps ..).step (by decide) (by decide) ?_
    | with_reducible refine (calReady_keeps ..).step (by decide) (by decide) ?_
    | with_reducible refine keeps_raise (by decide) (by decide) ?_
    | with_reducible refine keeps_setN (by decide) ?_
    | with_reducible refine keeps_ite ?_ ?_
    | split

theorem delayDone_keeps (g : Nat) (first second : List Int) (s : State) :
    Keeps [.ev, .cal, .free, .up]
      [Obj.adcCal, Obj.delayCal, Obj.eventLost] s (delayDone g first second s) := by
  unfold delayDone
  repeat' first
    | with_reducible assumption
    | with_reducible exact Keeps.refl _ _ _
    | (extract_lets +onlyGivenNames y
       refine have hy : Keeps [.ev, .cal, .free, .up] [Obj.adcCal, Obj.delayCal, Obj.eventLost] s y := ?_; ?_
       (unfold y; clear y)
       rotate_left
       clear_value y)
    | (extract_lets +onlyGivenNames y; clear_value y)
    | with_reducible refine (calReject_keeps ..).step (by decide) (by decide) ?_
    | with_reducible refine (delayNewSet_keeps ..).step (by decide) (by decide) ?_
    | with_reducible refine (calAccept_keeps ..).step (by decide) (by decide) ?_
    | with_reducible refine keeps_takeFree (by decide) ?_
    | split
    | refine keeps_of_eq (by assumption) ?_

theorem adcDone_keeps (c : Nat) (first second : List Int) (s : State) :
    Keeps [.ev, .cal, .free, .up]
      [Obj.adcCal, Obj.delayCal, Obj.eventLost] s (adcDone c first second s) := by
  unfold adcDone
  repeat' first
    | with_reducible assumption
    | with_reducible exact Keeps.refl _ _ _
    | (extract_lets +onlyGivenNames y
       refine have hy : Keeps [.ev, .cal, .free, .up] [Obj.adcCal, Obj.delayCal, Obj.eventLost] s y := ?_; ?_
       (unfold y; clear y)
       rotate_left
       clear_value y)
    | (extract_lets +onlyGivenNames y)
    | with_reducible refine (calReject_keeps ..).step (by decide) (by decide) ?_
    | with_reducible refine (adcNewSet_keeps ..).step (by decide) (by decide) ?_
    | with_reducible refine (calAccept_keeps ..).step (by decide) (by decide) ?_
    | with_reducible refine keeps_takeFree (by decide) ?_
    | with_reducible refine keeps_ite ?_ ?_
    | split

theorem selfResult_keeps (item target : Nat) (pass : Bool) (detail : Nat) (s : State) :
    Keeps [.ev]
      [Obj.eventLost, Obj.selftestResult] s (selfResult item target pass detail s) := by
  unfold selfResult
  repeat' first
    | with_reducible assumption
    | with_reducible exact Keeps.refl _ _ _
    | (extract_lets +onlyGivenNames y
       refine have hy : Keeps [.ev] [Obj.eventLost, Obj.selftestResult] s y := ?_; ?_
       (unfold y; clear y)
       rotate_left
       clear_value y)
    | (extract_lets +onlyGivenNames y)
    | with_reducible refine keeps_raise (by decide) (by decide) ?_
    | with_reducible refine keeps_setN (by decide) ?_
    | with_reducible refine keeps_ite ?_ ?_
    | split

theorem marchDone_keeps (m : Nat) (wasUp : Bool) (bad : List Nat) (s : State) :
    Keeps [.ev, .mem, .rfe, .fabric, .nt, .fire, .insp, .up]
      [Obj.eventLost, Obj.initDone, Obj.selftestResult] s (marchDone m wasUp bad s) := by
  unfold marchDone
  repeat' first
    | with_reducible assumption
    | with_reducible exact Keeps.refl _ _ _
    | (extract_lets +onlyGivenNames y
       refine have hy : Keeps [.ev, .mem, .rfe, .fabric, .nt, .fire, .insp, .up] [Obj.eventLost, Obj.initDone, Obj.selftestResult] s y := ?_; ?_
       (unfold y; clear y)
       rotate_left
       clear_value y)
    | (extract_lets +onlyGivenNames y)
    | with_reducible refine (modMem_keeps (hf := by exact fun _ h => h) ..).step (by decide) (by decide) ?_
    | with_reducible refine (modMem_keeps (hf := by exact fun _ h => putCell_wf h) ..).step (by decide) (by decide) ?_
    | with_reducible refine (modMem_keeps (hf := by exact fun _ _ => wf_nil _) ..).step (by decide) (by decide) ?_
    | with_reducible refine (hardError_keeps ..).step (by decide) (by decide) ?_
    | with_reducible refine (clearMem_keeps ..).step (by decide) (by decide) ?_
    | with_reducible refine (selfResult_keeps ..).step (by decide) (by decide) ?_
    | with_reducible refine keeps_setN (by decide) ?_
    | with_reducible refine keeps_setUp (by decide) ?_
    | with_reducible refine keeps_forEach (fun _ _ _ => ?_) ?_
    | with_reducible refine keeps_ite ?_ ?_
    | split

theorem comparatorDone_keeps (c : Nat) (pass : Bool) (s : State) :
    Keeps [.ev, .cal, .hpc, .up]
      [Obj.eventLost, Obj.selftestResult] s (comparatorDone c pass s) := by
  unfold comparatorDone
  repeat' first
    | with_reducible assumption
    | with_reducible exact Keeps.refl _ _ _
    | (extract_lets +onlyGivenNames y
       refine have hy : Keeps [.ev, .cal, .hpc, .up] [Obj.eventLost, Obj.selftestResult] s y := ?_; ?_
       (unfold y; clear y)
       rotate_left
       clear_value y)
    | (extract_lets +onlyGivenNames y)
    | with_reducible refine (modCal_keeps ..).step (by decide) (by decide) ?_
    | with_reducible refine (hpcReady_keeps ..).step (by decide) (by decide) ?_
    | with_reducible refine (setChan_keeps ..).step (by decide) (by decide) ?_
    | with_reducible refine (selfResult_keeps ..).step (by decide) (by decide) ?_
    | with_reducible refine keeps_ite ?_ ?_
    | split
    | refine keeps_hpc (by decide) ?_

theorem calAuto_keeps (item target : Nat) (s : State) :
    Keeps [.ev, .cal]
      [Obj.eventLost] s (calAuto item target s) := by
  unfold calAuto
  repeat' first
    | with_reducible assumption
    | with_reducible exact Keeps.refl _ _ _
    | with_reducible refine (calQueue_keeps ..).step (by decide) (by decide) ?_
    | with_reducible refine keeps_ite ?_ ?_
    | split

theorem dieTempDo_keeps (temp : Int) (s : State) :
    Keeps [.ev, .cal]
      [Obj.dieTemp, Obj.eventLost] s (dieTempDo temp s) := by
  unfold dieTempDo
  repeat' first
    | with_reducible assumption
    | with_reducible exact Keeps.refl _ _ _
    | (extract_lets +onlyGivenNames y
       refine have hy : Keeps [.ev, .cal] [Obj.dieTemp, Obj.eventLost] s y := ?_; ?_
       (unfold y; clear y)
       rotate_left
       clear_value y)
    | (extract_lets +onlyGivenNames y)
    | with_reducible refine (calAuto_keeps ..).step (by decide) (by decide) ?_
    | with_reducible refine keeps_setI (by decide) ?_
    | with_reducible refine keeps_forEach (fun _ _ _ => ?_) ?_
    | with_reducible refine keeps_ite ?_ ?_
    | split

theorem calRetry_keeps (item target : Nat) (s : State) :
    Keeps [.ev, .cal]
      [Obj.eventLost] s (calRetry item target s) := by
  unfold calRetry
  repeat' first
    | with_reducible assumption
    | with_reducible exact Keeps.refl _ _ _
    | with_reducible refine (modCal_keeps ..).step (by decide) (by decide) ?_
    | with_reducible refine (calAuto_keeps ..).step (by decide) (by decide) ?_
    | with_reducible refine keeps_ite ?_ ?_
    | split

end Sys2Proof.Machine
end

