-- ==== Sys2Proof/Laws/Camera.lean ====
section
/-! SUPPORT. What each operation of Machine/Camera.lean leaves alone: nothing but the groups and the objects named differs. -/

set_option Elab.async false
set_option linter.all false

namespace Sys2Proof.Machine

open Sys2Proof

set_option linter.tactic.unusedName false

theorem lineDrop_keeps (k n : Nat) (s : State) :
    Keeps []
      [Obj.linesDiscarded] s (lineDrop k n s) := by
  unfold lineDrop
  repeat' first
    | with_reducible assumption
    | with_reducible exact Keeps.refl _ _ _
    | with_reducible refine keeps_bump (by decide) ?_
    | with_reducible refine keeps_ite ?_ ?_
    | split

theorem planeMean_keeps (x : Nat × Nat × Nat) (s : State) :
    Keeps [.free]
      [] s (planeMean x s).2 := by
  unfold planeMean
  repeat' first
    | with_reducible assumption
    | with_reducible exact Keeps.refl _ _ _
    | with_reducible refine keeps_takeFree (by decide) ?_
    | with_reducible refine keeps_ite ?_ ?_
    | split

theorem writeStats_keeps (k : Nat) (f : CamFrame) (isShort : Bool) (s : State) :
    Keeps [.free]
      [Obj.frameStats] s (writeStats k f isShort s) := by
  unfold writeStats
  repeat' first
    | with_reducible assumption
    | with_reducible exact Keeps.refl _ _ _
    | (extract_lets +onlyGivenNames y
       refine have hy : Keeps [.free] [Obj.frameStats] s y := ?_; ?_
       (unfold y; clear y)
       rotate_left
       clear_value y)
    | (extract_lets +onlyGivenNames y)
    | with_reducible refine (planeMean_keeps ..).step (by decide) (by decide) ?_
    | with_reducible refine keeps_setN (by decide) ?_
    | with_reducible refine keeps_takeFree (by decide) ?_
    | with_reducible refine keeps_forEach (fun _ _ _ => ?_) ?_
    | with_reducible refine keeps_ite ?_ ?_
    | split
    | refine keeps_of_eq (by assumption) ?_

theorem closeFrame_keeps (k : Nat) (isShort : Bool) (s : State) :
    Keeps [.dict, .ev, .nt, .insp, .cal, .free]
      [Obj.eventLost, Obj.evidLines, Obj.frameStats, Obj.noise, Obj.patternFlags, Obj.patternResult, Obj.regDiscards, Obj.regShift] s (closeFrame k isShort s) := by
  unfold closeFrame
  repeat' first
    | with_reducible assumption
    | with_reducible exact Keeps.refl _ _ _
    | (extract_lets +onlyGivenNames y
       refine have hy : Keeps [.dict, .ev, .nt, .insp, .cal, .free] [Obj.eventLost, Obj.evidLines, Obj.frameStats, Obj.noise, Obj.patternFlags, Obj.patternResult, Obj.regDiscards, Obj.regShift] s y := ?_; ?_
       (unfold y; clear y)
       rotate_left
       clear_value y)
    | (extract_lets +onlyGivenNames y)
    | with_reducible refine (writeStats_keeps ..).step (by decide) (by decide) ?_
    | with_reducible refine (modCam_keeps ..).step (by decide) (by decide) ?_
    | with_reducible refine (modInsp_keeps ..).step (by decide) (by decide) ?_
    | with_reducible refine (foxLines_keeps ..).step (by decide) (by decide) ?_
    | with_reducible refine (foxClose_keeps ..).step (by decide) (by decide) ?_
    | with_reducible refine (patternClose_keeps ..).step (by decide) (by decide) ?_
    | with_reducible refine keeps_raise (by decide) (by decide) ?_
    | with_reducible refine keeps_ite ?_ ?_
    | split

theorem sendSettings_keeps (k frame : Nat) (s : State) :
    Keeps [.ev, .insp, .sent]
      [Obj.eventLost, Obj.expActive] s (sendSettings k frame s) := by
  unfold sendSettings
  repeat' first
    | with_reducible assumption
    | with_reducible exact Keeps.refl _ _ _
    | (extract_lets +onlyGivenNames y
       refine have hy : Keeps [.ev, .insp, .sent] [Obj.eventLost, Obj.expActive] s y := ?_; ?_
       (unfold y; clear y)
       rotate_left
       clear_value y)
    | (extract_lets +onlyGivenNames y)
    | with_reducible refine (modCam_keeps ..).step (by decide) (by decide) ?_
    | with_reducible refine keeps_raise (by decide) (by decide) ?_
    | with_reducible refine keeps_setN (by decide) ?_
    | with_reducible refine keeps_emit' (by decide) ?_
    | with_reducible refine keeps_ite ?_ ?_
    | split

theorem frameStart_keeps (page : Option (Nat × Int)) (s : State) :
    Keeps [.dict, .ev, .nt, .insp, .cal, .sent, .free]
      [Obj.eventLost, Obj.evidLines, Obj.expActive, Obj.frameStats, Obj.noise, Obj.patternFlags, Obj.patternResult, Obj.regDiscards, Obj.regShift] s (frameStart page s) := by
  unfold frameStart
  repeat' first
    | with_reducible assumption
    | with_reducible exact Keeps.refl _ _ _
    | (extract_lets +onlyGivenNames y
       refine have hy : Keeps [.dict, .ev, .nt, .insp, .cal, .sent, .free] [Obj.eventLost, Obj.evidLines, Obj.expActive, Obj.frameStats, Obj.noise, Obj.patternFlags, Obj.patternResult, Obj.regDiscards, Obj.regShift] s y := ?_; ?_
       (unfold y; clear y)
       rotate_left
       clear_value y)
    | (extract_lets +onlyGivenNames y)
    | with_reducible refine (closeFrame_keeps ..).step (by decide) (by decide) ?_
    | with_reducible refine (sendSettings_keeps ..).step (by decide) (by decide) ?_
    | with_reducible refine (modCam_keeps ..).step (by decide) (by decide) ?_
    | with_reducible refine keeps_forEach (fun _ _ _ => ?_) ?_
    | split

theorem modFrame_keeps (k : Nat) (f : CamFrame → CamFrame) (s : State) :
    Keeps [.insp]
      [] s (modFrame k f s) := by
  unfold modFrame
  repeat' first
    | with_reducible assumption
    | with_reducible exact Keeps.refl _ _ _
    | with_reducible refine (modCam_keeps ..).step (by decide) (by decide) ?_
    | split

theorem closeGap_keeps (k j : Nat) (f : CamFrame) (s : State) :
    Keeps [.insp]
      [Obj.linesDiscarded] s (closeGap k j f s) := by
  unfold closeGap
  repeat' first
    | with_reducible assumption
    | with_reducible exact Keeps.refl _ _ _
    | (extract_lets +onlyGivenNames y
       refine have hy : Keeps [.insp] [Obj.linesDiscarded] s y := ?_; ?_
       (unfold y; clear y)
       rotate_left
       clear_value y)
    | (extract_lets +onlyGivenNames y)
    | with_reducible refine (lineDrop_keeps ..).step (by decide) (by decide) ?_
    | with_reducible refine (modFrame_keeps ..).step (by decide) (by decide) ?_
    | with_reducible refine (modInsp_keeps ..).step (by decide) (by decide) ?_
    | with_reducible refine keeps_foldl (fun _ _ _ => ?_) ?_
    | with_reducible refine keeps_ite ?_ ?_
    | split

theorem stripeTake_keeps (k : Nat) (l : CamLine) (i : Nat) (s : State) :
    Keeps [.ev, .insp]
      [Obj.eventLost, Obj.linesDiscarded, Obj.stripeOverruns] s (stripeTake k l i s) := by
  unfold stripeTake
  repeat' first
    | with_reducible assumption
    | with_reducible exact Keeps.refl _ _ _
    | (extract_lets +onlyGivenNames y
       refine have hy : Keeps [.ev, .insp] [Obj.eventLost, Obj.linesDiscarded, Obj.stripeOverruns] s y := ?_; ?_
       (unfold y; clear y)
       rotate_left
       clear_value y)
    | (extract_lets +onlyGivenNames y)
    | with_reducible refine (lineDrop_keeps ..).step (by decide) (by decide) ?_
    | with_reducible refine (modFrame_keeps ..).step (by decide) (by decide) ?_
    | with_reducible refine (modInsp_keeps ..).step (by decide) (by decide) ?_
    | with_reducible refine keeps_raise (by decide) (by decide) ?_
    | with_reducible refine keeps_bump (by decide) ?_
    | with_reducible refine keeps_ite ?_ ?_
    | split

theorem lineStats_keeps (k : Nat) (s : State) :
    Keeps [.insp]
      [] s (lineStats k s) := by
  unfold lineStats
  repeat' first
    | with_reducible assumption
    | with_reducible exact Keeps.refl _ _ _
    | (extract_lets +onlyGivenNames y
       refine have hy : Keeps [.insp] [] s y := ?_; ?_
       (unfold y; clear y)
       rotate_left
       clear_value y)
    | (extract_lets +onlyGivenNames y)
    | with_reducible refine (modFrame_keeps ..).step (by decide) (by decide) ?_
    | with_reducible refine (modCam_keeps ..).step (by decide) (by decide) ?_
    | with_reducible refine keeps_foldl (fun _ _ _ => ?_) ?_
    | with_reducible refine keeps_ite ?_ ?_
    | split

theorem lineTake_keeps (k : Nat) (l : CamLine) (pos : Int) (s : State) :
    Keeps [.dict, .ev, .nt, .insp, .cal, .free]
      [Obj.eventLost, Obj.evidLines, Obj.frameStats, Obj.linesDiscarded, Obj.noise, Obj.patternFlags, Obj.patternResult, Obj.regDiscards, Obj.regShift, Obj.stripeOverruns] s (lineTake k l pos s) := by
  unfold lineTake
  repeat' first
    | with_reducible assumption
    | with_reducible exact Keeps.refl _ _ _
    | (extract_lets +onlyGivenNames y
       refine have hy : Keeps [.dict, .ev, .nt, .insp, .cal, .free] [Obj.eventLost, Obj.evidLines, Obj.frameStats, Obj.linesDiscarded, Obj.noise, Obj.patternFlags, Obj.patternResult, Obj.regDiscards, Obj.regShift, Obj.stripeOverruns] s y := ?_; ?_
       (unfold y; clear y)
       rotate_left
       clear_value y)
    | (extract_lets +onlyGivenNames y)
    | with_reducible refine (closeFrame_keeps ..).step (by decide) (by decide) ?_
    | with_reducible refine (modFrame_keeps ..).step (by decide) (by decide) ?_
    | with_reducible refine (closeGap_keeps ..).step (by decide) (by decide) ?_
    | with_reducible refine (stripeTake_keeps ..).step (by decide) (by decide) ?_
    | with_reducible refine (lineStats_keeps ..).step (by decide) (by decide) ?_
    | with_reducible refine keeps_forEach (fun _ _ _ => ?_) ?_
    | with_reducible refine keeps_ite ?_ ?_
    | split

theorem cameraRepeat_keeps (k kind : Nat) (ws : List Word) (eofOk : Bool) (s : State) :
    Keeps [.sent]
      [] s (cameraRepeat k kind ws eofOk s) := by
  unfold cameraRepeat
  split
  · exact keeps_emit' (by decide) (Keeps.refl _ _ _)
  · exact Keeps.refl _ _ _

theorem cameraLine_keeps (k : Nat) (ws : List Word) (eofOk : Bool) (s : State) :
    Keeps [.dict, .ev, .nt, .insp, .cal, .free]
      [Obj.eventLost, Obj.evidLines, Obj.frameStats, Obj.linesDiscarded, Obj.noise, Obj.patternFlags, Obj.patternResult, Obj.regDiscards, Obj.regShift, Obj.stripeOverruns] s (cameraLine k ws eofOk s) := by
  unfold cameraLine
  repeat' first
    | with_reducible assumption
    | with_reducible exact Keeps.refl _ _ _
    | (extract_lets +onlyGivenNames y
       refine have hy : Keeps [.dict, .ev, .nt, .insp, .cal, .free] [Obj.eventLost, Obj.evidLines, Obj.frameStats, Obj.linesDiscarded, Obj.noise, Obj.patternFlags, Obj.patternResult, Obj.regDiscards, Obj.regShift, Obj.stripeOverruns] s y := ?_; ?_
       (unfold y; clear y)
       rotate_left
       clear_value y)
    | (extract_lets +onlyGivenNames y)
    | with_reducible refine (lineDrop_keeps ..).step (by decide) (by decide) ?_
    | with_reducible refine (lineTake_keeps ..).step (by decide) (by decide) ?_
    | with_reducible refine (modCam_keeps ..).step (by decide) (by decide) ?_
    | with_reducible refine keeps_ite ?_ ?_
    | split

theorem cameraStatus_keeps (k : Nat) (ws : List Word) (eofOk : Bool) (s : State) :
    Keeps [.insp]
      [] s (cameraStatus k ws eofOk s) := by
  unfold cameraStatus
  repeat' first
    | with_reducible assumption
    | with_reducible exact Keeps.refl _ _ _
    | (extract_lets +onlyGivenNames y
       refine have hy : Keeps [.insp] [] s y := ?_; ?_
       (unfold y; clear y)
       rotate_left
       clear_value y)
    | (extract_lets +onlyGivenNames y)
    | with_reducible refine (modCam_keeps ..).step (by decide) (by decide) ?_
    | with_reducible refine keeps_ite ?_ ?_
    | split

theorem syncReqDo_keeps (v : Word) (s : State) :
    Keeps [.insp, .sent]
      [] s (syncReqDo v s) := by
  unfold syncReqDo
  repeat' first
    | with_reducible assumption
    | with_reducible exact Keeps.refl _ _ _
    | (extract_lets +onlyGivenNames y
       refine have hy : Keeps [.insp, .sent] [] s y := ?_; ?_
       (unfold y; clear y)
       rotate_left
       clear_value y)
    | (extract_lets +onlyGivenNames y)
    | with_reducible refine (modCam_keeps ..).step (by decide) (by decide) ?_
    | with_reducible refine keeps_emit' (by decide) ?_
    | with_reducible refine keeps_forEach (fun _ _ _ => ?_) ?_
    | split

theorem expCommitDo_keeps (v : Word) (s : State) :
    Keeps [.insp]
      [] s (expCommitDo v s) := by
  unfold expCommitDo
  repeat' first
    | with_reducible assumption
    | with_reducible exact Keeps.refl _ _ _
    | with_reducible refine (modCam_keeps ..).step (by decide) (by decide) ?_
    | with_reducible refine keeps_forEach (fun _ _ _ => ?_) ?_
    | split

theorem cameraLost_keeps (k : Nat) (s : State) :
    Keeps [.ev, .insp]
      [Obj.eventLost] s (cameraLost k s) := by
  unfold cameraLost
  repeat' first
    | with_reducible assumption
    | with_reducible exact Keeps.refl _ _ _
    | with_reducible refine (modFrame_keeps ..).step (by decide) (by decide) ?_
    | with_reducible refine keeps_raise (by decide) (by decide) ?_
    | with_reducible refine keeps_ite ?_ ?_
    | split

end Sys2Proof.Machine
end

