-- ==== Sys2Proof/Laws/Codec.lean ====
section
/-! SUPPORT. What each operation of Machine/Codec.lean leaves alone: nothing but the groups and the objects named differs. -/

set_option Elab.async false
set_option linter.all false

namespace Sys2Proof.Machine

open Sys2Proof

set_option linter.tactic.unusedName false

theorem decodeGroup_keeps (g : LineGroup) (s : State) :
    Keeps [.ev, .rfe, .codec, .sent]
      [Obj.blocksDamaged, Obj.blocksDecoded, Obj.damageCause, Obj.eventLost, Obj.oosEpochs] s (decodeGroup g s) := by
  unfold decodeGroup
  repeat' first
    | with_reducible assumption
    | with_reducible exact Keeps.refl _ _ _
    | (extract_lets +onlyGivenNames y
       refine have hy : Keeps [.ev, .rfe, .codec, .sent] [Obj.blocksDamaged, Obj.blocksDecoded, Obj.damageCause, Obj.eventLost, Obj.oosEpochs] s y := ?_; ?_
       (unfold y; clear y)
       rotate_left
       clear_value y)
    | (extract_lets +onlyGivenNames y)
    | with_reducible refine (modRfe_keeps ..).step (by decide) (by decide) ?_
    | with_reducible refine (releaseWords_keeps ..).step (by decide) (by decide) ?_
    | with_reducible refine (modCodec_keeps ..).step (by decide) (by decide) ?_
    | with_reducible refine (codecFollow_keeps ..).step (by decide) (by decide) ?_
    | with_reducible refine keeps_raise (by decide) (by decide) ?_
    | with_reducible refine keeps_bump (by decide) ?_
    | with_reducible refine keeps_forEach (fun _ _ _ => ?_) ?_
    | with_reducible refine keeps_foldl (fun _ _ _ => ?_) ?_
    | with_reducible refine keeps_ite ?_ ?_
    | split

end Sys2Proof.Machine
end

