-- ==== Sys2Proof/Laws/Fabric.lean ====
section
/-! SUPPORT. What each operation of Machine/Fabric.lean leaves alone: nothing but the groups and the objects named differs. -/

set_option Elab.async false
set_option linter.all false

namespace Sys2Proof.Machine

open Sys2Proof

set_option linter.tactic.unusedName false

theorem tileReads_keeps (t : Nat) (s : State) :
    Keeps [.pwr, .ev, .mem, .fabric, .free, .up]
      [Obj.corrected, Obj.eventLost, Obj.flipCtrl, Obj.poisonReads, Obj.tileFault, Obj.tileReady, Obj.uncorrectable, Obj.wbDropped] s (tileReads t s) := by
  unfold tileReads
  repeat' first
    | with_reducible assumption
    | with_reducible exact Keeps.refl _ _ _
    | with_reducible refine (evictRange_keeps ..).step (by decide) (by decide) ?_
    | with_reducible refine (readRange_keeps ..).step (by decide) (by decide) ?_
    | split

theorem lineReads_keeps (y : Nat) (s : State) :
    Keeps [.pwr, .ev, .mem, .fabric, .free, .up]
      [Obj.corrected, Obj.eventLost, Obj.flipCtrl, Obj.poisonReads, Obj.tileFault, Obj.tileReady, Obj.uncorrectable, Obj.wbDropped] s (lineReads y s) := by
  unfold lineReads
  repeat' first
    | with_reducible assumption
    | with_reducible exact Keeps.refl _ _ _
    | (extract_lets +onlyGivenNames y
       refine have hy : Keeps [.pwr, .ev, .mem, .fabric, .free, .up] [Obj.corrected, Obj.eventLost, Obj.flipCtrl, Obj.poisonReads, Obj.tileFault, Obj.tileReady, Obj.uncorrectable, Obj.wbDropped] s y := ?_; ?_
       (unfold y; clear y)
       rotate_left
       clear_value y)
    | (extract_lets +onlyGivenNames y)
    | with_reducible refine (evictRange_keeps ..).step (by decide) (by decide) ?_
    | with_reducible refine (ntTouch_keeps ..).step (by decide) (by decide) ?_
    | with_reducible refine (readRange_keeps ..).step (by decide) (by decide) ?_
    | with_reducible refine (tileReads_keeps ..).step (by decide) (by decide) ?_
    | with_reducible refine keeps_forEach (fun _ _ _ => ?_) ?_
    | split

theorem sendComp_keeps (c : LineCtx) (sums : Array Int) (p y : Nat) (s : State) :
    Keeps [.fabric, .sent]
      [] s (sendComp c sums p y s) := by
  unfold sendComp
  repeat' first
    | with_reducible assumption
    | with_reducible exact Keeps.refl _ _ _
    | with_reducible refine (edgeSend_keeps ..).step (by decide) (by decide) ?_
    | with_reducible refine keeps_forEach (fun _ _ _ => ?_) ?_
    | split

theorem noteSaturated_keeps (p y : Nat) (ns : List Nat) (s : State) :
    Keeps [.ev, .fabric]
      [Obj.compSaturated, Obj.eventLost] s (noteSaturated p y ns s) := by
  unfold noteSaturated
  repeat' first
    | with_reducible assumption
    | with_reducible exact Keeps.refl _ _ _
    | (extract_lets +onlyGivenNames y
       refine have hy : Keeps [.ev, .fabric] [Obj.compSaturated, Obj.eventLost] s y := ?_; ?_
       (unfold y; clear y)
       rotate_left
       clear_value y)
    | (extract_lets +onlyGivenNames y)
    | with_reducible refine (modFab_keeps ..).step (by decide) (by decide) ?_
    | with_reducible refine keeps_raise (by decide) (by decide) ?_
    | with_reducible refine keeps_bump (by decide) ?_
    | with_reducible refine keeps_forEach (fun _ _ _ => ?_) ?_
    | with_reducible refine keeps_ite ?_ ?_
    | split

theorem downWrite_keeps (c : LineCtx) (lo : Nat) (down : List Int) (s : State) :
    Keeps [.ev, .mem]
      [Obj.eventLost, Obj.flipCtrl] s (downWrite c lo down s) := by
  unfold downWrite
  repeat' first
    | with_reducible assumption
    | with_reducible exact Keeps.refl _ _ _
    | with_reducible refine (bufferWrite_keeps ..).step (by decide) (by decide) ?_
    | with_reducible refine keeps_forEach (fun _ _ _ => ?_) ?_
    | split

theorem screenChain_keeps (c : LineCtx) (comp : Nat → Int) (p y : Nat) (x : Array Nat × State) (ch : Nat × Nat × Nat) :
    Keeps [.ev, .mem, .fabric, .sent] [Obj.eventLost, Obj.flipCtrl] x.2 (screenChain c comp p y x ch).2 := by
  obtain ⟨a, s⟩ := x
  obtain ⟨i, lo, n⟩ := ch
  unfold screenChain
  dsimp only
  refine (downWrite_keeps ..).step (by decide) (by decide) ?_
  refine (modFab_keeps ..).step (by decide) (by decide) ?_
  refine (edgeSend_keeps ..).step (by decide) (by decide) ?_
  exact (edgeSend_keeps ..).step (by decide) (by decide) (Keeps.refl _ _ _)

theorem screenChains_keeps (c : LineCtx) (comp : Nat → Int) (p y : Nat) : ∀ (l : List (Nat × Nat × Nat)) (x : Array Nat × State),
    Keeps [.ev, .mem, .fabric, .sent] [Obj.eventLost, Obj.flipCtrl] x.2 (l.foldl (screenChain c comp p y) x).2
  | [], x => Keeps.refl _ _ x.2
  | ch :: l, x => (screenChain_keeps c comp p y x ch).trans (screenChains_keeps c comp p y l _)

theorem screenContone_keeps (c : LineCtx) (p y : Nat) (s : State) :
    Keeps [.ev, .mem, .fabric, .sent] [Obj.compLost, Obj.compSaturated, Obj.eventLost, Obj.flipCtrl] s (screenContone c p y s).2 := by
  unfold screenContone
  extract_lets ts got owners spans carried lost s1 sums sum comp s2 x
  have h1 : Keeps [.ev, .mem, .fabric, .sent] [Obj.compLost, Obj.compSaturated, Obj.eventLost, Obj.flipCtrl] s s1 := by
    unfold s1
    split
    · exact Keeps.refl _ _ _
    · exact keeps_bump (by decide) (Keeps.refl _ _ _)
  clear_value s1
  have h2 : Keeps [.ev, .mem, .fabric, .sent] [Obj.compLost, Obj.compSaturated, Obj.eventLost, Obj.flipCtrl] s s2 :=
    (noteSaturated_keeps ..).step (by decide) (by decide) h1
  clear_value s2
  have h3 : Keeps [.ev, .mem, .fabric, .sent] [Obj.compLost, Obj.compSaturated, Obj.eventLost, Obj.flipCtrl] s x.2 :=
    (screenChains_keeps c comp p y (chainsOf s2) (_, s2)).step (by decide) (by decide) h2
  clear_value x
  exact h3

theorem screenPreset_keeps (c : LineCtx) (p y : Nat) (s : State) :
    Keeps [.fabric, .sent]
      [] s (screenPreset c p y s).2 := by
  unfold screenPreset
  repeat' first
    | with_reducible assumption
    | with_reducible exact Keeps.refl _ _ _
    | (extract_lets +onlyGivenNames y
       refine have hy : Keeps [.fabric, .sent] [] s y := ?_; ?_
       (unfold y; clear y)
       rotate_left
       clear_value y)
    | (extract_lets +onlyGivenNames y)
    | with_reducible refine (modFab_keeps ..).step (by decide) (by decide) ?_
    | with_reducible refine (edgeSend_keeps ..).step (by decide) (by decide) ?_
    | with_reducible refine keeps_forEach (fun _ _ _ => ?_) ?_
    | split

theorem screenLine_keeps (g : LineGroup) (p y : Nat) (s : State) :
    Keeps [.pwr, .ev, .mem, .rfe, .fabric, .insp, .xing, .sent, .free, .up]
      [Obj.compLost, Obj.compSaturated, Obj.corrected, Obj.eventLost, Obj.evidSkipped, Obj.flipCtrl, Obj.linesScreened, Obj.poisonReads, Obj.tileFault, Obj.tileReady, Obj.uncorrectable, Obj.wbDropped] s (screenLine g p y s) := by
  unfold screenLine
  extract_lets c s1
  have h1 : Keeps [.pwr, .ev, .mem, .rfe, .fabric, .insp, .xing, .sent, .free, .up]
      [Obj.compLost, Obj.compSaturated, Obj.corrected, Obj.eventLost, Obj.evidSkipped, Obj.flipCtrl, Obj.linesScreened, Obj.poisonReads, Obj.tileFault, Obj.tileReady, Obj.uncorrectable, Obj.wbDropped] s s1 :=
    (lineReads_keeps ..).step (by decide) (by decide) (Keeps.refl _ _ _)
  clear_value s1 c
  generalize hx : (if g.ratio = 5 then screenPreset c p y s1 else screenContone c p y s1) = x
  have h2 : Keeps [.pwr, .ev, .mem, .rfe, .fabric, .insp, .xing, .sent, .free, .up]
      [Obj.compLost, Obj.compSaturated, Obj.corrected, Obj.eventLost, Obj.evidSkipped, Obj.flipCtrl, Obj.linesScreened, Obj.poisonReads, Obj.tileFault, Obj.tileReady, Obj.uncorrectable, Obj.wbDropped] s x.2 := by
    rw [← hx]
    split
    · exact (screenPreset_keeps ..).step (by decide) (by decide) h1
    · exact (screenContone_keeps ..).step (by decide) (by decide) h1
  clear hx
  obtain ⟨codes, s2⟩ := x
  dsimp only at h2 ⊢
  refine keeps_ite (keeps_rfe (by decide) ?_) ?_ <;>
  exact (xingCount_keeps ..).step (by decide) (by decide) (keeps_bump (by decide) ((modFab_keeps ..).step (by decide) (by decide)
    ((evidenceScreened_keeps ..).step (by decide) (by decide) h2)))

theorem screenPrepare_keeps (g : LineGroup) (p y : Nat) (s : State) :
    Keeps [.fabric, .sent]
      [] s (screenPrepare g p y s) := by
  unfold screenPrepare
  repeat' first
    | with_reducible assumption
    | with_reducible exact Keeps.refl _ _ _
    | (extract_lets +onlyGivenNames y
       refine have hy : Keeps [.fabric, .sent] [] s y := ?_; ?_
       (unfold y; clear y)
       rotate_left
       clear_value y)
    | (extract_lets +onlyGivenNames y)
    | with_reducible refine (modFab_keeps ..).step (by decide) (by decide) ?_
    | with_reducible refine (sendComp_keeps ..).step (by decide) (by decide) ?_
    | with_reducible refine keeps_ite ?_ ?_
    | split

theorem screenWait_keeps (p y : Nat) (miss : List (Nat × Nat × Bool × Nat)) (s : State) :
    Keeps [.ev, .fabric]
      [Obj.edgeWaits, Obj.eventLost] s (screenWait p y miss s) := by
  unfold screenWait
  repeat' first
    | with_reducible assumption
    | with_reducible exact Keeps.refl _ _ _
    | (extract_lets +onlyGivenNames y
       refine have hy : Keeps [.ev, .fabric] [Obj.edgeWaits, Obj.eventLost] s y := ?_; ?_
       (unfold y; clear y)
       rotate_left
       clear_value y)
    | (extract_lets +onlyGivenNames y)
    | with_reducible refine (modFab_keeps ..).step (by decide) (by decide) ?_
    | with_reducible refine keeps_raise (by decide) (by decide) ?_
    | with_reducible refine keeps_bump (by decide) ?_
    | with_reducible refine keeps_forEach (fun _ _ _ => ?_) ?_
    | with_reducible refine keeps_ite ?_ ?_
    | split

theorem screenRun_keeps : ∀ (n : Nat) (s : State),
    Keeps [.pwr, .ev, .mem, .rfe, .fabric, .insp, .xing, .sent, .free, .up] [Obj.compLost, Obj.compSaturated, Obj.corrected, Obj.edgeWaits, Obj.eventLost, Obj.evidSkipped, Obj.flipCtrl, Obj.linesScreened, Obj.poisonReads, Obj.tileFault, Obj.tileReady, Obj.uncorrectable, Obj.wbDropped]
      s (screenRun n s)
  | 0, s => Keeps.refl _ _ s
  | n + 1, s => by
    unfold screenRun
    repeat' first
      | with_reducible exact Keeps.refl _ _ _
      | (extract_lets y
         refine have hy : Keeps [.pwr, .ev, .mem, .rfe, .fabric, .insp, .xing, .sent, .free, .up] [Obj.compLost, Obj.compSaturated, Obj.corrected, Obj.edgeWaits, Obj.eventLost, Obj.evidSkipped, Obj.flipCtrl, Obj.linesScreened, Obj.poisonReads, Obj.tileFault, Obj.tileReady, Obj.uncorrectable, Obj.wbDropped] s y := ?_; ?_
         (unfold y; clear y)
         rotate_left
         clear_value y)
      | with_reducible assumption
      | with_reducible refine Keeps.trans ?_ (screenRun_keeps n _)
      | with_reducible refine (screenLine_keeps ..).step (by decide) (by decide) ?_
      | with_reducible refine (screenPrepare_keeps ..).step (by decide) (by decide) ?_
      | with_reducible refine (screenWait_keeps ..).step (by decide) (by decide) ?_
      | with_reducible refine (modFab_keeps ..).step (by decide) (by decide) ?_
      | split

theorem edgeRefused_keeps (k : Nat) (f : EdgeFrame) (s : State) :
    Keeps [.ev, .fabric, .free]
      [Obj.edgeMismatches, Obj.eventLost] s (edgeRefused k f s) := by
  unfold edgeRefused
  repeat' first
    | with_reducible assumption
    | with_reducible exact Keeps.refl _ _ _
    | (extract_lets +onlyGivenNames y
       refine have hy : Keeps [.ev, .fabric, .free] [Obj.edgeMismatches, Obj.eventLost] s y := ?_; ?_
       (unfold y; clear y)
       rotate_left
       clear_value y)
    | (extract_lets +onlyGivenNames y)
    | with_reducible refine (seamEvent_keeps ..).step (by decide) (by decide) ?_
    | with_reducible refine (forceEdges_keeps ..).step (by decide) (by decide) ?_
    | with_reducible refine keeps_bump (by decide) ?_
    | with_reducible refine keeps_ite ?_ ?_
    | split

theorem screenPage_keeps (q : Nat) (s : State) :
    Keeps [.pwr, .dict, .ev, .mem, .pages, .fabric, .nt, .insp, .cal, .free, .up, .values]
      [Obj.corrected, Obj.edgeMismatches, Obj.eventLost, Obj.flipCtrl, Obj.headMasked, Obj.poisonReads, Obj.tileFault, Obj.tileReady, Obj.uncorrectable, Obj.wbDropped] s (screenPage q s) := by
  unfold screenPage
  repeat' first
    | with_reducible assumption
    | with_reducible exact Keeps.refl _ _ _
    | (extract_lets +onlyGivenNames y
       refine have hy : Keeps [.pwr, .dict, .ev, .mem, .pages, .fabric, .nt, .insp, .cal, .free, .up, .values] [Obj.corrected, Obj.edgeMismatches, Obj.eventLost, Obj.flipCtrl, Obj.headMasked, Obj.poisonReads, Obj.tileFault, Obj.tileReady, Obj.uncorrectable, Obj.wbDropped] s y := ?_; ?_
       (unfold y; clear y)
       rotate_left
       clear_value y)
    | (extract_lets +onlyGivenNames y)
    | with_reducible refine (modFab_keeps ..).step (by decide) (by decide) ?_
    | with_reducible refine (seamPage_keeps ..).step (by decide) (by decide) ?_
    | with_reducible refine (ntBoundary_keeps ..).step (by decide) (by decide) ?_
    | with_reducible refine (edgeRefused_keeps ..).step (by decide) (by decide) ?_
    | with_reducible refine (beginScreen_keeps ..).step (by decide) (by decide) ?_
    | with_reducible refine (bindTrims_keeps ..).step (by decide) (by decide) ?_
    | with_reducible refine keeps_forEach (fun _ _ _ => ?_) ?_
    | with_reducible refine keeps_ite ?_ ?_
    | split
    | refine keeps_pages (by decide) ?_

theorem screenStart_keeps (s : State) :
    Keeps [.pwr, .dict, .ev, .mem, .rfe, .pages, .fabric, .nt, .insp, .cal, .xing, .sent, .free, .up, .values]
      [Obj.compLost, Obj.compSaturated, Obj.corrected, Obj.edgeMismatches, Obj.edgeWaits, Obj.eventLost, Obj.evidSkipped, Obj.flipCtrl, Obj.headMasked, Obj.linesScreened, Obj.poisonReads, Obj.tileFault, Obj.tileReady, Obj.uncorrectable, Obj.wbDropped] s (screenStart s) := by
  unfold screenStart
  repeat' first
    | with_reducible assumption
    | with_reducible exact Keeps.refl _ _ _
    | (extract_lets +onlyGivenNames y)
    | with_reducible refine (modFab_keeps ..).step (by decide) (by decide) ?_
    | with_reducible refine (screenRun_keeps ..).step (by decide) (by decide) ?_
    | with_reducible refine (screenPage_keeps ..).step (by decide) (by decide) ?_
    | with_reducible refine keeps_ite ?_ ?_
    | split

theorem retryAwaited_keeps (k : Nat) (s : State) :
    Keeps [.sent]
      [] s (retryAwaited k s) := by
  unfold retryAwaited
  repeat' first
    | with_reducible assumption
    | with_reducible exact Keeps.refl _ _ _
    | with_reducible refine (retrySend_keeps ..).step (by decide) (by decide) ?_
    | with_reducible refine keeps_forEach (fun _ _ _ => ?_) ?_
    | with_reducible refine keeps_ite ?_ ?_
    | split

theorem edgeTake_keeps (k : Nat) (comp : Bool) (ws : List Word) (eofOk : Bool) (s : State) :
    Keeps [.pwr, .ev, .mem, .rfe, .fabric, .insp, .xing, .sent, .free, .up]
      [Obj.compLost, Obj.compSaturated, Obj.corrected, Obj.edgeCrcErrors, Obj.edgeMismatches, Obj.edgeWaits, Obj.eventLost, Obj.evidSkipped, Obj.flipCtrl, Obj.linesScreened, Obj.poisonReads, Obj.tileFault, Obj.tileReady, Obj.uncorrectable, Obj.wbDropped] s (edgeTake k comp ws eofOk s) := by
  unfold edgeTake
  repeat' first
    | with_reducible assumption
    | with_reducible exact Keeps.refl _ _ _
    | (extract_lets +onlyGivenNames y)
    | with_reducible refine (modFab_keeps ..).step (by decide) (by decide) ?_
    | with_reducible refine (screenRun_keeps ..).step (by decide) (by decide) ?_
    | with_reducible refine (edgeRefused_keeps ..).step (by decide) (by decide) ?_
    | with_reducible refine (retryAwaited_keeps ..).step (by decide) (by decide) ?_
    | with_reducible refine keeps_bump (by decide) ?_
    | with_reducible refine keeps_ite ?_ ?_
    | split

theorem retryTake_keeps (k : Nat) (ws : List Word) (s : State) :
    Keeps [.fabric, .sent]
      [Obj.edgeCrcErrors] s (retryTake k ws s) := by
  unfold retryTake
  repeat' first
    | with_reducible assumption
    | with_reducible exact Keeps.refl _ _ _
    | (extract_lets +onlyGivenNames y
       refine have hy : Keeps [.fabric, .sent] [Obj.edgeCrcErrors] s y := ?_; ?_
       (unfold y; clear y)
       rotate_left
       clear_value y)
    | (extract_lets +onlyGivenNames y)
    | with_reducible refine (edgeSend_keeps ..).step (by decide) (by decide) ?_
    | with_reducible refine (retryAwaited_keeps ..).step (by decide) (by decide) ?_
    | with_reducible refine keeps_bump (by decide) ?_
    | with_reducible refine keeps_emit' (by decide) ?_
    | with_reducible refine keeps_ite ?_ ?_
    | split

theorem configLoad_keeps (t : Nat) (ok : Bool) (s : State) :
    Keeps [.ev, .fabric, .up]
      [Obj.eventLost, Obj.tileFault, Obj.tileReady] s (configLoad t ok s) := by
  unfold configLoad
  repeat' first
    | with_reducible assumption
    | with_reducible exact Keeps.refl _ _ _
    | with_reducible refine (modFab_keeps ..).step (by decide) (by decide) ?_
    | with_reducible refine (tileFail_keeps ..).step (by decide) (by decide) ?_
    | with_reducible refine keeps_ite ?_ ?_
    | split

end Sys2Proof.Machine
end

