-- ==== Sys2Proof/Laws/Flash.lean ====
section
/-! SUPPORT. What each operation of Machine/Flash.lean leaves alone: nothing but the groups and the objects named differs. -/

set_option Elab.async false
set_option linter.all false

namespace Sys2Proof.Machine

open Sys2Proof

set_option linter.tactic.unusedName false

theorem imageSet_keeps (p : Nat × Elem) (s : State) :
    Keeps [.dict, .values]
      [] s (imageSet p s) := by
  unfold imageSet
  repeat' first
    | with_reducible assumption
    | with_reducible exact Keeps.refl _ _ _
    | (extract_lets +onlyGivenNames y)
    | with_reducible refine keeps_setE (by decide) ?_
    | with_reducible refine keeps_setShadow (by decide) ?_
    | with_reducible refine keeps_setE_any (by decide) ?_
    | split

theorem restoreReq_keeps (img : Store) (s : State) :
    Keeps [.pwr]
      [Obj.bootStatus, Obj.seasonReq] s (restoreReq img s) := by
  unfold restoreReq
  repeat' first
    | with_reducible assumption
    | with_reducible exact Keeps.refl _ _ _
    | with_reducible refine (setBoot_keeps ..).step (by decide) (by decide) ?_
    | with_reducible refine keeps_setE (by decide) ?_
    | with_reducible refine keeps_ite ?_ ?_
    | split
    | refine keeps_pwr (by decide) (.inl rfl) (.inl rfl) rfl rfl ?_

theorem calLoaded_keeps (s : State) :
    Keeps [.cal]
      [] s (calLoaded s) := by
  unfold calLoaded
  repeat' first
    | with_reducible assumption
    | with_reducible exact Keeps.refl _ _ _
    | with_reducible refine (modCal_keeps ..).step (by decide) (by decide) ?_
    | split

theorem ntLoadDoneDo_keeps (s : State) :
    Keeps [.mem, .nt, .up]
      [Obj.headMasked] s (ntLoadDoneDo s) := by
  unfold ntLoadDoneDo
  repeat' first
    | with_reducible assumption
    | with_reducible exact Keeps.refl _ _ _
    | (extract_lets +onlyGivenNames y
       refine have hy : Keeps [.mem, .nt, .up] [Obj.headMasked] s y := ?_; ?_
       (unfold y; clear y)
       rotate_left
       clear_value y)
    | (extract_lets +onlyGivenNames y)
    | with_reducible refine (modNt_keeps ..).step (by decide) (by decide) ?_
    | with_reducible refine (ntCount_keeps ..).step (by decide) (by decide) ?_
    | with_reducible refine (modMem_keeps (hf := by exact fun _ h => h) ..).step (by decide) (by decide) ?_
    | with_reducible refine (modMem_keeps (hf := by exact fun _ h => putCell_wf h) ..).step (by decide) (by decide) ?_
    | with_reducible refine (modMem_keeps (hf := by exact fun _ _ => wf_nil _) ..).step (by decide) (by decide) ?_
    | with_reducible refine (loadImage_keeps ..).step (by decide) (by decide) ?_
    | with_reducible refine keeps_setUp (by decide) ?_
    | with_reducible refine keeps_ite ?_ ?_
    | split

end Sys2Proof.Machine
end

