-- ==== Sys2Proof/Laws/FuncReset.lean ====
section
/-! SUPPORT. What each operation of Machine/FuncReset.lean leaves alone: nothing but the groups and the objects named differs. -/

set_option Elab.async false
set_option linter.all false

namespace Sys2Proof.Machine

open Sys2Proof

set_option linter.tactic.unusedName false

theorem clearObjs_keeps (os : List Nat) (s : State) :
    Keeps [.dict, .values]
      [] s (clearObjs os s) := by
  unfold clearObjs
  repeat' first
    | with_reducible assumption
    | with_reducible exact Keeps.refl _ _ _
    | split
    | refine keeps_values (by decide) (.inr (by decide)) (by first | exact id | exact fun h => ⟨by first | exact keysRise_overlay _ _ (keysRise_filter _ _ h.1) | exact keysRise_filter _ _ h.1, h.2⟩) ?_

theorem clearLane_keeps (i : Nat) (s : State) :
    Keeps [.values]
      [] s (clearLane i s) := by
  unfold clearLane
  repeat' first
    | with_reducible assumption
    | with_reducible exact Keeps.refl _ _ _
    | with_reducible refine keeps_setN (by decide) ?_
    | with_reducible refine keeps_forEach (fun _ _ _ => ?_) ?_
    | with_reducible refine keeps_setN_any (by decide) ?_
    | split

theorem tilesBack_keeps (s : State) :
    Keeps [.fabric]
      [] s (tilesBack s) := by
  unfold tilesBack
  repeat' first
    | with_reducible assumption
    | with_reducible exact Keeps.refl _ _ _
    | split
    | refine keeps_fabric (by decide) ?_

theorem ldsLost_keeps (s : State) :
    Keeps [.ev, .fire, .free]
      [Obj.eventLost] s (ldsLost s) := by
  unfold ldsLost
  repeat' first
    | with_reducible assumption
    | with_reducible exact Keeps.refl _ _ _
    | (extract_lets +onlyGivenNames y
       refine have hy : Keeps [.ev, .fire, .free] [Obj.eventLost] s y := ?_; ?_
       (unfold y; clear y)
       rotate_left
       clear_value y)
    | (extract_lets +onlyGivenNames y)
    | with_reducible refine (discardLds_keeps ..).step (by decide) (by decide) ?_
    | with_reducible refine keeps_forEach (fun _ _ _ => ?_) ?_
    | split

theorem firmwareUp_keeps (s : State) :
    Keeps []
      [Obj.bootStatus, Obj.fwVersion] s (firmwareUp s) := by
  unfold firmwareUp
  repeat' first
    | with_reducible assumption
    | with_reducible exact Keeps.refl _ _ _
    | (extract_lets +onlyGivenNames y
       refine have hy : Keeps [] [Obj.bootStatus, Obj.fwVersion] s y := ?_; ?_
       (unfold y; clear y)
       rotate_left
       clear_value y)
    | (extract_lets +onlyGivenNames y)
    | with_reducible refine (setBoot_keeps ..).step (by decide) (by decide) ?_
    | with_reducible refine keeps_setN (by decide) ?_
    | with_reducible refine keeps_ite ?_ ?_
    | split

end Sys2Proof.Machine
end

