-- ==== Sys2Proof/Laws/HeadLink.lean ====
section
/-! SUPPORT. What each operation of Machine/HeadLink.lean leaves alone: nothing but the groups and the objects named differs. -/

set_option Elab.async false
set_option linter.all false

namespace Sys2Proof.Machine

open Sys2Proof

set_option linter.tactic.unusedName false

theorem bankLoad_keeps (h : Nat) (s : State) :
    Keeps [.links, .sent]
      [] s (bankLoad h s) := by
  unfold bankLoad
  repeat' first
    | with_reducible assumption
    | with_reducible exact Keeps.refl _ _ _
    | with_reducible refine (sendLow_keeps ..).step (by decide) (by decide) ?_
    | with_reducible refine keeps_ite ?_ ?_
    | split

theorem bankDrop_keeps (h p : Nat) (s : State) :
    Keeps [.links]
      [] s (bankDrop h p s) := by
  unfold bankDrop
  repeat' first
    | with_reducible assumption
    | with_reducible exact Keeps.refl _ _ _
    | (extract_lets +onlyGivenNames y
       refine have hy : Keeps [.links] [] s y := ?_; ?_
       (unfold y; clear y)
       rotate_left
       clear_value y)
    | (extract_lets +onlyGivenNames y)
    | with_reducible refine (modLink_keeps ..).step (by decide) (by decide) ?_
    | with_reducible refine (setBank_keeps ..).step (by decide) (by decide) ?_
    | with_reducible refine keeps_ite ?_ ?_
    | split

theorem bankBind_keeps (p : Nat) (s : State) :
    Keeps [.links, .sent]
      [] s (bankBind p s) := by
  unfold bankBind
  repeat' first
    | with_reducible assumption
    | with_reducible exact Keeps.refl _ _ _
    | with_reducible refine (bankLoad_keeps ..).step (by decide) (by decide) ?_
    | with_reducible refine (bankDrop_keeps ..).step (by decide) (by decide) ?_
    | with_reducible refine keeps_forEach (fun _ _ _ => ?_) ?_
    | split

theorem bankCancel_keeps (p : Nat) (s : State) :
    Keeps [.links]
      [] s (bankCancel p s) := by
  unfold bankCancel
  repeat' first
    | with_reducible assumption
    | with_reducible exact Keeps.refl _ _ _
    | with_reducible refine (bankDrop_keeps ..).step (by decide) (by decide) ?_
    | with_reducible refine keeps_forEach (fun _ _ _ => ?_) ?_
    | split

theorem bankNow_keeps (s : State) :
    Keeps [.links, .sent]
      [] s (bankNow s) := by
  unfold bankNow
  repeat' first
    | with_reducible assumption
    | with_reducible exact Keeps.refl _ _ _
    | (extract_lets +onlyGivenNames y
       refine have hy : Keeps [.links, .sent] [] s y := ?_; ?_
       (unfold y; clear y)
       rotate_left
       clear_value y)
    | (extract_lets +onlyGivenNames y)
    | with_reducible refine (setBank_keeps ..).step (by decide) (by decide) ?_
    | with_reducible refine (loadCurrent_keeps ..).step (by decide) (by decide) ?_
    | with_reducible refine keeps_forEach (fun _ _ _ => ?_) ?_
    | with_reducible refine keeps_ite ?_ ?_
    | split

theorem bankReload_keeps (h : Nat) (valid0 valid1 : Bool) (s : State) :
    Keeps [.links, .sent]
      [] s (bankReload h valid0 valid1 s) := by
  unfold bankReload
  repeat' first
    | with_reducible assumption
    | with_reducible exact Keeps.refl _ _ _
    | with_reducible refine (sendLow_keeps ..).step (by decide) (by decide) ?_
    | with_reducible refine keeps_forEach (fun _ _ _ => ?_) ?_
    | with_reducible refine keeps_ite ?_ ?_
    | split

theorem crcEvent_keeps (h reported failed : Nat) (s : State) :
    Keeps [.ev, .links]
      [Obj.eventLost] s (crcEvent h reported failed s) := by
  unfold crcEvent
  repeat' first
    | with_reducible assumption
    | with_reducible exact Keeps.refl _ _ _
    | with_reducible refine (modLink_keeps ..).step (by decide) (by decide) ?_
    | with_reducible refine keeps_raise (by decide) (by decide) ?_
    | with_reducible refine keeps_ite ?_ ?_
    | split

theorem crcCount_keeps (h reported failed : Nat) (s : State) :
    Keeps [.ev, .links]
      [Obj.eventLost, Obj.linkCrcErrors] s (crcCount h reported failed s) := by
  unfold crcCount
  repeat' first
    | with_reducible assumption
    | with_reducible exact Keeps.refl _ _ _
    | (extract_lets +onlyGivenNames y
       refine have hy : Keeps [.ev, .links] [Obj.eventLost, Obj.linkCrcErrors] s y := ?_; ?_
       (unfold y; clear y)
       rotate_left
       clear_value y)
    | (extract_lets +onlyGivenNames y)
    | with_reducible refine (crcEvent_keeps ..).step (by decide) (by decide) ?_
    | with_reducible refine keeps_setN (by decide) ?_
    | with_reducible refine keeps_ite ?_ ?_
    | split

theorem tempReport_keeps (h : Nat) (temp : Int) (s : State) :
    Keeps [.ev, .fire, .links]
      [Obj.eventLost, Obj.headTemp] s (tempReport h temp s) := by
  unfold tempReport
  repeat' first
    | with_reducible assumption
    | with_reducible exact Keeps.refl _ _ _
    | (extract_lets +onlyGivenNames y
       refine have hy : Keeps [.ev, .fire, .links] [Obj.eventLost, Obj.headTemp] s y := ?_; ?_
       (unfold y; clear y)
       rotate_left
       clear_value y)
    | (extract_lets +onlyGivenNames y)
    | with_reducible refine (modHead_keeps ..).step (by decide) (by decide) ?_
    | with_reducible refine (modLink_keeps ..).step (by decide) (by decide) ?_
    | with_reducible refine keeps_raise (by decide) (by decide) ?_
    | with_reducible refine keeps_setI (by decide) ?_
    | with_reducible refine keeps_ite ?_ ?_
    | split

theorem notFiredExclude_keeps (h : Nat) (s : State) :
    Keeps [.insp]
      [] s (notFiredExclude h s) := by
  unfold notFiredExclude
  repeat' first
    | with_reducible assumption
    | with_reducible exact Keeps.refl _ _ _
    | with_reducible refine (excludeHead_keeps ..).step (by decide) (by decide) ?_
    | with_reducible refine keeps_forEach (fun _ _ _ => ?_) ?_
    | with_reducible refine keeps_ite ?_ ?_
    | split

theorem faultReport_keeps (h : Nat) (w0 w3 : Word) (s : State) :
    Keeps [.ev, .links, .insp]
      [Obj.eventLost, Obj.notFired] s (faultReport h w0 w3 s) := by
  unfold faultReport
  repeat' first
    | with_reducible assumption
    | with_reducible exact Keeps.refl _ _ _
    | (extract_lets +onlyGivenNames y
       refine have hy : Keeps [.ev, .links, .insp] [Obj.eventLost, Obj.notFired] s y := ?_; ?_
       (unfold y; clear y)
       rotate_left
       clear_value y)
    | (extract_lets +onlyGivenNames y)
    | with_reducible refine (modLink_keeps ..).step (by decide) (by decide) ?_
    | with_reducible refine (notFiredExclude_keeps ..).step (by decide) (by decide) ?_
    | with_reducible refine keeps_raise (by decide) (by decide) ?_
    | with_reducible refine keeps_bump (by decide) ?_
    | with_reducible refine keeps_ite ?_ ?_
    | split

theorem statusLink_keeps (h : Nat) (s : State) :
    Keeps [.ev, .fire, .links, .insp, .up]
      [Obj.eventLost] s (statusLink h s) := by
  unfold statusLink
  repeat' first
    | with_reducible assumption
    | with_reducible exact Keeps.refl _ _ _
    | (extract_lets +onlyGivenNames y
       refine have hy : Keeps [.ev, .fire, .links, .insp, .up] [Obj.eventLost] s y := ?_; ?_
       (unfold y; clear y)
       rotate_left
       clear_value y)
    | (extract_lets +onlyGivenNames y)
    | with_reducible refine (modLink_keeps ..).step (by decide) (by decide) ?_
    | with_reducible refine (linkDown_keeps ..).step (by decide) (by decide) ?_
    | with_reducible refine keeps_ite ?_ ?_
    | split

theorem setDelay_keeps (h : Nat) (d : Int) (s : State) :
    Keeps [.links]
      [Obj.linkDelay] s (setDelay h d s) := by
  unfold setDelay
  repeat' first
    | with_reducible assumption
    | with_reducible exact Keeps.refl _ _ _
    | with_reducible refine (modLink_keeps ..).step (by decide) (by decide) ?_
    | with_reducible refine keeps_setN (by decide) ?_
    | split

theorem markSend_keeps (h tx : Nat) (s : State) :
    Keeps [.links, .sent]
      [] s (markSend h tx s) := by
  unfold markSend
  repeat' first
    | with_reducible assumption
    | with_reducible exact Keeps.refl _ _ _
    | (extract_lets +onlyGivenNames y
       refine have hy : Keeps [.links, .sent] [] s y := ?_; ?_
       (unfold y; clear y)
       rotate_left
       clear_value y)
    | (extract_lets +onlyGivenNames y)
    | with_reducible refine (modLink_keeps ..).step (by decide) (by decide) ?_
    | with_reducible refine (pumpHead_keeps ..).step (by decide) (by decide) ?_
    | with_reducible refine keeps_emit' (by decide) ?_
    | with_reducible refine keeps_ite ?_ ?_
    | split

theorem markEcho_keeps (h m rx turn : Nat) (s : State) :
    Keeps [.ev, .fire, .links, .insp, .sent, .up]
      [Obj.eventLost, Obj.linkDelay] s (markEcho h m rx turn s) := by
  unfold markEcho
  repeat' first
    | with_reducible assumption
    | with_reducible exact Keeps.refl _ _ _
    | (extract_lets +onlyGivenNames y
       refine have hy : Keeps [.ev, .fire, .links, .insp, .sent, .up] [Obj.eventLost, Obj.linkDelay] s y := ?_; ?_
       (unfold y; clear y)
       rotate_left
       clear_value y)
    | (extract_lets +onlyGivenNames y)
    | with_reducible refine (modLink_keeps ..).step (by decide) (by decide) ?_
    | with_reducible refine (sendLow_keeps ..).step (by decide) (by decide) ?_
    | with_reducible refine (linkDown_keeps ..).step (by decide) (by decide) ?_
    | with_reducible refine (linkReady_keeps ..).step (by decide) (by decide) ?_
    | with_reducible refine (setDelay_keeps ..).step (by decide) (by decide) ?_
    | with_reducible refine keeps_foldl (fun _ _ _ => ?_) ?_
    | with_reducible refine keeps_ite ?_ ?_
    | split

theorem regSelDo_keeps (h : Nat) (v : Word) (s : State) :
    Keeps [.links, .sent]
      [Obj.regSel] s (regSelDo h v s) := by
  unfold regSelDo
  repeat' first
    | with_reducible assumption
    | with_reducible exact Keeps.refl _ _ _
    | (extract_lets +onlyGivenNames y
       refine have hy : Keeps [.links, .sent] [Obj.regSel] s y := ?_; ?_
       (unfold y; clear y)
       rotate_left
       clear_value y)
    | (extract_lets +onlyGivenNames y)
    | with_reducible refine (modLink_keeps ..).step (by decide) (by decide) ?_
    | with_reducible refine (sendLow_keeps ..).step (by decide) (by decide) ?_
    | with_reducible refine keeps_setN (by decide) ?_
    | with_reducible refine keeps_ite ?_ ?_
    | split

theorem regDone_keeps (h : Nat) (err : Bool) (s : State) :
    Keeps []
      [Obj.regSel] s (regDone h err s) := by
  unfold regDone
  repeat' first
    | with_reducible assumption
    | with_reducible exact Keeps.refl _ _ _
    | with_reducible refine keeps_setN (by decide) ?_
    | split

theorem regReply_keeps (h : Nat) (ws : List Word) (eofOk : Bool) (s : State) :
    Keeps [.ev, .links, .up]
      [Obj.bridgeId, Obj.eventLost, Obj.linkCrcErrors, Obj.regData, Obj.regSel] s (regReply h ws eofOk s) := by
  unfold regReply
  repeat' first
    | with_reducible assumption
    | with_reducible exact Keeps.refl _ _ _
    | (extract_lets +onlyGivenNames y
       refine have hy : Keeps [.ev, .links, .up] [Obj.bridgeId, Obj.eventLost, Obj.linkCrcErrors, Obj.regData, Obj.regSel] s y := ?_; ?_
       (unfold y; clear y)
       rotate_left
       clear_value y)
    | (extract_lets +onlyGivenNames y)
    | with_reducible refine (modLink_keeps ..).step (by decide) (by decide) ?_
    | with_reducible refine (crcCount_keeps ..).step (by decide) (by decide) ?_
    | with_reducible refine (regDone_keeps ..).step (by decide) (by decide) ?_
    | with_reducible refine keeps_setN (by decide) ?_
    | with_reducible refine keeps_setUp (by decide) ?_
    | with_reducible refine keeps_ite ?_ ?_
    | split

theorem idleCommand_keeps (h : Nat) (s : State) :
    Keeps [.links, .sent]
      [] s (idleCommand h s) := by
  unfold idleCommand
  repeat' first
    | with_reducible assumption
    | with_reducible exact Keeps.refl _ _ _
    | with_reducible refine (sendHead_keeps ..).step (by decide) (by decide) ?_
    | with_reducible refine keeps_ite ?_ ?_
    | split

end Sys2Proof.Machine
end

