-- ==== Sys2Proof/Laws/Host.lean ====
section
/-! SUPPORT. What each operation of Machine/Host.lean leaves alone: nothing but the groups and the objects named differs. -/

set_option Elab.async false
set_option linter.all false

namespace Sys2Proof.Machine

open Sys2Proof

set_option linter.tactic.unusedName false

theorem bareReply_keeps (src : BitVec 32) (port seq flag : Nat) (s : State) :
    Keeps [.sent]
      [] s (bareReply src port seq flag s) := by
  unfold bareReply
  repeat' first
    | with_reducible assumption
    | with_reducible exact Keeps.refl _ _ _
    | with_reducible refine (sendDatagram_keeps ..).step (by decide) (by decide) ?_
    | split

end Sys2Proof.Machine
end

