-- ==== Sys2Proof/Laws/Integrity.lean ====
section
/-! SUPPORT. What each operation of Machine/Integrity.lean leaves alone: nothing but the groups and the objects named differs. -/

set_option Elab.async false
set_option linter.all false

namespace Sys2Proof.Machine

open Sys2Proof

set_option linter.tactic.unusedName false

theorem whileNotReady_keeps {T : List Area} {O : List Nat} (hU : Area.up ∈ T) (hT : Area.ev ∈ T)
    (hO : Obj.eventLost ∈ O ∧ Obj.eventMasked ∈ O) (b : Nat) (f : State → State) (hf : ∀ s, Keeps T O s (f s)) (s : State) :
    Keeps T O s (whileNotReady b f s) := by
  have hs : ∀ x, Keeps T O x (settle x) := fun x => (settle_keeps x).mono
    (by simpa using hT)
    (by simp only [List.mem_cons, List.not_mem_nil, or_false, forall_eq_or_imp, forall_eq]; exact ⟨hO.1, hO.2⟩)
  unfold whileNotReady
  split
  · exact hf s
  · exact (((keeps_setUp hU (Keeps.refl T O s)).trans (hs _)).trans (hf _)).trans
      ((keeps_setUp hU (Keeps.refl T O _)).trans (hs _))

theorem writeBack_keeps (m : Nat) (s : State) :
    Keeps [.pwr, .ev, .mem, .fabric, .up]
      [Obj.corrected, Obj.eventLost, Obj.flipCtrl, Obj.tileFault, Obj.tileReady, Obj.uncorrectable, Obj.wbDropped] s (writeBack m s) := by
  unfold writeBack
  repeat' first
    | with_reducible assumption
    | with_reducible exact Keeps.refl _ _ _
    | with_reducible refine (noteWriteBack_keeps ..).step (by decide) (by decide) ?_
    | with_reducible refine (modMem_keeps (hf := by exact fun _ h => h) ..).step (by decide) (by decide) ?_
    | with_reducible refine (modMem_keeps (hf := by exact fun _ h => putCell_wf h) ..).step (by decide) (by decide) ?_
    | with_reducible refine (modMem_keeps (hf := by exact fun _ _ => wf_nil _) ..).step (by decide) (by decide) ?_
    | with_reducible refine (putCell_keeps ..).step (by decide) (by decide) ?_
    | with_reducible refine (evictAt_keeps ..).step (by decide) (by decide) ?_
    | with_reducible refine keeps_ite ?_ ?_
    | split

theorem mergeEvict_keeps (m : Nat) (s : State) :
    Keeps [.pwr, .ev, .mem, .fabric, .up]
      [Obj.corrected, Obj.eventLost, Obj.flipCtrl, Obj.tileFault, Obj.tileReady, Obj.uncorrectable, Obj.wbDropped] s (mergeEvict m s) := by
  unfold mergeEvict
  repeat' first
    | with_reducible assumption
    | with_reducible exact Keeps.refl _ _ _
    | with_reducible refine (evictEntry_keeps ..).step (by decide) (by decide) ?_
    | split

theorem scrubWord_keeps (m a : Nat) (s : State) :
    Keeps [.pwr, .ev, .mem, .fabric, .free, .up]
      [Obj.corrected, Obj.eventLost, Obj.poisoned, Obj.tileFault, Obj.tileReady, Obj.wbDropped] s (scrubWord m a s) := by
  unfold scrubWord
  repeat' first
    | with_reducible assumption
    | with_reducible exact Keeps.refl _ _ _
    | (extract_lets +onlyGivenNames y
       refine have hy : Keeps [.pwr, .ev, .mem, .fabric, .free, .up] [Obj.corrected, Obj.eventLost, Obj.poisoned, Obj.tileFault, Obj.tileReady, Obj.wbDropped] s y := ?_; ?_
       (unfold y; clear y)
       rotate_left
       clear_value y)
    | (extract_lets +onlyGivenNames y)
    | with_reducible refine (furtherAction_keeps ..).step (by decide) (by decide) ?_
    | with_reducible refine (corrected_keeps ..).step (by decide) (by decide) ?_
    | with_reducible refine (poison_keeps ..).step (by decide) (by decide) ?_
    | with_reducible refine keeps_raise (by decide) (by decide) ?_
    | with_reducible refine keeps_bump (by decide) ?_
    | with_reducible refine keeps_takeFree (by decide) ?_
    | with_reducible refine keeps_ite ?_ ?_
    | split

theorem upsetWord_keeps (m a : Nat) (upset : BitVec 43) (s : State) :
    Keeps [.mem, .free]
      [] s (upsetWord m a upset s) := by
  unfold upsetWord
  repeat' first
    | with_reducible assumption
    | with_reducible exact Keeps.refl _ _ _
    | (extract_lets +onlyGivenNames y
       refine have hy : Keeps [.mem, .free] [] s y := ?_; ?_
       (unfold y; clear y)
       rotate_left
       clear_value y)
    | (extract_lets +onlyGivenNames y)
    | with_reducible refine (putCell_keeps ..).step (by decide) (by decide) ?_
    | with_reducible refine keeps_takeFree (by decide) ?_
    | with_reducible refine keeps_ite ?_ ?_
    | split

theorem copyWord_keeps (m a : Nat) (s : State) :
    Keeps [.mem]
      [] s (copyWord m a s) := by
  unfold copyWord
  repeat' first
    | with_reducible assumption
    | with_reducible exact Keeps.refl _ _ _
    | (extract_lets +onlyGivenNames y
       refine have hy : Keeps [.mem] [] s y := ?_; ?_
       (unfold y; clear y)
       rotate_left
       clear_value y)
    | (extract_lets +onlyGivenNames y)
    | with_reducible refine (putCell_keeps ..).step (by decide) (by decide) ?_
    | with_reducible refine (poison_keeps ..).step (by decide) (by decide) ?_
    | with_reducible refine keeps_ite ?_ ?_
    | split

theorem repairDone_keeps (m : Nat) (s : State) :
    Keeps [.ev, .mem, .repairs]
      [Obj.eventLost] s (repairDone m s) := by
  unfold repairDone
  repeat' first
    | with_reducible assumption
    | with_reducible exact Keeps.refl _ _ _
    | (extract_lets +onlyGivenNames y
       refine have hy : Keeps [.ev, .mem, .repairs] [Obj.eventLost] s y := ?_; ?_
       (unfold y; clear y)
       rotate_left
       clear_value y)
    | (extract_lets +onlyGivenNames y)
    | with_reducible refine (modMem_keeps (hf := by exact fun _ h => h) ..).step (by decide) (by decide) ?_
    | with_reducible refine (modMem_keeps (hf := by exact fun _ h => putCell_wf h) ..).step (by decide) (by decide) ?_
    | with_reducible refine (modMem_keeps (hf := by exact fun _ _ => wf_nil _) ..).step (by decide) (by decide) ?_
    | with_reducible refine (copyWord_keeps ..).step (by decide) (by decide) ?_
    | with_reducible refine keeps_raise (by decide) (by decide) ?_
    | with_reducible refine keeps_forEach (fun _ _ _ => ?_) ?_
    | split
    | refine keeps_repairs (by decide) ?_

theorem clearDo_keeps (v : Word) (s : State) :
    Keeps [.ev, .mem, .rfe, .fabric, .nt, .fire, .insp, .up] [Obj.eventLost, Obj.eventMasked] s (clearDo v s) := by
  unfold clearDo
  refine keeps_forEach (fun m y h => keeps_ite ?_ ?_) (Keeps.refl _ _ _)
  · exact (clearMem_keeps ..).step (by decide) (by decide) ((modMem_keeps (hf := by exact fun _ h => h) ..).step (by decide) (by decide) h)
  · exact h.trans (whileNotReady_keeps (by decide) (by decide) (by decide) _ _ (fun s => (clearMem_keeps ..).mono (by decide) (by decide)) _)

theorem summaryEnd_keeps (s : State) :
    Keeps [.ev, .mem] [Obj.eventLost] s (summaryEnd s) := by
  unfold summaryEnd
  exact keeps_ite (Keeps.refl _ _ _) (keeps_mem (by decide) (fun h k => by simpa using h k)
    (keeps_raise (by decide) (by decide) (Keeps.refl _ _ _)))

theorem compatDo_keeps (v : Word) (s : State) :
    Keeps []
      [Obj.compat, Obj.initDone] s (compatDo v s) := by
  unfold compatDo
  repeat' first
    | with_reducible assumption
    | with_reducible exact Keeps.refl _ _ _
    | (extract_lets +onlyGivenNames y
       refine have hy : Keeps [] [Obj.compat, Obj.initDone] s y := ?_; ?_
       (unfold y; clear y)
       rotate_left
       clear_value y)
    | (extract_lets +onlyGivenNames y)
    | with_reducible refine keeps_setN (by decide) ?_
    | split

end Sys2Proof.Machine
end

