-- ==== Sys2Proof/Laws/Time.lean ====
section
/-! SUPPORT. What each operation of Machine/Time.lean leaves alone: nothing but the groups and the objects named differs. -/

set_option Elab.async false
set_option linter.all false

namespace Sys2Proof.Machine

open Sys2Proof

set_option linter.tactic.unusedName false

theorem modClock_keeps (f : Clock → Clock) (s : State) (hf : ∀ c, (f c).tick = c.tick) : Keeps [.clock] [] s (modClock f s) :=
  keeps_clock (by decide) (hf _) (Keeps.refl _ _ _)

theorem modPtp_keeps (f : Ptp → Ptp) (s : State) :
    Keeps [.ptp]
      [] s (modPtp f s) := by
  unfold modPtp
  repeat' first
    | with_reducible assumption
    | with_reducible exact Keeps.refl _ _ _
    | split
    | refine keeps_ptp (by decide) ?_

theorem timeFlag_keeps (b : Nat) (on : Bool) (s : State) :
    Keeps []
      [Obj.timeFlags] s (timeFlag b on s) := by
  unfold timeFlag
  repeat' first
    | with_reducible assumption
    | with_reducible exact Keeps.refl _ _ _
    | with_reducible refine keeps_setN (by decide) ?_
    | split

theorem syncEnter_keeps (n : Nat) (s : State) :
    Keeps [.clock, .ev, .up]
      [Obj.eventLost, Obj.syncState] s (syncEnter n s) := by
  unfold syncEnter
  repeat' first
    | with_reducible assumption
    | with_reducible exact Keeps.refl _ _ _
    | (extract_lets +onlyGivenNames y
       refine have hy : Keeps [.clock, .ev, .up] [Obj.eventLost, Obj.syncState] s y := ?_; ?_
       (unfold y; clear y)
       rotate_left
       clear_value y)
    | (extract_lets +onlyGivenNames y)
    | with_reducible refine (modClock_keeps (hf := by exact fun _ => rfl) ..).step (by decide) (by decide) ?_
    | with_reducible refine keeps_raise (by decide) (by decide) ?_
    | with_reducible refine keeps_setN (by decide) ?_
    | with_reducible refine keeps_setUp (by decide) ?_
    | with_reducible refine keeps_ite ?_ ?_
    | split

theorem freeRun_keeps (s : State) :
    Keeps [.clock, .ev, .up]
      [Obj.eventLost, Obj.syncState] s (freeRun s) := by
  unfold freeRun
  repeat' first
    | with_reducible assumption
    | with_reducible exact Keeps.refl _ _ _
    | with_reducible refine (syncEnter_keeps ..).step (by decide) (by decide) ?_
    | with_reducible refine keeps_ite ?_ ?_
    | split

theorem enterHoldover_keeps (s : State) :
    Keeps [.clock, .ev, .up]
      [Obj.eventLost, Obj.syncState] s (enterHoldover s) := by
  unfold enterHoldover
  repeat' first
    | with_reducible assumption
    | with_reducible exact Keeps.refl _ _ _
    | (extract_lets +onlyGivenNames y
       refine have hy : Keeps [.clock, .ev, .up] [Obj.eventLost, Obj.syncState] s y := ?_; ?_
       (unfold y; clear y)
       rotate_left
       clear_value y)
    | (extract_lets +onlyGivenNames y)
    | with_reducible refine (modClock_keeps (hf := by exact fun _ => rfl) ..).step (by decide) (by decide) ?_
    | with_reducible refine (syncEnter_keeps ..).step (by decide) (by decide) ?_
    | with_reducible refine keeps_ite ?_ ?_
    | split

theorem modTrig_keeps (u : Nat) (f : TrigUnit → TrigUnit) (s : State) :
    Keeps [.trigs]
      [] s (modTrig u f s) := by
  unfold modTrig
  repeat' first
    | with_reducible assumption
    | with_reducible exact Keeps.refl _ _ _
    | split
    | refine keeps_trigs (by decide) ?_

theorem trigPassed_keeps (after : Nat) (s : State) :
    Keeps [.trigs]
      [Obj.trig] s (trigPassed after s) := by
  unfold trigPassed
  repeat' first
    | with_reducible assumption
    | with_reducible exact Keeps.refl _ _ _
    | (extract_lets +onlyGivenNames y
       refine have hy : Keeps [.trigs] [Obj.trig] s y := ?_; ?_
       (unfold y; clear y)
       rotate_left
       clear_value y)
    | (extract_lets +onlyGivenNames y)
    | with_reducible refine (modTrig_keeps ..).step (by decide) (by decide) ?_
    | with_reducible refine keeps_setN (by decide) ?_
    | with_reducible refine keeps_forEach (fun _ _ _ => ?_) ?_
    | with_reducible refine keeps_ite ?_ ?_
    | split

theorem stepTime_keeps (theta : Int) (s : State) :
    Keeps [.clock, .trigs]
      [Obj.trig] s (stepTime theta s) := by
  unfold stepTime
  repeat' first
    | with_reducible assumption
    | with_reducible exact Keeps.refl _ _ _
    | (extract_lets +onlyGivenNames y
       refine have hy : Keeps [.clock, .trigs] [Obj.trig] s y := ?_; ?_
       (unfold y; clear y)
       rotate_left
       clear_value y)
    | (extract_lets +onlyGivenNames y)
    | with_reducible refine (modClock_keeps (hf := by exact fun _ => rfl) ..).step (by decide) (by decide) ?_
    | with_reducible refine (trigPassed_keeps ..).step (by decide) (by decide) ?_
    | split

theorem servo_keeps (theta T : Int) (ppm : Int) (s : State) :
    Keeps [.clock]
      [Obj.rateAddend, Obj.timeFlags] s (servo theta T ppm s) := by
  unfold servo
  repeat' first
    | with_reducible assumption
    | with_reducible exact Keeps.refl _ _ _
    | (extract_lets +onlyGivenNames y
       refine have hy : Keeps [.clock] [Obj.rateAddend, Obj.timeFlags] s y := ?_; ?_
       (unfold y; clear y)
       rotate_left
       clear_value y)
    | (extract_lets +onlyGivenNames y)
    | with_reducible refine (modClock_keeps (hf := by exact fun _ => rfl) ..).step (by decide) (by decide) ?_
    | with_reducible refine (timeFlag_keeps ..).step (by decide) (by decide) ?_
    | with_reducible refine keeps_setN (by decide) ?_
    | split

theorem syncStep_keeps (ring : Bool) (theta : Int) (s : State) :
    Keeps [.clock, .ev, .up]
      [Obj.eventLost, Obj.syncState] s (syncStep ring theta s) := by
  unfold syncStep
  repeat' first
    | with_reducible assumption
    | with_reducible exact Keeps.refl _ _ _
    | (extract_lets +onlyGivenNames y
       refine have hy : Keeps [.clock, .ev, .up] [Obj.eventLost, Obj.syncState] s y := ?_; ?_
       (unfold y; clear y)
       rotate_left
       clear_value y)
    | (extract_lets +onlyGivenNames y)
    | with_reducible refine (modClock_keeps (hf := by exact fun _ => rfl) ..).step (by decide) (by decide) ?_
    | with_reducible refine (syncEnter_keeps ..).step (by decide) (by decide) ?_
    | with_reducible refine keeps_ite ?_ ?_
    | split

theorem rerouteCheck_keeps (theta : Int) (s : State) :
    Keeps [.clock, .ev]
      [Obj.eventLost, Obj.timeFlags] s (rerouteCheck theta s) := by
  unfold rerouteCheck
  repeat' first
    | with_reducible assumption
    | with_reducible exact Keeps.refl _ _ _
    | (extract_lets +onlyGivenNames y
       refine have hy : Keeps [.clock, .ev] [Obj.eventLost, Obj.timeFlags] s y := ?_; ?_
       (unfold y; clear y)
       rotate_left
       clear_value y)
    | (extract_lets +onlyGivenNames y)
    | with_reducible refine (modClock_keeps (hf := by exact fun _ => rfl) ..).step (by decide) (by decide) ?_
    | with_reducible refine (timeFlag_keeps ..).step (by decide) (by decide) ?_
    | with_reducible refine keeps_raise (by decide) (by decide) ?_
    | with_reducible refine keeps_ite ?_ ?_
    | split

theorem absorb_keeps (theta T : Int) (s : State) :
    Keeps [.clock, .trigs, .ev]
      [Obj.eventLost, Obj.rateAddend, Obj.timeFlags, Obj.trig] s (absorb theta T s) := by
  unfold absorb
  repeat' first
    | with_reducible assumption
    | with_reducible exact Keeps.refl _ _ _
    | (extract_lets +onlyGivenNames y
       refine have hy : Keeps [.clock, .trigs, .ev] [Obj.eventLost, Obj.rateAddend, Obj.timeFlags, Obj.trig] s y := ?_; ?_
       (unfold y; clear y)
       rotate_left
       clear_value y)
    | (extract_lets +onlyGivenNames y; clear_value y)
    | with_reducible refine (modClock_keeps (hf := by exact fun _ => rfl) ..).step (by decide) (by decide) ?_
    | with_reducible refine (timeFlag_keeps ..).step (by decide) (by decide) ?_
    | with_reducible refine (stepTime_keeps ..).step (by decide) (by decide) ?_
    | with_reducible refine (servo_keeps ..).step (by decide) (by decide) ?_
    | with_reducible refine keeps_raise (by decide) (by decide) ?_
    | with_reducible refine keeps_ite ?_ ?_
    | split

theorem offsetSample_keeps (ring : Bool) (theta T : Int) (s : State) :
    Keeps [.clock, .trigs, .ev, .up]
      [Obj.eventLost, Obj.offset, Obj.rateAddend, Obj.syncState, Obj.timeFlags, Obj.trig] s (offsetSample ring theta T s) := by
  unfold offsetSample
  repeat' first
    | with_reducible assumption
    | with_reducible exact Keeps.refl _ _ _
    | (extract_lets +onlyGivenNames y
       refine have hy : Keeps [.clock, .trigs, .ev, .up] [Obj.eventLost, Obj.offset, Obj.rateAddend, Obj.syncState, Obj.timeFlags, Obj.trig] s y := ?_; ?_
       (unfold y; clear y)
       rotate_left
       clear_value y)
    | (extract_lets +onlyGivenNames y)
    | with_reducible refine (modClock_keeps (hf := by exact fun _ => rfl) ..).step (by decide) (by decide) ?_
    | with_reducible refine (syncStep_keeps ..).step (by decide) (by decide) ?_
    | with_reducible refine (rerouteCheck_keeps ..).step (by decide) (by decide) ?_
    | with_reducible refine (absorb_keeps ..).step (by decide) (by decide) ?_
    | with_reducible refine keeps_setI (by decide) ?_
    | with_reducible refine keeps_ite ?_ ?_
    | split

theorem timeNowDo_keeps (v : Nat) (s : State) :
    Keeps [.clock, .trigs, .xing]
      [Obj.trig] s (timeNowDo v s) := by
  unfold timeNowDo
  repeat' first
    | with_reducible assumption
    | with_reducible exact Keeps.refl _ _ _
    | with_reducible refine (modClock_keeps (hf := by exact fun _ => rfl) ..).step (by decide) (by decide) ?_
    | with_reducible refine (trigPassed_keeps ..).step (by decide) (by decide) ?_
    | with_reducible refine (xingQueue_keeps ..).step (by decide) (by decide) ?_
    | split

theorem resyncDo_keeps (s : State) :
    Keeps [.clock]
      [Obj.timeFlags] s (resyncDo s) := by
  unfold resyncDo
  repeat' first
    | with_reducible assumption
    | with_reducible exact Keeps.refl _ _ _
    | with_reducible refine (modClock_keeps (hf := by exact fun _ => rfl) ..).step (by decide) (by decide) ?_
    | with_reducible refine (timeFlag_keeps ..).step (by decide) (by decide) ?_
    | split

theorem timeSourceDo_keeps (v : Nat) (s : State) :
    Keeps [.clock, .ptp, .ev, .up]
      [Obj.eventLost, Obj.ptpState, Obj.syncState, Obj.timeSource] s (timeSourceDo v s) := by
  unfold timeSourceDo
  repeat' first
    | with_reducible assumption
    | with_reducible exact Keeps.refl _ _ _
    | (extract_lets +onlyGivenNames y
       refine have hy : Keeps [.clock, .ptp, .ev, .up] [Obj.eventLost, Obj.ptpState, Obj.syncState, Obj.timeSource] s y := ?_; ?_
       (unfold y; clear y)
       rotate_left
       clear_value y)
    | (extract_lets +onlyGivenNames y)
    | with_reducible refine (modClock_keeps (hf := by exact fun _ => rfl) ..).step (by decide) (by decide) ?_
    | with_reducible refine (syncEnter_keeps ..).step (by decide) (by decide) ?_
    | with_reducible refine (freeRun_keeps ..).step (by decide) (by decide) ?_
    | with_reducible refine keeps_setN (by decide) ?_
    | with_reducible refine keeps_ite ?_ ?_
    | split
    | refine keeps_ptp (by decide) ?_

theorem ptpPort_keeps (s : State) :
    Keeps []
      [Obj.ptpState] s (ptpPort s) := by
  unfold ptpPort
  repeat' first
    | with_reducible assumption
    | with_reducible exact Keeps.refl _ _ _
    | (extract_lets +onlyGivenNames y
       refine have hy : Keeps [] [Obj.ptpState] s y := ?_; ?_
       (unfold y; clear y)
       rotate_left
       clear_value y)
    | (extract_lets +onlyGivenNames y)
    | with_reducible refine keeps_setN (by decide) ?_
    | with_reducible refine keeps_ite ?_ ?_
    | split

theorem ptpOffset_keeps (rx origin corr T : Int) (s : State) :
    Keeps [.clock, .ptp, .trigs, .ev, .up]
      [Obj.eventLost, Obj.offset, Obj.ptpState, Obj.rateAddend, Obj.syncState, Obj.timeFlags, Obj.trig] s (ptpOffset rx origin corr T s) := by
  unfold ptpOffset
  repeat' first
    | with_reducible assumption
    | with_reducible exact Keeps.refl _ _ _
    | (extract_lets +onlyGivenNames y
       refine have hy : Keeps [.clock, .ptp, .trigs, .ev, .up] [Obj.eventLost, Obj.offset, Obj.ptpState, Obj.rateAddend, Obj.syncState, Obj.timeFlags, Obj.trig] s y := ?_; ?_
       (unfold y; clear y)
       rotate_left
       clear_value y)
    | (extract_lets +onlyGivenNames y)
    | with_reducible refine (modPtp_keeps ..).step (by decide) (by decide) ?_
    | with_reducible refine (offsetSample_keeps ..).step (by decide) (by decide) ?_
    | with_reducible refine (ptpPort_keeps ..).step (by decide) (by decide) ?_
    | split

theorem trigDo_keeps (u : Nat) (v : Word) (s : State) :
    Keeps [.trigs, .xing]
      [Obj.trig] s (trigDo u v s) := by
  unfold trigDo
  repeat' first
    | with_reducible assumption
    | with_reducible exact Keeps.refl _ _ _
    | (extract_lets +onlyGivenNames y
       refine have hy : Keeps [.trigs, .xing] [Obj.trig] s y := ?_; ?_
       (unfold y; clear y)
       rotate_left
       clear_value y)
    | (extract_lets +onlyGivenNames y)
    | with_reducible refine (modTrig_keeps ..).step (by decide) (by decide) ?_
    | with_reducible refine (xingQueue_keeps ..).step (by decide) (by decide) ?_
    | with_reducible refine keeps_setN (by decide) ?_
    | with_reducible refine keeps_ite ?_ ?_
    | split

theorem trigFire_keeps (u at64 : Nat) (s : State) :
    Keeps [.trigs, .sent]
      [Obj.trig, Obj.trigFired] s (trigFire u at64 s) := by
  unfold trigFire
  repeat' first
    | with_reducible assumption
    | with_reducible exact Keeps.refl _ _ _
    | (extract_lets +onlyGivenNames y
       refine have hy : Keeps [.trigs, .sent] [Obj.trig, Obj.trigFired] s y := ?_; ?_
       (unfold y; clear y)
       rotate_left
       clear_value y)
    | (extract_lets +onlyGivenNames y)
    | with_reducible refine (modTrig_keeps ..).step (by decide) (by decide) ?_
    | with_reducible refine keeps_setN (by decide) ?_
    | with_reducible refine keeps_bump (by decide) ?_
    | with_reducible refine keeps_emit' (by decide) ?_
    | with_reducible refine keeps_ite ?_ ?_
    | split

theorem captDo_keeps (i : Nat) (v : Word) (s : State) :
    Keeps [.xing]
      [Obj.capt] s (captDo i v s) := by
  unfold captDo
  repeat' first
    | with_reducible assumption
    | with_reducible exact Keeps.refl _ _ _
    | (extract_lets +onlyGivenNames y
       refine have hy : Keeps [.xing] [Obj.capt] s y := ?_; ?_
       (unfold y; clear y)
       rotate_left
       clear_value y)
    | (extract_lets +onlyGivenNames y)
    | with_reducible refine (xingQueue_keeps ..).step (by decide) (by decide) ?_
    | with_reducible refine keeps_setN (by decide) ?_
    | split

end Sys2Proof.Machine
end

