-- ==== Sys2Proof/Laws/Lanes.lean ====
section
/-! SUPPORT. What each operation of Machine/Lanes.lean leaves alone: nothing but the groups and the objects named differs. -/

set_option Elab.async false
set_option linter.all false

namespace Sys2Proof.Machine

open Sys2Proof

set_option linter.tactic.unusedName false

theorem modRing_keeps (f : Ring → Ring) (s : State) :
    Keeps [.ring]
      [] s (modRing f s) := by
  unfold modRing
  repeat' first
    | with_reducible assumption
    | with_reducible exact Keeps.refl _ _ _
    | split
    | refine keeps_ring (by decide) ?_

theorem portLost_keeps (i : Nat) (s : State) :
    Keeps [.clock, .ev, .ring, .up]
      [Obj.eventLost, Obj.syncState] s (portLost i s) := by
  unfold portLost
  repeat' first
    | with_reducible assumption
    | with_reducible exact Keeps.refl _ _ _
    | (extract_lets +onlyGivenNames y
       refine have hy : Keeps [.clock, .ev, .ring, .up] [Obj.eventLost, Obj.syncState] s y := ?_; ?_
       (unfold y; clear y)
       rotate_left
       clear_value y)
    | (extract_lets +onlyGivenNames y)
    | with_reducible refine (enterHoldover_keeps ..).step (by decide) (by decide) ?_
    | with_reducible refine (modRing_keeps ..).step (by decide) (by decide) ?_
    | with_reducible refine keeps_whenB (fun _ _ => ?_) ?_
    | with_reducible refine keeps_ite ?_ ?_
    | split

theorem portGained_keeps (s : State) :
    Keeps [.ring]
      [] s (portGained s) := by
  unfold portGained
  repeat' first
    | with_reducible assumption
    | with_reducible exact Keeps.refl _ _ _
    | with_reducible refine (modRing_keeps ..).step (by decide) (by decide) ?_
    | with_reducible refine keeps_ite ?_ ?_
    | split

theorem hostUp_keeps (s : State) :
    Keeps [.host, .free]
      [] s (hostUp s) := by
  unfold hostUp
  repeat' first
    | with_reducible assumption
    | with_reducible exact Keeps.refl _ _ _
    | (extract_lets +onlyGivenNames y
       refine have hy : Keeps [.host, .free] [] s y := ?_; ?_
       (unfold y; clear y)
       rotate_left
       clear_value y)
    | (extract_lets +onlyGivenNames y)
    | with_reducible refine keeps_takeFree (by decide) ?_
    | with_reducible refine keeps_ite ?_ ?_
    | split
    | refine keeps_host (by decide) ?_

theorem laneGained_keeps (i : Nat) (s : State) :
    Keeps [.ev, .ring, .host, .lanes, .bond, .rfe, .sent, .free, .up, .values]
      [Obj.eventLost, Obj.maxLineRate] s (laneGained i s) := by
  unfold laneGained
  repeat' first
    | with_reducible assumption
    | with_reducible exact Keeps.refl _ _ _
    | (extract_lets +onlyGivenNames y
       refine have hy : Keeps [.ev, .ring, .host, .lanes, .bond, .rfe, .sent, .free, .up, .values] [Obj.eventLost, Obj.maxLineRate] s y := ?_; ?_
       (unfold y; clear y)
       rotate_left
       clear_value y)
    | (extract_lets +onlyGivenNames y)
    | with_reducible refine (bondTry_keeps ..).step (by decide) (by decide) ?_
    | with_reducible refine (lockGain_keeps ..).step (by decide) (by decide) ?_
    | with_reducible refine (portGained_keeps ..).step (by decide) (by decide) ?_
    | with_reducible refine (hostUp_keeps ..).step (by decide) (by decide) ?_
    | with_reducible refine keeps_ite ?_ ?_
    | split

theorem headLaneLost_keeps (h : Nat) (s : State) :
    Keeps [.ev, .fire, .links, .insp, .up]
      [Obj.eventLost] s (headLaneLost h s) := by
  unfold headLaneLost
  repeat' first
    | with_reducible assumption
    | with_reducible exact Keeps.refl _ _ _
    | with_reducible refine (modLink_keeps ..).step (by decide) (by decide) ?_
    | with_reducible refine (linkDown_keeps ..).step (by decide) (by decide) ?_
    | split

theorem headLaneFollow_keeps (h : Nat) (s : State) :
    Keeps [.ev, .fire, .links, .insp, .up]
      [Obj.eventLost] s (headLaneFollow h s) := by
  unfold headLaneFollow
  repeat' first
    | with_reducible assumption
    | with_reducible exact Keeps.refl _ _ _
    | (extract_lets +onlyGivenNames y
       refine have hy : Keeps [.ev, .fire, .links, .insp, .up] [Obj.eventLost] s y := ?_; ?_
       (unfold y; clear y)
       rotate_left
       clear_value y)
    | (extract_lets +onlyGivenNames y)
    | with_reducible refine (linkTo_keeps ..).step (by decide) (by decide) ?_
    | with_reducible refine keeps_ite ?_ ?_
    | split

theorem injectAll_keeps (s : State) :
    Keeps [.lanes, .sent]
      [Obj.laneTest] s (injectAll s) := by
  unfold injectAll
  repeat' first
    | with_reducible assumption
    | with_reducible exact Keeps.refl _ _ _
    | with_reducible refine (injectNow_keeps ..).step (by decide) (by decide) ?_
    | with_reducible refine keeps_forEach (fun _ _ _ => ?_) ?_
    | split

end Sys2Proof.Machine
end

