-- ==== Sys2Proof/Laws/Mailbox.lean ====
section
/-! SUPPORT. What each operation of Machine/Mailbox.lean leaves alone: nothing but the groups and the objects named differs. -/

set_option Elab.async false
set_option linter.all false

namespace Sys2Proof.Machine

open Sys2Proof

set_option linter.tactic.unusedName false

theorem noteOpens_keeps (a : RingAccess) (reply : List Word) (s : State) :
    Keeps [.host]
      [] s (noteOpens a reply s) := by
  unfold noteOpens
  repeat' first
    | with_reducible assumption
    | with_reducible exact Keeps.refl _ _ _
    | (extract_lets +onlyGivenNames y
       refine have hy : Keeps [.host] [] s y := ?_; ?_
       (unfold y; clear y)
       rotate_left
       clear_value y)
    | (extract_lets +onlyGivenNames y)
    | with_reducible refine keeps_ite ?_ ?_
    | split
    | refine keeps_host (by decide) ?_

theorem bcastAnswer_keeps (id slot code : Nat) (record : List Word) (s : State) :
    Keeps [.ring, .host, .sent]
      [] s (bcastAnswer id slot code record s) := by
  unfold bcastAnswer
  repeat' first
    | with_reducible assumption
    | with_reducible exact Keeps.refl _ _ _
    | (extract_lets +onlyGivenNames y
       refine have hy : Keeps [.ring, .host, .sent] [] s y := ?_; ?_
       (unfold y; clear y)
       rotate_left
       clear_value y)
    | (extract_lets +onlyGivenNames y)
    | with_reducible refine (deliver_keeps ..).step (by decide) (by decide) ?_
    | with_reducible refine keeps_ite ?_ ?_
    | split
    | refine keeps_ring (by decide) ?_

theorem accessEnd_keeps (a : RingAccess) (reply : List Word) (s : State) :
    Keeps [.ring, .host, .sent]
      [] s (accessEnd a reply s) := by
  unfold accessEnd
  repeat' first
    | with_reducible assumption
    | with_reducible exact Keeps.refl _ _ _
    | (extract_lets +onlyGivenNames y
       refine have hy : Keeps [.ring, .host, .sent] [] s y := ?_; ?_
       (unfold y; clear y)
       rotate_left
       clear_value y)
    | (extract_lets +onlyGivenNames y)
    | with_reducible refine (deliver_keeps ..).step (by decide) (by decide) ?_
    | with_reducible refine (noteOpens_keeps ..).step (by decide) (by decide) ?_
    | with_reducible refine (bcastAnswer_keeps ..).step (by decide) (by decide) ?_
    | with_reducible refine keeps_ite ?_ ?_
    | split
    | refine keeps_ring (by decide) ?_

theorem modAccess_keeps (a : RingAccess) (f : RingAccess → RingAccess) (s : State) :
    Keeps [.ring]
      [] s (modAccess a f s) := by
  unfold modAccess
  repeat' first
    | with_reducible assumption
    | with_reducible exact Keeps.refl _ _ _
    | with_reducible refine keeps_ite ?_ ?_
    | split
    | refine keeps_ring (by decide) ?_

theorem mailboxBad_keeps (kind : Nat) (g : Seg) (s : State) :
    Keeps [.ev]
      [Obj.eventLost, Obj.mbxCrcErrors] s (mailboxBad kind g s) := by
  unfold mailboxBad
  repeat' first
    | with_reducible assumption
    | with_reducible exact Keeps.refl _ _ _
    | with_reducible refine keeps_raise (by decide) (by decide) ?_
    | with_reducible refine keeps_bump (by decide) ?_
    | split

theorem replyArrived_keeps (g : Seg) (s : State) :
    Keeps [.ev, .ring, .host, .sent]
      [Obj.eventLost, Obj.mbxCrcErrors] s (replyArrived g s) := by
  unfold replyArrived
  repeat' first
    | with_reducible assumption
    | with_reducible exact Keeps.refl _ _ _
    | (extract_lets +onlyGivenNames y
       refine have hy : Keeps [.ev, .ring, .host, .sent] [Obj.eventLost, Obj.mbxCrcErrors] s y := ?_; ?_
       (unfold y; clear y)
       rotate_left
       clear_value y)
    | (extract_lets +onlyGivenNames y)
    | with_reducible refine (accessEnd_keeps ..).step (by decide) (by decide) ?_
    | with_reducible refine (mailboxBad_keeps ..).step (by decide) (by decide) ?_
    | with_reducible refine keeps_ite ?_ ?_
    | split

theorem nakArrived_keeps (g : Seg) (s : State) :
    Keeps [.ring, .host, .sent]
      [] s (nakArrived g s) := by
  unfold nakArrived
  repeat' first
    | with_reducible assumption
    | with_reducible exact Keeps.refl _ _ _
    | with_reducible refine (accessEnd_keeps ..).step (by decide) (by decide) ?_
    | with_reducible refine (modAccess_keeps ..).step (by decide) (by decide) ?_
    | with_reducible refine keeps_ite ?_ ?_
    | split

theorem mailboxOf_keeps (cycle : Nat) (s : State) :
    Keeps [.ring]
      [] s (mailboxOf cycle s).2 := by
  unfold mailboxOf
  repeat' first
    | with_reducible assumption
    | with_reducible exact Keeps.refl _ _ _
    | (extract_lets +onlyGivenNames y
       refine have hy : Keeps [.ring] [] s y := ?_; ?_
       (unfold y; clear y)
       rotate_left
       clear_value y)
    | (extract_lets +onlyGivenNames y)
    | with_reducible refine keeps_ite ?_ ?_
    | split
    | refine keeps_ring (by decide) ?_

theorem resend_keeps (cycle : Nat) (copyB : Bool) (shown : List (Nat × Nat)) (s : State) :
    Keeps [.ring]
      [] s (resend cycle copyB shown s) := by
  unfold resend
  repeat' first
    | with_reducible assumption
    | with_reducible exact Keeps.refl _ _ _
    | with_reducible refine keeps_ite ?_ ?_
    | split
    | refine keeps_ring (by decide) ?_

end Sys2Proof.Machine
end

