-- ==== Sys2Proof/Laws/Position.lean ====
section
/-! SUPPORT. What each operation of Machine/Position.lean leaves alone: nothing but the groups and the objects named differs. -/

set_option Elab.async false
set_option linter.all false

namespace Sys2Proof.Machine

open Sys2Proof

set_option linter.tactic.unusedName false

theorem modEnc_keeps (e : Nat) (f : EncUnit → EncUnit) (s : State) :
    Keeps [.encs]
      [] s (modEnc e f s) := by
  unfold modEnc
  repeat' first
    | with_reducible assumption
    | with_reducible exact Keeps.refl _ _ _
    | split
    | refine keeps_encs (by decide) ?_

theorem setEncState_keeps (e st : Nat) (s : State) :
    Keeps [.encs, .up]
      [] s (setEncState e st s) := by
  unfold setEncState
  repeat' first
    | with_reducible assumption
    | with_reducible exact Keeps.refl _ _ _
    | with_reducible refine (modEnc_keeps ..).step (by decide) (by decide) ?_
    | with_reducible refine keeps_setUp (by decide) ?_
    | with_reducible refine keeps_ite ?_ ?_
    | split

theorem refEnc_keeps (e : Nat) (p : Int) (s : State) :
    Keeps [.encs]
      [] s (refEnc e p s) := by
  unfold refEnc
  repeat' first
    | with_reducible assumption
    | with_reducible exact Keeps.refl _ _ _
    | (extract_lets +onlyGivenNames y
       refine have hy : Keeps [.encs] [] s y := ?_; ?_
       (unfold y; clear y)
       rotate_left
       clear_value y)
    | (extract_lets +onlyGivenNames y)
    | with_reducible refine (modEnc_keeps ..).step (by decide) (by decide) ?_
    | split

theorem loadHare_keeps (p : Int) (tick : Nat) (v : Int) (s : State) :
    Keeps [.hare]
      [] s (loadHare p tick v s) := by
  unfold loadHare
  repeat' first
    | with_reducible assumption
    | with_reducible exact Keeps.refl _ _ _
    | (extract_lets +onlyGivenNames y
       refine have hy : Keeps [.hare] [] s y := ?_; ?_
       (unfold y; clear y)
       rotate_left
       clear_value y)
    | (extract_lets +onlyGivenNames y)
    | split
    | refine keeps_hare (by decide) ?_

theorem judgeIndex_keeps (e : Nat) (s : State) :
    Keeps [.ev, .encs]
      [Obj.eventLost, Obj.indexErr] s (judgeIndex e s) := by
  unfold judgeIndex
  repeat' first
    | with_reducible assumption
    | with_reducible exact Keeps.refl _ _ _
    | (extract_lets +onlyGivenNames y
       refine have hy : Keeps [.ev, .encs] [Obj.eventLost, Obj.indexErr] s y := ?_; ?_
       (unfold y; clear y)
       rotate_left
       clear_value y)
    | (extract_lets +onlyGivenNames y)
    | with_reducible refine (modEnc_keeps ..).step (by decide) (by decide) ?_
    | with_reducible refine keeps_raise (by decide) (by decide) ?_
    | with_reducible refine keeps_setI (by decide) ?_
    | with_reducible refine keeps_ite ?_ ?_
    | split

theorem finishCorr_keeps (e : Nat) (s : State) :
    Keeps [.encs]
      [Obj.indexCorr] s (finishCorr e s) := by
  unfold finishCorr
  repeat' first
    | with_reducible assumption
    | with_reducible exact Keeps.refl _ _ _
    | (extract_lets +onlyGivenNames y
       refine have hy : Keeps [.encs] [Obj.indexCorr] s y := ?_; ?_
       (unfold y; clear y)
       rotate_left
       clear_value y)
    | (extract_lets +onlyGivenNames y)
    | with_reducible refine (modEnc_keeps ..).step (by decide) (by decide) ?_
    | with_reducible refine keeps_setI (by decide) ?_
    | with_reducible refine keeps_ite ?_ ?_
    | split

theorem encEdge_keeps (e : Nat) (a b : Bool) (n : Nat) (s : State) :
    Keeps [.encs]
      [] s (encEdge e a b n s) := by
  unfold encEdge
  repeat' first
    | with_reducible assumption
    | with_reducible exact Keeps.refl _ _ _
    | (extract_lets +onlyGivenNames y
       refine have hy : Keeps [.encs] [] s y := ?_; ?_
       (unfold y; clear y)
       rotate_left
       clear_value y)
    | (extract_lets +onlyGivenNames y)
    | with_reducible refine (modEnc_keeps ..).step (by decide) (by decide) ?_
    | with_reducible refine keeps_ite ?_ ?_
    | split

end Sys2Proof.Machine
end

