-- ==== Sys2Proof/Laws/Web.lean ====
section
/-! SUPPORT. What each operation of Machine/Web.lean leaves alone: nothing but the groups and the objects named differs. -/

set_option Elab.async false
set_option linter.all false

namespace Sys2Proof.Machine

open Sys2Proof

set_option linter.tactic.unusedName false

theorem encoutSteps_keeps (p q : Int) (s : State) :
    Keeps [.pos, .sent]
      [Obj.encoutOverruns] s (encoutSteps p q s) := by
  unfold encoutSteps
  repeat' first
    | with_reducible assumption
    | with_reducible exact Keeps.refl _ _ _
    | (extract_lets +onlyGivenNames y
       refine have hy : Keeps [.pos, .sent] [Obj.encoutOverruns] s y := ?_; ?_
       (unfold y; clear y)
       rotate_left
       clear_value y)
    | (extract_lets +onlyGivenNames y)
    | with_reducible refine keeps_bump (by decide) ?_
    | with_reducible refine keeps_emit' (by decide) ?_
    | with_reducible refine keeps_ite ?_ ?_
    | split
    | refine keeps_pos (by decide) ?_

theorem resumeAt_keeps (p q : Int) (s : State) :
    Keeps [.ev, .fire]
      [Obj.eventLost] s (resumeAt p q s) := by
  unfold resumeAt
  repeat' first
    | with_reducible assumption
    | with_reducible exact Keeps.refl _ _ _
    | (extract_lets +onlyGivenNames y
       refine have hy : Keeps [.ev, .fire] [Obj.eventLost] s y := ?_; ?_
       (unfold y; clear y)
       rotate_left
       clear_value y)
    | (extract_lets +onlyGivenNames y)
    | with_reducible refine keeps_raise (by decide) (by decide) ?_
    | with_reducible refine keeps_ite ?_ ?_
    | split
    | refine keeps_fire (by decide) ?_

theorem posTouch_keeps (s : State) :
    Keeps [.ev, .fire, .links, .pos, .insp, .sent]
      [Obj.encoutOverruns, Obj.eventLost] s (posTouch s) := by
  unfold posTouch
  repeat' first
    | with_reducible assumption
    | with_reducible exact Keeps.refl _ _ _
    | (extract_lets +onlyGivenNames y
       refine have hy : Keeps [.ev, .fire, .links, .pos, .insp, .sent] [Obj.encoutOverruns, Obj.eventLost] s y := ?_; ?_
       (unfold y; clear y)
       rotate_left
       clear_value y)
    | (extract_lets +onlyGivenNames y)
    | with_reducible refine (cancelCommitted_keeps ..).step (by decide) (by decide) ?_
    | with_reducible refine (haltFlags_keeps ..).step (by decide) (by decide) ?_
    | with_reducible refine (encoutSteps_keeps ..).step (by decide) (by decide) ?_
    | with_reducible refine (resumeAt_keeps ..).step (by decide) (by decide) ?_
    | with_reducible refine keeps_ite ?_ ?_
    | split
    | refine keeps_pos (by decide) ?_

theorem posSet_keeps (s : State) :
    Keeps [.pos]
      [] s (posSet s) := by
  unfold posSet
  repeat' first
    | with_reducible assumption
    | with_reducible exact Keeps.refl _ _ _
    | split
    | refine keeps_pos (by decide) ?_

theorem rideStart_keeps (e : Nat) (s : State) :
    Keeps [.ev, .pos, .hare]
      [Obj.eventLost] s (rideStart e s) := by
  unfold rideStart
  repeat' first
    | with_reducible assumption
    | with_reducible exact Keeps.refl _ _ _
    | (extract_lets +onlyGivenNames y
       refine have hy : Keeps [.ev, .pos, .hare] [Obj.eventLost] s y := ?_; ?_
       (unfold y; clear y)
       rotate_left
       clear_value y)
    | (extract_lets +onlyGivenNames y)
    | with_reducible refine (loadHare_keeps ..).step (by decide) (by decide) ?_
    | with_reducible refine keeps_raise (by decide) (by decide) ?_
    | with_reducible refine keeps_ite ?_ ?_
    | split
    | refine keeps_of_eq (by assumption) ?_
    | refine keeps_pos (by decide) ?_

theorem sourceLost_keeps (e cause : Nat) (s : State) :
    Keeps [.ev, .fire, .links, .pos, .hare, .insp, .sent]
      [Obj.eventLost] s (sourceLost e cause s) := by
  unfold sourceLost
  repeat' first
    | with_reducible assumption
    | with_reducible exact Keeps.refl _ _ _
    | with_reducible refine (holdSource_keeps ..).step (by decide) (by decide) ?_
    | with_reducible refine (rideStart_keeps ..).step (by decide) (by decide) ?_
    | with_reducible refine keeps_ite ?_ ?_
    | split

theorem encFail_keeps (e code : Nat) (params : List Word) (s : State) :
    Keeps [.ev, .fire, .links, .encs, .pos, .hare, .insp, .sent, .up]
      [Obj.eventLost] s (encFail e code params s) := by
  unfold encFail
  repeat' first
    | with_reducible assumption
    | with_reducible exact Keeps.refl _ _ _
    | (extract_lets +onlyGivenNames y
       refine have hy : Keeps [.ev, .fire, .links, .encs, .pos, .hare, .insp, .sent, .up] [Obj.eventLost] s y := ?_; ?_
       (unfold y; clear y)
       rotate_left
       clear_value y)
    | (extract_lets +onlyGivenNames y)
    | with_reducible refine (sourceLost_keeps ..).step (by decide) (by decide) ?_
    | with_reducible refine (setEncState_keeps ..).step (by decide) (by decide) ?_
    | with_reducible refine keeps_raise (by decide) (by decide) ?_
    | with_reducible refine keeps_ite ?_ ?_
    | split

theorem frontHeld_keeps (e : Nat) (s : State) :
    Keeps [.ev, .fire, .links, .encs, .pos, .hare, .insp, .sent, .up]
      [Obj.eventLost] s (frontHeld e s) := by
  unfold frontHeld
  repeat' first
    | with_reducible assumption
    | with_reducible exact Keeps.refl _ _ _
    | with_reducible refine (sourceLost_keeps ..).step (by decide) (by decide) ?_
    | with_reducible refine (setEncState_keeps ..).step (by decide) (by decide) ?_
    | with_reducible refine keeps_ite ?_ ?_
    | split

theorem frontReleased_keeps (e : Nat) (s : State) :
    Keeps [.ev, .fire, .links, .encs, .pos, .insp, .sent, .up]
      [Obj.eventLost, Obj.indexErr] s (frontReleased e s) := by
  unfold frontReleased
  repeat' first
    | with_reducible assumption
    | with_reducible exact Keeps.refl _ _ _
    | (extract_lets +onlyGivenNames y
       refine have hy : Keeps [.ev, .fire, .links, .encs, .pos, .insp, .sent, .up] [Obj.eventLost, Obj.indexErr] s y := ?_; ?_
       (unfold y; clear y)
       rotate_left
       clear_value y)
    | (extract_lets +onlyGivenNames y)
    | with_reducible refine (holdSource_keeps ..).step (by decide) (by decide) ?_
    | with_reducible refine (modEnc_keeps ..).step (by decide) (by decide) ?_
    | with_reducible refine (setEncState_keeps ..).step (by decide) (by decide) ?_
    | with_reducible refine keeps_setN (by decide) ?_
    | with_reducible refine keeps_ite ?_ ?_
    | split

theorem encEnable_keeps (e : Nat) (on : Bool) (s : State) :
    Keeps [.ev, .fire, .links, .encs, .pos, .hare, .insp, .sent, .up]
      [Obj.eventLost] s (encEnable e on s) := by
  unfold encEnable
  repeat' first
    | with_reducible assumption
    | with_reducible exact Keeps.refl _ _ _
    | (extract_lets +onlyGivenNames y
       refine have hy : Keeps [.ev, .fire, .links, .encs, .pos, .hare, .insp, .sent, .up] [Obj.eventLost] s y := ?_; ?_
       (unfold y; clear y)
       rotate_left
       clear_value y)
    | (extract_lets +onlyGivenNames y)
    | with_reducible refine (posSet_keeps ..).step (by decide) (by decide) ?_
    | with_reducible refine (sourceLost_keeps ..).step (by decide) (by decide) ?_
    | with_reducible refine (modEnc_keeps ..).step (by decide) (by decide) ?_
    | with_reducible refine (setEncState_keeps ..).step (by decide) (by decide) ?_
    | with_reducible refine keeps_ite ?_ ?_
    | split

theorem encCfgDo_keeps (e : Nat) (v : Word) (s : State) :
    Keeps [.ev, .fire, .links, .encs, .pos, .hare, .insp, .sent, .up]
      [Obj.encCfg, Obj.eventLost] s (encCfgDo e v s) := by
  unfold encCfgDo
  repeat' first
    | with_reducible assumption
    | with_reducible exact Keeps.refl _ _ _
    | with_reducible refine (encEnable_keeps ..).step (by decide) (by decide) ?_
    | with_reducible refine keeps_setN (by decide) ?_
    | split

theorem encTake_keeps (e : Nat) (s : State) :
    Keeps [.encs]
      [] s (encTake e s) := by
  unfold encTake
  repeat' first
    | with_reducible assumption
    | with_reducible exact Keeps.refl _ _ _
    | (extract_lets +onlyGivenNames y
       refine have hy : Keeps [.encs] [] s y := ?_; ?_
       (unfold y; clear y)
       rotate_left
       clear_value y)
    | (extract_lets +onlyGivenNames y)
    | with_reducible refine (modEnc_keeps ..).step (by decide) (by decide) ?_
    | with_reducible refine (refEnc_keeps ..).step (by decide) (by decide) ?_
    | with_reducible refine keeps_ite ?_ ?_
    | split

theorem adoptSource_keeps (s : State) :
    Keeps [.ev, .fire, .links, .encs, .pos, .hare, .insp, .sent, .up]
      [Obj.eventLost] s (adoptSource s) := by
  unfold adoptSource
  repeat' first
    | with_reducible assumption
    | with_reducible exact Keeps.refl _ _ _
    | (extract_lets +onlyGivenNames y
       refine have hy : Keeps [.ev, .fire, .links, .encs, .pos, .hare, .insp, .sent, .up] [Obj.eventLost] s y := ?_; ?_
       (unfold y; clear y)
       rotate_left
       clear_value y)
    | (extract_lets +onlyGivenNames y)
    | with_reducible refine (holdSource_keeps ..).step (by decide) (by decide) ?_
    | with_reducible refine (setEncState_keeps ..).step (by decide) (by decide) ?_
    | with_reducible refine (refEnc_keeps ..).step (by decide) (by decide) ?_
    | with_reducible refine (loadHare_keeps ..).step (by decide) (by decide) ?_
    | with_reducible refine keeps_ite ?_ ?_
    | split
    | refine keeps_pos (by decide) ?_

theorem passBy_keeps (q : Int) (s : State) :
    Keeps [.fire]
      [] s (passBy q s) := by
  unfold passBy
  repeat' first
    | with_reducible assumption
    | with_reducible exact Keeps.refl _ _ _
    | (extract_lets +onlyGivenNames y
       refine have hy : Keeps [.fire] [] s y := ?_; ?_
       (unfold y; clear y)
       rotate_left
       clear_value y)
    | (extract_lets +onlyGivenNames y)
    | with_reducible refine (modHead_keeps ..).step (by decide) (by decide) ?_
    | with_reducible refine keeps_forEach (fun _ _ _ => ?_) ?_
    | with_reducible refine keeps_ite ?_ ?_
    | split

theorem presetNow_keeps (s : State) :
    Keeps [.fire, .encs, .pos, .hare, .up]
      [] s (presetNow s) := by
  unfold presetNow
  repeat' first
    | with_reducible assumption
    | with_reducible exact Keeps.refl _ _ _
    | (extract_lets +onlyGivenNames y
       refine have hy : Keeps [.fire, .encs, .pos, .hare, .up] [] s y := ?_; ?_
       (unfold y; clear y)
       rotate_left
       clear_value y)
    | (extract_lets +onlyGivenNames y)
    | with_reducible refine (posSet_keeps ..).step (by decide) (by decide) ?_
    | with_reducible refine (passBy_keeps ..).step (by decide) (by decide) ?_
    | with_reducible refine (setEncState_keeps ..).step (by decide) (by decide) ?_
    | with_reducible refine (refEnc_keeps ..).step (by decide) (by decide) ?_
    | with_reducible refine (loadHare_keeps ..).step (by decide) (by decide) ?_
    | with_reducible refine keeps_ite ?_ ?_
    | split
    | refine keeps_pos (by decide) ?_

theorem latch_keeps (s : State) :
    Keeps [.ev, .fire, .links, .encs, .pos, .hare, .insp, .sent, .up]
      [Obj.encoutOverruns, Obj.eventLost, Obj.indexCorr] s (latch s) := by
  unfold latch
  repeat' first
    | with_reducible assumption
    | with_reducible exact Keeps.refl _ _ _
    | (extract_lets +onlyGivenNames y
       refine have hy : Keeps [.ev, .fire, .links, .encs, .pos, .hare, .insp, .sent, .up] [Obj.encoutOverruns, Obj.eventLost, Obj.indexCorr] s y := ?_; ?_
       (unfold y; clear y)
       rotate_left
       clear_value y)
    | (extract_lets +onlyGivenNames y)
    | with_reducible refine (posTouch_keeps ..).step (by decide) (by decide) ?_
    | with_reducible refine (posSet_keeps ..).step (by decide) (by decide) ?_
    | with_reducible refine (encTake_keeps ..).step (by decide) (by decide) ?_
    | with_reducible refine (adoptSource_keeps ..).step (by decide) (by decide) ?_
    | with_reducible refine (presetNow_keeps ..).step (by decide) (by decide) ?_
    | with_reducible refine (finishCorr_keeps ..).step (by decide) (by decide) ?_
    | with_reducible refine keeps_forEach (fun _ _ _ => ?_) ?_
    | split
    | refine keeps_fire (by decide) ?_

theorem modCmp_keeps (i : Nat) (f : CmpUnit → CmpUnit) (s : State) :
    Keeps [.cmps]
      [] s (modCmp i f s) := by
  unfold modCmp
  repeat' first
    | with_reducible assumption
    | with_reducible exact Keeps.refl _ _ _
    | split
    | refine keeps_cmps (by decide) ?_

theorem cmpArmNow_keeps (i : Nat) (s : State) :
    Keeps [.ev, .cmps]
      [Obj.eventLost] s (cmpArmNow i s) := by
  unfold cmpArmNow
  repeat' first
    | with_reducible assumption
    | with_reducible exact Keeps.refl _ _ _
    | (extract_lets +onlyGivenNames y
       refine have hy : Keeps [.ev, .cmps] [Obj.eventLost] s y := ?_; ?_
       (unfold y; clear y)
       rotate_left
       clear_value y)
    | (extract_lets +onlyGivenNames y)
    | with_reducible refine (modCmp_keeps ..).step (by decide) (by decide) ?_
    | with_reducible refine keeps_raise (by decide) (by decide) ?_
    | with_reducible refine keeps_ite ?_ ?_
    | split

theorem cmpDo_keeps (i : Nat) (v : Word) (s : State) :
    Keeps [.ev, .cmps]
      [Obj.cmp, Obj.eventLost] s (cmpDo i v s) := by
  unfold cmpDo
  repeat' first
    | with_reducible assumption
    | with_reducible exact Keeps.refl _ _ _
    | (extract_lets +onlyGivenNames y
       refine have hy : Keeps [.ev, .cmps] [Obj.cmp, Obj.eventLost] s y := ?_; ?_
       (unfold y; clear y)
       rotate_left
       clear_value y)
    | (extract_lets +onlyGivenNames y)
    | with_reducible refine (modCmp_keeps ..).step (by decide) (by decide) ?_
    | with_reducible refine (cmpArmNow_keeps ..).step (by decide) (by decide) ?_
    | with_reducible refine keeps_setN (by decide) ?_
    | with_reducible refine keeps_ite ?_ ?_
    | split

theorem cmpDrop_keeps (i : Nat) : ∀ (n : Nat) (s : State), Keeps [.cmps] [Obj.cmpMissed] s (cmpDrop i n s)
  | 0, s => Keeps.refl _ _ s
  | n + 1, s => by
    unfold cmpDrop
    repeat' first
      | with_reducible exact Keeps.refl _ _ _
      | with_reducible refine (cmpDrop_keeps i n _).step (by decide) (by decide) ?_
      | with_reducible refine (modCmp_keeps ..).step (by decide) (by decide) ?_
      | with_reducible refine keeps_bump (by decide) ?_
      | split

theorem cmpOrigin_keeps (page : Nat) (origin : Int) (s : State) :
    Keeps [.cmps]
      [Obj.cmpMissed] s (cmpOrigin page origin s) := by
  unfold cmpOrigin
  repeat' first
    | with_reducible assumption
    | with_reducible exact Keeps.refl _ _ _
    | (extract_lets +onlyGivenNames y
       refine have hy : Keeps [.cmps] [Obj.cmpMissed] s y := ?_; ?_
       (unfold y; clear y)
       rotate_left
       clear_value y)
    | (extract_lets +onlyGivenNames y)
    | with_reducible refine (modCmp_keeps ..).step (by decide) (by decide) ?_
    | with_reducible refine (cmpDrop_keeps ..).step (by decide) (by decide) ?_
    | with_reducible refine keeps_bump (by decide) ?_
    | with_reducible refine keeps_forEach (fun _ _ _ => ?_) ?_
    | with_reducible refine keeps_ite ?_ ?_
    | split

theorem encoutRepeat_keeps (e : Nat) (z : Bool) (s : State) :
    Keeps [.sent]
      [] s (encoutRepeat e z s) := by
  unfold encoutRepeat
  repeat' first
    | with_reducible assumption
    | with_reducible exact Keeps.refl _ _ _
    | with_reducible refine keeps_emit' (by decide) ?_
    | with_reducible refine keeps_ite ?_ ?_
    | split

end Sys2Proof.Machine
end

