-- ==== Sys2Proof/Laws/Motion.lean ====
section
/-! SUPPORT. What each operation of Machine/Motion.lean leaves alone: nothing but the groups and the objects named differs. -/

set_option Elab.async false
set_option linter.all false

namespace Sys2Proof.Machine

open Sys2Proof

set_option linter.tactic.unusedName false

theorem cmpDeliver_keeps (i : Nat) (page : Option (Nat × Int)) (s : State) :
    Keeps [.dict, .ev, .nt, .insp, .cal, .sent, .free]
      [Obj.cmpFired, Obj.eventLost, Obj.evidLines, Obj.expActive, Obj.frameStats, Obj.noise, Obj.patternFlags, Obj.patternResult, Obj.regDiscards, Obj.regShift] s (cmpDeliver i page s) := by
  unfold cmpDeliver
  repeat' first
    | with_reducible assumption
    | with_reducible exact Keeps.refl _ _ _
    | (extract_lets +onlyGivenNames y
       refine have hy : Keeps [.dict, .ev, .nt, .insp, .cal, .sent, .free] [Obj.cmpFired, Obj.eventLost, Obj.evidLines, Obj.expActive, Obj.frameStats, Obj.noise, Obj.patternFlags, Obj.patternResult, Obj.regDiscards, Obj.regShift] s y := ?_; ?_
       (unfold y; clear y)
       rotate_left
       clear_value y)
    | (extract_lets +onlyGivenNames y)
    | with_reducible refine (frameStart_keeps ..).step (by decide) (by decide) ?_
    | with_reducible refine keeps_bump (by decide) ?_
    | with_reducible refine keeps_emit' (by decide) ?_
    | split

theorem cmpFireOnce_keeps (i : Nat) (s : State) :
    Keeps [.dict, .ev, .nt, .cmps, .insp, .cal, .sent, .free]
      [Obj.cmp, Obj.cmpFired, Obj.cmpPos, Obj.eventLost, Obj.evidLines, Obj.expActive, Obj.frameStats, Obj.noise, Obj.patternFlags, Obj.patternResult, Obj.regDiscards, Obj.regShift] s (cmpFireOnce i s) := by
  unfold cmpFireOnce
  repeat' first
    | with_reducible assumption
    | with_reducible exact Keeps.refl _ _ _
    | (extract_lets +onlyGivenNames y
       refine have hy : Keeps [.dict, .ev, .nt, .cmps, .insp, .cal, .sent, .free] [Obj.cmp, Obj.cmpFired, Obj.cmpPos, Obj.eventLost, Obj.evidLines, Obj.expActive, Obj.frameStats, Obj.noise, Obj.patternFlags, Obj.patternResult, Obj.regDiscards, Obj.regShift] s y := ?_; ?_
       (unfold y; clear y)
       rotate_left
       clear_value y)
    | (extract_lets +onlyGivenNames y)
    | with_reducible refine (modCmp_keeps ..).step (by decide) (by decide) ?_
    | with_reducible refine (cmpDeliver_keeps ..).step (by decide) (by decide) ?_
    | with_reducible refine keeps_setN (by decide) ?_
    | with_reducible refine keeps_setE (by decide) ?_
    | with_reducible refine keeps_ite ?_ ?_
    | split

theorem cmpFire_keeps (i : Nat) (s : State) :
    Keeps [.dict, .ev, .nt, .fire, .links, .pos, .cmps, .insp, .cal, .sent, .free]
      [Obj.cmp, Obj.cmpFired, Obj.cmpPos, Obj.encoutOverruns, Obj.eventLost, Obj.evidLines, Obj.expActive, Obj.frameStats, Obj.noise, Obj.patternFlags, Obj.patternResult, Obj.regDiscards, Obj.regShift] s (cmpFire i s) := by
  unfold cmpFire
  repeat' first
    | with_reducible assumption
    | with_reducible exact Keeps.refl _ _ _
    | (extract_lets +onlyGivenNames y
       refine have hy : Keeps [.dict, .ev, .nt, .fire, .links, .pos, .cmps, .insp, .cal, .sent, .free] [Obj.cmp, Obj.cmpFired, Obj.cmpPos, Obj.encoutOverruns, Obj.eventLost, Obj.evidLines, Obj.expActive, Obj.frameStats, Obj.noise, Obj.patternFlags, Obj.patternResult, Obj.regDiscards, Obj.regShift] s y := ?_; ?_
       (unfold y; clear y)
       rotate_left
       clear_value y)
    | (extract_lets +onlyGivenNames y)
    | with_reducible refine (posTouch_keeps ..).step (by decide) (by decide) ?_
    | with_reducible refine (modCmp_keeps ..).step (by decide) (by decide) ?_
    | with_reducible refine (cmpDeliver_keeps ..).step (by decide) (by decide) ?_
    | with_reducible refine (cmpFireOnce_keeps ..).step (by decide) (by decide) ?_
    | with_reducible refine keeps_ite ?_ ?_
    | split

theorem triggerFire_keeps (u : Nat) (s : State) :
    Keeps [.trigs, .dict, .ev, .nt, .hare, .insp, .cal, .sent, .free]
      [Obj.eventLost, Obj.evidLines, Obj.expActive, Obj.frameStats, Obj.noise, Obj.patternFlags, Obj.patternResult, Obj.regDiscards, Obj.regShift, Obj.trig, Obj.trigFired] s (triggerFire u s) := by
  unfold triggerFire
  repeat' first
    | with_reducible assumption
    | with_reducible exact Keeps.refl _ _ _
    | (extract_lets +onlyGivenNames y
       refine have hy : Keeps [.trigs, .dict, .ev, .nt, .hare, .insp, .cal, .sent, .free] [Obj.eventLost, Obj.evidLines, Obj.expActive, Obj.frameStats, Obj.noise, Obj.patternFlags, Obj.patternResult, Obj.regDiscards, Obj.regShift, Obj.trig, Obj.trigFired] s y := ?_; ?_
       (unfold y; clear y)
       rotate_left
       clear_value y)
    | (extract_lets +onlyGivenNames y)
    | with_reducible refine (trigFire_keeps ..).step (by decide) (by decide) ?_
    | with_reducible refine (frameStart_keeps ..).step (by decide) (by decide) ?_
    | with_reducible refine (hareTrigger_keeps ..).step (by decide) (by decide) ?_
    | with_reducible refine keeps_ite ?_ ?_
    | split

end Sys2Proof.Machine
end

