-- ==== Sys2Proof/Laws/Pipeline.lean ====
section
/-! SUPPORT. What each operation of Machine/Pipeline.lean leaves alone: nothing but the groups and the objects named differs. -/

set_option Elab.async false
set_option linter.all false

namespace Sys2Proof.Machine

open Sys2Proof

set_option linter.tactic.unusedName false

theorem takeLines_keeps (ls : List CamLine) (lo n : Nat) (s : State) :
    Keeps [.free]
      [] s (takeLines ls lo n s) := by
  unfold takeLines
  repeat' first
    | with_reducible assumption
    | with_reducible exact Keeps.refl _ _ _
    | with_reducible refine keeps_ite ?_ ?_
    | split
    | refine keeps_free (by decide) ?_

theorem displayStripe_keeps (x : Stripe) (ls : List (Nat × Nat × Bool × List (List Nat))) (s : State) :
    Keeps [.insp]
      [Obj.dispDropped] s (displayStripe x ls s) := by
  unfold displayStripe
  repeat' first
    | with_reducible assumption
    | with_reducible exact Keeps.refl _ _ _
    | (extract_lets +onlyGivenNames y
       refine have hy : Keeps [.insp] [Obj.dispDropped] s y := ?_; ?_
       (unfold y; clear y)
       rotate_left
       clear_value y)
    | (extract_lets +onlyGivenNames y)
    | with_reducible refine (modInsp_keeps ..).step (by decide) (by decide) ?_
    | with_reducible refine keeps_bump (by decide) ?_
    | with_reducible refine keeps_ite ?_ ?_
    | split

theorem sendCoding_keeps (ws : List Word) (s : State) :
    Keeps [.insp, .sent]
      [] s (sendCoding ws s) := by
  unfold sendCoding
  repeat' first
    | with_reducible assumption
    | with_reducible exact Keeps.refl _ _ _
    | (extract_lets +onlyGivenNames y
       refine have hy : Keeps [.insp, .sent] [] s y := ?_; ?_
       (unfold y; clear y)
       rotate_left
       clear_value y)
    | (extract_lets +onlyGivenNames y)
    | with_reducible refine (modInsp_keeps ..).step (by decide) (by decide) ?_
    | with_reducible refine keeps_emit' (by decide) ?_
    | with_reducible refine keeps_ite ?_ ?_
    | split

theorem codeCounts_keeps (x : Stripe) (rows : List (Nat × Nat × List (List Word × Bool × Bool))) (s : State) :
    Keeps [.ev]
      [Obj.cmpFallbacks, Obj.cmpRetries, Obj.eventLost] s (codeCounts x rows s) := by
  unfold codeCounts
  repeat' first
    | with_reducible assumption
    | with_reducible exact Keeps.refl _ _ _
    | (extract_lets +onlyGivenNames y
       refine have hy : Keeps [.ev] [Obj.cmpFallbacks, Obj.cmpRetries, Obj.eventLost] s y := ?_; ?_
       (unfold y; clear y)
       rotate_left
       clear_value y)
    | (extract_lets +onlyGivenNames y)
    | with_reducible refine keeps_raise (by decide) (by decide) ?_
    | with_reducible refine keeps_bump (by decide) ?_
    | with_reducible refine keeps_whenB (fun _ _ => ?_) ?_
    | split

theorem codeStripe_keeps (x : Stripe) (faults : List CoderFault) (ls : List (Nat × Nat × Bool × List (List Nat))) (s : State) :
    Keeps [.ev, .insp, .sent]
      [Obj.cmpFallbacks, Obj.cmpRetries, Obj.eventLost] s (codeStripe x faults ls s) := by
  unfold codeStripe
  repeat' first
    | with_reducible assumption
    | with_reducible exact Keeps.refl _ _ _
    | (extract_lets +onlyGivenNames y
       refine have hy : Keeps [.ev, .insp, .sent] [Obj.cmpFallbacks, Obj.cmpRetries, Obj.eventLost] s y := ?_; ?_
       (unfold y; clear y)
       rotate_left
       clear_value y)
    | (extract_lets +onlyGivenNames y)
    | with_reducible refine (sendCoding_keeps ..).step (by decide) (by decide) ?_
    | with_reducible refine (codeCounts_keeps ..).step (by decide) (by decide) ?_
    | with_reducible refine keeps_forEach (fun _ _ _ => ?_) ?_
    | split

theorem visionStripe_keeps (x : Stripe) (ls : List (Nat × Nat × Bool × List (List Nat))) (s : State) :
    Keeps [.insp]
      [] s (visionStripe x ls s) := by
  unfold visionStripe
  repeat' first
    | with_reducible assumption
    | with_reducible exact Keeps.refl _ _ _
    | (extract_lets +onlyGivenNames y
       refine have hy : Keeps [.insp] [] s y := ?_; ?_
       (unfold y; clear y)
       rotate_left
       clear_value y)
    | (extract_lets +onlyGivenNames y)
    | with_reducible refine (modFox_keeps ..).step (by decide) (by decide) ?_
    | split

theorem foxAfter_keeps (x : Stripe) (s : State) :
    Keeps [.ev, .insp, .free]
      [Obj.eventLost, Obj.evidLines, Obj.noise, Obj.regDiscards, Obj.regShift] s (foxAfter x s) := by
  unfold foxAfter
  repeat' first
    | with_reducible assumption
    | with_reducible exact Keeps.refl _ _ _
    | with_reducible refine (foxLines_keeps ..).step (by decide) (by decide) ?_
    | with_reducible refine keeps_ite ?_ ?_
    | split

theorem processStripe_keeps (s : State) :
    Keeps [.pwr, .ev, .mem, .fabric, .insp, .sent, .free, .up]
      [Obj.cmpFallbacks, Obj.cmpRetries, Obj.corrected, Obj.dispDropped, Obj.eventLost, Obj.evidLines, Obj.flipCtrl, Obj.noise, Obj.poisonReads, Obj.regDiscards, Obj.regShift, Obj.tileFault, Obj.tileReady, Obj.uncorrectable, Obj.wbDropped] s (processStripe s) := by
  unfold processStripe
  repeat' first
    | with_reducible assumption
    | with_reducible exact Keeps.refl _ _ _
    | (extract_lets +onlyGivenNames y
       refine have hy : Keeps [.pwr, .ev, .mem, .fabric, .insp, .sent, .free, .up] [Obj.cmpFallbacks, Obj.cmpRetries, Obj.corrected, Obj.dispDropped, Obj.eventLost, Obj.evidLines, Obj.flipCtrl, Obj.noise, Obj.poisonReads, Obj.regDiscards, Obj.regShift, Obj.tileFault, Obj.tileReady, Obj.uncorrectable, Obj.wbDropped] s y := ?_; ?_
       (unfold y; clear y)
       rotate_left
       clear_value y)
    | (extract_lets +onlyGivenNames y)
    | with_reducible refine (evictRange_keeps ..).step (by decide) (by decide) ?_
    | with_reducible refine (readRange_keeps ..).step (by decide) (by decide) ?_
    | with_reducible refine (modInsp_keeps ..).step (by decide) (by decide) ?_
    | with_reducible refine (takeLines_keeps ..).step (by decide) (by decide) ?_
    | with_reducible refine (displayStripe_keeps ..).step (by decide) (by decide) ?_
    | with_reducible refine (codeStripe_keeps ..).step (by decide) (by decide) ?_
    | with_reducible refine (visionStripe_keeps ..).step (by decide) (by decide) ?_
    | with_reducible refine (foxAfter_keeps ..).step (by decide) (by decide) ?_
    | with_reducible refine keeps_takeFree (by decide) ?_
    | with_reducible refine keeps_ite ?_ ?_
    | split

theorem dispAckDo_keeps (seq : Nat) (s : State) :
    Keeps [.insp]
      [] s (dispAckDo seq s) := by
  unfold dispAckDo
  repeat' first
    | with_reducible assumption
    | with_reducible exact Keeps.refl _ _ _
    | with_reducible refine (modInsp_keeps ..).step (by decide) (by decide) ?_
    | split

end Sys2Proof.Machine
end

