-- ==== Sys2Proof/Laws/Raster.lean ====
section
/-! SUPPORT. What each operation of Machine/Raster.lean leaves alone: nothing but the groups and the objects named differs. -/

set_option Elab.async false
set_option linter.all false

namespace Sys2Proof.Machine

open Sys2Proof

set_option linter.tactic.unusedName false

theorem bondDissolve_keeps (loose : Bool) (s : State) :
    Keeps [.ev, .bond, .rfe, .pages, .codec, .fire, .links, .pos, .insp, .sent, .values]
      [Obj.eventLost, Obj.maxLineRate] s (bondDissolve loose s) := by
  unfold bondDissolve
  repeat' first
    | with_reducible assumption
    | with_reducible exact Keeps.refl _ _ _
    | (extract_lets +onlyGivenNames y
       refine have hy : Keeps [.ev, .bond, .rfe, .pages, .codec, .fire, .links, .pos, .insp, .sent, .values] [Obj.eventLost, Obj.maxLineRate] s y := ?_; ?_
       (unfold y; clear y)
       rotate_left
       clear_value y)
    | (extract_lets +onlyGivenNames y)
    | with_reducible refine (modBond_keeps ..).step (by decide) (by decide) ?_
    | with_reducible refine (modRfe_keeps ..).step (by decide) (by decide) ?_
    | with_reducible refine (releaseWords_keeps ..).step (by decide) (by decide) ?_
    | with_reducible refine (rateFollow_keeps ..).step (by decide) (by decide) ?_
    | with_reducible refine (closeCut_keeps ..).step (by decide) (by decide) ?_
    | with_reducible refine keeps_foldl (fun _ _ _ => ?_) ?_
    | split
    | refine keeps_pages (by decide) ?_

theorem bondLose_keeps (lanes : Nat) (s : State) :
    Keeps [.ev, .bond, .rfe, .pages, .codec, .fire, .links, .pos, .insp, .sent, .values]
      [Obj.eventLost, Obj.maxLineRate] s (bondLose lanes s) := by
  unfold bondLose
  repeat' first
    | with_reducible assumption
    | with_reducible exact Keeps.refl _ _ _
    | (extract_lets +onlyGivenNames y
       refine have hy : Keeps [.ev, .bond, .rfe, .pages, .codec, .fire, .links, .pos, .insp, .sent, .values] [Obj.eventLost, Obj.maxLineRate] s y := ?_; ?_
       (unfold y; clear y)
       rotate_left
       clear_value y)
    | (extract_lets +onlyGivenNames y)
    | with_reducible refine (modBond_keeps ..).step (by decide) (by decide) ?_
    | with_reducible refine (bondMessage_keeps ..).step (by decide) (by decide) ?_
    | with_reducible refine (bondDissolve_keeps ..).step (by decide) (by decide) ?_
    | with_reducible refine keeps_raise (by decide) (by decide) ?_
    | with_reducible refine keeps_ite ?_ ?_
    | split

theorem bondReform_keeps (lanes : Nat) (s : State) :
    Keeps [.bond, .sent, .values]
      [Obj.maxLineRate] s (bondReform lanes s) := by
  unfold bondReform
  repeat' first
    | with_reducible assumption
    | with_reducible exact Keeps.refl _ _ _
    | (extract_lets +onlyGivenNames y
       refine have hy : Keeps [.bond, .sent, .values] [Obj.maxLineRate] s y := ?_; ?_
       (unfold y; clear y)
       rotate_left
       clear_value y)
    | (extract_lets +onlyGivenNames y)
    | with_reducible refine (modBond_keeps ..).step (by decide) (by decide) ?_
    | with_reducible refine (rateFollow_keeps ..).step (by decide) (by decide) ?_
    | with_reducible refine (bondMessage_keeps ..).step (by decide) (by decide) ?_
    | with_reducible refine keeps_ite ?_ ?_
    | split

theorem dskDone_keeps (s : State) :
    Keeps [.bond]
      [] s (dskDone s) := by
  unfold dskDone
  repeat' first
    | with_reducible assumption
    | with_reducible exact Keeps.refl _ _ _
    | with_reducible refine (modBond_keeps ..).step (by decide) (by decide) ?_
    | with_reducible refine keeps_ite ?_ ?_
    | split

theorem dskFail_keeps (lanes : Nat) (s : State) :
    Keeps [.ev, .bond, .rfe, .pages, .codec, .fire, .links, .pos, .insp, .sent, .values]
      [Obj.eventLost, Obj.maxLineRate] s (dskFail lanes s) := by
  unfold dskFail
  repeat' first
    | with_reducible assumption
    | with_reducible exact Keeps.refl _ _ _
    | (extract_lets +onlyGivenNames y
       refine have hy : Keeps [.ev, .bond, .rfe, .pages, .codec, .fire, .links, .pos, .insp, .sent, .values] [Obj.eventLost, Obj.maxLineRate] s y := ?_; ?_
       (unfold y; clear y)
       rotate_left
       clear_value y)
    | (extract_lets +onlyGivenNames y)
    | with_reducible refine (modBond_keeps ..).step (by decide) (by decide) ?_
    | with_reducible refine (bondLose_keeps ..).step (by decide) (by decide) ?_
    | with_reducible refine (dskDone_keeps ..).step (by decide) (by decide) ?_
    | with_reducible refine keeps_ite ?_ ?_
    | split

theorem dskTake_keeps (i n p g : Nat) (s : State) :
    Keeps [.ev, .bond, .rfe, .pages, .codec, .fire, .links, .pos, .insp, .sent, .values]
      [Obj.eventLost, Obj.maxLineRate] s (dskTake i n p g s) := by
  unfold dskTake
  repeat' first
    | with_reducible assumption
    | with_reducible exact Keeps.refl _ _ _
    | (extract_lets +onlyGivenNames y
       refine have hy : Keeps [.ev, .bond, .rfe, .pages, .codec, .fire, .links, .pos, .insp, .sent, .values] [Obj.eventLost, Obj.maxLineRate] s y := ?_; ?_
       (unfold y; clear y)
       rotate_left
       clear_value y)
    | (extract_lets +onlyGivenNames y; clear_value y)
    | with_reducible refine (modBond_keeps ..).step (by decide) (by decide) ?_
    | with_reducible refine (bondLose_keeps ..).step (by decide) (by decide) ?_
    | with_reducible refine (dskDone_keeps ..).step (by decide) (by decide) ?_
    | with_reducible refine (dskFail_keeps ..).step (by decide) (by decide) ?_
    | with_reducible refine keeps_ite ?_ ?_
    | split

theorem dskReceivedDo_keeps (i n p g : Nat) (s : State) :
    Keeps [.ev, .lanes, .bond, .rfe, .pages, .codec, .fire, .links, .pos, .insp, .sent, .values]
      [Obj.eventLost, Obj.maxLineRate] s (dskReceivedDo i n p g s) := by
  unfold dskReceivedDo
  repeat' first
    | with_reducible assumption
    | with_reducible exact Keeps.refl _ _ _
    | (extract_lets +onlyGivenNames y
       refine have hy : Keeps [.ev, .lanes, .bond, .rfe, .pages, .codec, .fire, .links, .pos, .insp, .sent, .values] [Obj.eventLost, Obj.maxLineRate] s y := ?_; ?_
       (unfold y; clear y)
       rotate_left
       clear_value y)
    | (extract_lets +onlyGivenNames y)
    | with_reducible refine (modLane_keeps ..).step (by decide) (by decide) ?_
    | with_reducible refine (dskFail_keeps ..).step (by decide) (by decide) ?_
    | with_reducible refine (dskTake_keeps ..).step (by decide) (by decide) ?_
    | with_reducible refine keeps_ite ?_ ?_
    | split

theorem unbind_keeps (o p : Nat) (s : State) :
    Keeps [.dict]
      [] s (unbind o p s) := by
  unfold unbind
  repeat' first
    | with_reducible assumption
    | with_reducible exact Keeps.refl _ _ _
    | (extract_lets +onlyGivenNames y
       refine have hy : Keeps [.dict] [] s y := ?_; ?_
       (unfold y; clear y)
       rotate_left
       clear_value y)
    | (extract_lets +onlyGivenNames y)
    | with_reducible refine (setSlot_keeps ..).step (by decide) (by decide) ?_
    | with_reducible refine keeps_ite ?_ ?_
    | split

theorem rejectTables_keeps (s : State) :
    Keeps [.dict, .ev, .nt]
      [Obj.eventLost, Obj.tblRejected] s (rejectTables s) := by
  unfold rejectTables
  repeat' first
    | with_reducible assumption
    | with_reducible exact Keeps.refl _ _ _
    | (extract_lets +onlyGivenNames y
       refine have hy : Keeps [.dict, .ev, .nt] [Obj.eventLost, Obj.tblRejected] s y := ?_; ?_
       (unfold y; clear y)
       rotate_left
       clear_value y)
    | (extract_lets +onlyGivenNames y)
    | with_reducible refine (unbind_keeps ..).step (by decide) (by decide) ?_
    | with_reducible refine keeps_raise (by decide) (by decide) ?_
    | with_reducible refine keeps_bump (by decide) ?_
    | with_reducible refine keeps_forEach (fun _ _ _ => ?_) ?_
    | with_reducible refine keeps_ite ?_ ?_
    | split
    | refine keeps_of_eq (by assumption) ?_
    | refine keeps_dict (by decide) rfl id ?_
    | refine keeps_nt (by decide) ?_

theorem pageBegin_keeps (f : HdrFields) (s : State) :
    Keeps [.dict, .rfe, .pages, .fire, .cmps, .values]
      [Obj.cmpMissed, Obj.pageOrigin] s (pageBegin f s) := by
  unfold pageBegin
  repeat' first
    | with_reducible assumption
    | with_reducible exact Keeps.refl _ _ _
    | (extract_lets +onlyGivenNames y
       refine have hy : Keeps [.dict, .rfe, .pages, .fire, .cmps, .values] [Obj.cmpMissed, Obj.pageOrigin] s y := ?_; ?_
       (unfold y; clear y)
       rotate_left
       clear_value y)
    | (extract_lets +onlyGivenNames y)
    | with_reducible refine (modRfe_keeps ..).step (by decide) (by decide) ?_
    | with_reducible refine (cmpOrigin_keeps ..).step (by decide) (by decide) ?_
    | with_reducible refine (beginInput_keeps ..).step (by decide) (by decide) ?_
    | with_reducible refine keeps_setE (by decide) ?_
    | with_reducible refine keeps_ite ?_ ?_
    | split
    | refine keeps_mk rfl rfl List.prefix_rfl id rfl rfl rfl ?_
    | refine keeps_pages (by decide) ?_
    | refine keeps_fire (by decide) ?_

theorem hdrAccept_keeps (f : HdrFields) (okPos : BitVec 5) (s : State) :
    Keeps [.dict, .ev, .bond, .rfe, .pages, .codec, .nt, .fire, .links, .pos, .cmps, .insp, .sent, .values]
      [Obj.cmpMissed, Obj.eventLost, Obj.lgAccepted, Obj.maxLineRate, Obj.pageNow, Obj.pageOrigin, Obj.tblRejected] s (hdrAccept f okPos s) := by
  unfold hdrAccept
  repeat' first
    | with_reducible assumption
    | with_reducible exact Keeps.refl _ _ _
    | (extract_lets +onlyGivenNames y
       refine have hy : Keeps [.dict, .ev, .bond, .rfe, .pages, .codec, .nt, .fire, .links, .pos, .cmps, .insp, .sent, .values] [Obj.cmpMissed, Obj.eventLost, Obj.lgAccepted, Obj.maxLineRate, Obj.pageNow, Obj.pageOrigin, Obj.tblRejected] s y := ?_; ?_
       (unfold y; clear y)
       rotate_left
       clear_value y)
    | (extract_lets +onlyGivenNames y)
    | with_reducible refine (modRfe_keeps ..).step (by decide) (by decide) ?_
    | with_reducible refine (releaseWords_keeps ..).step (by decide) (by decide) ?_
    | with_reducible refine (rateFollow_keeps ..).step (by decide) (by decide) ?_
    | with_reducible refine (rejectTables_keeps ..).step (by decide) (by decide) ?_
    | with_reducible refine (pageBegin_keeps ..).step (by decide) (by decide) ?_
    | with_reducible refine (closeInput_keeps ..).step (by decide) (by decide) ?_
    | with_reducible refine (codecFollow_keeps ..).step (by decide) (by decide) ?_
    | with_reducible refine keeps_setN (by decide) ?_
    | with_reducible refine keeps_bump (by decide) ?_
    | with_reducible refine keeps_ite ?_ ?_
    | split
    | refine keeps_pages (by decide) ?_

theorem hdrRefuse_keeps (s : State) :
    Keeps [.rfe]
      [] s (hdrRefuse s) := by
  unfold hdrRefuse
  repeat' first
    | with_reducible assumption
    | with_reducible exact Keeps.refl _ _ _
    | with_reducible refine (modRfe_keeps ..).step (by decide) (by decide) ?_
    | split

theorem hdrAct_keeps (f : HdrFields) (okPos : BitVec 5) (fails : Nat) (s : State) :
    Keeps [.dict, .ev, .bond, .rfe, .pages, .codec, .nt, .fire, .links, .pos, .cmps, .insp, .sent, .values]
      [Obj.cmpMissed, Obj.creditErrors, Obj.eventLost, Obj.lgAccepted, Obj.maxLineRate, Obj.pageNow, Obj.pageOrigin, Obj.tblRejected] s (hdrAct f okPos fails s) := by
  unfold hdrAct
  repeat' first
    | with_reducible assumption
    | with_reducible exact Keeps.refl _ _ _
    | (extract_lets +onlyGivenNames y
       refine have hy : Keeps [.dict, .ev, .bond, .rfe, .pages, .codec, .nt, .fire, .links, .pos, .cmps, .insp, .sent, .values] [Obj.cmpMissed, Obj.creditErrors, Obj.eventLost, Obj.lgAccepted, Obj.maxLineRate, Obj.pageNow, Obj.pageOrigin, Obj.tblRejected] s y := ?_; ?_
       (unfold y; clear y)
       rotate_left
       clear_value y)
    | (extract_lets +onlyGivenNames y)
    | with_reducible refine (modRfe_keeps ..).step (by decide) (by decide) ?_
    | with_reducible refine (releaseWords_keeps ..).step (by decide) (by decide) ?_
    | with_reducible refine (resyncMessage_keeps ..).step (by decide) (by decide) ?_
    | with_reducible refine (hdrAccept_keeps ..).step (by decide) (by decide) ?_
    | with_reducible refine (hdrRefuse_keeps ..).step (by decide) (by decide) ?_
    | with_reducible refine (closeCut_keeps ..).step (by decide) (by decide) ?_
    | with_reducible refine keeps_raise (by decide) (by decide) ?_
    | with_reducible refine keeps_bump (by decide) ?_
    | with_reducible refine keeps_ite ?_ ?_
    | split

theorem takeStrides_keeps (copies : List HdrCopy) (s : State) :
    Keeps [.lanes]
      [] s (takeStrides copies s) := by
  unfold takeStrides
  repeat' first
    | with_reducible assumption
    | with_reducible exact Keeps.refl _ _ _
    | with_reducible refine (modLane_keeps ..).step (by decide) (by decide) ?_
    | with_reducible refine keeps_forEach (fun _ _ _ => ?_) ?_
    | with_reducible refine keeps_ite ?_ ?_
    | split

theorem reformAt_keeps (copies : List HdrCopy) (s : State) :
    Keeps [.ev, .bond, .rfe, .pages, .codec, .fire, .links, .pos, .insp, .sent, .values]
      [Obj.eventLost, Obj.maxLineRate] s (reformAt copies s) := by
  unfold reformAt
  repeat' first
    | with_reducible assumption
    | with_reducible exact Keeps.refl _ _ _
    | (extract_lets +onlyGivenNames y
       refine have hy : Keeps [.ev, .bond, .rfe, .pages, .codec, .fire, .links, .pos, .insp, .sent, .values] [Obj.eventLost, Obj.maxLineRate] s y := ?_; ?_
       (unfold y; clear y)
       rotate_left
       clear_value y)
    | (extract_lets +onlyGivenNames y)
    | with_reducible refine (modBond_keeps ..).step (by decide) (by decide) ?_
    | with_reducible refine (bondLose_keeps ..).step (by decide) (by decide) ?_
    | with_reducible refine (bondReform_keeps ..).step (by decide) (by decide) ?_
    | with_reducible refine keeps_ite ?_ ?_
    | split

theorem headerNow_keeps (copies : List HdrCopy) (s : State) :
    Keeps [.dict, .ev, .lanes, .bond, .rfe, .pages, .codec, .nt, .fire, .links, .pos, .cmps, .insp, .sent, .values]
      [Obj.cmpMissed, Obj.creditErrors, Obj.eventLost, Obj.hdrErrors, Obj.lgAccepted, Obj.maxLineRate, Obj.pageNow, Obj.pageOrigin, Obj.tblRejected] s (headerNow copies s) := by
  unfold headerNow
  repeat' first
    | with_reducible assumption
    | with_reducible exact Keeps.refl _ _ _
    | (extract_lets +onlyGivenNames y
       refine have hy : Keeps [.dict, .ev, .lanes, .bond, .rfe, .pages, .codec, .nt, .fire, .links, .pos, .cmps, .insp, .sent, .values] [Obj.cmpMissed, Obj.creditErrors, Obj.eventLost, Obj.hdrErrors, Obj.lgAccepted, Obj.maxLineRate, Obj.pageNow, Obj.pageOrigin, Obj.tblRejected] s y := ?_; ?_
       (unfold y; clear y)
       rotate_left
       clear_value y)
    | (extract_lets +onlyGivenNames y; clear_value y)
    | with_reducible refine (hdrRefuse_keeps ..).step (by decide) (by decide) ?_
    | with_reducible refine (hdrAct_keeps ..).step (by decide) (by decide) ?_
    | with_reducible refine (takeStrides_keeps ..).step (by decide) (by decide) ?_
    | with_reducible refine (reformAt_keeps ..).step (by decide) (by decide) ?_
    | with_reducible refine keeps_raise (by decide) (by decide) ?_
    | with_reducible refine keeps_bump (by decide) ?_
    | with_reducible refine keeps_foldl (fun _ _ _ => ?_) ?_
    | with_reducible refine keeps_ite ?_ ?_
    | split

theorem lgHeaderDo_keeps (copies : List HdrCopy) (s : State) :
    Keeps [.dict, .ev, .lanes, .bond, .rfe, .pages, .codec, .nt, .fire, .links, .pos, .cmps, .insp, .sent, .values]
      [Obj.cmpMissed, Obj.creditErrors, Obj.eventLost, Obj.hdrErrors, Obj.lgAccepted, Obj.maxLineRate, Obj.pageNow, Obj.pageOrigin, Obj.tblRejected] s (lgHeaderDo copies s) := by
  unfold lgHeaderDo
  repeat' first
    | with_reducible assumption
    | with_reducible exact Keeps.refl _ _ _
    | with_reducible refine (modBond_keeps ..).step (by decide) (by decide) ?_
    | with_reducible refine (headerNow_keeps ..).step (by decide) (by decide) ?_
    | with_reducible refine keeps_ite ?_ ?_
    | split

theorem dskRelease_keeps (s : State) :
    Keeps [.dict, .ev, .lanes, .bond, .rfe, .pages, .codec, .nt, .fire, .links, .pos, .cmps, .insp, .sent, .values]
      [Obj.cmpMissed, Obj.creditErrors, Obj.eventLost, Obj.hdrErrors, Obj.lgAccepted, Obj.maxLineRate, Obj.pageNow, Obj.pageOrigin, Obj.tblRejected] s (dskRelease s) := by
  unfold dskRelease
  repeat' first
    | with_reducible assumption
    | with_reducible exact Keeps.refl _ _ _
    | with_reducible refine (modBond_keeps ..).step (by decide) (by decide) ?_
    | with_reducible refine (headerNow_keeps ..).step (by decide) (by decide) ?_
    | with_reducible refine keeps_forEach (fun _ _ _ => ?_) ?_
    | with_reducible refine keeps_ite ?_ ?_
    | split

theorem lgCompleteDo_keeps (page lg : Nat) (blocks : List (List Word)) (s : State) :
    Keeps [.rfe, .pages, .fire, .sent]
      [] s (lgCompleteDo page lg blocks s) := by
  unfold lgCompleteDo
  repeat' first
    | with_reducible assumption
    | with_reducible exact Keeps.refl _ _ _
    | (extract_lets +onlyGivenNames y
       refine have hy : Keeps [.rfe, .pages, .fire, .sent] [] s y := ?_; ?_
       (unfold y; clear y)
       rotate_left
       clear_value y)
    | (extract_lets +onlyGivenNames y)
    | with_reducible refine (modRfe_keeps ..).step (by decide) (by decide) ?_
    | with_reducible refine (releaseWords_keeps ..).step (by decide) (by decide) ?_
    | with_reducible refine (haltFlags_keeps ..).step (by decide) (by decide) ?_
    | with_reducible refine keeps_ite ?_ ?_
    | split
    | refine keeps_pages (by decide) ?_

theorem bondCfgDo_keeps (v : Word) (s : State) :
    Keeps [.ev, .bond, .rfe, .pages, .codec, .fire, .links, .pos, .insp, .sent, .up, .values]
      [Obj.bondCfg, Obj.eventLost, Obj.maxLineRate] s (bondCfgDo v s) := by
  unfold bondCfgDo
  repeat' first
    | with_reducible assumption
    | with_reducible exact Keeps.refl _ _ _
    | (extract_lets +onlyGivenNames y
       refine have hy : Keeps [.ev, .bond, .rfe, .pages, .codec, .fire, .links, .pos, .insp, .sent, .up, .values] [Obj.bondCfg, Obj.eventLost, Obj.maxLineRate] s y := ?_; ?_
       (unfold y; clear y)
       rotate_left
       clear_value y)
    | (extract_lets +onlyGivenNames y)
    | with_reducible refine (modBond_keeps ..).step (by decide) (by decide) ?_
    | with_reducible refine (laneReady_keeps ..).step (by decide) (by decide) ?_
    | with_reducible refine (bondMessage_keeps ..).step (by decide) (by decide) ?_
    | with_reducible refine (bondTry_keeps ..).step (by decide) (by decide) ?_
    | with_reducible refine (bondDissolve_keeps ..).step (by decide) (by decide) ?_
    | with_reducible refine keeps_setN (by decide) ?_
    | with_reducible refine keeps_ite ?_ ?_
    | split

theorem laneOfferDo_keeps (i : Nat) (s : State) :
    Keeps [.bond, .rfe, .sent, .values]
      [Obj.maxLineRate] s (laneOfferDo i s) := by
  unfold laneOfferDo
  repeat' first
    | with_reducible assumption
    | with_reducible exact Keeps.refl _ _ _
    | (extract_lets +onlyGivenNames y
       refine have hy : Keeps [.bond, .rfe, .sent, .values] [Obj.maxLineRate] s y := ?_; ?_
       (unfold y; clear y)
       rotate_left
       clear_value y)
    | (extract_lets +onlyGivenNames y)
    | with_reducible refine (modBond_keeps ..).step (by decide) (by decide) ?_
    | with_reducible refine (bondMessage_keeps ..).step (by decide) (by decide) ?_
    | with_reducible refine (bondTry_keeps ..).step (by decide) (by decide) ?_
    | with_reducible refine keeps_ite ?_ ?_
    | split

end Sys2Proof.Machine
end

