-- ==== Sys2Proof/Laws/Ring.lean ====
section
/-! SUPPORT. What each operation of Machine/Ring.lean leaves alone: nothing but the groups and the objects named differs. -/

set_option Elab.async false
set_option linter.all false

namespace Sys2Proof.Machine

open Sys2Proof

set_option linter.tactic.unusedName false

theorem linkTake_keeps (v : Int) (s : State) :
    Keeps []
      [Obj.ringDelay] s (linkTake v s) := by
  unfold linkTake
  repeat' first
    | with_reducible assumption
    | with_reducible exact Keeps.refl _ _ _
    | with_reducible refine keeps_setI (by decide) ?_
    | with_reducible refine keeps_ite ?_ ?_
    | split

theorem timeCopy_keeps (c : CopyIn) (s : State) :
    Keeps [.clock]
      [Obj.ringDelay] s (timeCopy c s).2 := by
  unfold timeCopy
  repeat' first
    | with_reducible assumption
    | with_reducible exact Keeps.refl _ _ _
    | (extract_lets +onlyGivenNames y
       refine have hy : Keeps [.clock] [Obj.ringDelay] s y := ?_; ?_
       (unfold y; clear y)
       rotate_left
       clear_value y)
    | (extract_lets +onlyGivenNames y)
    | with_reducible refine (modClock_keeps (hf := by exact fun _ => rfl) ..).step (by decide) (by decide) ?_
    | with_reducible refine (linkTake_keeps ..).step (by decide) (by decide) ?_
    | with_reducible refine keeps_setI (by decide) ?_
    | with_reducible refine keeps_ite ?_ ?_
    | split

theorem copyOut_keeps (p : RingPort) (start : Nat) (ws : List Word) (ok : Bool) (s : State) :
    Keeps [.ring, .sent]
      [] s (copyOut p start ws ok s) := by
  unfold copyOut
  repeat' first
    | with_reducible assumption
    | with_reducible exact Keeps.refl _ _ _
    | with_reducible refine (modRing_keeps ..).step (by decide) (by decide) ?_
    | with_reducible refine keeps_emit' (by decide) ?_
    | with_reducible refine keeps_ite ?_ ?_
    | split

theorem sendCopy_keeps (p : RingPort) (start : Nat) (ws : List Word) (ok : Bool) (s : State) :
    Keeps [.ring, .sent]
      [] s (sendCopy p start ws ok s) := by
  unfold sendCopy
  repeat' first
    | with_reducible assumption
    | with_reducible exact Keeps.refl _ _ _
    | with_reducible refine (copyOut_keeps ..).step (by decide) (by decide) ?_
    | with_reducible refine keeps_ite ?_ ?_
    | split

theorem gapCycles_keeps (first n : Nat) (s : State) :
    Keeps [.clock, .ev, .up]
      [Obj.eventLost, Obj.gapCycles, Obj.syncState] s (gapCycles first n s) := by
  unfold gapCycles
  repeat' first
    | with_reducible assumption
    | with_reducible exact Keeps.refl _ _ _
    | (extract_lets +onlyGivenNames y
       refine have hy : Keeps [.clock, .ev, .up] [Obj.eventLost, Obj.gapCycles, Obj.syncState] s y := ?_; ?_
       (unfold y; clear y)
       rotate_left
       clear_value y)
    | (extract_lets +onlyGivenNames y)
    | with_reducible refine (enterHoldover_keeps ..).step (by decide) (by decide) ?_
    | with_reducible refine keeps_bump (by decide) ?_
    | with_reducible refine keeps_ite ?_ ?_
    | split

theorem newCycle_keeps (cyc : Nat) (s : State) :
    Keeps [.clock, .ev, .ring, .up]
      [Obj.eventLost, Obj.gapCycles, Obj.syncState] s (newCycle cyc s) := by
  unfold newCycle
  repeat' first
    | with_reducible assumption
    | with_reducible exact Keeps.refl _ _ _
    | (extract_lets +onlyGivenNames y
       refine have hy : Keeps [.clock, .ev, .ring, .up] [Obj.eventLost, Obj.gapCycles, Obj.syncState] s y := ?_; ?_
       (unfold y; clear y)
       rotate_left
       clear_value y)
    | (extract_lets +onlyGivenNames y)
    | with_reducible refine (gapCycles_keeps ..).step (by decide) (by decide) ?_
    | with_reducible refine (modRing_keeps ..).step (by decide) (by decide) ?_
    | with_reducible refine keeps_ite ?_ ?_
    | split

theorem namedLost_keeps (s : State) :
    Keeps [.clock, .ev, .ring, .up]
      [Obj.eventLost, Obj.gapCycles, Obj.syncState] s (namedLost s) := by
  unfold namedLost
  repeat' first
    | with_reducible assumption
    | with_reducible exact Keeps.refl _ _ _
    | (extract_lets +onlyGivenNames y
       refine have hy : Keeps [.clock, .ev, .ring, .up] [Obj.eventLost, Obj.gapCycles, Obj.syncState] s y := ?_; ?_
       (unfold y; clear y)
       rotate_left
       clear_value y)
    | (extract_lets +onlyGivenNames y)
    | with_reducible refine (gapCycles_keeps ..).step (by decide) (by decide) ?_
    | with_reducible refine (newCycle_keeps ..).step (by decide) (by decide) ?_
    | with_reducible refine (modRing_keeps ..).step (by decide) (by decide) ?_
    | with_reducible refine keeps_ite ?_ ?_
    | split

theorem rivalCheck_keeps (ws : List Word) (s : State) :
    Keeps [.ev, .ring]
      [Obj.eventLost] s (rivalCheck ws s) := by
  unfold rivalCheck
  repeat' first
    | with_reducible assumption
    | with_reducible exact Keeps.refl _ _ _
    | (extract_lets +onlyGivenNames y
       refine have hy : Keeps [.ev, .ring] [Obj.eventLost] s y := ?_; ?_
       (unfold y; clear y)
       rotate_left
       clear_value y)
    | (extract_lets +onlyGivenNames y)
    | with_reducible refine (modRing_keeps ..).step (by decide) (by decide) ?_
    | with_reducible refine keeps_raise (by decide) (by decide) ?_
    | with_reducible refine keeps_ite ?_ ?_
    | split

theorem takeHop_keeps (hop : Nat) (s : State) :
    Keeps [.ring]
      [] s (takeHop hop s) := by
  unfold takeHop
  repeat' first
    | with_reducible assumption
    | with_reducible exact Keeps.refl _ _ _
    | (extract_lets +onlyGivenNames y
       refine have hy : Keeps [.ring] [] s y := ?_; ?_
       (unfold y; clear y)
       rotate_left
       clear_value y)
    | (extract_lets +onlyGivenNames y)
    | with_reducible refine (modRing_keeps ..).step (by decide) (by decide) ?_
    | with_reducible refine keeps_ite ?_ ?_
    | split

theorem unwrapPort_keeps (p : RingPort) (s : State) :
    Keeps [.ring]
      [] s (unwrapPort p s) := by
  unfold unwrapPort
  repeat' first
    | with_reducible assumption
    | with_reducible exact Keeps.refl _ _ _
    | with_reducible refine (modRing_keeps ..).step (by decide) (by decide) ?_
    | with_reducible refine keeps_ite ?_ ?_
    | split

theorem mapFollow_keeps (s : State) :
    Keeps [.ev, .ring]
      [Obj.eventLost] s (mapFollow s) := by
  unfold mapFollow
  repeat' first
    | with_reducible assumption
    | with_reducible exact Keeps.refl _ _ _
    | (extract_lets +onlyGivenNames y
       refine have hy : Keeps [.ev, .ring] [Obj.eventLost] s y := ?_; ?_
       (unfold y; clear y)
       rotate_left
       clear_value y)
    | (extract_lets +onlyGivenNames y)
    | with_reducible refine (modRing_keeps ..).step (by decide) (by decide) ?_
    | with_reducible refine keeps_raise (by decide) (by decide) ?_
    | with_reducible refine keeps_ite ?_ ?_
    | split

theorem cycleOut_keeps (p : RingPort) (copyB : Bool) (box : List Word) (s : State) :
    Keeps [.ring, .sent]
      [] s (cycleOut p copyB box s) := by
  unfold cycleOut
  repeat' first
    | with_reducible assumption
    | with_reducible exact Keeps.refl _ _ _
    | with_reducible refine (copyOut_keeps ..).step (by decide) (by decide) ?_
    | with_reducible refine keeps_whenB (fun _ _ => ?_) ?_
    | split

theorem cycleStartDo_keeps (s : State) :
    Keeps [.ev, .ring, .sent] [Obj.eventLost] s (cycleStartDo s) := by
  unfold cycleStartDo
  refine keeps_ite (Keeps.refl _ _ _) ?_
  dsimp only
  refine (cycleOut_keeps ..).step (by decide) (by decide) ((cycleOut_keeps ..).step (by decide) (by decide) ?_)
  split
  · exact (mapFollow_keeps ..).step (by decide) (by decide) ((modRing_keeps ..).step (by decide) (by decide) (Keeps.refl _ _ _))
  · exact (mailboxOf_keeps ..).step (by decide) (by decide)
      ((mapFollow_keeps ..).step (by decide) (by decide) ((modRing_keeps ..).step (by decide) (by decide) (Keeps.refl _ _ _)))

theorem copyJudged_keeps (copyB : Bool) (cyc : Nat) (s : State) :
    Keeps [.ring]
      [] s (copyJudged copyB cyc s) := by
  unfold copyJudged
  repeat' first
    | with_reducible assumption
    | with_reducible exact Keeps.refl _ _ _
    | with_reducible refine (modRing_keeps ..).step (by decide) (by decide) ?_
    | split

theorem copyLost_keeps (copyB : Bool) (cyc : Nat) (s : State) :
    Keeps [.ev, .ring]
      [Obj.eventLost] s (copyLost copyB cyc s) := by
  unfold copyLost
  repeat' first
    | with_reducible assumption
    | with_reducible exact Keeps.refl _ _ _
    | (extract_lets +onlyGivenNames y
       refine have hy : Keeps [.ev, .ring] [Obj.eventLost] s y := ?_; ?_
       (unfold y; clear y)
       rotate_left
       clear_value y)
    | (extract_lets +onlyGivenNames y)
    | with_reducible refine (copyJudged_keeps ..).step (by decide) (by decide) ?_
    | with_reducible refine (resend_keeps ..).step (by decide) (by decide) ?_
    | with_reducible refine keeps_raise (by decide) (by decide) ?_
    | with_reducible refine keeps_ite ?_ ?_
    | split

theorem mapBuild_keeps (s : State) :
    Keeps [.ring]
      [] s (mapBuild s) := by
  unfold mapBuild
  repeat' first
    | with_reducible assumption
    | with_reducible exact Keeps.refl _ _ _
    | (extract_lets +onlyGivenNames y
       refine have hy : Keeps [.ring] [] s y := ?_; ?_
       (unfold y; clear y)
       rotate_left
       clear_value y)
    | (extract_lets +onlyGivenNames y)
    | with_reducible refine (modRing_keeps ..).step (by decide) (by decide) ?_
    | with_reducible refine keeps_ite ?_ ?_
    | split

theorem joinCheck_keeps (ws : List Word) (s : State) :
    Keeps [.ev, .ring]
      [Obj.eventLost] s (joinCheck ws s) := by
  unfold joinCheck
  repeat' first
    | with_reducible assumption
    | with_reducible exact Keeps.refl _ _ _
    | (extract_lets +onlyGivenNames y
       refine have hy : Keeps [.ev, .ring] [Obj.eventLost] s y := ?_; ?_
       (unfold y; clear y)
       rotate_left
       clear_value y)
    | (extract_lets +onlyGivenNames y)
    | with_reducible refine (modRing_keeps ..).step (by decide) (by decide) ?_
    | with_reducible refine keeps_raise (by decide) (by decide) ?_
    | with_reducible refine keeps_forEach (fun _ _ _ => ?_) ?_
    | with_reducible refine keeps_ite ?_ ?_
    | split

theorem unslottedCheck_keeps (ws : List Word) (s : State) :
    Keeps [.ev, .ring]
      [Obj.eventLost] s (unslottedCheck ws s) := by
  unfold unslottedCheck
  repeat' first
    | with_reducible assumption
    | with_reducible exact Keeps.refl _ _ _
    | (extract_lets +onlyGivenNames y
       refine have hy : Keeps [.ev, .ring] [Obj.eventLost] s y := ?_; ?_
       (unfold y; clear y)
       rotate_left
       clear_value y)
    | (extract_lets +onlyGivenNames y)
    | with_reducible refine (modRing_keeps ..).step (by decide) (by decide) ?_
    | with_reducible refine keeps_raise (by decide) (by decide) ?_
    | with_reducible refine keeps_ite ?_ ?_
    | split

theorem masterTime_keeps (c : CopyIn) (s : State) :
    Keeps []
      [Obj.ringDelay] s (masterTime c s) := by
  unfold masterTime
  repeat' first
    | with_reducible assumption
    | with_reducible exact Keeps.refl _ _ _
    | (extract_lets +onlyGivenNames y
       refine have hy : Keeps [] [Obj.ringDelay] s y := ?_; ?_
       (unfold y; clear y)
       rotate_left
       clear_value y)
    | (extract_lets +onlyGivenNames y)
    | with_reducible refine (linkTake_keeps ..).step (by decide) (by decide) ?_
    | with_reducible refine keeps_setI (by decide) ?_
    | with_reducible refine keeps_ite ?_ ?_
    | split

theorem restoredCheck_keeps (cyc : Nat) (copyB : Bool) (s : State) :
    Keeps [.ev, .ring]
      [Obj.eventLost] s (restoredCheck cyc copyB s) := by
  unfold restoredCheck
  repeat' first
    | with_reducible assumption
    | with_reducible exact Keeps.refl _ _ _
    | (extract_lets +onlyGivenNames y
       refine have hy : Keeps [.ev, .ring] [Obj.eventLost] s y := ?_; ?_
       (unfold y; clear y)
       rotate_left
       clear_value y)
    | (extract_lets +onlyGivenNames y)
    | with_reducible refine (modRing_keeps ..).step (by decide) (by decide) ?_
    | with_reducible refine keeps_raise (by decide) (by decide) ?_
    | with_reducible refine keeps_ite ?_ ?_
    | split

theorem foreignCopy_keeps (s : State) :
    Keeps [.ev, .ring]
      [Obj.eventLost] s (foreignCopy s) := by
  unfold foreignCopy
  repeat' first
    | with_reducible assumption
    | with_reducible exact Keeps.refl _ _ _
    | with_reducible refine (modRing_keeps ..).step (by decide) (by decide) ?_
    | with_reducible refine keeps_raise (by decide) (by decide) ?_
    | split

theorem copyBack_keeps (c : CopyIn) (s : State) :
    Keeps [.ev, .ring]
      [Obj.eventLost, Obj.ringDelay] s (copyBack c s) := by
  unfold copyBack
  repeat' first
    | with_reducible assumption
    | with_reducible exact Keeps.refl _ _ _
    | (extract_lets +onlyGivenNames y
       refine have hy : Keeps [.ev, .ring] [Obj.eventLost, Obj.ringDelay] s y := ?_; ?_
       (unfold y; clear y)
       rotate_left
       clear_value y)
    | (extract_lets +onlyGivenNames y)
    | with_reducible refine (copyJudged_keeps ..).step (by decide) (by decide) ?_
    | with_reducible refine (mapBuild_keeps ..).step (by decide) (by decide) ?_
    | with_reducible refine (joinCheck_keeps ..).step (by decide) (by decide) ?_
    | with_reducible refine (unslottedCheck_keeps ..).step (by decide) (by decide) ?_
    | with_reducible refine (masterTime_keeps ..).step (by decide) (by decide) ?_
    | with_reducible refine (restoredCheck_keeps ..).step (by decide) (by decide) ?_
    | with_reducible refine (resend_keeps ..).step (by decide) (by decide) ?_
    | with_reducible refine (modRing_keeps ..).step (by decide) (by decide) ?_
    | with_reducible refine keeps_ite ?_ ?_
    | split

theorem masterCopy_keeps (c : CopyIn) (s : State) :
    Keeps [.ev, .ring]
      [Obj.eventLost, Obj.ringDelay] s (masterCopy c s) := by
  unfold masterCopy
  repeat' first
    | with_reducible assumption
    | with_reducible exact Keeps.refl _ _ _
    | (extract_lets +onlyGivenNames y
       refine have hy : Keeps [.ev, .ring] [Obj.eventLost, Obj.ringDelay] s y := ?_; ?_
       (unfold y; clear y)
       rotate_left
       clear_value y)
    | (extract_lets +onlyGivenNames y)
    | with_reducible refine (copyLost_keeps ..).step (by decide) (by decide) ?_
    | with_reducible refine (foreignCopy_keeps ..).step (by decide) (by decide) ?_
    | with_reducible refine (copyBack_keeps ..).step (by decide) (by decide) ?_
    | with_reducible refine keeps_ite ?_ ?_
    | split

end Sys2Proof.Machine
end

