-- ==== Sys2Proof/Laws/Writes.lean ====
section
/-! SUPPORT. What each operation of Machine/Writes.lean leaves alone: nothing but the groups and the objects named differs. -/

set_option Elab.async false
set_option linter.all false

namespace Sys2Proof.Machine

open Sys2Proof

set_option linter.tactic.unusedName false

theorem elemRefused_keeps (d : ObjDef) (i code : Nat) (e : Elem) (s : State) :
    Keeps [.pwr, .dict, .ev, .mem, .fabric, .nt, .free, .up]
      [Obj.corrected, Obj.eventLost, Obj.flipCtrl, Obj.headMasked, Obj.poisonReads, Obj.tileFault, Obj.tileReady, Obj.uncorrectable, Obj.wbDropped] s (elemRefused d i code e s) := by
  unfold elemRefused
  repeat' first
    | with_reducible assumption
    | with_reducible exact Keeps.refl _ _ _
    | (extract_lets +onlyGivenNames y
       refine have hy : Keeps [.pwr, .dict, .ev, .mem, .fabric, .nt, .free, .up] [Obj.corrected, Obj.eventLost, Obj.flipCtrl, Obj.headMasked, Obj.poisonReads, Obj.tileFault, Obj.tileReady, Obj.uncorrectable, Obj.wbDropped] s y := ?_; ?_
       (unfold y; clear y)
       rotate_left
       clear_value y)
    | (extract_lets +onlyGivenNames y)
    | with_reducible refine (ntCommitWrite_keeps ..).step (by decide) (by decide) ?_
    | with_reducible refine keeps_raise (by decide) (by decide) ?_
    | with_reducible refine keeps_ite ?_ ?_
    | split
    | refine keeps_of_eq (by assumption) ?_

theorem commitPageDo_keeps (p : Nat) (s : State) :
    Keeps [.dict, .links, .sent]
      [] s (commitPageDo p s) := by
  unfold commitPageDo
  repeat' first
    | with_reducible assumption
    | with_reducible exact Keeps.refl _ _ _
    | (extract_lets +onlyGivenNames y
       refine have hy : Keeps [.dict, .links, .sent] [] s y := ?_; ?_
       (unfold y; clear y)
       rotate_left
       clear_value y)
    | (extract_lets +onlyGivenNames y)
    | with_reducible refine (commitDo_keeps ..).step (by decide) (by decide) ?_
    | with_reducible refine (bankBind_keeps ..).step (by decide) (by decide) ?_
    | with_reducible refine keeps_ite ?_ ?_
    | split

theorem commitCancelDo_keeps (p : Nat) (s : State) :
    Keeps [.dict, .links]
      [] s (commitCancelDo p s) := by
  unfold commitCancelDo
  repeat' first
    | with_reducible assumption
    | with_reducible exact Keeps.refl _ _ _
    | with_reducible refine (cancelDo_keeps ..).step (by decide) (by decide) ?_
    | with_reducible refine (bankCancel_keeps ..).step (by decide) (by decide) ?_
    | split

theorem commitNowWrite_keeps (s : State) :
    Keeps [.dict, .ev, .mem, .fabric, .links, .sent, .values]
      [Obj.eventLost, Obj.flipCtrl] s (commitNowWrite s) := by
  unfold commitNowWrite
  repeat' first
    | with_reducible assumption
    | with_reducible exact Keeps.refl _ _ _
    | (extract_lets +onlyGivenNames y
       refine have hy : Keeps [.dict, .ev, .mem, .fabric, .links, .sent, .values] [Obj.eventLost, Obj.flipCtrl] s y := ?_; ?_
       (unfold y; clear y)
       rotate_left
       clear_value y)
    | (extract_lets +onlyGivenNames y)
    | with_reducible refine (commitNowDo_keeps ..).step (by decide) (by decide) ?_
    | with_reducible refine (bankNow_keeps ..).step (by decide) (by decide) ?_
    | with_reducible refine keeps_ite ?_ ?_
    | split

theorem pageAbortDo_keeps (s : State) :
    Keeps [.pwr, .dict, .ev, .mem, .rfe, .pages, .fabric, .nt, .fire, .links, .pos, .insp, .sent, .free, .up, .values]
      [Obj.corrected, Obj.eventLost, Obj.flipCtrl, Obj.headMasked, Obj.poisonReads, Obj.tileFault, Obj.tileReady, Obj.uncorrectable, Obj.wbDropped] s (pageAbortDo s) := by
  unfold pageAbortDo
  repeat' first
    | with_reducible assumption
    | with_reducible exact Keeps.refl _ _ _
    | with_reducible refine (abandonPages_keeps ..).step (by decide) (by decide) ?_
    | with_reducible refine (endHalt_keeps ..).step (by decide) (by decide) ?_
    | split

theorem slotCfgDo_keeps (v : Word) (s : State) :
    Keeps [.ring]
      [Obj.slotCfg] s (slotCfgDo v s) := by
  unfold slotCfgDo
  repeat' first
    | with_reducible assumption
    | with_reducible exact Keeps.refl _ _ _
    | (extract_lets +onlyGivenNames y
       refine have hy : Keeps [.ring] [Obj.slotCfg] s y := ?_; ?_
       (unfold y; clear y)
       rotate_left
       clear_value y)
    | (extract_lets +onlyGivenNames y)
    | with_reducible refine (modRing_keeps ..).step (by decide) (by decide) ?_
    | with_reducible refine keeps_setN (by decide) ?_
    | with_reducible refine keeps_ite ?_ ?_
    | split

theorem camRoleDo_keeps (v : Word) (s : State) :
    Keeps [.insp]
      [Obj.camRole] s (camRoleDo v s) := by
  unfold camRoleDo
  repeat' first
    | with_reducible assumption
    | with_reducible exact Keeps.refl _ _ _
    | (extract_lets +onlyGivenNames y
       refine have hy : Keeps [.insp] [Obj.camRole] s y := ?_; ?_
       (unfold y; clear y)
       rotate_left
       clear_value y)
    | (extract_lets +onlyGivenNames y)
    | with_reducible refine (modCam_keeps ..).step (by decide) (by decide) ?_
    | with_reducible refine keeps_setN (by decide) ?_
    | with_reducible refine keeps_forEach (fun _ _ _ => ?_) ?_
    | split

theorem eventAckDo_keeps (q : Nat) (s : State) : Keeps [.ev] [] s (eventAckDo q s) := by
  refine keeps_ev (by decide) (fun h => ⟨?_, h.2⟩) (Keeps.refl _ _ _)
  have := (List.dropWhile_suffix (l := s.ev.queue) (fun e => e.seq != q)).length_le
  have := h.1
  simp only [List.length_drop]
  omega

theorem ramWrite_keeps (d : ObjDef) (i : Nat) (e : Elem) (s : State) :
    Keeps [.ev, .mem]
      [Obj.eventLost, Obj.flipCtrl] s (ramWrite d i e s) := by
  unfold ramWrite
  repeat' first
    | with_reducible assumption
    | with_reducible exact Keeps.refl _ _ _
    | with_reducible refine (userWrite_keeps ..).step (by decide) (by decide) ?_
    | with_reducible refine keeps_forEach (fun _ _ _ => ?_) ?_
    | with_reducible refine keeps_ite ?_ ?_
    | split

end Sys2Proof.Machine
end

