-- ==== Sys2Proof/Laws/TableFrames.lean ====
section
/-! SUPPORT. What each operation of Machine/TableFrames.lean leaves alone: nothing but the groups and the objects named differs. -/

set_option Elab.async false
set_option linter.all false

namespace Sys2Proof.Machine

open Sys2Proof

set_option linter.tactic.unusedName false

theorem tableReject_keeps (f : TableHdr) (cause abort : Nat) (s : State) :
    Keeps [.dict, .ev]
      [Obj.eventLost, Obj.tblRejected] s (tableReject f cause abort s) := by
  unfold tableReject
  repeat' first
    | with_reducible assumption
    | with_reducible exact Keeps.refl _ _ _
    | with_reducible refine keeps_raise (by decide) (by decide) ?_
    | with_reducible refine keeps_bump (by decide) ?_
    | split
    | refine keeps_dict (by decide) rfl id ?_

theorem bindDo_keeps (o p : Nat) (s : State) :
    Keeps [.dict, .links, .sent]
      [] s (bindDo o p s) := by
  unfold bindDo
  repeat' first
    | with_reducible assumption
    | with_reducible exact Keeps.refl _ _ _
    | (extract_lets +onlyGivenNames y
       refine have hy : Keeps [.dict, .links, .sent] [] s y := ?_; ?_
       (unfold y; clear y)
       rotate_left
       clear_value y)
    | (extract_lets +onlyGivenNames y)
    | with_reducible refine (commitPageDo_keeps ..).step (by decide) (by decide) ?_
    | split
    | refine keeps_dict (by decide) rfl id ?_

theorem tableCommit_keeps (f : TableHdr) (s : State) :
    Keeps [.pwr, .dict, .ev, .mem, .fabric, .nt, .links, .sent, .free, .up]
      [Obj.corrected, Obj.eventLost, Obj.flipCtrl, Obj.headMasked, Obj.poisonReads, Obj.tileFault, Obj.tileReady, Obj.uncorrectable, Obj.wbDropped] s (tableCommit f s).2 := by
  unfold tableCommit
  repeat' first
    | with_reducible assumption
    | with_reducible exact Keeps.refl _ _ _
    | (extract_lets +onlyGivenNames y
       refine have hy : Keeps [.pwr, .dict, .ev, .mem, .fabric, .nt, .links, .sent, .free, .up] [Obj.corrected, Obj.eventLost, Obj.flipCtrl, Obj.headMasked, Obj.poisonReads, Obj.tileFault, Obj.tileReady, Obj.uncorrectable, Obj.wbDropped] s y := ?_; ?_
       (unfold y; clear y)
       rotate_left
       clear_value y)
    | (extract_lets +onlyGivenNames y)
    | with_reducible refine (ntCommitWrite_keeps ..).step (by decide) (by decide) ?_
    | with_reducible refine (bindDo_keeps ..).step (by decide) (by decide) ?_
    | with_reducible refine keeps_ite ?_ ?_
    | split
    | refine keeps_of_eq (by assumption) ?_

theorem tableTaken_keeps (f : TableHdr) (page : Option Nat) (s : State) :
    Keeps [.rfe]
      [Obj.tblAccepted] s (tableTaken f page s) := by
  unfold tableTaken
  repeat' first
    | with_reducible assumption
    | with_reducible exact Keeps.refl _ _ _
    | with_reducible refine (modRfe_keeps ..).step (by decide) (by decide) ?_
    | with_reducible refine keeps_bump (by decide) ?_
    | split

theorem shadowBad_keeps (o : Nat) (s : State) :
    Keeps [.dict]
      [] s (shadowBad o s) := by
  unfold shadowBad
  repeat' first
    | with_reducible assumption
    | with_reducible exact Keeps.refl _ _ _
    | split
    | refine keeps_dict (by decide) rfl id ?_

theorem tableCopy_keeps (f : TableHdr) (d : ObjDef) (t : Transfer) (ws : List Word) (s : State) :
    Keeps [.pwr, .dict, .ev, .mem, .rfe, .fabric, .nt, .links, .sent, .free, .up, .values]
      [Obj.corrected, Obj.eventLost, Obj.flipCtrl, Obj.headMasked, Obj.ldsDemand, Obj.poisonReads, Obj.tblAccepted, Obj.tblRejected, Obj.tileFault, Obj.tileReady, Obj.uncorrectable, Obj.wbDropped] s (tableCopy f d t ws s) := by
  unfold tableCopy
  extract_lets data s1 t1 d1 s2 r c
  have h1 : Keeps [.pwr, .dict, .ev, .mem, .rfe, .fabric, .nt, .links, .sent, .free, .up, .values] [Obj.corrected, Obj.eventLost, Obj.flipCtrl, Obj.headMasked, Obj.ldsDemand, Obj.poisonReads, Obj.tblAccepted, Obj.tblRejected, Obj.tileFault, Obj.tileReady, Obj.uncorrectable, Obj.wbDropped] s s1 :=
    (storeWords_keeps ..).step (by decide) (by decide) (Keeps.refl _ _ _)
  clear_value s1
  have h2 : Keeps [.pwr, .dict, .ev, .mem, .rfe, .fabric, .nt, .links, .sent, .free, .up, .values] [Obj.corrected, Obj.eventLost, Obj.flipCtrl, Obj.headMasked, Obj.ldsDemand, Obj.poisonReads, Obj.tblAccepted, Obj.tblRejected, Obj.tileFault, Obj.tileReady, Obj.uncorrectable, Obj.wbDropped] s s2 := keeps_dict (by decide) rfl id h1
  have h3 : Keeps [.pwr, .dict, .ev, .mem, .rfe, .fabric, .nt, .links, .sent, .free, .up, .values] [Obj.corrected, Obj.eventLost, Obj.flipCtrl, Obj.headMasked, Obj.ldsDemand, Obj.poisonReads, Obj.tblAccepted, Obj.tblRejected, Obj.tileFault, Obj.tileReady, Obj.uncorrectable, Obj.wbDropped] s r.2 := (blockEnd_keeps ..).step (by decide) (by decide) h2
  clear_value r
  have h4 : Keeps [.pwr, .dict, .ev, .mem, .rfe, .fabric, .nt, .links, .sent, .free, .up, .values] [Obj.corrected, Obj.eventLost, Obj.flipCtrl, Obj.headMasked, Obj.ldsDemand, Obj.poisonReads, Obj.tblAccepted, Obj.tblRejected, Obj.tileFault, Obj.tileReady, Obj.uncorrectable, Obj.wbDropped] s c.2 := (tableCommit_keeps ..).step (by decide) (by decide) h3
  clear_value c
  refine keeps_ite ((tableTaken_keeps ..).step (by decide) (by decide) (keeps_dict (by decide) rfl id h1)) ?_
  refine keeps_ite ((tableReject_keeps ..).step (by decide) (by decide) h3) ?_
  refine keeps_ite ((tableTaken_keeps ..).step (by decide) (by decide) h3) ?_
  exact keeps_ite ((tableReject_keeps ..).step (by decide) (by decide) ((shadowBad_keeps ..).step (by decide) (by decide) h4))
    ((tableTaken_keeps ..).step (by decide) (by decide) h4)

theorem tableStart_keeps (f : TableHdr) (ws : List Word) (s : State) :
    Keeps [.pwr, .dict, .ev, .mem, .rfe, .fabric, .nt, .links, .sent, .free, .up, .values]
      [Obj.corrected, Obj.eventLost, Obj.flipCtrl, Obj.headMasked, Obj.ldsDemand, Obj.poisonReads, Obj.tblAccepted, Obj.tblRejected, Obj.tileFault, Obj.tileReady, Obj.uncorrectable, Obj.wbDropped] s (tableStart f ws s) := by
  unfold tableStart
  repeat' first
    | with_reducible assumption
    | with_reducible exact Keeps.refl _ _ _
    | (extract_lets +onlyGivenNames y)
    | with_reducible refine (blockOpened_keeps ..).step (by decide) (by decide) ?_
    | with_reducible refine (tableReject_keeps ..).step (by decide) (by decide) ?_
    | with_reducible refine (tableCopy_keeps ..).step (by decide) (by decide) ?_
    | with_reducible refine keeps_takeFree (by decide) ?_
    | with_reducible refine keeps_ite ?_ ?_
    | split
    | refine keeps_dict (by decide) rfl id ?_

theorem tableNext_keeps (f : TableHdr) (ws : List Word) (s : State) :
    Keeps [.pwr, .dict, .ev, .mem, .rfe, .fabric, .nt, .links, .sent, .free, .up, .values]
      [Obj.corrected, Obj.eventLost, Obj.flipCtrl, Obj.headMasked, Obj.ldsDemand, Obj.poisonReads, Obj.tblAccepted, Obj.tblRejected, Obj.tileFault, Obj.tileReady, Obj.uncorrectable, Obj.wbDropped] s (tableNext f ws s) := by
  unfold tableNext
  repeat' first
    | with_reducible assumption
    | with_reducible exact Keeps.refl _ _ _
    | (extract_lets +onlyGivenNames y)
    | with_reducible refine (tableReject_keeps ..).step (by decide) (by decide) ?_
    | with_reducible refine (tableCopy_keeps ..).step (by decide) (by decide) ?_
    | with_reducible refine keeps_ite ?_ ?_
    | split

theorem tableFrameDo_keeps (ws : List Word) (eofOk : Bool) (s : State) :
    Keeps [.pwr, .dict, .ev, .mem, .rfe, .fabric, .nt, .links, .sent, .free, .up, .values]
      [Obj.corrected, Obj.eventLost, Obj.flipCtrl, Obj.headMasked, Obj.ldsDemand, Obj.poisonReads, Obj.tblAccepted, Obj.tblRejected, Obj.tileFault, Obj.tileReady, Obj.uncorrectable, Obj.wbDropped] s (tableFrameDo ws eofOk s) := by
  unfold tableFrameDo
  repeat' first
    | with_reducible assumption
    | with_reducible exact Keeps.refl _ _ _
    | (extract_lets +onlyGivenNames y)
    | with_reducible refine (modRfe_keeps ..).step (by decide) (by decide) ?_
    | with_reducible refine (releaseWords_keeps ..).step (by decide) (by decide) ?_
    | with_reducible refine (tableReject_keeps ..).step (by decide) (by decide) ?_
    | with_reducible refine (tableStart_keeps ..).step (by decide) (by decide) ?_
    | with_reducible refine (tableNext_keeps ..).step (by decide) (by decide) ?_
    | with_reducible refine keeps_ite ?_ ?_
    | split

end Sys2Proof.Machine
end

