-- ==== Sys2Proof/Laws/Sound.lean ====
section
/-! SUPPORT. The operations that touch nearly every part of the device: what was sound is sound after them, the queue of
commands is as it was, and what has left the device has left it. -/

set_option Elab.async false
set_option linter.all false

namespace Sys2Proof.Machine

open Sys2Proof

set_option linter.tactic.unusedName false

theorem freshUnits_sound (keepLatches values : Bool) (s : State) : Keeps everyArea [] s (freshUnits keepLatches values s) := by
  unfold freshUnits
  exact keeps_mk_all (x := s) rfl rfl List.prefix_rfl Sound.parts (Keeps.refl _ _ _)

theorem thawReload_sound (cause : Nat) (keepLatches : Bool) (s : State) : Keeps everyArea [] s (thawReload cause keepLatches s) := by
  unfold thawReload
  extract_lets boot r f0 p0 s1 s2
  have h1 : Keeps everyArea [] s s1 := by
    unfold s1
    exact keeps_mk_all (x := s) rfl rfl List.prefix_rfl (fun h => ⟨reset_mems, reset_values, h.2.2⟩) (Keeps.refl _ _ _)
  clear_value s1
  have h2 : Keeps everyArea [] s s2 := (thawPwr_keeps ..).then_all ((freshMotion_keeps ..).then_all ((freshUnits_sound ..).then_all h1))
  clear_value s2
  exact (setBoot_keeps ..).then_all (keeps_setN_any (by decide) h2)

theorem thawKeep_sound (cause : Nat) (mems : List Nat) (s : State) : Keeps everyArea [] s (thawKeep cause mems s) := by
  unfold thawKeep
  repeat' first
    | with_reducible assumption
    | with_reducible exact Keeps.refl _ _ _
    | (extract_lets +onlyGivenNames y
       refine have hy : Keeps everyArea [] s y := ?_; ?_
       (unfold y; clear y)
       rotate_left
       clear_value y)
    | (extract_lets +onlyGivenNames y)
    | with_reducible refine (modMem_keeps (hf := by exact fun _ h => h) ..).then_all ?_
    | with_reducible refine (clearMem_keeps ..).then_all ?_
    | with_reducible refine (abandonPages_keeps ..).then_all ?_
    | with_reducible refine (endHalt_keeps ..).then_all ?_
    | with_reducible refine (setBoot_keeps ..).then_all ?_
    | with_reducible refine (freshUnits_sound ..).then_all ?_
    | with_reducible refine (thawPwr_keeps ..).then_all ?_
    | with_reducible refine keeps_setN_any (by decide) ?_
    | with_reducible refine keeps_forEach (fun _ _ _ => ?_) ?_
    | split
    | with_reducible refine keeps_mk_all rfl rfl List.prefix_rfl Sound.parts ?_

theorem enterThaw_sound (f : State → State) (s : State) (hf : ∀ s, Keeps everyArea [] s (f s)) :
    Keeps everyArea [] s (enterThaw f s) := by
  unfold enterThaw
  extract_lets s1
  have h1 : Keeps everyArea [] s s1 := (hf _).then_all ((keepQueue_keeps ..).then_all (Keeps.refl _ _ _))
  clear_value s1
  exact (seasonTo_keeps ..).then_all (keeps_mk_all (x := s1) rfl rfl List.prefix_rfl Sound.parts h1)

theorem wakeUp_sound (cause : Nat) (s : State) : Keeps everyArea [] s (wakeUp cause s) :=
  enterThaw_sound _ s (fun _ => thawReload_sound ..)

theorem enterWinter_sound (s : State) : Keeps everyArea [] s (enterWinter s) := by
  unfold enterWinter
  extract_lets e0 s1 latched s2 s3 p0 s4
  have h1 : Keeps everyArea [] s s1 := by
    unfold s1
    exact keeps_mk_all (x := s) rfl rfl List.prefix_rfl (fun h => ⟨h.1, h.2.1, reset_events⟩) (Keeps.refl _ _ _)
  clear_value s1 latched
  have h2 : Keeps everyArea [] s s2 := (saveAbandon_keeps ..).then_all ((endHalt_keeps ..).then_all ((abandonPages_keeps ..).then_all h1))
  clear_value s2
  have h3 : Keeps everyArea [] s s3 := (thawPwr_keeps ..).then_all ((freshMotion_keeps ..).then_all ((freshUnits_sound ..).then_all h2))
  clear_value s3
  have h4 : Keeps everyArea [] s s4 := (seasonTo_keeps ..).then_all (keeps_mk_all (x := s3) rfl rfl List.prefix_rfl Sound.parts h3)
  clear_value s4
  split
  · exact (wakeUp_sound ..).then_all h4
  · exact h4

theorem autumnEnd_sound (s : State) : Keeps everyArea [] s (autumnEnd s) := by
  unfold autumnEnd
  exact keeps_ite (enterWinter_sound s) (keeps_ite
    ((enterThaw_sound _ _ (fun _ => thawKeep_sound ..)).then_all ((dropReady_keeps ..).then_all (Keeps.refl _ _ _)))
    ((enterThaw_sound _ _ (fun _ => thawReload_sound ..)).then_all ((dropReady_keeps ..).then_all (Keeps.refl _ _ _))))

theorem autumnStep4_sound (s : State) : Keeps everyArea [] s (autumnStep4 s) := by
  unfold autumnStep4
  repeat' first
    | with_reducible assumption
    | with_reducible exact Keeps.refl _ _ _
    | (extract_lets +onlyGivenNames y
       refine have hy : Keeps everyArea [] s y := ?_; ?_
       (unfold y; clear y)
       rotate_left
       clear_value y)
    | (extract_lets +onlyGivenNames y)
    | with_reducible refine (autumnOffBegin_keeps ..).then_all ?_
    | with_reducible refine (autumnOffNext_keeps ..).then_all ?_
    | with_reducible refine (autumnEnd_sound ..).then_all ?_
    | with_reducible refine keeps_setN_any (by decide) ?_
    | with_reducible refine keeps_ite ?_ ?_
    | split
    | with_reducible refine keeps_mk_all rfl rfl List.prefix_rfl Sound.parts ?_

theorem autumnStep3_sound (s : State) : Keeps everyArea [] s (autumnStep3 s) := by
  unfold autumnStep3
  repeat' first
    | with_reducible assumption
    | with_reducible exact Keeps.refl _ _ _
    | (extract_lets +onlyGivenNames y
       refine have hy : Keeps everyArea [] s y := ?_; ?_
       (unfold y; clear y)
       rotate_left
       clear_value y)
    | (extract_lets +onlyGivenNames y)
    | with_reducible refine (saveStart_keeps ..).then_all ?_
    | with_reducible refine (saveFail_keeps ..).then_all ?_
    | with_reducible refine (autumnStep4_sound ..).then_all ?_
    | with_reducible refine keeps_ite ?_ ?_
    | split
    | with_reducible refine keeps_mk_all rfl rfl List.prefix_rfl Sound.parts ?_

theorem capEnd_sound (result : Nat) (s : State) : Keeps everyArea [] s (capEnd result s) := by
  unfold capEnd
  repeat' first
    | with_reducible assumption
    | with_reducible exact Keeps.refl _ _ _
    | with_reducible refine (setBoot_keeps ..).then_all ?_
    | with_reducible refine (autumnStep3_sound ..).then_all ?_
    | split
    | with_reducible refine keeps_mk_all rfl rfl List.prefix_rfl Sound.parts ?_

theorem capCheck_sound (s : State) : Keeps everyArea [] s (capCheck s) := by
  unfold capCheck
  repeat' first
    | with_reducible assumption
    | with_reducible exact Keeps.refl _ _ _
    | (extract_lets +onlyGivenNames y
       refine have hy : Keeps everyArea [] s y := ?_; ?_
       (unfold y; clear y)
       rotate_left
       clear_value y)
    | (extract_lets +onlyGivenNames y)
    | with_reducible refine (capEnd_sound ..).then_all ?_
    | with_reducible refine (capMove_keeps ..).then_all ?_
    | with_reducible refine keeps_forEach (fun _ _ _ => ?_) ?_
    | with_reducible refine keeps_ite ?_ ?_
    | split
    | with_reducible refine keeps_mk_all rfl rfl List.prefix_rfl Sound.parts ?_

theorem autumnStep2_sound (s : State) : Keeps everyArea [] s (autumnStep2 s) := by
  unfold autumnStep2
  repeat' first
    | with_reducible assumption
    | with_reducible exact Keeps.refl _ _ _
    | (extract_lets +onlyGivenNames y
       refine have hy : Keeps everyArea [] s y := ?_; ?_
       (unfold y; clear y)
       rotate_left
       clear_value y)
    | (extract_lets +onlyGivenNames y)
    | with_reducible refine (autumnStep4_sound ..).then_all ?_
    | with_reducible refine (capEnd_sound ..).then_all ?_
    | with_reducible refine (capMove_keeps ..).then_all ?_
    | with_reducible refine (capCheck_sound ..).then_all ?_
    | with_reducible refine keeps_forEach (fun _ _ _ => ?_) ?_
    | with_reducible refine keeps_ite ?_ ?_
    | split
    | with_reducible refine keeps_mk_all rfl rfl List.prefix_rfl Sound.parts ?_

theorem idleCheck_sound (s : State) : Keeps everyArea [] s (idleCheck s) := by
  unfold idleCheck
  repeat' first
    | with_reducible assumption
    | with_reducible exact Keeps.refl _ _ _
    | with_reducible refine (autumnStep2_sound ..).then_all ?_
    | with_reducible refine keeps_ite ?_ ?_
    | split
    | with_reducible refine keeps_mk_all rfl rfl List.prefix_rfl Sound.parts ?_

theorem autumnStart_sound (toWinter firmware : Bool) (s : State) : Keeps everyArea [] s (autumnStart toWinter firmware s) := by
  unfold autumnStart
  repeat' first
    | with_reducible assumption
    | with_reducible exact Keeps.refl _ _ _
    | (extract_lets +onlyGivenNames y
       refine have hy : Keeps everyArea [] s y := ?_; ?_
       (unfold y; clear y)
       rotate_left
       clear_value y)
    | (extract_lets +onlyGivenNames y)
    | with_reducible refine (seasonTo_keeps ..).then_all ?_
    | with_reducible refine (calDrop_keeps ..).then_all ?_
    | with_reducible refine (idleCheck_sound ..).then_all ?_
    | split
    | with_reducible refine keeps_mk_all rfl rfl List.prefix_rfl Sound.parts ?_

theorem seasonReqDo_sound (v : Nat) (s : State) : Keeps everyArea [] s (seasonReqDo v s) := by
  unfold seasonReqDo
  repeat' first
    | with_reducible assumption
    | with_reducible exact Keeps.refl _ _ _
    | (extract_lets +onlyGivenNames y
       refine have hy : Keeps everyArea [] s y := ?_; ?_
       (unfold y; clear y)
       rotate_left
       clear_value y)
    | (extract_lets +onlyGivenNames y)
    | with_reducible refine (xingQueue_keeps ..).then_all ?_
    | with_reducible refine (autumnStart_sound ..).then_all ?_
    | with_reducible refine keeps_setN_any (by decide) ?_
    | with_reducible refine keeps_ite ?_ ?_
    | split
    | with_reducible refine keeps_mk_all rfl rfl List.prefix_rfl Sound.parts ?_

theorem laneGone_sound (i cause : Nat) (s : State) : Keeps everyArea [] s (laneGone i cause s) := by
  unfold laneGone
  repeat' first
    | with_reducible assumption
    | with_reducible exact Keeps.refl _ _ _
    | with_reducible refine (seamDown_keeps ..).then_all ?_
    | with_reducible refine (bondLose_keeps ..).then_all ?_
    | with_reducible refine (dskDone_keeps ..).then_all ?_
    | with_reducible refine (dskRelease_keeps ..).then_all ?_
    | with_reducible refine (cameraLost_keeps ..).then_all ?_
    | with_reducible refine (screenRun_keeps ..).then_all ?_
    | with_reducible refine (idleCheck_sound ..).then_all ?_
    | with_reducible refine (portLost_keeps ..).then_all ?_
    | with_reducible refine (headLaneLost_keeps ..).then_all ?_
    | with_reducible refine keeps_ite ?_ ?_
    | split
    | with_reducible refine keeps_mk_all rfl rfl List.prefix_rfl Sound.parts ?_

theorem laneOut_sound (i : Nat) (s : State) : Keeps everyArea [] s (laneOut i s) := by
  unfold laneOut
  repeat' first
    | with_reducible assumption
    | with_reducible exact Keeps.refl _ _ _
    | (extract_lets +onlyGivenNames y
       refine have hy : Keeps everyArea [] s y := ?_; ?_
       (unfold y; clear y)
       rotate_left
       clear_value y)
    | (extract_lets +onlyGivenNames y)
    | with_reducible refine (laneStop_keeps ..).then_all ?_
    | with_reducible refine (laneGone_sound ..).then_all ?_
    | with_reducible refine keeps_ite ?_ ?_
    | split
    | with_reducible refine keeps_mk_all rfl rfl List.prefix_rfl Sound.parts ?_

theorem holdFunc_sound (b : Nat) (s : State) : Keeps everyArea [] s (holdFunc b s) := by
  unfold holdFunc
  extract_lets s1
  have h1 : Keeps everyArea [] s s1 := keeps_setUp (by decide) (Keeps.refl _ _ _)
  clear_value s1
  have lanes : ∀ {x : State} (l : List Nat), Keeps everyArea [] s x → Keeps everyArea [] s (forEach l laneOut x) :=
    fun _ h => keeps_forEach (fun _ _ k => (laneOut_sound ..).then_all k) h
  have follow : ∀ {x : State}, Keeps everyArea [] s x → Keeps everyArea [] s (forEach (List.range 32) headLaneFollow x) :=
    fun h => keeps_forEach (fun _ _ k => (headLaneFollow_keeps ..).then_all k) h
  have stops : ∀ {x : State} (l : List Nat), Keeps everyArea [] s x → Keeps everyArea [] s (forEach l laneStop x) :=
    fun _ h => keeps_forEach (fun _ _ k => (laneStop_keeps ..).then_all k) h
  split
  · exact (calAbandon_keeps ..).then_all ((syncEnter_keeps ..).then_all (follow (keeps_setUp (by decide)
      (lanes _ (keeps_setUp (by decide) h1)))))
  · exact (calAbandon_keeps ..).then_all ((syncEnter_keeps ..).then_all ((queuesLost_keeps ..).then_all (keeps_trigs (by decide) h1)))
  · exact (bondDissolve_keeps ..).then_all (stops _ h1)
  · refine keeps_fabric (by decide) ?_
    exact (modMem_keeps (hf := fun _ _ => wf_nil _) ..).then_all ((queuesLost_keeps ..).then_all (keeps_setN_any (by decide) h1))
  · exact (ldsLost_keeps ..).then_all h1
  · exact (calAbandon_keeps ..).then_all (follow (stops _ ((queuesLost_keeps ..).then_all h1)))
  · exact (frontHeld_keeps ..).then_all h1
  · exact (frontHeld_keeps ..).then_all h1
  · exact (posSet_keeps ..).then_all (keeps_hare (by decide) h1)
  · exact keeps_mk_all (x := s1) rfl rfl List.prefix_rfl Sound.parts h1
  · exact keeps_insp (by decide) (lanes _ h1)
  · exact keeps_insp (by decide) h1
  · exact keeps_insp (by decide) h1
  · exact (calAbandon_keeps ..).then_all h1
  · exact (hpcReady_keeps ..).then_all ((allOff_keeps ..).then_all (keeps_hpc (by decide) h1))
  · exact (saveAbandon_keeps ..).then_all h1
  · exact lanes _ h1

theorem releaseFunc_sound (b : Nat) (s : State) : Keeps everyArea [] s (releaseFunc b s) := by
  unfold releaseFunc
  repeat' first
    | with_reducible assumption
    | with_reducible exact Keeps.refl _ _ _
    | (extract_lets +onlyGivenNames y
       refine have hy : Keeps everyArea [] s y := ?_; ?_
       (unfold y; clear y)
       rotate_left
       clear_value y)
    | (extract_lets +onlyGivenNames y)
    | with_reducible refine (injectNow_keeps ..).then_all ?_
    | with_reducible refine (frontReleased_keeps ..).then_all ?_
    | with_reducible refine (headLaneFollow_keeps ..).then_all ?_
    | with_reducible refine (clearObjs_keeps ..).then_all ?_
    | with_reducible refine (clearLane_keeps ..).then_all ?_
    | with_reducible refine (tilesBack_keeps ..).then_all ?_
    | with_reducible refine (auxReady_keeps ..).then_all ?_
    | with_reducible refine keeps_forEach (fun _ _ _ => ?_) ?_
    | split
    | with_reducible refine keeps_mk_all rfl rfl List.prefix_rfl Sound.parts ?_

theorem funcResetDo_sound (v : Word) (s : State) : Keeps everyArea [] s (funcResetDo v s) := by
  unfold funcResetDo
  repeat' first
    | with_reducible assumption
    | with_reducible exact Keeps.refl _ _ _
    | (extract_lets +onlyGivenNames y
       refine have hy : Keeps everyArea [] s y := ?_; ?_
       (unfold y; clear y)
       rotate_left
       clear_value y)
    | (extract_lets +onlyGivenNames y)
    | with_reducible refine (xingFollow_keeps ..).then_all ?_
    | with_reducible refine (idleCheck_sound ..).then_all ?_
    | with_reducible refine (seasonReqDo_sound ..).then_all ?_
    | with_reducible refine (holdFunc_sound ..).then_all ?_
    | with_reducible refine (releaseFunc_sound ..).then_all ?_
    | with_reducible refine keeps_setN_any (by decide) ?_
    | with_reducible refine keeps_forEach (fun _ _ _ => ?_) ?_
    | with_reducible refine keeps_ite ?_ ?_
    | split
    | with_reducible refine keeps_mk_all rfl rfl List.prefix_rfl Sound.parts ?_

theorem laneCfgDo_sound (i : Nat) (v : Word) (s : State) : Keeps everyArea [] s (laneCfgDo i v s) := by
  unfold laneCfgDo
  repeat' first
    | with_reducible assumption
    | with_reducible exact Keeps.refl _ _ _
    | (extract_lets +onlyGivenNames y
       refine have hy : Keeps everyArea [] s y := ?_; ?_
       (unfold y; clear y)
       rotate_left
       clear_value y)
    | (extract_lets +onlyGivenNames y)
    | with_reducible refine (laneStop_keeps ..).then_all ?_
    | with_reducible refine (injectNow_keeps ..).then_all ?_
    | with_reducible refine (idleCheck_sound ..).then_all ?_
    | with_reducible refine (laneOut_sound ..).then_all ?_
    | with_reducible refine (headLaneFollow_keeps ..).then_all ?_
    | with_reducible refine keeps_setN_any (by decide) ?_
    | with_reducible refine keeps_ite ?_ ?_
    | split
    | with_reducible refine keeps_mk_all rfl rfl List.prefix_rfl Sound.parts ?_

theorem laneTestDo_sound (i : Nat) (v : Word) (s : State) : Keeps everyArea [] s (laneTestDo i v s) := by
  unfold laneTestDo
  repeat' first
    | with_reducible assumption
    | with_reducible exact Keeps.refl _ _ _
    | (extract_lets +onlyGivenNames y
       refine have hy : Keeps everyArea [] s y := ?_; ?_
       (unfold y; clear y)
       rotate_left
       clear_value y)
    | (extract_lets +onlyGivenNames y)
    | with_reducible refine (modLane_keeps ..).then_all ?_
    | with_reducible refine (laneStop_keeps ..).then_all ?_
    | with_reducible refine (injectNow_keeps ..).then_all ?_
    | with_reducible refine (laneOut_sound ..).then_all ?_
    | with_reducible refine keeps_setN_any (by decide) ?_
    | with_reducible refine keeps_ite ?_ ?_
    | split
    | with_reducible refine keeps_mk_all rfl rfl List.prefix_rfl Sound.parts ?_

theorem keeps_choice {c : Prop} {_ : Decidable c} {s a t : State} {b : Option State} (h : (if c then some a else b) = some t)
    (ha : Keeps everyArea [] s a) (hb : b = some t → Keeps everyArea [] s t) : Keeps everyArea [] s t := by
  split at h
  · cases h; exact ha
  · exact hb h

set_option maxRecDepth 4096 in
theorem applyLow_sound {id i : Nat} {e : Elem} {s t : State} (h : applyLow id i e s = some t) : Keeps everyArea [] s t := by
  unfold applyLow at h
  dsimp only at h
  repeat
    with_reducible refine keeps_choice h (by
      clear h
      repeat' with_reducible first
        | exact (saveStart_keeps ..).all
        | exact (commitPageDo_keeps ..).all
        | exact (commitCancelDo_keeps ..).all
        | exact (commitNowWrite_keeps ..).all
        | exact Keeps.refl _ _ _
        | refine keeps_ite ?_ ?_
        | exact (seasonReqDo_sound ..)
        | exact (funcResetDo_sound ..)
        | exact keeps_setN_any (by decide) (Keeps.refl _ _ _)
        | exact (slotCfgDo_keeps ..).all
        | exact (timeNowDo_keeps ..).all
        | exact (timeSourceDo_keeps ..).all
        | exact (resyncDo_keeps ..).all
        | exact (trigDo_keeps ..).all
        | exact (captDo_keeps ..).all
        | exact (bondCfgDo_keeps ..).all
        | exact (laneCfgDo_sound ..)
        | exact (laneTestDo_sound ..)) (fun h => ?_)
  cases h

set_option maxRecDepth 4096 in
theorem applyMid_sound {id i : Nat} {e : Elem} {s t : State} (h : applyMid id i e s = some t) : Keeps everyArea [] s t := by
  unfold applyMid at h
  dsimp only at h
  repeat
    with_reducible refine keeps_choice h (by
      clear h
      repeat' with_reducible first
        | exact Keeps.refl _ _ _
        | refine keeps_ite ?_ ?_
        | exact keeps_setN_any (by decide) (Keeps.refl _ _ _)
        | exact (ntCommitWrite_keeps ..).all
        | exact (ntApproveDo_keeps ..).all
        | exact (armDo_keeps ..).all
        | exact (disarmDo_keeps ..).all
        | exact (bookClearDo_keeps ..).all
        | exact (pageAbortDo_keeps ..).all
        | exact (regSelDo_keeps ..).all
        | exact keeps_pos (by decide) (Keeps.refl _ _ _)
        | exact (encCfgDo_keeps ..).all
        | exact (cmpDo_keeps ..).all
        | exact (cmpArmNow_keeps ..).then_all (keeps_setE_any (by decide) (Keeps.refl _ _ _))
        | exact keeps_setE_any (by decide) (Keeps.refl _ _ _)
        | exact (hareCtrlDo_keeps ..).all
        | exact (auxCfgDo_keeps ..).all
        | exact (auxClearDo_keeps ..).all
        | exact (axCtrlDo_keeps ..).all
        | exact (startMove_keeps ..).all
        | exact (axDecelDo_keeps ..).all) (fun h => ?_)
  cases h

set_option maxRecDepth 4096 in
theorem applyHigh_sound {id i : Nat} {e : Elem} {s t : State} (h : applyHigh id i e s = some t) : Keeps everyArea [] s t := by
  unfold applyHigh at h
  dsimp only at h
  repeat
    with_reducible refine keeps_choice h (by
      clear h
      repeat' with_reducible first
        | exact Keeps.refl _ _ _
        | refine keeps_ite ?_ ?_
        | exact (camRoleDo_keeps ..).all
        | exact (syncReqDo_keeps ..).all
        | exact (expCommitDo_keeps ..).all
        | exact (dispAckDo_keeps ..).all
        | exact (calReqDo_keeps ..).all
        | exact (compatDo_keeps ..).all
        | exact (clearDo_keeps ..).all
        | exact (hpcEnableDo_keeps ..).all
        | exact (unlatchDo_keeps ..).all
        | exact (eventAckDo_keeps ..).all
        | exact (xingClear_keeps ..).all) (fun h => ?_)
  cases h

theorem elemApply_sound (d : ObjDef) (i : Nat) (e : Elem) (s : State) : Keeps everyArea [] s (elemApply d i e s) := by
  unfold elemApply
  refine keeps_ite ?_ ?_
  · exact keeps_dict (by decide) rfl id (keeps_setShadow (by decide) (Keeps.refl _ _ _))
  · split
    · exact applyLow_sound (by assumption)
    · split
      · exact applyMid_sound (by assumption)
      · split
        · exact applyHigh_sound (by assumption)
        · exact keeps_setE_any (by decide) (Keeps.refl _ _ _)

theorem writeElems_sound (d : ObjDef) : ∀ (i : Nat) (es : List Elem) (s : State), Keeps everyArea [] s (writeElems d i es s)
  | _, [], s => Keeps.refl _ _ s
  | i, e :: es, s => by
    unfold writeElems
    exact (writeElems_sound d (i + 1) es _).then_all ((elemApply_sound ..).then_all (ramWrite_keeps ..).all)

theorem writeRange_sound (d : ObjDef) (base : List Nat) (i : Nat) (es : List Elem) (s : State) :
    Keeps everyArea [] s (writeRange d base i es s).2 := by
  unfold writeRange
  split
  · exact writeElems_sound ..
  · exact (elemRefused_keeps ..).all

theorem plainWrite_sound (a : Access) (vals : List Word) (s : State) : Keeps everyArea [] s (plainWrite a vals s).2 := by
  unfold plainWrite
  repeat' first
    | with_reducible assumption
    | with_reducible exact Keeps.refl _ _ _
    | (extract_lets +onlyGivenNames y
       refine have hy : Keeps everyArea [] s y := ?_; ?_
       (unfold y; clear y)
       rotate_left
       clear_value y)
    | (extract_lets +onlyGivenNames y)
    | with_reducible refine (writeRange_sound ..).then_all ?_
    | with_reducible refine keeps_ite ?_ ?_
    | split
    | with_reducible refine keeps_of_eq (by assumption) ?_
    | with_reducible refine keeps_mk_all rfl rfl List.prefix_rfl Sound.parts ?_

theorem codeRestart_sound (s : State) : Keeps everyArea [] s (codeRestart s) := by
  unfold codeRestart
  repeat' first
    | with_reducible assumption
    | with_reducible exact Keeps.refl _ _ _
    | (extract_lets +onlyGivenNames y
       refine have hy : Keeps everyArea [] s y := ?_; ?_
       (unfold y; clear y)
       rotate_left
       clear_value y)
    | (extract_lets +onlyGivenNames y)
    | with_reducible refine (saveAbandon_keeps ..).then_all ?_
    | with_reducible refine (autumnStep4_sound ..).then_all ?_
    | with_reducible refine (autumnStart_sound ..).then_all ?_
    | with_reducible refine keeps_ite ?_ ?_
    | split
    | with_reducible refine keeps_mk_all rfl rfl List.prefix_rfl Sound.parts ?_

theorem codeCheck_sound (s : State) : Keeps everyArea [] s (codeCheck s) := by
  unfold codeCheck
  repeat' first
    | with_reducible assumption
    | with_reducible exact Keeps.refl _ _ _
    | with_reducible refine (codeRestart_sound ..).then_all ?_
    | with_reducible refine keeps_ite ?_ ?_
    | split
    | with_reducible refine keeps_mk_all rfl rfl List.prefix_rfl Sound.parts ?_

theorem localReq_sound (q : Req) (s : State) : Keeps everyArea [] s (localReq q s).2 := by
  unfold localReq
  extract_lets a r
  have h : Keeps everyArea [] s r.2 := by
    unfold r
    split
    · exact (plainRead_keeps ..).all
    · exact plainWrite_sound ..
    · exact (openBlock_keeps ..).all
    · exact (openBlock_keeps ..).all
    · exact (segmentDo_keeps ..).all
    · exact (closeDo_keeps ..).all
    · exact Keeps.refl _ _ _
  exact (codeCheck_sound ..).then_all h

theorem requestArrived_sound (g : Seg) (s : State) : Keeps everyArea [] s (requestArrived g s) := by
  unfold requestArrived
  extract_lets all parsed record
  refine keeps_ite ((mailboxBad_keeps ..).then_all (keeps_ite (Keeps.refl _ _ _) (keeps_ring (by decide) (Keeps.refl _ _ _)))) (keeps_ite (Keeps.refl _ _ _) ?_)
  clear_value parsed
  split
  · exact keeps_ring (by decide) (Keeps.refl _ _ _)
  · rename_i q _
    exact keeps_ring (by decide) (localReq_sound q s)

theorem actOn_sound (c : CopyIn) (theta : Int) (s : State) : Keeps everyArea [] s (actOn c theta s) := by
  unfold actOn
  repeat' first
    | with_reducible assumption
    | with_reducible exact Keeps.refl _ _ _
    | (extract_lets +onlyGivenNames y
       refine have hy : Keeps everyArea [] s y := ?_; ?_
       (unfold y; clear y)
       rotate_left
       clear_value y)
    | (extract_lets +onlyGivenNames y)
    | with_reducible refine (modClock_keeps (hf := by exact fun _ => rfl) ..).then_all ?_
    | with_reducible refine (offsetSample_keeps ..).then_all ?_
    | with_reducible refine (requestArrived_sound ..).then_all ?_
    | with_reducible refine (modRing_keeps ..).then_all ?_
    | with_reducible refine keeps_forEach (fun _ _ _ => ?_) ?_
    | with_reducible refine keeps_ite ?_ ?_
    | split
    | with_reducible refine keeps_mk_all rfl rfl List.prefix_rfl Sound.parts ?_

theorem firstPass_sound (c : CopyIn) (s : State) : Keeps everyArea [] s (firstPass c s) := by
  unfold firstPass
  repeat' first
    | with_reducible assumption
    | with_reducible exact Keeps.refl _ _ _
    | (extract_lets +onlyGivenNames y
       refine have hy : Keeps everyArea [] s y := ?_; ?_
       (unfold y; clear y)
       rotate_left
       clear_value y)
    | (extract_lets +onlyGivenNames y)
    | with_reducible refine (timeCopy_keeps ..).then_all ?_
    | with_reducible refine (sendCopy_keeps ..).then_all ?_
    | with_reducible refine (newCycle_keeps ..).then_all ?_
    | with_reducible refine (namedLost_keeps ..).then_all ?_
    | with_reducible refine (rivalCheck_keeps ..).then_all ?_
    | with_reducible refine (takeHop_keeps ..).then_all ?_
    | with_reducible refine (actOn_sound ..).then_all ?_
    | with_reducible refine (unwrapPort_keeps ..).then_all ?_
    | with_reducible refine keeps_ite ?_ ?_
    | split
    | with_reducible refine keeps_of_eq (by assumption) ?_
    | with_reducible refine keeps_mk_all rfl rfl List.prefix_rfl Sound.parts ?_

theorem memberCopy_sound (c : CopyIn) (s : State) : Keeps everyArea [] s (memberCopy c s) := by
  unfold memberCopy
  repeat' first
    | with_reducible assumption
    | with_reducible exact Keeps.refl _ _ _
    | (extract_lets +onlyGivenNames y
       refine have hy : Keeps everyArea [] s y := ?_; ?_
       (unfold y; clear y)
       rotate_left
       clear_value y)
    | (extract_lets +onlyGivenNames y)
    | with_reducible refine (sendCopy_keeps ..).then_all ?_
    | with_reducible refine (firstPass_sound ..).then_all ?_
    | with_reducible refine (modRing_keeps ..).then_all ?_
    | with_reducible refine keeps_ite ?_ ?_
    | split
    | with_reducible refine keeps_mk_all rfl rfl List.prefix_rfl Sound.parts ?_

theorem holdAddr_sound (src : BitVec 32) (port seq : Nat) (before s : State) :
    Keeps everyArea [] s (holdAddr src port seq before s) := by
  unfold holdAddr
  exact keeps_ite (Keeps.refl _ _ _) (keeps_host (by decide) (Keeps.refl _ _ _))

theorem broadcastDo_sound (owner : Owner) (q : Req) (s : State) : Keeps everyArea [] s (broadcastDo owner q s).2 := by
  unfold broadcastDo
  repeat' first
    | with_reducible assumption
    | with_reducible exact Keeps.refl _ _ _
    | (extract_lets +onlyGivenNames y
       refine have hy : Keeps everyArea [] s y := ?_; ?_
       (unfold y; clear y)
       rotate_left
       clear_value y)
    | (extract_lets +onlyGivenNames y)
    | with_reducible refine (localReq_sound ..).then_all ?_
    | with_reducible refine (ringAsk_keeps ..).then_all ?_
    | with_reducible refine keeps_forEach (fun _ _ _ => ?_) ?_
    | with_reducible refine keeps_ite ?_ ?_
    | split
    | with_reducible refine keeps_of_eq (by assumption) ?_
    | with_reducible refine keeps_mk_all rfl rfl List.prefix_rfl Sound.parts ?_

theorem startAccess_sound (owner : Owner) (q : Req) (s : State) : Keeps everyArea [] s (startAccess owner q s).2 := by
  unfold startAccess
  repeat' first
    | with_reducible assumption
    | with_reducible exact Keeps.refl _ _ _
    | (extract_lets +onlyGivenNames y
       refine have hy : Keeps everyArea [] s y := ?_; ?_
       (unfold y; clear y)
       rotate_left
       clear_value y)
    | (extract_lets +onlyGivenNames y)
    | with_reducible refine (localReq_sound ..).then_all ?_
    | with_reducible refine (ringAsk_keeps ..).then_all ?_
    | with_reducible refine (broadcastDo_sound ..).then_all ?_
    | split
    | with_reducible refine keeps_of_eq (by assumption) ?_
    | with_reducible refine keeps_mk_all rfl rfl List.prefix_rfl Sound.parts ?_

theorem runRecords_sound (src : BitVec 32) (port seq : Nat) : ∀ (n used : Nat) (qs : List Req) (s : State),
    Keeps everyArea [] s (runRecords src port seq n used qs s)
  | _, _, [], s => Keeps.refl _ _ s
  | n, used, q :: qs, s => by
    have h := startAccess_sound (some (src, port, seq, n)) q s
    unfold runRecords
    extract_lets ws refuse r
    have hf : ∀ t, Keeps everyArea [] t (refuse t).2 := fun t => (fillRecord_keeps ..).all
    clear_value refuse
    have hr : Keeps everyArea [] s r.2 := by
      unfold r
      split
      · rename_i e
        rw [e] at h
        dsimp only at h ⊢
        split
        · exact (fillRecord_keeps ..).then_all ((holdAddr_sound ..).then_all h)
        · exact hf s
      · rename_i e
        rw [e] at h
        dsimp only at h
        split
        · exact (holdAddr_sound ..).then_all h
        · exact hf s
    clear_value r
    exact (runRecords_sound src port seq _ _ qs _).then_all hr

theorem hostDatagramDo_sound (src : BitVec 32) (port : Nat) (ws : List Word) (s : State) : Keeps everyArea [] s (hostDatagramDo src port ws s) := by
  unfold hostDatagramDo
  repeat' first
    | with_reducible assumption
    | with_reducible exact Keeps.refl _ _ _
    | (extract_lets +onlyGivenNames y
       refine have hy : Keeps everyArea [] s y := ?_; ?_
       (unfold y; clear y)
       rotate_left
       clear_value y)
    | (extract_lets +onlyGivenNames y)
    | with_reducible refine (bareReply_keeps ..).then_all ?_
    | with_reducible refine (runRecords_sound ..).then_all ?_
    | with_reducible refine (sendDatagram_keeps ..).then_all ?_
    | with_reducible refine keeps_ite ?_ ?_
    | split
    | with_reducible refine keeps_mk_all rfl rfl List.prefix_rfl Sound.parts ?_

theorem scrubRead_sound (m : Nat) (upset : BitVec 43) (s : State) : Keeps everyArea [] s (scrubRead m upset s) := by
  unfold scrubRead
  repeat' first
    | with_reducible assumption
    | with_reducible exact Keeps.refl _ _ _
    | (extract_lets +onlyGivenNames y
       refine have hy : Keeps everyArea [] s y := ?_; ?_
       (unfold y; clear y)
       rotate_left
       clear_value y)
    | (extract_lets +onlyGivenNames y)
    | with_reducible refine (modMem_keeps (hf := by exact fun _ h => h) ..).then_all ?_
    | with_reducible refine (evictAt_keeps ..).then_all ?_
    | with_reducible refine (scrubWord_keeps ..).then_all ?_
    | with_reducible refine (upsetWord_keeps ..).then_all ?_
    | with_reducible refine (codeCheck_sound ..).then_all ?_
    | with_reducible refine keeps_ite ?_ ?_
    | split
    | with_reducible refine keeps_mk_all rfl rfl List.prefix_rfl Sound.parts ?_

theorem writeOne_sound (obj index : Nat) (vals : List Word) (s : State) : Keeps everyArea [] s (writeOne obj index vals s) := by
  unfold writeOne
  repeat' first
    | with_reducible assumption
    | with_reducible exact Keeps.refl _ _ _
    | (extract_lets +onlyGivenNames y
       refine have hy : Keeps everyArea [] s y := ?_; ?_
       (unfold y; clear y)
       rotate_left
       clear_value y)
    | (extract_lets +onlyGivenNames y)
    | with_reducible refine (localReq_sound ..).then_all ?_
    | with_reducible refine (deliver_keeps ..).then_all ?_
    | split
    | with_reducible refine keeps_of_eq (by assumption) ?_
    | with_reducible refine keeps_mk_all rfl rfl List.prefix_rfl Sound.parts ?_

theorem writeBit_sound (obj index bit : Nat) (on : Bool) (s : State) : Keeps everyArea [] s (writeBit obj index bit on s) := by
  unfold writeBit
  repeat' first
    | with_reducible assumption
    | with_reducible exact Keeps.refl _ _ _
    | with_reducible refine (writeOne_sound ..).then_all ?_
    | split
    | with_reducible refine keeps_mk_all rfl rfl List.prefix_rfl Sound.parts ?_

theorem writeHeld_sound (bit : Nat) (on : Bool) (s : State) : Keeps everyArea [] s (writeHeld bit on s) := by
  unfold writeHeld
  repeat' first
    | with_reducible assumption
    | with_reducible exact Keeps.refl _ _ _
    | with_reducible refine (writeOne_sound ..).then_all ?_
    | split
    | with_reducible refine keeps_mk_all rfl rfl List.prefix_rfl Sound.parts ?_

theorem forcedExit_sound (s : State) : Keeps everyArea [] s (forcedExit s) := by
  unfold forcedExit
  extract_lets winter s1
  have h1 : Keeps everyArea [] s s1 := (saveAbandon_keeps ..).then_all ((calDrop_keeps ..).then_all ((forceIdle_keeps ..).then_all
    ((allOff_keeps ..).then_all (Keeps.refl _ _ _))))
  clear_value s1
  have h2 : Keeps everyArea [] s (dropReady s1) := (dropReady_keeps ..).then_all h1
  exact keeps_ite (Keeps.refl _ _ _) (keeps_ite ((enterWinter_sound ..).then_all h2)
    (keeps_setN_any (by decide) ((enterThaw_sound _ _ (fun _ => thawKeep_sound ..)).then_all h2)))

theorem keepRails_sound (old s : State) : Keeps everyArea [] s (keepRails old s) := by
  unfold keepRails
  exact keeps_forEach (fun _ _ h => keeps_setN_any (by decide) h) (keeps_setN_any (by decide) (Keeps.refl _ _ _))

theorem wholeReset_sound (power : Bool) (s : State) : Keeps everyArea [] s (wholeReset power s) := by
  unfold wholeReset
  extract_lets r s1 c0 p0 s2
  have h1 : Keeps everyArea [] s s1 := (saveAbandon_keeps ..).then_all (Keeps.refl _ _ _)
  clear_value s1
  have h2 : Keeps everyArea [] s s2 := by
    unfold s2
    exact keeps_mk_all (x := s1) rfl rfl List.prefix_rfl (fun _ => ⟨reset_mems, reset_values, reset_events⟩) h1
  clear_value s2
  exact keeps_ite h2 ((keepRails_sound ..).then_all h2)

theorem release_sound (strap : Fin 4) (cause : Nat) (s : State) : Keeps everyArea [] s (release strap cause s) := by
  unfold release
  extract_lets old p0 s1 s2 s3
  have h1 : Keeps everyArea [] s s1 := by
    unfold s1
    exact keeps_mk_all (x := s) rfl rfl List.prefix_rfl (fun h => ⟨h.1, h.2.1, reset_events⟩) (Keeps.refl _ _ _)
  clear_value s1
  have h2 : Keeps everyArea [] s s2 := (thawReload_sound ..).then_all (keeps_setN_any (by decide) h1)
  clear_value s2
  have h3 : Keeps everyArea [] s s3 := keeps_ite ((keepRails_sound ..).then_all h2) h2
  clear_value s3
  exact keeps_mk_all (x := s3) rfl rfl List.prefix_rfl Sound.parts h3

theorem saveEnd_sound (ok : Bool) (s : State) : Keeps everyArea [] s (saveEnd ok s) := by
  unfold saveEnd
  repeat' first
    | with_reducible assumption
    | with_reducible exact Keeps.refl _ _ _
    | (extract_lets +onlyGivenNames y
       refine have hy : Keeps everyArea [] s y := ?_; ?_
       (unfold y; clear y)
       rotate_left
       clear_value y)
    | (extract_lets +onlyGivenNames y)
    | with_reducible refine (setBoot_keeps ..).then_all ?_
    | with_reducible refine (saveStart_keeps ..).then_all ?_
    | with_reducible refine (saveFail_keeps ..).then_all ?_
    | with_reducible refine (autumnStep4_sound ..).then_all ?_
    | with_reducible refine keeps_setN_any (by decide) ?_
    | with_reducible refine keeps_ite ?_ ?_
    | split
    | with_reducible refine keeps_mk_all rfl rfl List.prefix_rfl Sound.parts ?_

theorem wakeCause_sound (bit : Nat) (s : State) : Keeps everyArea [] s (wakeCause bit s) := by
  unfold wakeCause
  repeat' first
    | with_reducible assumption
    | with_reducible exact Keeps.refl _ _ _
    | with_reducible refine (wakeUp_sound ..).then_all ?_
    | with_reducible refine keeps_crossing (by decide) (fun _ _ => ?_) ?_
    | with_reducible refine keeps_ite ?_ ?_
    | split
    | with_reducible refine keeps_mk_all rfl rfl List.prefix_rfl Sound.parts ?_

theorem d2dFault_sound (cause : Nat) (s : State) : Keeps everyArea [] s (d2dFault cause s) := by
  unfold d2dFault
  repeat' first
    | with_reducible assumption
    | with_reducible exact Keeps.refl _ _ _
    | with_reducible refine (allOff_keeps ..).then_all ?_
    | with_reducible refine (forcedExit_sound ..).then_all ?_
    | with_reducible refine raise_all ?_
    | split
    | with_reducible refine keeps_mk_all rfl rfl List.prefix_rfl Sound.parts ?_

theorem access_sound (q : Req) (s : State) : Keeps everyArea [] s (access q s) := by
  unfold access
  repeat' first
    | with_reducible assumption
    | with_reducible exact Keeps.refl _ _ _
    | with_reducible refine (startAccess_sound ..).then_all ?_
    | with_reducible refine (deliver_keeps ..).then_all ?_
    | split
    | with_reducible refine keeps_of_eq (by assumption) ?_
    | with_reducible refine keeps_mk_all rfl rfl List.prefix_rfl Sound.parts ?_

theorem headStatus_sound (h : Nat) (ws : List Word) (eofOk : Bool) (s : State) : Keeps everyArea [] s (headStatus h ws eofOk s) := by
  unfold headStatus
  repeat' first
    | with_reducible assumption
    | with_reducible exact Keeps.refl _ _ _
    | (extract_lets +onlyGivenNames y
       refine have hy : Keeps everyArea [] s y := ?_; ?_
       (unfold y; clear y)
       rotate_left
       clear_value y)
    | (extract_lets +onlyGivenNames y)
    | with_reducible refine (modLink_keeps ..).then_all ?_
    | with_reducible refine (pumpHead_keeps ..).then_all ?_
    | with_reducible refine (idleCheck_sound ..).then_all ?_
    | with_reducible refine (bankReload_keeps ..).then_all ?_
    | with_reducible refine (crcCount_keeps ..).then_all ?_
    | with_reducible refine (tempReport_keeps ..).then_all ?_
    | with_reducible refine (faultReport_keeps ..).then_all ?_
    | with_reducible refine (statusLink_keeps ..).then_all ?_
    | with_reducible refine keeps_ite ?_ ?_
    | split
    | with_reducible refine keeps_mk_all rfl rfl List.prefix_rfl Sound.parts ?_

theorem servoCycle_sound (s : State) : Keeps everyArea [] s (servoCycle s) := by
  unfold servoCycle
  repeat' first
    | with_reducible assumption
    | with_reducible exact Keeps.refl _ _ _
    | (extract_lets +onlyGivenNames y
       refine have hy : Keeps everyArea [] s y := ?_; ?_
       (unfold y; clear y)
       rotate_left
       clear_value y)
    | (extract_lets +onlyGivenNames y)
    | with_reducible refine (posTouch_keeps ..).then_all ?_
    | with_reducible refine (capCheck_sound ..).then_all ?_
    | with_reducible refine (hareCycle_keeps ..).then_all ?_
    | with_reducible refine (axisCycle_keeps ..).then_all ?_
    | with_reducible refine (auxSend_keeps ..).then_all ?_
    | with_reducible refine keeps_forEach (fun _ _ _ => ?_) ?_
    | with_reducible refine keeps_ite ?_ ?_
    | split
    | with_reducible refine keeps_mk_all rfl rfl List.prefix_rfl Sound.parts ?_

theorem laneLost_sound (i cause errors : Nat) (s : State) : Keeps everyArea [] s (laneLost i cause errors s) := by
  unfold laneLost
  repeat' first
    | with_reducible assumption
    | with_reducible exact Keeps.refl _ _ _
    | (extract_lets +onlyGivenNames y
       refine have hy : Keeps everyArea [] s y := ?_; ?_
       (unfold y; clear y)
       rotate_left
       clear_value y)
    | (extract_lets +onlyGivenNames y)
    | with_reducible refine (modLane_keeps ..).then_all ?_
    | with_reducible refine (lockDrop_keeps ..).then_all ?_
    | with_reducible refine (laneGone_sound ..).then_all ?_
    | with_reducible refine bump_all ?_
    | with_reducible refine keeps_ite ?_ ?_
    | split
    | with_reducible refine keeps_mk_all rfl rfl List.prefix_rfl Sound.parts ?_

theorem romDone_sound (romOk patchOk : Bool) (s : State) : Keeps everyArea [] s (romDone romOk patchOk s) := by
  unfold romDone
  repeat' first
    | with_reducible assumption
    | with_reducible exact Keeps.refl _ _ _
    | (extract_lets +onlyGivenNames y
       refine have hy : Keeps everyArea [] s y := ?_; ?_
       (unfold y; clear y)
       rotate_left
       clear_value y)
    | (extract_lets +onlyGivenNames y)
    | with_reducible refine (codeRestart_sound ..).then_all ?_
    | with_reducible refine (selfResult_keeps ..).then_all ?_
    | with_reducible refine keeps_ite ?_ ?_
    | split
    | with_reducible refine keeps_mk_all rfl rfl List.prefix_rfl Sound.parts ?_

theorem calRunDone_sound (item target : Nat) (first second : List Int) (s : State) : Keeps everyArea [] s (calRunDone item target first second s) := by
  unfold calRunDone
  repeat' first
    | with_reducible assumption
    | with_reducible exact Keeps.refl _ _ _
    | (extract_lets +onlyGivenNames y
       refine have hy : Keeps everyArea [] s y := ?_; ?_
       (unfold y; clear y)
       rotate_left
       clear_value y)
    | (extract_lets +onlyGivenNames y)
    | with_reducible refine (tileFail_keeps ..).then_all ?_
    | with_reducible refine (modCal_keeps ..).then_all ?_
    | with_reducible refine (delayDone_keeps ..).then_all ?_
    | with_reducible refine (adcDone_keeps ..).then_all ?_
    | with_reducible refine (selfResult_keeps ..).then_all ?_
    | with_reducible refine (romDone_sound ..).then_all ?_
    | with_reducible refine (marchDone_keeps ..).then_all ?_
    | with_reducible refine (comparatorDone_keeps ..).then_all ?_
    | with_reducible refine keeps_ite ?_ ?_
    | split
    | with_reducible refine keeps_mk_all rfl rfl List.prefix_rfl Sound.parts ?_

theorem bitUp_sound (b : Nat) (s : State) : Keeps everyArea [] s (bitUp b s) := by
  unfold bitUp
  repeat' first
    | with_reducible assumption
    | with_reducible exact Keeps.refl _ _ _
    | (extract_lets +onlyGivenNames y
       refine have hy : Keeps everyArea [] s y := ?_; ?_
       (unfold y; clear y)
       rotate_left
       clear_value y)
    | (extract_lets +onlyGivenNames y)
    | with_reducible refine (freeRun_keeps ..).then_all ?_
    | with_reducible refine (laneReady_keeps ..).then_all ?_
    | with_reducible refine (screenRun_keeps ..).then_all ?_
    | with_reducible refine (settle_keeps ..).then_all ?_
    | with_reducible refine (hpcReady_keeps ..).then_all ?_
    | with_reducible refine (headLaneFollow_keeps ..).then_all ?_
    | with_reducible refine (injectAll_keeps ..).then_all ?_
    | with_reducible refine (calReady_keeps ..).then_all ?_
    | with_reducible refine (firmwareUp_keeps ..).then_all ?_
    | with_reducible refine (auxReady_keeps ..).then_all ?_
    | with_reducible refine keeps_setN_any (by decide) ?_
    | with_reducible refine keeps_setUp (by decide) ?_
    | with_reducible refine keeps_forEach (fun _ _ _ => ?_) ?_
    | with_reducible refine keeps_whenB (fun _ _ => ?_) ?_
    | with_reducible refine keeps_ite ?_ ?_
    | split
    | with_reducible refine keeps_mk_all rfl rfl List.prefix_rfl Sound.parts ?_

theorem restoreCandidate_sound (img : Store) (s : State) : Keeps everyArea [] s (restoreCandidate img s) := by
  unfold restoreCandidate
  repeat' first
    | with_reducible assumption
    | with_reducible exact Keeps.refl _ _ _
    | (extract_lets +onlyGivenNames y
       refine have hy : Keeps everyArea [] s y := ?_; ?_
       (unfold y; clear y)
       rotate_left
       clear_value y)
    | (extract_lets +onlyGivenNames y)
    | with_reducible refine (encEnable_keeps ..).then_all ?_
    | with_reducible refine (imageSet_keeps ..).then_all ?_
    | with_reducible refine keeps_forEach (fun _ _ _ => ?_) ?_
    | split
    | with_reducible refine keeps_mk_all rfl rfl List.prefix_rfl Sound.parts ?_

theorem restoreElem_sound (p : Nat × Elem) (s : State) : Keeps everyArea [] s (restoreElem p s) := by
  unfold restoreElem
  repeat' first
    | with_reducible assumption
    | with_reducible exact Keeps.refl _ _ _
    | (extract_lets +onlyGivenNames y
       refine have hy : Keeps everyArea [] s y := ?_; ?_
       (unfold y; clear y)
       rotate_left
       clear_value y)
    | (extract_lets +onlyGivenNames y)
    | with_reducible refine (putCell_keeps ..).then_all ?_
    | with_reducible refine (elemApply_sound ..).then_all ?_
    | with_reducible refine keeps_setE_any (by decide) ?_
    | with_reducible refine keeps_setShadow (by decide) ?_
    | with_reducible refine keeps_ite ?_ ?_
    | split
    | with_reducible refine keeps_mk_all rfl rfl List.prefix_rfl Sound.parts ?_

theorem restoreDo_sound (s : State) : Keeps everyArea [] s (restoreDo s) := by
  unfold restoreDo
  repeat' first
    | with_reducible assumption
    | with_reducible exact Keeps.refl _ _ _
    | (extract_lets +onlyGivenNames y
       refine have hy : Keeps everyArea [] s y := ?_; ?_
       (unfold y; clear y)
       rotate_left
       clear_value y)
    | (extract_lets +onlyGivenNames y)
    | with_reducible refine (geomFollow_keeps ..).then_all ?_
    | with_reducible refine (setBoot_keeps ..).then_all ?_
    | with_reducible refine (restoreCandidate_sound ..).then_all ?_
    | with_reducible refine (restoreElem_sound ..).then_all ?_
    | with_reducible refine (restoreReq_keeps ..).then_all ?_
    | with_reducible refine (calLoaded_keeps ..).then_all ?_
    | with_reducible refine keeps_forEach (fun _ _ _ => ?_) ?_
    | with_reducible refine keeps_ite ?_ ?_
    | split
    | with_reducible refine keeps_mk_all rfl rfl List.prefix_rfl Sound.parts ?_

theorem flashDiscoveredDo_sound (answers : Bool) (s : State) : Keeps everyArea [] s (flashDiscoveredDo answers s) := by
  unfold flashDiscoveredDo
  repeat' first
    | with_reducible assumption
    | with_reducible exact Keeps.refl _ _ _
    | (extract_lets +onlyGivenNames y
       refine have hy : Keeps everyArea [] s y := ?_; ?_
       (unfold y; clear y)
       rotate_left
       clear_value y)
    | (extract_lets +onlyGivenNames y)
    | with_reducible refine (setBoot_keeps ..).then_all ?_
    | with_reducible refine (calReady_keeps ..).then_all ?_
    | with_reducible refine (restoreDo_sound ..).then_all ?_
    | with_reducible refine keeps_setUp (by decide) ?_
    | with_reducible refine keeps_whenB (fun _ _ => ?_) ?_
    | with_reducible refine keeps_ite ?_ ?_
    | split
    | with_reducible refine keeps_mk_all rfl rfl List.prefix_rfl Sound.parts ?_

end Sys2Proof.Machine
end

