-- ==== Sys2Proof/Laws/Accept.lean ====
section
/-! SUPPORT. A plain write of one element by the command that stands for it: accepted, it replies with code 0 after its
effect; refused, it replies with the first code. -/

set_option Elab.async false
set_option linter.all false

namespace Sys2Proof.Machine

open Sys2Proof

theorem contains_false_of_zero {l : List Nat} (h : ∀ c ∈ l, c = 0) {k : Nat} (hk : k ≠ 0) : l.contains k = false := by
  rw [Bool.eq_false_iff]
  intro e
  exact hk (h k (List.contains_iff_mem.mp e))

/-- With no code that applies there is none. -/
theorem firstAbort_zero {l : List Nat} (h : ∀ c ∈ l, c = 0) : firstAbort l = 0 := by
  unfold firstAbort
  have : abortOrder.find? (fun c => l.contains c) = none := by
    rw [List.find?_eq_none]
    intro c hc
    have : c ≠ 0 := by
      simp only [abortOrder, List.mem_cons, List.not_mem_nil, or_false] at hc
      omega
    rw [contains_false_of_zero h this]
    decide
  rw [this]
  rfl

/-- The first of the codes that apply. -/
theorem firstAbort_eq {l before after : List Nat} {c : Nat} (ho : abortOrder = before ++ c :: after) (hc : c ∈ l)
    (hp : ∀ x ∈ before, x ∉ l) : firstAbort l = c := by
  unfold firstAbort
  have : abortOrder.find? (fun x => l.contains x) = some c := by
    rw [List.find?_eq_some_iff_append]
    exact ⟨by simpa using hc, before, after, ho, fun x hx => by simpa using hp x hx⟩
  rw [this]
  rfl

theorem whenCode_cases (b : Bool) (code : Nat) : whenCode b code = 0 ∨ whenCode b code = code := by
  cases b <;> simp [whenCode]

/-- What the gate and an open page may answer: 0x07. -/
theorem gate_codes (d : ObjDef) (w sh : Bool) (s : State) :
    ∀ c ∈ pageAbortCode d s :: gateAborts d w sh s, c = 0 ∨ c = 0x07 := by
  intro c hc
  simp only [gateAborts, pageAbortCode, List.mem_cons, List.not_mem_nil, or_false] at hc
  rcases hc with h | h | h <;> (rw [h]; exact whenCode_cases ..)

/-- The element that one word or a pair of words spells. -/
theorem elemsOf_one (w : Word) : elemsOf 1 [w] = [BitVec.ofNat 72 w.toNat] := rfl
theorem elemsOf_two (w0 w1 : Word) : elemsOf 2 [w0, w1] = [BitVec.ofNat 72 (w0.toNat * 2 ^ 36 + w1.toNat)] := rfl

/-- The reply to an accepted plain write. -/
theorem deliver_ok (q : Req) (ho : q.op = 1) (s : State) : deliver none 1 (replyWords q (badReply 0)) s = emit (.reply 0 []) s := by
  have hb : b2n q.shadow ≤ 1 := by cases q.shadow <;> decide
  have h8 : fld (wd (8 % 16 * 2 ^ 32 + b2n q.shadow * 2 ^ 31 + q.slot % 128 * 2 ^ 24 + q.handle % 4 * 2 ^ 22 + q.tag % 65536)) 35 32
      ≠ 9 := by
    simp only [fld, wd, BitVec.toNat_ofNat]
    omega
  unfold deliver replyWords badReply
  simp only [ne_eq, not_true_eq_false, if_false, ho, recordHead, at?]
  rw [if_neg (by exact h8)]
  rfl

/-- A range of one element that nothing refuses is written. -/
theorem writeRange_one {d : ObjDef} {base : List Nat} {i : Nat} {e : Elem} {s : State}
    (h : firstAbort (base ++ elemAborts d i e s) = 0) :
    writeRange d base i [e] s = (0, elemApply d i (maskElem d e) (ramWrite d i (maskElem d e) s)) := by
  have hf : firstRefused d base s i [e] = none := by
    unfold firstRefused
    rw [h]
    rfl
  unfold writeRange
  rw [hf]
  rfl

/-- A range of one element that is refused. -/
theorem writeRange_refused {d : ObjDef} {base : List Nat} {i code : Nat} {e : Elem} {s : State}
    (h : firstAbort (base ++ elemAborts d i e s) = code) (h0 : code ≠ 0) :
    writeRange d base i [e] s = (code, elemRefused d i code e s) := by
  have hf : firstRefused d base s i [e] = some (code, i, e) := by
    unfold firstRefused
    rw [h]
    exact if_pos h0
  unfold writeRange
  rw [hf]

/-- An accepted write of one element: its effect, then the reply. -/
theorem writeOne_accepted {obj i : Nat} {vals : List Word} {s : State} {d : ObjDef} {e : Elem} (hd : findObj obj = some d)
    (he : elemsOf d.wordsPer vals = [e]) (h : Accepted obj i vals s) :
    writeOne obj i vals s
      = emit (.reply 0 []) (codeCheck (elemApply d i (maskElem d e) (ramWrite d i (maskElem d e) s))) := by
  unfold Accepted writeCodes at h
  rw [hd] at h
  simp only [he] at h
  have h0 : firstAbort (plainAborts d true i 1 ++ [whenCode (vals.length != 1 * d.wordsPer) 0x05]) = 0 := by
    refine firstAbort_zero (fun c hc => h c (List.mem_append_left _ ?_))
    rwa [Nat.one_mul] at hc
  have h1 : firstAbort ((pageAbortCode d s :: gateAborts d true false s) ++ elemAborts d i e s) = 0 :=
    firstAbort_zero (fun c hc => h c (List.mem_append_right _ hc))
  unfold writeOne localReq
  dsimp only
  unfold plainWrite
  simp only [hd]
  rw [h0]
  simp only [ne_eq, not_true_eq_false, if_false]
  rw [he, writeRange_one h1]
  exact deliver_ok _ rfl _

/-- An accepted plain write of one element at this device: its effect, then the reply. -/
theorem write_accepted {slot obj i : Nat} {vals : List Word} {s : State} {d : ObjDef} {e : Elem} (hs : routeOf slot s = .here)
    (hd : findObj obj = some d) (he : elemsOf d.wordsPer vals = [e]) (h : Accepted obj i vals s) :
    access (reqOf 1 { slot := slot, obj := obj, index := i, count := 1, shadow := false } vals) s
      = emit (.reply 0 []) (codeCheck (elemApply d i (maskElem d e) (ramWrite d i (maskElem d e) s))) := by
  unfold Accepted writeCodes at h
  rw [hd] at h
  simp only [he] at h
  have h0 : firstAbort (plainAborts d true i 1 ++ [whenCode (vals.length != 1 * d.wordsPer) 0x05]) = 0 := by
    refine firstAbort_zero (fun c hc => h c (List.mem_append_left _ ?_))
    rwa [Nat.one_mul] at hc
  have h1 : firstAbort ((pageAbortCode d s :: gateAborts d true false s) ++ elemAborts d i e s) = 0 :=
    firstAbort_zero (fun c hc => h c (List.mem_append_right _ hc))
  unfold access startAccess
  have hr : routeOf (reqOf 1 { slot := slot, obj := obj, index := i, count := 1, shadow := false } vals).slot s = .here := hs
  rw [hr]
  dsimp only
  unfold localReq reqOf
  dsimp only
  unfold plainWrite
  simp only [hd]
  rw [h0]
  simp only [ne_eq, not_true_eq_false, if_false]
  rw [he, writeRange_one h1]
  exact deliver_ok _ rfl _

/-- A command that stands for a plain write, accepted: it answers what its effect and the reply leave. -/
theorem answers_write {c : Instr} {t obj i : Nat} {vals : List Word} {s : State} {d : ObjDef} {e : Elem} {P : State → Prop}
    (hx : exec c s = happen t (writeOne obj i vals) s) (hd : findObj obj = some d) (he : elemsOf d.wordsPer vals = [e])
    (ha : awake s = true) (h : Accepted obj i vals (advance t s))
    (hp : ∀ x, Keeps [.ev, .mem] [Obj.eventLost, Obj.flipCtrl] (advance t s) x →
      P (settle (emit (.reply 0 []) (codeCheck (elemApply d i (maskElem d e) x))))) : Answers c s P :=
  answers_happen hx ha (by rw [writeOne_accepted hd he h]; exact hp _ (ramWrite_keeps ..))

/-- The reply to a refused access. -/
theorem deliver_refused (q : Req) (op : Nat) {code : Nat} (h0 : code ≠ 0) (h1 : code < 256) (s : State) :
    deliver none op (replyWords q (badReply code)) s = emit (.reply code []) s := by
  have hb : b2n q.shadow ≤ 1 := by cases q.shadow <;> decide
  have h9 : fld (wd (9 % 16 * 2 ^ 32 + b2n q.shadow * 2 ^ 31 + q.slot % 128 * 2 ^ 24 + q.handle % 4 * 2 ^ 22 + q.tag % 65536)) 35 32
      = 9 := by
    simp only [fld, wd, BitVec.toNat_ofNat]
    omega
  have hc : fld (wd code) 7 0 = code := by
    simp only [fld, wd, BitVec.toNat_ofNat]
    omega
  unfold deliver replyWords badReply
  simp only [ne_eq, h0, not_false_eq_true, if_true, recordHead]
  rw [if_pos (by exact h9)]
  simp only [at?]
  show emit (.reply (fld (wd code) 7 0) []) s = _
  rw [hc]

/-- A plain access that is refused at this device. -/
theorem access_refused {q : Req} {s x : State} {code : Nat} (hr : routeOf q.slot s = .here) (h : localReq q s = (badReply code, x))
    (h0 : code ≠ 0) (h1 : code < 256) : access q s = emit (.reply code []) x := by
  unfold access startAccess
  rw [hr]
  dsimp only
  rw [h]
  exact deliver_refused q q.op h0 h1 x

/-- A command whose effect is that reply alone. -/
theorem refuses_of {c : Instr} {t : Nat} {f : State → State} {s : State} {code : Nat} (ht : c.tick = t)
    (hx : exec c s = happen t f s) (ha : awake s = true) (hf : f (advance t s) = emit (.reply code []) (advance t s)) :
    Refuses c s code := by
  subst ht
  refine answers_happen hx ha ?_
  rw [hf]
  refine ⟨by unfold Sends; rw [settle_sent]; rfl, Keeps.frame (keeps_emit' (by decide) (Keeps.refl _ _ _))⟩

/-- Every access to slot 0 is carried out at the device that it reaches. -/
@[simp] theorem routeOf_zero (s : State) : routeOf 0 s = .here := by
  unfold routeOf
  split <;> first | rfl | simp

/-- A plain read that is refused. -/
theorem read_refused {a : Access} {s : State} {d : ObjDef} {code : Nat} (hr : routeOf a.slot s = .here) (hd : findObj a.obj = some d)
    (hc : firstAbort (plainAborts d false a.index a.count ++ gateAborts d false a.shadow s) = code) (h0 : code ≠ 0)
    (h1 : code < 256) (he : s.pwr.codeError = false) : access (reqOf 0 a []) s = emit (.reply code []) s := by
  refine access_refused hr ?_ h0 h1
  unfold localReq reqOf
  dsimp only
  unfold plainRead
  simp only [hd, hc]
  rw [if_pos h0, codeCheck_off he]

/-- A plain write that does not fit its object. -/
theorem write_refused {a : Access} {vals : List Word} {s : State} {d : ObjDef} {code : Nat} (hr : routeOf a.slot s = .here)
    (hd : findObj a.obj = some d)
    (hc : firstAbort (plainAborts d true a.index a.count ++ [whenCode (vals.length != a.count * d.wordsPer) 0x05]) = code)
    (h0 : code ≠ 0) (h1 : code < 256) (he : s.pwr.codeError = false) :
    access (reqOf 1 a vals) s = emit (.reply code []) s := by
  refine access_refused hr ?_ h0 h1
  unfold localReq reqOf
  dsimp only
  unfold plainWrite
  simp only [hd, hc]
  rw [if_pos h0, codeCheck_off he]

/-- An access to an object that is not defined. -/
theorem undefined_refused {q : Req} {s : State} (hr : routeOf q.slot s = .here) (ho : q.op < 4) (hd : findObj q.obj = none)
    (he : s.pwr.codeError = false) : access q s = emit (.reply 0x01 []) s := by
  refine access_refused hr ?_ (by decide) (by decide)
  obtain ⟨op, sh, sl, ha, tag, obj, ix, ct, data⟩ := q
  simp only at ho hd
  unfold localReq
  dsimp only
  have : op = 0 ∨ op = 1 ∨ op = 2 ∨ op = 3 := by omega
  rcases this with rfl | rfl | rfl | rfl
  · unfold plainRead; simp only [hd]; rw [codeCheck_off he]
  · unfold plainWrite; simp only [hd]; rw [codeCheck_off he]
  · unfold openBlock; simp only [hd]; rw [codeCheck_off he]
  · unfold openBlock; simp only [hd]; rw [codeCheck_off he]

/-- A plain write of one element whose value is refused, without a trace but its reply. -/
theorem write_value_refused {slot obj i : Nat} {vals : List Word} {s : State} {d : ObjDef} {e : Elem} {code : Nat}
    (hs : routeOf slot s = .here) (hd : findObj obj = some d) (he : elemsOf d.wordsPer vals = [e])
    (hf : firstAbort (plainAborts d true i 1 ++ [whenCode (vals.length != 1 * d.wordsPer) 0x05]) = 0)
    (hc : firstAbort ((pageAbortCode d s :: gateAborts d true false s) ++ elemAborts d i e s) = code) (h0 : code ≠ 0)
    (h1 : code < 256) (hr : elemRefused d i code e s = s) (hx : s.pwr.codeError = false) :
    access (reqOf 1 { slot := slot, obj := obj, index := i, count := 1, shadow := false } vals) s = emit (.reply code []) s := by
  refine access_refused hs ?_ h0 h1
  unfold localReq reqOf
  dsimp only
  unfold plainWrite
  simp only [hd]
  rw [hf]
  simp only [ne_eq, not_true_eq_false, if_false]
  rw [he, writeRange_refused hc h0]
  dsimp only
  rw [hr, codeCheck_off hx]

/-- A command that stands for a plain write of one element, refused without a trace but its reply. -/
theorem writeOne_refused {obj i : Nat} {vals : List Word} {s : State} {d : ObjDef} {e : Elem} {code : Nat}
    (hd : findObj obj = some d) (he : elemsOf d.wordsPer vals = [e])
    (hf : firstAbort (plainAborts d true i 1 ++ [whenCode (vals.length != 1 * d.wordsPer) 0x05]) = 0)
    (hc : firstAbort ((pageAbortCode d s :: gateAborts d true false s) ++ elemAborts d i e s) = code) (h0 : code ≠ 0)
    (h1 : code < 256) (hr : elemRefused d i code e s = s) (hx : s.pwr.codeError = false) :
    writeOne obj i vals s = emit (.reply code []) s := by
  unfold writeOne localReq
  dsimp only
  unfold plainWrite
  simp only [hd]
  rw [hf]
  simp only [ne_eq, not_true_eq_false, if_false]
  rw [he, writeRange_refused hc h0]
  dsimp only
  rw [hr, codeCheck_off hx]
  exact deliver_refused _ _ h0 h1 s

/-- What an accepted write does not meet: a refusal for the state of the device. -/
theorem accepted_state {obj i : Nat} {vals : List Word} {s : State} {d : ObjDef} {e : Elem} (h : Accepted obj i vals s)
    (hd : findObj obj = some d) (he : elemsOf d.wordsPer vals = [e]) : ∀ c ∈ stateAborts d.id i (maskElem d e) s, c = 0 := by
  unfold Accepted writeCodes at h
  rw [hd] at h
  simp only [he] at h
  intro c hc
  have h1 : ∀ c ∈ elemAborts d i e s, c = 0 := fun c hc => h c (List.mem_append_right _ (List.mem_append_right _ hc))
  unfold elemAborts at h1
  split at h1
  · exact absurd (h1 _ List.mem_cons_self) (by decide)
  · exact h1 c (List.mem_cons_of_mem _ (List.mem_cons_of_mem _ hc))

/-- An RWI object is written with no page in progress. -/
theorem accepted_page {obj i : Nat} {vals : List Word} {s : State} {d : ObjDef} (h : Accepted obj i vals s)
    (hd : findObj obj = some d) : pageAbortCode d s = 0 := by
  unfold Accepted writeCodes at h
  rw [hd] at h
  exact h _ (List.mem_append_right _ (List.mem_append_left _ List.mem_cons_self))

end Sys2Proof.Machine
end

