-- ==== Sys2Proof/Laws/Commands.lean ====
section
/-! SUPPORT. What each command keeps whatever it does: what was sound is sound, the queue of commands is as it was, the
tick is the command's, and what has left the device has left it. -/

set_option Elab.async false
set_option linter.all false

namespace Sys2Proof.Machine

open Sys2Proof

set_option linter.tactic.unusedName false

theorem execRailOutOfRange_keeps {t : Nat} {rail : Rail} {mv : Nat} {s u : State} (h : execRailOutOfRange t rail mv s = .next u) : Keeps everyArea [] (advance t s) u := by
  refine happenAlways_keeps (fun s => ?_) h
  repeat' first
    | with_reducible assumption
    | with_reducible exact Keeps.refl _ _ _
    | (extract_lets +onlyGivenNames y
       refine have hy : Keeps everyArea [] s y := ?_; ?_
       (unfold y; clear y)
       rotate_left
       clear_value y)
    | (extract_lets +onlyGivenNames y)
    | with_reducible refine (forcedExit_sound ..).then_all ?_
    | with_reducible refine raise_all ?_
    | with_reducible refine keeps_setN_any (by decide) ?_
    | with_reducible refine keeps_ite ?_ ?_
    | split
    | with_reducible refine keeps_of_eq (by assumption) ?_
    | with_reducible refine keeps_mk_all rfl rfl List.prefix_rfl Sound.parts ?_

theorem execPowerOnReset_keeps {t : Nat} {s u : State} (h : execPowerOnReset t s = .next u) : Keeps everyArea [] (advance t s) u :=
  happenAlways_keeps (fun _ => wholeReset_sound ..) h

theorem execPowerOnRelease_keeps {t : Nat} {strap : Fin 4} {s u : State} (h : execPowerOnRelease t strap s = .next u) : Keeps everyArea [] (advance t s) u := by
  refine happenAlways_keeps (fun s => ?_) h
  repeat' first
    | with_reducible assumption
    | with_reducible exact Keeps.refl _ _ _
    | with_reducible refine (wholeReset_sound ..).then_all ?_
    | with_reducible refine (release_sound ..).then_all ?_
    | split
    | with_reducible refine keeps_of_eq (by assumption) ?_
    | with_reducible refine keeps_mk_all rfl rfl List.prefix_rfl Sound.parts ?_

theorem execResetNLow_keeps {t : Nat} {s u : State} (h : execResetNLow t s = .next u) : Keeps everyArea [] (advance t s) u := by
  refine happenAlways_keeps (fun s => ?_) h
  repeat' first
    | with_reducible assumption
    | with_reducible exact Keeps.refl _ _ _
    | with_reducible refine (wholeReset_sound ..).then_all ?_
    | split
    | with_reducible refine keeps_of_eq (by assumption) ?_
    | with_reducible refine keeps_mk_all rfl rfl List.prefix_rfl Sound.parts ?_

theorem execResetNHigh_keeps {t : Nat} {strap : Fin 4} {s u : State} (h : execResetNHigh t strap s = .next u) : Keeps everyArea [] (advance t s) u := by
  refine happenAlways_keeps (fun s => ?_) h
  repeat' first
    | with_reducible assumption
    | with_reducible exact Keeps.refl _ _ _
    | with_reducible refine (release_sound ..).then_all ?_
    | with_reducible refine keeps_ite ?_ ?_
    | split
    | with_reducible refine keeps_of_eq (by assumption) ?_
    | with_reducible refine keeps_mk_all rfl rfl List.prefix_rfl Sound.parts ?_

theorem execWatchdogTimeout_keeps {t : Nat} {s u : State} (h : execWatchdogTimeout t s = .next u) : Keeps everyArea [] (advance t s) u :=
  happen_keeps (fun _ => codeRestart_sound ..) h

theorem execWakePin_keeps {t : Nat} {s u : State} (h : execWakePin t s = .next u) : Keeps everyArea [] (advance t s) u :=
  happenAlways_keeps (fun _ => wakeCause_sound ..) h

theorem execWakePattern_keeps {t : Nat} {port : RingPort} {s u : State} (h : execWakePattern t port s = .next u) : Keeps everyArea [] (advance t s) u :=
  happenAlways_keeps (fun _ => wakeCause_sound ..) h

theorem execWakeRelay_keeps {t : Nat} {port : RingPort} {s u : State} (h : execWakeRelay t port s = .next u) : Keeps everyArea [] (advance t s) u := by
  refine happen_keeps (fun s => ?_) h
  repeat' first
    | with_reducible assumption
    | with_reducible exact Keeps.refl _ _ _
    | with_reducible refine (wakeRun_keeps ..).then_all ?_
    | with_reducible refine keeps_ite ?_ ?_
    | split
    | with_reducible refine keeps_of_eq (by assumption) ?_
    | with_reducible refine keeps_mk_all rfl rfl List.prefix_rfl Sound.parts ?_

theorem execDomainsPowered_keeps {t : Nat} {s u : State} (h : execDomainsPowered t s = .next u) : Keeps everyArea [] (advance t s) u := by
  refine happen_keeps (fun s => ?_) h
  repeat' first
    | with_reducible assumption
    | with_reducible exact Keeps.refl _ _ _
    | split
    | with_reducible refine keeps_of_eq (by assumption) ?_
    | with_reducible refine keeps_mk_all rfl rfl List.prefix_rfl Sound.parts ?_

theorem execPllLock_keeps {t : Nat} {s u : State} (h : execPllLock t s = .next u) : Keeps everyArea [] (advance t s) u := by
  refine happen_keeps (fun s => ?_) h
  repeat' first
    | with_reducible assumption
    | with_reducible exact Keeps.refl _ _ _
    | (extract_lets +onlyGivenNames y
       refine have hy : Keeps everyArea [] s y := ?_; ?_
       (unfold y; clear y)
       rotate_left
       clear_value y)
    | (extract_lets +onlyGivenNames y)
    | with_reducible refine (headLaneFollow_keeps ..).then_all ?_
    | with_reducible refine (injectAll_keeps ..).then_all ?_
    | with_reducible refine (wakeRun_keeps ..).then_all ?_
    | with_reducible refine (freeRun_keeps ..).then_all ?_
    | with_reducible refine keeps_setUp (by decide) ?_
    | with_reducible refine keeps_forEach (fun _ _ _ => ?_) ?_
    | with_reducible refine keeps_ite ?_ ?_
    | split
    | with_reducible refine keeps_of_eq (by assumption) ?_
    | with_reducible refine keeps_mk_all rfl rfl List.prefix_rfl Sound.parts ?_

theorem execFunctionReady_keeps {t : Nat} {bit : ReadyBit} {s u : State} (h : execFunctionReady t bit s = .next u) : Keeps everyArea [] (advance t s) u :=
  happen_keeps (fun _ => bitUp_sound ..) h

theorem execFlashDiscovered_keeps {t : Nat} {answers : Bool} {s u : State} (h : execFlashDiscovered t answers s = .next u) : Keeps everyArea [] (advance t s) u :=
  happen_keeps (fun _ => flashDiscoveredDo_sound ..) h

theorem execNtLoadDone_keeps {t : Nat} {s u : State} (h : execNtLoadDone t s = .next u) : Keeps everyArea [] (advance t s) u :=
  happen_keeps (fun _ => (ntLoadDoneDo_keeps ..).all) h

theorem execEnterSummer_keeps {t : Nat} {s u : State} (h : execEnterSummer t s = .next u) : Keeps everyArea [] (advance t s) u := by
  refine happen_keeps (fun s => ?_) h
  repeat' first
    | with_reducible assumption
    | with_reducible exact Keeps.refl _ _ _
    | with_reducible refine (seasonTo_keeps ..).then_all ?_
    | with_reducible refine keeps_ite ?_ ?_
    | split
    | with_reducible refine keeps_of_eq (by assumption) ?_
    | with_reducible refine keeps_mk_all rfl rfl List.prefix_rfl Sound.parts ?_

theorem execSeasonReqWinter_keeps {t : Nat} {s u : State} (h : execSeasonReqWinter t s = .next u) : Keeps everyArea [] (advance t s) u :=
  happen_keeps (fun _ => writeOne_sound ..) h

theorem execSeasonReqHold_keeps {t : Nat} {s u : State} (h : execSeasonReqHold t s = .next u) : Keeps everyArea [] (advance t s) u :=
  happen_keeps (fun _ => writeOne_sound ..) h

theorem execSeasonReqSummer_keeps {t : Nat} {s u : State} (h : execSeasonReqSummer t s = .next u) : Keeps everyArea [] (advance t s) u :=
  happen_keeps (fun _ => writeOne_sound ..) h

theorem execSeasonReqRestart_keeps {t : Nat} {s u : State} (h : execSeasonReqRestart t s = .next u) : Keeps everyArea [] (advance t s) u :=
  happen_keeps (fun _ => writeOne_sound ..) h

theorem execAutumnIdleTimeout_keeps {t : Nat} {s u : State} (h : execAutumnIdleTimeout t s = .next u) : Keeps everyArea [] (advance t s) u := by
  refine happen_keeps (fun s => ?_) h
  repeat' first
    | with_reducible assumption
    | with_reducible exact Keeps.refl _ _ _
    | with_reducible refine (autumnStep2_sound ..).then_all ?_
    | with_reducible refine keeps_ite ?_ ?_
    | split
    | with_reducible refine keeps_of_eq (by assumption) ?_
    | with_reducible refine keeps_mk_all rfl rfl List.prefix_rfl Sound.parts ?_

theorem execAutumnCapTimeout_keeps {t : Nat} {s u : State} (h : execAutumnCapTimeout t s = .next u) : Keeps everyArea [] (advance t s) u := by
  refine happen_keeps (fun s => ?_) h
  repeat' first
    | with_reducible assumption
    | with_reducible exact Keeps.refl _ _ _
    | with_reducible refine (capEnd_sound ..).then_all ?_
    | with_reducible refine keeps_ite ?_ ?_
    | split
    | with_reducible refine keeps_of_eq (by assumption) ?_
    | with_reducible refine keeps_mk_all rfl rfl List.prefix_rfl Sound.parts ?_

theorem execAutumnStaggerOff_keeps {t : Nat} {s u : State} (h : execAutumnStaggerOff t s = .next u) : Keeps everyArea [] (advance t s) u := by
  refine happen_keeps (fun s => ?_) h
  repeat' first
    | with_reducible assumption
    | with_reducible exact Keeps.refl _ _ _
    | (extract_lets +onlyGivenNames y
       refine have hy : Keeps everyArea [] s y := ?_; ?_
       (unfold y; clear y)
       rotate_left
       clear_value y)
    | (extract_lets +onlyGivenNames y)
    | with_reducible refine (autumnOffNext_keeps ..).then_all ?_
    | with_reducible refine (autumnEnd_sound ..).then_all ?_
    | with_reducible refine keeps_setN_any (by decide) ?_
    | with_reducible refine keeps_ite ?_ ?_
    | split
    | with_reducible refine keeps_of_eq (by assumption) ?_
    | with_reducible refine keeps_mk_all rfl rfl List.prefix_rfl Sound.parts ?_

theorem execFuncResetHold_keeps {t : Nat} {bit : Fin 36} {s u : State} (h : execFuncResetHold t bit s = .next u) : Keeps everyArea [] (advance t s) u :=
  happen_keeps (fun _ => writeHeld_sound ..) h

theorem execFuncResetRelease_keeps {t : Nat} {bit : Fin 36} {s u : State} (h : execFuncResetRelease t bit s = .next u) : Keeps everyArea [] (advance t s) u :=
  happen_keeps (fun _ => writeHeld_sound ..) h

theorem execFuncResetRestart_keeps {t : Nat} {s u : State} (h : execFuncResetRestart t s = .next u) : Keeps everyArea [] (advance t s) u :=
  happen_keeps (fun _ => writeHeld_sound ..) h

theorem execSaveReq_keeps {t : Nat} {s u : State} (h : execSaveReq t s = .next u) : Keeps everyArea [] (advance t s) u :=
  happen_keeps (fun _ => writeOne_sound ..) h

theorem execSaveComplete_keeps {t : Nat} {ok : Bool} {s u : State} (h : execSaveComplete t ok s = .next u) : Keeps everyArea [] (advance t s) u :=
  happen_keeps (fun _ => saveEnd_sound ..) h

theorem execSaveTimeout_keeps {t : Nat} {s u : State} (h : execSaveTimeout t s = .next u) : Keeps everyArea [] (advance t s) u :=
  happen_keeps (fun _ => saveEnd_sound ..) h

theorem execD2dCommandFrame_keeps {t : Nat} {crcOk : Bool} {s u : State} (h : execD2dCommandFrame t crcOk s = .next u) : Keeps everyArea [] (advance t s) u := by
  refine happen_keeps (fun s => ?_) h
  repeat' first
    | with_reducible assumption
    | with_reducible exact Keeps.refl _ _ _
    | (extract_lets +onlyGivenNames y
       refine have hy : Keeps everyArea [] s y := ?_; ?_
       (unfold y; clear y)
       rotate_left
       clear_value y)
    | (extract_lets +onlyGivenNames y)
    | with_reducible refine (xingQueue_keeps ..).then_all ?_
    | with_reducible refine keeps_setUp (by decide) ?_
    | with_reducible refine keeps_ite ?_ ?_
    | split
    | with_reducible refine keeps_of_eq (by assumption) ?_
    | with_reducible refine keeps_mk_all rfl rfl List.prefix_rfl Sound.parts ?_

theorem execD2dLinkLost_keeps {t : Nat} {s u : State} (h : execD2dLinkLost t s = .next u) : Keeps everyArea [] (advance t s) u := by
  refine happen_keeps (fun s => ?_) h
  repeat' first
    | with_reducible assumption
    | with_reducible exact Keeps.refl _ _ _
    | (extract_lets +onlyGivenNames y
       refine have hy : Keeps everyArea [] s y := ?_; ?_
       (unfold y; clear y)
       rotate_left
       clear_value y)
    | (extract_lets +onlyGivenNames y)
    | with_reducible refine (d2dFault_sound ..).then_all ?_
    | with_reducible refine keeps_setUp (by decide) ?_
    | split
    | with_reducible refine keeps_of_eq (by assumption) ?_
    | with_reducible refine keeps_mk_all rfl rfl List.prefix_rfl Sound.parts ?_

theorem execVdrvLow_keeps {t : Nat} {s u : State} (h : execVdrvLow t s = .next u) : Keeps everyArea [] (advance t s) u := by
  refine happen_keeps (fun s => ?_) h
  repeat' first
    | with_reducible assumption
    | with_reducible exact Keeps.refl _ _ _
    | with_reducible refine (hpcReady_keeps ..).then_all ?_
    | with_reducible refine (d2dFault_sound ..).then_all ?_
    | split
    | with_reducible refine keeps_of_eq (by assumption) ?_
    | with_reducible refine keeps_mk_all rfl rfl List.prefix_rfl Sound.parts ?_

theorem execReadObj_keeps {t : Nat} {a : Access} {s u : State} (h : execReadObj t a s = .next u) : Keeps everyArea [] (advance t s) u :=
  happen_keeps (fun _ => access_sound ..) h

theorem execWriteObject_keeps {t : Nat} {a : Access} {vals : List Word} {s u : State} (h : execWriteObject t a vals s = .next u) : Keeps everyArea [] (advance t s) u :=
  happen_keeps (fun _ => access_sound ..) h

theorem execOpenRead_keeps {t : Nat} {a : Access} {s u : State} (h : execOpenRead t a s = .next u) : Keeps everyArea [] (advance t s) u :=
  happen_keeps (fun _ => access_sound ..) h

theorem execOpenWrite_keeps {t : Nat} {a : Access} {s u : State} (h : execOpenWrite t a s = .next u) : Keeps everyArea [] (advance t s) u :=
  happen_keeps (fun _ => access_sound ..) h

theorem execSegment_keeps {t : Nat} {handle : Fin 4} {seq count : Nat} {words : List Word} {s u : State} (h : execSegment t handle seq count words s = .next u) : Keeps everyArea [] (advance t s) u :=
  happen_keeps (fun _ => access_sound ..) h

theorem execCloseTransfer_keeps {t : Nat} {handle : Fin 4} {crc : BitVec 32} {s u : State} (h : execCloseTransfer t handle crc s = .next u) : Keeps everyArea [] (advance t s) u :=
  happen_keeps (fun _ => access_sound ..) h

theorem execTransferTimeout_keeps {t : Nat} {handle : Fin 4} {s u : State} (h : execTransferTimeout t handle s = .next u) : Keeps everyArea [] (advance t s) u :=
  happen_keeps (fun _ => (setTransfer_keeps ..).all) h

theorem execBroadcastWrite_keeps {t : Nat} {a : Access} {vals : List Word} {s u : State} (h : execBroadcastWrite t a vals s = .next u) : Keeps everyArea [] (advance t s) u :=
  happen_keeps (fun _ => access_sound ..) h

theorem execCommitPage_keeps {t : Nat} {page : Word} {s u : State} (h : execCommitPage t page s = .next u) : Keeps everyArea [] (advance t s) u :=
  happen_keeps (fun _ => writeOne_sound ..) h

theorem execCommitCancel_keeps {t : Nat} {page : Word} {s u : State} (h : execCommitCancel t page s = .next u) : Keeps everyArea [] (advance t s) u :=
  happen_keeps (fun _ => writeOne_sound ..) h

theorem execCommitNow_keeps {t : Nat} {s u : State} (h : execCommitNow t s = .next u) : Keeps everyArea [] (advance t s) u :=
  happen_keeps (fun _ => writeOne_sound ..) h

theorem execControlCycle_keeps {t : Nat} {s u : State} (h : execControlCycle t s = .next u) : Keeps everyArea [] (advance t s) u := by
  refine happen_keeps (fun s => ?_) h
  repeat' first
    | with_reducible assumption
    | with_reducible exact Keeps.refl _ _ _
    | with_reducible refine (queueRaised_keeps ..).then_all ?_
    | with_reducible refine (xingCount_keeps ..).then_all ?_
    | split
    | with_reducible refine keeps_of_eq (by assumption) ?_
    | with_reducible refine keeps_mk_all rfl rfl List.prefix_rfl Sound.parts ?_

theorem execEventAck_keeps {t : Nat} {seq : Word} {s u : State} (h : execEventAck t seq s = .next u) : Keeps everyArea [] (advance t s) u :=
  happen_keeps (fun _ => writeOne_sound ..) h

theorem execCycleStart_keeps {t : Nat} {s u : State} (h : execCycleStart t s = .next u) : Keeps everyArea [] (advance t s) u :=
  happen_keeps (fun _ => (cycleStartDo_keeps ..).all) h

theorem execCycleFrameCopy_keeps {t : Nat} {c : CopyIn} {s u : State} (h : execCycleFrameCopy t c s = .next u) : Keeps everyArea [] (advance t s) u := by
  refine happen_keeps (fun s => ?_) h
  repeat' first
    | with_reducible assumption
    | with_reducible exact Keeps.refl _ _ _
    | with_reducible refine (foreignCopy_keeps ..).then_all ?_
    | with_reducible refine (memberCopy_sound ..).then_all ?_
    | with_reducible refine keeps_crossing (by decide) (fun _ _ => ?_) ?_
    | with_reducible refine keeps_ite ?_ ?_
    | split
    | with_reducible refine keeps_of_eq (by assumption) ?_
    | with_reducible refine keeps_mk_all rfl rfl List.prefix_rfl Sound.parts ?_

theorem execCopyReturn_keeps {t : Nat} {c : CopyIn} {s u : State} (h : execCopyReturn t c s = .next u) : Keeps everyArea [] (advance t s) u := by
  refine happen_keeps (fun s => ?_) h
  repeat' first
    | with_reducible assumption
    | with_reducible exact Keeps.refl _ _ _
    | with_reducible refine (masterCopy_keeps ..).then_all ?_
    | with_reducible refine keeps_crossing (by decide) (fun _ _ => ?_) ?_
    | with_reducible refine keeps_ite ?_ ?_
    | split
    | with_reducible refine keeps_of_eq (by assumption) ?_
    | with_reducible refine keeps_mk_all rfl rfl List.prefix_rfl Sound.parts ?_

theorem execCopyReturnTimeout_keeps {t : Nat} {copyB : Bool} {s u : State} (h : execCopyReturnTimeout t copyB s = .next u) : Keeps everyArea [] (advance t s) u := by
  refine happen_keeps (fun s => ?_) h
  repeat' first
    | with_reducible assumption
    | with_reducible exact Keeps.refl _ _ _
    | (extract_lets +onlyGivenNames y
       refine have hy : Keeps everyArea [] s y := ?_; ?_
       (unfold y; clear y)
       rotate_left
       clear_value y)
    | (extract_lets +onlyGivenNames y)
    | with_reducible refine (copyLost_keeps ..).then_all ?_
    | with_reducible refine keeps_ite ?_ ?_
    | split
    | with_reducible refine keeps_of_eq (by assumption) ?_
    | with_reducible refine keeps_mk_all rfl rfl List.prefix_rfl Sound.parts ?_

theorem execMailboxRequest_keeps {t : Nat} {seg : List Word} {s u : State} (h : execMailboxRequest t seg s = .next u) : Keeps everyArea [] (advance t s) u := by
  refine happen_keeps (fun s => ?_) h
  repeat' first
    | with_reducible assumption
    | with_reducible exact Keeps.refl _ _ _
    | with_reducible refine (requestArrived_sound ..).then_all ?_
    | with_reducible refine keeps_ite ?_ ?_
    | split
    | with_reducible refine keeps_of_eq (by assumption) ?_
    | with_reducible refine keeps_mk_all rfl rfl List.prefix_rfl Sound.parts ?_

theorem execMailboxReply_keeps {t : Nat} {seg : List Word} {s u : State} (h : execMailboxReply t seg s = .next u) : Keeps everyArea [] (advance t s) u := by
  refine happen_keeps (fun s => ?_) h
  repeat' first
    | with_reducible assumption
    | with_reducible exact Keeps.refl _ _ _
    | with_reducible refine (replyArrived_keeps ..).then_all ?_
    | with_reducible refine keeps_ite ?_ ?_
    | split
    | with_reducible refine keeps_of_eq (by assumption) ?_
    | with_reducible refine keeps_mk_all rfl rfl List.prefix_rfl Sound.parts ?_

theorem execMailboxNak_keeps {t : Nat} {seg : List Word} {s u : State} (h : execMailboxNak t seg s = .next u) : Keeps everyArea [] (advance t s) u := by
  refine happen_keeps (fun s => ?_) h
  repeat' first
    | with_reducible assumption
    | with_reducible exact Keeps.refl _ _ _
    | with_reducible refine (nakArrived_keeps ..).then_all ?_
    | with_reducible refine keeps_ite ?_ ?_
    | split
    | with_reducible refine keeps_of_eq (by assumption) ?_
    | with_reducible refine keeps_mk_all rfl rfl List.prefix_rfl Sound.parts ?_

theorem execRingAccessTimeout_keeps {t : Nat} {tag : Nat} {s u : State} (h : execRingAccessTimeout t tag s = .next u) : Keeps everyArea [] (advance t s) u := by
  refine happen_keeps (fun s => ?_) h
  repeat' first
    | with_reducible assumption
    | with_reducible exact Keeps.refl _ _ _
    | with_reducible refine (accessEnd_keeps ..).then_all ?_
    | split
    | with_reducible refine keeps_of_eq (by assumption) ?_
    | with_reducible refine keeps_mk_all rfl rfl List.prefix_rfl Sound.parts ?_

theorem execRingRestore_keeps {t : Nat} {s u : State} (h : execRingRestore t s = .next u) : Keeps everyArea [] (advance t s) u := by
  refine happen_keeps (fun s => ?_) h
  repeat' first
    | with_reducible assumption
    | with_reducible exact Keeps.refl _ _ _
    | with_reducible refine (modRing_keeps ..).then_all ?_
    | with_reducible refine keeps_ite ?_ ?_
    | split
    | with_reducible refine keeps_of_eq (by assumption) ?_
    | with_reducible refine keeps_mk_all rfl rfl List.prefix_rfl Sound.parts ?_

theorem execSlotMissing_keeps {t : Nat} {slot : Slot} {s u : State} (h : execSlotMissing t slot s = .next u) : Keeps everyArea [] (advance t s) u := by
  refine happen_keeps (fun s => ?_) h
  repeat' first
    | with_reducible assumption
    | with_reducible exact Keeps.refl _ _ _
    | with_reducible refine (modRing_keeps ..).then_all ?_
    | with_reducible refine raise_all ?_
    | with_reducible refine keeps_ite ?_ ?_
    | split
    | with_reducible refine keeps_of_eq (by assumption) ?_
    | with_reducible refine keeps_mk_all rfl rfl List.prefix_rfl Sound.parts ?_

theorem execRingLost_keeps {t : Nat} {s u : State} (h : execRingLost t s = .next u) : Keeps everyArea [] (advance t s) u := by
  refine happen_keeps (fun s => ?_) h
  repeat' first
    | with_reducible assumption
    | with_reducible exact Keeps.refl _ _ _
    | with_reducible refine (enterHoldover_keeps ..).then_all ?_
    | with_reducible refine (modRing_keeps ..).then_all ?_
    | with_reducible refine raise_all ?_
    | with_reducible refine keeps_ite ?_ ?_
    | split
    | with_reducible refine keeps_of_eq (by assumption) ?_
    | with_reducible refine keeps_mk_all rfl rfl List.prefix_rfl Sound.parts ?_

theorem execSlotReclaim_keeps {t : Nat} {s u : State} (h : execSlotReclaim t s = .next u) : Keeps everyArea [] (advance t s) u :=
  happen_keeps (fun _ => (modRing_keeps ..).all) h

theorem execHostFrame_keeps {t : Nat} {f : HostFrame} {s u : State} (h : execHostFrame t f s = .next u) : Keeps everyArea [] (advance t s) u := by
  refine happen_keeps (fun s => ?_) h
  repeat' first
    | with_reducible assumption
    | with_reducible exact Keeps.refl _ _ _
    | with_reducible refine bump_all ?_
    | with_reducible refine keeps_ite ?_ ?_
    | split
    | with_reducible refine keeps_of_eq (by assumption) ?_
    | with_reducible refine keeps_mk_all rfl rfl List.prefix_rfl Sound.parts ?_

theorem execArpRequest_keeps {t : Nat} {target sender : BitVec 32} {mac : BitVec 48} {s u : State} (h : execArpRequest t target sender mac s = .next u) : Keeps everyArea [] (advance t s) u := by
  refine happen_keeps (fun s => ?_) h
  repeat' first
    | with_reducible assumption
    | with_reducible exact Keeps.refl _ _ _
    | with_reducible refine keeps_emit' (by decide) ?_
    | with_reducible refine keeps_ite ?_ ?_
    | split
    | with_reducible refine keeps_of_eq (by assumption) ?_
    | with_reducible refine keeps_mk_all rfl rfl List.prefix_rfl Sound.parts ?_

theorem execIcmpEcho_keeps {t : Nat} {target sender : BitVec 32} {payload : List Byte} {s u : State} (h : execIcmpEcho t target sender payload s = .next u) : Keeps everyArea [] (advance t s) u := by
  refine happen_keeps (fun s => ?_) h
  repeat' first
    | with_reducible assumption
    | with_reducible exact Keeps.refl _ _ _
    | with_reducible refine keeps_emit' (by decide) ?_
    | with_reducible refine keeps_ite ?_ ?_
    | split
    | with_reducible refine keeps_of_eq (by assumption) ?_
    | with_reducible refine keeps_mk_all rfl rfl List.prefix_rfl Sound.parts ?_

theorem execHostDatagram_keeps {t : Nat} {src : BitVec 32} {port : Nat} {words : List Word} {s u : State} (h : execHostDatagram t src port words s = .next u) : Keeps everyArea [] (advance t s) u := by
  refine happen_keeps (fun s => ?_) h
  repeat' first
    | with_reducible assumption
    | with_reducible exact Keeps.refl _ _ _
    | with_reducible refine (hostDatagramDo_sound ..).then_all ?_
    | with_reducible refine keeps_crossing (by decide) (fun _ _ => ?_) ?_
    | with_reducible refine keeps_ite ?_ ?_
    | split
    | with_reducible refine keeps_of_eq (by assumption) ?_
    | with_reducible refine keeps_mk_all rfl rfl List.prefix_rfl Sound.parts ?_

theorem execReplyCacheExpire_keeps {t : Nat} {src : BitVec 32} {port seq : Nat} {s u : State} (h : execReplyCacheExpire t src port seq s = .next u) : Keeps everyArea [] (advance t s) u := by
  refine happen_keeps (fun s => ?_) h
  repeat' first
    | with_reducible assumption
    | with_reducible exact Keeps.refl _ _ _
    | split
    | with_reducible refine keeps_of_eq (by assumption) ?_
    | with_reducible refine keeps_mk_all rfl rfl List.prefix_rfl Sound.parts ?_

theorem execHostLinkDown_keeps {t : Nat} {s u : State} (h : execHostLinkDown t s = .next u) : Keeps everyArea [] (advance t s) u := by
  refine happen_keeps (fun s => ?_) h
  repeat' first
    | with_reducible assumption
    | with_reducible exact Keeps.refl _ _ _
    | (extract_lets +onlyGivenNames y
       refine have hy : Keeps everyArea [] s y := ?_; ?_
       (unfold y; clear y)
       rotate_left
       clear_value y)
    | (extract_lets +onlyGivenNames y)
    | with_reducible refine raise_all ?_
    | with_reducible refine keeps_ite ?_ ?_
    | split
    | with_reducible refine keeps_of_eq (by assumption) ?_
    | with_reducible refine keeps_mk_all rfl rfl List.prefix_rfl Sound.parts ?_

theorem execSyncTimeout_keeps {t : Nat} {s u : State} (h : execSyncTimeout t s = .next u) : Keeps everyArea [] (advance t s) u := by
  refine happen_keeps (fun s => ?_) h
  repeat' first
    | with_reducible assumption
    | with_reducible exact Keeps.refl _ _ _
    | with_reducible refine (enterHoldover_keeps ..).then_all ?_
    | with_reducible refine (ptpPort_keeps ..).then_all ?_
    | with_reducible refine (modPtp_keeps ..).then_all ?_
    | with_reducible refine keeps_ite ?_ ?_
    | split
    | with_reducible refine keeps_of_eq (by assumption) ?_
    | with_reducible refine keeps_mk_all rfl rfl List.prefix_rfl Sound.parts ?_

theorem execAnnounceTimeout_keeps {t : Nat} {s u : State} (h : execAnnounceTimeout t s = .next u) : Keeps everyArea [] (advance t s) u := by
  refine happen_keeps (fun s => ?_) h
  repeat' first
    | with_reducible assumption
    | with_reducible exact Keeps.refl _ _ _
    | with_reducible refine (enterHoldover_keeps ..).then_all ?_
    | with_reducible refine (ptpPort_keeps ..).then_all ?_
    | with_reducible refine (modPtp_keeps ..).then_all ?_
    | with_reducible refine keeps_ite ?_ ?_
    | split
    | with_reducible refine keeps_of_eq (by assumption) ?_
    | with_reducible refine keeps_mk_all rfl rfl List.prefix_rfl Sound.parts ?_

theorem execHoldoverReadyExpire_keeps {t : Nat} {s u : State} (h : execHoldoverReadyExpire t s = .next u) : Keeps everyArea [] (advance t s) u := by
  refine happen_keeps (fun s => ?_) h
  repeat' first
    | with_reducible assumption
    | with_reducible exact Keeps.refl _ _ _
    | with_reducible refine keeps_setUp (by decide) ?_
    | with_reducible refine keeps_ite ?_ ?_
    | split
    | with_reducible refine keeps_of_eq (by assumption) ?_
    | with_reducible refine keeps_mk_all rfl rfl List.prefix_rfl Sound.parts ?_

theorem execPtpSync_keeps {t : Nat} {h : PtpHdr} {origin : Int} {rx : Nat} {s u : State} (h : execPtpSync t h origin rx s = .next u) : Keeps everyArea [] (advance t s) u := by
  refine happen_keeps (fun s => ?_) h
  repeat' first
    | with_reducible assumption
    | with_reducible exact Keeps.refl _ _ _
    | (extract_lets +onlyGivenNames y
       refine have hy : Keeps everyArea [] s y := ?_; ?_
       (unfold y; clear y)
       rotate_left
       clear_value y)
    | (extract_lets +onlyGivenNames y)
    | with_reducible refine (ptpOffset_keeps ..).then_all ?_
    | with_reducible refine (modPtp_keeps ..).then_all ?_
    | with_reducible refine keeps_setN_any (by decide) ?_
    | with_reducible refine keeps_ite ?_ ?_
    | split
    | with_reducible refine keeps_of_eq (by assumption) ?_
    | with_reducible refine keeps_mk_all rfl rfl List.prefix_rfl Sound.parts ?_

theorem execPtpFollowUp_keeps {t : Nat} {h : PtpHdr} {origin : Int} {s u : State} (h : execPtpFollowUp t h origin s = .next u) : Keeps everyArea [] (advance t s) u := by
  refine happen_keeps (fun s => ?_) h
  repeat' first
    | with_reducible assumption
    | with_reducible exact Keeps.refl _ _ _
    | with_reducible refine (ptpOffset_keeps ..).then_all ?_
    | with_reducible refine (modPtp_keeps ..).then_all ?_
    | with_reducible refine keeps_ite ?_ ?_
    | split
    | with_reducible refine keeps_of_eq (by assumption) ?_
    | with_reducible refine keeps_mk_all rfl rfl List.prefix_rfl Sound.parts ?_

theorem execPtpDelayReqTimer_keeps {t : Nat} {tx : Nat} {s u : State} (h : execPtpDelayReqTimer t tx s = .next u) : Keeps everyArea [] (advance t s) u := by
  refine happen_keeps (fun s => ?_) h
  repeat' first
    | with_reducible assumption
    | with_reducible exact Keeps.refl _ _ _
    | (extract_lets +onlyGivenNames y
       refine have hy : Keeps everyArea [] s y := ?_; ?_
       (unfold y; clear y)
       rotate_left
       clear_value y)
    | (extract_lets +onlyGivenNames y)
    | with_reducible refine (modPtp_keeps ..).then_all ?_
    | with_reducible refine keeps_emit' (by decide) ?_
    | with_reducible refine keeps_ite ?_ ?_
    | split
    | with_reducible refine keeps_of_eq (by assumption) ?_
    | with_reducible refine keeps_mk_all rfl rfl List.prefix_rfl Sound.parts ?_

theorem execPtpDelayResp_keeps {t : Nat} {h : PtpHdr} {rx : Int} {s u : State} (h : execPtpDelayResp t h rx s = .next u) : Keeps everyArea [] (advance t s) u := by
  refine happen_keeps (fun s => ?_) h
  repeat' first
    | with_reducible assumption
    | with_reducible exact Keeps.refl _ _ _
    | with_reducible refine (modPtp_keeps ..).then_all ?_
    | with_reducible refine setI_all ?_
    | with_reducible refine keeps_ite ?_ ?_
    | split
    | with_reducible refine keeps_of_eq (by assumption) ?_
    | with_reducible refine keeps_mk_all rfl rfl List.prefix_rfl Sound.parts ?_

theorem execPtpAnnounce_keeps {t : Nat} {h : PtpHdr} {ann : Announce} {s u : State} (h : execPtpAnnounce t h ann s = .next u) : Keeps everyArea [] (advance t s) u := by
  refine happen_keeps (fun s => ?_) h
  repeat' first
    | with_reducible assumption
    | with_reducible exact Keeps.refl _ _ _
    | (extract_lets +onlyGivenNames y
       refine have hy : Keeps everyArea [] s y := ?_; ?_
       (unfold y; clear y)
       rotate_left
       clear_value y)
    | (extract_lets +onlyGivenNames y)
    | with_reducible refine (syncEnter_keeps ..).then_all ?_
    | with_reducible refine (ptpPort_keeps ..).then_all ?_
    | with_reducible refine (modPtp_keeps ..).then_all ?_
    | with_reducible refine raise_all ?_
    | with_reducible refine keeps_setN_any (by decide) ?_
    | with_reducible refine keeps_ite ?_ ?_
    | split
    | with_reducible refine keeps_of_eq (by assumption) ?_
    | with_reducible refine keeps_mk_all rfl rfl List.prefix_rfl Sound.parts ?_

theorem execPtpPdelayReq_keeps {t : Nat} {h : PtpHdr} {rx tx : Nat} {s u : State} (h : execPtpPdelayReq t h rx tx s = .next u) : Keeps everyArea [] (advance t s) u := by
  refine happen_keeps (fun s => ?_) h
  repeat' first
    | with_reducible assumption
    | with_reducible exact Keeps.refl _ _ _
    | with_reducible refine keeps_emit' (by decide) ?_
    | with_reducible refine keeps_ite ?_ ?_
    | split
    | with_reducible refine keeps_of_eq (by assumption) ?_
    | with_reducible refine keeps_mk_all rfl rfl List.prefix_rfl Sound.parts ?_

theorem execPtpPdelayResp_keeps {t : Nat} {h : PtpHdr} {t2 : Int} {rx : Nat} {s u : State} (h : execPtpPdelayResp t h t2 rx s = .next u) : Keeps everyArea [] (advance t s) u := by
  refine happen_keeps (fun s => ?_) h
  repeat' first
    | with_reducible assumption
    | with_reducible exact Keeps.refl _ _ _
    | (extract_lets +onlyGivenNames y
       refine have hy : Keeps everyArea [] s y := ?_; ?_
       (unfold y; clear y)
       rotate_left
       clear_value y)
    | (extract_lets +onlyGivenNames y)
    | with_reducible refine (modPtp_keeps ..).then_all ?_
    | with_reducible refine setI_all ?_
    | with_reducible refine keeps_ite ?_ ?_
    | split
    | with_reducible refine keeps_of_eq (by assumption) ?_
    | with_reducible refine keeps_mk_all rfl rfl List.prefix_rfl Sound.parts ?_

theorem execPtpPdelayRespFollowUp_keeps {t : Nat} {h : PtpHdr} {t3 : Int} {s u : State} (h : execPtpPdelayRespFollowUp t h t3 s = .next u) : Keeps everyArea [] (advance t s) u := by
  refine happen_keeps (fun s => ?_) h
  repeat' first
    | with_reducible assumption
    | with_reducible exact Keeps.refl _ _ _
    | with_reducible refine (modPtp_keeps ..).then_all ?_
    | with_reducible refine setI_all ?_
    | with_reducible refine keeps_ite ?_ ?_
    | split
    | with_reducible refine keeps_of_eq (by assumption) ?_
    | with_reducible refine keeps_mk_all rfl rfl List.prefix_rfl Sound.parts ?_

theorem execTimeResync_keeps {t : Nat} {s u : State} (h : execTimeResync t s = .next u) : Keeps everyArea [] (advance t s) u :=
  happen_keeps (fun _ => writeOne_sound ..) h

theorem execTimeNowWrite_keeps {t : Nat} {w0 w1 : Word} {s u : State} (h : execTimeNowWrite t w0 w1 s = .next u) : Keeps everyArea [] (advance t s) u :=
  happen_keeps (fun _ => writeOne_sound ..) h

theorem execTrigEnable_keeps {t : Nat} {unit : Fin 16} {s u : State} (h : execTrigEnable t unit s = .next u) : Keeps everyArea [] (advance t s) u :=
  happen_keeps (fun _ => writeBit_sound ..) h

theorem execTriggerFire_keeps {t : Nat} {unit : Fin 16} {s u : State} (h : execTriggerFire t unit s = .next u) : Keeps everyArea [] (advance t s) u :=
  happen_keeps (fun _ => (triggerFire_keeps ..).all) h

theorem execCaptureEdge_keeps {t : Nat} {unit : Fin 8} {source : EdgeSource} {rising : Bool} {stamp : Nat} {s u : State} (h : execCaptureEdge t unit source rising stamp s = .next u) : Keeps everyArea [] (advance t s) u := by
  refine happen_keeps (fun s => ?_) h
  repeat' first
    | with_reducible assumption
    | with_reducible exact Keeps.refl _ _ _
    | (extract_lets +onlyGivenNames y
       refine have hy : Keeps everyArea [] s y := ?_; ?_
       (unfold y; clear y)
       rotate_left
       clear_value y)
    | (extract_lets +onlyGivenNames y)
    | with_reducible refine keeps_setN_any (by decide) ?_
    | with_reducible refine keeps_setE_any (by decide) ?_
    | with_reducible refine keeps_ite ?_ ?_
    | split
    | with_reducible refine keeps_of_eq (by assumption) ?_
    | with_reducible refine keeps_mk_all rfl rfl List.prefix_rfl Sound.parts ?_

theorem execLaneLock_keeps {t : Nat} {lane : LaneIx} {s u : State} (h : execLaneLock t lane s = .next u) : Keeps everyArea [] (advance t s) u :=
  happen_keeps (fun _ => (laneGained_keeps ..).all) h

theorem execLaneLockLost_keeps {t : Nat} {lane : LaneLoss} {s u : State} (h : execLaneLockLost t lane s = .next u) : Keeps everyArea [] (advance t s) u :=
  happen_keeps (fun _ => laneLost_sound ..) h

theorem execLaneNoSignal_keeps {t : Nat} {lane : LaneIx} {s u : State} (h : execLaneNoSignal t lane s = .next u) : Keeps everyArea [] (advance t s) u :=
  happen_keeps (fun _ => laneLost_sound ..) h

theorem execBufferSlip_keeps {t : Nat} {lane : LaneIx} {underflow : Bool} {s u : State} (h : execBufferSlip t lane underflow s = .next u) : Keeps everyArea [] (advance t s) u := by
  refine happen_keeps (fun s => ?_) h
  repeat' first
    | with_reducible assumption
    | with_reducible exact Keeps.refl _ _ _
    | with_reducible refine (modLane_keeps ..).then_all ?_
    | with_reducible refine raise_all ?_
    | with_reducible refine bump_all ?_
    | with_reducible refine keeps_ite ?_ ?_
    | split
    | with_reducible refine keeps_of_eq (by assumption) ?_
    | with_reducible refine keeps_mk_all rfl rfl List.prefix_rfl Sound.parts ?_

theorem execSkipReceived_keeps {t : Nat} {ras : Ras} {fill : Nat} {s u : State} (h : execSkipReceived t ras fill s = .next u) : Keeps everyArea [] (advance t s) u := by
  refine happen_keeps (fun s => ?_) h
  repeat' first
    | with_reducible assumption
    | with_reducible exact Keeps.refl _ _ _
    | with_reducible refine (modLane_keeps ..).then_all ?_
    | with_reducible refine keeps_ite ?_ ?_
    | split
    | with_reducible refine keeps_of_eq (by assumption) ?_
    | with_reducible refine keeps_mk_all rfl rfl List.prefix_rfl Sound.parts ?_

theorem execBlockLock_keeps {t : Nat} {ras : Ras} {s u : State} (h : execBlockLock t ras s = .next u) : Keeps everyArea [] (advance t s) u := by
  refine happen_keeps (fun s => ?_) h
  repeat' first
    | with_reducible assumption
    | with_reducible exact Keeps.refl _ _ _
    | with_reducible refine (modLane_keeps ..).then_all ?_
    | with_reducible refine keeps_ite ?_ ?_
    | split
    | with_reducible refine keeps_of_eq (by assumption) ?_
    | with_reducible refine keeps_mk_all rfl rfl List.prefix_rfl Sound.parts ?_

theorem execBlockLockLost_keeps {t : Nat} {ras : Ras} {s u : State} (h : execBlockLockLost t ras s = .next u) : Keeps everyArea [] (advance t s) u := by
  refine happen_keeps (fun s => ?_) h
  repeat' first
    | with_reducible assumption
    | with_reducible exact Keeps.refl _ _ _
    | (extract_lets +onlyGivenNames y
       refine have hy : Keeps everyArea [] s y := ?_; ?_
       (unfold y; clear y)
       rotate_left
       clear_value y)
    | (extract_lets +onlyGivenNames y)
    | with_reducible refine (dskRelease_keeps ..).then_all ?_
    | with_reducible refine (bondLose_keeps ..).then_all ?_
    | with_reducible refine (dskDone_keeps ..).then_all ?_
    | with_reducible refine (modLane_keeps ..).then_all ?_
    | with_reducible refine raise_all ?_
    | with_reducible refine keeps_ite ?_ ?_
    | split
    | with_reducible refine keeps_of_eq (by assumption) ?_
    | with_reducible refine keeps_mk_all rfl rfl List.prefix_rfl Sound.parts ?_

theorem execDskReceived_keeps {t : Nat} {ras : Ras} {n p g : Nat} {s u : State} (h : execDskReceived t ras n p g s = .next u) : Keeps everyArea [] (advance t s) u := by
  refine happen_keeps (fun s => ?_) h
  repeat' first
    | with_reducible assumption
    | with_reducible exact Keeps.refl _ _ _
    | with_reducible refine (dskReceivedDo_keeps ..).then_all ?_
    | with_reducible refine (dskRelease_keeps ..).then_all ?_
    | with_reducible refine keeps_crossing (by decide) (fun _ _ => ?_) ?_
    | split
    | with_reducible refine keeps_of_eq (by assumption) ?_
    | with_reducible refine keeps_mk_all rfl rfl List.prefix_rfl Sound.parts ?_

theorem execDskTimeout_keeps {t : Nat} {ras : Ras} {s u : State} (h : execDskTimeout t ras s = .next u) : Keeps everyArea [] (advance t s) u := by
  refine happen_keeps (fun s => ?_) h
  repeat' first
    | with_reducible assumption
    | with_reducible exact Keeps.refl _ _ _
    | with_reducible refine (dskRelease_keeps ..).then_all ?_
    | with_reducible refine (dskFail_keeps ..).then_all ?_
    | with_reducible refine keeps_ite ?_ ?_
    | split
    | with_reducible refine keeps_of_eq (by assumption) ?_
    | with_reducible refine keeps_mk_all rfl rfl List.prefix_rfl Sound.parts ?_

theorem execPrbsLock_keeps {t : Nat} {lane : LaneIx} {s u : State} (h : execPrbsLock t lane s = .next u) : Keeps everyArea [] (advance t s) u := by
  refine happen_keeps (fun s => ?_) h
  repeat' first
    | with_reducible assumption
    | with_reducible exact Keeps.refl _ _ _
    | with_reducible refine (modLane_keeps ..).then_all ?_
    | with_reducible refine keeps_ite ?_ ?_
    | split
    | with_reducible refine keeps_of_eq (by assumption) ?_
    | with_reducible refine keeps_mk_all rfl rfl List.prefix_rfl Sound.parts ?_

theorem execPrbsWindowEnd_keeps {t : Nat} {lane : LaneIx} {bits : Nat} {errors : PrbsErrors} {s u : State} (h : execPrbsWindowEnd t lane bits errors s = .next u) : Keeps everyArea [] (advance t s) u := by
  refine happen_keeps (fun s => ?_) h
  repeat' first
    | with_reducible assumption
    | with_reducible exact Keeps.refl _ _ _
    | (extract_lets +onlyGivenNames y
       refine have hy : Keeps everyArea [] s y := ?_; ?_
       (unfold y; clear y)
       rotate_left
       clear_value y)
    | (extract_lets +onlyGivenNames y)
    | with_reducible refine (modLane_keeps ..).then_all ?_
    | with_reducible refine raise_all ?_
    | with_reducible refine bump_all ?_
    | with_reducible refine keeps_ite ?_ ?_
    | split
    | with_reducible refine keeps_of_eq (by assumption) ?_
    | with_reducible refine keeps_mk_all rfl rfl List.prefix_rfl Sound.parts ?_

theorem execInjectSingle_keeps {t : Nat} {lane : LaneIx} {s u : State} (h : execInjectSingle t lane s = .next u) : Keeps everyArea [] (advance t s) u :=
  happen_keeps (fun _ => writeBit_sound ..) h

theorem execInjectBurst_keeps {t : Nat} {lane : LaneIx} {s u : State} (h : execInjectBurst t lane s = .next u) : Keeps everyArea [] (advance t s) u :=
  happen_keeps (fun _ => writeBit_sound ..) h

theorem execLanePrbsMode_keeps {t : Nat} {lane : LaneIx} {prbs pattern : Fin 4} {invert : Bool} {s u : State} (h : execLanePrbsMode t lane prbs pattern invert s = .next u) : Keeps everyArea [] (advance t s) u :=
  happen_keeps (fun _ => writeOne_sound ..) h

theorem execLaneLoopback_keeps {t : Nat} {lane : LaneIx} {loop : Fin 4} {s u : State} (h : execLaneLoopback t lane loop s = .next u) : Keeps everyArea [] (advance t s) u :=
  happen_keeps (fun _ => writeOne_sound ..) h

theorem execLaneEnable_keeps {t : Nat} {lane : LaneIx} {s u : State} (h : execLaneEnable t lane s = .next u) : Keeps everyArea [] (advance t s) u :=
  happen_keeps (fun _ => writeBit_sound ..) h

theorem execLaneDisable_keeps {t : Nat} {lane : LaneIx} {s u : State} (h : execLaneDisable t lane s = .next u) : Keeps everyArea [] (advance t s) u :=
  happen_keeps (fun _ => writeBit_sound ..) h

theorem execLgHeader_keeps {t : Nat} {copies : List HdrCopy} {s u : State} (h : execLgHeader t copies s = .next u) : Keeps everyArea [] (advance t s) u := by
  refine happen_keeps (fun s => ?_) h
  repeat' first
    | with_reducible assumption
    | with_reducible exact Keeps.refl _ _ _
    | with_reducible refine (lgHeaderDo_keeps ..).then_all ?_
    | with_reducible refine (xingQueue_keeps ..).then_all ?_
    | with_reducible refine keeps_forEach (fun _ _ _ => ?_) ?_
    | split
    | with_reducible refine keeps_of_eq (by assumption) ?_
    | with_reducible refine keeps_mk_all rfl rfl List.prefix_rfl Sound.parts ?_

theorem execLineGroupComplete_keeps {t : Nat} {page lg : Nat} {blocks : List (List Word)} {s u : State} (h : execLineGroupComplete t page lg blocks s = .next u) : Keeps everyArea [] (advance t s) u := by
  refine happen_keeps (fun s => ?_) h
  repeat' first
    | with_reducible assumption
    | with_reducible exact Keeps.refl _ _ _
    | with_reducible refine (lgCompleteDo_keeps ..).then_all ?_
    | with_reducible refine (xingQueue_keeps ..).then_all ?_
    | with_reducible refine keeps_forEach (fun _ _ _ => ?_) ?_
    | split
    | with_reducible refine keeps_of_eq (by assumption) ?_
    | with_reducible refine keeps_mk_all rfl rfl List.prefix_rfl Sound.parts ?_

theorem execTableFrame_keeps {t : Nat} {words : List Word} {eofOk : Bool} {s u : State} (h : execTableFrame t words eofOk s = .next u) : Keeps everyArea [] (advance t s) u :=
  happen_keeps (fun _ => (tableFrameDo_keeps ..).all) h

theorem execCreditFrameTimer_keeps {t : Nat} {s u : State} (h : execCreditFrameTimer t s = .next u) : Keeps everyArea [] (advance t s) u :=
  happen_keeps (fun _ => (creditSend_keeps ..).all) h

theorem execLaneOffer_keeps {t : Nat} {ras : Ras} {s u : State} (h : execLaneOffer t ras s = .next u) : Keeps everyArea [] (advance t s) u :=
  happen_keeps (fun _ => (laneOfferDo_keeps ..).all) h

theorem execBondCfgWrite_keeps {t : Nat} {v : Word} {s u : State} (h : execBondCfgWrite t v s = .next u) : Keeps everyArea [] (advance t s) u :=
  happen_keeps (fun _ => writeOne_sound ..) h

theorem execCheckInstant_keeps {t : Nat} {page lg : Nat} {s u : State} (h : execCheckInstant t page lg s = .next u) : Keeps everyArea [] (advance t s) u :=
  happen_keeps (fun _ => (checkLg_keeps ..).all) h

theorem execDecodeLineGroup_keeps {t : Nat} {s u : State} (h : execDecodeLineGroup t s = .next u) : Keeps everyArea [] (advance t s) u := by
  refine happen_keeps (fun s => ?_) h
  repeat' first
    | with_reducible assumption
    | with_reducible exact Keeps.refl _ _ _
    | with_reducible refine (decodeGroup_keeps ..).then_all ?_
    | split
    | with_reducible refine keeps_of_eq (by assumption) ?_
    | with_reducible refine keeps_mk_all rfl rfl List.prefix_rfl Sound.parts ?_

theorem execScreenStart_keeps {t : Nat} {s u : State} (h : execScreenStart t s = .next u) : Keeps everyArea [] (advance t s) u :=
  happen_keeps (fun _ => (screenStart_keeps ..).all) h

theorem execEdgeFrameReceived_keeps {t : Nat} {lane : LaneIx} {comp : Bool} {words : List Word} {eofOk : Bool} {s u : State} (h : execEdgeFrameReceived t lane comp words eofOk s = .next u) : Keeps everyArea [] (advance t s) u := by
  refine happen_keeps (fun s => ?_) h
  repeat' first
    | with_reducible assumption
    | with_reducible exact Keeps.refl _ _ _
    | with_reducible refine (edgeTake_keeps ..).then_all ?_
    | with_reducible refine keeps_whenB (fun _ _ => ?_) ?_
    | split
    | with_reducible refine keeps_of_eq (by assumption) ?_
    | with_reducible refine keeps_mk_all rfl rfl List.prefix_rfl Sound.parts ?_

theorem execEdgeFrameTimeout_keeps {t : Nat} {chain : Fin 4} {endEdge comp : Bool} {s u : State} (h : execEdgeFrameTimeout t chain endEdge comp s = .next u) : Keeps everyArea [] (advance t s) u := by
  refine happen_keeps (fun s => ?_) h
  repeat' first
    | with_reducible assumption
    | with_reducible exact Keeps.refl _ _ _
    | with_reducible refine (retrySend_keeps ..).then_all ?_
    | with_reducible refine keeps_forEach (fun _ _ _ => ?_) ?_
    | with_reducible refine keeps_ite ?_ ?_
    | split
    | with_reducible refine keeps_of_eq (by assumption) ?_
    | with_reducible refine keeps_mk_all rfl rfl List.prefix_rfl Sound.parts ?_

theorem execEdgeRetry_keeps {t : Nat} {lane : LaneIx} {words : List Word} {s u : State} (h : execEdgeRetry t lane words s = .next u) : Keeps everyArea [] (advance t s) u := by
  refine happen_keeps (fun s => ?_) h
  repeat' first
    | with_reducible assumption
    | with_reducible exact Keeps.refl _ _ _
    | with_reducible refine (retryTake_keeps ..).then_all ?_
    | with_reducible refine keeps_whenB (fun _ _ => ?_) ?_
    | split
    | with_reducible refine keeps_of_eq (by assumption) ?_
    | with_reducible refine keeps_mk_all rfl rfl List.prefix_rfl Sound.parts ?_

theorem execConfigLoad_keeps {t : Nat} {tile : Tile} {ok : Bool} {s u : State} (h : execConfigLoad t tile ok s = .next u) : Keeps everyArea [] (advance t s) u :=
  happen_keeps (fun _ => (configLoad_keeps ..).all) h

theorem execHandoverInstant_keeps {t : Nat} {head : Option Head} {s u : State} (h : execHandoverInstant t head s = .next u) : Keeps everyArea [] (advance t s) u := by
  refine happen_keeps (fun s => ?_) h
  repeat' first
    | with_reducible assumption
    | with_reducible exact Keeps.refl _ _ _
    | with_reducible refine (handOverLds_keeps ..).then_all ?_
    | with_reducible refine (handOver_keeps ..).then_all ?_
    | split
    | with_reducible refine keeps_of_eq (by assumption) ?_
    | with_reducible refine keeps_mk_all rfl rfl List.prefix_rfl Sound.parts ?_

theorem execHandoverDeadline_keeps {t : Nat} {head : Head} {s u : State} (h : execHandoverDeadline t head s = .next u) : Keeps everyArea [] (advance t s) u :=
  happen_keeps (fun _ => (deadline_keeps ..).all) h

theorem execNtCommitPage_keeps {t : Nat} {page : Nat} {s u : State} (h : execNtCommitPage t page s = .next u) : Keeps everyArea [] (advance t s) u :=
  happen_keeps (fun _ => writeOne_sound ..) h

theorem execNtCommitNow_keeps {t : Nat} {s u : State} (h : execNtCommitNow t s = .next u) : Keeps everyArea [] (advance t s) u :=
  happen_keeps (fun _ => writeOne_sound ..) h

theorem execNtCommitCancel_keeps {t : Nat} {page : Nat} {s u : State} (h : execNtCommitCancel t page s = .next u) : Keeps everyArea [] (advance t s) u :=
  happen_keeps (fun _ => writeOne_sound ..) h

theorem execSeedingDone_keeps {t : Nat} {s u : State} (h : execSeedingDone t s = .next u) : Keeps everyArea [] (advance t s) u :=
  happen_keeps (fun _ => (modNt_keeps ..).all) h

theorem execNtApprove_keeps {t : Nat} {gen : Nat} {s u : State} (h : execNtApprove t gen s = .next u) : Keeps everyArea [] (advance t s) u :=
  happen_keeps (fun _ => writeOne_sound ..) h

theorem execNtReject_keeps {t : Nat} {gen : Nat} {s u : State} (h : execNtReject t gen s = .next u) : Keeps everyArea [] (advance t s) u :=
  happen_keeps (fun _ => writeOne_sound ..) h

theorem execFireEnableArm_keeps {t : Nat} {s u : State} (h : execFireEnableArm t s = .next u) : Keeps everyArea [] (advance t s) u :=
  happen_keeps (fun _ => writeOne_sound ..) h

theorem execFireEnableDisarm_keeps {t : Nat} {s u : State} (h : execFireEnableDisarm t s = .next u) : Keeps everyArea [] (advance t s) u :=
  happen_keeps (fun _ => writeOne_sound ..) h

theorem execPositionLatch_keeps {t : Nat} {s u : State} (h : execPositionLatch t s = .next u) : Keeps everyArea [] (advance t s) u :=
  happen_keeps (fun _ => (latch_keeps ..).all) h

theorem execLineCommit_keeps {t : Nat} {head : Head} {s u : State} (h : execLineCommit t head s = .next u) : Keeps everyArea [] (advance t s) u :=
  happen_keeps (fun _ => (commitLine_keeps ..).all) h

theorem execBoundaryReached_keeps {t : Nat} {head : Head} {s u : State} (h : execBoundaryReached t head s = .next u) : Keeps everyArea [] (advance t s) u :=
  happen_keeps (fun _ => (boundaryStart_keeps ..).all) h

theorem execBookClear_keeps {t : Nat} {s u : State} (h : execBookClear t s = .next u) : Keeps everyArea [] (advance t s) u :=
  happen_keeps (fun _ => writeOne_sound ..) h

theorem execHaltStopped_keeps {t : Nat} {s u : State} (h : execHaltStopped t s = .next u) : Keeps everyArea [] (advance t s) u :=
  happen_keeps (fun _ => (haltStop_keeps ..).all) h

theorem execPageAbort_keeps {t : Nat} {s u : State} (h : execPageAbort t s = .next u) : Keeps everyArea [] (advance t s) u :=
  happen_keeps (fun _ => writeOne_sound ..) h

theorem execHeadStatus_keeps {t : Nat} {head : Head} {words : HeadReport} {s u : State} (h : execHeadStatus t head words s = .next u) : Keeps everyArea [] (advance t s) u :=
  happen_keeps (fun _ => headStatus_sound ..) h

theorem execStatusTimeout_keeps {t : Nat} {head : Head} {s u : State} (h : execStatusTimeout t head s = .next u) : Keeps everyArea [] (advance t s) u := by
  refine happen_keeps (fun s => ?_) h
  repeat' first
    | with_reducible assumption
    | with_reducible exact Keeps.refl _ _ _
    | with_reducible refine (idleCheck_sound ..).then_all ?_
    | with_reducible refine (linkDown_keeps ..).then_all ?_
    | split
    | with_reducible refine keeps_of_eq (by assumption) ?_
    | with_reducible refine keeps_mk_all rfl rfl List.prefix_rfl Sound.parts ?_

theorem execTmarkSend_keeps {t : Nat} {head : Head} {tx : Nat} {s u : State} (h : execTmarkSend t head tx s = .next u) : Keeps everyArea [] (advance t s) u :=
  happen_keeps (fun _ => (markSend_keeps ..).all) h

theorem execTmarkEcho_keeps {t : Nat} {head : Head} {m : MarkChars} {rx turn : Nat} {s u : State} (h : execTmarkEcho t head m rx turn s = .next u) : Keeps everyArea [] (advance t s) u := by
  refine happen_keeps (fun s => ?_) h
  repeat' first
    | with_reducible assumption
    | with_reducible exact Keeps.refl _ _ _
    | with_reducible refine (idleCheck_sound ..).then_all ?_
    | with_reducible refine (markEcho_keeps ..).then_all ?_
    | split
    | with_reducible refine keeps_of_eq (by assumption) ?_
    | with_reducible refine keeps_mk_all rfl rfl List.prefix_rfl Sound.parts ?_

theorem execEchoMissing_keeps {t : Nat} {head : Head} {s u : State} (h : execEchoMissing t head s = .next u) : Keeps everyArea [] (advance t s) u := by
  refine happen_keeps (fun s => ?_) h
  repeat' first
    | with_reducible assumption
    | with_reducible exact Keeps.refl _ _ _
    | with_reducible refine (idleCheck_sound ..).then_all ?_
    | with_reducible refine (linkDown_keeps ..).then_all ?_
    | with_reducible refine keeps_ite ?_ ?_
    | split
    | with_reducible refine keeps_of_eq (by assumption) ?_
    | with_reducible refine keeps_mk_all rfl rfl List.prefix_rfl Sound.parts ?_

theorem execBankLoad_keeps {t : Nat} {head : Head} {s u : State} (h : execBankLoad t head s = .next u) : Keeps everyArea [] (advance t s) u :=
  happen_keeps (fun _ => (bankLoad_keeps ..).all) h

theorem execHeadIdleCommand_keeps {t : Nat} {head : Head} {s u : State} (h : execHeadIdleCommand t head s = .next u) : Keeps everyArea [] (advance t s) u :=
  happen_keeps (fun _ => (idleCommand_keeps ..).all) h

theorem execRegRead_keeps {t : Nat} {head : Head} {addr : Nat} {s u : State} (h : execRegRead t head addr s = .next u) : Keeps everyArea [] (advance t s) u :=
  happen_keeps (fun _ => writeOne_sound ..) h

theorem execRegWrite_keeps {t : Nat} {head : Head} {addr : Nat} {s u : State} (h : execRegWrite t head addr s = .next u) : Keeps everyArea [] (advance t s) u :=
  happen_keeps (fun _ => writeOne_sound ..) h

theorem execRegReply_keeps {t : Nat} {head : Head} {words : HeadReport} {s u : State} (h : execRegReply t head words s = .next u) : Keeps everyArea [] (advance t s) u :=
  happen_keeps (fun _ => (regReply_keeps ..).all) h

theorem execRegReplyTimeout_keeps {t : Nat} {head : Head} {s u : State} (h : execRegReplyTimeout t head s = .next u) : Keeps everyArea [] (advance t s) u := by
  refine happen_keeps (fun s => ?_) h
  repeat' first
    | with_reducible assumption
    | with_reducible exact Keeps.refl _ _ _
    | with_reducible refine (regDone_keeps ..).then_all ?_
    | with_reducible refine keeps_ite ?_ ?_
    | split
    | with_reducible refine keeps_of_eq (by assumption) ?_
    | with_reducible refine keeps_mk_all rfl rfl List.prefix_rfl Sound.parts ?_

theorem execEncoderEdge_keeps {t : Nat} {enc : Enc} {a b : Bool} {sample : Nat} {s u : State} (h : execEncoderEdge t enc a b sample s = .next u) : Keeps everyArea [] (advance t s) u := by
  refine happen_keeps (fun s => ?_) h
  repeat' first
    | with_reducible assumption
    | with_reducible exact Keeps.refl _ _ _
    | (extract_lets +onlyGivenNames y
       refine have hy : Keeps everyArea [] s y := ?_; ?_
       (unfold y; clear y)
       rotate_left
       clear_value y)
    | (extract_lets +onlyGivenNames y)
    | with_reducible refine (encoutRepeat_keeps ..).then_all ?_
    | with_reducible refine (xingCount_keeps ..).then_all ?_
    | with_reducible refine (posTouch_keeps ..).then_all ?_
    | with_reducible refine (encEdge_keeps ..).then_all ?_
    | with_reducible refine keeps_ite ?_ ?_
    | split
    | with_reducible refine keeps_of_eq (by assumption) ?_
    | with_reducible refine keeps_mk_all rfl rfl List.prefix_rfl Sound.parts ?_

theorem execIndexPulse_keeps {t : Nat} {enc : Enc} {s u : State} (h : execIndexPulse t enc s = .next u) : Keeps everyArea [] (advance t s) u := by
  refine happen_keeps (fun s => ?_) h
  repeat' first
    | with_reducible assumption
    | with_reducible exact Keeps.refl _ _ _
    | with_reducible refine (encoutRepeat_keeps ..).then_all ?_
    | with_reducible refine (judgeIndex_keeps ..).then_all ?_
    | with_reducible refine (posTouch_keeps ..).then_all ?_
    | with_reducible refine keeps_ite ?_ ?_
    | split
    | with_reducible refine keeps_of_eq (by assumption) ?_
    | with_reducible refine keeps_mk_all rfl rfl List.prefix_rfl Sound.parts ?_

theorem execEncoderWireFault_keeps {t : Nat} {enc : Enc} {pair : Fin 3} {s u : State} (h : execEncoderWireFault t enc pair s = .next u) : Keeps everyArea [] (advance t s) u := by
  refine happen_keeps (fun s => ?_) h
  repeat' first
    | with_reducible assumption
    | with_reducible exact Keeps.refl _ _ _
    | (extract_lets +onlyGivenNames y
       refine have hy : Keeps everyArea [] s y := ?_; ?_
       (unfold y; clear y)
       rotate_left
       clear_value y)
    | (extract_lets +onlyGivenNames y)
    | with_reducible refine (encFail_keeps ..).then_all ?_
    | with_reducible refine (modEnc_keeps ..).then_all ?_
    | with_reducible refine raise_all ?_
    | with_reducible refine keeps_ite ?_ ?_
    | split
    | with_reducible refine keeps_of_eq (by assumption) ?_
    | with_reducible refine keeps_mk_all rfl rfl List.prefix_rfl Sound.parts ?_

theorem execEncoderOverspeed_keeps {t : Nat} {enc : Enc} {together : Bool} {s u : State} (h : execEncoderOverspeed t enc together s = .next u) : Keeps everyArea [] (advance t s) u := by
  refine happen_keeps (fun s => ?_) h
  repeat' first
    | with_reducible assumption
    | with_reducible exact Keeps.refl _ _ _
    | with_reducible refine (encFail_keeps ..).then_all ?_
    | with_reducible refine (modEnc_keeps ..).then_all ?_
    | with_reducible refine keeps_ite ?_ ?_
    | split
    | with_reducible refine keeps_of_eq (by assumption) ?_
    | with_reducible refine keeps_mk_all rfl rfl List.prefix_rfl Sound.parts ?_

theorem execEncoderRecover_keeps {t : Nat} {enc : Enc} {s u : State} (h : execEncoderRecover t enc s = .next u) : Keeps everyArea [] (advance t s) u := by
  refine happen_keeps (fun s => ?_) h
  repeat' first
    | with_reducible assumption
    | with_reducible exact Keeps.refl _ _ _
    | (extract_lets +onlyGivenNames y
       refine have hy : Keeps everyArea [] s y := ?_; ?_
       (unfold y; clear y)
       rotate_left
       clear_value y)
    | (extract_lets +onlyGivenNames y)
    | with_reducible refine (setEncState_keeps ..).then_all ?_
    | with_reducible refine (modEnc_keeps ..).then_all ?_
    | with_reducible refine keeps_ite ?_ ?_
    | split
    | with_reducible refine keeps_of_eq (by assumption) ?_
    | with_reducible refine keeps_mk_all rfl rfl List.prefix_rfl Sound.parts ?_

theorem execPosSourceWrite_keeps {t : Nat} {v : Word} {s u : State} (h : execPosSourceWrite t v s = .next u) : Keeps everyArea [] (advance t s) u :=
  happen_keeps (fun _ => writeOne_sound ..) h

theorem execPosPreset_keeps {t : Nat} {w0 w1 : Word} {s u : State} (h : execPosPreset t w0 w1 s = .next u) : Keeps everyArea [] (advance t s) u :=
  happen_keeps (fun _ => writeOne_sound ..) h

theorem execCmpArm_keeps {t : Nat} {unit : Fin 8} {v : Word} {s u : State} (h : execCmpArm t unit v s = .next u) : Keeps everyArea [] (advance t s) u :=
  happen_keeps (fun _ => writeOne_sound ..) h

theorem execCmpFire_keeps {t : Nat} {unit : Fin 8} {s u : State} (h : execCmpFire t unit s = .next u) : Keeps everyArea [] (advance t s) u :=
  happen_keeps (fun _ => (cmpFire_keeps ..).all) h

theorem execServoCycle_keeps {t : Nat} {s u : State} (h : execServoCycle t s = .next u) : Keeps everyArea [] (advance t s) u :=
  happen_keeps (fun _ => servoCycle_sound ..) h

theorem execHareRun_keeps {t : Nat} {run startTrig : Bool} {s u : State} (h : execHareRun t run startTrig s = .next u) : Keeps everyArea [] (advance t s) u :=
  happen_keeps (fun _ => writeOne_sound ..) h

theorem execAuxReply_keeps {t : Nat} {bytes : List Byte} {s u : State} (h : execAuxReply t bytes s = .next u) : Keeps everyArea [] (advance t s) u := by
  refine happen_keeps (fun s => ?_) h
  repeat' first
    | with_reducible assumption
    | with_reducible exact Keeps.refl _ _ _
    | with_reducible refine (auxReplyTake_keeps ..).then_all ?_
    | with_reducible refine (capCheck_sound ..).then_all ?_
    | split
    | with_reducible refine keeps_of_eq (by assumption) ?_
    | with_reducible refine keeps_mk_all rfl rfl List.prefix_rfl Sound.parts ?_

theorem execAuxReplyTimeout_keeps {t : Nat} {s u : State} (h : execAuxReplyTimeout t s = .next u) : Keeps everyArea [] (advance t s) u := by
  refine happen_keeps (fun s => ?_) h
  repeat' first
    | with_reducible assumption
    | with_reducible exact Keeps.refl _ _ _
    | with_reducible refine (capCheck_sound ..).then_all ?_
    | with_reducible refine (auxBad_keeps ..).then_all ?_
    | split
    | with_reducible refine keeps_of_eq (by assumption) ?_
    | with_reducible refine keeps_mk_all rfl rfl List.prefix_rfl Sound.parts ?_

theorem execAxTargetWrite_keeps {t : Nat} {axis : Axis} {v : Word} {s u : State} (h : execAxTargetWrite t axis v s = .next u) : Keeps everyArea [] (advance t s) u :=
  happen_keeps (fun _ => writeOne_sound ..) h

theorem execAxDecelWrite_keeps {t : Nat} {axis : Axis} {v : Word} {s u : State} (h : execAxDecelWrite t axis v s = .next u) : Keeps everyArea [] (advance t s) u :=
  happen_keeps (fun _ => writeOne_sound ..) h

theorem execAxStop_keeps {t : Nat} {axis : Axis} {s u : State} (h : execAxStop t axis s = .next u) : Keeps everyArea [] (advance t s) u :=
  happen_keeps (fun _ => writeBit_sound ..) h

theorem execAuxFaultClear_keeps {t : Nat} {s u : State} (h : execAuxFaultClear t s = .next u) : Keeps everyArea [] (advance t s) u :=
  happen_keeps (fun _ => writeOne_sound ..) h

theorem execCameraLine_keeps {t : Nat} {input : Cam} {words : List Word} {eofOk : Bool} {s u : State} (h : execCameraLine t input words eofOk s = .next u) : Keeps everyArea [] (advance t s) u := by
  refine happen_keeps (fun s => ?_) h
  have hr : Keeps everyArea [] s (cameraRepeat input.val 1 words eofOk s) := (cameraRepeat_keeps ..).all
  dsimp only
  exact keeps_ite hr (keeps_crossing (by decide) (fun _ h => (cameraLine_keeps ..).then_all h) hr)

theorem execCameraStatus_keeps {t : Nat} {input : Cam} {words : List Word} {eofOk : Bool} {s u : State} (h : execCameraStatus t input words eofOk s = .next u) : Keeps everyArea [] (advance t s) u := by
  refine happen_keeps (fun s => ?_) h
  have hr : Keeps everyArea [] s (cameraRepeat input.val 3 words eofOk s) := (cameraRepeat_keeps ..).all
  dsimp only
  exact keeps_ite hr (keeps_crossing (by decide) (fun _ h => (cameraStatus_keeps ..).then_all h) hr)

theorem execSyncReq_keeps {t : Nat} {mask : Word} {s u : State} (h : execSyncReq t mask s = .next u) : Keeps everyArea [] (advance t s) u :=
  happen_keeps (fun _ => writeOne_sound ..) h

theorem execExpCommit_keeps {t : Nat} {mask : Word} {s u : State} (h : execExpCommit t mask s = .next u) : Keeps everyArea [] (advance t s) u :=
  happen_keeps (fun _ => writeOne_sound ..) h

theorem execStripeProcess_keeps {t : Nat} {s u : State} (h : execStripeProcess t s = .next u) : Keeps everyArea [] (advance t s) u :=
  happen_keeps (fun _ => (processStripe_keeps ..).all) h

theorem execDispAck_keeps {t : Nat} {seq : Word} {s u : State} (h : execDispAck t seq s = .next u) : Keeps everyArea [] (advance t s) u :=
  happen_keeps (fun _ => writeOne_sound ..) h

theorem execCalReq_keeps {t : Nat} {v : Word} {s u : State} (h : execCalReq t v s = .next u) : Keeps everyArea [] (advance t s) u :=
  happen_keeps (fun _ => writeOne_sound ..) h

theorem execCalAutoTrigger_keeps {t : Nat} {dieTemp : Int} {s u : State} (h : execCalAutoTrigger t dieTemp s = .next u) : Keeps everyArea [] (advance t s) u :=
  happen_keeps (fun _ => (dieTempDo_keeps ..).all) h

theorem execCalStart_keeps {t : Nat} {item target : Nat} {s u : State} (h : execCalStart t item target s = .next u) : Keeps everyArea [] (advance t s) u :=
  happen_keeps (fun _ => (calStart_keeps ..).all) h

theorem execCalRunDone_keeps {t : Nat} {item target : Nat} {first second : List Int} {s u : State} (h : execCalRunDone t item target first second s = .next u) : Keeps everyArea [] (advance t s) u :=
  happen_keeps (fun _ => calRunDone_sound ..) h

theorem execCalRequestExpire_keeps {t : Nat} {item target : Nat} {s u : State} (h : execCalRequestExpire t item target s = .next u) : Keeps everyArea [] (advance t s) u :=
  happen_keeps (fun _ => (calExpire_keeps ..).all) h

theorem execCalRetry_keeps {t : Nat} {item target : Nat} {s u : State} (h : execCalRetry t item target s = .next u) : Keeps everyArea [] (advance t s) u :=
  happen_keeps (fun _ => (calRetry_keeps ..).all) h

theorem execWriteBack_keeps {t : Nat} {m : Mem} {s u : State} (h : execWriteBack t m s = .next u) : Keeps everyArea [] (advance t s) u := by
  refine happen_keeps (fun s => ?_) h
  repeat' first
    | with_reducible assumption
    | with_reducible exact Keeps.refl _ _ _
    | with_reducible refine (codeCheck_sound ..).then_all ?_
    | with_reducible refine (writeBack_keeps ..).then_all ?_
    | split
    | with_reducible refine keeps_of_eq (by assumption) ?_
    | with_reducible refine keeps_mk_all rfl rfl List.prefix_rfl Sound.parts ?_

theorem execMergeEvict_keeps {t : Nat} {m : Mem} {s u : State} (h : execMergeEvict t m s = .next u) : Keeps everyArea [] (advance t s) u := by
  refine happen_keeps (fun s => ?_) h
  repeat' first
    | with_reducible assumption
    | with_reducible exact Keeps.refl _ _ _
    | with_reducible refine (mergeEvict_keeps ..).then_all ?_
    | with_reducible refine (codeCheck_sound ..).then_all ?_
    | split
    | with_reducible refine keeps_of_eq (by assumption) ?_
    | with_reducible refine keeps_mk_all rfl rfl List.prefix_rfl Sound.parts ?_

theorem execScrubRead_keeps {t : Nat} {m : Mem} {upset : BitVec 43} {s u : State} (h : execScrubRead t m upset s = .next u) : Keeps everyArea [] (advance t s) u :=
  happen_keeps (fun _ => scrubRead_sound ..) h

theorem execRepairDone_keeps {t : Nat} {m : Mem} {s u : State} (h : execRepairDone t m s = .next u) : Keeps everyArea [] (advance t s) u :=
  happen_keeps (fun _ => (repairDone_keeps ..).all) h

theorem execMemoryClear_keeps {t : Nat} {mask : Word} {s u : State} (h : execMemoryClear t mask s = .next u) : Keeps everyArea [] (advance t s) u :=
  happen_keeps (fun _ => writeOne_sound ..) h

theorem execSummaryPeriodEnd_keeps {t : Nat} {s u : State} (h : execSummaryPeriodEnd t s = .next u) : Keeps everyArea [] (advance t s) u :=
  happen_keeps (fun _ => (summaryEnd_keeps ..).all) h

theorem execHpcRequestOn_keeps {t : Nat} {ch : Head} {s u : State} (h : execHpcRequestOn t ch s = .next u) : Keeps everyArea [] (advance t s) u :=
  happen_keeps (fun _ => writeBit_sound ..) h

theorem execHpcRequestOff_keeps {t : Nat} {ch : Head} {s u : State} (h : execHpcRequestOff t ch s = .next u) : Keeps everyArea [] (advance t s) u :=
  happen_keeps (fun _ => writeBit_sound ..) h

theorem execStaggerSlot_keeps {t : Nat} {ch : Head} {s u : State} (h : execStaggerSlot t ch s = .next u) : Keeps everyArea [] (advance t s) u := by
  refine happen_keeps (fun s => ?_) h
  repeat' first
    | with_reducible assumption
    | with_reducible exact Keeps.refl _ _ _
    | with_reducible refine (enterCheck_keeps ..).then_all ?_
    | with_reducible refine keeps_ite ?_ ?_
    | split
    | with_reducible refine keeps_of_eq (by assumption) ?_
    | with_reducible refine keeps_mk_all rfl rfl List.prefix_rfl Sound.parts ?_

theorem execChannelCheckDone_keeps {t : Nat} {ch : Head} {vSense vSupply : Int} {s u : State} (h : execChannelCheckDone t ch vSense vSupply s = .next u) : Keeps everyArea [] (advance t s) u :=
  happen_keeps (fun _ => (checkDone_keeps ..).all) h

theorem execRampSettled_keeps {t : Nat} {ch : Head} {s u : State} (h : execRampSettled t ch s = .next u) : Keeps everyArea [] (advance t s) u := by
  refine happen_keeps (fun s => ?_) h
  repeat' first
    | with_reducible assumption
    | with_reducible exact Keeps.refl _ _ _
    | with_reducible refine (setChan_keeps ..).then_all ?_
    | with_reducible refine keeps_ite ?_ ?_
    | split
    | with_reducible refine keeps_of_eq (by assumption) ?_
    | with_reducible refine keeps_mk_all rfl rfl List.prefix_rfl Sound.parts ?_

theorem execRampTimeout_keeps {t : Nat} {ch : Head} {s u : State} (h : execRampTimeout t ch s = .next u) : Keeps everyArea [] (advance t s) u := by
  refine happen_keeps (fun s => ?_) h
  repeat' first
    | with_reducible assumption
    | with_reducible exact Keeps.refl _ _ _
    | with_reducible refine (tripChan_keeps ..).then_all ?_
    | with_reducible refine keeps_ite ?_ ?_
    | split
    | with_reducible refine keeps_of_eq (by assumption) ?_
    | with_reducible refine keeps_mk_all rfl rfl List.prefix_rfl Sound.parts ?_

theorem execOvercurrentTrip_keeps {t : Nat} {ch : Head} {s u : State} (h : execOvercurrentTrip t ch s = .next u) : Keeps everyArea [] (advance t s) u := by
  refine happen_keeps (fun s => ?_) h
  repeat' first
    | with_reducible assumption
    | with_reducible exact Keeps.refl _ _ _
    | with_reducible refine (tripChan_keeps ..).then_all ?_
    | with_reducible refine keeps_ite ?_ ?_
    | split
    | with_reducible refine keeps_of_eq (by assumption) ?_
    | with_reducible refine keeps_mk_all rfl rfl List.prefix_rfl Sound.parts ?_

theorem execTripHoldoffEnd_keeps {t : Nat} {ch : Head} {s u : State} (h : execTripHoldoffEnd t ch s = .next u) : Keeps everyArea [] (advance t s) u := by
  refine happen_keeps (fun s => ?_) h
  repeat' first
    | with_reducible assumption
    | with_reducible exact Keeps.refl _ _ _
    | (extract_lets +onlyGivenNames y
       refine have hy : Keeps everyArea [] s y := ?_; ?_
       (unfold y; clear y)
       rotate_left
       clear_value y)
    | (extract_lets +onlyGivenNames y)
    | with_reducible refine (enterCheck_keeps ..).then_all ?_
    | with_reducible refine keeps_ite ?_ ?_
    | split
    | with_reducible refine keeps_of_eq (by assumption) ?_
    | with_reducible refine keeps_mk_all rfl rfl List.prefix_rfl Sound.parts ?_

theorem execTripCountClear_keeps {t : Nat} {ch : Head} {s u : State} (h : execTripCountClear t ch s = .next u) : Keeps everyArea [] (advance t s) u := by
  refine happen_keeps (fun s => ?_) h
  repeat' first
    | with_reducible assumption
    | with_reducible exact Keeps.refl _ _ _
    | with_reducible refine (modChan_keeps ..).then_all ?_
    | with_reducible refine keeps_ite ?_ ?_
    | split
    | with_reducible refine keeps_of_eq (by assumption) ?_
    | with_reducible refine keeps_mk_all rfl rfl List.prefix_rfl Sound.parts ?_

theorem execSenseOpen_keeps {t : Nat} {ch : Head} {wireN : Bool} {mv : Int} {s u : State} (h : execSenseOpen t ch wireN mv s = .next u) : Keeps everyArea [] (advance t s) u := by
  refine happen_keeps (fun s => ?_) h
  repeat' first
    | with_reducible assumption
    | with_reducible exact Keeps.refl _ _ _
    | with_reducible refine (modChan_keeps ..).then_all ?_
    | with_reducible refine (setChan_keeps ..).then_all ?_
    | with_reducible refine raise_all ?_
    | with_reducible refine keeps_ite ?_ ?_
    | split
    | with_reducible refine keeps_of_eq (by assumption) ?_
    | with_reducible refine keeps_mk_all rfl rfl List.prefix_rfl Sound.parts ?_

theorem execAdcSequence_keeps {t : Nat} {byTrigger : Bool} {s u : State} (h : execAdcSequence t byTrigger s = .next u) : Keeps everyArea [] (advance t s) u := by
  refine happen_keeps (fun s => ?_) h
  repeat' first
    | with_reducible assumption
    | with_reducible exact Keeps.refl _ _ _
    | with_reducible refine bump_all ?_
    | with_reducible refine keeps_ite ?_ ?_
    | split
    | with_reducible refine keeps_of_eq (by assumption) ?_
    | with_reducible refine keeps_mk_all rfl rfl List.prefix_rfl Sound.parts ?_

theorem execAdcSample_keeps {t : Nat} {ch : Head} {current : Bool} {value : Int} {s u : State} (h : execAdcSample t ch current value s = .next u) : Keeps everyArea [] (advance t s) u := by
  refine happen_keeps (fun s => ?_) h
  repeat' first
    | with_reducible assumption
    | with_reducible exact Keeps.refl _ _ _
    | with_reducible refine (sampleV_keeps ..).then_all ?_
    | with_reducible refine keeps_crossing (by decide) (fun _ _ => ?_) ?_
    | with_reducible refine keeps_setN_any (by decide) ?_
    | with_reducible refine keeps_ite ?_ ?_
    | split
    | with_reducible refine keeps_of_eq (by assumption) ?_
    | with_reducible refine keeps_mk_all rfl rfl List.prefix_rfl Sound.parts ?_

theorem execHpcUnlatch_keeps {t : Nat} {mask : Word} {s u : State} (h : execHpcUnlatch t mask s = .next u) : Keeps everyArea [] (advance t s) u :=
  happen_keeps (fun _ => writeOne_sound ..) h

theorem execFireTimeReached_keeps {t : Nat} {head : Head} {s u : State} (h : execFireTimeReached t head s = .next u) : Keeps everyArea [] (advance t s) u :=
  happen_keeps (fun _ => (fireReached_keeps ..).all) h

theorem execRailBackInRange_keeps {t : Nat} {rail : Rail} {s u : State} (h : execRailBackInRange t rail s = .next u) : Keeps everyArea [] (advance t s) u := by
  refine happenAlways_keeps (fun s => ?_) h
  repeat' first
    | with_reducible assumption
    | with_reducible exact Keeps.refl _ _ _
    | (extract_lets +onlyGivenNames y
       refine have hy : Keeps everyArea [] s y := ?_; ?_
       (unfold y; clear y)
       rotate_left
       clear_value y)
    | (extract_lets +onlyGivenNames y)
    | with_reducible refine (hpcReady_keeps ..).then_all ?_
    | with_reducible refine (freeRun_keeps ..).then_all ?_
    | with_reducible refine keeps_whenB (fun _ _ => ?_) ?_
    | with_reducible refine keeps_ite ?_ ?_
    | split
    | with_reducible refine keeps_of_eq (by assumption) ?_
    | with_reducible refine keeps_mk_all rfl rfl List.prefix_rfl Sound.parts ?_

theorem execPdelayReqTimer_keeps {t : Nat} {tx : Nat} {s u : State} (h : execPdelayReqTimer t tx s = .next u) : Keeps everyArea [] (advance t s) u := by
  refine happen_keeps (fun s => ?_) h
  repeat' first
    | with_reducible assumption
    | with_reducible exact Keeps.refl _ _ _
    | (extract_lets +onlyGivenNames y
       refine have hy : Keeps everyArea [] s y := ?_; ?_
       (unfold y; clear y)
       rotate_left
       clear_value y)
    | (extract_lets +onlyGivenNames y)
    | with_reducible refine (modPtp_keeps ..).then_all ?_
    | with_reducible refine keeps_emit' (by decide) ?_
    | with_reducible refine keeps_ite ?_ ?_
    | split
    | with_reducible refine keeps_of_eq (by assumption) ?_
    | with_reducible refine keeps_mk_all rfl rfl List.prefix_rfl Sound.parts ?_

/-- What every command keeps. -/
theorem exec_keeps : ∀ {c : Instr} {s u : State}, exec c s = .next u → Keeps everyArea [] (advance c.tick s) u
  | .railOutOfRange .., _, _, h => execRailOutOfRange_keeps h
  | .powerOnReset .., _, _, h => execPowerOnReset_keeps h
  | .powerOnRelease .., _, _, h => execPowerOnRelease_keeps h
  | .resetNLow .., _, _, h => execResetNLow_keeps h
  | .resetNHigh .., _, _, h => execResetNHigh_keeps h
  | .watchdogTimeout .., _, _, h => execWatchdogTimeout_keeps h
  | .wakePin .., _, _, h => execWakePin_keeps h
  | .wakePattern .., _, _, h => execWakePattern_keeps h
  | .wakeRelay .., _, _, h => execWakeRelay_keeps h
  | .domainsPowered .., _, _, h => execDomainsPowered_keeps h
  | .pllLock .., _, _, h => execPllLock_keeps h
  | .functionReady .., _, _, h => execFunctionReady_keeps h
  | .flashDiscovered .., _, _, h => execFlashDiscovered_keeps h
  | .ntLoadDone .., _, _, h => execNtLoadDone_keeps h
  | .enterSummer .., _, _, h => execEnterSummer_keeps h
  | .seasonReqWinter .., _, _, h => execSeasonReqWinter_keeps h
  | .seasonReqHold .., _, _, h => execSeasonReqHold_keeps h
  | .seasonReqSummer .., _, _, h => execSeasonReqSummer_keeps h
  | .seasonReqRestart .., _, _, h => execSeasonReqRestart_keeps h
  | .autumnIdleTimeout .., _, _, h => execAutumnIdleTimeout_keeps h
  | .autumnCapTimeout .., _, _, h => execAutumnCapTimeout_keeps h
  | .autumnStaggerOff .., _, _, h => execAutumnStaggerOff_keeps h
  | .funcResetHold .., _, _, h => execFuncResetHold_keeps h
  | .funcResetRelease .., _, _, h => execFuncResetRelease_keeps h
  | .funcResetRestart .., _, _, h => execFuncResetRestart_keeps h
  | .saveReq .., _, _, h => execSaveReq_keeps h
  | .saveComplete .., _, _, h => execSaveComplete_keeps h
  | .saveTimeout .., _, _, h => execSaveTimeout_keeps h
  | .d2dCommandFrame .., _, _, h => execD2dCommandFrame_keeps h
  | .d2dLinkLost .., _, _, h => execD2dLinkLost_keeps h
  | .vdrvLow .., _, _, h => execVdrvLow_keeps h
  | .readObj .., _, _, h => execReadObj_keeps h
  | .writeObject .., _, _, h => execWriteObject_keeps h
  | .openRead .., _, _, h => execOpenRead_keeps h
  | .openWrite .., _, _, h => execOpenWrite_keeps h
  | .segment .., _, _, h => execSegment_keeps h
  | .closeTransfer .., _, _, h => execCloseTransfer_keeps h
  | .transferTimeout .., _, _, h => execTransferTimeout_keeps h
  | .broadcastWrite .., _, _, h => execBroadcastWrite_keeps h
  | .commitPage .., _, _, h => execCommitPage_keeps h
  | .commitCancel .., _, _, h => execCommitCancel_keeps h
  | .commitNow .., _, _, h => execCommitNow_keeps h
  | .controlCycle .., _, _, h => execControlCycle_keeps h
  | .eventAck .., _, _, h => execEventAck_keeps h
  | .cycleStart .., _, _, h => execCycleStart_keeps h
  | .cycleFrameCopy .., _, _, h => execCycleFrameCopy_keeps h
  | .copyReturn .., _, _, h => execCopyReturn_keeps h
  | .copyReturnTimeout .., _, _, h => execCopyReturnTimeout_keeps h
  | .mailboxRequest .., _, _, h => execMailboxRequest_keeps h
  | .mailboxReply .., _, _, h => execMailboxReply_keeps h
  | .mailboxNak .., _, _, h => execMailboxNak_keeps h
  | .ringAccessTimeout .., _, _, h => execRingAccessTimeout_keeps h
  | .ringRestore .., _, _, h => execRingRestore_keeps h
  | .slotMissing .., _, _, h => execSlotMissing_keeps h
  | .ringLost .., _, _, h => execRingLost_keeps h
  | .slotReclaim .., _, _, h => execSlotReclaim_keeps h
  | .hostFrame .., _, _, h => execHostFrame_keeps h
  | .arpRequest _ _ _ mac, _, _, h => execArpRequest_keeps (mac := mac) h
  | .icmpEcho .., _, _, h => execIcmpEcho_keeps h
  | .hostDatagram .., _, _, h => execHostDatagram_keeps h
  | .replyCacheExpire .., _, _, h => execReplyCacheExpire_keeps h
  | .hostLinkDown .., _, _, h => execHostLinkDown_keeps h
  | .syncTimeout .., _, _, h => execSyncTimeout_keeps h
  | .announceTimeout .., _, _, h => execAnnounceTimeout_keeps h
  | .holdoverReadyExpire .., _, _, h => execHoldoverReadyExpire_keeps h
  | .ptpSync .., _, _, h => execPtpSync_keeps h
  | .ptpFollowUp .., _, _, h => execPtpFollowUp_keeps h
  | .ptpDelayReqTimer .., _, _, h => execPtpDelayReqTimer_keeps h
  | .ptpDelayResp .., _, _, h => execPtpDelayResp_keeps h
  | .ptpAnnounce .., _, _, h => execPtpAnnounce_keeps h
  | .ptpPdelayReq .., _, _, h => execPtpPdelayReq_keeps h
  | .ptpPdelayResp .., _, _, h => execPtpPdelayResp_keeps h
  | .ptpPdelayRespFollowUp .., _, _, h => execPtpPdelayRespFollowUp_keeps h
  | .timeResync .., _, _, h => execTimeResync_keeps h
  | .timeNowWrite .., _, _, h => execTimeNowWrite_keeps h
  | .trigEnable .., _, _, h => execTrigEnable_keeps h
  | .triggerFire .., _, _, h => execTriggerFire_keeps h
  | .captureEdge .., _, _, h => execCaptureEdge_keeps h
  | .laneLock .., _, _, h => execLaneLock_keeps h
  | .laneLockLost .., _, _, h => execLaneLockLost_keeps h
  | .laneNoSignal .., _, _, h => execLaneNoSignal_keeps h
  | .bufferSlip .., _, _, h => execBufferSlip_keeps h
  | .skipReceived .., _, _, h => execSkipReceived_keeps h
  | .blockLock .., _, _, h => execBlockLock_keeps h
  | .blockLockLost .., _, _, h => execBlockLockLost_keeps h
  | .dskReceived .., _, _, h => execDskReceived_keeps h
  | .dskTimeout .., _, _, h => execDskTimeout_keeps h
  | .prbsLock .., _, _, h => execPrbsLock_keeps h
  | .prbsWindowEnd .., _, _, h => execPrbsWindowEnd_keeps h
  | .injectSingle .., _, _, h => execInjectSingle_keeps h
  | .injectBurst .., _, _, h => execInjectBurst_keeps h
  | .lanePrbsMode .., _, _, h => execLanePrbsMode_keeps h
  | .laneLoopback .., _, _, h => execLaneLoopback_keeps h
  | .laneEnable .., _, _, h => execLaneEnable_keeps h
  | .laneDisable .., _, _, h => execLaneDisable_keeps h
  | .lgHeader .., _, _, h => execLgHeader_keeps h
  | .lineGroupComplete .., _, _, h => execLineGroupComplete_keeps h
  | .tableFrame .., _, _, h => execTableFrame_keeps h
  | .creditFrameTimer .., _, _, h => execCreditFrameTimer_keeps h
  | .laneOffer .., _, _, h => execLaneOffer_keeps h
  | .bondCfgWrite .., _, _, h => execBondCfgWrite_keeps h
  | .checkInstant .., _, _, h => execCheckInstant_keeps h
  | .decodeLineGroup .., _, _, h => execDecodeLineGroup_keeps h
  | .screenStart .., _, _, h => execScreenStart_keeps h
  | .edgeFrameReceived .., _, _, h => execEdgeFrameReceived_keeps h
  | .edgeFrameTimeout .., _, _, h => execEdgeFrameTimeout_keeps h
  | .edgeRetry .., _, _, h => execEdgeRetry_keeps h
  | .configLoad .., _, _, h => execConfigLoad_keeps h
  | .handoverInstant .., _, _, h => execHandoverInstant_keeps h
  | .handoverDeadline .., _, _, h => execHandoverDeadline_keeps h
  | .ntCommitPage .., _, _, h => execNtCommitPage_keeps h
  | .ntCommitNow .., _, _, h => execNtCommitNow_keeps h
  | .ntCommitCancel .., _, _, h => execNtCommitCancel_keeps h
  | .seedingDone .., _, _, h => execSeedingDone_keeps h
  | .ntApprove .., _, _, h => execNtApprove_keeps h
  | .ntReject .., _, _, h => execNtReject_keeps h
  | .fireEnableArm .., _, _, h => execFireEnableArm_keeps h
  | .fireEnableDisarm .., _, _, h => execFireEnableDisarm_keeps h
  | .positionLatch .., _, _, h => execPositionLatch_keeps h
  | .lineCommit .., _, _, h => execLineCommit_keeps h
  | .boundaryReached .., _, _, h => execBoundaryReached_keeps h
  | .bookClear .., _, _, h => execBookClear_keeps h
  | .haltStopped .., _, _, h => execHaltStopped_keeps h
  | .pageAbort .., _, _, h => execPageAbort_keeps h
  | .headStatus .., _, _, h => execHeadStatus_keeps h
  | .statusTimeout .., _, _, h => execStatusTimeout_keeps h
  | .tmarkSend .., _, _, h => execTmarkSend_keeps h
  | .tmarkEcho .., _, _, h => execTmarkEcho_keeps h
  | .echoMissing .., _, _, h => execEchoMissing_keeps h
  | .bankLoad .., _, _, h => execBankLoad_keeps h
  | .headIdleCommand .., _, _, h => execHeadIdleCommand_keeps h
  | .regRead .., _, _, h => execRegRead_keeps h
  | .regWrite .., _, _, h => execRegWrite_keeps h
  | .regReply .., _, _, h => execRegReply_keeps h
  | .regReplyTimeout .., _, _, h => execRegReplyTimeout_keeps h
  | .encoderEdge .., _, _, h => execEncoderEdge_keeps h
  | .indexPulse .., _, _, h => execIndexPulse_keeps h
  | .encoderWireFault .., _, _, h => execEncoderWireFault_keeps h
  | .encoderOverspeed .., _, _, h => execEncoderOverspeed_keeps h
  | .encoderRecover .., _, _, h => execEncoderRecover_keeps h
  | .posSourceWrite .., _, _, h => execPosSourceWrite_keeps h
  | .posPreset .., _, _, h => execPosPreset_keeps h
  | .cmpArm .., _, _, h => execCmpArm_keeps h
  | .cmpFire .., _, _, h => execCmpFire_keeps h
  | .servoCycle .., _, _, h => execServoCycle_keeps h
  | .hareRun .., _, _, h => execHareRun_keeps h
  | .auxReply .., _, _, h => execAuxReply_keeps h
  | .auxReplyTimeout .., _, _, h => execAuxReplyTimeout_keeps h
  | .axTargetWrite .., _, _, h => execAxTargetWrite_keeps h
  | .axDecelWrite .., _, _, h => execAxDecelWrite_keeps h
  | .axStop .., _, _, h => execAxStop_keeps h
  | .auxFaultClear .., _, _, h => execAuxFaultClear_keeps h
  | .cameraLine .., _, _, h => execCameraLine_keeps h
  | .cameraStatus .., _, _, h => execCameraStatus_keeps h
  | .syncReq .., _, _, h => execSyncReq_keeps h
  | .expCommit .., _, _, h => execExpCommit_keeps h
  | .stripeProcess .., _, _, h => execStripeProcess_keeps h
  | .dispAck .., _, _, h => execDispAck_keeps h
  | .calReq .., _, _, h => execCalReq_keeps h
  | .calAutoTrigger .., _, _, h => execCalAutoTrigger_keeps h
  | .calStart .., _, _, h => execCalStart_keeps h
  | .calRunDone .., _, _, h => execCalRunDone_keeps h
  | .calRequestExpire .., _, _, h => execCalRequestExpire_keeps h
  | .calRetry .., _, _, h => execCalRetry_keeps h
  | .writeBack .., _, _, h => execWriteBack_keeps h
  | .mergeEvict .., _, _, h => execMergeEvict_keeps h
  | .scrubRead .., _, _, h => execScrubRead_keeps h
  | .repairDone .., _, _, h => execRepairDone_keeps h
  | .memoryClear .., _, _, h => execMemoryClear_keeps h
  | .summaryPeriodEnd .., _, _, h => execSummaryPeriodEnd_keeps h
  | .hpcRequestOn .., _, _, h => execHpcRequestOn_keeps h
  | .hpcRequestOff .., _, _, h => execHpcRequestOff_keeps h
  | .staggerSlot .., _, _, h => execStaggerSlot_keeps h
  | .channelCheckDone .., _, _, h => execChannelCheckDone_keeps h
  | .rampSettled .., _, _, h => execRampSettled_keeps h
  | .rampTimeout .., _, _, h => execRampTimeout_keeps h
  | .overcurrentTrip .., _, _, h => execOvercurrentTrip_keeps h
  | .tripHoldoffEnd .., _, _, h => execTripHoldoffEnd_keeps h
  | .tripCountClear .., _, _, h => execTripCountClear_keeps h
  | .senseOpen .., _, _, h => execSenseOpen_keeps h
  | .adcSequence .., _, _, h => execAdcSequence_keeps h
  | .adcSample .., _, _, h => execAdcSample_keeps h
  | .hpcUnlatch .., _, _, h => execHpcUnlatch_keeps h
  | .fireTimeReached .., _, _, h => execFireTimeReached_keeps h
  | .railBackInRange .., _, _, h => execRailBackInRange_keeps h
  | .pdelayReqTimer .., _, _, h => execPdelayReqTimer_keeps h

/-- Every command answers a next state, READY settled in it. -/
theorem exec_settled (c : Instr) (s : State) : ∃ x, exec c s = .next (settle x) := by
  cases c <;> exact ⟨_, rfl⟩

end Sys2Proof.Machine
end

