-- ==== Sys2Proof/Laws/Crc.lean ====
section
/-! SUPPORT. The CRC-32 of words fits its 32 bits (R102), so that a frame of the Master comes back intact (R126). -/

set_option Elab.async false
set_option linter.all false

namespace Sys2Proof.Machine

open Sys2Proof

/-- One bit of a 32-bit CRC. -/
theorem crcBit_lt {p reg : Nat} (hp : p < 2 ^ 32) (b : Bool) : crcBit 32 p reg b < 2 ^ 32 := by
  unfold crcBit
  have h : reg * 2 % 2 ^ 32 < 2 ^ 32 := Nat.mod_lt _ (by decide)
  dsimp only
  split
  · exact Nat.xor_lt_two_pow h hp
  · exact h

/-- The bits of one word. -/
theorem crcBits_lt {p v : Nat} (hp : p < 2 ^ 32) : ∀ (m : Nat) {reg : Nat}, reg < 2 ^ 32 → crcBits 32 p v m reg < 2 ^ 32
  | 0, _, h => h
  | m + 1, _, _ => crcBits_lt hp m (crcBit_lt hp _)

/-- The CRC of words. -/
theorem crc32_lt (ws : List Word) : crc32 ws < 2 ^ 32 := by
  have h : ∀ (ws : List Word) (r : Nat), r < 2 ^ 32 →
      ws.foldl (fun r w => crcBits 32 0x04C11DB7 w.toNat 36 r) r < 2 ^ 32 := by
    intro ws
    induction ws with
    | nil => exact fun _ h => h
    | cons w ws ih => exact fun r h => ih _ (crcBits_lt (by decide) _ h)
  exact Nat.xor_lt_two_pow (h ws _ (by decide)) (by decide)

/-- The CRC of words as a word holds it. -/
theorem fld_crc32 (ws : List Word) : fld (wd (crc32 ws)) 31 0 = crc32 ws := by
  have h := crc32_lt ws
  unfold fld wd
  simp only [BitVec.toNat_ofNat]
  omega

/-- A cycle frame that nothing has damaged is intact. -/
theorem cycleFrame_intact {ws : List Word} (b : Bool) (rx tx : Nat) (hl : ws.length = 840) (hk : fld (at? ws 0 0) 35 32 = 1) :
    copyIntact { copyB := b, words := cycleFrame ws, eofOk := true, rx := rx, tx := tx } = true := by
  have h0 : at? (cycleFrame ws) 0 0 = at? ws 0 0 := by
    unfold at? cycleFrame
    simp [hl]
  have h1 : at? (cycleFrame ws) 840 0 = wd (crc32 ws) := by
    unfold at? cycleFrame
    simp [hl]
  have h2 : (cycleFrame ws).take 840 = ws := by
    unfold cycleFrame
    rw [List.take_append_of_le_length (by omega), List.take_of_length_le (by omega)]
  have h3 : (cycleFrame ws).length = 842 := by
    unfold cycleFrame
    simp [hl]
  unfold copyIntact
  simp only [h0, h1, h2, h3, hk, fld_crc32, Bool.true_and, beq_self_eq_true, Bool.and_self]

end Sys2Proof.Machine
end

