-- ==== Sys2Proof/Laws/Vectors.lean ====
section
/-! SUPPORT. Reading a vector after one of its elements has changed. -/

set_option Elab.async false
set_option linter.all false

namespace Sys2Proof.Machine

open Sys2Proof

theorem vget_vset {α : Type} {n : Nat} (v : Vector α n) {i : Nat} (a d : α) (h : i < n) (j : Nat) :
    vget (vset v i a) j d = if i = j then a else vget v j d := by
  unfold vget vset
  rw [dif_pos h, Vector.getElem?_set]
  split <;> rfl

theorem vget_vmod {α : Type} {n : Nat} (v : Vector α n) {i : Nat} (f : α → α) (d : α) (h : i < n) (j : Nat) :
    vget (vmod v i f) j d = if i = j then f (vget v i d) else vget v j d := by
  unfold vget vmod
  rw [dif_pos h, Vector.getElem?_set]
  split
  · simp [h]
  · rfl

theorem vget_vmod_other {α : Type} {n : Nat} (v : Vector α n) {i j : Nat} (f : α → α) (d : α) (h : i ≠ j) :
    vget (vmod v i f) j d = vget v j d := by
  unfold vget vmod
  split
  · rw [Vector.getElem?_set]
    rw [if_neg h]
  · rfl

theorem vmod_vmod {α : Type} {n : Nat} (v : Vector α n) (i : Nat) (f g : α → α) :
    vmod (vmod v i f) i g = vmod v i (fun x => g (f x)) := by
  unfold vmod
  split
  · simp
  · rfl

end Sys2Proof.Machine
end

