-- ==== Sys2Proof/Laws/NozzleWrite.lean ====
section
/-! SUPPORT. Reads and writes of a memory that is not control processor RAM never restart the firmware (R466), so that
NT_COMMIT does not either. -/

set_option Elab.async false
set_option linter.all false

namespace Sys2Proof.Machine

open Sys2Proof

theorem tileFail_code (t c : Nat) (s : State) : (tileFail t c s).pwr.codeError = s.pwr.codeError := by
  simp [tileFail, setUp]

theorem furtherAction_code {m : Nat} (h : m ≠ 6) (a : Nat) (s : State) : (furtherAction m a s).pwr.codeError = s.pwr.codeError := by
  unfold furtherAction
  split
  · exact tileFail_code ..
  · rfl

theorem flipMask_code (m a : Nat) (s : State) : (flipMask m a s).2.pwr = s.pwr := by
  unfold flipMask
  dsimp only
  split <;> simp

theorem userWrite_code (m a : Nat) (d : Word) (s : State) : (userWrite m a d s).pwr = s.pwr := flipMask_code m a _

theorem evictEntry_code {m : Nat} (h : m ≠ 6) (e : MergeEntry) (s : State) :
    (evictEntry m e s).pwr.codeError = s.pwr.codeError := by
  unfold evictEntry
  dsimp only
  have hf : ∀ (x : State), (flipMask m e.addr x).2.pwr = x.pwr := fun x => flipMask_code ..
  repeat' split
  all_goals first
    | (rw [furtherAction_code h, raise_pwr]; exact congrArg Pwr.codeError (hf _))
    | exact congrArg Pwr.codeError (hf _)
    | exact (congrArg Pwr.codeError (hf _)).trans ((noteWriteBack_keeps ..).code.trans (countCorrected_keeps ..).code)

theorem evictAt_code {m : Nat} (h : m ≠ 6) (a : Nat) (s : State) : (evictAt m a s).pwr.codeError = s.pwr.codeError := by
  unfold evictAt
  split
  · exact evictEntry_code h ..
  · rfl

theorem userRead_code {m : Nat} (h : m ≠ 6) (a : Nat) (s : State) : (userRead m a s).2.pwr.codeError = s.pwr.codeError := by
  unfold userRead
  have e := evictAt_code h a s
  dsimp only
  generalize evictAt m a s = x at e
  repeat' split
  all_goals first
    | exact e
    | exact ((corrected_keeps ..).code).trans e
    | (rw [furtherAction_code h, raise_pwr]; exact e)

theorem forEach_code {α : Type} {f : α → State → State} (hf : ∀ a s, (f a s).pwr.codeError = s.pwr.codeError) :
    ∀ (l : List α) (s : State), (forEach l f s).pwr.codeError = s.pwr.codeError
  | [], _ => rfl
  | a :: l, s => (forEach_code hf l (f a s)).trans (hf a s)

theorem ntTouch_code (b : Bool) (s : State) : (ntTouch b s).pwr.codeError = s.pwr.codeError := by
  unfold ntTouch readRange evictRange
  dsimp only
  rw [forEach_code (fun a s => userRead_code (by decide) a s), forEach_code (fun e s => evictEntry_code (by decide) e s)]

theorem forEach_codeOf {α : Type} {f : α → State → State} (hf : ∀ a s, (f a s).pwr.codeError = s.pwr.codeError)
    {l : List α} {s x : State} (h : x.pwr.codeError = s.pwr.codeError) : (forEach l f x).pwr.codeError = s.pwr.codeError :=
  (forEach_code hf l x).trans h

theorem ntSwitch_code (p : Nat) (s : State) : (ntSwitch p s).pwr.codeError = s.pwr.codeError := by
  unfold ntSwitch evictRange
  extract_lets a b c d e f
  have ha : a.pwr.codeError = s.pwr.codeError := forEach_code (fun e s => evictEntry_code (by decide) e s) _ _
  clear_value a
  have hc : c.pwr.codeError = s.pwr.codeError := 
    forEach_codeOf (f := fun a s => putCell 2 a (cellAt s 2 (nozzleCount + a)) s) (fun a s => rfl) ha
  clear_value c
  have hd : d.pwr.codeError = s.pwr.codeError :=
    forEach_codeOf (fun a s => (congrArg Pwr.codeError (userWrite_code ..)).trans (userRead_code (by decide) a s)) hc
  clear_value d
  refine ((ntCount_keeps _).code).trans ?_
  rw [raise_pwr]
  exact hd

/-- A write of NT_COMMIT never restarts the firmware. -/
theorem ntCommitWrite_code (v : Word) (s : State) : (ntCommitWrite v s).2.pwr.codeError = s.pwr.codeError := by
  unfold ntCommitWrite
  dsimp only
  have t := ntTouch_code true s
  repeat' split
  all_goals first
    | rfl
    | exact t
    | (rw [raise_pwr]; exact t)
    | exact (ntSwitch_code ..).trans t

/-- A shadow of which nothing is listed passes check 1 of R284. -/
theorem ntCheck_blank {s : State} (hc : (memU s 2).cells = []) (hm : (memU s 2).merge = []) (he : getW s Obj.ntCheckEn 0 = 0) :
    ntTouch true s = s ∧ ntCheck s (ntShadow s) = none := by
  constructor
  · unfold ntTouch evictRange readRange badCells
    simp [hc, hm, forEach]
  · have e : ∀ n, entryFails s 1 ((ntShadow s).getD n 0) = false := by
      intro n
      unfold ntShadow memImage
      simp only [hc, List.filter_nil, List.foldl_nil, Array.getD_eq_getD_getElem?, Array.getElem?_replicate]
      split <;> rfl
    have f : checkFails s (ntShadow s) 1 = none := by
      unfold checkFails
      rw [if_pos (by decide), List.find?_eq_none]
      intro n _
      rw [e]
      exact Bool.false_ne_true
    have b : ∀ c, bitOf (0#36) c = false := fun c => Nat.zero_testBit c
    unfold ntCheck
    simp [List.range, List.range.loop, he, b, f]

/-- NT_COMMIT of a shadow of which nothing is listed passes. -/
theorem ntCommitWrite_blank {v : Word} {s : State} (hc : (memU s 2).cells = []) (hm : (memU s 2).merge = [])
    (he : getW s Obj.ntCheckEn 0 = 0) (ha : ntCommitAbort v s = 0) (h34 : bitOf v 34 = false) : (ntCommitWrite v s).1 = 0 := by
  have h := ntCheck_blank hc hm he
  unfold ntCommitWrite
  dsimp only
  rw [if_neg (by rw [ha]; decide), h34, h.1, h.2]
  simp only [Bool.false_eq_true, if_false]
  split <;> rfl

/-- What a write leaves in control processor RAM where no flip-mask is armed. -/
theorem ramWrite_plain (d : ObjDef) (i : Nat) (e : Elem) (s : State) (hw : d.wordsPer = 1) (hf : bitOf (getW s Obj.flipCtrl 6) 35 = false) :
    ∃ f, ramWrite d i e s = modMem 6 f s := by
  unfold ramWrite
  split
  · exact ⟨id, by unfold modMem vmod; simp⟩
  · rw [hw]
    simp only [forEach, List.range_one, List.foldl_cons, List.foldl_nil]
    unfold userWrite flipMask dropWaiting
    have h : ∀ f, bitOf (getW (modMem 6 f s) Obj.flipCtrl 6) 35 = false := fun f => hf
    dsimp only
    rw [h]
    simp only [Bool.false_and, Bool.false_eq_true, if_false]
    unfold putCell modMem
    simp only [vmod_vmod]
    exact ⟨_, rfl⟩

/-- A write of NT_COMMIT is accepted where every other check and its own pass. -/
theorem accepted_ntCommit {v : Word} {s : State} {d : ObjDef} (hd : findObj Obj.ntCommit = some d) (hi : d.id = Obj.ntCommit)
    (he : elemsOf d.wordsPer [v] = [el v.toNat])
    (h0 : ∀ c ∈ plainAborts d true 0 1 ++ [whenCode ([v].length != d.wordsPer) 0x05], c = 0)
    (h1 : ∀ c ∈ pageAbortCode d s :: gateAborts d true false s, c = 0)
    (ht : typeOk d.ty (el v.toNat) = true) (hr : rangeOk d (maskElem d (el v.toNat)) = true)
    (h : (ntCommitWrite (elemLo (maskElem d (el v.toNat))) s).1 = 0) : Accepted Obj.ntCommit 0 [v] s := by
  unfold Accepted writeCodes
  simp only [hd, he]
  intro c hc
  rcases List.mem_append.1 hc with hc | hc
  · exact h0 c hc
  rcases List.mem_append.1 hc with hc | hc
  · exact h1 c hc
  · unfold elemAborts at hc
    rw [ht] at hc
    dsimp only at hc
    rw [hr, hi] at hc
    have hs : stateAborts Obj.ntCommit 0 (maskElem d (el v.toNat)) s
        = [(ntCommitWrite (elemLo (maskElem d (el v.toNat))) s).1] := rfl
    have hv : valueBad Obj.ntCommit 0 (elemLo (maskElem d (el v.toNat))) s = false := rfl
    simp only [hs, hv, h, Bool.not_true, Bool.false_eq_true, if_false, List.mem_cons, List.not_mem_nil, or_false] at hc
    obtain hc | hc | hc := hc <;> exact hc

end Sys2Proof.Machine
end

