-- ==== Sys2Proof/Laws/Quiet.lean ====
section
/-! SUPPORT. What operations that end with a check of the wind-down leave alone where no such step is under way (R67). -/

set_option Elab.async false
set_option linter.all false

namespace Sys2Proof.Machine

open Sys2Proof

theorem headStatus_quiet (h : Nat) (ws : List Word) (eofOk : Bool) (s : State) (q : Steady s) :
    Keeps [.ev, .fire, .links, .insp, .sent, .up] [Obj.eventLost, Obj.headTemp, Obj.linkCrcErrors, Obj.notFired] s (headStatus h ws eofOk s) := by
  have S : ∀ x, Keeps [.ev, .fire, .links, .insp, .sent, .up] [Obj.eventLost, Obj.headTemp, Obj.linkCrcErrors, Obj.notFired] s x →
      Keeps [.ev, .fire, .links, .insp, .sent, .up] [Obj.eventLost, Obj.headTemp, Obj.linkCrcErrors, Obj.notFired] s (idleCheck x) :=
    fun x k => k.idle q.1
  unfold headStatus
  refine keeps_ite (Keeps.refl _ _ _) (keeps_ite ((crcCount_keeps ..).mono (by decide) (by decide)) ?_)
  extract_lets w0 w1 w3 s1 s2 s3 s4
  have h1 : Keeps [.ev, .fire, .links, .insp, .sent, .up] [Obj.eventLost, Obj.headTemp, Obj.linkCrcErrors, Obj.notFired] s s1 :=
    (modLink_keeps ..).mono (by decide) (by decide)
  clear_value s1
  have h2 : Keeps [.ev, .fire, .links, .insp, .sent, .up] [Obj.eventLost, Obj.headTemp, Obj.linkCrcErrors, Obj.notFired] s s2 :=
    keeps_ite ((tempReport_keeps ..).step (by decide) (by decide) h1) h1
  clear_value s2
  have h3 : Keeps [.ev, .fire, .links, .insp, .sent, .up] [Obj.eventLost, Obj.headTemp, Obj.linkCrcErrors, Obj.notFired] s s3 :=
    (crcCount_keeps ..).step (by decide) (by decide) ((faultReport_keeps ..).step (by decide) (by decide) h2)
  clear_value s3
  exact S _ ((pumpHead_keeps ..).step (by decide) (by decide)
    ((bankReload_keeps ..).step (by decide) (by decide) ((statusLink_keeps ..).step (by decide) (by decide) h3)))

theorem servoCycle_quiet (s : State) (q : Steady s) :
    Keeps [.ev, .fire, .links, .pos, .hare, .axes, .aux, .insp, .sent] [Obj.axDecelNow, Obj.axSetpoint, Obj.encoutOverruns, Obj.eventLost]
      s (servoCycle s) := by
  unfold servoCycle
  refine keeps_ite (Keeps.refl _ _ _) ?_
  extract_lets s1
  have h1 : Keeps [.ev, .fire, .links, .pos, .hare, .axes, .aux, .insp, .sent]
      [Obj.axDecelNow, Obj.axSetpoint, Obj.encoutOverruns, Obj.eventLost] s s1 :=
    keeps_ite (Keeps.refl _ _ _) ((posTouch_keeps ..).step (by decide) (by decide) ((hareCycle_keeps ..).mono (by decide) (by decide)))
  clear_value s1
  refine keeps_ite h1 ?_
  refine Keeps.cap ?_ q.2
  exact (auxSend_keeps ..).step (by decide) (by decide)
    (keeps_forEach (fun _ _ k => (axisCycle_keeps ..).step (by decide) (by decide) k) h1)

/-- What becomes of the function of a lane that is gone. -/
theorem laneGone_quiet (i cause : Nat) (s : State) (q : Steady s) :
    Keeps [.pwr, .clock, .ev, .mem, .ring, .lanes, .bond, .rfe, .pages, .codec, .dict, .fabric, .fire, .links, .pos, .insp, .xing, .sent, .free, .up, .values, .cmps, .nt]
      [Obj.cmpMissed, Obj.compLost, Obj.compSaturated, Obj.corrected, Obj.creditErrors, Obj.edgeWaits, Obj.eventLost, Obj.evidSkipped, Obj.flipCtrl, Obj.hdrErrors, Obj.lgAccepted, Obj.linesScreened, Obj.maxLineRate, Obj.pageNow, Obj.pageOrigin, Obj.poisonReads, Obj.syncState, Obj.tblRejected, Obj.tileFault, Obj.tileReady, Obj.uncorrectable, Obj.wbDropped]
      s (laneGone i cause s) := by
  unfold laneGone
  refine keeps_ite (keeps_ite ((dskRelease_keeps ..).step (by decide) (by decide)
      ((dskDone_keeps ..).step (by decide) (by decide) ((bondLose_keeps ..).mono (by decide) (by decide)))) (Keeps.refl _ _ _))
    (keeps_ite (Keeps.refl _ _ _) (keeps_ite ?_ (keeps_ite ?_ (keeps_ite ((cameraLost_keeps ..).mono (by decide) (by decide))
      ((portLost_keeps ..).mono (by decide) (by decide))))))
  · exact ((headLaneLost_keeps ..).idle q.1).mono (by decide) (by decide)
  · exact (screenRun_keeps ..).step (by decide) (by decide) ((seamDown_keeps ..).mono (by decide) (by decide))

theorem Steady.after {T : List Area} {O : List Nat} {s x : State} (k : Keeps T O s x) (q : Steady s) (hp : .pwr ∉ T := by decide) :
    Steady x := by
  unfold Steady
  rw [k.autumn hp]
  exact q

theorem laneLost_quiet (i cause errors : Nat) (s : State) (q : Steady s) :
    Keeps [.pwr, .clock, .ev, .mem, .ring, .lanes, .bond, .rfe, .pages, .codec, .dict, .fabric, .fire, .links, .pos, .insp, .xing, .sent, .free, .up, .values, .cmps, .nt]
      [Obj.cmpMissed, Obj.codeErrors, Obj.compLost, Obj.compSaturated, Obj.corrected, Obj.creditErrors, Obj.edgeWaits, Obj.eventLost, Obj.evidSkipped, Obj.flipCtrl, Obj.hdrErrors, Obj.lgAccepted, Obj.linesScreened, Obj.maxLineRate, Obj.pageNow, Obj.pageOrigin, Obj.poisonReads, Obj.syncState, Obj.tblRejected, Obj.tileFault, Obj.tileReady, Obj.uncorrectable, Obj.wbDropped]
      s (laneLost i cause errors s) := by
  unfold laneLost
  extract_lets s1 serves s2 s3
  have h1 : Keeps [.lanes] [] s s1 := keeps_ite (modLane_keeps ..) (Keeps.refl _ _ _)
  clear_value s1
  refine keeps_ite (h1.mono (by decide) (by decide)) ?_
  have h3 : Keeps [.ev, .lanes, .up] [Obj.codeErrors, Obj.eventLost] s s3 :=
    (lockDrop_keeps ..).step (by decide) (by decide)
      (keeps_ite (keeps_bump (by decide) (h1.mono (by decide) (by decide))) (h1.mono (by decide) (by decide)))
  clear_value s3
  refine keeps_ite ?_ (h3.mono (by decide) (by decide))
  exact (laneGone_quiet i 1 _ (q.after h3)).step (by decide) (by decide) (h3.mono (by decide) (by decide))

theorem laneOut_quiet (i : Nat) (s : State) (q : Steady s) :
    Keeps [.pwr, .clock, .ev, .mem, .ring, .lanes, .bond, .rfe, .pages, .codec, .dict, .fabric, .fire, .links, .pos, .insp, .xing, .sent, .free, .up, .values, .cmps, .nt]
      [Obj.cmpMissed, Obj.compLost, Obj.compSaturated, Obj.corrected, Obj.creditErrors, Obj.edgeWaits, Obj.eventLost, Obj.evidSkipped, Obj.flipCtrl, Obj.hdrErrors, Obj.lgAccepted, Obj.linesScreened, Obj.maxLineRate, Obj.pageNow, Obj.pageOrigin, Obj.poisonReads, Obj.syncState, Obj.tblRejected, Obj.tileFault, Obj.tileReady, Obj.uncorrectable, Obj.wbDropped]
      s (laneOut i s) := by
  unfold laneOut
  have h1 := laneStop_keeps i s
  exact keeps_ite ((laneGone_quiet i 2 _ (q.after h1)).step (by decide) (by decide) (h1.mono (by decide) (by decide)))
    (h1.mono (by decide) (by decide))

end Sys2Proof.Machine
end

