-- ==== Sys2Proof/Laws/Raised.lean ====
section
/-! SUPPORT. The events raised since a state: what is raised while the firmware runs stays raised until the control
cycle. -/

set_option Elab.async false
set_option linter.all false

namespace Sys2Proof.Machine

open Sys2Proof

/-- Raising an event only adds to the events raised. -/
theorem raise_raised (c : Nat) (ps : List Word) (s : State) : s.ev.raised <+: (raise c ps s).ev.raised := by
  unfold raise
  dsimp only
  split
  · exact List.prefix_append _ _
  · split
    · exact List.prefix_rfl
    · exact List.prefix_rfl

/-- The events of READY only add to the events raised. -/
theorem readyEvents_raised (old new : Word) : ∀ (bits : List Nat) (s : State),
    s.ev.raised <+: (readyEvents old new bits s).ev.raised
  | [], _ => List.prefix_rfl
  | b :: bits, s => by
    have h : readyEvents old new (b :: bits) s = readyEvents old new bits (readyEvents old new [b] s) := rfl
    rw [h]
    refine List.IsPrefix.trans ?_ (readyEvents_raised old new bits _)
    simp only [readyEvents, List.foldl]
    split
    · exact List.prefix_rfl
    · split <;> exact raise_raised ..

/-- Settling only adds to the events raised while the firmware runs. -/
theorem settle_raised {s : State} (h : rdy s 25 = true) : s.ev.raised <+: (settle s).ev.raised := by
  unfold settle
  dsimp only
  split
  · exact List.prefix_rfl
  · rw [h]
    exact readyEvents_raised _ _ _ { s with pwr := { s.pwr with ready := readyOf s } }

/-- An event raised stays raised. -/
theorem Raises.mono {c : Nat} {ps : List Word} {s x y : State} (h : Raises c ps s x) (p : x.ev.raised <+: y.ev.raised) :
    Raises c ps s y := by
  obtain ⟨new, a, b⟩ := h
  obtain ⟨r, p⟩ := p
  exact ⟨new ++ r, by rw [← p, a, List.append_assoc], b.imp fun e q => ⟨List.mem_append_left _ q.1, q.2⟩⟩

/-- Settling keeps what the firmware has raised. -/
theorem Raises.settled {c : Nat} {ps : List Word} {s x : State} (h : Raises c ps s x) (r : rdy x 25 = true) :
    Raises c ps s (settle x) := h.mono (settle_raised r)

end Sys2Proof.Machine
end

