-- ==== Sys2Proof/WellFormed.lean ====
section
/-! DEFINITION. Which commands are well formed: every operand that Lean's types leave wider than its field of the spec
fits that field. exec is total and takes an ill-formed command too; nothing that the device meets is ill formed. -/

namespace Sys2Proof

/-- An access (R81, R83): slot 0 to 63, or 64 for all; object ID below 2^20 (R11); index and count of one word. -/
def Access.ok (a : Access) : Bool :=
  decide (a.slot ≤ 64) && decide (a.obj < 2 ^ 20) && decide (a.index < 2 ^ 36) && decide (a.count < 2 ^ 36)

/-- A cycle-frame copy holds at most the 842 words of R124 (a damaged one may hold fewer). -/
def CopyIn.ok (c : CopyIn) : Bool := decide (c.words.length ≤ 842)

/-- A mailbox segment holds at most the 768 words of the mailbox (R129). -/
def segOk (seg : List Word) : Bool := decide (seg.length ≤ 768)

/-- The fields of an Ethernet frame (R140, R141). -/
def HostFrame.ok (f : HostFrame) : Bool :=
  decide (f.etherType < 2 ^ 16) && decide (f.udpPort < 2 ^ 16) && decide (f.headerBytes ≤ 60)

/-- The header fields of an IEEE 1588 message (R162). -/
def PtpHdr.ok (h : PtpHdr) : Bool := decide (h.domain < 2 ^ 8) && decide (h.seq < 2 ^ 16)

/-- The datasets of an Announce (R162, R163). -/
def Announce.ok (a : Announce) : Bool :=
  decide (a.priority1 < 2 ^ 8) && decide (a.clockClass < 2 ^ 8) && decide (a.accuracy < 2 ^ 8)
    && decide (a.variance < 2 ^ 16) && decide (a.priority2 < 2 ^ 8) && decide (a.stepsRemoved < 2 ^ 16)

/-- An item of calibration or self-test and its target (R433, R438: six bits of 10.000 CAL_REQ each). -/
def calItemOk (item target : Nat) : Bool :=
  (item == 1 && decide (target < 4)) || ((item == 2 || item == 19) && decide (target < 32)) || (item == 16 && target == 0)
    || (item == 17 && decide (target < 8)) || (item == 18 && decide (target < 27))

/-- The command's operands fit their fields. -/
def Instr.wellFormed : Instr → Bool
  | .railOutOfRange _ _ mv => decide (mv < 2 ^ 36)
  | .powerOnReset _ => true
  | .powerOnRelease _ _ => true
  | .resetNLow _ => true
  | .resetNHigh _ _ => true
  | .watchdogTimeout _ => true
  | .wakePin _ => true
  | .wakePattern _ _ => true
  | .wakeRelay _ _ => true
  | .domainsPowered _ => true
  | .pllLock _ => true
  | .functionReady _ _ => true
  | .flashDiscovered _ _ => true
  | .ntLoadDone _ => true
  | .enterSummer _ => true
  | .seasonReqWinter _ => true
  | .seasonReqHold _ => true
  | .seasonReqSummer _ => true
  | .seasonReqRestart _ => true
  | .autumnIdleTimeout _ => true
  | .autumnCapTimeout _ => true
  | .autumnStaggerOff _ => true
  | .funcResetHold _ _ => true
  | .funcResetRelease _ _ => true
  | .funcResetRestart _ => true
  | .saveReq _ => true
  | .saveComplete _ _ => true
  | .saveTimeout _ => true
  | .d2dCommandFrame _ _ => true
  | .d2dLinkLost _ => true
  | .vdrvLow _ => true
  | .readObj _ a => a.ok
  | .writeObject _ a vals => a.ok && decide (vals.length ≤ 256)
  | .openRead _ a => a.ok
  | .openWrite _ a => a.ok
  | .segment _ _ seq count words => decide (seq < 2 ^ 16) && decide (count ≤ 256) && decide (words.length ≤ 256)
  | .closeTransfer _ _ _ => true
  | .transferTimeout _ _ => true
  | .broadcastWrite _ a vals => a.ok && a.slot == 64 && decide (vals.length ≤ 256)
  | .commitPage _ _ => true
  | .commitCancel _ _ => true
  | .commitNow _ => true
  | .controlCycle _ => true
  | .eventAck _ _ => true
  | .cycleStart _ => true
  | .cycleFrameCopy _ c => c.ok
  | .copyReturn _ c => c.ok
  | .copyReturnTimeout _ _ => true
  | .mailboxRequest _ seg => segOk seg
  | .mailboxReply _ seg => segOk seg
  | .mailboxNak _ seg => segOk seg
  | .ringAccessTimeout _ tag => decide (tag < 2 ^ 8)
  | .ringRestore _ => true
  | .slotMissing _ _ => true
  | .ringLost _ => true
  | .slotReclaim _ => true
  | .hostFrame _ f => f.ok
  | .arpRequest _ _ _ _ => true
  | .icmpEcho _ _ _ payload => decide (payload.length ≤ 1472)
  | .hostDatagram _ _ port words => decide (port < 2 ^ 16) && decide (words.length ≤ 294)
  | .replyCacheExpire _ _ port seq => decide (port < 2 ^ 16) && decide (seq < 2 ^ 16)
  | .hostLinkDown _ => true
  | .syncTimeout _ => true
  | .announceTimeout _ => true
  | .holdoverReadyExpire _ => true
  | .ptpSync _ h _ _ => h.ok
  | .ptpFollowUp _ h _ => h.ok
  | .ptpDelayReqTimer _ _ => true
  | .ptpDelayResp _ h _ => h.ok
  | .ptpAnnounce _ h ann => h.ok && ann.ok
  | .ptpPdelayReq _ h _ _ => h.ok
  | .ptpPdelayResp _ h _ _ => h.ok
  | .ptpPdelayRespFollowUp _ h _ => h.ok
  | .timeResync _ => true
  | .timeNowWrite _ _ _ => true
  | .trigEnable _ _ => true
  | .triggerFire _ _ => true
  | .captureEdge _ _ _ _ _ => true
  | .laneLock _ _ => true
  | .laneLockLost _ _ => true
  | .laneNoSignal _ _ => true
  | .bufferSlip _ _ _ => true
  | .skipReceived _ _ fill => decide (fill ≤ 32)
  | .blockLock _ _ => true
  | .blockLockLost _ _ => true
  | .dskReceived _ _ n p g => decide (n < 16) && decide (p < 16) && decide (g < 2 ^ 16)
  | .dskTimeout _ _ => true
  | .prbsLock _ _ => true
  | .prbsWindowEnd _ _ _ _ => true
  | .injectSingle _ _ => true
  | .injectBurst _ _ => true
  | .lanePrbsMode _ _ _ _ _ => true
  | .laneLoopback _ _ _ => true
  | .laneEnable _ _ => true
  | .laneDisable _ _ => true
  | .lgHeader _ copies => decide (copies.length ≤ 5)
  | .lineGroupComplete _ page lg blocks => decide (page < 2 ^ 24) && decide (lg < 2 ^ 16) && decide (blocks.length ≤ 4096) && blocks.all (fun b => decide (b.length ≤ 24))
  | .tableFrame _ words _ => decide (words.length ≤ 1030)
  | .creditFrameTimer _ => true
  | .laneOffer _ _ => true
  | .bondCfgWrite _ _ => true
  | .checkInstant _ page lg => decide (page < 2 ^ 24) && decide (lg < 2 ^ 16)
  | .decodeLineGroup _ => true
  | .screenStart _ => true
  | .edgeFrameReceived _ _ _ words _ => decide (words.length ≤ 12288)
  | .edgeFrameTimeout _ _ _ _ => true
  | .edgeRetry _ _ words => decide (words.length ≤ 4)
  | .configLoad _ _ _ => true
  | .handoverInstant _ _ => true
  | .handoverDeadline _ _ => true
  | .ntCommitPage _ page => decide (page < 2 ^ 24)
  | .ntCommitNow _ => true
  | .ntCommitCancel _ page => decide (page < 2 ^ 24)
  | .seedingDone _ => true
  | .ntApprove _ gen => decide (gen < 2 ^ 12)
  | .ntReject _ gen => decide (gen < 2 ^ 12)
  | .fireEnableArm _ => true
  | .fireEnableDisarm _ => true
  | .positionLatch _ => true
  | .lineCommit _ _ => true
  | .boundaryReached _ _ => true
  | .bookClear _ => true
  | .haltStopped _ => true
  | .pageAbort _ => true
  | .headStatus _ _ r => decide (r.words.length ≤ 6)
  | .statusTimeout _ _ => true
  | .tmarkSend _ _ _ => true
  | .tmarkEcho _ _ m _ _ => decide (m.d0 < 256) && decide (m.d1 < 256) && decide (m.d2 < 256)
  | .echoMissing _ _ => true
  | .bankLoad _ _ => true
  | .headIdleCommand _ _ => true
  | .regRead _ _ addr => decide (addr < 2 ^ 16)
  | .regWrite _ _ addr => decide (addr < 2 ^ 16)
  | .regReply _ _ r => decide (r.words.length ≤ 4)
  | .regReplyTimeout _ _ => true
  | .encoderEdge _ _ _ _ _ => true
  | .indexPulse _ _ => true
  | .encoderWireFault _ _ _ => true
  | .encoderOverspeed _ _ _ => true
  | .encoderRecover _ _ => true
  | .posSourceWrite _ _ => true
  | .posPreset _ _ _ => true
  | .cmpArm _ _ _ => true
  | .cmpFire _ _ => true
  | .servoCycle _ => true
  | .hareRun _ _ _ => true
  | .auxReply _ bytes => decide (bytes.length ≤ 13)
  | .auxReplyTimeout _ => true
  | .axTargetWrite _ _ _ => true
  | .axDecelWrite _ _ _ => true
  | .axStop _ _ => true
  | .auxFaultClear _ => true
  | .cameraLine _ _ words _ => decide (words.length ≤ 349529)
  | .cameraStatus _ _ words _ => decide (words.length ≤ 4)
  | .syncReq _ _ => true
  | .expCommit _ _ => true
  | .stripeProcess _ => true
  | .dispAck _ _ => true
  | .calReq _ _ => true
  | .calAutoTrigger _ _ => true
  | .calStart _ item target => calItemOk item target
  | .calRunDone _ item target _ _ => calItemOk item target
  | .calRequestExpire _ item target => calItemOk item target
  | .calRetry _ item target => calItemOk item target
  | .writeBack _ _ => true
  | .mergeEvict _ _ => true
  | .scrubRead _ _ _ => true
  | .repairDone _ _ => true
  | .memoryClear _ _ => true
  | .summaryPeriodEnd _ => true
  | .hpcRequestOn _ _ => true
  | .hpcRequestOff _ _ => true
  | .staggerSlot _ _ => true
  | .channelCheckDone _ _ _ _ => true
  | .rampSettled _ _ => true
  | .rampTimeout _ _ => true
  | .overcurrentTrip _ _ => true
  | .tripHoldoffEnd _ _ => true
  | .tripCountClear _ _ => true
  | .senseOpen _ _ _ _ => true
  | .adcSequence _ _ => true
  | .adcSample _ _ _ _ => true
  | .hpcUnlatch _ _ => true
  | .fireTimeReached _ _ => true
  | .railBackInRange _ _ => true
  | .pdelayReqTimer _ _ => true

end Sys2Proof
end

