-- ==== Sys2Proof/Tests/Slice0.lean ====
section
/-! SUPPORT. Tests of single steps on small states, ill-formed terms that the checks refuse, and a state and operands
that meet the hypotheses of each statement. -/

set_option Elab.async false
set_option linter.all false

namespace Sys2Proof.Tests

open Sys2Proof Sys2Proof.Machine

/-- The device in a season with every function ready. -/
def at_ (x : Season) : State :=
  { State.reset with pwr := { State.reset.pwr with season := x, up := 0x3FFFFFF, ready := 0x3FFFFFF, domains := true } }

/-- The device in Thaw and in Summer. -/
def thaw : State := at_ .thaw
def summer : State := at_ .summer

/-! EmptyQueueLetsATickPass. -/

/-- A state with an empty queue. -/
theorem emptyQueue : State.reset.pending = [] := rfl

/-! ReadyAgreesAfterEveryStep. -/

/-- Reset meets the premise, and a step leaves it. -/
theorem agreesAndSteps : ReadyAgrees State.reset ∧ ∃ t, Steps State.reset t := ⟨rfl, _, rfl⟩

/-! StepsKeepMemoriesValuesAndEventsSound. -/

/-- Reset meets the premise, and a step leaves it. -/
theorem soundAndSteps : Sound State.reset ∧ ∃ t, Steps State.reset t :=
  ⟨⟨by unfold MemoriesCanonical memsCanonical; decide, ⟨rfl, rfl⟩, by decide, by decide⟩, _, rfl⟩

/-! StepsTakeOneCommandAndOnlySendMore. -/

/-- A state and a step of it. -/
theorem steps : ∃ t, Steps State.reset t := ⟨_, rfl⟩

/-! ReadyHonoursDependencies. -/

/-- A state in which every function is ready and READY agrees. -/
theorem everyFunctionReady : readyOf summer = summer.pwr.ready ∧ rdy summer 9 = true ∧ rdy summer 12 = true ∧ rdy summer 19 = true
    ∧ rdy summer 21 = true := by decide

/-! FirstAbortInTheOrderOfChecking. -/

/-- A read of a write-only object, and a write past an array's end. -/
theorem refusedAccesses : firstAbort (plainAborts ((findObj Obj.commitPage).get rfl) false 0 1
      ++ gateAborts ((findObj Obj.commitPage).get rfl) false false summer) = 0x04
    ∧ firstAbort (plainAborts ((findObj Obj.laneCfg).get rfl) true 48 1 ++ [whenCode (([0] : List Word).length != 1 * 1) 0x05]) = 0x02 := by
  decide

/-! PlainAccessesMustFitTheirObject. -/

/-- A scalar with an index, a write of a read-only object, a read of a write-only one, and a TABLE read plainly. -/
theorem accessesThatDoNotFit :
    ((findObj Obj.seasonReq).get rfl).isBulk = false ∧ ((findObj Obj.seasonReq).get rfl).isArray = false
    ∧ ((findObj Obj.laneCfg).get rfl).isArray = true ∧ ((findObj Obj.laneCfg).get rfl).count < 48 + max 1 1
    ∧ ((findObj Obj.season).get rfl).cls = .ro ∧ ((findObj Obj.season).get rfl).isArray = false
    ∧ ((findObj Obj.commitPage).get rfl).cls = .wo ∧ ((findObj Obj.headGeom).get rfl).isBulk = true
    ∧ awake summer = true ∧ summer.pwr.codeError = false := by decide

/-! UndefinedObjectsAreRefused. -/

/-- An identifier in group 16, and one that its group does not define. -/
theorem undefinedObjects : findObj 0x16000 = none ∧ findObj 0x00FFF = none ∧ awake thaw = true ∧ thaw.pwr.codeError = false := by decide

/-! SaveBeforeTheFlashIsUsableIsRefused. -/

/-- A device in Thaw whose flash has not been found. -/
theorem noFlashYet : awake State.reset = true ∧ State.reset.pwr.codeError = false ∧ rdy State.reset 24 = false := by decide

/-! SeasonRequestsRefused. -/

/-- Autumn, Summer, a page in progress, and none. -/
theorem requestsThatAreRefused : awake (at_ .autumn) = true ∧ (at_ .autumn).pwr.codeError = false ∧ (at_ .autumn).pwr.season = .autumn
    ∧ awake summer = true ∧ summer.pwr.season = .summer
    ∧ pageInProgress { summer with pages := [{ num := 1, origin := 0, columns := 8, lastLg := none, nextLg := 0, missing := [], screened := false, heads := 0 }] } = true
    ∧ pageInProgress thaw = false := by decide

/-! FuncResetWritesRefused. -/

/-- Refused values: bit 20 in Summer, bit 10, and the host port of a stand-alone device. -/
theorem refusedHolds : awake summer = true ∧ summer.pwr.codeError = false ∧ routeOf 0 summer = .here ∧ bitOf (wd (2 ^ 20)) 20 = true
    ∧ summer.pwr.season ≠ .thaw ∧ bitOf (wd (2 ^ 10)) 10 = true ∧ bitOf (wd (2 ^ 10)) 20 = false ∧ bitOf (wd (2 ^ 10)) 4 = false
    ∧ role summer = 0 ∧ bitOf (wd 8) 3 = true ∧ bitOf (wd 8) 25 = false := by decide

/-! OfTwoPagesAtMostOneIsAhead. -/

/-- Two pages, the second ahead across the wrap. -/
theorem aheadAcrossTheWrap : ahead 0 (2 ^ 24 - 1) = true ∧ ahead (2 ^ 24 - 1) 0 = false ∧ ahead 0 (2 ^ 23) = false := by decide

/-! EventsPassTheMaskAndMerge. -/

/-- A masked event, and one that repeats the newest entry at the limit of 1 ms. -/
theorem maskedAndRepeated :
    passesMask (setN Obj.eventMask 0 0 summer) { time := 0, group := 1, number := 1, sev := 0, params := [] } = false
    ∧ passesMask summer { time := 2 ^ 36 / 1000, group := 1, number := 1, sev := 0, params := [] } = true
    ∧ (2 ^ 36 / 1000) * 1000 ≤ 2 ^ 36 := by decide

/-! WritesOfRwbObjectsWriteTheShadowAlone. -/

/-- An RWB object written in Summer, and a shadow read of another. -/
theorem shadowAccesses : Works summer ∧ ((findObj Obj.toneCurves).map (·.cls) = some Class.rwb) ∧ routeOf 0 summer = .here := by decide

/-! AccessesAndBlockTransfersAreCarriedOut. -/

/-- A device in Summer with block transfers open: a read on handle 0 and a write on handle 1. -/
def transfers : State :=
  setTransfer 0 (some { obj := Obj.toneCurves, write := false, shadow := false, offset := 0, length := 2, nextSeq := 0, words := [],
                        sent := 0, switched := false, captured := [] })
    (setTransfer 1 (some { obj := Obj.toneCurves, write := true, shadow := false, offset := 0, length := 1, nextSeq := 0,
                           words := [], sent := 0, switched := false, captured := [] })
      (setTransfer 2 (some { obj := Obj.compKernels, write := true, shadow := false, offset := 0, length := 1, nextSeq := 1,
                             words := [0], sent := 0, switched := false, captured := [] }) summer))
/-- Reads: a scalar, and READY. -/
theorem plainReadable : awake summer = true ∧ routeOf 0 summer = .here
    ∧ (∀ c ∈ plainAborts ((findObj Obj.fireLead).get rfl) false 0 1 ++ gateAborts ((findObj Obj.fireLead).get rfl) false false summer, c = 0)
    ∧ Works summer := by decide +kernel
/-- An open request of each direction. -/
theorem openable : ((findObj Obj.levels).get rfl).isBulk = true ∧ ((findObj Obj.levels).get rfl).cls = .rwb
    ∧ 0 + 96 ≤ ((findObj Obj.levels).get rfl).count ∧ writeOpen transfers Obj.levels = false ∧ inCommit transfers Obj.levels = false
    ∧ transferOf transfers 3 = none ∧ (∀ k, k < 3 → transferOf transfers k ≠ none) ∧ transfers.nt.seeding = false
    ∧ Works transfers ∧ routeOf 0 transfers = .here := by decide +kernel
/-- Segments and close requests of each direction; the CRC is over the one word of handle 2. -/
theorem closable : (transferOf transfers 0).isSome = true ∧ (transferOf transfers 1).isSome = true
    ∧ (∀ tr, transferOf transfers 1 = some tr → segmentBarred tr transfers = false)
    ∧ (∃ crc : BitVec 32, crc.toNat = crc32 [0]) ∧ closeOk Obj.compKernels (fun i => elemLo (getShadow transfers Obj.compKernels i)) = true := by
  refine ⟨by decide +kernel, by decide +kernel, (by intro tr h; cases h; decide +kernel), ⟨BitVec.ofNat 32 (crc32 [0]), by decide +kernel⟩, by decide +kernel⟩
/-- A scalar RWB object written through slot 64 of a stand-alone device. -/
theorem broadcastable : Works summer ∧ role summer = 0 ∧ ((findObj Obj.stateMask).get rfl).cls = .rwb
    ∧ ((findObj Obj.stateMask).get rfl).isArray = false ∧ Accepted Obj.stateMask 0 [52] (advance 0 summer) := by decide +kernel

/-! CommitsSavesAndTheEventQueue. -/

/-- Dirty objects, and a pending commit for page 5. -/
def dirty : State := { setShadow Obj.stateMask 0 3 summer with dict := { (setShadow Obj.stateMask 0 3 summer).dict with dirty := [Obj.stateMask] } }
def pendingFive : State :=
  setSlot 0 (some { page := 5, objs := [Obj.stateMask], image := [], inputDone := false, screenDone := false, heads := 0 }) summer
/-- COMMIT_PAGE with an object dirty, and with none. -/
theorem commitsBind : Works dirty ∧ Accepted Obj.commitPage 0 [7] (advance 0 dirty) ∧ dirty.dict.dirty ≠ []
    ∧ (∀ x ∈ pendingCommits dirty, x.2.page ≠ fld 7 23 0) ∧ vget dirty.dict.commits 0 none = none
    ∧ Accepted Obj.commitPage 0 [7] (advance 0 summer) ∧ summer.dict.dirty = [] := by decide +kernel
/-- COMMIT_CANCEL of page 5, and COMMIT_NOW. -/
theorem commitsCancelAndSwitch : Works pendingFive ∧ Accepted Obj.commitCancel 0 [5] (advance 0 pendingFive)
    ∧ ((pendingCommits pendingFive).find? (fun x => x.2.page == fld 5 23 0)).isSome = true
    ∧ Accepted Obj.commitNow 0 [1] (advance 0 dirty) ∧ valuesRise dirty.dict := by
  refine ⟨by decide +kernel, by decide +kernel, by decide +kernel, by decide +kernel, by decide +kernel, by decide +kernel⟩
/-- SAVE; an entry acknowledged; and an event raised. -/
theorem savesAndEvents : Accepted Obj.save 0 [1] (advance 0 summer)
    ∧ Accepted Obj.eventAck 0 [0] (advance 0 (newEntry { time := 0, group := 1, number := 1, sev := 0, params := [] } summer))
    ∧ readyOf summer = summer.pwr.ready ∧ (raise 0x01001 [0] summer).ev.raised.length = 1
    ∧ passesMask summer { time := 0, group := 1, number := 1, sev := 0, params := [0] } = true := by decide +kernel

/-! SeasonRequestsTakeEffect. -/

/-- A device in Summer with head link 0 READY and its bridge at work. -/
def printing : State := modLink 0 (fun l => { l with state := .ready, idle := false }) summer
/-- Requests in Summer, a hold in Thaw, and a watchdog timeout. -/
theorem requestsAreAccepted : Works printing ∧ Accepted Obj.seasonReq 0 [0] (advance 0 printing)
    ∧ Accepted Obj.seasonReq 0 [3] (advance 0 printing) ∧ Accepted Obj.seasonReq 0 [2] (advance 0 printing)
    ∧ (linkU printing 0).state = .ready ∧ (linkU printing 0).idle = false ∧ printing.pwr.season ≠ .autumn
    ∧ Works thaw ∧ Accepted Obj.seasonReq 0 [1] (advance 0 thaw) := by decide +kernel

/-! HeldFunctionsAreNotReady. -/

/-- The fabric held in Thaw, a release of it, and a restart in Summer. -/
theorem holdsAreAccepted : Works thaw ∧ Steady thaw ∧ thaw.fabric.work = none
    ∧ Accepted Obj.funcReset 0 [setBit (heldNow thaw) 9 true] (advance 0 thaw)
    ∧ Accepted Obj.funcReset 0 [setBit (heldNow thaw) 9 false] (advance 0 thaw)
    ∧ Works printing ∧ Steady printing
    ∧ Accepted Obj.funcReset 0 [setBit (heldNow printing) 25 true] (advance 0 printing) := by decide +kernel

/-! AutumnGoesStepByStep. -/

/-- A device in a step of Autumn, heading for Winter or for Thaw, with channels on in an order. -/
def windingDown (step : Nat) (toWinter : Bool) (order : List Nat) : State :=
  { at_ .autumn with
    pwr := { (at_ .autumn).pwr with autumn := { step := step, toWinter := toWinter, firmware := false, capping := [], again := false } }
    hpc := { (at_ .autumn).hpc with order := order } }
/-- A device that saves. -/
def saving : State := saveStart summer
/-- Every step of Autumn, and saves. -/
theorem autumnSteps : awake (windingDown 1 true [0, 1]) = true ∧ (windingDown 1 true [0, 1]).flash.saving = none
    ∧ rdy (windingDown 2 true [0, 1]) 24 = true ∧ getN (windingDown 1 true [0, 1]) Obj.autumnCap 0 = 0
    ∧ (windingDown 4 true [0, 1]).hpc.order = [0] ++ [1] ∧ (1 : Nat) ∉ [0]
    ∧ (windingDown 4 false [5]).pwr.wakeLatched = none ∧ (windingDown 4 true [5]).pwr.autumn.toWinter = true
    ∧ awake saving = true ∧ saving.flash.saving.isSome = true ∧ saving.pwr.season ≠ .autumn := by decide +kernel

/-! RailsResetsAndWakesSetTheSeason. -/

/-- A rail in each season, resets held, and wake causes enabled in Winter and in Autumn. -/
theorem seasonsOfRailsAndWakes : thaw.pwr.inReset = false ∧ thaw.pwr.season = .thaw ∧ rdy thaw 25 = true ∧ summer.pwr.season = .summer
    ∧ (wholeReset false summer).pwr.inReset = true ∧ (wholeReset false summer).pwr.powerOn = false
    ∧ bitOf (getW (at_ .winter) Obj.wakeSrcEn 0) 0 = true ∧ bitOf (getW (at_ .winter) Obj.wakeSrcEn 0) 1 = true
    ∧ bitOf (getW (at_ .winter) Obj.wakeSrcEn 0) 2 = true ∧ (at_ .autumn).pwr.wakeLatched = none
    ∧ (wholeReset true summer).pwr.powerOn = true ∧ (wholeReset true summer).pwr.resetLow = false
    ∧ (at_ .winter).pwr.inReset = false := by decide +kernel

/-! BringUpSetsReadiness. -/

/-- A Master that comes up: its domains powered, nothing ready but the AON domain. -/
def comingUp : State :=
  { State.reset with pwr := { State.reset.pwr with strap := 1, domains := true, ready := 0x10, up := 0x10 } }
/-- The domains, the PLL, functions, an absent flash, a blank one, the table's load, a wake run. -/
theorem bringUp : awake comingUp = true ∧ bitOf (getW comingUp Obj.funcReset 0) 4 = false ∧ bitOf (getW comingUp Obj.funcReset 0) 24 = false
    ∧ (8 : Nat) ∈ [8, 11, 15, 18, 19, 20] ∧ (encU comingUp 0).state = 1 ∧ bitOf comingUp.pwr.up 24 = false
    ∧ comingUp.pwr.domains = true ∧ comingUp.pwr.restored = false ∧ comingUp.pwr.kept = false
    ∧ chooseCopy comingUp.flash.patch = none ∧ comingUp.nt.loading = true ∧ rdy comingUp 4 = true ∧ role comingUp ≠ 0
    ∧ comingUp.pwr.wakeRunAt = none ∧ copyLeaving .rngB (advance 0 comingUp) = false := by decide +kernel
/-- The flash found again after a forced exit, and Summer's set. -/
theorem summerSetReady : ({ comingUp with pwr := { comingUp.pwr with restored := true, kept := true } }).pwr.restored = true
    ∧ thaw.pwr.season = .thaw ∧ getN thaw Obj.seasonReq 0 = 2 ∧ summerSet thaw = true ∧ thaw.pwr.strap ≠ 3 := by decide +kernel

/-! RingCyclesCopiesAndMembersAreCarriedOut. -/

/-- A Master on the ring with a joined slot. -/
def onRing : State :=
  { summer with
    pwr := { summer.pwr with strap := 1, bypassOpen := true }
    ring := { summer.ring with joined := 2, presentA := 2, status := vset summer.ring.status 1 (wd (2 ^ 31 + 2 ^ 30 + 2 ^ 29)) } }
/-- A device with its ring lanes in lock. -/
def locked (s : State) : State :=
  modLane 46 (fun l => { l with lock := true }) (modLane 47 (fun l => { l with lock := true }) s)
/-- A Member. -/
def member : State := { summer with pwr := { summer.pwr with strap := 2, bypassOpen := true } }
/-- A copy of the Master's first cycle, and one cut short. -/
def copyOf (ws : List Word) : CopyIn := { words := ws, copyB := false, eofOk := true, rx := 0, tx := 0 }
def ownFirst : CopyIn := copyOf (cycleFrame (cycleWords false (blankSeg 0 0 767 0) onRing))
/-- Cycles, copies, a restoration, a missing slot, and a Member that loses the ring. -/
theorem ringCommands : awake onRing = true ∧ role onRing = 1 ∧ rdy onRing 4 = true ∧ rdy onRing 25 = true
    ∧ onRing.ring.unwrapAt = none ∧ onRing.ring.foreign = none ∧ copyIntact (copyOf []) = false
    ∧ cycleWithin 2 onRing.ring.cycle (copyCycle (copyOf []).words) = true ∧ wrappersLocked onRing = true ∧ onRing.ring.back = [] ∧ laneUp (locked onRing) 46 = true ∧ laneUp (locked onRing) 47 = true
    ∧ nbit onRing.ring.joined.toNat 1 = true ∧ nbit onRing.ring.bypassed.toNat 1 = false
    ∧ max onRing.clock.tick 62500 + 31250 * 0 = onRing.ring.startTick + 62500
    ∧ awake member = true ∧ role member = 2 ∧ rdy member 25 = true := by decide +kernel
/-- A copy that comes back intact. -/
theorem copyComesBack : copyIntact ownFirst = true ∧ ownCopy ownFirst onRing = true
    ∧ cycleAge (copyCycle ownFirst.words) (advance 0 onRing) ≤ 62500 ∧ copyWrapped ownFirst.words = false := by
  refine ⟨cycleFrame_intact false 0 0 (by decide +kernel) (by decide +kernel), ?_⟩
  decide +kernel

/-! MembersForwardCopiesAndTheMailboxIsCarriedOut. -/

/-- A Member with ring lanes in lock, at hop 3; every ring lane is in service. -/
def memberAt3 : State := { locked member with ring := { (locked member).ring with hop := 3 } }
/-- A read of 13.000 in a REQUEST for slot 3, whole and damaged; its reply on the Master; a NAK. -/
def readRecord : List Word := [wd (3 * 2 ^ 24 + 5), wd 0x13000, 0, 1]
def asked : List Word := segWords 1 3 5 5 readRecord
def damaged : List Word := segHeader 1 3 5 5 :: readRecord ++ [0]
def answer : List Word := segWords 3 3 6 5 [wd (8 * 2 ^ 32 + 3 * 2 ^ 24 + 5), wd 0x13000, 0, 1, 2]
def nak : List Word := segWords 4 3 5 5 readRecord
def waiting (sends : Nat) : RingAccess :=
  { tag := 5, slot := 3, record := readRecord, sends := sends, toSend := false, sentAt := some 0, owner := none, bcast := none }
def askingMaster (sends : Nat) : State := { onRing with ring := { onRing.ring with accesses := [waiting sends] } }
/-- Copies at a Member, straight and wrapped. -/
theorem copiesPass : awake memberAt3 = true ∧ role memberAt3 = 2 ∧ memberAt3.pwr.bypassOpen = true
    ∧ laneUp memberAt3 (portLane (portIn false false)) = true ∧ laneUp memberAt3 (portLane (portIn false true)) = true
    ∧ wraps memberAt3 .rngA = false ∧ laneServes memberAt3 46 = true ∧ laneServes memberAt3 47 = true
    ∧ copyWrapped [wd (2 ^ 30)] = true ∧ copyWrapped [] = false := by decide +kernel
/-- Requests at a Member. -/
theorem requestsArrive : heldSlot memberAt3 = some 3 ∧ replyKept 5 memberAt3 = false ∧ memberAt3.ring.kept = none
    ∧ (segOf asked).any (fun g => g.kind == 1 && g.dest == 3
      && (parseRecord (writesHere memberAt3) g.body.dropLast).any (fun r =>
        segCrcOk g.head (g.body.dropLast.take (g.body.dropLast.length - r.2.length)) g.body)) = true
    ∧ (segOf damaged).any (fun g => g.kind == 1 && g.dest == 3
      && (parseRecord (writesHere memberAt3) g.body.dropLast).any (fun r =>
        !(segCrcOk g.head (g.body.dropLast.take (g.body.dropLast.length - r.2.length)) g.body))) = true := by decide +kernel
/-- Replies and NAKs at the Master. -/
theorem answersArrive : awake (askingMaster 0) = true ∧ role (askingMaster 0) = 1
    ∧ (segOf answer).any (fun g => g.kind == 3 && answered g (askingMaster 0) == some (waiting 0)
      && segCrcOk g.head (g.body.take (replyLength (askedReq (waiting 0).record) (at? g.body 0 0) (at? g.body 2 0))) g.body) = true
    ∧ (segOf nak).any (fun g => g.kind == 4 && answered g (askingMaster 1) == some (waiting 1)
      && answered g (askingMaster 2) == some (waiting 2)) = true
    ∧ (askingMaster 2).ring.accesses.find? (fun a => a.tag % 256 == 5 % 256) = some (waiting 2) := by decide +kernel

/-! TheHostPortAnswers. -/

/-- A Master whose host link is up, and a request datagram of one read. -/
def hosting : State := { onRing with host := { onRing.host with linkUp := true } }
def request : List Word :=
  let ws := [wd (2 ^ 28 + 2 ^ 16 + 9), wd (5), wd 0x13000, 0, 1]
  ws ++ [wd (crc32 ws)]
def kept (done : Bool) (seq : Nat) : Datagram := { src := 7, port := 8, seq := seq, replies := [none], done := done }
def withDatagrams (ds : List Datagram) : State := { hosting with host := { hosting.host with datagrams := ds } }
/-- The port works, and every kind of datagram. -/
theorem hostTraffic : awake hosting = true ∧ hostWorks hosting = true ∧ role hosting = 1 ∧ rdy hosting 25 = true
    ∧ datagramRecords [0] hosting = none ∧ datagramWhole [0] = false ∧ datagramWhole request = true ∧ (datagramRecords request hosting).isSome = true ∧ fld (at? request 0 0) 15 0 = 9
    ∧ (datagramRecords request (withDatagrams [kept true 9])).isSome = true
    ∧ (withDatagrams [kept true 9]).host.datagrams.find? (fun d => d.src == 7 && d.port == 8 && d.seq == 9) = some (kept true 9)
    ∧ hosting.host.datagrams.find? (fun d => d.src == 7 && d.port == 8 && d.seq == 9) = none
    ∧ 8 ≤ ((withDatagrams ((List.range 8).map (kept false))).host.datagrams.filter (fun d => !d.done)).length
    ∧ (withDatagrams ((List.range 8).map (kept false))).host.datagrams.find?
      (fun d => d.src == 7 && d.port == 8 && d.seq == 9) = none := by decide +kernel

/-! TimeMessagesSampleAndAnswer. -/

/-- A device that follows IEEE 1588, under E2E or P2P, with a grandmaster. -/
def hdr (two : Bool) : PtpHdr := { domain := 0, seq := 4, twoStep := two, sender := 9, correction := 0, logInterval := 0 }
def grandmaster : Announce :=
  { priority1 := 128, clockClass := 6, accuracy := 0x21, variance := 0, priority2 := 128, identity := 9, stepsRemoved := 0 }
def follower (p2p : Bool) : State :=
  let s := setN Obj.ptpCfg 0 (if p2p then 2 ^ 35 else 0) (setN Obj.timeSource 0 1 summer)
  { s with ptp := { s.ptp with master := some grandmaster, parent := 9, sync := some (4, 0, 0), haveSync := true,
                               delayTx := some (4, 0), pdelayTx := some (4, 0), pdelayResp := some (4, 0, 0) } }
/-- Every time message finds its exchange under way. -/
theorem timeMessages : awake (follower false) = true ∧ ptpOn (hdr false) (follower false) = true
    ∧ fromParent (hdr false) (follower false) = true ∧ ptpP2p (follower false) = false ∧ ptpP2p (follower true) = true
    ∧ ptpOn (hdr true) (follower true) = true ∧ getN (follower true) Obj.timeSource 0 = 1
    ∧ (setN Obj.timeSource 0 1 summer).ptp.master = none
    ∧ ptpOn (hdr false) (setN Obj.timeSource 0 1 summer) = true := by decide +kernel

/-! TimeStepsHoldsOverAndTriggers. -/

/-- A locked follower, one in holdover, a unit about to be armed and one armed, a capture unit. -/
def lockedFollower : State := setN Obj.syncState 0 2 (follower false)
def holding : State := setN Obj.syncState 0 3 (follower false)
def unitSet (w start : Nat) : State :=
  setE Obj.trigPeriod 0 (el 640000) (setE Obj.trigStart 0 (el start) (setN Obj.trig 0 w thaw))
def captSet : State := setN Obj.capt 0 (2 ^ 35 + 2 * 2 ^ 26) thaw
/-- Sources, steps, triggers and captures. -/
theorem timeCommands : awake lockedFollower = true ∧ getN lockedFollower Obj.timeSource 0 = 1
    ∧ getN lockedFollower Obj.syncState 0 = 2 ∧ rdy lockedFollower 25 = true ∧ getN holding Obj.syncState 0 = 3
    ∧ Works thaw ∧ Accepted Obj.timeResync 0 [1] (advance 0 thaw) ∧ Accepted Obj.timeNow 0 [1, 2] (advance 0 thaw)
    ∧ Works (unitSet (2 ^ 17 + 1) 5) ∧ bitOf (getW (unitSet (2 ^ 17 + 1) 5) Obj.trig 0) 35 = false
    ∧ Accepted Obj.trig 0 [setBit (getW (unitSet (2 ^ 17 + 1) 5) Obj.trig 0) 35 true] (advance 0 (unitSet (2 ^ 17 + 1) 5))
    ∧ trigInstant 0 (advance 0 (unitSet (2 ^ 35 + 2 ^ 30 + 2 ^ 17 + 1) 0)) = some 0
    ∧ bitOf (getW captSet Obj.capt 0) 35 = true ∧ fld (getW captSet Obj.capt 0) 31 28 = 0
    ∧ fld (getW captSet Obj.capt 0) 27 26 = 2 := by decide +kernel

/-! LanesLockSlipAndAreTested. -/

/-- Lanes at work: the reference PLL up, lane 0 in lock and in block lock, lane 46 trained once. -/
def laneWith (s : State) (i : Nat) (l b : Bool) : State := modLane i (fun x => { x with lock := l, block := b, trained := true, prbsLock := true }) s
def laning : State := laneWith (laneWith onRing 0 true true) 46 false false
/-- Lanes lock and lose it, slip, and count in test windows. -/
theorem lanesAtWork : awake laning = true ∧ laneWorks laning 46 = true ∧ lanePrbs laning 46 = 0 ∧ (laneU laning 46).lock = false
    ∧ (laneU laning 46).trained = true ∧ rdy laning 25 = true ∧ (laneU laning 0).lock = true ∧ (laneU laning 0).block = true
    ∧ laning.fabric.work = none ∧ laning.pwr.autumn.step ≠ 1 ∧ (laneU laning 0).prbsLock = true
    ∧ lanePrbs (setN Obj.laneTest 0 (2 ^ 34 + 0x80000) laning) 0 = 1
    ∧ laneWorks (setN Obj.laneTest 0 (2 ^ 34 + 0x80000) laning) 0 = true := by decide +kernel
/-- Tests and service of lane 0. -/
theorem laneTests : Works laning ∧ laneWorks laning 0 = true ∧ bitOf (getW laning Obj.laneTest 0) 28 = false
    ∧ bitOf (getW laning Obj.laneTest 0) 27 = false
    ∧ Accepted Obj.laneTest 0 [setBit (getW laning Obj.laneTest 0) 28 true] (advance 0 laning)
    ∧ Accepted Obj.laneTest 0 [setBit (getW laning Obj.laneTest 0) 27 true] (advance 0 laning)
    ∧ laneServes laning 0 = true
    ∧ Accepted Obj.laneTest 0 [setBit (setFld (setFld (getW laning Obj.laneTest 0) 35 34 2) 31 30 1) 29 true] (advance 0 laning)
    ∧ Accepted Obj.laneTest 0 [setFld (getW laning Obj.laneTest 0) 33 32 2] (advance 0 laning)
    ∧ Accepted Obj.laneCfg 0 [setBit (getW laning Obj.laneCfg 0) 35 false] (advance 0 laning)
    ∧ Accepted Obj.laneCfg 0 [setBit (getW laning Obj.laneCfg 0) 35 true] (advance 0 laning) := by decide +kernel

/-! TheRasterFrontEndAccepts. -/

/-- A bond of lanes 0 and 1 in an open page, lane 1 awaited, lane 2 back; a header in sequence. -/
def bonded : State :=
  let s := laneWith (laneWith (laneWith laning 0 true true) 1 true true) 2 true true
  { s with
    bond := { s.bond with formed := true, n := 2, active := 3 }
    rfe := { s.rfe with inPage := some (1, 27, 0), page := 1, lastPage := none, first := false, c := 0, r := 0, limit := 1024 } }
def awaiting : State := modBond (fun b => { b with dsk := some { n := 2, g := 1, come := 1, want := 3, failed := 0, reform := false } }) bonded
def headerWords (ras : Ras) : HdrCopy :=
  let w0 := wd (1 * 2 ^ 12)
  let w1 := wd (1 * 2 ^ 20 + 27 * 2 ^ 3)
  { ras := ras, w0 := w0, w1 := w1, w2 := 0, w3 := wd (crc16Hdr w0 w1 0 0) }
def badHeader (ras : Ras) : HdrCopy := { headerWords ras with w3 := wd ((crc16Hdr (headerWords ras).w0 (headerWords ras).w1 0 0 + 1) % 2 ^ 16) }
def oneGroup : LineGroup :=
  { page := 1, lg := 0, columns := 27, ratio := 4, tmode := false, isEnd := false, charge := 0, n := 2, okPos := 3, tablesOk := true,
    blocks := [], complete := false, checked := false, late := false, rows := none }
def grouped : State := modRfe (fun r => { r with groups := [oneGroup] }) bonded
/-- DSKs, headers, line groups, credits, offers and a new bond set. -/
theorem rasterTraffic : awake bonded = true ∧ laneUp bonded 0 = true ∧ laneUp bonded 1 = true ∧ bonded.bond.dsk = none
    ∧ bonded.bond.held = [] ∧ bonded.bond.ready = none ∧ awaiting.bond.held = [] ∧ wordsDropped grouped = 0
    ∧ bonded.bond.announced = none ∧ nbit bonded.bond.active.toNat 0 = true
    ∧ nbit ((3 : BitVec 5) &&& ~~~ 1).toNat 1 = true ∧ awaiting.bond.active &&& ~~~ lanes5 (2 ^ 1) ≠ 0 ∧ rdy awaiting 25 = true
    ∧ crc16Hdr (headerWords 0).w0 (headerWords 0).w1 (headerWords 0).w2 (headerWords 0).w3 = fld (headerWords 0).w3 15 0
    ∧ (hdrFields (headerWords 0)).start = false ∧ hdrJudge bonded bonded.rfe.inPage (hdrFields (headerWords 0)) = 0
    ∧ creditCase bonded (hdrFields (headerWords 0)).base (lgCharge (ceilDiv (hdrFields (headerWords 0)).columns 27) 2 0) = 0
    ∧ bonded.rfe.tables = (hdrFields (headerWords 0)).tblCnt ∧ bonded.rfe.inPage.isSome = true
    ∧ crc16Hdr (badHeader 1).w0 (badHeader 1).w1 (badHeader 1).w2 (badHeader 1).w3 ≠ fld (badHeader 1).w3 15 0
    ∧ grouped.rfe.groups.find? (fun g => g.page == 1 && g.lg == 0) = some oneGroup
    ∧ ((List.range (ceilDiv 27 27)).map (blockTaken grouped oneGroup [List.replicate 4 0])).all Option.isSome = true
    ∧ nbit (bondSel bonded) 2 = true ∧ laneUp bonded 2 = true ∧ nbit bonded.bond.active.toNat 2 = false
    ∧ Works bonded ∧ Accepted Obj.bondCfg 0 [3] (advance 0 bonded) := by decide +kernel

/-! LineGroupsAreDecodedScreenedAndCrossSeams. -/

/-- A line group of one damaged block, decoded and not; the page it belongs to; no chain with an edge. -/
def coded : LineGroup := { oneGroup with blocks := [some (List.replicate 4 0)], complete := true, checked := true }
def decoded : LineGroup := { coded with rows := some (List.replicate 4 (List.replicate 27 0)), blocks := [] }
def plainChains : State :=
  setN Obj.tileReady 0 0x7FFFFFF (setN Obj.chain 0 0 (setN Obj.chain 1 0 bonded))
def pageOne : Page := { num := 1, origin := 0, columns := 27, lastLg := none, nextLg := 0, missing := [], screened := true, heads := 0 }
def withGroup (g : LineGroup) : State := { modRfe (fun r => { r with groups := [g] }) plainChains with pages := [pageOne] }
/-- A line group to decode, and one to screen. -/
theorem decoding : awake (withGroup coded) = true ∧ ownUp (withGroup coded) 8 = true ∧ nextDecode (withGroup coded) = some coded
    ∧ coded.tmode = false ∧ fabricRuns (withGroup decoded) = true ∧ (withGroup decoded).fabric.work = none
    ∧ nextScreen (withGroup decoded) = some decoded ∧ (pageOf (withGroup decoded) 1).any (fun x => x.screened) = true
    ∧ (1, 4 * decoded.lg) ∉ (withGroup decoded).fire.late := by decide +kernel
/-- No chain is set, so no edge is. -/
theorem noEdges : ∀ i e, i < 4 → edgeSet (withGroup decoded) i e = false := by
  have h : ∀ i : Fin 4, bitOf (getW (withGroup decoded) Obj.chain i.val) 35 = false := by decide +kernel
  intro i e hi
  have := h ⟨i, hi⟩
  simp only at this
  simp [edgeSet, this]
/-- Chain 0 with both edges set, lanes 38 and 39 in lock; a line under way that awaits frames; a frame kept. -/
def seamed (work : Option (Nat × Nat)) : State :=
  let s := laneWith (laneWith (setN Obj.chain 0 (2 ^ 35 + 3 * 2 ^ 33 + 0xF) (withGroup decoded)) 38 true false) 39 true false
  { s with fabric := { s.fabric with work := work, edgeOut := [⟨0, true, false, 1, 0, edWords true 0 false 1 0 0 0 0 0⟩] } }
/-- Edge frames at lane 38. -/
theorem seamTraffic : awake (seamed none) = true ∧ laneServes (seamed none) 38 = true ∧ (laneU (seamed none) 38).lock = true
    ∧ (edgeParse true (compWords false 0 false 1 0 0 [])).any (fun f => f.chain == 0 && !f.backward && f.page == 1 && f.line == 0
      && !(edgePast (seamed none) f) && (edgeHeld (seamed none) 0 0 true 1 0).isNone) = true
    ∧ edgeLane (seamed none) 0 0 = some (38 - 38) ∧ edgeOpen (seamed none) 0 0 = false ∧ (seamed none).dict.begunScreen = none
    ∧ edgeParse true [] = none ∧ fabricRuns (seamed (some (1, 0))) = true
    ∧ (edgeAwaited (seamed (some (1, 0))) 1 0).filter (fun n => n.1 == 0 && n.2.1 == b2n false && n.2.2.1 == true) = [(0, 0, true, 0)]
    ∧ (retryWords true 0 false 1 0).length = 4
    ∧ at? (retryWords true 0 false 1 0) 2 0 = wd (crc32 ((retryWords true 0 false 1 0).take 2))
    ∧ ((seamed none).fabric.edgeOut.find? (fun f => f.chain == 0 && f.backward == true
      && f.comp == bitOf (at? (retryWords true 0 false 1 0) 0 0) 32 && f.page == fld (at? (retryWords true 0 false 1 0) 1 0) 35 12
      && f.line == fld (at? (retryWords true 0 false 1 0) 0 0) 17 0)).isSome = true
    ∧ bitOf (getW (seamed none) Obj.funcReset 0) 8 = false := by decide +kernel

/-! NozzleTableCommitsAndTableFramesTakeEffect. -/

/-- A device whose table is checked by check 1 alone, with a commit pending or a generation waiting. -/
def tabled (pending : Option Nat) (stage : Nat) : State :=
  let s := setN Obj.ntCheckEn 0 0 bonded
  { s with pages := [], nt := { s.nt with pending := pending, stage := stage } }
/-- A table frame that opens a write of 08.002, and one cut short. -/
def startFrame : List Word :=
  let w0 := wd (2 ^ 35 + 0x08002)
  let w3 := wd (1 * 2 ^ 16)
  let h := [w0, 0, 0, wd (w3.toNat + crc16Hdr w0 0 0 w3)]
  h ++ [5, wd (crc32 (h ++ [5]))]
/-- The writes that need no check of the table. -/
theorem tableCommands : Works (tabled none 1)
    ∧ Accepted Obj.ntCommit 0 [wd (2 ^ 34 + 7 % 2 ^ 24)] (advance 0 (tabled (some 7) 1)) ∧ (tabled (some 7) 1).dict.begunScreen = none
    ∧ Accepted Obj.ntApprove 0 [wd (0 % 2 ^ 12)] (advance 0 (tabled none 1)) ∧ (tabled none 1).nt.stage = 1
    ∧ Accepted Obj.ntApprove 0 [wd (2 ^ 35 + 0 % 2 ^ 12)] (advance 0 (tabled none 1))
    ∧ (tabled none 1).bond.formed = true ∧ rdy (tabled none 1) 25 = true ∧ tableSound (tableHdr []) [] = false
    ∧ tableSound (tableHdr startFrame) startFrame = true ∧ (tableHdr startFrame).start = true ∧ (tableHdr startFrame).last = false
    ∧ (findObj (tableHdr startFrame).obj).any (fun d => d.cls == .rwb
      && firstAbort (openAborts d true (tableHdr startFrame).offset (tableHdr startFrame).len ++ gateAborts d true false (tabled none 1)
        ++ blockWriteAborts d (tabled none 1)) == 0) = true := by decide +kernel
/-- The definition of NT_COMMIT. -/
def ntCommitDef : ObjDef := ⟨Obj.ntCommit, .u36, .rw, false, 1, 0xC00FFFFFF, none, false, 0⟩
/-- A commit for page 7, and one with NOW. -/
def commitWord (now : Bool) : Word := if now then wd (2 ^ 35) else wd (7 % 2 ^ 24)
/-- Commits of an empty table pass its checks. -/
theorem tableCommits (now : Bool) (v : Word) (hn : v = commitWord now) :
    findObj Obj.ntCommit = some ntCommitDef ∧ Accepted Obj.ntCommit 0 [v] (advance 0 (tabled none 0))
    ∧ (ntCommitWrite v (ramWrite ntCommitDef 0 (el v.toNat) (advance 0 (tabled none 0)))).1 = 0 := by
  have hd : findObj Obj.ntCommit = some ntCommitDef := by decide +kernel
  subst hn
  obtain ⟨f, hf⟩ := ramWrite_plain ntCommitDef 0 (el (commitWord now).toNat) (advance 0 (tabled none 0)) rfl (by decide +kernel)
  have hv2 : bitOf (commitWord now) 34 = false ∧ ntCommitAbort (commitWord now) (advance 0 (tabled none 0)) = 0
      ∧ elemLo (maskElem ntCommitDef (el (commitWord now).toNat)) = commitWord now
      ∧ typeOk ntCommitDef.ty (el (commitWord now).toNat) = true ∧ rangeOk ntCommitDef (maskElem ntCommitDef (el (commitWord now).toNat)) = true
      ∧ elemsOf ntCommitDef.wordsPer [commitWord now] = [el (commitWord now).toNat] := by
    clear hf
    revert now
    decide +kernel
  obtain ⟨h1, h2, h3, h4, h5, h6⟩ := hv2
  have hc : (memU (advance 0 (tabled none 0)) 2).cells = [] := by decide +kernel
  have hm : (memU (advance 0 (tabled none 0)) 2).merge = [] := by decide +kernel
  have he : getW (advance 0 (tabled none 0)) Obj.ntCheckEn 0 = 0 := by decide +kernel
  have h7 : memU (modMem 6 f (advance 0 (tabled none 0))) 2 = memU (advance 0 (tabled none 0)) 2 :=
    vget_vmod_other _ f _ (by decide)
  refine ⟨hd, accepted_ntCommit hd rfl h6 (by clear hf; revert now; decide +kernel) (by decide +kernel) h4 h5 ?_, ?_⟩
  · rw [h3]
    exact ntCommitWrite_blank hc hm he h2 h1
  · rw [hf]
    exact ntCommitWrite_blank (by rw [h7]; exact hc) (by rw [h7]; exact hm) he h2 h1

/-! LinesAreHandedOverCommittedAndFired. -/

/-- A web at 1 line for each 10,000 ticks, its head 0 on a READY link with a bank, its next line queued. -/
def pressing (armed : Bool) : State :=
  let s := setN Obj.fireEnable 0 (b2n armed) (setN Obj.velWindow 0 8 (withGroup coded))
  let s := modLink 0 (fun l => { l with state := .ready, bank0 := bankWanted s 0 1 }) s
  let s := modHead 0 (fun u => { u with next := some (1, 1), queue := [⟨1, 1, []⟩], lds := [(1, 2, 0)] }) s
  { s with
    clock := { s.clock with tick := 1000000 }
    pos := { s.pos with srcState := 0, backward := false }
    fabric := { s.fabric with cells := [⟨1, 3, []⟩] }
    fire := { s.fire with handNext := some (1, 3), latches := (List.range 33).map (fun (k : Nat) => (-(4096 * (k : Int)), (1000000 - 10000 * k : Nat))) } }
/-- The same at a standstill, in phase 1 of a halt, and with a line committed. -/
def halting : State :=
  let s := pressing true
  { s with fire := { s.fire with latches := [], halt := { s.fire.halt with phase := 1 } } }
def oneCommitted : Committed := { page := 1, line := 1, lseq := 0, fire := 0, occEnd := 0, frameEnd := 0, bank := false, start := 0 }
def committedOne : State := modHead 0 (fun u => { u with committed := [oneCommitted] }) (pressing true)
/-- Arming, disarming, and what page commands need. -/
theorem printingIsArmed : Works (pressing false) ∧ getN (pressing false) Obj.fireEnable 0 = 0
    ∧ Accepted Obj.fireEnable 0 [1] (advance 0 (setE Obj.printOrigin 0 (posElem 409600000) (pressing false)))
    ∧ Accepted Obj.fireEnable 0 [0] (advance 0 summer) ∧ Works summer
    ∧ Accepted Obj.bookClear 0 [1] (advance 0 summer) ∧ Accepted Obj.pageAbort 0 [1] (advance 0 (pressing true)) := by decide +kernel
/-- The instants of lines. -/
theorem lineInstants : awake (pressing true) = true ∧ predicts (pressing true) = true ∧ (pageOf (pressing true) 1).isSome = true
    ∧ (pageOf (pressing true) 1).any (fun x => x.lastLg.any (fun m => decide (5 > m))) = false
    ∧ (pressing true).fire.halt.phase = 0 ∧ (pressing true).rfe.groups.find? (fun g => g.page == 1 && g.lg == 0) = some coded
    ∧ (pressing true).rfe.groups.find? (fun g => g.page == 1 && g.lg == 5) = none ∧ (1, 20) ∉ (pressing true).fire.late
    ∧ (pressing true).fire.handNext.bind (normLine (pressing true)) = some (1, 3)
    ∧ ((pressing true).fabric.cells.find? (fun c => c.page == 1 && c.line == 3)).isSome = true
    ∧ headEnabled (pressing true) 0 = true
    ∧ ldsUnread (pressing true) 0 = some (1, 2, 0) ∧ rdy (pressing true) 11 = true ∧ xingStalled (pressing true) 8 = false
    ∧ nextHeadLine (pressing true) 0 = some (1, 1) ∧ isLate (pressing true) 0 1 1 = false := by decide +kernel
/-- A line that may be committed. -/
theorem lineMayBeCommitted : (pressing true).pwr.season = .summer ∧ detectorsArmed (pressing true) = true
    ∧ ((headU (pressing true) 0).queue.find? (fun q => q.page == 1 && q.line == 1)).isSome = true
    ∧ bankFor (pressing true) 0 1 = some false ∧ (linkU (pressing true) 0).state = .ready ∧ calBusy (pressing true) 0 = false
    ∧ rdy (pressing true) 12 = true ∧ (headU (pressing true) 0).inhibited = false
    ∧ earliest (pressing true) 0 = none ∧ (headU (pressing true) 0).fireTwo = none ∧ (linkU (pressing true) 0).wireEnd ≤ 64 * max (pressing true).clock.tick 0
    ∧ (predict (pressing true) (boundary (pressing true) 0 1 1)).any (fun x =>
      decide ((64 * max (pressing true).clock.tick 0 + frameTime (pressing true) 0 : Int) ≤ x.1 - getN (pressing true) Obj.fireLead 0 * 40))
      = true := by decide +kernel
/-- A line at its boundary on a link that is down, a committed line at its fire time, and a halt that has stopped. -/
theorem lineEnds : (linkU (pressing true) 1).state ≠ .ready ∧ nextHeadLine (modHead 1 (fun u => { u with next := some (1, 1) }) (pressing true)) 1 = some (1, 1)
    ∧ headEnabled (pressing true) 1 = true
    ∧ oldestStart committedOne 0 = some (1, 1, some oneCommitted, 0)
    ∧ (pageOf committedOne 1).all (fun x => lastLine x != some 1) = true
    ∧ halting.fire.halt.phase = 1 ∧ predicts halting = false
    ∧ (List.range 32).all (fun h => (headU halting h).committed.isEmpty) = true := by decide +kernel

/-! HeadLanesReportMarkAndAccess. -/

/-- Head 0 on a working lane in lock, its link in a state, one marker out and a register access under way. -/
def linked (st : LinkState) (marks : Nat) : State :=
  let s := setN Obj.regSel 0 (2 ^ 35 + 5) (laneWith plainChains 6 true false)
  modLink 0 (fun l => { l with state := st, marks := (List.range marks).map (fun m => (m, 0)), regAddr := 5, regWrite := false,
                               idRead := false, nextMark := marks }) { s with pages := [] }
def statusFrame (w0 : Word) : List Word :=
  let ws := [w0, wd (5 * 2 ^ 18), 0, 0]
  ws ++ [wd (crc32 ws), 0]
def regFrame : List Word :=
  let ws := [wd (3 * 2 ^ 32 + 5), 77]
  ws ++ [wd (crc32 ws), 0]
/-- STATUS frames, good and bad, on links in each state. -/
theorem statusArrives : awake (linked .ready 1) = true ∧ (linked .ready 1).pwr.autumn.step ≠ 1
    ∧ (linkU (linked .ready 1) 0).state = .ready ∧ (linkU (linked .training 1) 0).state = .training
    ∧ laneServes (linked .ready 1) (6 + 0) = true ∧ (laneU (linked .ready 1) (6 + 0)).lock = true
    ∧ (statusFrame (wd (2 ^ 8 + 2 ^ 7 + 2 ^ 5))).length = 6
    ∧ at? (statusFrame (wd (2 ^ 8 + 2 ^ 7 + 2 ^ 5))) 4 0 = wd (crc32 ((statusFrame (wd (2 ^ 8 + 2 ^ 7 + 2 ^ 5))).take 4))
    ∧ rdy (linked .ready 1) 25 = true ∧ 4 ≤ (linkU (linked .ready 4) 0).marks.length := by decide +kernel
/-- One marker's echo, and its TIME frame. -/
def linkedTime : HeadFrame := { kind := 2, words := timeFrame 0 0 0, bank := none }
/-- Markers, a bank to load, an idle command. -/
theorem markersAndBanks : markOf 0 7 0 = some 0 ∧ (linkU (linked .ready 1) 0).waiting = []
    ∧ frameFits (advance 0 (linked .ready 1)) 0 linkedTime = true
    ∧ calBusy (linked .ready 1) 0 = false
    ∧ (linkU (linked .ready 1) 0).marks.find? (fun e => e.1 == 0) = some (0, 0)
    ∧ (Int.fdiv ((((0 : Int) - 0 - 0) * 25 + getS (linked .ready 1) 36 Obj.headAsym 0 + 25)) 50 - (linkU (linked .ready 1) 0).delay).natAbs * 25
      ≤ getN (linked .ready 1) Obj.stepLimit 0
    ∧ bankNext (commitDo 3 { linked .ready 1 with dict := { (linked .ready 1).dict with dirty := [Obj.pulseProfiles] } }) 0 = some 3
    ∧ frameFits (advance 0 (commitDo 3 { linked .ready 1 with dict := { (linked .ready 1).dict with dirty := [Obj.pulseProfiles] } })) 0
      { kind := 3, words := [], bank := some (true, .commit 3) } = true
    ∧ (bankTarget (advance 0 (commitDo 3 { linked .ready 1 with dict := { (linked .ready 1).dict with dirty := [Obj.pulseProfiles] } })) 0).isSome = true
    ∧ (bankWords (commitDo 3 { linked .ready 1 with dict := { (linked .ready 1).dict with dirty := [Obj.pulseProfiles] } }) 0 (.commit 3)).isSome = true
    ∧ (windingDown 1 true []).pwr.season = .autumn ∧ (headU (windingDown 1 true []) 0).committed = [] := by decide +kernel
/-- Register accesses and their replies. -/
theorem registerAccess : Works (setN Obj.regSel 0 0 (linked .ready 1))
    ∧ Accepted Obj.regSel 0 [wd (2 ^ 35 + 0 + 5 % 2 ^ 16)] (advance 0 (setN Obj.regSel 0 0 (linked .ready 1)))
    ∧ Accepted Obj.regSel 0 [wd (2 ^ 35 + 2 ^ 34 + 5 % 2 ^ 16)] (advance 0 (setN Obj.regSel 0 0 (linked .ready 1)))
    ∧ regFrame.length = 4 ∧ at? regFrame 2 0 = wd (crc32 (regFrame.take 2)) ∧ bitOf (getW (linked .ready 1) Obj.regSel 0) 35 = true
    ∧ fld (at? regFrame 0 0) 35 32 = 3 ∧ fld (at? regFrame 0 0) 15 0 = (linkU (linked .ready 1) 0).regAddr := by decide +kernel

/-! WebPositionFollowsEncodersLatchesAndCompares. -/

/-- Encoder 0 the active source, in a state, with the index checked; a preset may wait. -/
def webAt (st : Nat) (ref : Option Int) (preset : Option Int) : State :=
  let s := setN Obj.indexCfg 0 (2 ^ 34 + 2 ^ 26 + 4096) (modEnc 0 (fun u => { u with state := st, indexRef := ref, count := 50, dir := 1 }) summer)
  { s with pos := { s.pos with source := 0, srcState := 0, preset := preset, backward := false, last := posNow s } }
/-- Compare unit 0 enabled with a pulse, out of page mode or in it. -/
def comparing (paged : Bool) (queue : List (Int × Nat)) : State :=
  let s := webAt 1 none none
  let s := setN Obj.cmp 0 (2 ^ 35 + (if paged then 2 ^ 33 else 0) + 2 ^ 32 + 2 ^ 18) s
  let s := setE Obj.cmpPos 0 (posElem (-5)) (modCmp 0 (fun u => { u with queue := queue }) s)
  { s with pos := { s.pos with last := posNow s } }
/-- Edges, indexes, faults and recovery. -/
theorem encodersAtWork : awake (webAt 1 none none) = true ∧ rdy (webAt 1 none none) 25 = true
    ∧ bitOf (getW (webAt 1 none none) Obj.funcReset 0) (13 + 0) = false
    ∧ (encU (webAt 1 none none) 0).state = 1 ∧ (encU (webAt 2 none none) 0).state = 2
    ∧ (edgeCount (fld (encU (webAt 1 none none) 0).cfg 34 33) (encU (webAt 1 none none) 0).a (encU (webAt 1 none none) 0).b
        (!(encU (webAt 1 none none) 0).a) (encU (webAt 1 none none) 0).b).isSome = true
    ∧ fld (getW (webAt 1 none none) Obj.indexCfg 0) 35 34 ≠ 0 ∧ 0 ≤ (encU (webAt 1 none none) 0).dir
    ∧ nbit (encU (webAt 1 none none) 0).wires.toNat 2 = false ∧ (encU (webAt 1 none none) 0).indexRef = none
    ∧ (encU (webAt 1 (some 0) none) 0).indexRef = some 0
    ∧ Int.fdiv (50 - 0 + Int.fdiv (fld (getW (webAt 1 (some 0) none) Obj.indexCfg 0) 25 0) 2) (fld (getW (webAt 1 (some 0) none) Obj.indexCfg 0) 25 0) < 1
    ∧ (webAt 3 none (some 7)).pos.preset = some 7 ∧ (webAt 3 none (some 7)).pos.source = 0
    ∧ getN (webAt 3 none (some 7)) Obj.posSource 0 = 0 ∧ (encU (webAt 3 none (some 7)) 0).state = 3 := by decide +kernel
/-- Writes of the source, the preset and a compare unit, ahead of the position and behind it; firings. -/
theorem comparesAtWork : Works (webAt 1 none none) ∧ Accepted Obj.posSource 0 [2] (advance 0 (webAt 1 none none))
    ∧ Accepted Obj.posPreset 0 [0, 7] (advance 0 (webAt 3 none none))
    ∧ Accepted Obj.cmp 0 [wd (2 ^ 35 + 2 ^ 18)] (advance 0 (webAt 1 none none))
    ∧ Accepted Obj.cmp 0 [wd (2 ^ 35 + 2 ^ 33 + 2 ^ 18)] (advance 0 (webAt 1 none none))
    ∧ Accepted Obj.cmp 0 [wd (2 ^ 18)] (advance 0 (webAt 1 none none))
    ∧ ¬ posNow (advance 0 (webAt 1 none none)) < getPos (webAt 1 none none) Obj.cmpPos 0
    ∧ posNow (advance 0 (webAt 1 none none)) < getPos (setE Obj.cmpPos 0 (posElem 9999999) (webAt 1 none none)) Obj.cmpPos 0
    ∧ posNow (advance 0 (comparing false [])) = (comparing false []).pos.last ∧ (comparing false []).pos.backward = false
    ∧ bitOf (getW (comparing false []) Obj.cmp 0) 35 = true ∧ bitOf (getW (comparing false []) Obj.cmp 0) 33 = false
    ∧ (cmpU (comparing false []) 0).armedBack = false
    ∧ getPos (comparing false []) Obj.cmpPos 0 ≤ posNow (advance 0 (comparing false [])) ∧ fld (getW (comparing false []) Obj.cmp 0) 32 31 = 2
    ∧ getN (comparing false []) Obj.cmpPeriod 0 = 0 ∧ getN (setN Obj.cmpPeriod 0 4 (comparing false [])) Obj.cmpPeriod 0 ≠ 0
    ∧ bitOf (getW (comparing true [(-5, 1)]) Obj.cmp 0) 33 = true ∧ (cmpU (comparing true [(-5, 1)]) 0).queue = (-5, 1) :: []
    ∧ (-5) ≤ posNow (advance 0 (comparing true [(-5, 1)])) := by decide +kernel

/-! HareAxesAndTheAuxPortRun. -/

/-- The AUX port on, axis 0 in MODE 0 and axis 1 in MODE 1, one frame without its reply. -/
def driving (bad good : Nat) (v : Nat) : State :=
  let s := setN Obj.auxCfg 0 (2 ^ 35) (setN Obj.axCtrl 0 (2 ^ 35) (setN Obj.axCtrl 1 (2 ^ 35 + 2 ^ 34) summer))
  let s := modAxis 0 (fun u => { u with p := 0, target := if v = 0 then 0 else 65536, v := v, taken := none, deferred := none }) s
  { s with aux := { s.aux with seq := 9, waiting := [(9, 0)], badRun := bad, goodRun := good, everGood := true }
           pos := { s.pos with srcState := 0 } }
def faulted (s : State) : State := setN Obj.auxState 0 (2 ^ 35 + 2 ^ 32) s
def driveReply (seq : Nat) : List Byte :=
  let h := [0x5A#8, BitVec.ofNat 8 seq, 0x04#8] ++ [0#8, 0#8, 1#8, 2#8] ++ [0#8, 0#8, 0#8, 3#8]
  h ++ [BitVec.ofNat 8 (crc16Bytes h / 256), BitVec.ofNat 8 (crc16Bytes h)]
/-- A servo cycle and replies, good and bad. -/
theorem servoAtWork : awake (driving 0 0 0) = true ∧ rdy (driving 0 0 0) 5 = true ∧ rdy (driving 0 0 0) 25 = true
    ∧ (driving 0 0 0).pwr.autumn.step ≠ 2
    ∧ bitOf (getW (driving 0 0 0) Obj.funcReset 0) 15 = false ∧ bitOf (getW (driving 0 0 0) Obj.funcReset 0) 16 = false
    ∧ (driving 0 0 0).pos.srcState = 0 ∧ bitOf (getW (driving 0 0 0) Obj.auxCfg 0) 35 = true
    ∧ auxDriven (driving 0 0 0) = true
    ∧ axisOn (driving 0 0 0) 0 = true ∧ axisRing (driving 0 0 0) 0 = false ∧ (axisU (driving 0 0 0) 0).taken = none
    ∧ axisOn (driving 0 0 0) 1 = true ∧ axisRing (driving 0 0 0) 1 = true ∧ (axisU (driving 0 0 0) 1).taken = none
    ∧ (driving 0 0 0).aux.waiting = (9, 0) :: [] ∧ max (driving 0 0 0).clock.tick 0 ≤ 0 + 20000
    ∧ (driveReply 9).length = 13 ∧ (driveReply 9).head? = some 0x5A#8
    ∧ (driveReply 9).drop 11 = [BitVec.ofNat 8 (crc16Bytes ((driveReply 9).take 11) / 256), BitVec.ofNat 8 (crc16Bytes ((driveReply 9).take 11))]
    ∧ (at? (driveReply 9) 1 0).toNat = 9 ∧ nbit (at? (driveReply 9) 2 0).toNat 4 = false ∧ nbit (at? (driveReply 9) 2 0).toNat 5 = false
    ∧ ([0#8] : List Byte).length ≠ 13 ∧ 2 ≤ (driving 2 0 0).aux.badRun ∧ auxFault (driving 2 0 0) = false := by decide +kernel
/-- Writes of Hare and the axes, at rest and in motion. -/
theorem axisWrites : Works (driving 0 0 0)
    ∧ (∀ run trig : Bool, Accepted Obj.hareCtrl 0 [wd (b2n run * 2 ^ 35 + b2n trig * 2 ^ 34)] (advance 0 (driving 0 0 0)))
    ∧ Accepted Obj.axTarget 0 [0] (advance 0 (driving 0 0 0)) ∧ sgn 36 (0 : Word).toNat = setPoint (axisU (driving 0 0 0) 0).p
    ∧ Accepted Obj.axDecel 0 [1] (advance 0 (driving 0 0 0)) ∧ inMotion (axisU (driving 0 0 0) 0) = false
    ∧ Accepted Obj.axDecel 0 [1] (advance 0 (driving 0 0 70000)) ∧ inMotion (axisU (driving 0 0 70000) 0) = true
    ∧ 2 * (1 : Word).toNat * ((axisU (driving 0 0 70000) 0).target - (axisU (driving 0 0 70000) 0).p).natAbs
      < (axisU (driving 0 0 70000) 0).v * (axisU (driving 0 0 70000) 0).v
    ∧ Accepted Obj.axCtrl 0 [setBit (getW (driving 0 0 70000) Obj.axCtrl 0) 32 true] (advance 0 (driving 0 0 70000))
    ∧ inMotion { axisU (driving 0 0 0) 0 with target := 65536 } = true ∧ (axisU (driving 0 0 0) 0).v = 0
    ∧ Accepted Obj.auxState 0 [wd (2 ^ 35)] (advance 0 (faulted (driving 0 16 0))) := by decide +kernel

/-! CameraInputsFormFramesStripesAndSettings. -/

/-- Camera input 0 on, master, synced, in frame 5 with a line limit; its stripes and records. -/
def filming (limit : Nat) (hi : Option Int) (ready : Bool) : State :=
  let s := setN Obj.frameLines 0 limit (setN Obj.camRole 0 (2 ^ 32 + 2 ^ 28) (laneWith plainChains 42 true false))
  let f : CamFrame := {
    num := 5, nopage := false, start := 0, pos0 := 0, lastJ := none, highest := hi, firstGen := 0, counted := 0,
    trans := 0, t0 := 0, dropped := [], overrun := false, gap := false, recent := [], sums := List.replicate 4 (0, 0, 0) }
  let st : Stripe := {
    input := 0, frame := 4, nopage := false, index := 0, lines := [], ready := some 0, count := 0, last := false,
    isShort := false, isLong := false }
  modCam 0 (fun c => { c with synced := true, kSync := 0, frame := some f })
    (modInsp (fun i => { i with stripes := if ready then [st] else [], display := [(3, []), (4, [])] }) { s with pages := [] })
def lineFrame (tc : Nat) : List Word :=
  let w0 := wd tc
  let w1 := wd (2 ^ 27 + 1)
  [w0, w1, wd (crc16Upper [w0, w1] 0), 5]
def camStatus (valid : Nat) (seq : Nat) : List Word :=
  let h := [0, wd (seq * 2 ^ 20 + valid * 2 ^ 19 + 2 ^ 10)]
  h ++ [wd (crc32 h), 0]
/-- A good line and a bad one; beyond the highest position, and not. -/
theorem linesArrive : awake (filming 64 none false) = true ∧ xingStalled (filming 64 none false) 9 = false ∧ camOn (filming 64 none false) 0 = true
    ∧ laneServes (filming 64 none false) (42 + 0) = true ∧ camLock (filming 64 none false) 0 = true
    ∧ fld (at? (lineFrame 2) 2 0) 15 0 = crc16Upper [at? (lineFrame 2) 0 0, at? (lineFrame 2) 1 0] (at? (lineFrame 2) 2 0)
    ∧ fld (at? (lineFrame 2) 1 0) 19 0 = camRows (filming 64 none false) 0 * camPositions (filming 64 none false) 0
    ∧ 3 + (fld (at? (lineFrame 2) 1 0) 19 0 + 2) / 3 ≤ (lineFrame 2).length ∧ fld (at? (lineFrame 2) 1 0) 21 20 ≠ 3
    ∧ bitOf (at? (lineFrame 2) 1 0) 27 = true ∧ (camU (filming 64 none false) 0).synced = true
    ∧ ((camU (filming 64 none false) 0).frame.map (fun f => (f.nopage, f.gap, f.dropped))) = some (false, false, [])
    ∧ getPos (filming 64 none false) Obj.camPhase 0 = 0 ∧ camPitch (filming 64 none false) = 32768
    ∧ (Int.fdiv ((0 + 2) * 32768 - 0) 32768).toNat + 1 - maxDelay (filming 64 none false) 0 < getN (filming 64 none false) Obj.frameLines 0
    ∧ getN (filming 2 none false) Obj.frameLines 0 ≤ (Int.fdiv ((0 + 2) * 32768 - 0) 32768).toNat + 1 - maxDelay (filming 2 none false) 0
    ∧ rdy (filming 2 none false) 25 = true ∧ maxDelay (filming 64 none false) 0 = 0 ∧ camUsed (filming 64 none false) 0 < camAlloc (filming 64 none false) 0
    ∧ ((camU (filming 64 (some 65536) false) 0).frame.bind (·.highest)) = some 65536 := by decide +kernel
/-- STATUS, SYNC, commits, stripes and records. -/
theorem cameraCommands : (camStatus 1 7).length = 4 ∧ at? (camStatus 1 7) 2 0 = wd (crc32 ((camStatus 1 7).take 2))
    ∧ bitOf (at? (camStatus 0 7) 1 0) 19 = false ∧ bitOf (at? (camStatus 1 7) 1 0) 19 = true
    ∧ fld (at? (camStatus 1 7) 1 0) 27 20 ≠ (camU (filming 64 none false) 0).syncSeen
    ∧ Works (filming 64 none false) ∧ Accepted Obj.syncReq 0 [1] (advance 0 (filming 64 none false))
    ∧ Accepted Obj.expCommit 0 [1] (advance 0 (filming 64 none false)) ∧ Accepted Obj.dispAck 0 [3] (advance 0 (filming 64 none false))
    ∧ rdy (filming 64 none true) 18 = true ∧ (nextStripe (filming 64 none true)).isSome = true
    ∧ camShows (filming 64 none true) 0 = false ∧ camCodes (filming 64 none true) 0 = false := by decide +kernel

/-! CalibrationRequestsRunAndAreJudged. -/

/-- Calibrations waiting, running and held back. -/
def calibrating (queue running : List CalReq) : State :=
  let s := setN Obj.autoCal 0 7 (setN Obj.delayTrig 0 10 summer)
  modCal (fun c => { c with queue := queue, running := running, groups := 15, channels := 0, backoff := [(1, 1)] }) s
def calEntry (item target : Nat) : CalReq :=
  { item := item, target := target, maxWait := 5, since := 0, deadline := 0, deferred := false, wasUp := true }
/-- Requests new and merged, starts, ends, expiry and retry. -/
theorem calibrationCommands : Works (calibrating [] []) ∧ Accepted Obj.calReq 0 [wd (17 * 2 ^ 30 + 5)] (advance 0 (calibrating [] []))
    ∧ Accepted Obj.calReq 0 [wd (17 * 2 ^ 30)] (advance 0 (calibrating [calEntry 17 0] []))
    ∧ calQueued (calibrating [] []) 17 0 = none ∧ (calQueued (calibrating [calEntry 17 0] []) 17 0).isSome = true
    ∧ calCan (advance 0 (calibrating [] [calEntry 18 1])) 17 0 = false ∧ calCan (advance 0 (calibrating [calEntry 17 0] [])) 17 0 = true
    ∧ calRunning (calibrating [calEntry 17 0] []) 17 0 = false ∧ calRunning (calibrating [] [calEntry 1 0]) 1 0 = true
    ∧ rdy (calibrating [] []) 25 = true ∧ (calibrating [] []).cal.backoff.contains (1, 1) = true := by decide +kernel
/-- A temperature that has moved. -/
theorem temperatureMoved : nbit (calibrating [] []).cal.groups.toNat 0 = true ∧ bitOf (getW (calibrating [] []) Obj.autoCal 0) 0 = true
    ∧ getN (calibrating [] []) Obj.delayTrig 0 < (sgn 36 (ws 500).toNat - sgn 14 (fld (getW (calibrating [] []) Obj.delayCal 0) 23 10)).natAbs
    ∧ (calibrating [] []).cal.backoff.contains (1, 0) = false ∧ calRunning (calibrating [] []) 1 0 = false
    ∧ calMoved (setI Obj.dieTemp 0 500 (calibrating [] [])) 1 1 = true := by decide +kernel

/-! MemoriesAreScrubbedRepairedClearedAndReported. -/

/-- Memory 1 with word 3 written and some of its bits flipped, a write-back, a merge entry or a repair waiting. -/
def memHolds (x : BitVec 43) (queue : List (Nat × Word)) (merge : List MergeEntry) (rows : List (Nat × Nat × Nat)) : State :=
  modMem 1 (fun u => { u with cells := [(3, { data := 77, upset := x, valid := 3 })], writeBacks := queue, merge := merge,
                              repairing := rows, scrubAddr := 3, corrected := 1 }) (setN Obj.scrubRate 0 0x10 { summer with pages := [] })
def entryAt (a : Nat) : MergeEntry := { addr := a, data := 5, nonets := 1, since := 0 }
/-- Write-backs, evictions, scrub reads, repairs and clears of memory 1. -/
theorem memoryCommands : awake (memHolds 0 [(3, 9)] [] []) = true ∧ rdy (memHolds 0 [] [] []) 25 = true ∧ (memHolds 0 [] [] []).pwr.codeError = false
    ∧ (memU (memHolds 0 [(3, 9)] [] []) 1).writeBacks = (3, 9) :: [] ∧ (memU (memHolds 0 [(3, 9)] [] []) 1).merge = [] ∧ 3 < memWords 1
    ∧ (memU (memHolds 0 [] [entryAt 3] []) 1).merge = entryAt 3 :: [] ∧ bitOf (getW (memHolds 0 [] [entryAt 3] []) Obj.flipCtrl 1) 35 = false
    ∧ compat (memHolds 0 [] [entryAt 3] []) 1 = false ∧ (cellAt (memHolds 0 [] [entryAt 3] []) 1 3) = { data := 77, upset := 0, valid := 3 }
    ∧ (cellAt (memHolds 0 [] [entryAt 4] []) 1 4).valid = 0 ∧ scrubs (memHolds 0 [] [] []) 1 = true ∧ (memU (memHolds 0 [] [] []) 1).scrubAddr = 3
    ∧ ones 43 ((0 : BitVec 43) ^^^ 0).toNat = 0 ∧ ones 43 ((0 : BitVec 43) ^^^ 4).toNat = 1 ∧ ones 43 ((0 : BitVec 43) ^^^ 5).toNat = 2
    ∧ (memU (memHolds 0 [] [] [(0, 0, 1)]) 1).repairing = (0, 0, 1) :: [] ∧ (memU (memHolds 0 [] [] []) 1).corrected ≠ 0
    ∧ Works (memHolds 0 [] [] []) ∧ Accepted Obj.clear 0 [6] (advance 0 (memHolds 0 [] [] [])) ∧ nbit (6 : Word).toNat 1 = true
    ∧ nbit (6 : Word).toNat 2 = true := by decide +kernel

/-! ReadsCorrectOneFlippedBitAndStopAtTwo. -/

/-- Word 3 of memory 1 with none, one or two bits flipped, poisoned, and never written. -/
theorem memoryReads : (memU (memHolds 0 [] [] []) 1).merge = [] ∧ (cellAt (memHolds 0 [] [] []) 1 3).valid = 3 ∧ (cellAt (memHolds 0 [] [] []) 1 3).upset = 0
    ∧ ones 43 (cellAt (memHolds 8 [] [] []) 1 3).upset.toNat = 1 ∧ ones 43 (cellAt (memHolds 9 [] [] []) 1 3).upset.toNat = 2
    ∧ (cellAt (memHolds 9 [] [] []) 1 3).valid = 3 ∧ rdy (memHolds 9 [] [] []) 25 = true ∧ (cellAt (poison 1 3 (memHolds 0 [] [] [])) 1 3).valid = 2
    ∧ (cellAt (memHolds 0 [] [] []) 1 4).valid = 0 ∧ compat (memHolds 0 [] [] []) 1 = false
    ∧ bitOf (getW (memHolds 0 [] [] []) Obj.flipCtrl 1) 35 = false := by decide +kernel

/-! HeadPowerChannelsAreCheckedRampedAndTripped. -/

/-- Channel 0 in a state, its request and its samples as given. -/
def powered (st : ChState) (req : Bool) (wait : List Nat) : State :=
  let s := setN Obj.hpcEnable 0 (if req then 1 else 0) (modChan 0 (fun c => { c with state := st }) summer)
  { s with pages := [], hpc := { s.hpc with waiting := wait, proved := true } }
/-- Requests, slots, checks, ramps and trips of channel 0. -/
theorem channelCommands : Works (powered .off false [])
    ∧ Accepted Obj.hpcEnable 0 [setBit (getW (powered .off false []) Obj.hpcEnable 0) 0 true] (advance 0 (powered .off false []))
    ∧ bitOf (getW (powered .off false []) Obj.hpcEnable 0) 0 = false
    ∧ Accepted Obj.hpcEnable 0 [setBit (getW (powered .on true []) Obj.hpcEnable 0) 0 false] (advance 0 (powered .on true []))
    ∧ bitOf (getW (powered .on true []) Obj.hpcEnable 0) 0 = true ∧ (chan (powered .on true []) 0).state = .on
    ∧ awake (powered .off true [0]) = true ∧ (powered .off true [0]).pwr.season = .summer ∧ (powered .off true [0]).hpc.waiting.contains 0 = true
    ∧ rdy (powered .off true [0]) 21 = true ∧ (∀ m ∈ (powered .off true [0]).hpc.waiting, 0 ≤ m) ∧ (powered .off true [0]).hpc.lastCheck = none
    ∧ rdy (powered .check true []) 25 = true ∧ (chan (powered .check true []) 0).state = .check ∧ (chan (powered .ramp true []) 0).state = .ramp
    ∧ (chan (powered .tripped true []) 0).state = .tripped ∧ (powered .tripped true []).hpc.waiting = []
    ∧ (powered .tripped true []).hpc.lastCheck = none
    ∧ (-70000 : Int) < -(getN (powered .check true []) Obj.revV 0 : Int) ∧ (getN (powered .check true []) Obj.openV 0 : Int) < 70000
    ∧ ¬ (0 : Int) < -(getN (powered .check true []) Obj.revV 0 : Int) ∧ ¬ (getN (powered .check true []) Obj.openV 0 : Int) < 0
    ∧ (0 : Int) < fld (getW (powered .check true []) Obj.hpcVwin 0) 35 18
    ∧ (0 : Int) ≤ fld (getW (powered .check true []) Obj.hpcVwin 0) 17 0 := by decide +kernel
/-- Samples, frames and the link of channel 0. -/
theorem powerLink : vHeld (powered .on true []) 0 = false ∧ getN (powered .on true []) Obj.adcTrigOnly 0 ≠ 1
    ∧ (powered .on true []).hpc.adcStart = none ∧ (chan (powered .on true []) 0).window = false
    ∧ getN (setN Obj.winFilter 0 1 (powered .on true [])) Obj.winFilter 0 ≤ (chan (powered .on true []) 0).outOfWindow + 1
    ∧ Accepted Obj.hpcUnlatch 0 [1] (advance 0 (powered .latched true [])) ∧ (chan (powered .latched true []) 0).state = .latched
    ∧ (powered .on true []).hpc.lost = false ∧ (at_ .thaw).pwr.season = .thaw ∧ rdy (at_ .thaw) 25 = true := by decide +kernel

/-! LaneAndRasterCommandsLeaveTheRestAlone. -/

/-- No step of a wind-down is under way. -/
theorem lanesSteady : Steady laning := by decide +kernel

/-! ScreeningFiringAndHeadCommandsLeaveTheRestAlone. -/

/-- No step of a wind-down is under way. -/
theorem headsSteady : Steady (linked .ready 1) := by decide +kernel

/-! WebMotionAndCameraCommandsLeaveTheRestAlone. -/

/-- No step of a wind-down is under way. -/
theorem motionSteady : Steady (driving 0 0 0) := by decide +kernel

/-! CalibrationMemoryAndHeadPowerCommandsLeaveTheRestAlone. -/

/-- A device with no restart of the firmware due. -/
theorem memorySteady : (memHolds 0 [] [] []).pwr.codeError = false := by decide +kernel

/-! AcceptedWritesOfPrintingLeaveTheRestAlone. -/

/-- Writes that are accepted on a device that works. -/
theorem printingWrites : Works summer ∧ Accepted Obj.save 0 [1] (advance 0 summer) ∧ Accepted Obj.commitPage 0 [5] (advance 0 summer)
    ∧ Accepted Obj.bookClear 0 [1] (advance 0 summer)
    ∧ Accepted Obj.fireEnable 0 [0] (advance 0 summer) := by decide +kernel

/-! AcceptedWritesOfMotionAndPowerLeaveTheRestAlone. -/

/-- Writes that are accepted on a device that works. -/
theorem motionWrites : Works (driving 0 0 0) ∧ Accepted Obj.axTarget 0 [0] (advance 0 (driving 0 0 0))
    ∧ Accepted Obj.posSource 0 [2] (advance 0 (webAt 1 none none)) ∧ Accepted Obj.hpcUnlatch 0 [1] (advance 0 (powered .latched true []))
    ∧ Accepted Obj.dispAck 0 [3] (advance 0 (filming 64 none false)) := by decide +kernel

/-! RailsResetsAndWakesAreCarriedOut. -/

/-- A device held by a power-on reset with RESET_N high and low, one held by RESET_N alone, and one in Winter with its wake
causes enabled. -/
theorem resetsAndWakes : (wholeReset true summer).pwr.powerOn = true ∧ (wholeReset true summer).pwr.resetLow = false
    ∧ (wholeReset true { summer with pwr := { summer.pwr with resetLow := true } }).pwr.resetLow = true
    ∧ (wholeReset false summer).pwr.inReset = true ∧ (wholeReset false summer).pwr.powerOn = false
    ∧ (at_ .winter).pwr.inReset = false ∧ (at_ .winter).pwr.season = .winter ∧ bitOf (getW (at_ .winter) Obj.wakeSrcEn 0) 0 = true
    ∧ bitOf (getW (at_ .winter) Obj.wakeSrcEn 0) 1 = true ∧ bitOf (getW (at_ .winter) Obj.wakeSrcEn 0) 2 = true := by decide +kernel

/-! BringUpIsCarriedOut. -/

/-- A Master that comes up, and one whose set for Summer is ready. -/
theorem bringUpMeets : awake comingUp = true ∧ bitOf (getW comingUp Obj.funcReset 0) 4 = false
    ∧ bitOf (getW comingUp Obj.funcReset 0) 11 = false ∧ bitOf (getW comingUp Obj.funcReset 0) 20 = false
    ∧ comingUp.pwr.domains = true ∧ bitOf comingUp.pwr.up 24 = false ∧ comingUp.nt.loading = true ∧ rdy comingUp 4 = true
    ∧ role comingUp ≠ 0 ∧ comingUp.pwr.wakeRunAt = none ∧ awake thaw = true ∧ thaw.pwr.season = .thaw
    ∧ getN thaw Obj.seasonReq 0 = 2 ∧ summerSet thaw = true := by decide +kernel

/-! CrossingUnitsPublishHoldAndRestart. -/

/-- Encoder 0's crossing unit with one side held, and with none. -/
def held (v : Nat) : State := setN Obj.funcReset 0 v summer
theorem crossingsHeld : rdy (held (2 ^ 13)) 25 = true ∧ (xingU (held (2 ^ 13)) 0).side = 0 ∧ xingSide (getW (held (2 ^ 13)) Obj.funcReset 0) 0 = 1
    ∧ xingSide (getW (held (2 ^ 5)) Obj.funcReset 0) 0 = 2 ∧ xingSide (getW (held (2 ^ 13 + 2 ^ 5)) Obj.funcReset 0) 0 = 3
    ∧ (xingU (xingFollow 0 (held (2 ^ 13))) 0).side ≠ 0 ∧ xingSide (getW (setN Obj.funcReset 0 0 (xingFollow 0 (held (2 ^ 13)))) Obj.funcReset 0) 0 = 0
    ∧ (xingPublish 5 State.resetXing).sentAt = some 5 ∧ (xingPublish 5 State.resetXing).published = gray (xingPublish 5 State.resetXing).count
    ∧ State.resetXing.sentAt = none := by decide +kernel


/-! Terms that the checks refuse. -/

/-- A slot above 64 (R81). -/
theorem test_wf_readSlot : Instr.wellFormed (.readObj 0 { slot := 65, obj := 0, index := 0, count := 0, shadow := false }) = false := by decide +kernel

/-- An object ID of more than 20 bits (R11). -/
theorem test_wf_readObject : Instr.wellFormed (.readObj 0 { slot := 0, obj := 2 ^ 20, index := 0, count := 0, shadow := false }) = false := by decide +kernel

/-- An index of more than one word. -/
theorem test_wf_readIndex : Instr.wellFormed (.openRead 0 { slot := 0, obj := 0, index := 2 ^ 36, count := 0, shadow := false }) = false := by decide +kernel

/-- A count of more than one word. -/
theorem test_wf_openCount : Instr.wellFormed (.openWrite 0 { slot := 0, obj := 0, index := 0, count := 2 ^ 36, shadow := false }) = false := by decide +kernel

/-- A write of 257 words (R143). -/
theorem test_wf_writeValues : Instr.wellFormed (.writeObject 0 { slot := 0, obj := 0, index := 0, count := 0, shadow := false } (List.replicate 257 0)) = false := by decide +kernel

/-- A broadcast that does not name slot 64 (R110). -/
theorem test_wf_broadcastSlot : Instr.wellFormed (.broadcastWrite 0 { slot := 1, obj := 0, index := 0, count := 0, shadow := false } [0]) = false := by decide +kernel

/-- A broadcast of 257 words (R143). -/
theorem test_wf_broadcastValues : Instr.wellFormed (.broadcastWrite 0 { slot := 64, obj := 0, index := 0, count := 0, shadow := false } (List.replicate 257 0)) = false := by decide +kernel

/-- A voltage of more than one word. -/
theorem test_wf_rail : Instr.wellFormed (.railOutOfRange 0 0 (2 ^ 36)) = false := by decide +kernel

/-- A segment number of 17 bits (R103). -/
theorem test_wf_segmentSeq : Instr.wellFormed (.segment 0 0 (2 ^ 16) 0 []) = false := by decide +kernel

/-- A segment that claims 257 words (R103). -/
theorem test_wf_segmentCount : Instr.wellFormed (.segment 0 0 0 257 []) = false := by decide +kernel

/-- A segment of 257 words (R103). -/
theorem test_wf_segmentWords : Instr.wellFormed (.segment 0 0 0 0 (List.replicate 257 0)) = false := by decide +kernel

/-- A copy of 843 words (R124). -/
theorem test_wf_copyWords : Instr.wellFormed (.cycleFrameCopy 0 { copyB := false, words := List.replicate 843 0, eofOk := true, rx := 0, tx := 0 }) = false := by decide +kernel

/-- A mailbox segment of 769 words (R129). -/
theorem test_wf_mailboxWords : Instr.wellFormed (.mailboxRequest 0 (List.replicate 769 0)) = false := by decide +kernel

/-- A TAG of 9 bits (R130). -/
theorem test_wf_ringTag : Instr.wellFormed (.ringAccessTimeout 0 256) = false := by decide +kernel

/-- An EtherType of 17 bits (R140). -/
theorem test_wf_frameType : Instr.wellFormed (.hostFrame 0 { tagged := false, etherType := 2 ^ 16, length := 64, pause := false, headerBytes := 20, fragment := false, target := 0, udp := true, icmpEcho := false, udpPort := 0, checksumOk := true }) = false := by decide +kernel

/-- A UDP port of 17 bits (R141). -/
theorem test_wf_framePort : Instr.wellFormed (.hostFrame 0 { tagged := false, etherType := 0, length := 64, pause := false, headerBytes := 20, fragment := false, target := 0, udp := true, icmpEcho := false, udpPort := 2 ^ 16, checksumOk := true }) = false := by decide +kernel

/-- An IPv4 header of more than 60 octets (R141). -/
theorem test_wf_frameHeader : Instr.wellFormed (.hostFrame 0 { tagged := false, etherType := 0, length := 64, pause := false, headerBytes := 61, fragment := false, target := 0, udp := true, icmpEcho := false, udpPort := 0, checksumOk := true }) = false := by decide +kernel

/-- A source port of 17 bits (R145). -/
theorem test_wf_datagramPort : Instr.wellFormed (.hostDatagram 0 0 (2 ^ 16) []) = false := by decide +kernel

/-- A datagram of more words than a frame holds (R142). -/
theorem test_wf_datagramWords : Instr.wellFormed (.hostDatagram 0 0 0 (List.replicate 295 0)) = false := by decide +kernel

/-- A kept reply's port of 17 bits (R146). -/
theorem test_wf_cachePort : Instr.wellFormed (.replyCacheExpire 0 0 (2 ^ 16) 0) = false := by decide +kernel

/-- A kept reply's number of 17 bits (R146). -/
theorem test_wf_cacheSeq : Instr.wellFormed (.replyCacheExpire 0 0 0 (2 ^ 16)) = false := by decide +kernel

/-- An IEEE 1588 domain of 9 bits (R162). -/
theorem test_wf_ptpDomain : Instr.wellFormed (.ptpSync 0 { domain := 256, seq := 0, twoStep := false, sender := 0, correction := 0, logInterval := 0 } 0 0) = false := by decide +kernel

/-- An IEEE 1588 sequence number of 17 bits (R162). -/
theorem test_wf_ptpSeq : Instr.wellFormed (.ptpFollowUp 0 { domain := 0, seq := 2 ^ 16, twoStep := false, sender := 0, correction := 0, logInterval := 0 } 0) = false := by decide +kernel

/-- A clock class of 9 bits (R163). -/
theorem test_wf_announce : Instr.wellFormed (.ptpAnnounce 0 { domain := 0, seq := 0, twoStep := false, sender := 0, correction := 0, logInterval := 0 } { priority1 := 0, clockClass := 256, accuracy := 0, variance := 0, priority2 := 0, identity := 0, stepsRemoved := 0 }) = false := by decide +kernel

/-- A fill beyond the elastic buffer (R179). -/
theorem test_wf_skipFill : Instr.wellFormed (.skipReceived 0 0 33) = false := by decide +kernel

/-- A bond size of five bits (R174). -/
theorem test_wf_dskN : Instr.wellFormed (.dskReceived 0 0 16 0 0) = false := by decide +kernel

/-- A bond position of five bits (R174). -/
theorem test_wf_dskP : Instr.wellFormed (.dskReceived 0 0 0 16 0) = false := by decide +kernel

/-- A line-group number of 17 bits (R174). -/
theorem test_wf_dskG : Instr.wellFormed (.dskReceived 0 0 0 0 (2 ^ 16)) = false := by decide +kernel

/-- A line-group header on six lanes (R200). -/
theorem test_wf_headerCopies : Instr.wellFormed (.lgHeader 0 (List.replicate 6 { ras := 0, w0 := 0, w1 := 0, w2 := 0, w3 := 0 })) = false := by decide +kernel

/-- A page number of 25 bits (R17). -/
theorem test_wf_lgPage : Instr.wellFormed (.lineGroupComplete 0 (2 ^ 24) 0 []) = false := by decide +kernel

/-- A line group number of 17 bits (R17). -/
theorem test_wf_checkLg : Instr.wellFormed (.checkInstant 0 0 (2 ^ 16)) = false := by decide +kernel

/-- A block of 25 words (R200). -/
theorem test_wf_lgBlock : Instr.wellFormed (.lineGroupComplete 0 0 0 [List.replicate 25 0]) = false := by decide +kernel

/-- A generation of 13 bits (R286). -/
theorem test_wf_ntGeneration : Instr.wellFormed (.ntApprove 0 4096) = false := by decide +kernel

/-- A STATUS frame of seven words (R363). -/
theorem test_wf_statusWords : Instr.wellFormed (.headStatus 0 0 { words := List.replicate 7 0, eofOk := true }) = false := by decide +kernel

/-- A marker number of 17 bits (R366). -/
theorem test_wf_markNumber : Instr.wellFormed (.tmarkEcho 0 0 { d0 := 256, d1 := 0, d2 := 0 } 0 0) = false := by decide +kernel

/-- A bridge register address of 17 bits (R375). -/
theorem test_wf_bridgeAddr : Instr.wellFormed (.regRead 0 0 (2 ^ 16)) = false := by decide +kernel

/-- A REG_REPLY of five words (R358). -/
theorem test_wf_replyWords : Instr.wellFormed (.regReply 0 0 { words := List.replicate 5 0, eofOk := true }) = false := by decide +kernel

/-- A drive's reply of 14 octets (R400). -/
theorem test_wf_auxBytes : Instr.wellFormed (.auxReply 0 (List.replicate 14 0)) = false := by decide +kernel

/-- An item of calibration that R433 and R441 do not list. -/
theorem test_wf_calItem : Instr.wellFormed (.calStart 0 3 0) = false := by decide +kernel

/-- A camera analog lane that does not exist (R433). -/
theorem test_wf_calTarget : Instr.wellFormed (.calStart 0 1 4) = false := by decide +kernel

/-! Worked examples of the spec, calculated there by hand. -/

/-- The samples of block 5 of the worked block of 08_block_codec.md. -/
def workedBlock : List Nat := (List.replicate 4 (List.replicate 13 120 ++ List.replicate 13 121 ++ [119])).flatten

/-- The worked block (R240): its four words. -/
theorem test_worked_block_coded : codeBlock 4 5 workedBlock = [0x305D7FB00#36, 0x0C001C000#36, 0#36, 0#36] := by decide +kernel

/-- The worked block (R237): those words give the samples back. -/
theorem test_worked_block_decoded :
    (decodeBlock 4 5 false staticTable [0x305D7FB00#36, 0x0C001C000#36, 0#36, 0#36]).toOption = some workedBlock := by decide +kernel

/-- Level 0 of the ladder gives T0 (R233). -/
theorem test_ladder_level_0 : ladderTable 0 = staticTable 0 := by decide +kernel

/-- The levels and the kernel of the three nozzles beside a missing one (09_screening_fabric.md). -/
def workedLevels : Array Nat := #[0, 900, 1700, 2400, 3000, 3500, 3900, 4095]
def workedKernel : Array Nat := #[14, 0, 0, 6, 10, 2, 0]

/-- Nozzles A and C quantise to 3 and 2 (R259), and v = 100 gives D1 = 1,608 (R250). -/
theorem test_worked_quantise : quantise workedLevels 2285 2047 = 3 ∧ quantise workedLevels 1816 2047 = 2
    ∧ toneCurve ((Array.replicate 33 0).set! 12 1536 |>.set! 13 1680) 100 = 1608 := by decide +kernel

/-- The terms of nozzle B (R263). -/
theorem test_worked_terms : (emitTerms workedKernel (-266)).f1 = -115 ∧ (emitTerms workedKernel (-266)).dm1 = -50
    ∧ (emitTerms workedKernel (-266)).d0 = -84 ∧ (emitTerms workedKernel (-266)).dp1 = -17 := by decide +kernel

/-- The energy of page line 3,000 of H16 (R319). -/
theorem test_worked_energy : kV 36000 35280 = 68237 ∧ kT 655 640 696 = 63244 ∧ kLine 66847 68237 63244 = 67168
    ∧ corrWidth 64 67168 = 66 ∧ corrWidth 512 67168 = 525 ∧ corrWidth 96 67168 = 98 := by decide +kernel

/-- The web of that example: 17,180 units over the window, the newest latch at tick 1,000,000. -/
def workedWeb : State :=
  setN Obj.flight 0 62500 { State.reset with fire := { State.reset.fire with
    latches := (List.range 65).map (fun i => ((221931520 : Int) - (17180 * i / 64 : Nat), 1000000 - 256 * i)) } }

/-- The fire time of that line (R306). -/
theorem test_worked_prediction : (predict workedWeb 222005248).map (·.1) = some 64499966 := by decide +kernel

/-- The verdict on nozzle 1,500 of H5 is weak (R428). -/
theorem test_worked_verdict :
    foxVerdict (setN Obj.noise 0 400 State.reset) 0 { re := -22200, ee := 60000, frames := 1, pending := 0, input := 0 } = (2, 95) := by
  decide +kernel

/-- An axis at 40 counts a cycle with 400 counts to go (R397). -/
def workedAxis : State := modAxis 0 (fun u => { u with v := 2621440, p := 0, target := 26214400 }) State.reset

/-- DECEL 1.5 is deferred, DECEL 2.5 is taken at once (R397). -/
theorem test_worked_decel : (axisU (axDecelDo 0 98304 workedAxis) 0).deferred = some 98304
    ∧ (axisU (axDecelDo 0 163840 workedAxis) 0).taken = some 163840 := by decide +kernel

/-- ALT3648-16-FB at stepping B0 reads 0x3_6482_1010 (R4). -/
theorem test_identity : (match exec (.readObj 0 { slot := 0, obj := 0, index := 0, count := 1, shadow := false }) summer with
    | .next u => u.sent | _ => []) = [.reply 0 [0x364821010#36]] := by decide +kernel

/-- Position −1.5 lines is the pair of words −2 and 0x800 (R10). -/
theorem test_pos48 : elemHi (posElem (-6144)) = 0xFFFFFFFFE#36 ∧ elemLo (posElem (-6144)) = 0x800#36
    ∧ elemPos (posElem (-6144)) = -6144 := by decide +kernel

/-- The IDCODE is 0x1364_89E7, and in Winter the TAP knows IDCODE and BYPASS alone (R519). -/
theorem test_tap : tapIdcode = 0x136489E7#32
    ∧ tapSupports { State.reset with pwr := { State.reset.pwr with season := .winter } } .extest = false := by decide +kernel

end Sys2Proof.Tests
end

section
/-! PROOFS. Plain accesses that do not fit their object (R12, R82): the codes that the object gives an access, the least of
them as the code that the order of R111 takes, and the refusal by the commands of R83. -/

namespace Sys2Proof.Machine

open Sys2Proof

/-! The codes of a plain access, each with its condition. -/

/-- The range of a plain access lies in its object: index 0 of a scalar, no element past the last of an array; a count of 0
looks at the first index alone. -/
def PlainInRange (d : ObjDef) (index count : Nat) : Prop :=
  if d.isArray then index + max count 1 ≤ d.count else index = 0

theorem not_plainInRange_iff (d : ObjDef) (index count : Nat) :
    ¬ PlainInRange d index count ↔ if d.isArray then index + max count 1 > d.count else index ≠ 0 := by
  unfold PlainInRange
  split
  · exact Nat.not_le
  · exact Iff.rfl

theorem eq_whenCode_iff {c code : Nat} (hc : c ≠ 0) (b : Bool) : c = whenCode b code ↔ c = code ∧ b = true := by
  cases b <;> simp [whenCode, hc]

/-- The class forbids a write with 0x03 and a read with 0x04 (R12). -/
theorem eq_classAbort_iff {d : ObjDef} {write : Bool} {c : Nat} (hc : c ≠ 0) :
    c = classAbort d write ↔ (c = 0x03 ∧ write = true ∧ (d.cls = .const ∨ d.cls = .ro))
      ∨ (c = 0x04 ∧ write = false ∧ d.cls = .wo) := by
  cases write <;> simp [classAbort, eq_whenCode_iff hc]

section Codes
variable {d : ObjDef} {write : Bool} {index count c : Nat}

theorem mem_plainAborts_iff (hc : c ≠ 0) :
    c ∈ plainAborts d write index count ↔
      (c = 0x03 ∧ write = true ∧ (d.cls = .const ∨ d.cls = .ro)) ∨ (c = 0x04 ∧ write = false ∧ d.cls = .wo)
        ∨ (c = 0x02 ∧ d.isBulk = false ∧ ¬ PlainInRange d index count)
        ∨ (c = 0x05 ∧ (d.isBulk = true ∨ if d.isArray then count = 0 else count ≠ 1)) := by
  rw [plainAborts, List.mem_cons, eq_classAbort_iff hc, not_plainInRange_iff, or_assoc]
  cases d.isBulk <;> cases d.isArray <;> simp [eq_whenCode_iff hc]

theorem plainAborts_range (hc : c ≠ 0) (h : c ∈ plainAborts d write index count) : 2 ≤ c ∧ c ≤ 5 := by
  rw [mem_plainAborts_iff hc] at h
  omega

/-! The least code, and the order of checking. -/

/-- The least code that its object gives a plain access. -/
structure LeastPlainAbort (d : ObjDef) (write : Bool) (index count c : Nat) : Prop where
  ne_zero : c ≠ 0
  mem : c ∈ plainAborts d write index count
  le : ∀ x ∈ plainAborts d write index count, x ≠ 0 → c ≤ x

theorem leastPlainAbort_out_of_range (hb : d.isBulk = false) (hr : ¬ PlainInRange d index count) :
    LeastPlainAbort d write index count 0x02 where
  ne_zero := by decide
  mem := (mem_plainAborts_iff (by decide)).mpr (.inr (.inr (.inl ⟨rfl, hb, hr⟩)))
  le _ hx hx0 := (plainAborts_range hx0 hx).1

theorem leastPlainAbort_write_forbidden (hr : d.isBulk = false → PlainInRange d index count)
    (hcls : d.cls = .const ∨ d.cls = .ro) : LeastPlainAbort d true index count 0x03 where
  ne_zero := by decide
  mem := (mem_plainAborts_iff (by decide)).mpr (.inl ⟨rfl, rfl, hcls⟩)
  le x hx hx0 := by
    obtain ⟨rfl, -⟩ | ⟨rfl, -⟩ | ⟨-, hb, hout⟩ | ⟨rfl, -⟩ := (mem_plainAborts_iff hx0).mp hx
    · decide
    · decide
    · exact absurd (hr hb) hout
    · decide

theorem leastPlainAbort_read_forbidden (hr : d.isBulk = false → PlainInRange d index count) (hcls : d.cls = .wo) :
    LeastPlainAbort d false index count 0x04 where
  ne_zero := by decide
  mem := (mem_plainAborts_iff (by decide)).mpr (.inr (.inl ⟨rfl, rfl, hcls⟩))
  le x hx hx0 := by
    obtain ⟨-, hw, -⟩ | ⟨rfl, -⟩ | ⟨-, hb, hout⟩ | ⟨rfl, -⟩ := (mem_plainAborts_iff hx0).mp hx
    · exact absurd hw (by decide)
    · decide
    · exact absurd (hr hb) hout
    · decide

theorem leastPlainAbort_type_mismatch (hr : d.isBulk = false → PlainInRange d index count) (hcls : classAbort d write = 0)
    (hm : d.isBulk = true ∨ if d.isArray then count = 0 else count ≠ 1) : LeastPlainAbort d write index count 0x05 where
  ne_zero := by decide
  mem := (mem_plainAborts_iff (by decide)).mpr (.inr (.inr (.inr ⟨rfl, hm⟩)))
  le x hx hx0 := by
    have hno : x ≠ classAbort d write := hcls ▸ hx0
    rw [ne_eq, eq_classAbort_iff hx0, not_or] at hno
    obtain h | h | ⟨-, hb, hout⟩ | ⟨rfl, -⟩ := (mem_plainAborts_iff hx0).mp hx
    · exact absurd h hno.1
    · exact absurd h hno.2
    · exact absurd (hr hb) hout
    · decide

/-- Codes 0x02 to 0x05 stand in the order of checking as their numbers do, and ahead of 0x07 (R111). -/
theorem firstAbort_eq_of_least {l : List Nat} (hc : c ∈ l) (h2 : 2 ≤ c) (h5 : c ≤ 5)
    (hl : ∀ x ∈ l, x = 0 ∨ (c ≤ x ∧ x ≤ 7)) : firstAbort l = c := by
  have hfirst : ∀ before after, abortOrder = before ++ c :: after → (∀ x ∈ before, x ≠ 0 ∧ (x < c ∨ 7 < x)) →
      firstAbort l = c := fun _ _ ho hb =>
    firstAbort_eq ho hc fun x hx hxl => by
      have := hb x hx
      have := hl x hxl
      omega
  obtain rfl | rfl | rfl | rfl : c = 2 ∨ c = 3 ∨ c = 4 ∨ c = 5 := by omega
  · exact hfirst [0x09, 0x0A, 0x0D, 0x01] _ rfl (by decide)
  · exact hfirst [0x09, 0x0A, 0x0D, 0x01, 0x02] _ rfl (by decide)
  · exact hfirst [0x09, 0x0A, 0x0D, 0x01, 0x02, 0x03] _ rfl (by decide)
  · exact hfirst [0x09, 0x0A, 0x0D, 0x01, 0x02, 0x03, 0x04] _ rfl (by decide)

/-- The least code of the object is the first of all, where the other checks give no more than 0x05 and 0x07. -/
theorem LeastPlainAbort.firstAbort_append {others : List Nat} (h : LeastPlainAbort d write index count c)
    (ho : ∀ x ∈ others, x = 0 ∨ x = 0x05 ∨ x = 0x07) : firstAbort (plainAborts d write index count ++ others) = c := by
  obtain ⟨h2, h5⟩ := plainAborts_range h.ne_zero h.mem
  refine firstAbort_eq_of_least (List.mem_append_left _ h.mem) h2 h5 fun x hx => ?_
  obtain hx | hx := List.mem_append.mp hx
  · by_cases hx0 : x = 0
    · exact .inl hx0
    · have := h.le x hx hx0
      have := plainAborts_range hx0 hx
      omega
  · have := ho x hx
    omega

end Codes

/-! The commands of R83. -/

/-- The access reaches an object of this device, which is awake with no damaged code waiting to restart it. -/
structure ReachesObject (a : Access) (s : State) (d : ObjDef) : Prop where
  awake : awake s = true
  code : s.pwr.codeError = false
  here : routeOf a.slot s = .here
  found : findObj a.obj = some d

section Refused
variable {a : Access} {s : State} {d : ObjDef} {c : Nat}

theorem LeastPlainAbort.readObj_refuses (h : LeastPlainAbort d false a.index a.count c) (hd : ReachesObject a s d) (t : Nat) :
    Refuses (.readObj t a) s c := by
  have hgate : ∀ x ∈ gateAborts d false a.shadow (advance t s), x = 0 ∨ x = 0x05 ∨ x = 0x07 := fun x hx =>
    (gate_codes d false a.shadow _ x (List.mem_cons_of_mem _ hx)).imp_right .inr
  have := plainAborts_range h.ne_zero h.mem
  exact refuses_of rfl rfl hd.awake
    (read_refused (s := advance t s) hd.here hd.found (h.firstAbort_append hgate) h.ne_zero (by omega) hd.code)

/-- Whatever its words: a wrong number of them gives 0x05, and no code of the object comes after that. -/
theorem LeastPlainAbort.writeObject_refuses (h : LeastPlainAbort d true a.index a.count c) (hd : ReachesObject a s d) (t : Nat)
    (vals : List Word) : Refuses (.writeObject t a vals) s c := by
  have hlength : ∀ x ∈ [whenCode (vals.length != a.count * d.wordsPer) 0x05], x = 0 ∨ x = 0x05 ∨ x = 0x07 := fun _ hx =>
    List.mem_singleton.mp hx ▸ (whenCode_cases _ _).imp_right .inl
  have := plainAborts_range h.ne_zero h.mem
  exact refuses_of rfl rfl hd.awake
    (write_refused (s := advance t s) hd.here hd.found (h.firstAbort_append hlength) h.ne_zero (by omega) hd.code)

end Refused

theorem classAbort_read_eq_zero {d : ObjDef} (h : d.cls ≠ .wo) : classAbort d false = 0 := by simp [classAbort, whenCode, h]

theorem classAbort_write_eq_zero {d : ObjDef} (hc : d.cls ≠ .const) (hr : d.cls ≠ .ro) : classAbort d true = 0 := by
  simp [classAbort, whenCode, hc, hr]

/-- Settles O10: an access out of range meets 0x02, the least code; in range its class gives 0x03 or 0x04; with access
allowed only 0x05 is left. -/
theorem plainAccessesMustFitTheirObject : Obligations.PlainAccessesMustFitTheirObject := by
  refine ⟨fun t a s d ha he hr hd hb hout => ?_, fun t a s d vals ha he hr hd _ hin hcls => ?_,
    fun t a s d ha he hr hd _ hin hcls => ?_, fun t a s d ha he hr hd hm => ?_⟩ <;>
    have hobj : ReachesObject a s d := ⟨ha, he, hr, hd⟩
  · have hout := (not_plainInRange_iff ..).mpr hout
    exact ⟨(leastPlainAbort_out_of_range hb hout).readObj_refuses hobj t,
      (leastPlainAbort_out_of_range hb hout).writeObject_refuses hobj t⟩
  · exact (leastPlainAbort_write_forbidden (fun _ => hin) hcls).writeObject_refuses hobj t vals
  · exact (leastPlainAbort_read_forbidden (fun _ => hin) hcls).readObj_refuses hobj t
  · have hin : d.isBulk = false → PlainInRange d a.index a.count := fun hb => by
      obtain hb' | ⟨hs, hi, -⟩ | ⟨hs, hi, hn⟩ := hm
      · exact absurd (hb.symm.trans hb') (by decide)
      · rw [PlainInRange, if_neg (by rw [hs]; decide)]
        exact hi
      · rw [PlainInRange, if_pos hs, hn]
        exact hi
    have hmismatch : d.isBulk = true ∨ if d.isArray then a.count = 0 else a.count ≠ 1 :=
      hm.imp_right fun h => by
        obtain ⟨hs, -, hn⟩ | ⟨hs, -, hn⟩ := h
        · rw [if_neg (by rw [hs]; decide)]
          exact hn
        · rw [if_pos hs]
          exact hn
    exact ⟨fun hw => (leastPlainAbort_type_mismatch hin (classAbort_read_eq_zero hw) hmismatch).readObj_refuses hobj t,
      fun hc hr => (leastPlainAbort_type_mismatch hin (classAbort_write_eq_zero hc hr) hmismatch).writeObject_refuses hobj t⟩

end Sys2Proof.Machine
end

section
/-! PROOFS. The invariant of every step (R112, R116, R449, R503). -/

namespace Sys2Proof.Machine

open Sys2Proof

/-- What every step keeps, a command's or an idle tick's: what was sound, and the queue but for the command taken. -/
theorem step_keeps {s t : State} (h : step s = .next t) :
    ∃ tick, Keeps everyArea [] (advance tick { s with pending := s.pending.drop 1 }) t := by
  unfold step at h
  split at h
  · next hp =>
    have hs : { s with pending := s.pending.drop 1 } = s := by rw [hp, List.drop_nil, ← hp]
    rw [hs]
    exact ⟨_, happenAlways_keeps (fun _ => Keeps.refl ..) h⟩
  · next c rest hp =>
    rw [hp]
    exact ⟨c.tick, exec_keeps h⟩

/-- Settles O5: the queue and the clock are no part of what is sound, and all else a step keeps sound. -/
theorem stepsKeepMemoriesValuesAndEventsSound : Obligations.StepsKeepMemoriesValuesAndEventsSound := by
  intro s t hs h
  obtain ⟨_, hk⟩ := step_keeps h
  exact hk.sound hs

end Sys2Proof.Machine
end

section
/-! PROOFS. The order in which an access is checked (R111), and accesses that name no object (R119). -/

namespace Sys2Proof.Machine

open Sys2Proof

/-! The order of checking (R111). -/

theorem firstAbort_of_none {codes : List Nat} (h : ∀ c ∈ abortOrder, c ∉ codes) : firstAbort codes = 0 := by
  rw [firstAbort, List.find?_eq_none.mpr fun c hc => by simpa using h c hc]
  rfl

/-- The code taken stands in the order of checking, applies, and no code before it does; or none of the order applies. -/
theorem firstAbort_spec (codes : List Nat) :
    (firstAbort codes = 0 ∧ ∀ c ∈ abortOrder, c ∉ codes)
      ∨ ∃ pre post, abortOrder = pre ++ firstAbort codes :: post ∧ firstAbort codes ∈ codes ∧ ∀ c ∈ pre, c ∉ codes := by
  cases hf : abortOrder.find? (fun c => codes.contains c) with
  | none =>
    have hnone : ∀ c ∈ abortOrder, c ∉ codes := fun c hc => by simpa using List.find?_eq_none.mp hf c hc
    exact .inl ⟨firstAbort_of_none hnone, hnone⟩
  | some c =>
    obtain ⟨hc, pre, post, horder, hpre⟩ := List.find?_eq_some_iff_append.mp hf
    have hfirst : firstAbort codes = c := by rw [firstAbort, hf, Option.getD_some]
    rw [hfirst]
    exact .inr ⟨pre, post, horder, by simpa using hc, fun x hx => by simpa using hpre x hx⟩

/-- Every code of the order of checking fits the byte of a reply. -/
theorem firstAbort_lt (codes : List Nat) : firstAbort codes < 256 := by
  obtain ⟨h, -⟩ | ⟨pre, post, h, -⟩ := firstAbort_spec codes
  · omega
  · have hmem : firstAbort codes ∈ abortOrder := h ▸ List.mem_append_right _ List.mem_cons_self
    have hall : ∀ c ∈ abortOrder, c < 256 := by decide
    exact hall _ hmem

/-- Settles O9: the order of R111 is the order of the list that is searched, and no code of a refused access has an effect. -/
theorem firstAbortInTheOrderOfChecking : Obligations.FirstAbortInTheOrderOfChecking :=
  ⟨firstAbort_spec,
    fun t _ s _ ha he hr hd h0 => refuses_of rfl rfl ha (read_refused (s := advance t s) hr hd rfl h0 (firstAbort_lt _) he),
    fun t _ _ s _ ha he hr hd h0 => refuses_of rfl rfl ha (write_refused (s := advance t s) hr hd rfl h0 (firstAbort_lt _) he)⟩

/-! Objects that are not defined (R119). -/

theorem groupRows_eq_nil {g : Nat} (h : 0x15 < g) : groupRows g = [] := by
  unfold groupRows
  split
  case h_23 => rfl
  all_goals omega

theorem findObj_eq_none_of_group {id : Nat} (h : 0x15 < id / 4096) : findObj id = none := by
  rw [findObj, groupRows_eq_nil h]
  rfl

theorem broadcastAbort_undefined {q : Req} (ho : q.op < 4) (hd : findObj q.obj = none) : broadcastAbort q = 0x01 := by
  rw [broadcastAbort, if_neg (by omega), hd]

/-- An access to slot 64 that names no object is refused at once. -/
theorem undefined_refused_all {q : Req} {s : State} (hr : routeOf q.slot s = .all) (ho : q.op < 4) (hd : findObj q.obj = none) :
    access q s = emit (.reply 0x01 []) s := by
  have hstart : startAccess none q s = (some (badReply 0x01), s) := by
    rw [startAccess, hr]
    dsimp only
    rw [broadcastDo, broadcastAbort_undefined ho hd]
    rfl
  rw [access, hstart]
  exact deliver_refused q q.op (by decide) (by decide) s

theorem access_undefined {q : Req} {s : State} (hr : routeOf q.slot s = .here ∨ routeOf q.slot s = .all) (ho : q.op < 4)
    (hd : findObj q.obj = none) (he : s.pwr.codeError = false) : access q s = emit (.reply 0x01 []) s :=
  hr.elim (fun hr => undefined_refused hr ho hd he) (fun hr => undefined_refused_all hr ho hd)

/-- Settles O11: no row of the dictionary stands in a group above 15 hex, and an access that finds none meets
0x01 on either way. -/
theorem undefinedObjectsAreRefused : Obligations.UndefinedObjectsAreRefused := by
  refine ⟨fun _ => findObj_eq_none_of_group, fun t a s vals ha he hr hd => ?_⟩
  have hrefused : ∀ op data, op < 4 → access (reqOf op a data) (advance t s) = emit (.reply 0x01 []) (advance t s) :=
    fun _ _ ho => access_undefined (s := advance t s) hr ho hd he
  exact ⟨refuses_of rfl rfl ha (hrefused 0 [] (by decide)), refuses_of rfl rfl ha (hrefused 1 vals (by decide)),
    refuses_of rfl rfl ha (hrefused 2 [] (by decide)), refuses_of rfl rfl ha (hrefused 3 [] (by decide))⟩

end Sys2Proof.Machine
end

section
/-! PROOFS. The order of page numbers (R94). -/

namespace Sys2Proof.Machine

open Sys2Proof

theorem ahead_iff (p q : Nat) :
    ahead p q = true ↔ 1 ≤ ((p : Int) - q) % 2 ^ 24 ∧ ((p : Int) - q) % 2 ^ 24 ≤ 2 ^ 23 - 1 := by
  have hdiff : ((p + 2 ^ 24 - q % 2 ^ 24) % 2 ^ 24 : Nat) = ((p : Int) - q) % 2 ^ 24 := by omega
  simp only [ahead, Bool.and_eq_true, decide_eq_true_eq, ← hdiff]
  omega

/-- Settles O15: the two differences are both 0 or add up to 2^24, so that no two of them lie below 2^23. -/
theorem ofTwoPagesAtMostOneIsAhead : Obligations.OfTwoPagesAtMostOneIsAhead := by
  intro p q _ _
  have hsum : ((p : Int) - q) % 2 ^ 24 + ((q : Int) - p) % 2 ^ 24 = 0
      ∨ ((p : Int) - q) % 2 ^ 24 + ((q : Int) - p) % 2 ^ 24 = 2 ^ 24 := by omega
  refine ⟨ahead_iff p q, fun h => ?_, fun h => ?_⟩
  · rw [Bool.eq_false_iff, Bool.eq_false_iff, ne_eq, ne_eq, ahead_iff, ahead_iff]
    omega
  · rw [ahead_iff, ahead_iff] at h
    omega

end Sys2Proof.Machine
end

section
/-! PROOFS. The mask of events and the merging of repeats (R112 to R114). -/

namespace Sys2Proof.Machine

open Sys2Proof

/-- The mask lets an event pass by its group bit and its severity bit together (R113). -/
theorem passesMask_iff (s : State) (e : Event) :
    passesMask s e = true ↔ e.sev = 3
      ∨ (e.group ≤ 0x15 ∧ bitOf (eventMask s) e.group = true ∧ bitOf (eventMask s) (32 + e.sev) = true) := by
  simp [passesMask, and_assoc]

theorem enqueue_masked {s : State} {e : Event} (h : passesMask s e = false) : enqueue s e = bump Obj.eventMasked 0 1 s := by
  simp [enqueue, h]

theorem satN_eq_min (n v : Nat) : satN n v = min v (2 ^ n - 1) := by
  unfold satN
  split <;> omega

/-- A counter stops at the largest value of a word. -/
theorem getN_bump_self (id i n : Nat) (s : State) : getN (bump id i n s) id i = min (getN s id i + n) (2 ^ 36 - 1) := by
  rw [bump, getN_setN_self, satN_eq_min]
  omega

theorem repeatsEntry_iff (e : Event) (q : Entry) :
    repeatsEntry e q = true ↔ q.event.group = e.group ∧ q.event.number = e.number ∧ q.event.params = e.params
      ∧ (e.time - q.event.time + (q.event.time - e.time)) * 1000 ≤ 2 ^ 36 := by
  simp [repeatsEntry, and_assoc]

theorem enqueue_repeat {s : State} {e : Event} {older : List Entry} {q : Entry} (hq : s.ev.queue = older ++ [q])
    (hp : passesMask s e = true) (hr : repeatsEntry e q = true) : enqueue s e = mergeNewest s := by
  simp [enqueue, hp, hq, hr]

theorem mergeNewest_below {s : State} {older : List Entry} {q : Entry} (hq : s.ev.queue = older ++ [q]) (h : q.rep < 8191) :
    mergeNewest s = { s with ev := { s.ev with queue := older ++ [{ q with rep := q.rep + 1 }] } } := by
  simp [mergeNewest, hq, Nat.not_le.mpr h]

theorem mergeNewest_full {s : State} {older : List Entry} {q : Entry} (hq : s.ev.queue = older ++ [q]) (h : 8191 ≤ q.rep) :
    mergeNewest s = bump Obj.eventLost 0 1 s := by
  simp [mergeNewest, hq, h]

/-- Settles O16: a masked event goes to its counter; a repeat goes to the newest entry, whose count stops at 8,191. -/
theorem eventsPassTheMaskAndMerge : Obligations.EventsPassTheMaskAndMerge := by
  refine fun s e => ⟨passesMask_iff s e, fun hm => ?_, fun older q hq hp hg hn hps ht => ?_⟩
  · rw [enqueue_masked hm]
    exact ⟨bump_ev .., getN_bump_self ..⟩
  · rw [enqueue_repeat hq hp ((repeatsEntry_iff e q).mpr ⟨hg.symm, hn.symm, hps.symm, ht⟩)]
    obtain hr | hr := Nat.lt_or_ge q.rep 8191
    · rw [mergeNewest_below hq hr]
      exact ⟨fun _ => rfl, fun h => absurd hr (Nat.not_lt.mpr h), rfl⟩
    · rw [mergeNewest_full hq hr]
      exact ⟨fun h => absurd h (Nat.not_lt.mpr hr), fun _ => rfl, rfl⟩

end Sys2Proof.Machine
end

section
/-! PROOFS. Accepted plain writes of one element (R83, R90, R449): what the command answers, which words of control
processor RAM it can change, and what its effect and its reply leave alone. -/

namespace Sys2Proof.Machine

open Sys2Proof

/-! Words of memories. -/

theorem cellAt_congr {s u : State} (h : u.mem = s.mem) (m a : Nat) : cellAt u m a = cellAt s m a := by
  rw [cellAt, cellAt, memU, memU, h]

/-- A change of one memory leaves each word whose cell it leaves. -/
theorem cellAt_modMem {n m a : Nat} {f : MemUnit → MemUnit} (s : State)
    (h : n = m → ∀ u, memRead m (f u).cells a = memRead m u.cells a) : cellAt (modMem n f s) m a = cellAt s m a := by
  unfold cellAt memU modMem
  dsimp only
  by_cases hn : n = m
  · subst hn
    by_cases h8 : n < 8
    · rw [vget_vmod _ _ _ h8, if_pos rfl, h rfl]
    · rw [vmod, dif_neg h8]
  · rw [vget_vmod_other _ _ _ hn]

theorem cellAt_dropWaiting (n b : Nat) (s : State) (m a : Nat) : cellAt (dropWaiting n b s) m a = cellAt s m a :=
  cellAt_modMem s fun _ _ => rfl

theorem flipMask_mem (n b : Nat) (s : State) : (flipMask n b s).2.mem = s.mem := by
  unfold flipMask
  dsimp only
  split
  · rw [raise_mem, setN_mem]
  · rfl

theorem cellAt_putCell {n b m a : Nat} (v : Stored) (s : State) (h : ¬ (m = n ∧ a = b)) :
    cellAt (putCell n b v s) m a = cellAt s m a :=
  cellAt_modMem s fun hn u => by
    have hb : a ≠ b := fun hab => h ⟨hn.symm, hab⟩
    dsimp only
    split
    · rw [hn, memRead_memWrite_ne _ _ _ hb]
    · rfl

/-- A user write changes no word but its own. -/
theorem cellAt_userWrite {n b m a : Nat} (w : Word) (s : State) (h : ¬ (m = n ∧ a = b)) :
    cellAt (userWrite n b w s) m a = cellAt s m a := by
  rw [userWrite]
  exact (cellAt_putCell _ _ h).trans ((cellAt_congr (flipMask_mem ..) m a).trans (cellAt_dropWaiting ..))

theorem forEach_keeps_value {α β : Type} {f : α → State → State} {g : State → β} :
    ∀ {l : List α} {s : State}, (∀ x ∈ l, ∀ s, g (f x s) = g s) → g (forEach l f s) = g s
  | [], _, _ => rfl
  | x :: l, s, h => (forEach_keeps_value (l := l) (s := f x s) fun y hy => h y (List.mem_cons_of_mem _ hy)).trans
      (h x List.mem_cons_self s)

/-- Storing an element changes no word but those of control processor RAM that hold it. -/
theorem ramWrite_ramOnly (d : ObjDef) (i : Nat) (e : Elem) (s : State) : RamOnly d.id i d.wordsPer s (ramWrite d i e s) := by
  intro m a h
  unfold ramWrite
  split
  · rfl
  · exact forEach_keeps_value (g := fun s => cellAt s m a) fun k hk s =>
      cellAt_userWrite _ s fun hma => h ⟨hma.1, k, List.mem_range.mp hk, hma.2⟩

theorem RamOnly.same_mem {obj i n : Nat} {s x u : State} (h : RamOnly obj i n s x) (hm : u.mem = x.mem) : RamOnly obj i n s u :=
  fun m a hma => (cellAt_congr hm m a).trans (h m a hma)

/-! What an accepted write answers. -/

theorem findObj_id {obj : Nat} {d : ObjDef} (h : findObj obj = some d) : d.id = obj := by
  simpa using List.find?_some h

/-- The state that an accepted write of e to element i leaves for READY to follow: its word in control processor RAM, its
effect, its reply. -/
def afterWrite (d : ObjDef) (i : Nat) (e : Elem) (s : State) : State := emit (.reply 0 []) (elemApply d i e (ramWrite d i e s))

section
variable {d : ObjDef} {i : Nat} {e : Elem} {c : Instr} {s : State}

/-- An accepted write that meets no damaged code answers what its effect and its reply leave. -/
theorem answers_afterWrite {f : State → State} {P : State → Prop} (hx : exec c s = happen c.tick f s) (hw : Works s)
    (hf : f (advance c.tick s) = emit (.reply 0 []) (codeCheck (elemApply d i e (ramWrite d i e (advance c.tick s)))))
    (hcode : ∀ x, (elemApply d i e x).pwr.codeError = x.pwr.codeError)
    (hp : P (settle (afterWrite d i e (advance c.tick s)))) : Answers c s P := by
  obtain ⟨hawake, -, hgood⟩ := hw
  have hnone : (elemApply d i e (ramWrite d i e (advance c.tick s))).pwr.codeError = false :=
    (hcode _).trans ((ramWrite_keeps d i e _).code.trans hgood)
  refine answers_happen hx hawake ?_
  rw [hf, codeCheck_off hnone]
  exact hp

/-- An accepted write keeps what its effect keeps, but for the word stored, its flip-mask and the reply. -/
theorem afterWrite_keeps {T T' : List Area} {O O' : List Nat} {s : State} (hk : ∀ x, Keeps T O x (elemApply d i e x))
    (hT : ∀ a ∈ .ev :: .mem :: .sent :: T, a ∈ T') (hO : ∀ o ∈ Obj.eventLost :: Obj.flipCtrl :: O, o ∈ O') :
    Keeps T' O' s (afterWrite d i e s) := by
  simp only [List.forall_mem_cons] at hT hO
  obtain ⟨hev, hmem, hsent, hT⟩ := hT
  obtain ⟨hlost, hflip, hO⟩ := hO
  have hram : Keeps T' O' s (ramWrite d i e s) := (ramWrite_keeps d i e s).mono
    (List.forall_mem_cons.mpr ⟨hev, List.forall_mem_singleton.mpr hmem⟩)
    (List.forall_mem_cons.mpr ⟨hlost, List.forall_mem_singleton.mpr hflip⟩)
  exact keeps_emit' hsent ((hk _).step hT hO hram)

theorem afterWrite_ramOnly {T : List Area} {O : List Nat} {s : State} (hk : ∀ x, Keeps T O x (elemApply d i e x))
    (hm : .mem ∉ T) : RamOnly d.id i d.wordsPer s (afterWrite d i e s) :=
  (ramWrite_ramOnly d i e s).same_mem ((hk _).areas .mem hm)

end

/-! The commands that stand for a write. -/

section
variable {c : Instr} {f : State → State} {obj i n : Nat} {vals : List Word} {s : State} {d : ObjDef}
  {e : Elem} {T T' : List Area} {O O' : List Nat}

/-- An accepted write by a command that stands for it changes what its effect names, beside the word stored, its
flip-mask and the reply. Of a command of the table, hx, hf, hd and he hold by computation. -/
theorem frame_of_accepted (ha : Accepted obj i vals (advance c.tick s)) (hw : Works s) (hx : exec c s = happen c.tick f s)
    (hf : f (advance c.tick s) = writeOne obj i vals (advance c.tick s)) (hd : findObj obj = some d)
    (he : elemsOf d.wordsPer vals = [e]) (hk : ∀ e x, Keeps T O x (elemApply d i e x))
    (hcode : ∀ e x, (elemApply d i e x).pwr.codeError = x.pwr.codeError)
    (hT : ∀ a ∈ .ev :: .mem :: .sent :: T, a ∈ T' := by decide)
    (hO : ∀ o ∈ Obj.eventLost :: Obj.flipCtrl :: O, o ∈ O' := by decide) : Answers c s (Frame c.tick T' O' s) :=
  answers_afterWrite hx hw (hf.trans (writeOne_accepted hd he ha)) (hcode _) (afterWrite_keeps (hk _) hT hO).frame

/-- Where the effect reaches neither a memory nor the power state, only the words stored differ in the memories. -/
theorem frame_ramOnly_of_accepted (ha : Accepted obj i vals (advance c.tick s)) (hw : Works s)
    (hx : exec c s = happen c.tick f s) (hf : f (advance c.tick s) = writeOne obj i vals (advance c.tick s))
    (hd : findObj obj = some d) (hn : d.wordsPer = n) (he : elemsOf d.wordsPer vals = [e])
    (hk : ∀ e x, Keeps T O x (elemApply d i e x)) (hm : .mem ∉ T := by decide) (hp : .pwr ∉ T := by decide)
    (hT : ∀ a ∈ .ev :: .mem :: .sent :: T, a ∈ T' := by decide)
    (hO : ∀ o ∈ Obj.eventLost :: Obj.flipCtrl :: O, o ∈ O' := by decide) :
    Answers c s (fun u => Frame c.tick T' O' s u ∧ RamOnly obj i n s u) := by
  subst hn
  obtain rfl := findObj_id hd
  have hram := afterWrite_ramOnly (s := advance c.tick s) (hk (maskElem d e)) hm
  exact answers_afterWrite hx hw (hf.trans (writeOne_accepted hd he ha)) (fun x => (hk _ x).code hp)
    ⟨(afterWrite_keeps (hk _) hT hO).frame, hram.same_mem (settle_mem _)⟩

end

/-! PAGE_ABORT reads no word of control processor RAM, so that it never restarts the firmware. -/

theorem forceBegunNt_code (s : State) : (forceBegunNt s).pwr.codeError = s.pwr.codeError := by
  unfold forceBegunNt
  split
  · split
    · exact ntSwitch_code ..
    · rfl
  · rfl

theorem abandonPages_code (s : State) : (abandonPages s).pwr.codeError = s.pwr.codeError := by
  unfold abandonPages
  extract_lets ps mine s1 s2 held s3
  have h1 : s1.pwr.codeError = s.pwr.codeError := (lateFlush_keeps s).code
  clear_value s1
  have h2 : s2.pwr.codeError = s.pwr.codeError := by
    refine forEach_codeOf (fun _ _ => ?_) h1
    exact (modHead_keeps ..).code.trans (discardLds_keeps ..).code
  clear_value s2
  have h3 : s3.pwr.codeError = s.pwr.codeError := by
    unfold s3
    rw [(releaseWords_keeps ..).code, h2]
  clear_value s3
  rw [forceBegunNt_code, (forceBegunCommits_keeps _).code, (rideCount_keeps ..).code]
  exact h3

theorem pageAbortDo_code (s : State) : (pageAbortDo s).pwr.codeError = s.pwr.codeError :=
  (endHalt_keeps _).code.trans (abandonPages_code s)

theorem keeps_if {T : List Area} {O : List Nat} {p : Prop} [Decidable p] {g : State → State} (h : ∀ x, Keeps T O x (g x))
    (x : State) : Keeps T O x (if p then g x else x) := keeps_ite (h x) (Keeps.refl ..)

/-- A write of 0A.000 FIRE_ENABLE arms or disarms (R304). -/
theorem fireEnable_keeps (p : Prop) [Decidable p] (x : State) :
    Keeps [.fire, .sent] [Obj.fireEnable] x (if p then armDo x else disarmDo x) :=
  keeps_ite ((armDo_keeps x).mono (by decide) (by decide)) (disarmDo_keeps x)

/-- Settles O49: each command is its write's effect between the word stored and the reply, and each effect has its frame. -/
theorem acceptedWritesOfPrintingLeaveTheRestAlone : Obligations.AcceptedWritesOfPrintingLeaveTheRestAlone :=
  ⟨fun _ _ _ hw ha => frame_ramOnly_of_accepted ha hw rfl rfl rfl rfl rfl fun _ => eventAckDo_keeps _,
    fun _ _ hw ha => frame_ramOnly_of_accepted ha hw rfl rfl rfl rfl rfl fun _ => saveStart_keeps,
    fun _ _ _ hw ha => frame_ramOnly_of_accepted ha hw rfl rfl rfl rfl rfl fun _ => commitPageDo_keeps _,
    fun _ _ _ hw ha => frame_ramOnly_of_accepted ha hw rfl rfl rfl rfl rfl fun e => commitCancelDo_keeps (fld (elemLo e) 23 0),
    fun _ _ hw ha => frame_of_accepted ha hw rfl rfl rfl rfl (fun _ => keeps_if commitNowWrite_keeps)
      fun _ x => (keeps_if commitNowWrite_keeps x).code,
    fun _ _ hw ha => frame_ramOnly_of_accepted ha hw rfl rfl rfl rfl rfl fun _ => keeps_if resyncDo_keeps,
    fun _ _ _ _ hw ha => frame_ramOnly_of_accepted ha hw rfl rfl rfl rfl rfl fun e => timeNowDo_keeps e.toNat,
    fun _ _ _ hw ha => frame_ramOnly_of_accepted ha hw rfl rfl rfl rfl rfl fun _ => trigDo_keeps _ _,
    fun _ _ _ hw ha => frame_ramOnly_of_accepted ha hw rfl rfl rfl rfl rfl fun _ => bondCfgDo_keeps _,
    fun _ _ hw ha => frame_ramOnly_of_accepted ha hw rfl rfl rfl rfl rfl fun _ => fireEnable_keeps _,
    fun _ _ hw ha => frame_ramOnly_of_accepted ha hw rfl rfl rfl rfl rfl fun _ => fireEnable_keeps _,
    fun _ _ hw ha => frame_ramOnly_of_accepted ha hw rfl rfl rfl rfl rfl fun _ => keeps_if bookClearDo_keeps,
    fun _ _ hw ha => frame_of_accepted ha hw rfl rfl rfl rfl (fun _ => pageAbortDo_keeps) fun _ => pageAbortDo_code,
    fun _ _ _ _ hw ha => frame_ramOnly_of_accepted ha hw rfl rfl rfl rfl rfl fun _ => regSelDo_keeps _ _,
    fun _ _ _ _ hw ha => frame_ramOnly_of_accepted ha hw rfl rfl rfl rfl rfl fun _ => regSelDo_keeps _ _,
    fun _ _ _ hw ha => frame_ramOnly_of_accepted ha hw rfl rfl rfl rfl rfl fun _ => ntApproveDo_keeps _,
    fun _ _ _ hw ha => frame_ramOnly_of_accepted ha hw rfl rfl rfl rfl rfl fun _ => ntApproveDo_keeps _⟩

end Sys2Proof.Machine
end

section
/-! PROOFS. RWB objects (R90): a write reaches the shadow alone, and no other object has one. -/

namespace Sys2Proof.Machine

open Sys2Proof

theorem getShadow_congr {s u : State} (h : u.dict.shadow = s.dict.shadow) (hg : u.pwr.grade = s.pwr.grade)
    (hs : u.pwr.strap = s.pwr.strap) (id i : Nat) : getShadow u id i = getShadow s id i := by
  rw [getShadow, getShadow, h, hg, hs]

theorem getShadow_setShadow_self (id i : Nat) (e : Elem) (s : State) : getShadow (setShadow id i e s) id i = e := by
  unfold getShadow setShadow storeSet
  dsimp only
  split
  · next h => rw [lookup_erase_self, Option.getD_none, h]
  · rw [lookup_insert_self, Option.getD_some]

theorem settle_shadow (s : State) (id i : Nat) : getShadow (settle s) id i = getShadow s id i :=
  getShadow_congr (by rw [settle_dict]) (by rw [settle_pwr]) (by rw [settle_pwr]) id i

theorem settle_dirty (s : State) : (settle s).dict.dirty = s.dict.dirty := by rw [settle_dict]

section
variable {d : ObjDef} (hc : d.cls = .rwb) (i : Nat) (e : Elem) (s : State)
include hc

/-- An RWB element goes to the shadow, and its object is marked dirty (R90, R96). -/
theorem elemApply_rwb : elemApply d i e s =
    { setShadow d.id i e s with dict := { (setShadow d.id i e s).dict with
        dirty := if s.dict.dirty.contains d.id then s.dict.dirty else s.dict.dirty ++ [d.id] } } := by
  rw [elemApply, if_pos (by rw [hc]; rfl)]
  rfl

theorem elemApply_rwb_keeps : Keeps [.dict] [] s (elemApply d i e s) := by
  rw [elemApply_rwb hc]
  exact keeps_dict (by decide) rfl id (keeps_setShadow (by decide) (Keeps.refl ..))

theorem getShadow_elemApply_rwb : getShadow (elemApply d i e s) d.id i = e := by
  rw [elemApply_rwb hc]
  exact getShadow_setShadow_self d.id i e s

theorem mem_dirty_elemApply_rwb : d.id ∈ (elemApply d i e s).dict.dirty := by
  rw [elemApply_rwb hc]
  dsimp only
  split
  · next h => exact List.contains_iff_mem.mp h
  · exact List.mem_append_right _ List.mem_cons_self

end

/-- A shadow read of an object that has no shadow meets 0x07 and no other code (R90, R111). -/
theorem firstAbort_shadowRead {d : ObjDef} {s : State} (hc : d.cls ≠ .rwb) (hw : d.cls ≠ .wo) (hb : d.isBulk = false)
    (hn : 1 ≤ d.count) : firstAbort (plainAborts d false 0 1 ++ gateAborts d false true s) = 0x07 := by
  have hfits : ∀ x ∈ plainAborts d false 0 1, x = 0 := fun x hx => Classical.byContradiction fun hx0 => by
    obtain ⟨-, h, -⟩ | ⟨-, -, h⟩ | ⟨-, -, h⟩ | ⟨-, h⟩ := (mem_plainAborts_iff hx0).mp hx
    · exact absurd h (by decide)
    · exact hw h
    · exact h (by unfold PlainInRange; split <;> simp [hn])
    · simp [hb] at h
  have hgate : ∀ x ∈ gateAborts d false true s, x = 0 ∨ x = 0x07 := fun x hx =>
    gate_codes d false true s x (List.mem_cons_of_mem _ hx)
  have hseven : 0x07 ∈ gateAborts d false true s := by simp [gateAborts, whenCode, hc]
  refine firstAbort_eq (before := [0x09, 0x0A, 0x0D, 0x01, 0x02, 0x03, 0x04, 0x05, 0x0B, 0x08]) rfl
    (List.mem_append_right _ hseven) fun x hx hxl => ?_
  have hx' : x = 0 ∨ x = 0x07 := (List.mem_append.mp hxl).elim (fun h => .inl (hfits x h)) (hgate x)
  obtain rfl | rfl := hx' <;> exact absurd hx (by decide)

/-- Settles O17: the effect of an RWB write keeps all but the dictionary beside the values in force. -/
theorem writesOfRwbObjectsWriteTheShadowAlone : Obligations.WritesOfRwbObjectsWriteTheShadowAlone := by
  refine ⟨fun t slot obj i vals d e s hw hr hd hc he ha => ?_, fun t slot obj d s ha he hr hd hc hw hb hn => ?_⟩
  · obtain rfl := findObj_id hd
    have hk := elemApply_rwb_keeps hc i (maskElem d e)
    have hall : Keeps [.ev, .mem, .dict] [Obj.eventLost, Obj.flipCtrl] (advance t s)
        (elemApply d i (maskElem d e) (ramWrite d i (maskElem d e) (advance t s))) :=
      (hk _).step (by decide) (by decide) ((ramWrite_keeps ..).mono (by decide) (by decide))
    refine answers_afterWrite rfl hw (write_accepted hr hd he ha) (fun x => (hk x).code) ⟨?_, ?_, ?_, fun id k hid => ?_⟩
    · rw [settle_shadow]
      exact getShadow_elemApply_rwb hc ..
    · rw [settle_dirty]
      exact mem_dirty_elemApply_rwb hc ..
    · rw [settle_sent]
      exact congrArg (· ++ [Sent.reply 0 []]) (hall.areas .sent (by decide))
    · simp only [List.mem_cons, List.not_mem_nil, or_false, not_or] at hid
      obtain ⟨hlost, hmasked, hflip⟩ := hid
      rw [getE_settle (by simp [countersOfEvents, hlost, hmasked])]
      exact hall.objs (by decide) id (by simp [hlost, hflip]) k
  · exact refuses_of rfl rfl ha
      (read_refused (s := advance t s) hr hd (firstAbort_shadowRead hc hw hb hn) (by decide) (by decide) he)

end Sys2Proof.Machine
end

section
/-! PROOFS. The host port (R140 to R146): what a datagram meets, branch by branch, and what each command of the port sends,
counts or forgets. -/

namespace Sys2Proof.Machine

open Sys2Proof

/-! What is sent or raised last stands after READY has followed. -/

theorem sends_settle {xs : List Sent} {s x : State} (h : x.sent = s.sent ++ xs) : Sends xs s (settle x) := by
  rw [Sends, settle_sent, h]

/-- An event that the running firmware raises last is still there once READY has followed. -/
theorem raises_settle_raise {code : Nat} {ps : List Word} {s x : State} (hr : rdy x 25 = true) (hev : x.ev = s.ev) :
    Raises code ps s (settle (raise code ps x)) :=
  have hkept : ∃ new, x.ev.raised = s.ev.raised ++ new := ⟨[], by rw [hev, List.append_nil]⟩
  (raises_raise hr hkept).settled (by rw [rdy, raise_pwr]; exact hr)

/-! Datagrams (R142 to R146). -/

/-- The datagram, in progress or kept, that a source and a SEQ name (R146). -/
def knownDatagram (src : BitVec 32) (port : Nat) (h : Word) (s : State) : Option Datagram :=
  s.host.datagrams.find? (fun d => d.src == src && d.port == port && d.seq == fld h 15 0)

/-- Datagrams in progress (R145). -/
def inProgress (s : State) : Nat := (s.host.datagrams.filter (fun d => !d.done)).length

/-- A datagram has a new place among the 16 most recent ones, its replies still open (R145, R146). -/
def placeDatagram (src : BitVec 32) (port : Nat) (h : Word) (qs : List Req) (s : State) : State :=
  { s with host := { s.host with datagrams := keep16 (s.host.datagrams
      ++ [{ src := src, port := port, seq := fld h 15 0, replies := qs.map (fun _ => none), done := false }]) } }

theorem datagramWhole_of_records {ws : List Word} {s : State} {qs : List Req} (h : datagramRecords ws s = some qs) :
    datagramWhole ws = true := by
  cases hw : datagramWhole ws with
  | true => rfl
  | false => simp [datagramRecords, hw] at h

section
variable {src : BitVec 32} {port : Nat} {h : Word} {ws : List Word} {s : State}

theorem hostDatagramDo_damaged (hw : datagramWhole (h :: ws) = false) :
    hostDatagramDo src port (h :: ws) s = bareReply src port (fld h 15 0) 26 s := by
  unfold hostDatagramDo
  exact if_pos (by rw [hw]; rfl)

theorem hostDatagramDo_repeated {d : Datagram} (hw : datagramWhole (h :: ws) = true)
    (hd : knownDatagram src port h s = some d) :
    hostDatagramDo src port (h :: ws) s = if d.done then
      sendDatagram src port (replyHeader (fld h 15 0) d.replies.length [25]) ((d.replies.map (fun r => r.getD [])).flatten) s
      else s := by
  unfold hostDatagramDo
  unfold knownDatagram at hd
  dsimp only
  rw [if_neg (by rw [hw]; decide), hd]

theorem hostDatagramDo_unparsed (hr : datagramRecords (h :: ws) s = none) (hd : knownDatagram src port h s = none) :
    hostDatagramDo src port (h :: ws) s = bareReply src port (fld h 15 0) 26 s := by
  cases hw : datagramWhole (h :: ws) with
  | false => exact hostDatagramDo_damaged hw
  | true =>
    unfold hostDatagramDo
    unfold knownDatagram at hd
    dsimp only
    rw [if_neg (by rw [hw]; decide), hd]
    dsimp only
    rw [hr]

theorem hostDatagramDo_parsed {qs : List Req} (hr : datagramRecords (h :: ws) s = some qs)
    (hd : knownDatagram src port h s = none) :
    hostDatagramDo src port (h :: ws) s = if 8 ≤ inProgress s then bareReply src port (fld h 15 0) 24 s
      else runRecords src port (fld h 15 0) 0 0 qs (placeDatagram src port h qs s) := by
  unfold hostDatagramDo
  unfold knownDatagram at hd
  dsimp only
  rw [if_neg (by rw [datagramWhole_of_records hr]; decide), hd]
  dsimp only
  rw [hr]
  rfl

end

/-- The words of a datagram of header and records, with its CRC (R142). -/
def datagramWords (header : Word) (recs : List Word) : List Word := header :: recs ++ [wd (crc32 (header :: recs))]

theorem sendDatagram_sent (dst : BitVec 32) (port : Nat) (header : Word) (recs : List Word) (s : State) :
    (sendDatagram dst port header recs s).sent
      = s.sent ++ [.datagram dst port (datagramWords header recs) (replyCheck dst port (datagramWords header recs) s)] := rfl

section
variable {t : Nat} {s : State}

/-- A datagram passes its crossing on a port that works (R36, R145). -/
theorem answers_hostDatagram {src : BitVec 32} {port : Nat} {ws : List Word} {P : State → Prop} (ha : awake s = true)
    (hw : hostWorks s = true) (hp : P (settle (hostDatagramDo src port ws (xingQueue 11 1 (advance t s))))) :
    Answers (.hostDatagram t src port ws) s P := by
  refine answers_happen rfl ha ?_
  have hw' : hostWorks (advance t s) = true := hw
  rw [if_pos hw']
  exact hp

/-- A datagram that is answered with a header alone: no records, one flag (R145). -/
theorem answers_bareReply {src : BitVec 32} {port : Nat} {h : Word} {ws : List Word} {flag : Nat} (ha : awake s = true)
    (hw : hostWorks s = true) (hb : hostDatagramDo src port (h :: ws) (xingQueue 11 1 (advance t s))
      = bareReply src port (fld h 15 0) flag (xingQueue 11 1 (advance t s))) :
    Answers (.hostDatagram t src port (h :: ws)) s
      (Sends [.datagram src port (datagramWords (replyHeader (fld h 15 0) 0 [flag]) [])
        (replyCheck src port (datagramWords (replyHeader (fld h 15 0) 0 [flag]) []) s)] s) := by
  refine answers_hostDatagram ha hw (sends_settle ?_)
  rw [hb]
  exact sendDatagram_sent ..

/-- Frames are counted where they are discarded (R140). -/
theorem hostFrame_counts {f : HostFrame} (ha : awake s = true) (hw : hostWorks s = true) :
    Answers (.hostFrame t f) s (fun u => getN u Obj.hostDiscards 0
      = if frameAccepted f s then getN s Obj.hostDiscards 0 else satN 36 (getN s Obj.hostDiscards 0 + 1)) := by
  refine answers_happen rfl ha ?_
  have hw' : hostWorks (advance t s) = true := hw
  have hf : frameAccepted f (advance t s) = frameAccepted f s := rfl
  rw [getN_congr (getE_settle (by decide) _ _), hw', hf]
  cases frameAccepted f s with
  | true => rfl
  | false => exact (getN_bump_self ..).trans (satN_eq_min ..).symm

/-- What asks for HOST_IP finds the port at work, whatever time has passed (R141). -/
theorem addressed_here (hw : hostWorks s = true) : (hostWorks (advance t s) && hostIp s == hostIp (advance t s)) = true :=
  Bool.and_eq_true_iff.mpr ⟨hw, beq_self_eq_true _⟩

theorem answers_arpRequest {sender : BitVec 32} {mac : BitVec 48} (ha : awake s = true) (hw : hostWorks s = true) :
    Answers (.arpRequest t (hostIp s) sender mac) s (Sends [.arp sender (hostMacOf s)] s) := by
  refine answers_happen rfl ha (sends_settle ?_)
  rw [if_pos (addressed_here hw)]
  rfl

theorem answers_icmpEcho {sender : BitVec 32} {payload : List Byte} (ha : awake s = true) (hw : hostWorks s = true) :
    Answers (.icmpEcho t (hostIp s) sender payload) s (Sends [.echo sender payload] s) := by
  refine answers_happen rfl ha (sends_settle ?_)
  rw [if_pos (addressed_here hw)]
  rfl

/-- A repeated datagram has its kept reply again, or waits for the reply under way (R146). -/
theorem answers_repeated {src : BitVec 32} {port : Nat} {h : Word} {ws : List Word} {d : Datagram} (ha : awake s = true)
    (hw : hostWorks s = true) (hwhole : datagramWhole (h :: ws) = true) (hd : knownDatagram src port h s = some d) :
    Answers (.hostDatagram t src port (h :: ws)) s (fun u =>
      let again := datagramWords (replyHeader (fld h 15 0) d.replies.length [25]) ((d.replies.map (fun r => r.getD [])).flatten)
      Sends (if d.done then [.datagram src port again (replyCheck src port again s)] else []) s u) := by
  refine answers_hostDatagram ha hw (sends_settle ?_)
  rw [hostDatagramDo_repeated (s := xingQueue 11 1 (advance t s)) hwhole hd]
  cases d.done with
  | true => exact sendDatagram_sent ..
  | false => exact (List.append_nil _).symm

theorem exec_replyCacheExpire (t : Nat) (src : BitVec 32) (port seq : Nat) (s : State) :
    exec (.replyCacheExpire t src port seq) s = execReplyCacheExpire t src port seq s := by rfl

/-- The port once its link is down: nothing is known of a partner (R140). -/
def linkGone (s : State) : State :=
  { s with host := { s.host with
      linkUp := false, anComplete := false, partnerFd := false, partnerHd := false, remoteFault := false } }

/-- The port's link goes down, and a Master raises an event (R140). -/
def linkDownDo (s : State) : State :=
  if role s = 1 then raise 0x02007 [hostStateWord (linkGone s)] (linkGone s) else linkGone s

theorem linkDownDo_host (s : State) : (linkDownDo s).host = (linkGone s).host := by
  rw [linkDownDo]
  split
  · exact raise_host ..
  · rfl

theorem hostStateWord_congr {s u : State} (h : u.host = s.host) : hostStateWord u = hostStateWord s := by
  rw [hostStateWord, hostStateWord, h]

theorem exec_hostLinkDown (t : Nat) (s : State) :
    exec (.hostLinkDown t) s = happen t (fun s => if !s.host.linkUp then s else linkDownDo s) s := by rfl

theorem replyCacheExpire_forgets {src : BitVec 32} {port seq : Nat} (ha : awake s = true) :
    Answers (.replyCacheExpire t src port seq) s (fun u => ∀ d ∈ s.host.datagrams,
      (d ∈ u.host.datagrams ↔ ¬(d.done = true ∧ d.src = src ∧ d.port = port ∧ d.seq = seq))) := by
  refine answers_happen (exec_replyCacheExpire ..) ha fun d hd => ?_
  rw [settle_host, List.mem_filter]
  simp only [advance_host, hd, true_and, Bool.not_eq_true', ← Bool.not_eq_true, Bool.and_eq_true, beq_iff_eq, and_assoc]

/-- What the port knows of a link partner is gone with the link (R140, R147). -/
theorem hostLinkDown_clears (ha : awake s = true) (hup : s.host.linkUp = true) :
    Answers (.hostLinkDown t) s (fun u => u.host.linkUp = false ∧ u.host.anComplete = false
      ∧ (role s = 1 → rdy s 25 = true → Raises 0x02007 [hostStateWord u] s u)) := by
  refine answers_happen (exec_hostLinkDown ..) ha ?_
  have hdown : ¬ (!(advance t s).host.linkUp) = true := by simp [hup]
  rw [if_neg hdown]
  have hhost : (settle (linkDownDo (advance t s))).host = (linkGone (advance t s)).host := by
    rw [settle_host, linkDownDo_host]
  refine ⟨by rw [hhost]; rfl, by rw [hhost]; rfl, fun hm hr => ?_⟩
  have hmaster : role (advance t s) = 1 := hm
  rw [hostStateWord_congr hhost, linkDownDo, if_pos hmaster]
  exact raises_settle_raise hr rfl

end

/-- Settles O27: each command of the port is one of the lemmas above, and a datagram meets one branch of its meaning. -/
theorem theHostPortAnswers : Obligations.TheHostPortAnswers := by
  refine ⟨fun _ _ _ => hostFrame_counts, fun _ _ _ _ => answers_arpRequest, fun _ _ _ _ => answers_icmpEcho,
    fun t src port h ws s ha hw hbad => answers_bareReply ha hw ?_, fun _ _ _ _ _ _ _ => answers_repeated,
    fun t src port h ws qs s ha hw hr hd hfull => answers_bareReply ha hw ?_,
    fun t src port h ws qs s ha hw hr hd hroom => answers_hostDatagram ha hw ?_, fun _ _ _ _ _ => replyCacheExpire_forgets,
    fun _ _ => hostLinkDown_clears⟩
  · obtain hdamaged | ⟨hr, hd⟩ := hbad
    · exact hostDatagramDo_damaged hdamaged
    · exact hostDatagramDo_unparsed (s := xingQueue 11 1 (advance t s)) hr hd
  · exact (hostDatagramDo_parsed (s := xingQueue 11 1 (advance t s)) hr hd).trans (if_pos hfull)
  · exact congrArg settle ((hostDatagramDo_parsed (s := xingQueue 11 1 (advance t s)) hr hd).trans (if_neg (Nat.not_le.mpr hroom)))

end Sys2Proof.Machine
end

section
/-! PROOFS. The Budar ring (R124 to R139): what leaves the Master at a cycle start, what it takes from a copy that is back,
and what it raises for one that is not. -/

namespace Sys2Proof.Machine

open Sys2Proof

/-! The meanings that the commands name. -/

theorem exec_copyReturn (t : Nat) (c : CopyIn) (s : State) : exec (.copyReturn t c) s = execCopyReturn t c s := by rfl
theorem exec_copyReturnTimeout (t : Nat) (copyB : Bool) (s : State) :
    exec (.copyReturnTimeout t copyB) s = execCopyReturnTimeout t copyB s := by rfl
theorem exec_ringRestore (t : Nat) (s : State) : exec (.ringRestore t) s = execRingRestore t s := by rfl
theorem exec_slotMissing (t : Nat) (slot : Slot) (s : State) : exec (.slotMissing t slot) s = execSlotMissing t slot s := by rfl
theorem exec_ringLost (t : Nat) (s : State) : exec (.ringLost t) s = execRingLost t s := by rfl

/-! The mailbox of a cycle fills its 768 words (R125, R130). -/

theorem blankSeg_length (kind dest len tag : Nat) : (blankSeg kind dest len tag).length = len + 1 := by simp [blankSeg]

/-- What is left over is EMPTY, or zero where it cannot hold a header and a word (R130). -/
theorem leftOver_length (room : Nat) :
    (if room < 2 then List.replicate room (0 : Word) else blankSeg 0 0 (room - 1) 0).length = room := by
  split
  · exact List.length_replicate
  · rw [blankSeg_length]
    omega

theorem layOut_length (room : Nat) (xs : List (RingAccess × Bool)) : (layOut room xs).1.length = room := by
  induction xs generalizing room with
  | nil => exact leftOver_length room
  | cons x rest ih =>
    rw [layOut]
    dsimp only
    split
    · rw [List.length_append, ih]
      omega
    · exact leftOver_length room

/-! A cycle start (R124, R125). -/

/-- The next cycle has begun at the Master, its map the one that may be carried from it on (R124, R135). -/
def cycleBegun (s : State) : State :=
  mapFollow (modRing (fun r => { r with cycle := (r.cycle + 1) % 2 ^ 24, startTick := s.clock.tick }) s)

/-- The mailbox of the cycle begun, and the state that has sent it: an empty one after UNWRAP (R130, R138). -/
def cycleBox (s : State) : List Word × State :=
  if unwrapNext s.ring.cycle s then (blankSeg 0 0 767 0, s) else mailboxOf s.ring.cycle s

theorem cycleBox_length (s : State) : (cycleBox s).1.length = 768 := by
  rw [cycleBox]
  split
  · exact blankSeg_length ..
  · exact layOut_length ..

theorem cycleStartDo_master {s : State} (hm : role s = 1) (hb : s.pwr.bypassOpen = true) (hr : rdy s 4 = true) :
    cycleStartDo s = cycleOut .rngB true (cycleBox (cycleBegun s)).1
      (cycleOut .rngA false (cycleBox (cycleBegun s)).1 (cycleBox (cycleBegun s)).2) := by
  rw [cycleStartDo, if_neg (by simp [hm, hb, hr])]
  rfl

theorem cycleBegun_keeps (s : State) : Keeps [.ev, .ring] [Obj.eventLost] s (cycleBegun s) :=
  (mapFollow_keeps _).step (by decide) (by decide) ((modRing_keeps ..).mono (by decide) (by decide))

theorem cycleBox_keeps (s : State) : Keeps [.ring] [] s (cycleBox s).2 := by
  rw [cycleBox]
  split
  · exact Keeps.refl ..
  · exact mailboxOf_keeps ..

/-- The cycle, and the ticks of the wake runs: of the ring's state, what a map or a mailbox leaves alone. -/
def timing (r : Ring) : Nat × Option Nat × Option Nat := (r.cycle, r.runA, r.runB)

theorem mapFollow_timing (s : State) : timing (mapFollow s).ring = timing s.ring := by
  unfold mapFollow
  dsimp only
  split
  · rfl
  · split
    · rfl
    · rw [raise_ring]
      rfl

theorem cycleBox_timing (s : State) : timing (cycleBox s).2.ring = timing s.ring := by
  rw [cycleBox]
  split <;> rfl

theorem cycleBegun_timing (s : State) :
    timing (cycleBegun s).ring = ((s.ring.cycle + 1) % 2 ^ 24, s.ring.runA, s.ring.runB) := mapFollow_timing _

theorem Keeps.laneUp_eq {T : List Area} {O : List Nat} {s u : State} (h : Keeps T O s u) (i : Nat)
    (hT : .pwr ∉ T ∧ .up ∉ T ∧ .lanes ∉ T ∧ .values ∉ T := by decide)
    (hO : Obj.laneCfg ∉ O ∧ Obj.funcReset ∉ O ∧ Obj.laneTest ∉ O := by decide) : laneUp u i = laneUp s i := by
  obtain ⟨hpwr, hup, hlanes, hvalues⟩ := hT
  obtain ⟨hcfg, hreset, htest⟩ := hO
  have hp : u.pwr = { s.pwr with ready := u.pwr.ready } := h.pwr_eq hpwr hup
  have hl : u.lanes = s.lanes := h.areas .lanes hlanes
  have hw : ∀ id, id ∉ O → ∀ k, getW u id k = getW s id k := fun id hid k => getW_congr (h.objs hvalues id hid k)
  simp only [laneUp, laneServes, laneWorks, laneEnabled, lanePrbs, laneLoop, hasHost, role, laneU, hw _ hcfg, hw _ hreset,
    hw _ htest, hl]
  rw [hp]

/-! A copy at a port of the Master (R58, R124, R125). -/

/-- The copy that leaves a port in service and in lock, cut short by a wake run that it meets: with the words of state u, at
the port as it is in state s. -/
def copyAt (p : RingPort) (copyB : Bool) (box : List Word) (u s : State) : List Sent :=
  if laneUp s (portLane p) then [.ringCopy p (cycleFrame (cycleWords copyB box u)) (!(cutByRun p u.clock.tick s))] else []

/-- What decides whether a copy leaves a port, and whether it leaves whole, is the same in two states. -/
structure SamePorts (s u : State) : Prop where
  up : ∀ i, laneUp u i = laneUp s i
  cut : ∀ p start, cutByRun p start u = cutByRun p start s
  tick : u.clock.tick = s.clock.tick

theorem SamePorts.of_keeps {s u : State} (h : Keeps [.ev, .ring, .sent] [Obj.eventLost] s u)
    (hA : u.ring.runA = s.ring.runA) (hB : u.ring.runB = s.ring.runB) : SamePorts s u where
  up := h.laneUp_eq
  cut p start := by
    cases p
    case rngA => rw [cutByRun, hA]; rfl
    case rngB => rw [cutByRun, hB]; rfl
  tick := h.tick

theorem SamePorts.copyAt_eq {s s' u u' : State} {copyB : Bool} {box : List Word} (h : SamePorts s s')
    (hw : cycleWords copyB box u' = cycleWords copyB box u) (ht : u'.clock.tick = u.clock.tick) (p : RingPort) :
    copyAt p copyB box u' s' = copyAt p copyB box u s := by
  rw [copyAt, h.up, hw, ht, h.cut]
  rfl

section
variable (p : RingPort) (copyB : Bool) (box : List Word) (s : State)

theorem cycleOut_sent : (cycleOut p copyB box s).sent = s.sent ++ copyAt p copyB box s s := by
  rw [cycleOut, copyAt]
  cases hup : laneUp s (portLane p) with
  | false => exact (List.append_nil _).symm
  | true =>
    have hserves : laneServes s (portLane p) = true := (Bool.and_eq_true_iff.mp hup).1
    rw [whenB_true, copyOut, if_neg (by simp [hserves])]
    rfl

/-- A copy that leaves writes the tick of its port, and nothing else of the ring. -/
theorem cycleOut_ring : ∃ a b, (cycleOut p copyB box s).ring = { s.ring with outA := a, outB := b } := by
  rw [cycleOut]
  cases laneUp s (portLane p) with
  | false => exact ⟨_, _, rfl⟩
  | true =>
    rw [whenB_true, copyOut]
    split
    · exact ⟨_, _, rfl⟩
    · cases p <;> exact ⟨_, _, rfl⟩

theorem cycleOut_timing : timing (cycleOut p copyB box s).ring = timing s.ring := by
  obtain ⟨a, b, hring⟩ := cycleOut_ring p copyB box s
  rw [hring]
  rfl

theorem cycleOut_samePorts : SamePorts s (cycleOut p copyB box s) := by
  obtain ⟨a, b, hring⟩ := cycleOut_ring p copyB box s
  exact .of_keeps ((cycleOut_keeps p copyB box s).mono (by decide) (by decide)) (by rw [hring]) (by rw [hring])

end

theorem cycleWords_congr {s u : State} {a b : Option Nat} (hr : u.ring = { s.ring with outA := a, outB := b })
    (hc : u.clock = s.clock) (hd : getE u Obj.ringDelay 2 = getE s Obj.ringDelay 2) (copyB : Bool) (box : List Word) :
    cycleWords copyB box u = cycleWords copyB box s := by
  simp only [cycleWords, time72, linkPs, getS, getN_congr hd, hr, hc]

theorem cycleWords_cycleOut (p : RingPort) (c : Bool) (b : List Word) (s : State) (copyB : Bool) (box : List Word) :
    cycleWords copyB box (cycleOut p c b s) = cycleWords copyB box s := by
  obtain ⟨_, _, hring⟩ := cycleOut_ring p c b s
  have hk := cycleOut_keeps p c b s
  exact cycleWords_congr hring (hk.areas .clock (by decide)) (hk.objs (by decide) _ (by decide) 2) copyB box

theorem cycleWords_settle (s : State) (copyB : Bool) (box : List Word) :
    cycleWords copyB box (settle s) = cycleWords copyB box s :=
  cycleWords_congr (settle_ring s) (settle_clock s) (getE_settle (by decide) s 2) copyB box

theorem SamePorts.trans {s t u : State} (h : SamePorts s t) (k : SamePorts t u) : SamePorts s u where
  up i := (k.up i).trans (h.up i)
  cut p start := (k.cut p start).trans (h.cut p start)
  tick := k.tick.trans h.tick

/-- Once a cycle has begun in state y, its two copies leave their ports, copy A first. -/
theorem copies_leave {x y z u : State} (box : List Word) (hk : Keeps [.ev, .ring] [Obj.eventLost] x y)
    (hrun : (timing y.ring).2 = (x.ring.runA, x.ring.runB)) (hz : z = cycleOut .rngA false box y)
    (hu : u = settle (cycleOut .rngB true box z)) :
    u.ring.cycle = y.ring.cycle ∧ Sends (copyAt .rngA false box u x ++ copyAt .rngB true box u x) x u := by
  obtain ⟨hA, hB⟩ := Prod.mk.inj hrun
  have hxy : SamePorts x y := .of_keeps (hk.mono (by decide) (by decide)) hA hB
  have hxz : SamePorts x z := hz ▸ hxy.trans (cycleOut_samePorts ..)
  have hcycle : u.ring.cycle = y.ring.cycle := by
    rw [hu, settle_ring, hz]
    exact congrArg Prod.fst ((cycleOut_timing ..).trans (cycleOut_timing ..))
  have hzu : ∀ c, cycleWords c box z = cycleWords c box u := fun c => by
    rw [hu, cycleWords_settle, cycleWords_cycleOut]
  have hyu : ∀ c, cycleWords c box y = cycleWords c box u := fun c => by
    rw [← hzu, hz, cycleWords_cycleOut]
  have htick : u.clock.tick = z.clock.tick := by
    rw [hu, settle_clock]
    exact (cycleOut_samePorts ..).tick
  have hfirst : copyAt .rngA false box y y = copyAt .rngA false box u x :=
    hxy.copyAt_eq (hyu false) (by rw [htick, hxy.tick, hxz.tick]) .rngA
  have hsecond : copyAt .rngB true box z z = copyAt .rngB true box u x := hxz.copyAt_eq (hzu true) htick.symm .rngB
  have hsent : y.sent = x.sent := hk.areas .sent (by decide)
  have hu' : u.sent = (cycleOut .rngB true box z).sent := by rw [hu, settle_sent]
  refine ⟨hcycle, ?_⟩
  rw [Sends, hu', cycleOut_sent, hsecond, hz, cycleOut_sent, hfirst, hsent, List.append_assoc]

/-- A cycle start at the Master (R124, R125). -/
theorem cycleStart_sends {t : Nat} {s : State} (ha : awake s = true) (hm : role s = 1) (hb : s.pwr.bypassOpen = true)
    (hr : rdy s 4 = true) : Answers (.cycleStart t) s (fun u => u.ring.cycle = (s.ring.cycle + 1) % 2 ^ 24
      ∧ ∃ box, box.length = 768 ∧ Sends (copyAt .rngA false box u s ++ copyAt .rngB true box u s) s u) := by
  refine answers_happen rfl ha ?_
  rw [cycleStartDo_master (s := advance t s) hm hb hr]
  have hkeeps := (cycleBox_keeps _).step (by decide) (by decide) (cycleBegun_keeps (advance t s))
  have htiming := (cycleBox_timing _).trans (cycleBegun_timing (advance t s))
  obtain ⟨hcycle, hsends⟩ := copies_leave _ hkeeps (congrArg Prod.snd htiming) rfl rfl
  exact ⟨hcycle.trans (congrArg Prod.fst htiming), _, cycleBox_length _, hsends⟩

/-! A copy at the Master (R135, R487). -/

/-- A copy passes its crossing on a Master whose bypass is open (R36, R135). -/
theorem answers_copyReturn {t : Nat} {c : CopyIn} {s : State} {P : State → Prop} (ha : awake s = true) (hm : role s = 1)
    (hb : s.pwr.bypassOpen = true) (hp : P (settle (masterCopy c (xingQueue 10 1 (advance t s))))) :
    Answers (.copyReturn t c) s P := by
  refine answers_happen (exec_copyReturn ..) ha ?_
  have hmaster : role (advance t s) = 1 ∧ (advance t s).pwr.bypassOpen = true := ⟨hm, hb⟩
  rw [if_pos hmaster]
  exact hp

section
variable {c : CopyIn} {s : State}

theorem masterCopy_back (hi : copyIntact c = true) (ho : ownCopy c s = true)
    (hage : cycleAge (copyCycle c.words) s ≤ 62500) : masterCopy c s = copyBack c s := by
  have hcyc : cycleWithin 2 s.ring.cycle (copyCycle c.words) = true := (Bool.and_eq_true_iff.mp ho).1
  simp [masterCopy, hi, ho, hcyc, hage]

theorem masterCopy_damaged (hi : copyIntact c = false) (hcyc : cycleWithin 2 s.ring.cycle (copyCycle c.words) = true) :
    masterCopy c s = copyLost c.copyB (copyCycle c.words) s := by
  simp [masterCopy, hi, hcyc]

end

/-- A copy judged for the first time, no restoration under way, is an event (R135). -/
theorem copyLost_raises {copyB : Bool} {cyc : Nat} {s : State} (hback : s.ring.back.contains (copyB, cyc) = false)
    (hunwrap : s.ring.unwrapAt = none) :
    copyLost copyB cyc s = raise 0x02001 [wd (b2n copyB), wd cyc] (resend cyc copyB [] (copyJudged copyB cyc s)) := by
  have hnext : unwrapNext cyc (resend cyc copyB [] (copyJudged copyB cyc s)) = false := by
    have hsame : (resend cyc copyB [] (copyJudged copyB cyc s)).ring.unwrapAt = none := hunwrap
    rw [unwrapNext, hsame]
  rw [copyLost, if_neg (by rw [hback]; decide)]
  dsimp only
  rw [hnext]
  rfl

/-- What the Master hears from its copies: the ring's state, and the slots present in the last intact copy A and copy B. -/
def heard (r : Ring) : Nat × BitVec 64 × BitVec 64 := (r.ringState, r.presentA, r.presentB)

theorem joinCheck_heard (ws : List Word) (s : State) : heard (joinCheck ws s).ring = heard s.ring := by
  unfold joinCheck
  refine forEach_keeps (fun s => heard s.ring) _ (fun k s => ?_) _ s
  dsimp only
  split
  · rfl
  · split
    · rfl
    · rw [raise_ring]
      rfl

theorem mapBuild_heard (s : State) : heard (mapBuild s).ring = heard s.ring := by
  unfold mapBuild
  dsimp only
  split <;> rfl

theorem unslottedCheck_heard (ws : List Word) (s : State) : heard (unslottedCheck ws s).ring = heard s.ring := by
  unfold unslottedCheck
  dsimp only
  split
  · rw [raise_ring]
    rfl
  · rfl

theorem restoredCheck_heard (cyc : Nat) (copyB : Bool) (s : State) :
    heard (restoredCheck cyc copyB s).ring = heard s.ring := by
  unfold restoredCheck
  extract_lets x
  have hx : heard x.ring = heard s.ring := by
    cases copyB <;> rfl
  clear_value x
  split
  · rw [raise_ring]
    exact hx
  · exact hx

theorem masterTime_ring (c : CopyIn) (s : State) : (masterTime c s).ring = s.ring :=
  (masterTime_keeps c s).areas .ring (by decide)

theorem copyBack_heard {c : CopyIn} {s : State} (hw : copyWrapped c.words = false) (hf : s.ring.foreign = none) :
    heard (copyBack c s).ring = (1, if c.copyB then s.ring.presentA else presentIn c.words,
      if c.copyB then presentIn c.words else s.ring.presentB) := by
  unfold copyBack
  extract_lets ws cyc wrapped here foreignNow s1 s2 s3 s4 s5
  have h1 : heard s1.ring = (1, if c.copyB then s.ring.presentA else here, if c.copyB then here else s.ring.presentB) := by
    simp [s1, foreignNow, wrapped, heard, modRing, hf, ws, hw]
  have h2 : heard s2.ring = heard s1.ring := rfl
  have h3 : heard s3.ring = heard s2.ring := joinCheck_heard ..
  have h4 : heard s4.ring = heard s3.ring := by
    unfold s4
    split
    · rfl
    · exact mapBuild_heard ..
  have h5 : heard s5.ring = heard s4.ring := by
    unfold s5
    split
    · rfl
    · exact unslottedCheck_heard ..
  have hlast : heard (restoredCheck cyc c.copyB (masterTime c s5)).ring = heard s5.ring := by
    rw [restoredCheck_heard, masterTime_ring]
  rw [if_neg (by simp [wrapped, ws, hw]), hlast, h5, h4, h3, h2, h1]

/-! The commands. -/

section
variable {t : Nat} {s : State}

/-- An intact copy of this Master, in time, not turned back, no other Master heard (R135, R139, R487). -/
theorem copyReturn_hears {c : CopyIn} (ha : awake s = true) (hm : role s = 1) (hb : s.pwr.bypassOpen = true)
    (hi : copyIntact c = true) (ho : ownCopy c s = true) (hage : cycleAge (copyCycle c.words) (advance t s) ≤ 62500)
    (hw : copyWrapped c.words = false) (hf : s.ring.foreign = none) : Answers (.copyReturn t c) s (fun u =>
      u.ring.ringState = 1 ∧ (if c.copyB then u.ring.presentB else u.ring.presentA) = presentIn c.words) := by
  refine answers_copyReturn ha hm hb ?_
  rw [masterCopy_back (s := xingQueue 10 1 (advance t s)) hi ho hage, settle_ring]
  have hheard := copyBack_heard (s := xingQueue 10 1 (advance t s)) hw hf
  obtain ⟨hstate, hpresent⟩ := Prod.mk.inj hheard
  obtain ⟨hA, hB⟩ := Prod.mk.inj hpresent
  refine ⟨hstate, ?_⟩
  cases hc : c.copyB with
  | false => exact hA.trans (by rw [hc]; rfl)
  | true => exact hB.trans (by rw [hc]; rfl)

/-- A copy that is not intact (R135). -/
theorem copyReturn_raises {c : CopyIn} (ha : awake s = true) (hm : role s = 1) (hb : s.pwr.bypassOpen = true)
    (hi : copyIntact c = false) (hcyc : cycleWithin 2 s.ring.cycle (copyCycle c.words) = true)
    (hback : s.ring.back.contains (c.copyB, copyCycle c.words) = false) (hunwrap : s.ring.unwrapAt = none)
    (hr : rdy s 25 = true) :
    Answers (.copyReturn t c) s (Raises 0x02001 [wd (b2n c.copyB), wd (copyCycle c.words)] s) := by
  refine answers_copyReturn ha hm hb ?_
  rw [masterCopy_damaged (s := xingQueue 10 1 (advance t s)) hi hcyc,
    copyLost_raises (s := xingQueue 10 1 (advance t s)) hback hunwrap]
  exact raises_settle_raise hr rfl

/-- The cycle that started 62,500 ticks ago is the one k cycles back where cycles start 31,250 ticks apart. -/
theorem cycles_back {tick start k : Nat} (hk : k ≤ 2) (h : tick + 31250 * k = start + 62500) :
    ceilDiv (62500 - (tick - start)) 31250 = k := by
  unfold ceilDiv
  omega

/-- A copy that is not back in time (R135). -/
theorem copyReturnTimeout_raises {copyB : Bool} {k : Nat} (ha : awake s = true) (hm : role s = 1) (hk : k ≤ 2)
    (htick : max s.clock.tick t + 31250 * k = s.ring.startTick + 62500)
    (hback : s.ring.back.contains (copyB, (s.ring.cycle + 2 ^ 24 - k) % 2 ^ 24) = false) (hunwrap : s.ring.unwrapAt = none)
    (hr : rdy s 25 = true) : Answers (.copyReturnTimeout t copyB) s
      (Raises 0x02001 [wd (b2n copyB), wd ((s.ring.cycle + 2 ^ 24 - k) % 2 ^ 24)] s) := by
  refine answers_happen (exec_copyReturnTimeout ..) ha ?_
  have hmaster : ¬ role (advance t s) ≠ 1 := not_not_intro hm
  have hage : ceilDiv (62500 - ((advance t s).clock.tick - (advance t s).ring.startTick)) 31250 = k :=
    cycles_back hk (by rw [advance_tick]; exact htick)
  rw [if_neg hmaster]
  dsimp only
  rw [hage, advance_ring, copyLost_raises (s := advance t s) hback hunwrap]
  exact raises_settle_raise hr rfl

theorem ringRestore_plans (ha : awake s = true) (hm : role s = 1) (hl : wrappersLocked s = true) :
    Answers (.ringRestore t) s (fun u => u.ring.unwrapAt = some ((s.ring.cycle + 1) % 2 ^ 24)) := by
  refine answers_happen (exec_ringRestore ..) ha ?_
  have hready : role (advance t s) = 1 ∧ wrappersLocked (advance t s) = true := ⟨hm, hl⟩
  rw [if_pos hready, settle_ring]
  rfl

theorem slotMissing_bypasses {slot : Slot} (ha : awake s = true) (hm : role s = 1)
    (hj : nbit s.ring.joined.toNat slot.val = true) (hby : nbit s.ring.bypassed.toNat slot.val = false)
    (hr : rdy s 25 = true) : Answers (.slotMissing t slot) s (fun u =>
      u.ring.bypassed = s.ring.bypassed ||| BitVec.ofNat 64 (2 ^ slot.val) ∧ Raises 0x02005 [wd slot.val] s u) := by
  refine answers_happen (exec_slotMissing ..) ha ?_
  have hseen : ¬ (role (advance t s) ≠ 1 ∨ (!nbit (advance t s).ring.joined.toNat slot.val) = true
      ∨ nbit (advance t s).ring.bypassed.toNat slot.val = true) := by
    have hm' : role (advance t s) = 1 := hm
    simp [hm', hj, hby]
  rw [if_neg hseen]
  exact ⟨by rw [settle_ring, raise_ring]; rfl, raises_settle_raise hr rfl⟩

/-- The entry to holdover is an event (R151). -/
theorem syncEnter_holdover (s : State) :
    ∃ x ps, syncEnter 3 s = raise 0x03002 ps x ∧ x.pwr = s.pwr ∧ x.ev = s.ev := ⟨_, _, rfl, rfl, rfl⟩

/-- A lost source leaves the power state and the events raised before (R151). -/
theorem enterHoldover_raised (s : State) :
    (enterHoldover s).pwr = s.pwr ∧ s.ev.raised <+: (enterHoldover s).ev.raised := by
  unfold enterHoldover
  dsimp only
  split
  · obtain ⟨x, ps, henter, hpwr, hev⟩ := syncEnter_holdover s
    rw [henter, ← hpwr, ← hev]
    exact ⟨raise_pwr .., raise_raised ..⟩
  · exact ⟨rfl, List.prefix_rfl⟩

/-- A Member that has lost the ring (R139, R160). -/
theorem ringLost_raises (ha : awake s = true) (hm : role s = 2) (hr : rdy s 25 = true) : Answers (.ringLost t) s (fun u =>
    u.ring.ringState = 0 ∧ Raises 0x02001 [wd 2, wd s.ring.cycle] s u) := by
  refine answers_happen (exec_ringLost ..) ha ?_
  have hmember : ¬ role (advance t s) ≠ 2 := not_not_intro hm
  rw [if_neg hmember]
  generalize hx : raise 0x02001 _ _ = x
  have hring : x.ring.ringState = 0 := by rw [← hx, raise_ring]; rfl
  have hready : rdy x 25 = true := by rw [rdy, ← hx, raise_pwr]; exact hr
  have hraised : Raises 0x02001 [wd 2, wd s.ring.cycle] s x := hx ▸ raises_raise hr ⟨[], (List.append_nil _).symm⟩
  obtain ⟨hpwr, hevents⟩ := enterHoldover_raised x
  refine ⟨?_, (hraised.mono hevents).settled (by rw [rdy, hpwr]; exact hready)⟩
  have hkept : (enterHoldover x).ring = x.ring := (enterHoldover_keeps x).areas .ring (by decide)
  rw [settle_ring, hkept, hring]

theorem slotReclaim_claims (ha : awake s = true) : Answers (.slotReclaim t) s (fun u => u.ring.slotless = false) := by
  refine answers_happen rfl ha ?_
  rw [settle_ring]
  rfl

end

/-- Settles O25: one lemma for each command. -/
theorem ringCyclesCopiesAndMembersAreCarriedOut : Obligations.RingCyclesCopiesAndMembersAreCarriedOut :=
  ⟨fun _ _ => cycleStart_sends, fun _ _ _ => copyReturn_hears, fun _ _ _ => copyReturn_raises,
    fun _ _ _ _ => copyReturnTimeout_raises, fun _ _ => ringRestore_plans, fun _ _ _ => slotMissing_bypasses,
    fun _ _ => ringLost_raises, fun _ _ => slotReclaim_claims⟩

end Sys2Proof.Machine
end

section
/-! PROOFS. The passage of time (R148, R149): a tick on an empty queue, and the tick count after a command. -/

namespace Sys2Proof.Machine

open Sys2Proof

theorem step_of_empty {s : State} (h : s.pending = []) : step s = .next (settle (advance (s.clock.tick + 1) s)) := by
  rw [step, h]
  rfl

/-- One tick on, TIME72 gains one RATE_ADDEND where the Timebase is ready (R149). -/
theorem advance_one_tick (s : State) : (advance (s.clock.tick + 1) s).clock = { s.clock with
    tick := s.clock.tick + 1
    acc := if rdy s 5 then (s.clock.acc + getN s Obj.rateAddend 0) % 2 ^ 100 else s.clock.acc } := by
  rw [advance, Nat.add_sub_cancel_left, Nat.one_mul]

/-- Settles O2: an idle tick advances the clock by one and lets READY follow, with no effect between them. -/
theorem emptyQueueLetsATickPass : Obligations.EmptyQueueLetsATickPass := by
  intro s h
  refine ⟨_, step_of_empty h, ?_, (Keeps.refl [] [] _).frame⟩
  rw [settle_clock, advance_one_tick]

/-- Settles O7: the clock has reached the command's tick before its effect, and no effect keeps less than the tick. -/
theorem commandsNeverSetTheTickBack : Obligations.CommandsNeverSetTheTickBack := by
  intro c s
  obtain ⟨x, hx⟩ := exec_settled c s
  exact ⟨_, hx, (exec_keeps hx).tick.trans (advance_tick c.tick s)⟩

end Sys2Proof.Machine
end

section
/-! PROOFS. Bits and fields of a word that has been written, and values that read back. -/

namespace Sys2Proof.Machine

open Sys2Proof

/-! Bits and fields of words. -/

theorem bitOf_wd (n j : Nat) : bitOf (wd n) j = (decide (j < 36) && n.testBit j) := BitVec.getLsbD_ofNat 36 n j

theorem bitOf_or (v w : Word) (j : Nat) : bitOf (v ||| w) j = (bitOf v j || bitOf w j) := BitVec.getLsbD_or

theorem bitOf_and_not (v w : Word) (j : Nat) : bitOf (v &&& ~~~ w) j = (bitOf v j && !bitOf w j) := by
  show (v &&& ~~~ w).getLsbD j = (v.getLsbD j && !w.getLsbD j)
  rw [BitVec.getLsbD_and, BitVec.getLsbD_not]
  obtain hj | hj := Nat.lt_or_ge j 36
  · rw [decide_eq_true hj, Bool.true_and]
  · rw [BitVec.getLsbD_of_ge v j hj]
    rfl

theorem bitOf_setBit_self (w : Word) {i : Nat} (b : Bool) (hi : i < 36) : bitOf (setBit w i b) i = b := by
  cases b <;> simp [setBit, bitOf_or, bitOf_and_not, bitOf_wd, hi]

theorem bitOf_setBit_ne (w : Word) {i j : Nat} (b : Bool) (h : i ≠ j) : bitOf (setBit w i b) j = bitOf w j := by
  cases b <;> simp [setBit, bitOf_or, bitOf_and_not, bitOf_wd, Nat.testBit_two_pow_of_ne h]

theorem testBit_fld (w : Word) (hi lo k : Nat) : (fld w hi lo).testBit k = (decide (k < hi + 1 - lo) && bitOf w (lo + k)) := by
  rw [fld, Nat.testBit_mod_two_pow, Nat.testBit_div_two_pow, bitOf, Nat.add_comm k lo]

/-- The bits of a word with a field set: those of the field are the value's. -/
theorem bitOf_setFld (w : Word) {hi lo : Nat} (v j : Nat) (hhi : hi < 36) (hlo : lo ≤ hi) : bitOf (setFld w hi lo v) j
    = if lo ≤ j ∧ j ≤ hi then v.testBit (j - lo) else bitOf w j := by
  rw [setFld, bitOf_or, bitOf_and_not, bitOf_wd, bitOf_wd, Nat.testBit_mul_two_pow, Nat.testBit_mul_two_pow,
    Nat.testBit_two_pow_sub_one, Nat.testBit_mod_two_pow]
  split
  · next hin =>
    obtain ⟨h1, h2⟩ := hin
    simp [h1, show j < 36 by omega, show j - lo < hi + 1 - lo by omega]
  · next hout =>
    have h : ¬(lo ≤ j ∧ j - lo < hi + 1 - lo) := by omega
    rw [not_and] at h
    by_cases h1 : lo ≤ j <;> simp [h1, h]

theorem fld_setFld_self (w : Word) {hi lo : Nat} (v : Nat) (hhi : hi < 36) (hlo : lo ≤ hi) :
    fld (setFld w hi lo v) hi lo = v % 2 ^ (hi + 1 - lo) := by
  refine Nat.eq_of_testBit_eq fun k => ?_
  rw [testBit_fld, Nat.testBit_mod_two_pow, bitOf_setFld w v _ hhi hlo, Nat.add_sub_cancel_left]
  by_cases hk : k < hi + 1 - lo
  · rw [if_pos (by omega)]
  · simp [hk]

/-- Setting a field leaves every field below it. -/
theorem fld_setFld_below (w : Word) {hi lo hi' lo' : Nat} (v : Nat) (hhi : hi < 36) (hlo : lo ≤ hi) (h : hi' < lo) :
    fld (setFld w hi lo v) hi' lo' = fld w hi' lo' := by
  refine Nat.eq_of_testBit_eq fun k => ?_
  rw [testBit_fld, testBit_fld, bitOf_setFld w v _ hhi hlo]
  by_cases hk : k < hi' + 1 - lo'
  · rw [if_neg (by omega)]
  · simp [hk]

/-! Signed values. -/

theorem sgn_toNat (w : Word) : sgn 36 w.toNat = w.toInt := by
  have hw : w.toNat < 2 ^ 36 := w.isLt
  rw [BitVec.toInt_eq_toNat_cond, sgn, Nat.mod_eq_of_lt hw]
  split <;> split <;> omega

/-- A signed value that fits a word reads back. -/
theorem sgn_ws {i : Int} (hlo : -2 ^ 35 ≤ i) (hhi : i < 2 ^ 35) : sgn 36 (ws i).toNat = i := by
  rw [sgn_toNat, ws, BitVec.toInt_ofInt]
  exact Int.bmod_eq_of_le (by omega) (by omega)

theorem satS_range (i : Int) : -2 ^ 35 ≤ satS 36 i ∧ satS 36 i < 2 ^ 35 := by
  unfold satS
  split
  · omega
  · split <;> omega

/-! Values that have been written. -/

theorem getW_setN_self (id i : Nat) (w : Word) (s : State) : getW (setN id i w.toNat s) id i = w :=
  BitVec.eq_of_toNat_eq ((getN_setN_self id i w.toNat s).trans (Nat.mod_eq_of_lt w.isLt))

theorem getW_setI_self (id i : Nat) (n : Int) (s : State) : getW (setI id i n s) id i = ws n := by
  rw [getW, setI, getE_setE_self, elemLo, wd, el, BitVec.toNat_ofNat, Nat.mod_eq_of_lt (by have := (ws n).isLt; omega),
    BitVec.ofNat_toNat, BitVec.setWidth_eq]

theorem getS_congr {s u : State} {n id i : Nat} (h : getE u id i = getE s id i) : getS u n id i = getS s n id i := by
  rw [getS, getS, getN_congr h]

/-- A signed value written with saturation reads back. -/
theorem getS_setI_satS (id i : Nat) (n : Int) (s : State) : getS (setI id i (satS 36 n) s) 36 id i = satS 36 n := by
  obtain ⟨hlo, hhi⟩ := satS_range n
  rw [getS, getN, getW_setI_self, sgn_ws hlo hhi]

/-! Values that neither a frame sent nor the settling of READY changes. -/

theorem getW_emit (x : Sent) (s : State) (id i : Nat) : getW (emit x s) id i = getW s id i := rfl

section
variable {id : Nat} (h : id ∉ countersOfEvents) (s : State)
include h

theorem getW_settle (i : Nat) : getW (settle s) id i = getW s id i := getW_congr (getE_settle h s i)

theorem getN_settle (i : Nat) : getN (settle s) id i = getN s id i := getN_congr (getE_settle h s i)

theorem getS_settle (n i : Nat) : getS (settle s) n id i = getS s n id i := getS_congr (getE_settle h s i)

end

end Sys2Proof.Machine
end

section
/-! PROOFS. Messages of IEEE 1588 (R151, R157, R162, R163): what each one sets, sends or waits for. -/

namespace Sys2Proof.Machine

open Sys2Proof

/-! An offset sample. -/

/-- OFFSET holds the sample, kept within a signed word: nothing that absorbs it writes OFFSET again (R151). -/
theorem offsetSample_offset (ring : Bool) (theta T : Int) (s : State) :
    getS (offsetSample ring theta T s) 36 Obj.offset 0 = satS 36 theta := by
  unfold offsetSample
  extract_lets x
  have hreroute : Keeps [.clock, .ev] [Obj.eventLost, Obj.timeFlags] x (if ring then rerouteCheck theta x else x) :=
    keeps_ite (rerouteCheck_keeps theta x) (Keeps.refl ..)
  have hsync := (syncStep_keeps ring theta _).step (T' := [.clock, .trigs, .ev, .up])
    (O' := [Obj.eventLost, Obj.rateAddend, Obj.syncState, Obj.timeFlags, Obj.trig]) (by decide) (by decide)
    (hreroute.mono (by decide) (by decide))
  have hall := (absorb_keeps theta T _).step (by decide) (by decide) hsync
  rw [getS_congr (hall.objs (by decide) Obj.offset (by decide) 0)]
  exact getS_setI_satS Obj.offset 0 theta s

section
variable (rx origin corr T : Int) (s : State)

/-- A Sync and its timestamps make the sample of R157. -/
theorem ptpOffset_offset : getS (ptpOffset rx origin corr T s) 36 Obj.offset 0
    = satS 36 (rx - origin - corr - getS s 36 Obj.hostAsym 0 - getS s 36 Obj.ptpMeanDelay 0) := by
  unfold ptpOffset
  extract_lets diff x
  rw [getS_congr ((ptpPort_keeps _).objs (by decide) Obj.offset (by decide) 0), offsetSample_offset]
  rfl

theorem ptpOffset_ptp : (ptpOffset rx origin corr T s).ptp
    = { s.ptp with syncDiff := rx - origin - corr - getS s 36 Obj.hostAsym 0, haveSync := true } := by
  unfold ptpOffset
  extract_lets diff x
  rw [(ptpPort_keeps _).areas .ptp (by decide), (offsetSample_keeps ..).areas .ptp (by decide)]
  rfl

end

/-- The port state leaves the steps from the grandmaster in 03.00B PTP_STATE (R163). -/
theorem ptpPort_stepsRemoved (s : State) :
    fld (getW (ptpPort s) Obj.ptpState 0) 15 0 = fld (getW s Obj.ptpState 0) 15 0 := by
  unfold ptpPort
  extract_lets st
  rw [getW_setN_self, fld_setFld_below _ _ (by decide) (by decide) (by decide)]

/-! A grandmaster is taken (R163). -/

/-- The state with an Announce taken: its sender as parent, its identity, its steps. -/
def masterTaken (h : PtpHdr) (ann : Announce) (s : State) : State :=
  let x := setN Obj.ptpGmId 1 (wd (ann.identity.toNat % 2 ^ 32)).toNat
    (setN Obj.ptpGmId 0 (wd (ann.identity.toNat / 2 ^ 32)).toNat (modPtp (fun p => { p with
      master := some ann, parent := h.sender
      sync := if p.parent = h.sender then p.sync else none
      haveSync := p.haveSync && p.parent == h.sender }) s))
  setN Obj.ptpState 0 (setFld (getW x Obj.ptpState 0) 15 0 ann.stepsRemoved).toNat x

section
variable (h : PtpHdr) (ann : Announce) (s : State)

theorem masterTaken_identity : getW (masterTaken h ann s) Obj.ptpGmId 0 = wd (ann.identity.toNat / 2 ^ 32)
    ∧ getW (masterTaken h ann s) Obj.ptpGmId 1 = wd (ann.identity.toNat % 2 ^ 32) := by
  have hstate (i n : Nat) (x : State) : getW (setN Obj.ptpState 0 n x) Obj.ptpGmId i = getW x Obj.ptpGmId i :=
    getW_congr (getE_setN_obj (by decide) ..)
  have hother (n : Nat) (x : State) : getW (setN Obj.ptpGmId 1 n x) Obj.ptpGmId 0 = getW x Obj.ptpGmId 0 :=
    getW_congr (getE_setE_ne (by decide) ..)
  unfold masterTaken
  extract_lets x
  exact ⟨(hstate ..).trans ((hother ..).trans (getW_setN_self ..)), (hstate ..).trans (getW_setN_self ..)⟩

theorem masterTaken_steps : fld (getW (masterTaken h ann s) Obj.ptpState 0) 15 0 = ann.stepsRemoved % 2 ^ 16 := by
  unfold masterTaken
  extract_lets x
  rw [getW_setN_self, fld_setFld_self _ _ (by decide) (by decide)]

end

/-! The messages. -/

theorem exec_ptpSync (t : Nat) (h : PtpHdr) (origin : Int) (rx : Nat) (s : State) :
    exec (.ptpSync t h origin rx) s = execPtpSync t h origin rx s := by rfl
theorem exec_ptpFollowUp (t : Nat) (h : PtpHdr) (origin : Int) (s : State) :
    exec (.ptpFollowUp t h origin) s = execPtpFollowUp t h origin s := by rfl
theorem exec_ptpDelayReqTimer (t tx : Nat) (s : State) :
    exec (.ptpDelayReqTimer t tx) s = execPtpDelayReqTimer t tx s := by rfl
theorem exec_ptpDelayResp (t : Nat) (h : PtpHdr) (rx : Int) (s : State) :
    exec (.ptpDelayResp t h rx) s = execPtpDelayResp t h rx s := by rfl
theorem exec_ptpAnnounce (t : Nat) (h : PtpHdr) (ann : Announce) (s : State) :
    exec (.ptpAnnounce t h ann) s = execPtpAnnounce t h ann s := by rfl
theorem exec_pdelayReqTimer (t tx : Nat) (s : State) :
    exec (.pdelayReqTimer t tx) s = execPdelayReqTimer t tx s := by rfl
theorem exec_ptpPdelayReq (t : Nat) (h : PtpHdr) (rx tx : Nat) (s : State) :
    exec (.ptpPdelayReq t h rx tx) s = execPtpPdelayReq t h rx tx s := by rfl
theorem exec_ptpPdelayResp (t : Nat) (h : PtpHdr) (t2 : Int) (rx : Nat) (s : State) :
    exec (.ptpPdelayResp t h t2 rx) s = execPtpPdelayResp t h t2 rx s := by rfl
theorem exec_ptpPdelayRespFollowUp (t : Nat) (h : PtpHdr) (t3 : Int) (s : State) :
    exec (.ptpPdelayRespFollowUp t h t3) s = execPtpPdelayRespFollowUp t h t3 s := by rfl

/-! The clock alone advances before the effect: what a message is checked against is as it was. -/

@[simp] theorem getN_advance (t : Nat) (s : State) (id i : Nat) : getN (advance t s) id i = getN s id i := rfl
@[simp] theorem getW_advance (t : Nat) (s : State) (id i : Nat) : getW (advance t s) id i = getW s id i := rfl
@[simp] theorem getS_advance (t : Nat) (s : State) (n id i : Nat) : getS (advance t s) n id i = getS s n id i := rfl
@[simp] theorem ptpOn_advance (t : Nat) (h : PtpHdr) (s : State) : ptpOn h (advance t s) = ptpOn h s := rfl
@[simp] theorem fromParent_advance (t : Nat) (h : PtpHdr) (s : State) : fromParent h (advance t s) = fromParent h s := rfl
@[simp] theorem ptpP2p_advance (t : Nat) (s : State) : ptpP2p (advance t s) = ptpP2p s := rfl
@[simp] theorem ptpDomain_advance (t : Nat) (s : State) : ptpDomain (advance t s) = ptpDomain s := rfl
@[simp] theorem asymCorrection_advance (t : Nat) (s : State) : asymCorrection (advance t s) = asymCorrection s := rfl

@[simp] theorem modPtp_ptp (f : Ptp → Ptp) (s : State) : (modPtp f s).ptp = f s.ptp := rfl
@[simp] theorem modPtp_sent (f : Ptp → Ptp) (s : State) : (modPtp f s).sent = s.sent := rfl
theorem getS_modPtp (f : Ptp → Ptp) (s : State) (n id i : Nat) : getS (modPtp f s) n id i = getS s n id i := rfl

section
variable {t n rxAt txAt : Nat} {h : PtpHdr} {ann : Announce} {origin rx tx corr t2 t3 got : Int} {s : State}
  (ha : awake s = true)
include ha

section
variable (hon : ptpOn h s = true) (hp : fromParent h s = true)
include hon hp

theorem ptpSync_oneStep (h1 : h.twoStep = false) :
    Answers (.ptpSync t h origin rxAt) s (fun u => u.ptp.haveSync = true
      ∧ u.ptp.syncDiff = localPs (advance t s) rxAt - origin - corrPs h - getS s 36 Obj.hostAsym 0
      ∧ getS u 36 Obj.offset 0
        = satS 36 (localPs (advance t s) rxAt - origin - corrPs h - getS s 36 Obj.hostAsym 0 - getS s 36 Obj.ptpMeanDelay 0)) := by
  refine answers_happen (exec_ptpSync ..) ha ?_
  have hkept : ∀ id, id ≠ Obj.ptpState → ∀ n, getS (setN Obj.ptpState 0 n (advance t s)) 36 id 0 = getS s 36 id 0 :=
    fun id hid n => getS_congr (getE_setN_obj hid ..)
  simp only [ptpOn_advance, fromParent_advance, hon, hp, h1, Bool.and_self, Bool.not_true, Bool.false_eq_true, if_false]
  rw [settle_ptp, ptpOffset_ptp, getS_settle (by decide), ptpOffset_offset, hkept Obj.hostAsym (by decide),
    hkept Obj.ptpMeanDelay (by decide)]
  exact ⟨rfl, rfl, rfl⟩

theorem ptpSync_twoStep (h2 : h.twoStep = true) :
    Answers (.ptpSync t h origin rxAt) s (fun u => u.ptp.sync = some (h.seq, localPs (advance t s) rxAt, corrPs h)) := by
  refine answers_happen (exec_ptpSync ..) ha ?_
  simp [hon, hp, h2]

theorem ptpFollowUp_samples (hs : s.ptp.sync = some (h.seq, rx, corr)) :
    Answers (.ptpFollowUp t h origin) s (fun u => u.ptp.haveSync = true ∧ u.ptp.sync = none
      ∧ getS u 36 Obj.offset 0
        = satS 36 (rx - origin - (corr + corrPs h) - getS s 36 Obj.hostAsym 0 - getS s 36 Obj.ptpMeanDelay 0)) := by
  refine answers_happen (exec_ptpFollowUp ..) ha ?_
  simp [hon, hp, hs, ptpOffset_ptp, getS_settle (id := Obj.offset) (by decide), ptpOffset_offset, getS_modPtp]

theorem ptpDelayResp_meanDelay (he : ptpP2p s = false) (htx : s.ptp.delayTx = some (h.seq, tx))
    (hsync : s.ptp.haveSync = true) : Answers (.ptpDelayResp t h rx) s (fun u => u.ptp.delayTx = none
      ∧ getS u 36 Obj.ptpMeanDelay 0 = satS 36 (roundHalfUp (s.ptp.syncDiff + (rx - tx - corrPs h)) 2)) := by
  refine answers_happen (exec_ptpDelayResp ..) ha ?_
  simp [hon, hp, he, htx, hsync, getS_settle (id := Obj.ptpMeanDelay) (by decide), getS_setI_satS]

end

theorem ptpDelayReqTimer_sends (hsrc : getN s Obj.timeSource 0 = 1) (he : ptpP2p s = false)
    (hm : s.ptp.master.isSome = true) : Answers (.ptpDelayReqTimer t txAt) s (fun u =>
      u.ptp.delayTx = some ((s.ptp.reqSeq + 1) % 65536, localPs (advance t s) txAt)
      ∧ Sends [.ptp 1 ((s.ptp.reqSeq + 1) % 65536) (ptpDomain s) 319 ptpGroup (asymCorrection s) [localPs (advance t s) txAt]] s u) := by
  refine answers_happen (exec_ptpDelayReqTimer ..) ha ?_
  simp [hsrc, he, hm, Sends]

theorem pdelayReqTimer_sends (hsrc : getN s Obj.timeSource 0 = 1) (hpeer : ptpP2p s = true) :
    Answers (.pdelayReqTimer t txAt) s (fun u => u.ptp.pdelayTx = some ((s.ptp.reqSeq + 1) % 65536, localPs (advance t s) txAt)
      ∧ u.ptp.pdelayResp = none ∧ Sends [.ptp 2 ((s.ptp.reqSeq + 1) % 65536) (ptpDomain s) 319 pdelayGroup (asymCorrection s)
        [localPs (advance t s) txAt]] s u) := by
  refine answers_happen (exec_pdelayReqTimer ..) ha ?_
  simp [hsrc, hpeer, Sends]

section
variable (hon : ptpOn h s = true)
include hon

theorem answers_firstAnnounce {P : State → Prop} (hm : s.ptp.master = none)
    (hP : ∀ x, Keeps [.clock, .ev, .up] [Obj.eventLost, Obj.syncState] (masterTaken h ann (advance t s)) x →
      P (settle (ptpPort x))) : Answers (.ptpAnnounce t h ann) s P := by
  refine answers_happen (exec_ptpAnnounce ..) ha ?_
  simp only [ptpOn_advance, hon, advance_ptp, hm, Bool.not_true, Bool.false_eq_true, if_false]
  have hraise : ∀ ps, Keeps [.clock, .ev, .up] [Obj.eventLost, Obj.syncState] (masterTaken h ann (advance t s))
      (raise 0x03003 ps (masterTaken h ann (advance t s))) := fun _ => keeps_raise (by decide) (by decide) (Keeps.refl ..)
  exact hP _ (keeps_ite (keeps_ite (hraise _) ((syncEnter_keeps ..).step (by decide) (by decide) (hraise _))) (Keeps.refl ..))

theorem ptpAnnounce_first (hm : s.ptp.master = none) : Answers (.ptpAnnounce t h ann) s (fun u =>
      u.ptp.master = some ann ∧ u.ptp.parent = h.sender ∧ getW u Obj.ptpGmId 0 = wd (ann.identity.toNat / 2 ^ 32)
        ∧ getW u Obj.ptpGmId 1 = wd (ann.identity.toNat % 2 ^ 32)
        ∧ fld (getW u Obj.ptpState 0) 15 0 = ann.stepsRemoved % 2 ^ 16) := by
  refine answers_firstAnnounce ha hon hm fun x hx => ?_
  obtain ⟨hhi, hlo⟩ := masterTaken_identity h ann (advance t s)
  have hsteps := masterTaken_steps h ann (advance t s)
  have hport : Keeps [.clock, .ev, .up] [Obj.eventLost, Obj.syncState, Obj.ptpState] _ (ptpPort x) :=
    (ptpPort_keeps x).step (by decide) (by decide) (hx.mono (by decide) (by decide))
  have hgm (i : Nat) : getW (settle (ptpPort x)) Obj.ptpGmId i = getW (masterTaken h ann (advance t s)) Obj.ptpGmId i :=
    (getW_settle (by decide) _ i).trans (getW_congr (hport.objs (by decide) Obj.ptpGmId (by decide) i))
  rw [settle_ptp, hport.areas .ptp (by decide), hgm, hgm, getW_settle (by decide), ptpPort_stepsRemoved,
    getW_congr (hx.objs (by decide) Obj.ptpState (by decide) 0)]
  exact ⟨rfl, rfl, hhi, hlo, hsteps⟩

variable (hpeer : ptpP2p s = true)
include hpeer

theorem ptpPdelayReq_answered : Answers (.ptpPdelayReq t h rxAt txAt) s
    (Sends [.ptp 3 h.seq (ptpDomain s) 319 pdelayGroup 0 [localPs (advance t s) rxAt],
      .ptp 10 h.seq (ptpDomain s) 320 pdelayGroup h.correction [localPs (advance t s) txAt]] s) := by
  refine answers_happen (exec_ptpPdelayReq ..) ha ?_
  simp [hon, hpeer, Sends]

theorem ptpPdelayResp_taken (htx : s.ptp.pdelayTx = some (h.seq, tx)) :
    Answers (.ptpPdelayResp t h t2 rxAt) s (fun u =>
      if h.twoStep then u.ptp.pdelayResp = some (h.seq, t2, localPs (advance t s) rxAt - corrPs h - getS s 36 Obj.hostAsym 0)
      else getS u 36 Obj.ptpMeanDelay 0
        = satS 36 (roundHalfUp (localPs (advance t s) rxAt - corrPs h - getS s 36 Obj.hostAsym 0 - tx) 2)) := by
  refine answers_happen (exec_ptpPdelayResp ..) ha ?_
  cases h.twoStep <;>
    simp [hon, hpeer, htx, getS_settle (id := Obj.ptpMeanDelay) (by decide), getS_setI_satS]

theorem ptpPdelayRespFollowUp_meanDelay (htx : s.ptp.pdelayTx = some (h.seq, tx))
    (hresp : s.ptp.pdelayResp = some (n, t2, got)) : Answers (.ptpPdelayRespFollowUp t h t3) s (fun u => u.ptp.pdelayTx = none
      ∧ getS u 36 Obj.ptpMeanDelay 0 = satS 36 (roundHalfUp (got - tx - (t3 - t2) - corrPs h) 2)) := by
  refine answers_happen (exec_ptpPdelayRespFollowUp ..) ha ?_
  simp [hon, hpeer, htx, hresp, getS_settle (id := Obj.ptpMeanDelay) (by decide), getS_setI_satS]

end
end

/-- Settles O28: one lemma for each message or timer. -/
theorem timeMessagesSampleAndAnswer : Obligations.TimeMessagesSampleAndAnswer :=
  ⟨fun _ _ _ _ _ => ptpSync_oneStep, fun _ _ _ _ _ => ptpSync_twoStep, fun _ _ _ _ _ _ => ptpFollowUp_samples,
    fun _ _ _ => ptpDelayReqTimer_sends, fun _ _ _ _ _ => ptpDelayResp_meanDelay, fun _ _ _ _ => ptpAnnounce_first,
    fun _ _ _ => pdelayReqTimer_sends, fun _ _ _ _ _ => ptpPdelayReq_answered, fun _ _ _ _ _ _ => ptpPdelayResp_taken,
    fun _ _ _ _ _ _ _ _ => ptpPdelayRespFollowUp_meanDelay⟩

end Sys2Proof.Machine
end

section
/-! PROOFS. Lost sources, writes of TIME_RESYNC and TIME_NOW, trigger units and capture units (R152, R159, R160, R166 to
R169). -/

namespace Sys2Proof.Machine

open Sys2Proof

/-! The meanings that the commands name. -/

theorem exec_syncTimeout (t : Nat) (s : State) : exec (.syncTimeout t) s = execSyncTimeout t s := by rfl
theorem exec_announceTimeout (t : Nat) (s : State) : exec (.announceTimeout t) s = execAnnounceTimeout t s := by rfl
theorem exec_holdoverReadyExpire (t : Nat) (s : State) :
    exec (.holdoverReadyExpire t) s = execHoldoverReadyExpire t s := by rfl
theorem exec_timeResync (t : Nat) (s : State) : exec (.timeResync t) s = execTimeResync t s := by rfl
theorem exec_timeNowWrite (t : Nat) (w0 w1 : Word) (s : State) :
    exec (.timeNowWrite t w0 w1) s = execTimeNowWrite t w0 w1 s := by rfl
theorem exec_trigEnable (t : Nat) (unit : Fin 16) (s : State) :
    exec (.trigEnable t unit) s = execTrigEnable t unit s := by rfl
theorem exec_triggerFire (t : Nat) (unit : Fin 16) (s : State) :
    exec (.triggerFire t unit) s = execTriggerFire t unit s := by rfl
theorem exec_captureEdge (t : Nat) (unit : Fin 8) (source : EdgeSource) (rising : Bool) (stamp : Nat) (s : State) :
    exec (.captureEdge t unit source rising stamp) s = execCaptureEdge t unit source rising stamp s := by rfl

/-! Sources that are lost (R151, R152, R160). -/

/-- Holdover begun: SYNC_STATE 3, and the means start again (R151). -/
def holdoverBegun (s : State) : State :=
  modClock (fun c => { c with meanSum := 0, meanCount := 0, goodMeans := 0 }) (setN Obj.syncState 0 3 s)

/-- The entry to holdover from states 1 and 2: EV 03.002 with the last offset sampled, which stays as predicted. -/
theorem enterHoldover_eq {s : State} (h : getN s Obj.syncState 0 = 1 ∨ getN s Obj.syncState 0 = 2) :
    enterHoldover s = modClock (fun c => { c with predicted := getS s 36 Obj.offset 0 })
      (raise 0x03002 [p9 (getN s Obj.timeSource 0), getW s Obj.offset 0] (holdoverBegun s)) := by
  have hkept : ∀ id, id ≠ Obj.syncState → getW (holdoverBegun s) id 0 = getW s id 0 := fun id hid =>
    getW_congr (getE_setN_obj hid ..)
  rw [enterHoldover, if_pos h, ← hkept Obj.offset (by decide), getN, ← hkept Obj.timeSource (by decide)]
  rfl

/-- A source lost in state 1 or 2 leaves the device in holdover. -/
theorem holdover_entered {f : Ptp → Ptp} {s : State} (hsrc : getN s Obj.timeSource 0 = 1)
    (hst : getN s Obj.syncState 0 = 1 ∨ getN s Obj.syncState 0 = 2) (hr : rdy s 25 = true) :
    let u := settle (ptpPort (enterHoldover (modPtp f s)))
    getN u Obj.syncState 0 = 3 ∧ u.ptp = f s.ptp ∧ u.clock.predicted = getS s 36 Obj.offset 0
      ∧ Raises 0x03002 [1, getW s Obj.offset 0] s u := by
  have henter := enterHoldover_eq (s := modPtp f s) hst
  have hport := ptpPort_keeps (enterHoldover (modPtp f s))
  refine ⟨?_, ?_, ?_, ?_⟩
  · rw [getN_settle (by decide), getN_congr (hport.objs (by decide) Obj.syncState (by decide) 0), henter]
    exact (getN_congr (getE_raise (by decide) ..)).trans (getN_setN_self ..)
  · rw [settle_ptp, hport.areas .ptp (by decide), (enterHoldover_keeps _).areas .ptp (by decide), modPtp_ptp]
  · rw [settle_clock, hport.areas .clock (by decide), henter]
    rfl
  · have hraise : Raises 0x03002 [1, getW s Obj.offset 0] s (enterHoldover (modPtp f s)) := by
      rw [henter, show getN (modPtp f s) Obj.timeSource 0 = 1 from hsrc]
      exact raises_raise (x := holdoverBegun (modPtp f s)) hr ⟨[], (List.append_nil _).symm⟩
    obtain ⟨hev, hready⟩ := hport.areas .ev (by decide)
    refine (hraise.mono (hev ▸ List.prefix_rfl)).settled ?_
    rw [rdy, hready, (enterHoldover_raised _).1]
    exact hr

section
variable {t : Nat} {c : Instr} {s : State} (ha : awake s = true)
include ha

theorem sourceTimeout_holdsOver (hsrc : getN s Obj.timeSource 0 = 1)
    (hst : getN s Obj.syncState 0 = 1 ∨ getN s Obj.syncState 0 = 2) (hr : rdy s 25 = true)
    (hc : c = .syncTimeout t ∨ c = .announceTimeout t) : Answers c s (fun u => getN u Obj.syncState 0 = 3
      ∧ u.ptp.haveSync = false ∧ u.clock.predicted = getS s 36 Obj.offset 0 ∧ Raises 0x03002 [1, getW s Obj.offset 0] s u
      ∧ (c = .announceTimeout t → u.ptp.master = none)) := by
  have hsrc' : getN (advance t s) Obj.timeSource 0 = 1 := hsrc
  obtain rfl | rfl := hc
  · refine answers_happen (exec_syncTimeout ..) ha ?_
    rw [if_pos hsrc']
    obtain ⟨hstate, hptp, hpred, hraise⟩ := holdover_entered (s := advance t s) hsrc' hst hr
    exact ⟨hstate, by rw [hptp], hpred, hraise, fun h => nomatch h⟩
  · refine answers_happen (exec_announceTimeout ..) ha ?_
    rw [if_pos hsrc']
    obtain ⟨hstate, hptp, hpred, hraise⟩ := holdover_entered (s := advance t s) hsrc' hst hr
    exact ⟨hstate, by rw [hptp], hpred, hraise, fun _ => by rw [hptp]⟩

theorem holdoverReadyExpire_ends (hst : getN s Obj.syncState 0 = 3) :
    Answers (.holdoverReadyExpire t) s (fun u => bitOf u.pwr.up 6 = false) := by
  refine answers_happen (exec_holdoverReadyExpire ..) ha ?_
  rw [if_pos (show getN (advance t s) Obj.syncState 0 = 3 from hst), settle_pwr]
  exact bitOf_setBit_self _ false (by decide)

end

/-! Accepted writes of TIME_RESYNC, TIME_NOW and TRIG (R159, R167). -/

/-- An accepted write by a command that stands for it answers what its effect g and the reply leave, the word stored
beside. -/
theorem answers_accepted {c : Instr} {f g : State → State} {t obj i : Nat} {vals : List Word} {s : State} {d : ObjDef}
    {e : Elem} {T : List Area} {O : List Nat} {P : State → Prop} (hx : exec c s = happen t f s) (hw : Works s)
    (ha : Accepted obj i vals (advance t s)) (hf : f (advance t s) = writeOne obj i vals (advance t s))
    (hd : findObj obj = some d) (he : elemsOf d.wordsPer vals = [e]) (hg : ∀ x, elemApply d i (maskElem d e) x = g x)
    (hk : ∀ x, Keeps T O x (g x)) (hp : .pwr ∉ T)
    (hP : ∀ x, Keeps [.ev, .mem] [Obj.eventLost, Obj.flipCtrl] (advance t s) x →
      P (settle (emit (.reply 0 []) (g x)))) : Answers c s P := by
  obtain ⟨hawake, -, hgood⟩ := hw
  refine answers_happen hx hawake ?_
  have hram := ramWrite_keeps d i (maskElem d e) (advance t s)
  rw [hf, writeOne_accepted hd he ha, hg, codeCheck_off (((hk _).code hp).trans (hram.code.trans hgood))]
  exact hP _ hram

theorem getW_timeFlag (b : Nat) (on : Bool) (s : State) :
    getW (timeFlag b on s) Obj.timeFlags 0 = setBit (getW s Obj.timeFlags 0) b on := getW_setN_self ..

theorem resyncDo_flags (s : State) :
    getW (resyncDo s) Obj.timeFlags 0 = setBit (setBit (getW s Obj.timeFlags 0) 34 false) 35 false := by
  rw [resyncDo, getW_timeFlag, getW_timeFlag]
  rfl

theorem resyncDo_resync (s : State) : (resyncDo s).clock.resync = true := rfl

theorem time72_timeNowDo {v : Nat} (hv : v < 2 ^ 72) (s : State) : time72 (timeNowDo v s) = v := by
  show (v * 2 ^ 28 / 2 ^ 28) % 2 ^ 72 = v
  rw [Nat.mul_div_cancel _ (by decide), Nat.mod_eq_of_lt hv]

/-- A word of an object whose bits are all in use is written as it is. -/
theorem elemLo_maskElem {d : ObjDef} (hd : d.wordsPer ≠ 2) (hm : d.mask = 0xFFFFFFFFF) (w : Word) :
    elemLo (maskElem d (BitVec.ofNat 72 w.toNat)) = w := by
  have hw : w.toNat < 2 ^ 36 := w.isLt
  have hall : d.mask.toNat = 2 ^ 36 - 1 := by rw [hm]; rfl
  apply BitVec.eq_of_toNat_eq
  rw [maskElem, if_neg hd, hall, Nat.and_two_pow_sub_one_eq_mod]
  simp only [elemLo, wd, BitVec.toNat_ofNat]
  omega

theorem timeResync_clears {t : Nat} {s : State} (hw : Works s) (ha : Accepted Obj.timeResync 0 [1] (advance t s)) :
    Answers (.timeResync t) s (fun u => u.clock.resync = true ∧ bitOf (getW u Obj.timeFlags 0) 35 = false
      ∧ bitOf (getW u Obj.timeFlags 0) 34 = false) := by
  refine answers_accepted (exec_timeResync ..) hw ha rfl rfl rfl (g := resyncDo) (fun _ => rfl) resyncDo_keeps (by decide)
    fun x _ => ?_
  rw [settle_clock, emit_clock, resyncDo_resync, getW_settle (by decide), getW_emit, resyncDo_flags,
    bitOf_setBit_self _ _ (by decide), bitOf_setBit_ne _ _ (by decide), bitOf_setBit_self _ _ (by decide)]
  exact ⟨rfl, rfl, rfl⟩

theorem timeNowWrite_sets {t : Nat} {w0 w1 : Word} {s : State} (hw : Works s)
    (ha : Accepted Obj.timeNow 0 [w0, w1] (advance t s)) :
    Answers (.timeNowWrite t w0 w1) s (fun u => time72 u = w0.toNat * 2 ^ 36 + w1.toNat) := by
  have hv : w0.toNat * 2 ^ 36 + w1.toNat < 2 ^ 72 := by have := w0.isLt; have := w1.isLt; omega
  refine answers_accepted (exec_timeNowWrite ..) hw ha rfl rfl rfl (g := timeNowDo (w0.toNat * 2 ^ 36 + w1.toNat))
    (fun x => ?_) (timeNowDo_keeps _) (by decide) fun x _ => ?_
  · show timeNowDo (BitVec.ofNat 72 (w0.toNat * 2 ^ 36 + w1.toNat)).toNat x = _
    rw [BitVec.toNat_ofNat, Nat.mod_eq_of_lt hv]
  · rw [time72, settle_clock]
    exact time72_timeNowDo hv x

/-! Trigger units (R166 to R168). -/

theorem trigU_modTrig {u : Nat} (hu : u < 16) (f : TrigUnit → TrigUnit) (s : State) :
    trigU (modTrig u f s) u = f (trigU s u) := by
  rw [trigU, modTrig, vget_vmod _ _ _ hu, if_pos rfl, trigU]

/-- TRIG_START of the unit is not ahead (R167). -/
def startPassed (u : Nat) (s : State) : Bool := decide ((getE s Obj.trigStart u).toNat ≤ time72 s)

section
variable {u : Nat} {s : State} (hoff : bitOf (getW s Obj.trig u) 35 = false)
include hoff

/-- ENABLE written beside an idle unit's other fields: armed, or LATE where TRIG_START is not ahead (R167). -/
theorem trigDo_enable : trigDo u (setBit (getW s Obj.trig u) 35 true) s
    = modTrig u (fun x => { x with nextFire := none, fired := 0, passed := false })
      (setN Obj.trig u (setBit (setBit (setBit (getW s Obj.trig u) 35 true) 34 (startPassed u s)) 35
        (!startPassed u s)).toNat (xingQueue 14 1 s)) := by
  have hon : bitOf (setBit (getW s Obj.trig u) 35 true) 35 = true := bitOf_setBit_self _ _ (by decide)
  have hlate : bitOf (setBit (getW s Obj.trig u) 35 true) 34 = bitOf (getW s Obj.trig u) 34 :=
    bitOf_setBit_ne _ _ (by decide)
  simp [trigDo, hon, hoff, hlate, startPassed]

theorem trigDo_enable_word : bitOf (getW (trigDo u (setBit (getW s Obj.trig u) 35 true) s) Obj.trig u) 35 = !startPassed u s
    ∧ bitOf (getW (trigDo u (setBit (getW s Obj.trig u) 35 true) s) Obj.trig u) 34 = startPassed u s := by
  have hword : getW (trigDo u (setBit (getW s Obj.trig u) 35 true) s) Obj.trig u
      = setBit (setBit (setBit (getW s Obj.trig u) 35 true) 34 (startPassed u s)) 35 (!startPassed u s) := by
    rw [trigDo_enable hoff]
    exact getW_setN_self ..
  rw [hword, bitOf_setBit_self _ _ (by decide), bitOf_setBit_ne _ _ (by decide), bitOf_setBit_self _ _ (by decide)]
  exact ⟨rfl, rfl⟩

theorem trigDo_enable_unit (hu : u < 16) : trigU (trigDo u (setBit (getW s Obj.trig u) 35 true) s) u
    = { trigU s u with nextFire := none, fired := 0, passed := false } := by
  rw [trigDo_enable hoff, trigU_modTrig hu]
  rfl

end

theorem trigEnable_arms {t : Nat} {unit : Fin 16} {s : State} (hw : Works s)
    (hoff : bitOf (getW s Obj.trig unit.val) 35 = false)
    (ha : Accepted Obj.trig unit.val [setBit (getW s Obj.trig unit.val) 35 true] (advance t s)) :
    Answers (.trigEnable t unit) s (fun u =>
      let ahead := decide (time72 (advance t s) < (getE s Obj.trigStart unit.val).toNat)
      bitOf (getW u Obj.trig unit.val) 35 = ahead ∧ bitOf (getW u Obj.trig unit.val) 34 = !ahead
        ∧ (trigU u unit.val).nextFire = none ∧ (trigU u unit.val).fired = 0) := by
  refine answers_accepted (exec_trigEnable ..) hw ha rfl rfl rfl
    (g := trigDo unit.val (setBit (getW s Obj.trig unit.val) 35 true)) (fun x => ?_) (trigDo_keeps _ _) (by decide)
    fun x hx => ?_
  · exact congrArg (trigDo unit.val · x) (elemLo_maskElem (by decide) rfl _)
  · have hword : getW x Obj.trig unit.val = getW s Obj.trig unit.val := getW_congr (hx.objs (by decide) _ (by decide) _)
    have hpassed : startPassed unit.val x = !decide (time72 (advance t s) < (getE s Obj.trigStart unit.val).toNat) := by
      rw [startPassed, time72, hx.areas .clock (by decide), hx.objs (by decide) Obj.trigStart (by decide), ← time72, getE_advance,
        ← decide_not, decide_eq_decide]
      exact Nat.not_lt.symm
    have hoff' : bitOf (getW x Obj.trig unit.val) 35 = false := by rw [hword, hoff]
    have hunit := trigDo_enable_unit hoff' unit.isLt
    obtain ⟨harmed, hlate⟩ := trigDo_enable_word hoff'
    rw [hword] at hunit harmed hlate
    rw [getW_settle (by decide), getW_emit, harmed, hlate, hpassed, Bool.not_not, trigU, settle_trigs, emit_trigs, ← trigU, hunit]
    exact ⟨rfl, rfl, rfl, rfl⟩

/-! A firing. -/

/-- The firing to be counted is the last of REPEAT (R166). -/
def lastFiring (u : Nat) (s : State) : Bool :=
  fld (getW s Obj.trig u) 16 0 != 0 && decide ((trigU s u).fired + 1 ≥ fld (getW s Obj.trig u) 16 0)

/-- The pulse of a firing, where the unit drives a pin (R166). -/
def firingPulse (u at64 : Nat) (s : State) : List Sent :=
  if bitOf (getW s Obj.trig u) 30 then
    [.pulse (fld (getW s Obj.trig u) 29 28) (bitOf (getW s Obj.trig u) 27) (fld (getW s Obj.trig u) 26 17) at64]
  else []

/-- A firing counted, its pulse sent, its unit disarmed where it is the last. -/
def firingDone (u at64 : Nat) (s : State) : State :=
  let x := { bump Obj.trigFired u 1 s with sent := s.sent ++ firingPulse u at64 s }
  if lastFiring u s then setN Obj.trig u (setBit (getW s Obj.trig u) 35 false).toNat x else x

section
variable (u at64 : Nat) (s : State)

theorem getE_firingDone {id : Nat} (hid : id ≠ Obj.trig) (i : Nat) :
    getE (firingDone u at64 s) id i = getE (bump Obj.trigFired u 1 s) id i := by
  unfold firingDone
  extract_lets x
  split
  · exact getE_setN_obj hid ..
  · rfl

theorem firingDone_disarmed (h : lastFiring u s = true) :
    getW (firingDone u at64 s) Obj.trig u = setBit (getW s Obj.trig u) 35 false := by
  unfold firingDone
  extract_lets x
  rw [if_pos h]
  exact getW_setN_self ..

theorem firingDone_sent : (firingDone u at64 s).sent = s.sent ++ firingPulse u at64 s := by
  unfold firingDone
  extract_lets x
  split <;> rfl

theorem firingDone_clock : (firingDone u at64 s).clock = s.clock := by
  unfold firingDone
  extract_lets x
  split <;> rfl

theorem trigFire_eq : trigFire u at64 s = modTrig u (fun _ => {
      nextFire := if lastFiring u s then none else some (at64 + getN s Obj.trigPeriod u)
      fired := (trigU s u).fired + 1, passed := false, lastTick := some s.clock.tick }) (firingDone u at64 s) := by
  have hperiod : getN (firingDone u at64 s) Obj.trigPeriod u = getN s Obj.trigPeriod u :=
    getN_congr ((getE_firingDone u at64 s (by decide) u).trans (getE_bump_obj (by decide) ..))
  rw [← firingDone_clock u at64 s, ← hperiod]
  have hsent : (if bitOf (getW s Obj.trig u) 30 then
      emit (.pulse (fld (getW s Obj.trig u) 29 28) (bitOf (getW s Obj.trig u) 27) (fld (getW s Obj.trig u) 26 17) at64)
        (bump Obj.trigFired u 1 s) else bump Obj.trigFired u 1 s)
      = { bump Obj.trigFired u 1 s with sent := s.sent ++ firingPulse u at64 s } := by
    unfold firingPulse
    split
    · rfl
    · rw [List.append_nil]
      rfl
  unfold trigFire
  dsimp only
  rw [hsent]
  rfl

theorem trigFire_counted : getN (trigFire u at64 s) Obj.trigFired u = satN 36 (getN s Obj.trigFired u + 1) := by
  rw [trigFire_eq]
  refine (getN_congr (getE_firingDone u at64 s (by decide) u)).trans ?_
  rw [getN_bump_self, satN_eq_min]

theorem trigFire_sent : (trigFire u at64 s).sent = s.sent ++ firingPulse u at64 s := by
  rw [trigFire_eq]
  exact firingDone_sent u at64 s

variable {u s}

theorem trigFire_disarmed (h : lastFiring u s = true) : bitOf (getW (trigFire u at64 s) Obj.trig u) 35 = false := by
  have hword : getW (trigFire u at64 s) Obj.trig u = setBit (getW s Obj.trig u) 35 false := by
    rw [trigFire_eq]
    exact firingDone_disarmed u at64 s h
  rw [hword, bitOf_setBit_self _ _ (by decide)]

theorem trigFire_again (hu : u < 16) (h : lastFiring u s = false) :
    (trigU (trigFire u at64 s) u).nextFire = some (at64 + getN s Obj.trigPeriod u)
      ∧ (trigU (trigFire u at64 s) u).fired = (trigU s u).fired + 1 := by
  rw [trigFire_eq, trigU_modTrig hu, h]
  exact ⟨rfl, rfl⟩

end

/-! The internal target of a unit that fires (R168). -/

section
variable {u at64 : Nat} {s : State} (h : trigInstant u s = some at64)
include h

theorem triggerFire_eq : triggerFire u s = if trigShared u s then trigFire u at64 s
    else if fld (getW s Obj.trig u) 33 31 = 3 then hareTrigger (trigFire u at64 s)
    else if fld (getW s Obj.trig u) 33 31 = 4 then frameStart none (trigFire u at64 s)
    else trigFire u at64 s := by
  cases hshared : trigShared u s <;> simp [triggerFire, h, hshared]

/-- The target acts beside the trigger units and their objects. -/
theorem triggerFire_keeps_fired : Keeps [.dict, .ev, .nt, .hare, .insp, .cal, .sent, .free]
    [Obj.eventLost, Obj.evidLines, Obj.expActive, Obj.frameStats, Obj.noise, Obj.patternFlags, Obj.patternResult, Obj.regDiscards,
      Obj.regShift] (trigFire u at64 s) (triggerFire u s) := by
  rw [triggerFire_eq h]
  exact keeps_ite (Keeps.refl ..) (keeps_ite ((hareTrigger_keeps _).mono (by decide) (by decide))
    (keeps_ite ((frameStart_keeps ..).mono (by decide) (by decide)) (Keeps.refl ..)))

/-- Nothing but a camera frame start sends more than the pulse. -/
theorem triggerFire_sent_pulse (hq : fld (getW s Obj.trig u) 33 31 ≠ 4 ∨ trigShared u s = true) :
    (triggerFire u s).sent = (trigFire u at64 s).sent := by
  rw [triggerFire_eq h]
  split
  · rfl
  · next hown =>
    split
    · exact (hareTrigger_keeps _).areas .sent (by decide)
    · rw [if_neg (hq.resolve_right hown)]

end

theorem triggerFire_fires {t : Nat} {unit : Fin 16} {x : Nat} {s : State} (ha : awake s = true)
    (hx : trigInstant unit.val (advance t s) = some x) : Answers (.triggerFire t unit) s (fun u =>
      let w := getW s Obj.trig unit.val
      let n := (trigU s unit.val).fired + 1
      let last := fld w 16 0 ≠ 0 ∧ fld w 16 0 ≤ n
      getN u Obj.trigFired unit.val = satN 36 (getN s Obj.trigFired unit.val + 1)
        ∧ (∃ rest, ((fld w 33 31 ≠ 4 ∨ trigShared unit.val (advance t s) = true) → rest = [])
          ∧ Sends ((if bitOf w 30 then [.pulse (fld w 29 28) (bitOf w 27) (fld w 26 17) x] else []) ++ rest) s u)
        ∧ (last → bitOf (getW u Obj.trig unit.val) 35 = false)
        ∧ (¬last → (trigU u unit.val).nextFire = some (x + getN s Obj.trigPeriod unit.val) ∧ (trigU u unit.val).fired = n)) := by
  refine answers_happen (exec_triggerFire ..) ha ?_
  have hk := triggerFire_keeps_fired hx
  have hunit : trigU (settle (triggerFire unit.val (advance t s))) unit.val = trigU (trigFire unit.val x (advance t s)) unit.val := by
    rw [trigU, settle_trigs, hk.areas .trigs (by decide), trigU]
  obtain ⟨rest, hrest⟩ := hk.sent
  intro w n last
  have hlast : lastFiring unit.val (advance t s) = true ↔ last := by simp [lastFiring, trigU, last, n, w]
  rw [getN_settle (by decide), getN_congr (hk.objs (by decide) Obj.trigFired (by decide) _), trigFire_counted,
    getW_settle (by decide), getW_congr (hk.objs (by decide) Obj.trig (by decide) _), hunit, ← hlast]
  refine ⟨rfl, ⟨rest, fun hq => ?_, sends_settle ?_⟩, trigFire_disarmed x, fun hmore => ?_⟩
  · rw [triggerFire_sent_pulse hx hq] at hrest
    exact List.append_right_eq_self.mp hrest
  · rw [← hrest, trigFire_sent, List.append_assoc]
    rfl
  · exact trigFire_again x unit.isLt (Bool.eq_false_iff.mpr hmore)

/-! Capture units (R169). -/

/-- A qualifying edge counted, and recorded as MODE and VALID let it. -/
def edgeRecorded (i stamp : Nat) (s : State) : State :=
  let c := getW s Obj.capt i
  let x := setN Obj.captCount i (getN s Obj.captCount i + 1) s
  if !(bitOf c 34) && bitOf c 33 then setN Obj.capt i (setBit c 32 true).toNat x
  else setN Obj.capt i (setBit c 33 true).toNat
    (setE Obj.captPos i (posElem (posNow { x with clock := { x.clock with tick := stamp / 64 } }))
      (setE Obj.captTime i (timeElem (timeAt x stamp)) x))

section
variable (i stamp : Nat) (s : State)

theorem edgeRecorded_counted :
    getN (edgeRecorded i stamp s) Obj.captCount i = (getN s Obj.captCount i + 1) % 2 ^ 36 := by
  unfold edgeRecorded
  extract_lets c x
  have hcount : getN x Obj.captCount i = (getN s Obj.captCount i + 1) % 2 ^ 36 := getN_setN_self ..
  rw [← hcount]
  refine getN_congr ?_
  split
  · exact getE_setN_obj (by decide) ..
  · exact (getE_setN_obj (by decide) ..).trans ((getE_setE_obj (by decide) ..).trans (getE_setE_obj (by decide) ..))

variable {i stamp s}

theorem edgeRecorded_overrun (h : bitOf (getW s Obj.capt i) 34 = false ∧ bitOf (getW s Obj.capt i) 33 = true) :
    bitOf (getW (edgeRecorded i stamp s) Obj.capt i) 32 = true := by
  obtain ⟨hfirst, hvalid⟩ := h
  unfold edgeRecorded
  extract_lets c x
  rw [if_pos (by simp [c, hfirst, hvalid]), getW_setN_self, bitOf_setBit_self _ _ (by decide)]

theorem edgeRecorded_valid (h : ¬(bitOf (getW s Obj.capt i) 34 = false ∧ bitOf (getW s Obj.capt i) 33 = true)) :
    bitOf (getW (edgeRecorded i stamp s) Obj.capt i) 33 = true
      ∧ getE (edgeRecorded i stamp s) Obj.captTime i = timeElem (timeAt s stamp) := by
  have hrate (n : Nat) : timeAt (setN Obj.captCount i n s) stamp = timeAt s stamp := by
    rw [timeAt, getN_congr (getE_setN_obj (by decide) ..), timeAt, setN_clock]
  unfold edgeRecorded
  extract_lets c x
  rw [if_neg (by simpa [c] using h), getW_setN_self, bitOf_setBit_self _ _ (by decide), ← hrate]
  exact ⟨rfl, (getE_setN_obj (by decide) ..).trans ((getE_setE_obj (by decide) ..).trans (getE_setE_self ..))⟩

end

section
variable {t : Nat} {unit : Fin 8} {source : EdgeSource} {rising : Bool} {stamp : Nat} {s : State} (ha : awake s = true)
  (hon : bitOf (getW s Obj.capt unit.val) 35 = true) (hsrc : fld (getW s Obj.capt unit.val) 31 28 = source.source.val)
  (htrig : source.source.val = 6 → fld (getW s Obj.capt unit.val) 25 22 = source.trig.val)
  (hedge : (fld (getW s Obj.capt unit.val) 27 26 = if rising then 0 else 1) ∨ fld (getW s Obj.capt unit.val) 27 26 = 2)
include ha hon hsrc htrig hedge

theorem answers_qualifyingEdge {P : State → Prop} (hP : P (settle (edgeRecorded unit.val stamp (advance t s)))) :
    Answers (.captureEdge t unit source rising stamp) s P := by
  refine answers_happen (exec_captureEdge ..) ha ?_
  refine (congrArg (fun x => P (settle x)) (if_neg ?_)).mpr hP
  obtain hedge | hedge := hedge
  · cases rising <;> simpa [hon, hsrc, hedge] using htrig
  · simpa [hon, hsrc, hedge] using htrig

theorem captureEdge_taken : Answers (.captureEdge t unit source rising stamp) s (fun u =>
      getN u Obj.captCount unit.val = (getN s Obj.captCount unit.val + 1) % 2 ^ 36 ∧
      if bitOf (getW s Obj.capt unit.val) 34 = false ∧ bitOf (getW s Obj.capt unit.val) 33 = true
      then bitOf (getW u Obj.capt unit.val) 32 = true
      else bitOf (getW u Obj.capt unit.val) 33 = true ∧ getE u Obj.captTime unit.val = timeElem (timeAt (advance t s) stamp)) := by
  refine answers_qualifyingEdge ha hon hsrc htrig hedge ?_
  rw [getN_settle (by decide), edgeRecorded_counted, getW_settle (by decide), getE_settle (by decide)]
  refine ⟨rfl, ?_⟩
  split
  · next h => exact edgeRecorded_overrun h
  · next h => exact edgeRecorded_valid h

end

/-- Settles O29: one lemma for each kind of command. -/
theorem timeStepsHoldsOverAndTriggers : Obligations.TimeStepsHoldsOverAndTriggers :=
  ⟨fun _ _ _ => sourceTimeout_holdsOver, fun _ _ => holdoverReadyExpire_ends, fun _ _ => timeResync_clears,
    fun _ _ _ _ => timeNowWrite_sets, fun _ _ _ => trigEnable_arms, fun _ _ _ _ => triggerFire_fires,
    fun _ _ _ _ _ _ => captureEdge_taken⟩

end Sys2Proof.Machine
end

section
/-! PROOFS. Events stay raised through what the Web Position Unit does after them (R310, R333, R386, R387). -/

namespace Sys2Proof.Machine

open Sys2Proof

/-- READY is as it was, and every event raised before is still raised. -/
structure KeepsRaised (s u : State) : Prop where
  ready : u.pwr.ready = s.pwr.ready
  raised : s.ev.raised <+: u.ev.raised

section
variable {s x u : State}

theorem KeepsRaised.refl (s : State) : KeepsRaised s s := ⟨rfl, List.prefix_rfl⟩

theorem KeepsRaised.trans (h : KeepsRaised s x) (k : KeepsRaised x u) : KeepsRaised s u :=
  ⟨k.ready.trans h.ready, h.raised.trans k.raised⟩

/-- What leaves the events alone keeps those that are raised. -/
theorem Keeps.keepsRaised {T : List Area} {O : List Nat} (h : Keeps T O s u) (he : .ev ∉ T := by decide) :
    KeepsRaised s u := by
  obtain ⟨hev, hready⟩ := h.areas .ev he
  exact ⟨hready, hev ▸ List.prefix_rfl⟩

/-- So does what leaves them alone after a step that keeps them. -/
theorem Keeps.raisedAfter {T : List Area} {O : List Nat} (k : Keeps T O x u) (h : KeepsRaised s x)
    (he : .ev ∉ T := by decide) : KeepsRaised s u := h.trans (k.keepsRaised he)

theorem KeepsRaised.rdy_eq (h : KeepsRaised s u) (b : Nat) : rdy u b = rdy s b := by rw [rdy, rdy, h.ready]

theorem raise_keepsRaised (c : Nat) (ps : List Word) (s : State) : KeepsRaised s (raise c ps s) :=
  ⟨by rw [raise_pwr], raise_raised ..⟩

/-- An event raised after an update of neither the power state nor the events. -/
theorem keepsRaised_raise {c : Nat} {ps : List Word} (hp : x.pwr = s.pwr) (he : x.ev = s.ev) :
    KeepsRaised s (raise c ps x) :=
  KeepsRaised.trans ⟨by rw [hp], he ▸ List.prefix_rfl⟩ (raise_keepsRaised c ps x)

theorem keepsRaised_ite {p : Prop} [Decidable p] (h : KeepsRaised s x) (k : KeepsRaised s u) :
    KeepsRaised s (if p then x else u) := by
  split
  · exact h
  · exact k

theorem forEach_keepsRaised {α : Type} {f : α → State → State} (hf : ∀ a y, KeepsRaised y (f a y)) :
    ∀ (l : List α) (s : State), KeepsRaised s (forEach l f s)
  | [], s => .refl s
  | a :: l, s => (hf a s).trans (forEach_keepsRaised hf l (f a s))

/-- An event that the running firmware raises is still there after what keeps it, once READY has followed. -/
theorem raises_settle_of_keepsRaised {code : Nat} {ps : List Word} (hr : rdy s 25 = true)
    (hu : KeepsRaised (raise code ps x) u) (hx : KeepsRaised s x) : Raises code ps s (settle u) := by
  obtain ⟨new, hnew⟩ := hx.raised
  have hready : rdy x 25 = true := (hx.rdy_eq 25).trans hr
  have hlast : rdy u 25 = true := (((raise_keepsRaised code ps x).trans hu).rdy_eq 25).trans hready
  exact ((raises_raise hready ⟨new, hnew.symm⟩).mono hu.raised).settled hlast

end

/-! Committed lines that are cancelled (R310). -/

theorem freeSlot_keepsRaised (h p y : Nat) (fate : LineEnd) (cause : Nat) (s : State) :
    KeepsRaised s (freeSlot h p y fate cause s) := by
  unfold freeSlot
  extract_lets s1 s2 s3
  have h2 : KeepsRaised s s2 := (modBook_keeps ..).raisedAfter (modHead_keeps ..).keepsRaised
  have h3 : KeepsRaised s s3 := (modBook_keeps ..).raisedAfter h2
  exact keepsRaised_ite (.refl s) (keepsRaised_ite h2 (keepsRaised_ite h3
    (((modHead_keeps ..).raisedAfter h3).trans (raise_keepsRaised ..))))

theorem blankCommitted_keepsRaised (h : Nat) (c : Committed) (cause : Nat) (s : State) :
    KeepsRaised s (blankCommitted h c cause s) := by
  unfold blankCommitted bookLine
  extract_lets s1 s2 s3 s4
  have h2 : KeepsRaised s s2 := (modBook_keeps ..).raisedAfter (modHead_keeps ..).keepsRaised
  have h3 : KeepsRaised s s3 := (excludeHead_keeps ..).raisedAfter h2
  exact (modHead_keeps ..).raisedAfter (h3.trans (freeSlot_keepsRaised ..))

theorem cancelCommitted_keepsRaised (s : State) : KeepsRaised s (cancelCommitted s) := by
  refine forEach_keepsRaised (fun h x => keepsRaised_ite (.refl x) ?_) _ s
  split
  · exact .refl x
  · exact (sendHead_keeps ..).keepsRaised.trans (forEach_keepsRaised (fun c => blankCommitted_keepsRaised h c 3) _ _)

/-! A position that has moved, and a source that is lost (R333, R377, R386, R387). -/

theorem resumeAt_keepsRaised (p q : Int) (s : State) : KeepsRaised s (resumeAt p q s) := by
  unfold resumeAt
  exact keepsRaised_ite (keepsRaised_raise rfl rfl) (.refl s)

theorem posTouch_keepsRaised (s : State) : KeepsRaised s (posTouch s) := by
  unfold posTouch
  extract_lets p q old s1 s2
  have h1 : KeepsRaised s s1 := (encoutSteps_keeps ..).raisedAfter ⟨rfl, List.prefix_rfl⟩
  have h2 : KeepsRaised s s2 := keepsRaised_ite (h1.trans (cancelCommitted_keepsRaised s1)) h1
  exact keepsRaised_ite (.refl s) (((haltFlags_keeps s2).raisedAfter h2).trans (resumeAt_keepsRaised ..))

theorem holdSource_keepsRaised (cause : Nat) (s : State) : KeepsRaised s (holdSource cause s) := by
  unfold holdSource
  refine KeepsRaised.trans ?_ (cancelCommitted_keepsRaised _)
  exact keepsRaised_raise rfl rfl

theorem rideStart_keepsRaised (e : Nat) (s : State) : KeepsRaised s (rideStart e s) := by
  unfold rideStart
  exact keepsRaised_raise rfl rfl

theorem sourceLost_keepsRaised (e cause : Nat) (s : State) : KeepsRaised s (sourceLost e cause s) :=
  keepsRaised_ite (.refl s) (keepsRaised_ite (rideStart_keepsRaised e s) (holdSource_keepsRaised cause s))

/-! The words of an element that is written (R449, R453). -/

theorem flipMask_keepsRaised (m a : Nat) (s : State) : KeepsRaised s (flipMask m a s).2 := by
  unfold flipMask
  extract_lets c
  split
  · exact keepsRaised_raise rfl rfl
  · exact .refl s

theorem ramWrite_keepsRaised (d : ObjDef) (i : Nat) (e : Elem) (s : State) : KeepsRaised s (ramWrite d i e s) := by
  refine keepsRaised_ite (.refl s) (forEach_keepsRaised (fun k x => ?_) _ s)
  exact (putCell_keeps ..).raisedAfter ((dropWaiting_keeps ..).keepsRaised.trans (flipMask_keepsRaised ..))

end Sys2Proof.Machine
end

section
/-! PROOFS. Encoders (R378 to R380, R384, R386): edges counted, indexes judged, failures and recovery. -/

namespace Sys2Proof.Machine

open Sys2Proof

/-! The meanings that the commands name. -/

theorem exec_encoderEdge (t : Nat) (enc : Enc) (a b : Bool) (sample : Nat) (s : State) :
    exec (.encoderEdge t enc a b sample) s = execEncoderEdge t enc a b sample s := by rfl
theorem exec_indexPulse (t : Nat) (enc : Enc) (s : State) : exec (.indexPulse t enc) s = execIndexPulse t enc s := by rfl
theorem exec_encoderWireFault (t : Nat) (enc : Enc) (pair : Fin 3) (s : State) :
    exec (.encoderWireFault t enc pair) s = execEncoderWireFault t enc pair s := by rfl
theorem exec_encoderOverspeed (t : Nat) (enc : Enc) (together : Bool) (s : State) :
    exec (.encoderOverspeed t enc together) s = execEncoderOverspeed t enc together s := by rfl
theorem exec_encoderRecover (t : Nat) (enc : Enc) (s : State) :
    exec (.encoderRecover t enc) s = execEncoderRecover t enc s := by rfl

/-! The units. -/

theorem Keeps.encU_eq {T : List Area} {O : List Nat} {s u : State} (h : Keeps T O s u) (e : Nat)
    (he : .encs ∉ T := by decide) : encU u e = encU s e := by rw [encU, h.areas .encs he, encU]

@[simp] theorem encU_settle (s : State) (e : Nat) : encU (settle s) e = encU s e := (settle_keeps s).encU_eq e

theorem encU_modEnc {e : Nat} (he : e < 2) (f : EncUnit → EncUnit) (s : State) : encU (modEnc e f s) e = f (encU s e) := by
  rw [encU, modEnc, vget_vmod _ _ _ he, if_pos rfl, encU]

theorem encU_setEncState {e : Nat} (he : e < 2) (st : Nat) (s : State) : encU (setEncState e st s) e
    = { encU s e with state := st, overspeed := if st = 1 then false else (encU s e).overspeed } := by
  rw [setEncState]
  exact encU_modEnc he _ s

/-! Edges (R378, R381). -/

theorem encEdge_counted {e : Nat} (he : e < 2) {a b : Bool} {n : Nat} {s : State} {d : Int} (hst : (encU s e).state ≠ 0)
    (hd : edgeCount (fld (encU s e).cfg 34 33) (encU s e).a (encU s e).b a b = some d) :
    encU (encEdge e a b n s) e =
      let d' := if bitOf (encU s e).cfg 32 then -d else d
      { encU s e with
        a := a, b := b, count := sgn 36 (pat 36 ((encU s e).count + d')), newest := n, dir := d', edges := true
        period := if (encU s e).edges && (encU s e).dir == d' then n - (encU s e).newest.toNat else 0 } := by
  simp only [encEdge, if_neg hst, hd, encU_modEnc he]

theorem encoderEdge_counts {t : Nat} {e : Enc} {a b : Bool} {n : Nat} {s : State} {d : Int} (ha : awake s = true)
    (hfree : bitOf (getW s Obj.funcReset 0) (13 + e.val) = false) (hst : (encU s e.val).state ≠ 0)
    (hd : edgeCount (fld (encU s e.val).cfg 34 33) (encU s e.val).a (encU s e.val).b a b = some d) :
    Answers (.encoderEdge t e a b n) s (fun u =>
      let d' := if bitOf (encU s e.val).cfg 32 then -d else d
      (encU u e.val).count = sgn 36 (pat 36 ((encU s e.val).count + d')) ∧ (encU u e.val).newest = n ∧ (encU u e.val).dir = d'
        ∧ (encU u e.val).a = a ∧ (encU u e.val).b = b ∧ (encU u e.val).state = (encU s e.val).state) := by
  refine answers_happen (exec_encoderEdge ..) ha ?_
  have hheld : ¬ encHeld (advance t s) e.val = true := Bool.eq_false_iff.mp hfree
  rw [if_neg hheld, encU_settle, (posTouch_keeps _).encU_eq, (encoutRepeat_keeps ..).encU_eq, (xingCount_keeps ..).encU_eq,
    encEdge_counted (s := advance t s) e.isLt hst hd]
  exact ⟨rfl, rfl, rfl, rfl, rfl, rfl⟩

/-! Indexes (R384). -/

/-- Encoder e judges its index: it is checked, OK and has not moved backward, and pair Z has no fault (R384). -/
structure JudgesIndex (e : Nat) (s : State) : Prop where
  checked : fld (getW s Obj.indexCfg e) 35 34 ≠ 0
  ok : (encU s e).state = 1
  forward : 0 ≤ (encU s e).dir
  sound : nbit (encU s e).wires.toNat 2 = false

theorem JudgesIndex.at_tick {e : Nat} {s : State} (hj : JudgesIndex e s) (t : Nat) : JudgesIndex e (advance t s) :=
  ⟨hj.checked, hj.ok, hj.forward, hj.sound⟩

section
variable {e : Nat} {s : State} (hj : JudgesIndex e s)
include hj

theorem judgeIndex_first (href : (encU s e).indexRef = none) :
    judgeIndex e s = modEnc e (fun u => { u with indexRef := some u.count }) s := by
  obtain ⟨hchecked, hok, hforward, hsound⟩ := hj
  simp [judgeIndex, hchecked, hok, Int.not_lt.mpr hforward, hsound, href]

theorem judgeIndex_outOfWindow {cref : Int} (href : (encU s e).indexRef = some cref)
    (hout : let n : Int := fld (getW s Obj.indexCfg e) 25 0
      let k := Int.fdiv ((encU s e).count - cref + Int.fdiv n 2) n
      k < 1 ∨ fld (getW s Obj.indexCfg e) 33 26 < ((encU s e).count - cref - k * n).natAbs) :
    judgeIndex e s =
      let n : Int := fld (getW s Obj.indexCfg e) 25 0
      let k := Int.fdiv ((encU s e).count - cref + Int.fdiv n 2) n
      raise 0x0C002 [p9 e, pInt ((encU s e).count - cref - k * n)] s := by
  obtain ⟨hchecked, hok, hforward, hsound⟩ := hj
  extract_lets n k at hout
  show judgeIndex e s = raise 0x0C002 [p9 e, pInt ((encU s e).count - cref - k * n)] s
  have hcond : (decide (k ≥ 1)
      && decide (((encU s e).count - cref - k * n).natAbs ≤ fld (getW s Obj.indexCfg e) 33 26)) = false := by
    rw [Bool.and_eq_false_iff, decide_eq_false_iff_not, decide_eq_false_iff_not]
    exact hout.imp Int.not_le.mpr Nat.not_le.mpr
  unfold judgeIndex
  simp only [hchecked, hok, Int.not_lt.mpr hforward, hsound, href, decide_false, bne_self_eq_false, Bool.or_false,
    Bool.false_eq_true, if_false]
  rw [if_neg (by rw [hcond]; decide)]

end

section
variable {t : Nat} {e : Enc} {s : State} (ha : awake s = true)
  (hfree : bitOf (getW s Obj.funcReset 0) (13 + e.val) = false)
include ha hfree

theorem answers_indexPulse {P : State → Prop}
    (hP : P (settle (posTouch (encoutRepeat e.val true (judgeIndex e.val (advance t s)))))) :
    Answers (.indexPulse t e) s P := by
  refine answers_happen (exec_indexPulse ..) ha ?_
  have hheld : ¬ encHeld (advance t s) e.val = true := Bool.eq_false_iff.mp hfree
  rw [if_neg hheld]
  exact hP

variable (hj : JudgesIndex e.val s)
include hj

theorem indexPulse_first (href : (encU s e.val).indexRef = none) : Answers (.indexPulse t e) s (fun u =>
    (encU u e.val).indexRef = some (encU s e.val).count ∧ (encU u e.val).count = (encU s e.val).count) := by
  refine answers_indexPulse ha hfree ?_
  rw [encU_settle, (posTouch_keeps _).encU_eq, (encoutRepeat_keeps ..).encU_eq, judgeIndex_first (hj.at_tick t) href,
    encU_modEnc e.isLt]
  exact ⟨rfl, rfl⟩

theorem indexPulse_outOfWindow {cref : Int} (href : (encU s e.val).indexRef = some cref) (hr : rdy s 25 = true) :
    let n : Int := fld (getW s Obj.indexCfg e.val) 25 0
    let diff := (encU s e.val).count - cref
    let k := Int.fdiv (diff + Int.fdiv n 2) n
    (k < 1 ∨ fld (getW s Obj.indexCfg e.val) 33 26 < (diff - k * n).natAbs) → Answers (.indexPulse t e) s (fun u =>
      (encU u e.val).indexRef = some cref ∧ Raises 0x0C002 [p9 e.val, pInt (diff - k * n)] s u) := by
  intro n diff k hout
  refine answers_indexPulse ha hfree ?_
  rw [judgeIndex_outOfWindow (hj.at_tick t) href hout]
  refine ⟨?_, raises_settle_of_keepsRaised hr
    ((encoutRepeat_keeps ..).keepsRaised.trans (posTouch_keepsRaised _)) ⟨rfl, List.prefix_rfl⟩⟩
  rw [encU_settle, (posTouch_keeps _).encU_eq, (encoutRepeat_keeps ..).encU_eq, encU, raise_encs]
  exact href

end

/-! Failures (R379, R380, R386). -/

/-- A source that is lost is held, or Hare rides through (R386, R387). -/
theorem sourceLost_srcState (e cause : Nat) (s : State) : (sourceLost e cause s).pos.srcState
    = if s.pos.source = e ∧ s.pos.srcState = 0
      then if getN s Obj.fallback 0 = 1 && pageInProgress s && rdy s 15 then 1 else 2
      else s.pos.srcState := by
  have hride : (rideStart e s).pos.srcState = 1 := by simp only [rideStart, raise_pos, loadHare]
  have hhold : (holdSource cause s).pos.srcState = 2 := by
    rw [holdSource, (cancelCommitted_keeps _).areas .pos (by decide), raise_pos]
  unfold sourceLost
  by_cases hin : s.pos.source = e ∧ s.pos.srcState = 0
  · rw [if_pos hin, if_neg (by simp [hin])]
    split
    · exact hride
    · exact hhold
  · rw [if_neg hin, if_pos (by simpa [Classical.or_iff_not_imp_left] using hin)]

/-- An encoder that is OK fails, whatever has been noted of its fault before. -/
theorem answers_encoderFails {c : Instr} {t code : Nat} {e : Enc} {what : Word} {s : State} {g : State → State}
    {f : EncUnit → EncUnit} (hx : exec c s = happen t g s)
    (hg : g (advance t s) = encFail e.val code [p9 e.val, what] (modEnc e.val f (advance t s)))
    (hf : ∀ u, (f u).state = u.state) (ha : awake s = true) (hr : rdy s 25 = true) (hok : (encU s e.val).state = 1) :
    Answers c s (fun u => (encU u e.val).state = 2 ∧ Raises code [p9 e.val, what] s u
      ∧ (s.pos.source = e.val → s.pos.srcState = 0 →
        u.pos.srcState = if getN s Obj.fallback 0 = 1 && pageInProgress s && rdy s 15 then 1 else 2)
      ∧ (s.pos.source ≠ e.val → u.pos.srcState = s.pos.srcState)) := by
  have hstate : (encU (modEnc e.val f (advance t s)) e.val).state = 1 := by
    rw [encU_modEnc e.isLt, hf]
    exact hok
  refine answers_happen hx ha ?_
  rw [hg, encFail, if_pos hstate]
  refine ⟨?_, raises_settle_of_keepsRaised hr (sourceLost_keepsRaised ..) ⟨rfl, List.prefix_rfl⟩, ?_⟩
  · rw [encU_settle, (sourceLost_keeps ..).encU_eq, encU, raise_encs, ← encU, encU_setEncState e.isLt]
  · have hfallback : getN (raise code [p9 e.val, what] (setEncState e.val 2 (modEnc e.val f (advance t s)))) Obj.fallback 0
        = getN s Obj.fallback 0 := getN_congr (getE_raise (by decide) ..)
    rw [settle_pos, sourceLost_srcState, hfallback, pageInProgress, rdy, raise_pos, raise_pages, raise_pwr]
    exact ⟨fun hsrc h0 => if_pos ⟨hsrc, h0⟩, fun hsrc => if_neg fun h => hsrc h.1⟩

theorem encoderFault_fails {t : Nat} {e : Enc} {c : Instr} {code : Nat} {what : Word} {s : State} (ha : awake s = true)
    (hr : rdy s 25 = true) (hok : (encU s e.val).state = 1)
    (hc : (∃ pair : Fin 3, pair.val < 2 ∧ c = .encoderWireFault t e pair ∧ code = 0x0C001 ∧ what = wd pair.val)
      ∨ (∃ together, c = .encoderOverspeed t e together ∧ code = 0x0C004 ∧ what = wd (if together then 2 else 1))) :
    Answers c s (fun u => (encU u e.val).state = 2 ∧ Raises code [p9 e.val, what] s u
      ∧ (s.pos.source = e.val → s.pos.srcState = 0 →
        u.pos.srcState = if getN s Obj.fallback 0 = 1 && pageInProgress s && rdy s 15 then 1 else 2)
      ∧ (s.pos.source ≠ e.val → u.pos.srcState = s.pos.srcState)) := by
  have hon : ¬ (encU (advance t s) e.val).state = 0 := fun h => absurd (hok.symm.trans h) (by decide)
  obtain ⟨pair, hpair, rfl, rfl, rfl⟩ | ⟨together, rfl, rfl, rfl⟩ := hc
  · refine answers_encoderFails (exec_encoderWireFault ..)
      (f := fun u => { u with wires := u.wires ||| BitVec.ofNat 3 (2 ^ pair.val) }) ?_ (fun _ => rfl) ha hr hok
    rw [if_neg hon, if_neg (Nat.ne_of_lt hpair)]
  · exact answers_encoderFails (exec_encoderOverspeed ..) (f := fun u => { u with overspeed := true })
      (if_neg hon) (fun _ => rfl) ha hr hok

/-- A fault of pair Z is an event and leaves the state (R379). -/
theorem encoderWireFault_pairZ {t : Nat} {e : Enc} {s : State} (ha : awake s = true) (hr : rdy s 25 = true)
    (hst : (encU s e.val).state ≠ 0) : Answers (.encoderWireFault t e 2) s (fun u =>
      (encU u e.val).state = (encU s e.val).state ∧ nbit (encU u e.val).wires.toNat 2 = true
        ∧ Raises 0x0C001 [p9 e.val, wd 2] s u) := by
  refine answers_happen (exec_encoderWireFault ..) ha ?_
  have hon : ¬ (encU (advance t s) e.val).state = 0 := hst
  rw [if_neg hon]
  simp only [Fin.val_two, if_true]
  have hz (w : BitVec 3) : nbit (w ||| BitVec.ofNat 3 (2 ^ 2)).toNat 2 = true := by
    show (w ||| 4#3).getLsbD 2 = true
    simp
  rw [encU_settle, encU, raise_encs, ← encU, encU_modEnc e.isLt]
  exact ⟨rfl, hz _, raises_settle_raise hr rfl⟩

/-! Recovery (R380). -/

theorem encoderRecover_failed {t : Nat} {e : Enc} {s : State} (ha : awake s = true) (hst : (encU s e.val).state = 2)
    (hfree : bitOf (getW s Obj.funcReset 0) (13 + e.val) = false) : Answers (.encoderRecover t e) s (fun u =>
      (encU u e.val).state = 3 ∧ (encU u e.val).wires = (encU s e.val).wires &&& 4) := by
  refine answers_happen (exec_encoderRecover ..) ha ?_
  extract_lets failed x
  have hfailed : failed = true := decide_eq_true hst
  have hheld : encHeld x e.val = false := hfree
  rw [hfailed, hheld, Bool.not_false, Bool.and_self, if_pos rfl, encU_settle, encU_setEncState e.isLt, encU_modEnc e.isLt, hfailed]
  exact ⟨rfl, rfl⟩

theorem encoderRecover_other {t : Nat} {e : Enc} {s : State} (ha : awake s = true) (hst : (encU s e.val).state ≠ 2) :
    Answers (.encoderRecover t e) s (fun u =>
      (encU u e.val).state = (encU s e.val).state ∧ (encU u e.val).wires = (encU s e.val).wires &&& 3) := by
  refine answers_happen (exec_encoderRecover ..) ha ?_
  extract_lets failed x
  have hfailed : failed = false := decide_eq_false hst
  rw [hfailed, Bool.false_and, if_neg Bool.false_ne_true, encU_settle, encU_modEnc e.isLt, hfailed]
  exact ⟨rfl, rfl⟩

end Sys2Proof.Machine
end

section
/-! PROOFS. Positions and latches (R305, R376, R382, R388): what a position reads, what a preset sets, what a latch pairs. -/

namespace Sys2Proof.Machine

open Sys2Proof

theorem exec_positionLatch (t : Nat) (s : State) : exec (.positionLatch t) s = execPositionLatch t s := by rfl

/-! The position as it reads (R376, R382). -/

theorem posNow_congr {s u : State} (hpos : u.pos = s.pos) (hencs : u.encs = s.encs) (hhare : u.hare = s.hare)
    (hclock : u.clock = s.clock) : posNow u = posNow s := by
  simp only [posNow, sourcePos, encU, hpos, hencs, hhare, hclock]

theorem Keeps.posNow_eq {T : List Area} {O : List Nat} {s u : State} (h : Keeps T O s u) (hpos : .pos ∉ T := by decide)
    (hencs : .encs ∉ T := by decide) (hhare : .hare ∉ T := by decide) (hclock : .clock ∉ T := by decide) :
    posNow u = posNow s :=
  posNow_congr (h.areas .pos hpos) (h.areas .encs hencs) (h.areas .hare hhare) (h.areas .clock hclock)

@[simp] theorem posNow_settle (s : State) : posNow (settle s) = posNow s := (settle_keeps s).posNow_eq

/-- A position that has not changed touches nothing. -/
theorem posTouch_still {s : State} (h : s.pos.last = posNow s) : posTouch s = s := if_pos h

theorem posSet_preset (s : State) : (posSet s).pos.preset = s.pos.preset := rfl
theorem posSet_source (s : State) : (posSet s).pos.source = s.pos.source := rfl
theorem posSet_dead (s : State) (e : Nat) : encDead (posSet s) e = encDead s e := rfl

theorem encoutSteps_pos (p q : Int) (s : State) :
    ∃ out, (encoutSteps p q s).pos = { s.pos with encout := out } := by
  unfold encoutSteps
  split
  · exact ⟨_, rfl⟩
  · extract_lets d ph n first free
    split
    · exact ⟨_, rfl⟩
    · exact ⟨_, rfl⟩

/-- Beside the last position, the direction and the ENCOUT steps, the unit is as it was. -/
theorem posTouch_pos (s : State) : ∃ last backward out,
    (posTouch s).pos = { s.pos with last := last, backward := backward, encout := out } := by
  unfold posTouch
  extract_lets p q old s1 s2
  split
  · exact ⟨_, _, _, rfl⟩
  · obtain ⟨out, h1⟩ := encoutSteps_pos p q { s with pos := { s.pos with last := q, backward := decide (q < p) } }
    have h2 : s2.pos = s1.pos := by
      unfold s2
      split
      · exact (cancelCommitted_keeps s1).areas .pos (by decide)
      · rfl
    refine ⟨q, decide (q < p), out, ?_⟩
    rw [(resumeAt_keeps ..).areas .pos (by decide), (haltFlags_keeps _).areas .pos (by decide), h2]
    exact h1

/-! Encoders that are given a position (R382, R385, R388). -/

/-- P_ref and F_ref are set so that the encoder reads p: no count has come since F_ref, and the correction in force is
taken out of P_ref (R382, R385). -/
theorem encPosAt_refEnc {e : Nat} (he : e < 2) (p : Int) (s : State) :
    encPosAt (encU (refEnc e p s) e) s.clock.tick = p := by
  rw [refEnc, encU_modEnc he]
  generalize encU s e = u
  extract_lets n c at0
  have hraw (r : EncUnit) (hr : encFine r n = r.fRef) (hp : r.pRef = at0) : encRaw r n = at0 := by
    rw [encRaw, hr, hp, Int.sub_self, Int.zero_mul]
    exact Int.add_zero at0
  have hcorr : encCorr { u with pRef := at0, fRef := encFine u n
                                corrNow := u.corrNow.map (fun d => (d.1, d.2 + (at0 - encRaw u n))) } at0 = c := by
    unfold c encCorr
    cases u.corrNow with
    | none => rfl
    | some d =>
      have htravel : at0 - (d.2 + (at0 - encRaw u n)) = encRaw u n - d.2 := by omega
      simp only [Option.map_some, htravel]
  have hsum : at0 + c = p := Int.sub_add_cancel p c
  rw [encPosAt, hraw _ rfl rfl, hcorr, hsum]

/-- A change that leaves an encoder's state leaves every encoder's. -/
theorem modEnc_state {f : EncUnit → EncUnit} (hf : ∀ u, (f u).state = u.state) (k e : Nat) (s : State) :
    (encU (modEnc k f s) e).state = (encU s e).state := by
  by_cases hk : k < 2
  · by_cases hke : k = e
    · subst hke
      rw [encU_modEnc hk, hf]
    · rw [encU, modEnc, vget_vmod_other _ _ _ hke, encU]
  · rw [modEnc, vmod, dif_neg hk]

theorem encU_setI (id i : Nat) (n : Int) (s : State) (e : Nat) : encU (setI id i n s) e = encU s e := rfl

theorem finishCorr_state (k e : Nat) (s : State) : (encU (finishCorr k s) e).state = (encU s e).state := by
  unfold finishCorr
  extract_lets u raw
  split
  · split
    · rw [encU_setI, modEnc_state]
      exact fun _ => rfl
    · rfl
  · rfl

theorem encTake_state (k e : Nat) (s : State) : (encU (encTake k s) e).state = (encU s e).state := by
  unfold encTake
  extract_lets u cfg sc x
  have hx : (encU x e).state = (encU s e).state := by
    unfold x refEnc
    rw [modEnc_state]
    exact fun _ => rfl
  split
  · rfl
  · rw [modEnc_state, hx]
    exact fun _ => rfl

/-! Presets (R388). -/

/-- The active source has taken the preset position q, its head-lines not looked at yet. -/
def presetTaken (q : Int) (s : State) : State :=
  let s := { s with pos := { s.pos with preset := none } }
  let src := s.pos.source
  if src = 2 then loadHare q s.clock.tick s.hare.v { s with pos := { s.pos with srcState := 0 } }
  else if !(encDead s src) then setEncState src 1 (refEnc src q { s with pos := { s.pos with srcState := 0 } })
  else { s with pos := { s.pos with srcState := 2, held := q } }

theorem presetNow_some {q : Int} {s : State} (h : s.pos.preset = some q) :
    presetNow s = passBy q (posSet (presetTaken q s)) := by
  unfold presetNow
  rw [h]
  rfl

theorem presetTaken_preset (q : Int) (s : State) : (presetTaken q s).pos.preset = none := by
  unfold presetTaken
  extract_lets p x src
  split
  · rfl
  · split
    · rw [(setEncState_keeps ..).areas .pos (by decide), (refEnc_keeps ..).areas .pos (by decide)]
    · rfl

theorem presetNow_preset (s : State) : (presetNow s).pos.preset = none := by
  cases h : s.pos.preset with
  | none => rw [presetNow, h, h]
  | some q =>
    rw [presetNow_some h, (passBy_keeps ..).areas .pos (by decide)]
    exact presetTaken_preset q s

/-- The active source, an encoder that has just been set to q and counts as referenced, reads q. -/
theorem posNow_referenced {e : Nat} (he : e < 2) {q : Int} {s : State} (hsrc : s.pos.source = e) (hst : s.pos.srcState = 0) :
    posNow (posSet (setEncState e 1 (refEnc e q s))) = wrapPos q := by
  have hread : encPosAt (encU (setEncState e 1 (refEnc e q s)) e) s.clock.tick = q := by
    rw [encU_setEncState he]
    exact encPosAt_refEnc he q s
  have hsource : sourcePos (setEncState e 1 (refEnc e q s)) s.pos.source = q := by
    rw [hsrc, sourcePos, if_neg (Nat.ne_of_lt he)]
    exact hread
  show wrapPos (if s.pos.srcState = 0 then sourcePos (setEncState e 1 (refEnc e q s)) s.pos.source else _) = _
  rw [if_pos hst, hsource]

section
variable {e : Nat} {q : Int} {s : State} (he : e < 2) (hsrc : s.pos.source = e) (hlive : encDead s e = false)
include he hsrc hlive

theorem presetTaken_encoder : presetTaken q s
    = setEncState e 1 (refEnc e q { s with pos := { s.pos with preset := none, srcState := 0 } }) := by
  subst hsrc
  have hlive' (p : Pos) : encDead { s with pos := p } s.pos.source = false := hlive
  unfold presetTaken
  dsimp only
  rw [if_neg (Nat.ne_of_lt he), hlive', Bool.not_false, if_pos rfl]

/-- A preset of an encoder that works makes it read the position, OK and referenced (R388). -/
theorem presetNow_encoder (hq : s.pos.preset = some q) : posNow (presetNow s) = wrapPos q
    ∧ (encU (presetNow s) e).state = 1 ∧ (presetNow s).pos.srcState = 0 := by
  rw [presetNow_some hq, (passBy_keeps ..).posNow_eq, (passBy_keeps ..).encU_eq, (passBy_keeps ..).areas .pos (by decide),
    (posSet_keeps _).encU_eq, presetTaken_encoder he hsrc hlive]
  exact ⟨posNow_referenced he hsrc rfl, by rw [encU_setEncState he], rfl⟩

end

/-! Latches (R305, R376). -/

theorem adoptSource_same {s : State} (h : getN s Obj.posSource 0 = s.pos.source) : adoptSource s = s := if_pos h

/-- What a latch does first: corrections, the position moved, fields of the encoders. -/
def latchMoved (s : State) : State := forEach [0, 1] encTake (posTouch (forEach [0, 1] finishCorr s))

/-- What a latch does before a preset: then a new source adopts the position. -/
def latchReady (s : State) : State := posSet (adoptSource (latchMoved s))

theorem latch_eq (s : State) : latch s = (fun x => { x with fire := { x.fire with
    latches := ((posNow x, x.clock.tick) :: x.fire.latches).take 257 } }) (presetNow (latchReady s)) := by
  unfold latch latchReady latchMoved
  rfl

theorem latch_keeps_presetNow (s : State) : Keeps [.fire] [] (presetNow (latchReady s)) (latch s) := by
  rw [latch_eq]
  exact keeps_fire (by decide) (Keeps.refl ..)

section
variable (s : State)

theorem corrections_keeps : Keeps [.encs] [Obj.indexCorr] s (forEach [0, 1] finishCorr s) :=
  keeps_forEach (fun k y h => h.trans (finishCorr_keeps k y)) (Keeps.refl ..)

theorem fieldsTaken_keeps : Keeps [.encs] [] s (forEach [0, 1] encTake s) :=
  keeps_forEach (fun k y h => h.trans (encTake_keeps k y)) (Keeps.refl ..)

theorem latchMoved_keeps : Keeps [.ev, .fire, .links, .encs, .pos, .insp, .sent]
    [Obj.encoutOverruns, Obj.eventLost, Obj.indexCorr] s (latchMoved s) :=
  (fieldsTaken_keeps _).step (by decide) (by decide) ((posTouch_keeps _).step (by decide) (by decide)
    ((corrections_keeps s).mono (by decide) (by decide)))

theorem latchMoved_pos : ∃ last backward out,
    (latchMoved s).pos = { s.pos with last := last, backward := backward, encout := out } := by
  obtain ⟨last, backward, out, h⟩ := posTouch_pos (forEach [0, 1] finishCorr s)
  refine ⟨last, backward, out, ?_⟩
  rw [latchMoved, (fieldsTaken_keeps _).areas .pos (by decide), h, (corrections_keeps s).areas .pos (by decide)]

theorem latchMoved_state (e : Nat) : (encU (latchMoved s) e).state = (encU s e).state := by
  have htaken (x : State) : (encU (forEach [0, 1] encTake x) e).state = (encU x e).state :=
    forEach_keeps (fun x => (encU x e).state) encTake (fun k x => encTake_state k e x) _ x
  have hdone : (encU (forEach [0, 1] finishCorr s) e).state = (encU s e).state :=
    forEach_keeps (fun x => (encU x e).state) finishCorr (fun k x => finishCorr_state k e x) _ s
  rw [latchMoved, htaken, (posTouch_keeps _).encU_eq, hdone]

theorem latchMoved_dead (e : Nat) : encDead (latchMoved s) e = encDead s e := by
  rw [encDead, encHeld, latchMoved_state, getW_congr ((latchMoved_keeps s).objs (by decide) Obj.funcReset (by decide) 0)]
  rfl

end

/-- With no other source chosen, a latch comes to its preset with the source and the preset as they were. -/
theorem latchReady_of_sameSource {s : State} (h : getN s Obj.posSource 0 = s.pos.source) :
    (latchReady s).pos.preset = s.pos.preset ∧ (latchReady s).pos.source = s.pos.source
      ∧ ∀ e, encDead (latchReady s) e = encDead s e := by
  obtain ⟨last, backward, out, hpos⟩ := latchMoved_pos s
  have hsame : getN (latchMoved s) Obj.posSource 0 = (latchMoved s).pos.source := by
    rw [getN_congr ((latchMoved_keeps s).objs (by decide) Obj.posSource (by decide) 0), h, hpos]
  have hready : latchReady s = posSet (latchMoved s) := by rw [latchReady, adoptSource_same hsame]
  have hpreset : (latchMoved s).pos.preset = s.pos.preset := by rw [hpos]
  have hsource : (latchMoved s).pos.source = s.pos.source := by rw [hpos]
  rw [hready, posSet_preset, posSet_source]
  exact ⟨hpreset, hsource, fun e => (posSet_dead _ e).trans (latchMoved_dead s e)⟩

theorem encDead_eq_false {s : State} {e : Nat} (hst : (encU s e).state = 1 ∨ (encU s e).state = 3)
    (hfree : bitOf (getW s Obj.funcReset 0) (13 + e) = false) : encDead s e = false := by
  obtain hst | hst := hst <;> simp [encDead, encHeld, hst, hfree]

theorem positionLatch_pairs {t : Nat} {s : State} (ha : awake s = true) : Answers (.positionLatch t) s (fun u =>
      u.fire.latches.head? = some (posNow u, max s.clock.tick t) ∧ u.fire.latches.length ≤ 257 ∧ u.pos.preset = none
        ∧ (∀ (e : Enc) q, s.pos.preset = some q → s.pos.source = e.val → getN s Obj.posSource 0 = e.val →
          ((encU s e.val).state = 1 ∨ (encU s e.val).state = 3) → bitOf (getW s Obj.funcReset 0) (13 + e.val) = false →
          posNow u = wrapPos q ∧ (encU u e.val).state = 1 ∧ u.pos.srcState = 0)) := by
  refine answers_happen (exec_positionLatch ..) ha ?_
  have hlast := latch_keeps_presetNow (advance t s)
  have htick : (presetNow (latchReady (advance t s))).clock.tick = max s.clock.tick t :=
    hlast.tick.symm.trans ((latch_keeps _).tick.trans (advance_tick t s))
  have hlatches : (latch (advance t s)).fire.latches = ((posNow (latch (advance t s)), max s.clock.tick t)
      :: (presetNow (latchReady (advance t s))).fire.latches).take 257 := by
    rw [hlast.posNow_eq, ← htick, latch_eq]
  rw [settle_fire, posNow_settle, settle_pos, hlatches, hlast.areas .pos (by decide)]
  refine ⟨rfl, List.length_take_le .., presetNow_preset _, fun e q hq hsrc hobj hst hfree => ?_⟩
  obtain ⟨hpreset, hsource, hdead⟩ := latchReady_of_sameSource (s := advance t s) (hobj.trans hsrc.symm)
  rw [encU_settle, hlast.posNow_eq, hlast.encU_eq]
  exact presetNow_encoder e.isLt (hsource.trans hsrc) ((hdead e.val).trans (encDead_eq_false hst hfree)) (hpreset.trans hq)

end Sys2Proof.Machine
end

section
/-! PROOFS. The position's settings and the compare units (R376, R388 to R392): accepted writes, arming and firing. -/

namespace Sys2Proof.Machine

open Sys2Proof

theorem exec_posSourceWrite (t : Nat) (v : Word) (s : State) :
    exec (.posSourceWrite t v) s = execPosSourceWrite t v s := by rfl
theorem exec_posPreset (t : Nat) (w0 w1 : Word) (s : State) :
    exec (.posPreset t w0 w1) s = execPosPreset t w0 w1 s := by rfl
theorem exec_cmpArm (t : Nat) (unit : Fin 8) (v : Word) (s : State) :
    exec (.cmpArm t unit v) s = execCmpArm t unit v s := by rfl
theorem exec_cmpFire (t : Nat) (unit : Fin 8) (s : State) : exec (.cmpFire t unit) s = execCmpFire t unit s := by rfl

/-! Accepted writes of POS_SOURCE and POS_PRESET (R376, R388). -/

theorem posSourceWrite_sets {t : Nat} {v : Word} {s : State} (hw : Works s)
    (ha : Accepted Obj.posSource 0 [v] (advance t s)) :
    Answers (.posSourceWrite t v) s (fun u => getW u Obj.posSource 0 = v ∧ u.pos = s.pos) := by
  refine answers_accepted (exec_posSourceWrite ..) hw ha rfl rfl rfl
    (g := setE Obj.posSource 0 (maskElem _ (BitVec.ofNat 72 v.toNat))) (fun _ => rfl)
    (fun x => keeps_setE (T := []) (O := [Obj.posSource]) (by decide) (Keeps.refl ..)) (by decide) fun x hx => ?_
  rw [getW_settle (by decide), getW_emit, getW, getE_setE_self, settle_pos, emit_pos, setE_pos]
  exact ⟨elemLo_maskElem (by decide) rfl v, hx.areas .pos (by decide)⟩

theorem posPreset_waits {t : Nat} {w0 w1 : Word} {s : State} (hw : Works s)
    (ha : Accepted Obj.posPreset 0 [w0, w1] (advance t s)) : Answers (.posPreset t w0 w1) s (fun u =>
      u.pos = { s.pos with preset := some (elemPos (pairElem w0 w1)) }) := by
  refine answers_accepted (exec_posPreset ..) hw ha rfl rfl rfl
    (g := fun x => { x with pos := { x.pos with preset := some (elemPos (pairElem w0 w1)) } }) (fun _ => rfl)
    (fun x => keeps_pos (T := [.pos]) (O := []) (by decide) (Keeps.refl ..)) (by decide) fun x hx => ?_
  rw [settle_pos, emit_pos, hx.areas .pos (by decide)]
  rfl

/-! Positions as elements (R10). -/

theorem elemHi_pairElem (w0 w1 : Word) : elemHi (pairElem w0 w1) = w0 := by
  have h0 := w0.isLt
  have h1 := w1.isLt
  apply BitVec.eq_of_toNat_eq
  simp only [elemHi, pairElem, el, wd, BitVec.toNat_ofNat]
  omega

theorem elemLo_pairElem (w0 w1 : Word) : elemLo (pairElem w0 w1) = w1 := by
  have h0 := w0.isLt
  have h1 := w1.isLt
  apply BitVec.eq_of_toNat_eq
  simp only [elemLo, pairElem, el, wd, BitVec.toNat_ofNat]
  omega

theorem wrapPos_range (p : Int) : -2 ^ 47 ≤ wrapPos p ∧ wrapPos p < 2 ^ 47 := by
  have hpat : pat 48 p < 2 ^ 48 := by unfold pat; omega
  unfold wrapPos sgn
  rw [Nat.mod_eq_of_lt hpat]
  split <;> omega

/-- A position of 48 bits reads back (R10). -/
theorem elemPos_posElem {p : Int} (hlo : -2 ^ 47 ≤ p) (hhi : p < 2 ^ 47) : elemPos (posElem p) = p := by
  have hlines : Int.fdiv p 4096 = p / 4096 := Int.fdiv_eq_ediv_of_nonneg p (by decide)
  have hhigh : sgn 36 (ws (Int.fdiv p 4096)).toNat = p / 4096 := by
    rw [hlines]
    exact sgn_ws (by omega) (by omega)
  have hlow : ((wd (pat 12 p)).toNat % 4096 : Nat) = p % 4096 := by
    simp only [wd, BitVec.toNat_ofNat, pat]
    omega
  rw [elemPos, posElem, elemHi_pairElem, elemLo_pairElem, hhigh, hlow]
  omega

theorem getPos_setE_self (id i : Nat) (p : Int) (s : State) :
    getPos (setE id i (posElem (wrapPos p)) s) id i = wrapPos p := by
  obtain ⟨hlo, hhi⟩ := wrapPos_range p
  rw [getPos, getE_setE_self, elemPos_posElem hlo hhi]

theorem getPos_congr {s u : State} {id i : Nat} (h : getE u id i = getE s id i) : getPos u id i = getPos s id i := by
  rw [getPos, h, getPos]

/-! The units. -/

theorem Keeps.cmpU_eq {T : List Area} {O : List Nat} {s u : State} (h : Keeps T O s u) (i : Nat)
    (hc : .cmps ∉ T := by decide) : cmpU u i = cmpU s i := by rw [cmpU, h.areas .cmps hc, cmpU]

@[simp] theorem cmpU_settle (s : State) (i : Nat) : cmpU (settle s) i = cmpU s i := (settle_keeps s).cmpU_eq i
theorem cmpU_emit (x : Sent) (s : State) (i : Nat) : cmpU (emit x s) i = cmpU s i := rfl
theorem cmpU_setN (id j n : Nat) (s : State) (i : Nat) : cmpU (setN id j n s) i = cmpU s i := rfl

theorem cmpU_modCmp {i : Nat} (hi : i < 8) (f : CmpUnit → CmpUnit) (s : State) : cmpU (modCmp i f s) i = f (cmpU s i) := by
  rw [cmpU, modCmp, vget_vmod _ _ _ hi, if_pos rfl, cmpU]

/-! Arming (R389, R392). -/

/-- V lies ahead of the position, in the direction in which the web last moved (R389). -/
def valueAhead (i : Nat) (s : State) : Prop :=
  if s.pos.backward then getPos s Obj.cmpPos i < posNow s else posNow s < getPos s Obj.cmpPos i

section
variable {i : Nat} {s : State}

theorem cmpArmNow_paged (h : bitOf (getW s Obj.cmp i) 33 = true) :
    cmpArmNow i s = modCmp i (fun u => { u with armedBack := false, behind := false }) s := by
  simp [cmpArmNow, h]

theorem valueAhead_iff : valueAhead i s ↔ (if s.pos.backward then decide (getPos s Obj.cmpPos i < posNow s)
    else decide (posNow s < getPos s Obj.cmpPos i)) = true := by
  unfold valueAhead
  split
  · exact decide_eq_true_iff.symm
  · exact decide_eq_true_iff.symm

variable (h : bitOf (getW s Obj.cmp i) 33 = false)
include h

theorem cmpArmNow_ahead (ha : valueAhead i s) :
    cmpArmNow i s = modCmp i (fun u => { u with armedBack := s.pos.backward, behind := false }) s := by
  unfold cmpArmNow
  dsimp only
  rw [if_neg (Bool.eq_false_iff.mp h), if_pos (valueAhead_iff.mp ha)]

theorem cmpArmNow_behind (ha : ¬ valueAhead i s) :
    cmpArmNow i s = raise 0x0C006 (p9 i :: pPos (getPos s Obj.cmpPos i))
      (modCmp i (fun u => { u with armedBack := !s.pos.backward, behind := true }) s) := by
  unfold cmpArmNow
  dsimp only
  rw [if_neg (Bool.eq_false_iff.mp h), if_neg (mt valueAhead_iff.mpr ha)]

end

theorem Keeps.valueAhead_iff {T : List Area} {O : List Nat} {s u : State} (h : Keeps T O s u) (i : Nat)
    (hpos : .pos ∉ T := by decide) (hencs : .encs ∉ T := by decide) (hhare : .hare ∉ T := by decide)
    (hclock : .clock ∉ T := by decide) (hvalues : .values ∉ T := by decide) (hcmp : Obj.cmpPos ∉ O := by decide) :
    valueAhead i u ↔ valueAhead i s := by
  rw [valueAhead, h.areas .pos hpos, h.posNow_eq hpos hencs hhare hclock, getPos_congr (h.objs hvalues Obj.cmpPos hcmp i),
    valueAhead]

/-! A write of CMP (R389). -/

/-- A write of CMP leaves the bits of the unit's fields as they are. -/
theorem bitOf_cmpFields (v : Word) {b : Nat} (hb : bitOf 0xBFFFC0000#36 b = true) :
    bitOf (v &&& 0xBFFFC0000#36) b = bitOf v b := by
  have hand : bitOf (v &&& 0xBFFFC0000#36) b = (bitOf v b && bitOf 0xBFFFC0000#36 b) := BitVec.getLsbD_and
  rw [hand, hb, Bool.and_true]

theorem cmpDo_and (i : Nat) (v : Word) (s : State) : cmpDo i (v &&& 0xBFFFC0000#36) s = cmpDo i v s := by
  unfold cmpDo
  rw [BitVec.and_assoc, BitVec.and_self, bitOf_cmpFields v (by decide), bitOf_cmpFields v (by decide)]

/-- The word of CMP set by a write. -/
def cmpSet (i : Nat) (v : Word) (s : State) : State := setN Obj.cmp i (v &&& 0xBFFFC0000#36).toNat s

theorem cmpSet_keeps (i : Nat) (v : Word) (s : State) : Keeps [] [Obj.cmp] s (cmpSet i v s) :=
  keeps_setN (by decide) (Keeps.refl ..)

/-- The word of CMP set, and the queue emptied. -/
def cmpSetAlone (i : Nat) (v : Word) (s : State) : State := modCmp i (fun u => { u with queue := [] }) (cmpSet i v s)

theorem cmpSetAlone_keeps (i : Nat) (v : Word) (s : State) : Keeps [.cmps] [Obj.cmp] s (cmpSetAlone i v s) :=
  (modCmp_keeps ..).step (by decide) (by decide) ((cmpSet_keeps i v s).mono (by decide) (by decide))

section
variable (i : Nat) (v : Word) (s : State)

theorem getW_cmpSet : getW (cmpSet i v s) Obj.cmp i = v &&& 0xBFFFC0000#36 := getW_setN_self ..

theorem getW_cmpSetAlone : getW (cmpSetAlone i v s) Obj.cmp i = v &&& 0xBFFFC0000#36 :=
  (getW_congr ((modCmp_keeps ..).objs (by decide) Obj.cmp (by decide) i)).trans (getW_cmpSet i v s)

theorem getW_cmpArmNow : getW (cmpArmNow i s) Obj.cmp i = getW s Obj.cmp i :=
  getW_congr ((cmpArmNow_keeps i s).objs (by decide) Obj.cmp (by decide) i)

variable {v}

theorem cmpDo_off (hoff : bitOf v 35 = false) :
    cmpDo i v s = modCmp i (fun u => { u with behind := false }) (cmpSetAlone i v s) := by
  simp [cmpDo, hoff, cmpSetAlone, cmpSet]

section
variable (hon : bitOf v 35 = true)
include hon

theorem cmpDo_paged (hpage : bitOf v 33 = true) : cmpDo i v s = cmpArmNow i (cmpSet i v s) := by
  simp [cmpDo, hon, hpage, cmpSet]

theorem cmpDo_single (hpage : bitOf v 33 = false) : cmpDo i v s = cmpArmNow i (cmpSetAlone i v s) := by
  simp [cmpDo, hon, hpage, cmpSetAlone, cmpSet]

end

theorem cmpDo_word : getW (cmpDo i v s) Obj.cmp i = v &&& 0xBFFFC0000#36 := by
  cases hon : bitOf v 35 with
  | false =>
    rw [cmpDo_off i s hon, ← getW_cmpSetAlone i v s]
    exact getW_congr ((modCmp_keeps ..).objs (by decide) Obj.cmp (by decide) i)
  | true =>
    cases hpage : bitOf v 33 with
    | false => rw [cmpDo_single i s hon hpage, getW_cmpArmNow, getW_cmpSetAlone]
    | true => rw [cmpDo_paged i s hon hpage, getW_cmpArmNow, getW_cmpSet]

end

section
variable {i : Nat} (hi : i < 8) {v : Word} {s : State}
include hi

theorem cmpU_cmpSetAlone : cmpU (cmpSetAlone i v s) i = { cmpU s i with queue := [] } := cmpU_modCmp hi ..

theorem cmpDo_unit_off (hoff : bitOf v 35 = false) :
    cmpU (cmpDo i v s) i = { cmpU s i with behind := false, queue := [] } := by
  rw [cmpDo_off i s hoff, cmpU_modCmp hi, cmpU_cmpSetAlone hi]

variable (hon : bitOf v 35 = true)
include hon

theorem cmpDo_unit_paged (hpage : bitOf v 33 = true) :
    cmpU (cmpDo i v s) i = { cmpU s i with armedBack := false, behind := false } := by
  have hword : bitOf (getW (cmpSet i v s) Obj.cmp i) 33 = true := by
    rw [getW_cmpSet, bitOf_cmpFields v (by decide), hpage]
  rw [cmpDo_paged i s hon hpage, cmpArmNow_paged hword, cmpU_modCmp hi]
  rfl

variable (hpage : bitOf v 33 = false)
include hpage

theorem cmpDo_unit_ahead (ha : valueAhead i s) :
    cmpU (cmpDo i v s) i = { armedBack := s.pos.backward, behind := false, queue := [] } := by
  have hword : bitOf (getW (cmpSetAlone i v s) Obj.cmp i) 33 = false := by
    rw [getW_cmpSetAlone, bitOf_cmpFields v (by decide), hpage]
  have hahead : valueAhead i (cmpSetAlone i v s) := ((cmpSetAlone_keeps i v s).valueAhead_iff i).mpr ha
  rw [cmpDo_single i s hon hpage, cmpArmNow_ahead hword hahead, cmpU_modCmp hi, cmpU_cmpSetAlone hi]
  rfl

/-- A unit armed behind the position says so (R389). -/
theorem cmpDo_behind (ha : ¬ valueAhead i s) : ∃ x,
    cmpDo i v s = raise 0x0C006 (p9 i :: pPos (getPos s Obj.cmpPos i)) x ∧ KeepsRaised s x
      ∧ cmpU x i = { armedBack := !s.pos.backward, behind := true, queue := [] } := by
  have hset := cmpSetAlone_keeps i v s
  have hword : bitOf (getW (cmpSetAlone i v s) Obj.cmp i) 33 = false := by
    rw [getW_cmpSetAlone, bitOf_cmpFields v (by decide), hpage]
  have hbehind : ¬ valueAhead i (cmpSetAlone i v s) := mt (hset.valueAhead_iff i).mp ha
  rw [cmpDo_single i s hon hpage, cmpArmNow_behind hword hbehind,
    getPos_congr (hset.objs (by decide) Obj.cmpPos (by decide) i)]
  refine ⟨_, rfl, (modCmp_keeps ..).raisedAfter hset.keepsRaised, ?_⟩
  rw [cmpU_modCmp hi, cmpU_cmpSetAlone hi]
  rfl

end

/-- An accepted write answers what its effect g and the reply leave; storing the word keeps the events raised. -/
theorem answers_acceptedRaising {c : Instr} {f g : State → State} {obj i : Nat} {vals : List Word} {s : State} {d : ObjDef}
    {e : Elem} {T : List Area} {O : List Nat} {P : State → Prop} (hx : exec c s = happen c.tick f s) (hw : Works s)
    (ha : Accepted obj i vals (advance c.tick s)) (hf : f (advance c.tick s) = writeOne obj i vals (advance c.tick s))
    (hd : findObj obj = some d) (he : elemsOf d.wordsPer vals = [e]) (hg : ∀ x, elemApply d i (maskElem d e) x = g x)
    (hk : ∀ x, Keeps T O x (g x)) (hp : .pwr ∉ T)
    (hP : ∀ x, Keeps [.ev, .mem] [Obj.eventLost, Obj.flipCtrl] (advance c.tick s) x → KeepsRaised (advance c.tick s) x →
      P (settle (emit (.reply 0 []) (g x)))) : Answers c s P := by
  refine answers_afterWrite hx hw (hf.trans (writeOne_accepted hd he ha)) (fun x => ?_) ?_
  · rw [hg]
    exact (hk x).code hp
  · rw [afterWrite, hg]
    exact hP _ (ramWrite_keeps ..) (ramWrite_keepsRaised ..)

theorem elemLo_maskElem_and {d : ObjDef} (hd : d.wordsPer ≠ 2) (w : Word) :
    elemLo (maskElem d (BitVec.ofNat 72 w.toNat)) = w &&& d.mask := by
  have hw : w.toNat < 2 ^ 36 := w.isLt
  have hand : w.toNat &&& d.mask.toNat < 2 ^ 36 := Nat.and_lt_two_pow _ d.mask.isLt
  have hsmall : w.toNat % 2 ^ 72 % 2 ^ 36 = w.toNat := by omega
  apply BitVec.eq_of_toNat_eq
  rw [maskElem, if_neg hd, BitVec.toNat_ofNat, hsmall, BitVec.toNat_and]
  simp only [elemLo, wd, BitVec.toNat_ofNat]
  omega

theorem cmpArm_arms {t : Nat} {i : Fin 8} {v : Word} {s : State} (hw : Works s)
    (ha : Accepted Obj.cmp i.val [v] (advance t s)) : Answers (.cmpArm t i v) s (fun u =>
      let V := getPos s Obj.cmpPos i.val
      let p := posNow (advance t s)
      getW u Obj.cmp i.val = v &&& 0xBFFFC0000#36
        ∧ (bitOf v 35 = false → (cmpU u i.val).behind = false ∧ (cmpU u i.val).queue = [])
        ∧ (bitOf v 35 = true → bitOf v 33 = true → (cmpU u i.val).behind = false ∧ (cmpU u i.val).queue = (cmpU s i.val).queue)
        ∧ (bitOf v 35 = true → bitOf v 33 = false → (if s.pos.backward then V < p else p < V) →
          (cmpU u i.val).armedBack = s.pos.backward ∧ (cmpU u i.val).behind = false ∧ (cmpU u i.val).queue = [])
        ∧ (bitOf v 35 = true → bitOf v 33 = false → ¬ (if s.pos.backward then V < p else p < V) →
          (cmpU u i.val).armedBack = !s.pos.backward ∧ (cmpU u i.val).behind = true
            ∧ Raises 0x0C006 (p9 i.val :: pPos V) s u)) := by
  refine answers_acceptedRaising (exec_cmpArm ..) hw ha rfl rfl rfl (g := cmpDo i.val v) (fun x => ?_) (cmpDo_keeps _ _)
    (by decide) fun x hx hraised => ?_
  · exact (congrArg (cmpDo i.val · x) (elemLo_maskElem_and (by decide) v)).trans (cmpDo_and ..)
  · have hunit : cmpU x i.val = cmpU s i.val := hx.cmpU_eq i.val
    have hpos : x.pos = s.pos := hx.areas .pos (by decide)
    have hahead : valueAhead i.val x ↔ valueAhead i.val (advance t s) := hx.valueAhead_iff i.val
    have hvalue : getPos x Obj.cmpPos i.val = getPos s Obj.cmpPos i.val :=
      getPos_congr (hx.objs (by decide) Obj.cmpPos (by decide) i.val)
    intro V p
    rw [getW_settle (by decide), getW_emit, cmpDo_word, cmpU_settle, cmpU_emit]
    refine ⟨rfl, fun hoff => ?_, fun hon hpage => ?_, fun hon hpage h => ?_, fun hon hpage h => ?_⟩
    · rw [cmpDo_unit_off i.isLt hoff]
      exact ⟨rfl, rfl⟩
    · rw [cmpDo_unit_paged i.isLt hon hpage, hunit]
      exact ⟨rfl, rfl⟩
    · rw [cmpDo_unit_ahead i.isLt hon hpage (hahead.mpr h), hpos]
      exact ⟨rfl, rfl, rfl⟩
    · obtain ⟨y, hy, hkept, hyunit⟩ := cmpDo_behind i.isLt hon hpage (mt hahead.mp h)
      obtain ⟨-, hready, -⟩ := hw
      have hevent : Raises 0x0C006 (p9 i.val :: pPos (getPos x Obj.cmpPos i.val)) s
          (settle (emit (.reply 0 []) (cmpDo i.val v x))) := by
        rw [hy]
        exact raises_settle_of_keepsRaised (s := advance t s) hready ⟨rfl, List.prefix_rfl⟩ (hraised.trans hkept)
      rw [hvalue] at hevent
      have hafter : cmpU (cmpDo i.val v x) i.val = cmpU y i.val := by rw [hy, cmpU, raise_cmps, cmpU]
      rw [hafter, hyunit, hpos]
      exact ⟨rfl, rfl, hevent⟩

/-! Firing (R389 to R392). -/

/-- The pulse of a compare unit that fires at its pin (R390). -/
def comparePulse (i : Nat) (s : State) : Sent :=
  .pulse (fld (getW s Obj.cmp i) 30 29) (bitOf (getW s Obj.cmp i) 28) (fld (getW s Obj.cmp i) 27 18) (s.clock.tick * 64)

section
variable {i : Nat} {s : State} (page : Option (Nat × Int))

theorem cmpDeliver_pulse (h : fld (getW s Obj.cmp i) 32 31 = 2) :
    cmpDeliver i page s = emit (comparePulse i s) (bump Obj.cmpFired i 1 s) := by
  simp only [cmpDeliver, h]
  rfl

theorem cmpDeliver_counted : getN (cmpDeliver i page s) Obj.cmpFired i = satN 36 (getN s Obj.cmpFired i + 1) := by
  have hbump : getN (bump Obj.cmpFired i 1 s) Obj.cmpFired i = satN 36 (getN s Obj.cmpFired i + 1) := by
    rw [getN_bump_self, satN_eq_min]
  rw [← hbump]
  unfold cmpDeliver
  dsimp only
  split
  · exact getN_congr ((frameStart_keeps ..).objs (by decide) Obj.cmpFired (by decide) i)
  · rfl
  · rfl

theorem getE_cmpDeliver {id : Nat} (hid : id = Obj.cmp ∨ id = Obj.cmpPos ∨ id = Obj.cmpPeriod) (j : Nat) :
    getE (cmpDeliver i page s) id j = getE s id j := by
  refine (cmpDeliver_keeps ..).objs (by decide) id ?_ j
  obtain rfl | rfl | rfl := hid <;> decide

end

section
variable {i : Nat} {s : State}

/-- After its effect a firing changes the unit alone, its CMP and its V. -/
theorem cmpFireOnce_keeps_delivered (i : Nat) (s : State) :
    Keeps [.cmps] [Obj.cmp, Obj.cmpPos] (cmpDeliver i none s) (cmpFireOnce i s) := by
  unfold cmpFireOnce
  extract_lets v back x period
  exact keeps_ite (keeps_setE (by decide) (Keeps.refl ..))
    (keeps_setN (by decide) ((modCmp_keeps ..).mono (by decide) (by decide)))

/-- A unit without PERIOD ends with its firing (R391). -/
theorem cmpFireOnce_last (hperiod : getN s Obj.cmpPeriod i = 0) : cmpFireOnce i s =
    setN Obj.cmp i (setBit (getW s Obj.cmp i) 35 false).toNat
      (modCmp i (fun u => { u with behind := false }) (cmpDeliver i none s)) := by
  have hperiod' : getN (cmpDeliver i none s) Obj.cmpPeriod i = 0 := by
    rw [getN_congr (getE_cmpDeliver none (by decide) i), hperiod]
  have hword : getW (cmpDeliver i none s) Obj.cmp i = getW s Obj.cmp i := getW_congr (getE_cmpDeliver none (by decide) i)
  simp [cmpFireOnce, hperiod', hword]

/-- V of a unit armed forward moves on by PERIOD (R391). -/
theorem cmpFireOnce_again (hperiod : getN s Obj.cmpPeriod i ≠ 0) (hforward : (cmpU s i).armedBack = false) :
    cmpFireOnce i s = setE Obj.cmpPos i
      (posElem (wrapPos (getPos s Obj.cmpPos i + getN s Obj.cmpPeriod i))) (cmpDeliver i none s) := by
  have hperiod' : getN (cmpDeliver i none s) Obj.cmpPeriod i = getN s Obj.cmpPeriod i :=
    getN_congr (getE_cmpDeliver none (by decide) i)
  simp [cmpFireOnce, hperiod', hperiod, hforward]

section
variable (hstill : posNow s = s.pos.last) (hforward : s.pos.backward = false) (hon : bitOf (getW s Obj.cmp i) 35 = true)
include hstill hforward hon

theorem cmpFire_due (hpage : bitOf (getW s Obj.cmp i) 33 = false) (harmed : (cmpU s i).armedBack = false)
    (hdue : getPos s Obj.cmpPos i ≤ posNow s) : cmpFire i s = cmpFireOnce i s := by
  simp [cmpFire, posTouch_still hstill.symm, hforward, hon, hpage, harmed, hdue]

theorem cmpFire_queued (hpage : bitOf (getW s Obj.cmp i) 33 = true) {v : Int} {page : Nat} {rest : List (Int × Nat)}
    (hqueue : (cmpU s i).queue = (v, page) :: rest) (hdue : v ≤ posNow s) :
    cmpFire i s = cmpDeliver i (some (page, v)) (modCmp i (fun u => { u with queue := rest }) s) := by
  simp [cmpFire, posTouch_still hstill.symm, hforward, hon, hpage, hqueue, hdue]

end
end

theorem cmpFire_fires {t : Nat} {i : Fin 8} {s : State} (ha : awake s = true) (hstill : posNow (advance t s) = s.pos.last)
    (hforward : s.pos.backward = false) (hon : bitOf (getW s Obj.cmp i.val) 35 = true)
    (hpage : bitOf (getW s Obj.cmp i.val) 33 = false) (harmed : (cmpU s i.val).armedBack = false)
    (hdue : getPos s Obj.cmpPos i.val ≤ posNow (advance t s)) (hpulse : fld (getW s Obj.cmp i.val) 32 31 = 2) :
    Answers (.cmpFire t i) s (fun u =>
      getN u Obj.cmpFired i.val = satN 36 (getN s Obj.cmpFired i.val + 1)
        ∧ Sends [.pulse (fld (getW s Obj.cmp i.val) 30 29) (bitOf (getW s Obj.cmp i.val) 28) (fld (getW s Obj.cmp i.val) 27 18)
            (max s.clock.tick t * 64)] s u
        ∧ (getN s Obj.cmpPeriod i.val = 0 → bitOf (getW u Obj.cmp i.val) 35 = false ∧ (cmpU u i.val).behind = false)
        ∧ (getN s Obj.cmpPeriod i.val ≠ 0 → getW u Obj.cmp i.val = getW s Obj.cmp i.val
            ∧ getPos u Obj.cmpPos i.val = wrapPos (getPos s Obj.cmpPos i.val + getN s Obj.cmpPeriod i.val))) := by
  refine answers_happen (exec_cmpFire ..) ha ?_
  rw [cmpFire_due (s := advance t s) hstill hforward hon hpage harmed hdue]
  have hdone := cmpFireOnce_keeps_delivered i.val (advance t s)
  rw [getN_settle (by decide), getN_congr (hdone.objs (by decide) Obj.cmpFired (by decide) _), cmpDeliver_counted,
    getW_settle (by decide), cmpU_settle, getPos_congr (getE_settle (by decide) ..)]
  refine ⟨rfl, sends_settle ?_, fun hperiod => ?_, fun hperiod => ?_⟩
  · rw [hdone.areas .sent (by decide), cmpDeliver_pulse none (s := advance t s) hpulse, emit_sent, comparePulse, advance_tick]
    rfl
  · rw [cmpFireOnce_last (s := advance t s) hperiod, getW_setN_self, bitOf_setBit_self _ _ (by decide), cmpU_setN,
      cmpU_modCmp i.isLt]
    exact ⟨rfl, rfl⟩
  · rw [cmpFireOnce_again (s := advance t s) hperiod harmed, getPos_setE_self]
    exact ⟨getW_congr ((getE_setE_obj (by decide) ..).trans (getE_cmpDeliver _ (by decide) _)), rfl⟩

theorem cmpFire_fires_queued {t : Nat} {i : Fin 8} {v : Int} {page : Nat} {rest : List (Int × Nat)} {s : State}
    (ha : awake s = true) (hstill : posNow (advance t s) = s.pos.last) (hforward : s.pos.backward = false)
    (hon : bitOf (getW s Obj.cmp i.val) 35 = true) (hpage : bitOf (getW s Obj.cmp i.val) 33 = true)
    (hqueue : (cmpU s i.val).queue = (v, page) :: rest) (hdue : v ≤ posNow (advance t s)) :
    Answers (.cmpFire t i) s (fun u =>
      (cmpU u i.val).queue = rest ∧ getN u Obj.cmpFired i.val = satN 36 (getN s Obj.cmpFired i.val + 1)
        ∧ getW u Obj.cmp i.val = getW s Obj.cmp i.val) := by
  refine answers_happen (exec_cmpFire ..) ha ?_
  rw [cmpFire_queued (s := advance t s) hstill hforward hon hpage hqueue hdue, cmpU_settle, getN_settle (by decide),
    getW_settle (by decide), (cmpDeliver_keeps ..).cmpU_eq, cmpU_modCmp i.isLt, cmpDeliver_counted,
    getW_congr (getE_cmpDeliver _ (by decide) _)]
  exact ⟨rfl, rfl, rfl⟩

/-- Settles O36: one lemma for each kind of command. -/
theorem webPositionFollowsEncodersLatchesAndCompares : Obligations.WebPositionFollowsEncodersLatchesAndCompares :=
  ⟨fun _ _ _ _ _ _ _ => encoderEdge_counts,
    fun _ _ _ ha hfree hchecked hok hforward hsound => ⟨indexPulse_first ha hfree ⟨hchecked, hok, hforward, hsound⟩,
      fun _ href hr => indexPulse_outOfWindow ha hfree ⟨hchecked, hok, hforward, hsound⟩ href hr⟩,
    fun _ _ _ _ _ _ => encoderFault_fails, fun _ _ _ => encoderWireFault_pairZ, fun _ _ _ => encoderRecover_failed,
    fun _ _ _ => encoderRecover_other, fun _ _ => positionLatch_pairs, fun _ _ _ => posSourceWrite_sets,
    fun _ _ _ _ => posPreset_waits, fun _ _ _ _ => cmpArm_arms, fun _ _ _ => cmpFire_fires,
    fun _ _ _ _ _ _ => cmpFire_fires_queued⟩

end Sys2Proof.Machine
end

section
/-! PROOFS. Accepted writes of objects of groups 0C to 12 (R376 to R472): what each one's effect leaves alone. -/

namespace Sys2Proof.Machine

open Sys2Proof

/-- A write of an object whose value is all it sets (R83). -/
theorem setE_keeps (id i : Nat) (e : Elem) (x : State) : Keeps [] [id] x (setE id i e x) :=
  keeps_setE List.mem_cons_self (Keeps.refl ..)

/-- A preset waits in the Web Position Unit alone (R388). -/
theorem preset_keeps (q : Int) (x : State) : Keeps [.pos] [] x { x with pos := { x.pos with preset := some q } } :=
  keeps_pos List.mem_cons_self (Keeps.refl ..)

/-- Settles O50: each command is its write's effect between the word stored and the reply, and each effect has its frame. -/
theorem acceptedWritesOfMotionAndPowerLeaveTheRestAlone : Obligations.AcceptedWritesOfMotionAndPowerLeaveTheRestAlone :=
  ⟨fun _ _ _ hw ha => frame_ramOnly_of_accepted ha hw rfl rfl rfl rfl rfl fun e => setE_keeps _ _ e,
    fun _ _ _ _ hw ha => frame_ramOnly_of_accepted ha hw rfl rfl rfl rfl rfl fun e => preset_keeps (elemPos e),
    fun _ _ _ _ hw ha => frame_ramOnly_of_accepted ha hw rfl rfl rfl rfl rfl fun _ => cmpDo_keeps _ _,
    fun _ _ _ _ hw ha => frame_ramOnly_of_accepted ha hw rfl rfl rfl rfl rfl fun _ => hareCtrlDo_keeps _,
    fun _ _ _ _ hw ha => frame_ramOnly_of_accepted ha hw rfl rfl rfl rfl rfl fun _ => startMove_keeps _ _,
    fun _ _ _ _ hw ha => frame_ramOnly_of_accepted ha hw rfl rfl rfl rfl rfl fun _ => axDecelDo_keeps _ _,
    fun _ _ _ hw ha => frame_ramOnly_of_accepted ha hw rfl rfl rfl rfl rfl fun _ => axCtrlDo_keeps _ _,
    fun _ _ hw ha => frame_ramOnly_of_accepted ha hw rfl rfl rfl rfl rfl fun _ => keeps_if auxClearDo_keeps,
    fun _ _ _ hw ha => frame_ramOnly_of_accepted ha hw rfl rfl rfl rfl rfl fun _ => syncReqDo_keeps _,
    fun _ _ _ hw ha => frame_ramOnly_of_accepted ha hw rfl rfl rfl rfl rfl fun _ => expCommitDo_keeps _,
    fun _ _ _ hw ha => frame_ramOnly_of_accepted ha hw rfl rfl rfl rfl rfl fun e => dispAckDo_keeps (elemLo e).toNat,
    fun _ _ _ hw ha => frame_ramOnly_of_accepted ha hw rfl rfl rfl rfl rfl fun _ => calReqDo_keeps _,
    fun _ _ _ hw ha => frame_of_accepted ha hw rfl rfl rfl rfl (fun _ => clearDo_keeps _) fun _ x => (clearDo_keeps _ x).code,
    fun _ _ _ hw ha => frame_ramOnly_of_accepted ha hw rfl rfl rfl rfl rfl fun _ => hpcEnableDo_keeps _,
    fun _ _ _ hw ha => frame_ramOnly_of_accepted ha hw rfl rfl rfl rfl rfl fun _ => hpcEnableDo_keeps _,
    fun _ _ _ hw ha => frame_ramOnly_of_accepted ha hw rfl rfl rfl rfl rfl fun _ => unlatchDo_keeps _⟩

end Sys2Proof.Machine
end
